-- ==== Sys2Proof/Word.lean ====
section
/-! DEFINITION. The plain number types of the TC-24 and the arithmetic of slots, shelves and positions
(00_scope.md, Conventions: slot s stands on shelf floor(s/8), at position s mod 8). -/

namespace Sys2Proof

/-- One byte, of a frame, a console stream or a payload. -/
abbrev Byte := BitVec 8

/-- A slot, 0 to 23. -/
abbrev Slot := Fin 24

/-- A shelf, 0 to 2. -/
abbrev Shelf := Fin 3

/-- A slot's position on its shelf, 0 to 7. -/
abbrev Position := Fin 8

/-- A node of a shelf's factory bus: node number 1..8 is index 0..7. -/
abbrev NodeIx := Fin 8

/-- A bin of the outgoing totes, 0 to 15 (R184). -/
abbrev BinIx := Fin 16

/-- A plan of the plan table, 0 to 3 (R109). -/
abbrev PlanIx := Fin 4

/-- A scope of the Event Unit: slots 0..23, shelves 24..26, the controller 27 (R211). -/
abbrev Scope := Fin 28

/-- The shelf a slot stands on. -/
def shelfOf (i : Slot) : Shelf := ⟨i.val / 8, by omega⟩

/-- A slot's position on its shelf. -/
def posOf (i : Slot) : Position := ⟨i.val % 8, by omega⟩

/-- The slot at a position of a shelf. -/
def slotAt (k : Shelf) (p : Position) : Slot := ⟨8 * k.val + p.val, by omega⟩

/-- The eight positions of a shelf, ascending. -/
def allPositions : List Position := [0, 1, 2, 3, 4, 5, 6, 7]

/-- The three shelves, ascending. -/
def allShelves : List Shelf := [0, 1, 2]

/-- The slots of a shelf, ascending. -/
def slotsOf (k : Shelf) : List Slot := allPositions.map (slotAt k)

/-- The 24 slots, ascending. -/
def allSlots : List Slot := allShelves.flatMap slotsOf

/-- The node number 1..8 of a node index. -/
def nodeNumber (n : NodeIx) : Nat := n.val + 1

end Sys2Proof
end

