-- ==== Sys2Proof/Syntax.lean ====
section
/-! DEFINITION. The commands of the TC-24: one constructor per row of spec/opcode_table.json. A request of the host
link carries the tag and the payload bytes of its frame; a line change carries the new level; the commands that read
the shelf's attention wire carry its level at that moment (R68, R69). -/

namespace Sys2Proof

/-- The two supply status lines of a shelf (R28). -/
inductive SupplyLine where
  | ssa | ssb
  deriving DecidableEq, Repr

/-- Who told the Plan Runner STOP_PHASE or ABORT_PLAN: a vector action of the Attention Unit (R102) or a signature of
Console Watch (R175). -/
inductive TripSource where
  | vector | signature
  deriving DecidableEq, Repr

/-- The steps of the part, one per row of the opcode table. -/
inductive Instr where
  /-- RESET (R24). -/
  | reset
  /-- HOST_FRAME_RECEIVED (R203). -/
  | hostFrameReceived (byte : Byte)
  /-- HOST_FRAME_ABANDONED (R203). -/
  | hostFrameAbandoned (byte : Byte) (framingError : Bool)
  /-- HOST_BYTE_GAP_EXPIRY (R203). -/
  | hostByteGapExpiry
  /-- TX_FRAME_END (R207). -/
  | txFrameEnd
  /-- UNKNOWN_KIND (R206). -/
  | unknownKind (kind tag : Byte) (payload : List Byte)
  /-- IDENTIFY (R209). -/
  | identify (tag : Byte) (payload : List Byte)
  /-- SHELF_SET (R26). -/
  | shelfSet (tag : Byte) (payload : List Byte)
  /-- SHELF_READ (R27). -/
  | shelfRead (tag : Byte) (payload : List Byte)
  /-- SHELF_RESTART (R131). -/
  | shelfRestart (tag : Byte) (payload : List Byte)
  /-- BUS_SET (R59). -/
  | busSet (tag : Byte) (payload : List Byte)
  /-- CONSOLE_SET (R167). -/
  | consoleSet (tag : Byte) (payload : List Byte)
  /-- KEY_LOAD (R75). -/
  | keyLoad (tag : Byte) (payload : List Byte)
  /-- VECTOR_SET (R101). -/
  | vectorSet (tag : Byte) (payload : List Byte)
  /-- PLAN_LOAD (R111). -/
  | planLoad (tag : Byte) (payload : List Byte)
  /-- PHASE_LOAD (R111). -/
  | phaseLoad (tag : Byte) (payload : List Byte)
  /-- SIGNATURE_LOAD (R171). -/
  | signatureLoad (tag : Byte) (payload : List Byte)
  /-- RULE_LOAD (R181). -/
  | ruleLoad (tag : Byte) (payload : List Byte)
  /-- RULES_SET (R182). -/
  | rulesSet (tag : Byte) (payload : List Byte)
  /-- SHIP_ITEM_LOAD (R190). -/
  | shipItemLoad (tag : Byte) (payload : List Byte)
  /-- SHIP_LIST_SET (R190). -/
  | shipListSet (tag : Byte) (payload : List Byte)
  /-- SEGMENT_SET (R147). -/
  | segmentSet (tag : Byte) (payload : List Byte)
  /-- BIN_SET (R189). -/
  | binSet (tag : Byte) (payload : List Byte)
  /-- BIN_READ (R189). -/
  | binRead (tag : Byte) (payload : List Byte)
  /-- TOTE_SWAP (R188). -/
  | toteSwap (tag : Byte) (payload : List Byte)
  /-- SLOT_ENABLE (R16). -/
  | slotEnable (tag : Byte) (payload : List Byte)
  /-- SLOT_ARM (R113). -/
  | slotArm (tag : Byte) (payload : List Byte)
  /-- SLOT_START (R114). -/
  | slotStart (tag : Byte) (payload : List Byte)
  /-- SLOT_ABORT (R130). -/
  | slotAbort (tag : Byte) (payload : List Byte)
  /-- SLOT_UNLOCK (R19). -/
  | slotUnlock (tag : Byte) (payload : List Byte)
  /-- SLOT_LOCATE (R23). -/
  | slotLocate (tag : Byte) (payload : List Byte)
  /-- SLOT_RETIRE (R21). -/
  | slotRetire (tag : Byte) (payload : List Byte)
  /-- SLOT_READ (R210). -/
  | slotRead (tag : Byte) (payload : List Byte)
  /-- ATTN_ACK (R104). -/
  | attnAck (tag : Byte) (payload : List Byte)
  /-- DEFECT_READ (R162). -/
  | defectRead (tag : Byte) (payload : List Byte)
  /-- HEAD_READ (R163). -/
  | headRead (tag : Byte) (payload : List Byte)
  /-- CONSOLE_READ (R170). -/
  | consoleRead (tag : Byte) (payload : List Byte)
  /-- EVENTS_READ (R214). -/
  | eventsRead (tag : Byte) (payload : List Byte)
  /-- EVENTS_CLEAR (R215). -/
  | eventsClear (tag : Byte) (payload : List Byte)
  /-- EVENTS_ENABLE (R216). -/
  | eventsEnable (tag : Byte) (payload : List Byte)
  /-- PRESENCE_LINE_CHANGE (R11). -/
  | presenceLineChange (slot : Slot) (level : Bool)
  /-- PRESENCE_DEBOUNCE_EXPIRY (R11). -/
  | presenceDebounceExpiry (slot : Slot)
  /-- ACTIVITY_LINE_CHANGE (R12). -/
  | activityLineChange (slot : Slot) (level : Bool)
  /-- ACTIVITY_DEBOUNCE_EXPIRY (R12). -/
  | activityDebounceExpiry (slot : Slot)
  /-- SUPPLY_LINE_CHANGE (R28). -/
  | supplyLineChange (shelf : Shelf) (line : SupplyLine) (level : Bool)
  /-- SUPPLY_DEBOUNCE_EXPIRY (R28). -/
  | supplyDebounceExpiry (shelf : Shelf) (line : SupplyLine)
  /-- SPIN_WINDOW_EXPIRY (R39). -/
  | spinWindowExpiry (slot : Slot)
  /-- BOOT_DELAY_EXPIRY (R4). -/
  | bootDelayExpiry (slot : Slot)
  /-- ATTACH_DEADLINE_EXPIRY (R78). -/
  | attachDeadlineExpiry (slot : Slot)
  /-- ATTACH_PAUSE_EXPIRY (R79). -/
  | attachPauseExpiry (shelf : Shelf)
  /-- UNLOCK_HOLD_EXPIRY (R18). -/
  | unlockHoldExpiry (slot : Slot)
  /-- LOCATE_OVERRIDE_EXPIRY (R23). -/
  | locateOverrideExpiry (slot : Slot)
  /-- QUIET_TIME_MET (R50). -/
  | quietTimeMet (shelf : Shelf)
  /-- COMMAND_FRAME_END (R50). -/
  | commandFrameEnd (shelf : Shelf)
  /-- CONTEST_END (R52). -/
  | contestEnd (shelf : Shelf) (value : BitVec 64)
  /-- ATTN_QUERY_NODE_READ (R69). -/
  | attnQueryNodeRead (shelf : Shelf) (value : BitVec 4) (wire : Bool)
  /-- REPLY_FRAME_RECEIVED (R50). -/
  | replyFrameReceived (shelf : Shelf) (frame : List Byte) (wire : Bool)
  /-- REPLY_WINDOW_CLOSE (R50). -/
  | replyWindowClose (shelf : Shelf) (wire : Bool)
  /-- RESET_PULSE_END (R65). -/
  | resetPulseEnd (slot : Slot)
  /-- POLL_TIMER_EXPIRY (R58). -/
  | pollTimerExpiry (slot : Slot)
  /-- ATTENTION_WIRE_ASSERTED (R68). -/
  | attentionWireAsserted (shelf : Shelf)
  /-- ATTN_HOLDOFF_EXPIRY (R69). -/
  | attnHoldoffExpiry (shelf : Shelf) (wire : Bool)
  /-- BUS_WIRE_STUCK (R71). -/
  | busWireStuck (shelf : Shelf)
  /-- LOCATE_WINDOW_CLOSE (R86). -/
  | locateWindowClose (shelf : Shelf)
  /-- PHASE_DONE (R99). -/
  | phaseDone (slot : Slot) (phase : Nat)
  /-- PHASE_FAILED (R99). -/
  | phaseFailed (slot : Slot) (phase : Nat) (reason : Byte)
  /-- OVER_TEMP (R119). -/
  | overTemp (slot : Slot)
  /-- DRIVE_FAULT (R128). -/
  | driveFault (slot : Slot)
  /-- STOP_PHASE (R176). -/
  | stopPhase (slot : Slot) (source : TripSource) (code : Byte)
  /-- ABORT_PLAN (R128). -/
  | abortPlan (slot : Slot) (source : TripSource) (code : Byte)
  /-- EARLY_STOP (R128). -/
  | earlyStop (slot : Slot)
  /-- PHASE_WALL_SECOND (R139). -/
  | phaseWallSecond (slot : Slot)
  /-- WALL_TIME_REACHED (R118). -/
  | wallTimeReached (slot : Slot)
  /-- REST_EXPIRY (R122). -/
  | restExpiry (slot : Slot)
  /-- OFF_TIME_EXPIRY (R123). -/
  | offTimeExpiry (slot : Slot)
  /-- ON_TIME_EXPIRY (R123). -/
  | onTimeExpiry (slot : Slot)
  /-- CONSOLE_BYTE_ARRIVAL (R166). -/
  | consoleByteArrival (slot : Slot) (byte : Byte)
  /-- CONSOLE_FRAMING_ERROR (R166). -/
  | consoleFramingError (slot : Slot)
  /-- DATA_WIRE_LEVEL_CHANGE (R50). -/
  | dataWireLevelChange (shelf : Shelf) (level : Bool)
  /-- CONSOLE_LINE_CHANGE (R166). -/
  | consoleLineChange (slot : Slot) (level : Bool)
  /-- CONSOLE_START_GLITCH (R166). -/
  | consoleStartGlitch (slot : Slot)
  /-- HOST_BYTE_RECEIVED (R203). -/
  | hostByteReceived (byte : Byte)
  deriving DecidableEq, Repr

end Sys2Proof
end

