-- ==== Sys2Proof/Machine/State.lean ====
section
/-! DEFINITION. The state of the TC-24 as plain data: every piece of state the chapters give the part, each at the
reset value its chapter states. Views that the chapters derive from other state (commitment, switch, spin-hold, current
limit, supply status, indicators) are functions elsewhere and are stored once here. A timer is the moment of its expiry
on the model's millisecond clock, absent while it is stopped (log 8). -/

namespace Sys2Proof.Machine

/-! ## The slot record (chapter 01) -/

/-- The occupancy state of a slot (R1). -/
inductive Occupancy where
  | empty | held | powerWait | booting | attaching | ready | testing | binWait | shipping | removeReady
  deriving DecidableEq, Repr

/-- The admission field of a slot (R4). -/
inductive Admission where
  | off | queued | booting | attaching | bound
  deriving DecidableEq, Repr

/-- The power class of a slot (R1, R29). -/
inductive PowerClass where
  | off | idle | inrush | run
  deriving DecidableEq, Repr

/-- The pattern of an indicator (R22). -/
inductive Pattern where
  | off | on | slow | fast
  deriving DecidableEq, Repr

/-- A drive's serial and model code, as the contest carries them (R2, R81). -/
structure Identity where
  serial : BitVec 48
  model : Byte
  deriving DecidableEq, Repr

/-- The motor state a POLL reply reports (R51), in its order. -/
inductive Motor where
  | stopped | spinningUp | ready
  deriving DecidableEq, Repr

/-- The test state a POLL reply reports (R51), in its order. -/
inductive TestState where
  | idle | running | done | fault
  deriving DecidableEq, Repr

/-- The drive part (R2). -/
structure DrivePart where
  ident : Identity
  node : NodeIx
  maxLba : Nat
  heads : Nat
  motor : Motor
  missed : Nat
  deriving DecidableEq, Repr

/-- The poll record (R60); the seconds since the poll are counted from its moment. -/
structure PollRecord where
  test : TestState
  progress : Nat
  inService : Bool
  moment : Nat
  deriving DecidableEq, Repr

/-! ## The shelf budget (chapter 02) -/

/-- The blocks that ask the Power Manager for power or spin (R32). -/
inductive Requester where
  | supervisor | planRunner | ladder
  deriving DecidableEq, Repr

/-- The kinds of a budget wait queue entry (R31). -/
inductive EntryKind where
  | power | spin
  deriving DecidableEq, Repr

/-- An entry of a budget wait queue (R31). -/
structure QueueEntry where
  slot : Slot
  kind : EntryKind
  requester : Requester
  deriving DecidableEq, Repr

/-- The supply status (R28). -/
inductive SupplyStatus where
  | good | derated | failed
  deriving DecidableEq, Repr

/-! ## Plans and runs (chapter 06) -/

/-- The scan tag of a DRIVE_TEST (R110). -/
inductive ScanTag where
  | baseline | final | none
  deriving DecidableEq, Repr

/-- The on-fail setting of a phase (R110). -/
inductive OnFail where
  | continue | stopPlan
  deriving DecidableEq, Repr

/-- The kind of a phase with the fields of its kind (R110). -/
inductive PhaseBody where
  | soak (testCode : Byte) (maxWall target bandLow bandHigh excursion : Nat)
  | driveTest (testCode : Byte) (tag : ScanTag) (maxWall : Nat)
  | rest (duration : Nat)
  | powerCycle (cycles offTime onTime : Nat)
  deriving DecidableEq, Repr

/-- A phase record (R110). -/
structure PhaseRec where
  body : PhaseBody
  onFail : OnFail
  deriving DecidableEq, Repr

/-- The action of a signature (R171). -/
inductive TripAction where
  | count | stopPhase | abortPlan
  deriving DecidableEq, Repr

/-- A signature (R171); its length is the number of its bytes. -/
structure Signature where
  bytes : List Byte
  action : TripAction
  deriving DecidableEq, Repr

/-- A plan: header, phase records (absent while unloaded) and signature places (R109, R110, R171). -/
structure Plan where
  id : Nat
  count : Nat
  t0 : Nat
  step : Nat
  factors : Vector Nat 9
  stale : Nat
  perHead : Nat
  total : Nat
  gap : Nat
  phases : Vector (Option PhaseRec) 12
  sigs : Vector (Option Signature) 4
  deriving DecidableEq, Repr

/-- The outcome of a phase (R116). -/
inductive PhaseOutcome where
  | pass | fail | skipped | aborted
  deriving DecidableEq, Repr

/-- The reason of a phase's outcome (R116). -/
inductive PhaseReason where
  | none | drive | timeout | excursion | thermal | vector | trip | spin | noAttach | interrupted | earlyStop
  | driveFault | noResponse | hostAbort | pulled | lost | swap
  deriving DecidableEq, Repr

/-- A decided outcome with its reason and detail (R115, R116). -/
structure Verdict where
  outcome : PhaseOutcome
  reason : PhaseReason
  detail : Nat
  deriving DecidableEq, Repr

/-- An entry of the outcome list (R116). -/
inductive OutcomeEntry where
  | pending
  | ended (verdict : Verdict) (wall dose : Nat)
  deriving DecidableEq, Repr

/-- The stop reasons, in the order that gives their codes (R178). -/
inductive StopReason where
  | none | phaseFail | earlyStop | driveFault | vector | trip | noResponse | hostAbort | attachFail | swap | lost
  | pulled
  deriving DecidableEq, Repr

/-- The phase state (R115). -/
inductive PhaseState where
  | pending | starting | running | stopping | suspended | ended
  deriving DecidableEq, Repr

/-- The steps of a POWER_CYCLE (R123). -/
inductive CycleStep where
  | spinDown | offTime | awaitPower | attach | spin | onTime
  deriving DecidableEq, Repr

/-- The run record (R115), with the timers of its phase. -/
structure Run where
  plan : PlanIx
  planId : Nat
  phase : Nat
  state : PhaseState
  decided : Option Verdict
  wall : Nat
  dose : Nat
  runDose : Nat
  oobPhase : Nat
  oobRun : Nat
  excursion : Nat
  stale : Nat
  interruptions : Nat
  cycleStep : Option CycleStep
  cyclesDone : Nat
  suspShed : Bool
  suspRecovery : Bool
  outcomes : List OutcomeEntry
  trips : Nat
  incomplete : Bool
  stop : Option StopReason
  /-- The next second of the wall timer (R118), absent while it holds. -/
  wallTimer : Option Nat
  /-- The duration timer of a REST (R122). -/
  restTimer : Option Nat
  /-- The off timer and the on timer of a POWER_CYCLE (R123). -/
  offTimer : Option Nat
  onTimer : Option Nat
  /-- A NO_ATTACH taken while the phase was ENDED, kept for the next (R127). -/
  noAttachKept : Bool
  deriving DecidableEq, Repr

/-! ## Attention (chapter 05) -/

/-- The actions of the vector table (R101), in their order. -/
inductive VectorAction where
  | notifyHold | notifyClear | stopPhase | abortPlan | ignore
  deriving DecidableEq, Repr

/-- What decides the handling of an attention: the fixed table of R98 or a vector action (R95). -/
inductive Disposition where
  | fixed
  | vector (action : VectorAction)
  deriving DecidableEq, Repr

/-- The run field of an attention record (R95). -/
inductive RunTag where
  | current | ended | none
  deriving DecidableEq, Repr

/-- The stage of an attention record (R95). -/
inductive Stage where
  | part | host
  deriving DecidableEq, Repr

/-- The fetch progress of a DEFECTS_READY record (R95). -/
structure FetchProgress where
  received : Nat
  remaining : Option Nat
  empties : Nat
  finished : Bool
  deriving DecidableEq, Repr

/-- The attention record (R95). -/
structure AttnRecord where
  code : Byte
  detail : Byte
  phase : Option Nat
  run : RunTag
  disposition : Disposition
  stage : Stage
  clearPending : Bool
  fetch : Option FetchProgress
  deriving DecidableEq, Repr

/-- The outcome of the last-attention summary (R95). -/
inductive AttnOutcome where
  | taken | stale | held | acked | discarded
  deriving DecidableEq, Repr

/-- The last-attention summary (R95). -/
structure AttnSummary where
  code : Byte
  detail : Byte
  phase : Option Nat
  outcome : AttnOutcome
  deriving DecidableEq, Repr

/-- What the Plan Runner may be told as an event of its own (R99, R128, R175). -/
inductive ReportKind where
  | phaseDone (phase : Nat)
  | phaseFailed (phase : Nat) (reason : Byte)
  | overTemp
  | driveFault
  | stopPhase (source : TripSource) (code : Byte)
  | abortPlan (source : TripSource) (code : Byte)
  | earlyStop
  deriving DecidableEq, Repr

/-- A report told to the Plan Runner and not yet taken. `live` falls when the run part it was told under is
discarded, and for a phase-end report when the phase resumes (R126); `owesClear` says that the attention record that brought it still waits for the taking, and `ownsSummary` that
the last-attention summary is still that attention's and not DISCARDED (log 5, log 6). -/
structure Report where
  kind : ReportKind
  live : Bool
  owesClear : Bool
  ownsSummary : Bool
  deriving DecidableEq, Repr

/-! ## Temperature, defects, console (chapters 07, 08, 09) -/

/-- The temperature record (R133); the age is counted from the moment of storing. -/
structure TempRec where
  valid : Bool
  t : Nat
  moment : Nat
  deriving DecidableEq, Repr

/-- The class of a defect (R149), in its order. -/
inductive DefectClass where
  | realloc | pending | servo | ta
  deriving DecidableEq, Repr

/-- The origin of a stored entry (R149), in its order. -/
inductive Origin where
  | baseline | final | other
  deriving DecidableEq, Repr

/-- A defect report of a FETCH reply (R149). -/
structure DefectReport where
  head : Nat
  cls : DefectClass
  start : Nat
  length : Nat
  deriving DecidableEq, Repr

/-- A stored entry (R149). -/
structure DefectEntry where
  head : Nat
  cls : DefectClass
  origin : Origin
  phase : Nat
  start : Nat
  length : Nat
  deriving DecidableEq, Repr

/-- The counters of one head (R148). -/
structure HeadCount where
  reports : Nat
  sectors : Nat
  grown : Nat
  deriving DecidableEq, Repr

/-- The first-grown capture (R158). -/
structure Capture where
  head : Nat
  start : Nat
  length : Nat
  phase : Nat
  deriving DecidableEq, Repr

/-- A slot's segment and what the Defect Store keeps beside it (R146, R148). -/
structure Segment where
  base : Nat
  limit : Nat
  entries : List DefectEntry
  revision : Nat
  heads : Vector HeadCount 16
  fullDrops : Nat
  overflow : Bool
  early : Bool
  firstGrown : Option Capture
  deriving DecidableEq, Repr

/-- The console rates (R167), in the order of the catalogue (R208). -/
inductive ConsoleRate where
  | r9600 | r38400 | r115200 | r921600
  deriving DecidableEq, Repr

/-- The state of a slot's console receiver (R166); a byte in reception keeps the rate of its start period (R167). -/
inductive ConsoleRx where
  | stopped | waitHigh | watching
  | receiving (rate : ConsoleRate)
  deriving DecidableEq, Repr

/-- What Console Watch holds for a slot (R168, R172), the oldest byte of the ring first. -/
structure ConsoleRec where
  line : Bool
  rx : ConsoleRx
  ring : List Byte
  received : Nat
  framingErrors : Nat
  progress : Vector Nat 4
  lastByte : Option Nat
  deriving DecidableEq, Repr

/-! ## Grading and shipping (chapter 10) -/

/-- The grade inputs (R179). -/
structure GradeInputs where
  attachOk : Bool
  stop : StopReason
  failedPhases : Nat
  worstHead : Nat
  totalSectors : Nat
  grownSectors : Nat
  reports : Nat
  trips : Nat
  incomplete : Bool
  oobSeconds : Nat
  runDose : Nat
  deriving DecidableEq, Repr

/-- The result part (R3, R178); the stop reason stands in the grade inputs. -/
structure Result where
  inputs : GradeInputs
  bin : Option BinIx
  ruleIndex : Nat
  planId : Nat
  firstGrown : Option Capture
  shipped : Bool
  deriving DecidableEq, Repr

/-- A grading rule (R181). -/
structure Rule where
  maxWorst : Nat
  maxTotal : Nat
  maxGrown : Nat
  maxReports : Nat
  maxFailed : Nat
  maxTrips : Nat
  maxOob : Nat
  allowed : BitVec 9
  requireComplete : Bool
  bin : BinIx
  deriving DecidableEq, Repr

/-- A bin of the bin table (R184). -/
structure Bin where
  capacity : Nat
  fill : Nat
  reserved : Nat
  hold : List Slot
  deriving DecidableEq, Repr

/-- An item of the ship item list (R190). -/
structure ShipItem where
  id : Nat
  value : BitVec 32
  bins : BitVec 16
  deriving DecidableEq, Repr

/-- The path of a ship sequence (R191). -/
inductive ShipPath where
  | full | rework | noDrive
  deriving DecidableEq, Repr

/-- The step of a ship sequence (R191). -/
inductive ShipStep where
  | waitBind | write | read | stamp | park | powerOff
  deriving DecidableEq, Repr

/-- The ship record (R191). -/
structure ShipRec where
  path : ShipPath
  step : ShipStep
  position : Nat
  selected : List ShipItem
  failures : Nat
  deriving DecidableEq, Repr

/-- The attach deadline of a slot of the attaching set (R77, R78). -/
inductive Deadline where
  | running (moment : Nat)
  | paused (left : Nat)
  | expired
  deriving DecidableEq, Repr

/-- The record of one slot: the core and the optional parts of R1 to R3 and what the other blocks hold per slot. -/
structure SlotRec where
  occ : Occupancy
  adm : Admission
  presRaw : Bool
  present : Bool
  presTimer : Option Nat
  actRaw : Bool
  active : Bool
  actTimer : Option Nat
  enabled : Bool
  armed : Option PlanIx
  autostart : Bool
  unlocked : Bool
  unlockTimer : Option Nat
  locateTimer : Option Nat
  bootTimer : Option Nat
  identity : Option Identity
  drive : Option DrivePart
  run : Option Run
  result : Option Result
  cls : PowerClass
  powerRank : Option Nat
  spinRank : Option Nat
  spinTimer : Option Nat
  spinReq : Option Requester
  powerReq : Requester
  ladder : Nat
  ladderInReady : Bool
  silent : Bool
  pollTimer : Option Nat
  poll : Option PollRecord
  pulseTimer : Option Nat
  deadline : Option Deadline
  attn : Option AttnRecord
  summary : Option AttnSummary
  reports : List Report
  temp : TempRec
  seg : Segment
  con : ConsoleRec
  reservation : Option BinIx
  ship : Option ShipRec
  diverted : Bool
  deriving DecidableEq, Repr

/-! ## The factory bus (chapter 03) -/

/-- The kinds of transaction (R51), in the order of its table. -/
inductive BusKind where
  | wake | contest | assign | locate | release | readInfo | poll | startTest | stopTest | attnQuery | attnClear
  | fetch | writeItem | readItem | stamp | park | testReset
  deriving DecidableEq, Repr

/-- A transaction with its command fields (R51). `attnClear` carries the node for the node clear of R96; `attnQuery`
carries the winning node once its bit periods have been read; `stopTest` says whether it was submitted at a
suspension, whose outcome changes nothing (R125). -/
inductive BusCmd where
  | wake (pattern : List Byte)
  | contest
  | assign (node : NodeIx)
  | locate (node : NodeIx)
  | release (node : NodeIx)
  | readInfo (node : NodeIx)
  | poll
  | startTest (code : Byte) (phase : Nat)
  | stopTest (suspension : Bool)
  | attnQuery (winner : Option NodeIx)
  | attnClear
  | nodeClear (node : NodeIx)
  | fetch
  | writeItem (id : Nat) (value : BitVec 32)
  | readItem (id : Nat)
  | stamp (bin : BinIx) (rule planId dose : Nat) (stop : StopReason)
  | park
  | testReset
  deriving DecidableEq, Repr

/-- The six classes of pending work (R54). -/
inductive BusClass where
  | attach | attention | control | fetch | ship | poll
  deriving DecidableEq, Repr

/-- The owners of work items (R53). -/
inductive Owner where
  | attachUnit | attentionUnit | planRunner | shipUnit | busController
  deriving DecidableEq, Repr

/-- A work item (R53): per-slot kinds name their slot, the others only the shelf. -/
structure Item where
  shelf : Shelf
  slot : Option Slot
  cmd : BusCmd
  owner : Owner
  deriving DecidableEq, Repr

/-- The fields of a reply, a contest or a query (R51, R52). -/
inductive ReplyFields where
  | ack
  | contest (value : BitVec 64)
  | info (maxLba heads : Nat)
  | status (test : TestState) (motor : Motor) (temperature progress : Nat) (inService : Bool)
  | attention (code detail : Byte)
  | reports (list : List DefectReport) (remaining : Nat)
  | value (v : BitVec 32)
  deriving DecidableEq, Repr

/-- What an owner is told of its item (R56, R53). -/
inductive Answer where
  | done (fields : ReplyFields)
  | badReply | noReply | dropped | notBound | noResponse | superseded
  deriving DecidableEq, Repr

/-- The transaction in flight: the item, the node it is addressed to, and whether its outcome is DROPPED (R57) or
disregarded by its owner (R91, R131, R199). -/
structure Flight where
  item : Item
  node : Option NodeIx
  dropped : Bool
  orphan : Bool
  deriving DecidableEq, Repr

/-- The data wire's stage (R50, R55). `ending` stands only within the handling of a transaction's end. -/
inductive BusPhase where
  | free
  | ending
  | waiting (flight : Flight)
  | sending (flight : Flight)
  | contending (flight : Flight)
  | nodeBits (flight : Flight)
  | window (flight : Flight) (closes : Nat)
  deriving DecidableEq, Repr

/-- The round-robin pointers of classes 2 to 6 (R54). -/
structure Pointers where
  attention : Position
  control : Position
  fetch : Position
  ship : Position
  poll : Position
  deriving DecidableEq, Repr

/-! ## Attachment (chapter 04) -/

/-- An entry of the node map (R90). -/
inductive NodeEntry where
  | free | candidate
  | binding (slot : Slot)
  | bound (slot : Slot)
  | stranded (count : Nat)
  deriving DecidableEq, Repr

/-- The step of an attach round (section 4.4). `release` is the wait of R86's last row; `finishing` stands only within
the handling of a binding. -/
inductive RoundStep where
  | contest
  | assign (node : NodeIx) (ident : Identity)
  | locate (node : NodeIx) (ident : Identity)
  | window (node : NodeIx) (ident : Identity) (opened : Nat) (pulsing left : List Slot)
  | readInfo (node : NodeIx) (ident : Identity) (slot : Slot) (attempt : Nat)
  | release (node : NodeIx)
  | finishing
  deriving DecidableEq, Repr

/-- Why a pass is paused (R79). -/
inductive PauseReason where
  | noContender | fault
  deriving DecidableEq, Repr

/-- The state of a shelf's attach pass (R79). -/
inductive Pass where
  | idle | keyWait
  | round (step : RoundStep)
  | paused (reason : PauseReason) (moment : Nat)
  deriving DecidableEq, Repr

/-- The record of one shelf: its budget (R25), its supply lines (R28), its bus (chapter 03), its attach pass and node
map (chapter 04) and its console rate (R167). -/
structure ShelfRec where
  enabled : Bool
  limit : Nat
  idleDraw : Nat
  runDraw : Nat
  inrushDraw : Nat
  spinWindow : Nat
  bootDelay : Nat
  rawA : Bool
  rawB : Bool
  lineA : Bool
  lineB : Bool
  timerA : Option Nat
  timerB : Option Nat
  queue : List QueueEntry
  pollSecs : Nat
  rate : ConsoleRate
  attachList : List Item
  attnWide : List Item
  testReset : Option Item
  work : List Item
  pointers : Pointers
  phase : BusPhase
  dataHigh : Bool
  highSince : Nat
  stuckTimer : Option Nat
  stuckTold : Bool
  attnWire : Bool
  holdoff : Option Nat
  nodeWait : List NodeIx
  pass : Pass
  mismatches : Nat
  nodes : Vector NodeEntry 8
  deriving DecidableEq, Repr

/-! ## The host link and the events (chapter 11) -/

/-- The status byte of a reply (R206), in its order. -/
inductive Status where
  | ok | badLength | badValue | badState | inUse | busy | unknownKind
  deriving DecidableEq, Repr

/-- A request of the queue (R204), with whether it has been served (R205). -/
structure Request where
  kind : Byte
  tag : Byte
  payload : List Byte
  served : Bool
  deriving DecidableEq, Repr

/-- What SHELF_READ reports (R27, R90). -/
structure ShelfReport where
  enabled : Bool
  limit : Nat
  idleDraw : Nat
  runDraw : Nat
  inrushDraw : Nat
  spinWindow : Nat
  bootDelay : Nat
  supply : SupplyStatus
  currentLimit : Nat
  committed : Nat
  lineA : Bool
  lineB : Bool
  queue : List (Slot × EntryKind)
  nodes : Vector NodeEntry 8
  deriving DecidableEq, Repr

/-- What section 0 of SLOT_READ reports (R210). -/
structure CoreReport where
  occ : Occupancy
  adm : Admission
  present : Bool
  active : Bool
  enabled : Bool
  armed : Option PlanIx
  autostart : Bool
  cls : PowerClass
  unlocked : Bool
  unlockLeft : Nat
  locateLeft : Nat
  green : Pattern
  amber : Pattern
  drive : Option DrivePart
  identity : Option Identity
  poll : Option (TestState × Nat × Bool × Nat)
  ladder : Nat
  silent : Bool
  temperature : Option (Nat × Nat)
  attn : Option AttnRecord
  summary : Option AttnSummary
  deriving DecidableEq, Repr

/-- The fields that follow the status OK of a reply. -/
inductive ReplyBody where
  | none
  | identify (device : Nat) (fast wakeLoaded : Bool)
  | shelf (report : ShelfReport)
  | bin (capacity fill reserved : Nat) (hold : List Slot)
  | core (report : CoreReport)
  | run (run : Option Run)
  | result (result : Option Result) (reservation : Option BinIx) (holdPlace : Option Nat) (ship : Option ShipRec)
      (diverted : Bool)
  | defects (base limit count revision : Nat) (overflow : Bool) (entries : List DefectEntry)
  | heads (counters : List HeadCount) (fullDrops : Nat) (overflow early : Bool) (firstGrown : Option Capture)
  | console (bytes : List Byte) (received framingErrors held : Nat) (rate : ConsoleRate) (matching : Bool)
      (progress : Vector Nat 4)
  | scope (flags enables : BitVec 32) (pending : Bool)
  | allFlags (sets : List (BitVec 32))
  | flagSet (set : BitVec 32)
  deriving DecidableEq, Repr

/-- What a reply carries in a coding the manual leaves open (log 15): whether a part stands here (R210), how many entries
a list has, the seconds since a poll (R60), and the selected items of a ship record (R191). -/
inductive OpenField where
  | part (present : Bool)
  | entries (n : Nat)
  | pollAge (seconds : Nat)
  | items (l : List ShipItem)
  deriving DecidableEq, Repr

/-- A frame of the transmitter (R206, R217, R218). A reply names its request's kind. -/
inductive TxFrame where
  | startup (sequence : Nat) (fast : Bool)
  | notice (scope : Scope) (sequence : Nat) (flags : BitVec 32)
  | reply (kind tag : Byte) (status : Status) (body : ReplyBody)
  | busyReply (kind tag : Byte)
  deriving DecidableEq, Repr

/-- The whole machine. `now` is the model's clock in milliseconds and `pending` the queue of commands (log 1). -/
structure State where
  slots : Vector SlotRec 24
  shelves : Vector ShelfRec 3
  wakePattern : List Byte
  vectors : Vector VectorAction 224
  plans : Vector Plan 4
  rules : Vector Rule 16
  ruleCount : Nat
  defaultBin : BinIx
  reworkBin : BinIx
  bins : Vector Bin 16
  shipItems : Vector (Option ShipItem) 32
  shipCount : Nat
  flags : Vector (BitVec 32) 28
  enables : Vector (BitVec 32) 28
  notices : List Scope
  sequence : Nat
  held : List Byte
  lastHostByte : Nat
  requests : List Request
  busyList : List (Byte × Byte)
  replies : List TxFrame
  tx : Option TxFrame
  startupSent : Bool
  fastLink : Bool
  baudsel : Bool
  now : Nat
  pending : List Instr
  deriving DecidableEq, Repr

/-- Why a command can stop the model. -/
inductive Fault where
  /-- The chain of tells of one event was longer than the model's bound (log 7). Raised where a command's tells are
  carried out (`conclude`, `answerRequest`) and nowhere else; safe, since the model stops where the part goes on. -/
  | cascade
  deriving DecidableEq, Repr

/-- Why a command can be refused. -/
inductive Refusal where
  /-- A command of the table that has no meaning in the model. Raised by `exec` alone; safe. No arm raises it. -/
  | notModelled (mnemonic : String)
  deriving DecidableEq, Repr

/-! ## Reset values -/

/-- A plan after reset (R109, R110, R132, R177). -/
def Plan.reset : Plan where
  id := 0
  count := 0
  t0 := 0
  step := 4
  factors := Vector.replicate 9 256
  stale := 10
  perHead := 0
  total := 0
  gap := 2000
  phases := Vector.replicate 12 none
  sigs := Vector.replicate 4 none

/-- The limit that means no limit (R181). -/
def noLimit : Nat := 0xFFFFFFFF

/-- A grading rule after reset (R181). -/
def Rule.reset : Rule where
  maxWorst := noLimit
  maxTotal := noLimit
  maxGrown := noLimit
  maxReports := noLimit
  maxFailed := noLimit
  maxTrips := noLimit
  maxOob := noLimit
  allowed := 0
  requireComplete := false
  bin := 0

/-- A bin after reset (R184, R200). -/
def Bin.reset : Bin where
  capacity := 20
  fill := 0
  reserved := 0
  hold := []

/-- Head counters at their emptied value (R148). -/
def HeadCount.zero : HeadCount where
  reports := 0
  sectors := 0
  grown := 0

/-- An emptied segment of a given base and limit (R148, R164). -/
def Segment.empty (base limit : Nat) : Segment where
  base := base
  limit := limit
  entries := []
  revision := 0
  heads := Vector.replicate 16 HeadCount.zero
  fullDrops := 0
  overflow := false
  early := false
  firstGrown := none

/-- What Console Watch holds for a slot after reset (R177), its receive line high (log 9). -/
def ConsoleRec.reset : ConsoleRec where
  line := true
  rx := .stopped
  ring := []
  received := 0
  framingErrors := 0
  progress := Vector.replicate 4 0
  lastByte := none

/-- The temperature record after reset and at a discard (R133, R135). -/
def TempRec.reset : TempRec where
  valid := false
  t := 0
  moment := 0

/-- The record of slot i after reset (R1, R24, R48, R72, R92, R108, R165, R200). -/
def SlotRec.reset (i : Slot) : SlotRec where
  occ := .empty
  adm := .off
  presRaw := false
  present := false
  presTimer := none
  actRaw := false
  active := false
  actTimer := none
  enabled := true
  armed := none
  autostart := false
  unlocked := false
  unlockTimer := none
  locateTimer := none
  bootTimer := none
  identity := none
  drive := none
  run := none
  result := none
  cls := .off
  powerRank := none
  spinRank := none
  spinTimer := none
  spinReq := none
  powerReq := .supervisor
  ladder := 0
  ladderInReady := false
  silent := false
  pollTimer := none
  poll := none
  pulseTimer := none
  deadline := none
  attn := none
  summary := none
  reports := []
  temp := TempRec.reset
  seg := Segment.empty (256 * i.val) 256
  con := ConsoleRec.reset
  reservation := none
  ship := none
  diverted := false

/-- The record of a shelf after reset (R25, R48, R72, R92, R177). -/
def ShelfRec.reset : ShelfRec where
  enabled := false
  limit := 120
  idleDraw := 6
  runDraw := 9
  inrushDraw := 22
  spinWindow := 20
  bootDelay := 4
  rawA := false
  rawB := false
  lineA := false
  lineB := false
  timerA := none
  timerB := none
  queue := []
  pollSecs := 2
  rate := .r115200
  attachList := []
  attnWide := []
  testReset := none
  work := []
  pointers := { attention := 7, control := 7, fetch := 7, ship := 7, poll := 7 }
  phase := .free
  dataHigh := true
  highSince := 0
  stuckTimer := none
  stuckTold := false
  attnWire := false
  holdoff := none
  nodeWait := []
  pass := .idle
  mismatches := 0
  nodes := Vector.replicate 8 .free

/-- The flags that exist in a slot scope, a shelf scope and the controller scope (R211). -/
def slotMask : BitVec 32 := 0x7FFFF#32
def shelfMask : BitVec 32 := 0x3F#32
def controllerMask : BitVec 32 := 0x3#32

/-- The flags of a scope (R211). -/
def scopeMask (c : Scope) : BitVec 32 :=
  if c.val < 24 then slotMask else if c.val < 27 then shelfMask else controllerMask

/-- The 28 scopes, in order (R211). -/
def allScopes : List Scope :=
  [0, 1, 2, 3, 4, 5, 6, 7, 8, 9, 10, 11, 12, 13, 14, 15, 16, 17, 18, 19, 20, 21, 22, 23, 24, 25, 26, 27]

/-- The 24 slot records after reset. -/
def resetSlots : Vector SlotRec 24 :=
  ⟨(allSlots.map SlotRec.reset).toArray, by rfl⟩

/-- The machine after reset: every field at the value its chapter states. The STARTUP notice is the frame being
transmitted (R218, log 36). -/
def State.reset : State where
  slots := resetSlots
  shelves := Vector.replicate 3 ShelfRec.reset
  wakePattern := []
  vectors := Vector.replicate 224 .notifyClear
  plans := Vector.replicate 4 Plan.reset
  rules := Vector.replicate 16 Rule.reset
  ruleCount := 0
  defaultBin := 15
  reworkBin := 14
  bins := Vector.replicate 16 Bin.reset
  shipItems := Vector.replicate 32 none
  shipCount := 0
  flags := Vector.replicate 28 0
  enables := ⟨(allScopes.map scopeMask).toArray, by rfl⟩
  notices := []
  sequence := 0
  held := []
  lastHostByte := 0
  requests := []
  busyList := []
  replies := []
  tx := some (.startup 0 false)
  startupSent := false
  fastLink := false
  baudsel := false
  now := 0
  pending := []

end Sys2Proof.Machine
end

