-- ==== Sys2Proof/Config.lean ====
section
/-! DEFINITION. What the manual leaves open, as constants without a body, and the model's own bound. -/

namespace Sys2Proof

/-- The bytes of a reply field whose coding the manual leaves open (log 15). Nothing in Lean can evaluate it. -/
opaque Config.openBytes : Machine.OpenField → List Byte

/-- The moment of the cell's common blink at reset (R22 gives the periods and that all blink in phase, not the phase;
log 16). Nothing in Lean can evaluate it. -/
opaque Config.blinkOffset : Nat

/-- The most tells one event may lead to before the model stops with `Fault.cascade` (log 7). -/
def Config.tellBound : Nat := 65536

/-- The device code of the part (R209, R218). -/
def Config.deviceCode : Nat := 24

end Sys2Proof
end

