-- ==== Sys2Proof/Machine/Ops.lean ====
section
/-! DEFINITION. The named operations over the state: reading and changing a slot's or a shelf's record, counters that
saturate, timers, and the changes of occupancy with what every such change carries with it. -/

namespace Sys2Proof.Machine

/-- The record of a slot. -/
def State.slot (s : State) (i : Slot) : SlotRec := s.slots[i]

/-- The record of a shelf. -/
def State.shelf (s : State) (k : Shelf) : ShelfRec := s.shelves[k]

/-- Change the record of one slot. -/
def State.modSlot (s : State) (i : Slot) (f : SlotRec → SlotRec) : State :=
  { s with slots := s.slots.set i (f s.slots[i]) }

/-- Change the record of one shelf. -/
def State.modShelf (s : State) (k : Shelf) (f : ShelfRec → ShelfRec) : State :=
  { s with shelves := s.shelves.set k (f s.shelves[k]) }

/-- Change one bin. -/
def State.modBin (s : State) (b : BinIx) (f : Bin → Bin) : State :=
  { s with bins := s.bins.set b (f s.bins[b]) }

/-- Change the run part of a slot, if it holds one. -/
def State.modRun (s : State) (i : Slot) (f : Run → Run) : State :=
  s.modSlot i fun r => { r with run := r.run.map f }

/-- Change the drive part of a slot, if it holds one. -/
def State.modDrive (s : State) (i : Slot) (f : DrivePart → DrivePart) : State :=
  s.modSlot i fun r => { r with drive := r.drive.map f }

/-- A counter that saturates (00, Conventions: Saturation). -/
def satAdd (cap a b : Nat) : Nat := min cap (a + b)

/-- The milliseconds of a number of seconds. -/
def secs (n : Nat) : Nat := 1000 * n

/-- A timer started for a number of milliseconds (log 8). -/
def State.after (s : State) (ms : Nat) : Option Nat := some (s.now + ms)

/-- The whole seconds a timer still has to run, a started second counting whole; 0 while it is stopped (log 8). -/
def secondsLeft (timer : Option Nat) (now : Nat) : Nat :=
  match timer with
  | none => 0
  | some m => (m - now + 999) / 1000

/-- The age in whole seconds of what was stored at a moment, saturating at 65535 (R133). -/
def ageOf (moment now : Nat) : Nat := min 65535 ((now - moment) / 1000)

/-- The element of a list at a place, with a value for the places beyond its end. -/
def nth {α : Type} (l : List α) (n : Nat) (d : α) : α := l.getD n d

/-- Replace the element of a list at a place. -/
def setNth {α : Type} (l : List α) (n : Nat) (a : α) : List α := l.set n a

/-- Whether a list of slots holds a slot. -/
def hasSlot (l : List Slot) (i : Slot) : Bool := l.any (fun j => decide (j = i))

/-! ## The slots of a shelf -/

/-- The slot of the shelf whose drive part holds a node, if there is one (R61). -/
def slotOfNode (s : State) (k : Shelf) (n : NodeIx) : Option Slot :=
  (slotsOf k).find? fun i =>
    match (s.slot i).drive with
    | some d => decide (d.node = n)
    | none => false

/-- Whether every slot of the shelf has its power switch off (R87). -/
def allOff (s : State) (k : Shelf) : Bool :=
  (slotsOf k).all fun i => decide ((s.slot i).cls = .off)

/-- The attaching set of the shelf (R77). -/
def attachSet (s : State) (k : Shelf) : List Slot :=
  (slotsOf k).filter fun i => (s.slot i).deadline.isSome

/-- The KEY_MISSING condition of the shelf (R76). -/
def keyMissing (s : State) (k : Shelf) : Bool :=
  !(attachSet s k).isEmpty && s.wakePattern.isEmpty

/-! ## Indicators (R22, R23) -/

/-- The green and amber patterns of a slot by its occupancy and result (R22), before the locate override. -/
def basePatterns (r : SlotRec) : Pattern × Pattern :=
  match r.occ with
  | .empty => (.off, .off)
  | .held => (.off, .slow)
  | .powerWait => (.slow, .off)
  | .booting => (.slow, .off)
  | .attaching => (.slow, .off)
  | .ready => (.on, .off)
  | .testing => (.fast, .off)
  | .binWait => (.on, .slow)
  | .shipping => (.fast, .slow)
  | .removeReady =>
    match r.result with
    | some res => if res.shipped then (.on, .off) else (.off, .on)
    | none => (.off, .on)

/-- The indicator patterns of a slot, the amber FAST while a locate override runs (R23). -/
def indicators (r : SlotRec) : Pattern × Pattern :=
  match r.locateTimer with
  | none => basePatterns r
  | some _ => ((basePatterns r).1, .fast)

/-- Whether a pattern is lit at a moment of the common blink (R22). -/
def litAt (p : Pattern) (moment : Nat) : Bool :=
  match p with
  | .off => false
  | .on => true
  | .slow => decide (moment % 1000 < 500)
  | .fast => decide (moment % 250 < 125)

/-- Whether the green and the amber indicator of a slot are lit now; all blink in phase (R22; log 16). -/
def lit (s : State) (i : Slot) : Bool × Bool :=
  let moment := s.now + Config.blinkOffset
  (litAt (indicators (s.slot i)).1 moment, litAt (indicators (s.slot i)).2 moment)

/-! ## The outputs of a slot that follow its class and timers (R29, R64) -/

/-- The power switch: on in every class but OFF (R29). -/
def switchOn (r : SlotRec) : Bool := decide (r.cls ≠ .off)

/-- Spin-hold: asserted in OFF and IDLE (R29). -/
def spinHold (r : SlotRec) : Bool := decide (r.cls = .off) || decide (r.cls = .idle)

/-- The drive reset line: asserted while the reset pulse runs (R64, R65). -/
def driveReset (r : SlotRec) : Bool := r.pulseTimer.isSome

/-! ## Console matching -/

/-- All four progress counts at 0 (R172). -/
def clearProgress (r : SlotRec) : SlotRec := { r with con := { r.con with progress := Vector.replicate 4 0 } }

/-! ## Runs and plans -/

/-- The plan of a run (R115); in-use protection keeps it fixed (R112). -/
def planOf (s : State) (run : Run) : Plan := s.plans[run.plan]

/-- The record of a run's current phase. -/
def phaseRec (s : State) (run : Run) : Option PhaseRec := ((planOf s run).phases[run.phase]?).getD none

/-- Whether the current phase runs a test in the drive: SOAK and DRIVE_TEST. -/
def runsTest (s : State) (run : Run) : Bool :=
  match phaseRec s run with
  | some ⟨.soak .., _⟩ => true
  | some ⟨.driveTest .., _⟩ => true
  | _ => false

/-- Whether a plan is complete: its phase count is 1 or more and its records up to it are loaded (R110). -/
def Plan.complete (p : Plan) : Bool :=
  decide (1 ≤ p.count) && (List.range p.count).all fun n => ((p.phases[n]?).getD none).isSome

/-- Whether a plan is in use: armed in some slot or run by one (R112). -/
def planInUse (s : State) (p : PlanIx) : Bool :=
  allSlots.any fun i =>
    decide ((s.slot i).armed = some p) ||
      (match (s.slot i).run with
      | some run => decide (run.plan = p)
      | none => false)

/-- Whether the ship item list is in use: some sequence stands at WRITE or READ (R190). -/
def shipListInUse (s : State) : Bool :=
  allSlots.any fun i =>
    match (s.slot i).ship with
    | some rec => decide (rec.step = .write) || decide (rec.step = .read)
    | none => false

/-! ## The budget figures (R25, R28, R29) -/

/-- The decode of the two debounced supply levels (R28). -/
def supplyDecode (a b : Bool) : SupplyStatus :=
  match a, b with
  | false, false => .good
  | false, true => .derated
  | true, false => .failed
  | true, true => .derated

/-- The supply status of a shelf (R28). -/
def supplyStatus (sh : ShelfRec) : SupplyStatus := supplyDecode sh.lineA sh.lineB

/-- The current limit of a shelf (R28). -/
def currentLimit (sh : ShelfRec) : Nat :=
  match supplyStatus sh with
  | .good => sh.limit
  | .derated => sh.limit / 2
  | .failed => 0

/-- The draw of a power class on a shelf (R29). -/
def drawOf (sh : ShelfRec) : PowerClass → Nat
  | .off => 0
  | .idle => sh.idleDraw
  | .inrush => sh.inrushDraw
  | .run => sh.runDraw

/-- The commitment of a slot (R29). -/
def commitment (s : State) (i : Slot) : Nat := drawOf (s.shelf (shelfOf i)) (s.slot i).cls

/-- The committed total of a shelf: the sum of its eight slots' commitments (R29). -/
def committed (s : State) (k : Shelf) : Nat := ((slotsOf k).map (commitment s)).sum

/-- A rank later than every rank held on the shelf (R25, R34; log 34). -/
def nextRank (s : State) (k : Shelf) : Nat :=
  1 + (slotsOf k).foldl (fun m i =>
    max m (max ((s.slot i).powerRank.getD 0) ((s.slot i).spinRank.getD 0))) 0

/-! ## Use of a bin (R184) -/

/-- The places of a bin that are filled or promised. -/
def Bin.use (b : Bin) : Nat := b.fill + b.reserved

end Sys2Proof.Machine
end

