-- ==== Sys2Proof/Machine/Flags.lean ====
section
/-! DEFINITION. The Event Unit's flags (sections 11.4 and 11.5): the flag names with their bits, setting a flag, the
conditions of the condition flags, and the changes of occupancy, each of which may set a flag. -/

namespace Sys2Proof.Machine

/-- The flags of a slot scope, in bit order (R211). -/
inductive SlotFlag where
  | inserted | attached | attachFailed | phaseEnd | planEnd | attnHeld | attnSeen | trip | protocol | unresponsive
  | swap | segmentFull | earlyStop | binWait | shipFailed | shipped | removed | lost | suspended
  deriving DecidableEq, Repr

/-- The flags of a shelf scope, in bit order (R211). -/
inductive ShelfFlag where
  | supplyChange | supplyIllegal | busFault | keyMissing | shed | protocol
  deriving DecidableEq, Repr

/-- The flags of the controller scope, in bit order (R211). -/
inductive ControllerFlag where
  | binFull | linkError
  deriving DecidableEq, Repr

/-- The bit of a slot flag (R211). -/
def slotFlagBit : SlotFlag → Nat
  | .inserted => 0
  | .attached => 1
  | .attachFailed => 2
  | .phaseEnd => 3
  | .planEnd => 4
  | .attnHeld => 5
  | .attnSeen => 6
  | .trip => 7
  | .protocol => 8
  | .unresponsive => 9
  | .swap => 10
  | .segmentFull => 11
  | .earlyStop => 12
  | .binWait => 13
  | .shipFailed => 14
  | .shipped => 15
  | .removed => 16
  | .lost => 17
  | .suspended => 18

/-- The bit of a shelf flag (R211). -/
def shelfFlagBit : ShelfFlag → Nat
  | .supplyChange => 0
  | .supplyIllegal => 1
  | .busFault => 2
  | .keyMissing => 3
  | .shed => 4
  | .protocol => 5

/-- The bit of a controller flag (R211). -/
def controllerFlagBit : ControllerFlag → Nat
  | .binFull => 0
  | .linkError => 1

/-- The scope of a slot, of a shelf and of the controller (R211). -/
def slotScope (i : Slot) : Scope := ⟨i.val, by omega⟩
def shelfScope (k : Shelf) : Scope := ⟨24 + k.val, by omega⟩
def controllerScope : Scope := 27

/-- Whether a scope's notice is pending (R217). -/
def noticePending (s : State) (c : Scope) : Bool := s.notices.any fun d => decide (d = c)

/-- Make a scope's notice pending: it joins the tail unless it stands in the list (R217). -/
def makePending (c : Scope) (s : State) : State :=
  if noticePending s c then s else { s with notices := s.notices ++ [c] }

/-- Set a flag of a scope (R212): a set flag stays as it is; a clear one is set and, if enabled, makes the scope's
notice pending. -/
def setFlagBit (c : Scope) (bit : Nat) (s : State) : State :=
  if s.flags[c].getLsbD bit then s
  else
    let s' : State := { s with flags := s.flags.set c (s.flags[c] ||| (1#32 <<< bit)) }
    if s.enables[c].getLsbD bit then makePending c s' else s'

/-- Set a flag of a slot. -/
def raiseSlot (i : Slot) (f : SlotFlag) (s : State) : State := setFlagBit (slotScope i) (slotFlagBit f) s

/-- Set a flag of a shelf. -/
def raiseShelf (k : Shelf) (f : ShelfFlag) (s : State) : State := setFlagBit (shelfScope k) (shelfFlagBit f) s

/-- Set a flag of the controller. -/
def raiseController (f : ControllerFlag) (s : State) : State :=
  setFlagBit controllerScope (controllerFlagBit f) s

/-- Whether a slot holds an attention record at stage HOST (R102, R213). -/
def attnHeldCondition (r : SlotRec) : Bool :=
  match r.attn with
  | some a => decide (a.stage = .host)
  | none => false

/-- Whether the current phase of a slot is SUSPENDED (R125, R213). -/
def suspendedCondition (r : SlotRec) : Bool :=
  match r.run with
  | some run => decide (run.state = .suspended)
  | none => false

/-- One bit of a flag set. -/
def bitIf (c : Bool) (bit : Nat) : BitVec 32 := if c then 1#32 <<< bit else 0#32

/-- The condition flags of a slot whose condition holds (R213). -/
def slotConditions (r : SlotRec) : BitVec 32 :=
  bitIf (attnHeldCondition r) (slotFlagBit .attnHeld) |||
    bitIf (decide (r.occ = .binWait)) (slotFlagBit .binWait) |||
    bitIf r.seg.overflow (slotFlagBit .segmentFull) |||
    bitIf (suspendedCondition r) (slotFlagBit .suspended)

/-- The condition flags of a scope whose condition holds (R213). -/
def conditionsOf (s : State) (c : Scope) : BitVec 32 :=
  if h : c.val < 24 then slotConditions (s.slot ⟨c.val, h⟩)
  else if h' : c.val < 27 then
    bitIf (keyMissing s ⟨c.val - 24, by omega⟩) (shelfFlagBit .keyMissing)
  else 0#32

/-- Clear the named flags of a scope, except condition flags whose condition holds (R213, R215). -/
def clearFlags (c : Scope) (set : BitVec 32) (s : State) : State :=
  { s with flags := s.flags.set c (s.flags[c] &&& ~~~(set &&& ~~~(conditionsOf s c))) }

/-- Replace a scope's enable set; a set flag that becomes enabled makes the notice pending (R216). -/
def setEnables (c : Scope) (set : BitVec 32) (s : State) : State :=
  let fresh := s.flags[c] &&& set &&& ~~~s.enables[c]
  let s' : State := { s with enables := s.enables.set c set }
  if fresh = 0#32 then s' else makePending c s'

/-! ## Changes of occupancy -/

/-- The ladder stage at an entry to READY or EMPTY (R63, R6): it returns to 0, except at the return to READY that
follows a stage run while the slot was READY. -/
def enterLadder (o : Occupancy) (r : SlotRec) : SlotRec :=
  match o with
  | .ready => if r.ladderInReady then { r with ladderInReady := false } else { r with ladder := 0 }
  | .empty => { r with ladder := 0, ladderInReady := false }
  | _ => r

/-- Move a slot to an occupancy state: the matcher starts afresh at each entry to TESTING and each exit from it (R172),
the ladder stage follows R63, and BIN_WAIT is set on entry to BIN_WAIT (R10). A move to the state the slot is in
changes nothing. -/
def setOcc (i : Slot) (o : Occupancy) (s : State) : State :=
  let r := s.slot i
  if r.occ = o then s
  else
    let s := s.modSlot i fun r =>
      let r := enterLadder o { r with occ := o }
      if o = .testing ∨ (s.slot i).occ = .testing then clearProgress r else r
    if o = .binWait then raiseSlot i .binWait s else s

/-- Whether the slot stands in its shelf's wait queue, of either kind (R31). -/
def queued (s : State) (i : Slot) : Bool := (s.shelf (shelfOf i)).queue.any fun e => decide (e.slot = i)

/-- Energize the latch for 120 s (R18): only while the slot's switch is off and nothing waits that would turn it on. -/
def unlockLatch (i : Slot) (s : State) : State :=
  if (s.slot i).cls = .off ∧ queued s i = false then
    s.modSlot i fun r => { r with unlocked := true, unlockTimer := s.after (secs 120) }
  else s

/-- De-energize the latch and stop the hold time (R18). -/
def lockLatch (i : Slot) (s : State) : State :=
  s.modSlot i fun r => { r with unlocked := false, unlockTimer := none }

end Sys2Proof.Machine
end

