-- ==== Sys2Proof/Machine/Reports.lean ====
section
/-! DEFINITION. The reports told to a slot's Plan Runner as events of their own (R99, R128, R175; log 5): telling one,
finding the one a command takes, and what happens to them when the run part or the attention record goes. -/

namespace Sys2Proof.Machine

/-- Where a report comes from; reports of one source are taken in the order told. -/
inductive ReportSource where
  | attention | console | defectStore
  deriving DecidableEq, Repr

/-- The source of a report. -/
def sourceOf : ReportKind → ReportSource
  | .phaseDone _ => .attention
  | .phaseFailed _ _ => .attention
  | .overTemp => .attention
  | .driveFault => .attention
  | .stopPhase .vector _ => .attention
  | .abortPlan .vector _ => .attention
  | .stopPhase .signature _ => .console
  | .abortPlan .signature _ => .console
  | .earlyStop => .defectStore

/-- Tell the Plan Runner of a slot something it takes as an event of its own; `captured` says that an attention captured
in this event brings it. -/
def tellRunner (i : Slot) (kind : ReportKind) (captured : Bool) (s : State) : State :=
  s.modSlot i fun r =>
    { r with reports := r.reports ++ [{ kind := kind, live := true, owesClear := captured, ownsSummary := captured }] }

/-- The report whose attention record no longer waits for it (R103). -/
def Report.cleared (p : Report) : Report := { p with owesClear := false }

/-- The report when the last-attention summary is another attention's (R95). -/
def Report.superseded (p : Report) : Report := { p with ownsSummary := false }

/-- The report whose attention record has been discarded (R105). -/
def Report.discarded (p : Report) : Report := p.cleared.superseded

/-- Whether a report is a phase-end report (R99). -/
def ReportKind.endsPhase : ReportKind → Bool
  | .phaseDone _ => true
  | .phaseFailed _ _ => true
  | _ => false

/-- The report once the phase it was captured in has resumed: a phase-end report is stale (R126). -/
def Report.outlived (p : Report) : Report := { p with live := p.live && !p.kind.endsPhase }

/-- The phase-end reports of a slot that were captured before its phase resumes are stale (R126). -/
def staleAtResume (i : Slot) (s : State) : State :=
  s.modSlot i fun r => { r with reports := r.reports.map Report.outlived }

/-- The oldest report of a source. -/
def oldestReport (l : List Report) (src : ReportSource) : Option Report :=
  l.find? fun r => decide (sourceOf r.kind = src)

/-- Remove the oldest report of a source. -/
def removeReport (l : List Report) (src : ReportSource) : List Report :=
  l.eraseP fun r => decide (sourceOf r.kind = src)

/-- Discard the run part of a slot (R178, R131): its attention record's run field becomes ENDED (R95), and what was told
under the run finds no run part when it is taken. -/
def dropRun (i : Slot) (s : State) : State :=
  s.modSlot i fun r =>
    { r with
      run := none
      attn := r.attn.map fun a => if a.run = .current then { a with run := .ended } else a
      reports := r.reports.map fun p => { p with live := false } }

/-- Set the run's defects-incomplete flag, if the slot holds a run part (R100, R105, R155). -/
def markIncomplete (i : Slot) (s : State) : State := s.modRun i fun run => { run with incomplete := true }

end Sys2Proof.Machine
end

