-- ==== Sys2Proof/Machine/Console.lean ====
section
/-! DEFINITION. Console Watch (chapter 09): the tail ring, the matcher, the trip, and the receiver of the console
line. -/

namespace Sys2Proof.Machine

/-- Change what Console Watch holds for a slot. -/
def modCon (i : Slot) (f : ConsoleRec → ConsoleRec) (s : State) : State := s.modSlot i fun r => { r with con := f r.con }

/-- The byte joins the tail ring (R168). -/
def joinRing (b : Byte) (c : ConsoleRec) : ConsoleRec :=
  { c with
    ring := if c.ring.length < 512 then c.ring ++ [b] else c.ring.drop (c.ring.length - 511) ++ [b]
    received := (c.received + 1) % 4294967296 }

/-- Whether a byte matches a byte of a signature: equal to it, or a wildcard (R171, R173). -/
def byteMatches (sig : Signature) (n : Nat) (b : Byte) : Bool :=
  match sig.bytes[n]? with
  | some x => decide (x = b) || decide (x = 0)
  | none => false

/-- The advance of one signature (R173, step 2). -/
def advanceSig (sig : Option Signature) (p : Nat) (b : Byte) : Nat :=
  match sig with
  | none => p
  | some sig => if byteMatches sig p b then p + 1 else if byteMatches sig 0 b then 1 else 0

/-- Whether a signature has completed (R173, step 3). -/
def sigComplete (sig : Option Signature) (p : Nat) : Bool :=
  match sig with
  | none => false
  | some sig => decide (p = sig.bytes.length)

/-- Whether the gap to a byte exceeds a limit (R173, step 1). -/
def gapExceeded (last : Option Nat) (now gap : Nat) : Bool :=
  match last with
  | none => false
  | some m => decide (gap < now - m)

/-- The progress after the gap step and the advance (R173). -/
def advanceAll (plan : Plan) (cut : Bool) (progress : Vector Nat 4) (b : Byte) : Vector Nat 4 :=
  Vector.zipWith (fun sig p => advanceSig sig (if cut then 0 else p) b) plan.sigs progress

/-- The signatures that have completed, ascending (R173). -/
def completedSigs (plan : Plan) (progress : Vector Nat 4) : List Signature :=
  ((plan.sigs.toList.zip progress.toList).filter fun x => sigComplete x.1 x.2).filterMap Prod.fst

/-- Tell the Plan Runner the action of a completed signature (R175). The code of a signature's action is not used. -/
def tellAction (i : Slot) (sig : Signature) (s : State) : State :=
  match sig.action with
  | .count => s
  | .stopPhase => tellRunner i (.stopPhase .signature 0) false s
  | .abortPlan => tellRunner i (.abortPlan .signature 0) false s

/-- The trip of the signatures that completed on a byte (R175). -/
def trip (i : Slot) (done : List Signature) (s : State) : State :=
  let s := s.modRun i fun run => { run with trips := satAdd 65535 run.trips done.length }
  done.foldl (fun s sig => tellAction i sig s) (raiseSlot i .trip s)

/-- The matcher takes a byte (R173). -/
def matchByte (i : Slot) (run : Run) (b : Byte) (s : State) : State :=
  let c := (s.slot i).con
  let plan := planOf s run
  let progress := advanceAll plan (gapExceeded c.lastByte s.now plan.gap) c.progress b
  match completedSigs plan progress with
  | [] => modCon i (fun c => { c with progress := progress }) s
  | done => trip i done (modCon i (fun c => { c with progress := Vector.replicate 4 0 }) s)

/-- A byte arrives (R166, R168, R173): it joins the ring, then the matcher takes it while the slot is TESTING (R172). -/
def byteArrived (i : Slot) (b : Byte) (s : State) : State :=
  let s := modCon i (joinRing b) s
  let s :=
    match (s.slot i).run with
    | some run => if (s.slot i).occ = .testing then matchByte i run b s else s
    | none => s
  modCon i (fun c => { c with rx := .watching, line := true, lastByte := some s.now }) s

/-- A framing error (R166): no byte, the count rises, the matcher starts afresh, and the receiver waits for the line to
read high. -/
def framingError (i : Slot) (s : State) : State :=
  modCon i (fun c =>
    { c with
      rx := .waitHigh
      line := false
      framingErrors := satAdd 65535 c.framingErrors 1
      progress := Vector.replicate 4 0
      lastByte := some s.now }) s

/-- Whether a receiver can be in the reception of a byte (log 29). -/
def receiverActive : ConsoleRx → Bool
  | .watching => true
  | .receiving _ => true
  | _ => false

/-- The receiver after a change of the line (R166, R167): a falling edge begins a start period at the shelf's rate, a
high level ends the wait after a framing error or a power-on. -/
def rxAfter (level : Bool) (rate : ConsoleRate) : ConsoleRx → ConsoleRx
  | .watching => if level then .watching else .receiving rate
  | .waitHigh => if level then .watching else .waitHigh
  | rx => rx

end Sys2Proof.Machine
end

