-- ==== Sys2Proof/Machine/Defects.lean ====
section
/-! DEFINITION. The Defect Store (chapter 08): overlap and adjacency of ranges, the grown delta, the merge, the order
of a segment, the counters, the capture, the early-stop test, and the emptying of a segment. -/

namespace Sys2Proof.Machine

/-- The largest value of a sector counter and of a report counter (R148). -/
def max64 : Nat := 0xFFFFFFFFFFFFFFFF
def max32 : Nat := 0xFFFFFFFF

/-- The place of a class and of an origin in their orders (R149). -/
def classRank : DefectClass → Nat
  | .realloc => 0
  | .pending => 1
  | .servo => 2
  | .ta => 3
def originRank : Origin → Nat
  | .baseline => 0
  | .final => 1
  | .other => 2

/-- The sector after the last one of an entry. -/
def DefectEntry.stop (e : DefectEntry) : Nat := e.start + e.length

/-- Whether two ranges overlap (R149). -/
def overlaps (start₁ length₁ start₂ length₂ : Nat) : Bool :=
  decide (start₁ < start₂ + length₂) && decide (start₂ < start₁ + length₁)

/-- Whether two ranges overlap or adjoin (R149). -/
def touches (start₁ length₁ start₂ length₂ : Nat) : Bool :=
  decide (start₁ ≤ start₂ + length₂) && decide (start₂ ≤ start₁ + length₁)

/-- Whether two entries have one key (R149). -/
def sameKey (a b : DefectEntry) : Bool :=
  decide (a.head = b.head) && decide (a.cls = b.cls) && decide (a.origin = b.origin)

/-- Whether an entry stands before another in (head, start LBA, class, origin) order (R156). -/
def entryBefore (a b : DefectEntry) : Bool :=
  decide (a.head < b.head) || (decide (a.head = b.head) &&
    (decide (a.start < b.start) || (decide (a.start = b.start) &&
      (decide (classRank a.cls < classRank b.cls) || (decide (a.cls = b.cls) &&
        decide (originRank a.origin < originRank b.origin))))))

/-- Place an entry in the order of the segment (R156). -/
def placeEntry (e : DefectEntry) : List DefectEntry → List DefectEntry
  | [] => [e]
  | x :: l => if entryBefore e x then e :: x :: l else x :: placeEntry e l

/-- The parts of a range, given as start and end, that lie outside another range. -/
def cutRange (start stop : Nat) (p : Nat × Nat) : List (Nat × Nat) :=
  (if p.1 < min p.2 start then [(p.1, min p.2 start)] else []) ++
    (if max p.1 stop < p.2 then [(max p.1 stop, p.2)] else [])

/-- The parts of a range that no entry of a list covers. -/
def uncovered (entries : List DefectEntry) (start stop : Nat) : List (Nat × Nat) :=
  entries.foldl (fun parts e => parts.flatMap (cutRange e.start e.stop)) [(start, stop)]

/-- The number of sectors of a range that no entry of a list covers. -/
def uncoveredCount (entries : List DefectEntry) (start length : Nat) : Nat :=
  ((uncovered entries start (start + length)).map fun p => p.2 - p.1).sum

/-- The origin of a delivery by the phase record at its capture phase index (R151). -/
def originOf (s : State) (run : Run) (phase : Nat) : Origin :=
  match ((planOf s run).phases[phase]?).getD none with
  | some ⟨.driveTest _ .baseline _, _⟩ => .baseline
  | some ⟨.driveTest _ .final _, _⟩ => .final
  | _ => .other

/-- The grown delta of a report (R153). -/
def grownDelta (entries : List DefectEntry) (e : DefectEntry) : Nat :=
  if e.origin = .final then
    uncoveredCount (entries.filter fun x => decide (x.head = e.head) && decide (x.origin ≠ .other)) e.start e.length
  else 0

/-- The stored entries a report absorbs (R154). -/
def absorbed (entries : List DefectEntry) (e : DefectEntry) : List DefectEntry :=
  entries.filter fun x => sameKey x e && touches x.start x.length e.start e.length

/-- The merged entry of a report and the entries it absorbs (R154). -/
def mergedEntry (e : DefectEntry) (l : List DefectEntry) : DefectEntry :=
  let start := l.foldl (fun m x => min m x.start) e.start
  let stop := l.foldl (fun m x => max m x.stop) e.stop
  { e with start := start, length := stop - start, phase := l.foldl (fun m x => min m x.phase) e.phase }

/-- The entries after the merge (R154, R156). -/
def mergedEntries (entries : List DefectEntry) (e : DefectEntry) : List DefectEntry :=
  let l := absorbed entries e
  placeEntry (mergedEntry e l) (entries.filter fun x => !(sameKey x e && touches x.start x.length e.start e.length))

/-- The covered-sector delta of a stored report (R154). -/
def coveredDelta (entries : List DefectEntry) (e : DefectEntry) : Nat :=
  let l := absorbed entries e
  (mergedEntry e l).length - (l.map DefectEntry.length).sum

/-- Count a report on its head's counters (R157). -/
def countHead (delta grown : Nat) (c : HeadCount) : HeadCount where
  reports := satAdd max32 c.reports 1
  sectors := satAdd max64 c.sectors delta
  grown := satAdd max64 c.grown grown

/-- The sums handed over at grading (R161), and the total of the early-stop test (R159). -/
def worstHead (heads : Vector HeadCount 16) : Nat := heads.foldl (fun m c => max m c.sectors) 0
def totalSectors (heads : Vector HeadCount 16) : Nat := heads.foldl (fun m c => satAdd max64 m c.sectors) 0
def totalGrown (heads : Vector HeadCount 16) : Nat := heads.foldl (fun m c => satAdd max64 m c.grown) 0
def totalReports (heads : Vector HeadCount 16) : Nat := heads.foldl (fun m c => satAdd max32 m c.reports) 0

/-- Whether a limit other than 0 is exceeded. -/
def exceeds (limit n : Nat) : Bool := decide (limit ≠ 0) && decide (limit < n)

/-- Whether a plan's early-stop limits are exceeded (R159). -/
def earlyStopDue (p : Plan) (heads : Vector HeadCount 16) : Bool :=
  exceeds p.perHead (worstHead heads) || exceeds p.total (totalSectors heads)

/-- Whether a report finds no place: it absorbs nothing and the entry count has reached the limit (R155). -/
def Segment.isFullFor (g : Segment) (e : DefectEntry) : Bool :=
  (absorbed g.entries e).isEmpty && decide (g.limit ≤ g.entries.length)

/-- The segment after a report that passed R152 (R154 to R158): stored or dropped for lack of a place, counted, and
captured if it is the first that grew. -/
def Segment.insert (g : Segment) (e : DefectEntry) : Segment :=
  let grown := grownDelta g.entries e
  let full := g.isFullFor e
  let entries := if full then g.entries else mergedEntries g.entries e
  let delta := if full then e.length else coveredDelta g.entries e
  { g with
    entries := entries
    revision := if entries = g.entries then g.revision else (g.revision + 1) % 65536
    heads := g.heads.setIfInBounds e.head (countHead delta grown ((g.heads[e.head]?).getD HeadCount.zero))
    fullDrops := if full then satAdd 65535 g.fullDrops 1 else g.fullDrops
    overflow := g.overflow || full
    firstGrown :=
      if g.firstGrown.isNone && decide (0 < grown) then
        some { head := e.head, start := e.start, length := e.length, phase := e.phase }
      else g.firstGrown }

/-- The early-stop test that follows a counted report (R159). -/
def earlyStopTest (i : Slot) (p : Plan) (s : State) : State :=
  let g := (s.slot i).seg
  if g.early = false ∧ earlyStopDue p g.heads then
    raiseSlot i .earlyStop (tellRunner i .earlyStop false (s.modSlot i fun r => { r with seg := { r.seg with early := true } }))
  else s

/-- Insert one report (R152 to R159). -/
def insertReport (i : Slot) (phase : Nat) (rep : DefectReport) (s : State) : State :=
  match (s.slot i).drive, (s.slot i).run with
  | some d, some run =>
    if d.heads ≤ rep.head ∨ d.maxLba < rep.start ∨ rep.length = 0 then raiseSlot i .protocol s
    else
      let e : DefectEntry :=
        { head := rep.head, cls := rep.cls, origin := originOf s run phase, phase := phase, start := rep.start,
          length := min rep.length (d.maxLba - rep.start + 1) }
      let g := (s.slot i).seg
      let g' := g.insert e
      let s := s.modSlot i fun r => { r with seg := g' }
      let s := if g.isFullFor e then raiseSlot i .segmentFull (markIncomplete i s) else s
      earlyStopTest i (planOf s run) s
  | _, _ => s

/-- Insert the reports of a delivery in reply order (R150). -/
def deliver (i : Slot) (phase : Nat) (reports : List DefectReport) (s : State) : State :=
  reports.foldl (fun s rep => insertReport i phase rep s) s

/-- Empty a slot's segment; its base and limit are kept (R164). -/
def emptySegment (i : Slot) (s : State) : State :=
  s.modSlot i fun r => { r with seg := Segment.empty r.seg.base r.seg.limit }

end Sys2Proof.Machine
end

