-- ==== Sys2Proof/Machine/Tell.lean ====
section
/-! DEFINITION. What one block tells or asks another within the handling of one event. An event is carried out as a
list of tells, the tells a tell leads to before the ones that follow it (log 7). -/

namespace Sys2Proof.Machine

/-- The result of the identity comparison at a binding (R89). -/
inductive Comparison where
  | none | equal | different
  deriving DecidableEq, Repr

/-- The reasons of an interruption (R125). -/
inductive Interruption where
  | shed | recovery
  deriving DecidableEq, Repr

/-- The causes of a ship failure (R195). -/
inductive ShipCause where
  | mismatch | resetPulse | ladderOff | supplyOff | noAttach | noResponse
  deriving DecidableEq, Repr

/-- A tell or a request between blocks. -/
inductive Tell where
  /-- The Bus Controller tells an owner the outcome of its item (R56). -/
  | answered (item : Item) (answer : Answer)
  /-- The missed count of the slot a transaction was addressed to (R61). -/
  | counted (slot : Slot) (answer : Answer) (ship : Bool)
  /-- The missed count has reached 3 (R62). -/
  | unresponsive (slot : Slot)
  /-- An ATTN_QUERY has ended with a winner (R68). -/
  | requery (shelf : Shelf)
  /-- The transaction has ended and its owner knows; the arbiter chooses (R55). -/
  | wireFree (shelf : Shelf)
  /-- Examine a budget wait queue (R33). -/
  | examine (shelf : Shelf)
  /-- A POWER request (R32). -/
  | requestPower (slot : Slot) (by_ : Requester)
  /-- A SPIN request of the Plan Runner (R32). -/
  | requestSpin (slot : Slot)
  /-- A spin-down request (R40). -/
  | spinDown (slot : Slot)
  /-- A power-off request (R41). -/
  | powerOff (slot : Slot)
  /-- The switch of the slot has gone off: the blocks that hold state for a powered drive act (R41). -/
  | switchedOff (slot : Slot)
  /-- Shedding has told every slot it took (R44). -/
  | shedDone (shelf : Shelf)
  /-- The Power Manager answers a SPIN request (R38, R39). -/
  | spinReady (slot : Slot)
  | spinFailed (slot : Slot)
  /-- The Plan Runner is told INTERRUPTED (R125). -/
  | interrupted (slot : Slot) (reason : Interruption)
  /-- The Plan Runner is told NO_ATTACH (R127). -/
  | noAttach (slot : Slot)
  /-- The attach deadline of a slot has expired (R7). -/
  | attachFailed (slot : Slot)
  /-- The Attach Unit reports a binding (R6). -/
  | bound (slot : Slot) (comparison : Comparison)
  /-- The binding has been taken and the round ends (R89). -/
  | roundOver (shelf : Shelf)
  /-- A run starts on a READY slot (R113, R114). -/
  | startRun (slot : Slot) (plan : PlanIx)
  /-- The current phase index has been set: enter the phase (R117). -/
  | enterPhase (slot : Slot)
  /-- A binding with comparison EQUAL reaches the phase (R117, R124, R126). -/
  | phaseBound (slot : Slot)
  /-- An ending cause reaches the phase (R120). -/
  | endCause (slot : Slot) (verdict : Verdict) (byDrive : Bool)
  /-- The phase is ENDED (R127). -/
  | phaseEnded (slot : Slot)
  /-- A stop that waits (R128). -/
  | waitStop (slot : Slot) (reason : StopReason) (verdict : Verdict)
  /-- A stop that does not wait (R128). -/
  | hardStop (slot : Slot) (reason : StopReason)
  /-- The wall time test of a second (R139). -/
  | wallTest (slot : Slot)
  /-- POWER_CYCLE: begin a cycle; the power-off of its SPIN_DOWN has been answered; its on time has run (R123). -/
  | cycleDown (slot : Slot)
  | cycleOff (slot : Slot)
  | cycleDone (slot : Slot)
  /-- The grading event (R178). -/
  | grade (slot : Slot) (reason : StopReason)
  /-- Enter BIN_WAIT (R10), try a reservation (R185), enter SHIPPING with one (R9, R192). -/
  | enterBinWait (slot : Slot)
  | tryReserve (slot : Slot)
  | reserved (slot : Slot)
  /-- Examine a bin's hold queue (R186). -/
  | examineHold (bin : BinIx)
  /-- The ship sequence: its drive is bound (R192), enter WRITE (R193), submit the next item (R193, R194). -/
  | shipBound (slot : Slot)
  | shipWrite (slot : Slot)
  | shipNext (slot : Slot)
  /-- A failure cause of the ship sequence (R195). -/
  | shipFail (slot : Slot) (cause : ShipCause)
  /-- The diversion after the old bin's place has been offered (R197). -/
  | divert (slot : Slot) (cause : ShipCause)
  /-- Step POWER_OFF (R194, R198), and its answer. -/
  | shipPowerOff (slot : Slot) (shipped : Bool)
  | shipComplete (slot : Slot) (shipped : Bool)
  /-- A loss, a forced pull or a DIFFERENT binding ends the sequence or the wait for a tote place (R199). -/
  | leaveTote (slot : Slot)
  /-- Re-examine a HELD slot (R16). -/
  | reexamine (slot : Slot)
  /-- The end of a loss (R15), of an unlock (R18 to R20), of a SWAP (R6), of R7's hold. -/
  | lost (slot : Slot)
  | unlocked (slot : Slot)
  | swapped (slot : Slot)
  | hold (slot : Slot)
  /-- Place a slot of a disabled shelf (R17). -/
  | placeDisabled (slot : Slot)
  /-- Place a slot whose run SHELF_RESTART has discarded (R131). -/
  | placeRestarted (slot : Slot)
  /-- Submit the TEST_RESET of a SHELF_RESTART (R70, R131). -/
  | submitTestReset (shelf : Shelf)
  /-- Submit the ATTN_CLEAR of the slot's record (R103). -/
  | clearRecord (slot : Slot)
  deriving Repr

end Sys2Proof.Machine
end

