-- ==== Sys2Proof/Machine/Dose.lean ====
section
/-! DEFINITION. The Dose Unit (chapter 07): the temperature record, freshness, the acceleration factor, and the dose
tick. -/

namespace Sys2Proof.Machine

/-- The temperature of a DONE poll (R134): a value of 0..600 is stored, any other ignored. -/
def storeTemperature (i : Slot) (t : Nat) (s : State) : State :=
  if t ≤ 600 then s.modSlot i fun r => { r with temp := { valid := true, t := t, moment := s.now } } else s

/-- Whether the slot's temperature is fresh at a moment under a stale limit (R136). -/
def fresh (rec : TempRec) (stale now : Nat) : Bool := rec.valid && decide (ageOf rec.moment now ≤ stale)

/-- The breakpoint Tk of a plan (R137). -/
def breakpoint (p : Plan) (k : Nat) : Nat := p.t0 + k * p.step

/-- The factor Fk of a plan; the last one beyond the end. -/
def factorAt (p : Plan) (k : Nat) : Nat := (p.factors[k]?).getD p.factors[8]

/-- The factor F(t) of a plan (R137, R138): clamped below T0 and above T8, else interpolated with truncation toward
zero. -/
def factor (p : Plan) (t : Nat) : Nat :=
  if t ≤ p.t0 then factorAt p 0
  else if breakpoint p 8 ≤ t then factorAt p 8
  else
    let d := t - p.t0
    let k := d / p.step
    let r := d - k * p.step
    let lo : Int := factorAt p k
    let hi : Int := factorAt p (k + 1)
    (lo + ((hi - lo) * r).tdiv p.step).toNat

/-- Case 1 of a dose tick: the temperature is not fresh (R140). -/
def tickStale (run : Run) : Run := { run with stale := satAdd max32 run.stale 1 }

/-- Case 2 of a dose tick: fresh and out of band (R141). -/
def tickOut (run : Run) : Run :=
  { run with
    oobPhase := satAdd max32 run.oobPhase 1
    oobRun := satAdd max32 run.oobRun 1
    excursion := satAdd 3601 run.excursion 1 }

/-- Case 3 of a dose tick: fresh and in band (R142). -/
def tickIn (ready : Bool) (f : Nat) (run : Run) : Run :=
  { run with excursion := 0, dose := if ready then satAdd max32 run.dose f else run.dose }

/-- Whether the drive of the slot was last reported with its motor ready. -/
def motorReady (r : SlotRec) : Bool :=
  match r.drive with
  | some d => decide (d.motor = .ready)
  | none => false

/-- A verdict of PASS, and of FAIL with a reason and no detail (R116). -/
def passVerdict : Verdict := { outcome := .pass, reason := .none, detail := 0 }
def failVerdict (reason : PhaseReason) : Verdict := { outcome := .fail, reason := reason, detail := 0 }

/-- The dose tick of a second of a RUNNING SOAK (R139 to R143). -/
def doseTick (i : Slot) (run : Run) (target low high limit : Nat) (s : State) : State × List Tell :=
  let r := s.slot i
  let p := planOf s run
  if fresh r.temp p.stale s.now then
    if r.temp.t < low ∨ high < r.temp.t then
      let run' := tickOut run
      (s.modRun i tickOut,
        if limit ≠ 0 ∧ limit < run'.excursion then [.endCause i (failVerdict .excursion) false] else [])
    else
      let ready := motorReady r
      let f := factor p r.temp.t
      let run' := tickIn ready f run
      (s.modRun i (tickIn ready f),
        if ready = true ∧ target * 256 ≤ run'.dose then [.endCause i passVerdict false] else [])
  else (s.modRun i tickStale, [])

end Sys2Proof.Machine
end

