-- ==== Sys2Proof/Machine/Operands.lean ====
section
/-! DEFINITION. The operand forms of the links: the fields of a request's payload (R206, R208), the two checks (R49,
R201), and the command and reply frames of the factory bus (R49, R51). -/

namespace Sys2Proof.Machine

/-! ## Fields of a payload: most significant byte first (R201) -/

/-- The byte of a payload at an offset; 0 beyond its end. -/
def byteAt (p : List Byte) (n : Nat) : Byte := p.getD n 0

/-- A one-byte field. -/
def field8 (p : List Byte) (n : Nat) : Nat := (byteAt p n).toNat

/-- A two-byte field. -/
def field16 (p : List Byte) (n : Nat) : Nat := 256 * field8 p n + field8 p (n + 1)

/-- A four-byte field. -/
def field32 (p : List Byte) (n : Nat) : Nat := 65536 * field16 p n + field16 p (n + 2)

/-- A six-byte field. -/
def field48 (p : List Byte) (n : Nat) : Nat := 65536 * field32 p n + field16 p (n + 4)

/-- A number as a given count of bytes, most significant first. -/
def bytesOf : Nat → Nat → List Byte
  | 0, _ => []
  | c + 1, v => BitVec.ofNat 8 (v / 256 ^ c) :: bytesOf c v

/-! ## Checks -/

/-- One bit of the CRC-8 of polynomial 07h (R49). -/
def crc8Bit (c : Byte) : Byte := if c.getLsbD 7 then (c <<< 1) ^^^ 0x07#8 else c <<< 1

/-- One byte of the CRC-8. -/
def crc8Byte (c b : Byte) : Byte :=
  crc8Bit (crc8Bit (crc8Bit (crc8Bit (crc8Bit (crc8Bit (crc8Bit (crc8Bit (c ^^^ b))))))))

/-- The CRC-8 of the factory bus and of the contest identities (R49, R81). -/
def crc8 (l : List Byte) : Byte := l.foldl crc8Byte 0

/-- One bit of the CRC-16 of polynomial 1021h (R201). -/
def crc16Bit (c : BitVec 16) : BitVec 16 := if c.getLsbD 15 then (c <<< 1) ^^^ 0x1021#16 else c <<< 1

/-- One byte of the CRC-16. -/
def crc16Byte (c : BitVec 16) (b : Byte) : BitVec 16 :=
  crc16Bit (crc16Bit (crc16Bit (crc16Bit (crc16Bit (crc16Bit (crc16Bit (crc16Bit
    (c ^^^ (b.setWidth 16 <<< 8)))))))))

/-- The CRC-16 of the host link, initial value FFFFh (R201). -/
def crc16 (l : List Byte) : BitVec 16 := l.foldl crc16Byte 0xFFFF#16

/-- The check byte of a contest identity: the CRC-8 of the serial, most significant byte first, and the model (R81). -/
def identityCheck (ident : Identity) : Byte := crc8 (bytesOf 6 ident.serial.toNat ++ [ident.model])

/-- The identity a 64-bit contest value names (R81). -/
def contestIdentity (v : BitVec 64) : Identity where
  serial := v.extractLsb' 16 48
  model := v.extractLsb' 8 8

/-- The check byte a 64-bit contest value carries (R81). -/
def contestCheck (v : BitVec 64) : Byte := v.extractLsb' 0 8

/-! ## Enumerated fields: a byte beyond the end of the list is out of range (R206, R51) -/

def consoleRateOf : Nat → Option ConsoleRate
  | 0 => some .r9600
  | 1 => some .r38400
  | 2 => some .r115200
  | 3 => some .r921600
  | _ => none

def vectorActionOf : Nat → Option VectorAction
  | 0 => some .notifyHold
  | 1 => some .notifyClear
  | 2 => some .stopPhase
  | 3 => some .abortPlan
  | 4 => some .ignore
  | _ => none

def tripActionOf : Nat → Option TripAction
  | 0 => some .count
  | 1 => some .stopPhase
  | 2 => some .abortPlan
  | _ => none

def onFailOf : Nat → Option OnFail
  | 0 => some .continue
  | 1 => some .stopPlan
  | _ => none

def scanTagOf : Nat → Option ScanTag
  | 0 => some .baseline
  | 1 => some .final
  | 2 => some .none
  | _ => none

def yesNoOf : Nat → Option Bool
  | 0 => some false
  | 1 => some true
  | _ => none

def testStateOf : Nat → Option TestState
  | 0 => some .idle
  | 1 => some .running
  | 2 => some .done
  | 3 => some .fault
  | _ => none

def motorOf : Nat → Option Motor
  | 0 => some .stopped
  | 1 => some .spinningUp
  | 2 => some .ready
  | _ => none

def defectClassOf : Nat → Option DefectClass
  | 0 => some .realloc
  | 1 => some .pending
  | 2 => some .servo
  | 3 => some .ta
  | _ => none

/-- The code of a stop reason: its position in the list of R178. -/
def stopCode : StopReason → Nat
  | .none => 0
  | .phaseFail => 1
  | .earlyStop => 2
  | .driveFault => 3
  | .vector => 4
  | .trip => 5
  | .noResponse => 6
  | .hostAbort => 7
  | .attachFail => 8
  | .swap => 9
  | .lost => 10
  | .pulled => 11

/-- The code of a status (R206). -/
def statusCode : Status → Nat
  | .ok => 0
  | .badLength => 1
  | .badValue => 2
  | .badState => 3
  | .inUse => 4
  | .busy => 5
  | .unknownKind => 6

/-! ## Numbers that name a thing (R209) -/

def slotOf (n : Nat) : Option Slot := if h : n < 24 then some ⟨n, h⟩ else none
def shelfOfNat (n : Nat) : Option Shelf := if h : n < 3 then some ⟨n, h⟩ else none
def binOf (n : Nat) : Option BinIx := if h : n < 16 then some ⟨n, h⟩ else none
def planOfNat (n : Nat) : Option PlanIx := if h : n < 4 then some ⟨n, h⟩ else none
def scopeOf (n : Nat) : Option Scope := if h : n < 28 then some ⟨n, h⟩ else none

/-! ## The factory bus frames (R49, R51) -/

/-- The kind of a transaction (R51). -/
def BusCmd.kind : BusCmd → BusKind
  | .wake _ => .wake
  | .contest => .contest
  | .assign _ => .assign
  | .locate _ => .locate
  | .release _ => .release
  | .readInfo _ => .readInfo
  | .poll => .poll
  | .startTest _ _ => .startTest
  | .stopTest _ => .stopTest
  | .attnQuery _ => .attnQuery
  | .attnClear => .attnClear
  | .nodeClear _ => .attnClear
  | .fetch => .fetch
  | .writeItem _ _ => .writeItem
  | .readItem _ => .readItem
  | .stamp _ _ _ _ _ => .stamp
  | .park => .park
  | .testReset => .testReset

/-- The kind byte of a transaction: its position in the table of R51, counting from 0 (DEDUCED, log 11). -/
def busKindCode : BusKind → Nat
  | .wake => 0
  | .contest => 1
  | .assign => 2
  | .locate => 3
  | .release => 4
  | .readInfo => 5
  | .poll => 6
  | .startTest => 7
  | .stopTest => 8
  | .attnQuery => 9
  | .attnClear => 10
  | .fetch => 11
  | .writeItem => 12
  | .readItem => 13
  | .stamp => 14
  | .park => 15
  | .testReset => 16

/-- The kinds that are broadcast (R51). -/
def isBroadcast : BusKind → Bool
  | .wake | .contest | .assign | .attnQuery | .testReset => true
  | _ => false

/-- The kinds that expect no reply: WAKE and TEST_RESET end with their command frame, CONTEST with its bit periods
(R51). -/
def expectsReply : BusKind → Bool
  | .wake | .contest | .testReset => false
  | _ => true

/-- The body of a command frame: the fields of its kind, most significant byte first (R51). -/
def commandBody : BusCmd → List Byte
  | .wake pattern => pattern
  | .assign n => bytesOf 1 (nodeNumber n)
  | .startTest code phase => code :: bytesOf 1 phase
  | .writeItem id value => bytesOf 2 id ++ bytesOf 4 value.toNat
  | .readItem id => bytesOf 2 id
  | .stamp bin rule planId dose stop =>
    bytesOf 1 bin.val ++ bytesOf 1 rule ++ bytesOf 2 planId ++ bytesOf 3 dose ++ bytesOf 1 (stopCode stop)
  | _ => []

/-- The command frame of a transaction in flight (R49): address, kind, length, body and check. -/
def commandFrame (f : Flight) : List Byte :=
  let address := if isBroadcast f.item.cmd.kind then 0
    else match f.node with
      | some n => nodeNumber n
      | none => 0
  let body := commandBody f.item.cmd
  let covered := bytesOf 1 address ++ bytesOf 1 (busKindCode f.item.cmd.kind) ++ bytesOf 1 body.length ++ body
  covered ++ [crc8 covered]

/-- The eight data periods of a byte, most significant bit first (R49). -/
def dataPeriods (b : Byte) : List Bool := (List.range 8).map fun n => b.getLsbD (7 - n)

/-- A byte as the periods of the data wire it is sent as: a low start period, the eight data periods and a high stop
period (R49). -/
def bytePeriods (b : Byte) : List Bool := [false] ++ dataPeriods b ++ [true]

/-- A frame as the periods of the data wire (R49). -/
def framePeriods (frame : List Byte) : List Bool := frame.flatMap bytePeriods

/-- A defect report of a FETCH reply body at an offset: head, class, start LBA, length (R51). Absent where a field is
out of its range. -/
def fetchReportAt (body : List Byte) (n : Nat) : Option DefectReport :=
  match defectClassOf (field8 body (n + 1)) with
  | some c =>
    if field16 body (n + 8) = 0 then none
    else some { head := field8 body n, cls := c, start := field48 body (n + 2), length := field16 body (n + 8) }
  | none => none

/-- The first so many reports of a FETCH reply body from an offset; absent if one is out of range. -/
def fetchReports (body : List Byte) : Nat → Nat → Option (List DefectReport)
  | 0, _ => some []
  | c + 1, n =>
    match fetchReportAt body n, fetchReports body c (n + 10) with
    | some r, some l => some (r :: l)
    | _, _ => none

/-- Whether a reply body has the length of its kind's reply (R51; log 12). -/
def bodyLengthOk (kind : BusKind) (body : List Byte) : Bool :=
  match kind with
  | .readInfo => decide (body.length = 7)
  | .poll => decide (body.length = 6)
  | .attnQuery => decide (body.length = 2)
  | .readItem => decide (body.length = 4)
  | .fetch => decide (body.length % 10 = 1)
  | _ => body.isEmpty

/-- The reply fields of a body of the right length; absent where a field is out of its range (R51). -/
def replyFields (kind : BusKind) (body : List Byte) : Option ReplyFields :=
  match kind with
  | .readInfo =>
    if 1 ≤ field8 body 6 ∧ field8 body 6 ≤ 16 then some (.info (field48 body 0) (field8 body 6)) else none
  | .poll =>
    match testStateOf (field8 body 0), motorOf (field8 body 1), yesNoOf (field8 body 5) with
    | some t, some m, some a => some (.status t m (field16 body 2) (min 100 (field8 body 4)) a)
    | _, _, _ => none
  | .attnQuery => some (.attention (byteAt body 0) (byteAt body 1))
  | .readItem => some (.value (BitVec.ofNat 32 (field32 body 0)))
  | .fetch =>
    let k := body.length / 10
    if k ≤ 4 then (fetchReports body k 0).map fun l => .reports l (field8 body (10 * k)) else none
  | _ => some .ack

/-- What the bytes received in the reply window come to (R50). An incomplete frame ends nothing. -/
inductive FrameOutcome where
  | done (fields : ReplyFields)
  | badReply
  | wrongSender
  | noReply
  | incomplete
  deriving DecidableEq, Repr

/-- Whether the bytes hold a complete reply frame: node, kind, length 0..60, body of that length and a check (R49). -/
def frameComplete (bytes : List Byte) : Bool :=
  decide (4 ≤ bytes.length) && decide (4 + field8 bytes 2 ≤ bytes.length) && decide (field8 bytes 2 ≤ 60)

/-- The frame that the bytes complete; what follows it arrives outside the window and is discarded (R50). -/
def firstFrame (bytes : List Byte) : List Byte := bytes.take (4 + field8 bytes 2)

/-- Whether a frame's check is right: the CRC-8 over node, kind, length and body (R49). -/
def frameCheckOk (frame : List Byte) : Bool :=
  decide (crc8 frame.dropLast = byteAt frame (frame.length - 1))

/-- Read a complete frame received in the window of a transaction of a kind that expects a given node (R50; log 12). -/
def readFrame (kind : BusKind) (node : Option NodeIx) (frame : List Byte) : FrameOutcome :=
  if frameCheckOk frame then
    if node.map nodeNumber = some (field8 frame 0) ∧ busKindCode kind = field8 frame 1 then
      let body := (frame.drop 3).dropLast
      if bodyLengthOk kind body then
        match replyFields kind body with
        | some f => .done f
        | none => .badReply
      else .noReply
    else .wrongSender
  else .noReply

/-- Read the bytes received in the window (R50). -/
def readBytes (kind : BusKind) (node : Option NodeIx) (bytes : List Byte) : FrameOutcome :=
  if frameComplete bytes then readFrame kind node (firstFrame bytes) else .incomplete

end Sys2Proof.Machine
end

