-- ==== Sys2Proof/Machine/Bus.lean ====
section
/-! DEFINITION. The Bus Controller's pending work and arbiter (sections 3.1 and 3.2): submission, withdrawal and
dropping of items, the choice of the next transaction, and the end of a transaction. -/

namespace Sys2Proof.Machine

/-- The class of a kind (R54). -/
def classOf : BusKind → BusClass
  | .wake | .contest | .assign | .locate | .release | .readInfo => .attach
  | .attnQuery | .attnClear => .attention
  | .testReset | .stopTest | .startTest => .control
  | .fetch => .fetch
  | .writeItem | .readItem | .stamp | .park => .ship
  | .poll => .poll

/-- The per-slot kinds of a class, in the order they are taken within a slot (R54). -/
def slotKinds : BusClass → List BusKind
  | .attach => []
  | .attention => [.attnClear]
  | .control => [.stopTest, .startTest]
  | .fetch => [.fetch]
  | .ship => [.writeItem, .readItem, .stamp, .park]
  | .poll => [.poll]

/-- Whether an item is a slot's item of a kind. -/
def isItemOf (i : Slot) (kind : BusKind) (it : Item) : Bool :=
  decide (it.slot = some i) && decide (it.cmd.kind = kind)

/-- The slot's pending item of a kind (R53). -/
def pendingItem (work : List Item) (i : Slot) (kind : BusKind) : Option Item := work.find? (isItemOf i kind)

/-- The transaction in flight, from its choice to its end (R55). -/
def inFlight : BusPhase → Option Flight
  | .free => none
  | .ending => none
  | .waiting f => some f
  | .sending f => some f
  | .contending f => some f
  | .nodeBits f => some f
  | .window f _ => some f

/-- Change the marks of the transaction in flight. -/
def mapFlight (g : Flight → Flight) : BusPhase → BusPhase
  | .free => .free
  | .ending => .ending
  | .waiting f => .waiting (g f)
  | .sending f => .sending (g f)
  | .contending f => .contending (g f)
  | .nodeBits f => .nodeBits (g f)
  | .window f m => .window (g f) m

/-- Whether the transaction in flight is for an item of some property. -/
def flightIs (p : Item → Bool) (phase : BusPhase) : Bool :=
  match inFlight phase with
  | some f => p f.item
  | none => false

/-- Whether the slot has an item of a kind pending or in flight. -/
def pendingOrInFlight (s : State) (i : Slot) (kind : BusKind) : Bool :=
  let sh := s.shelf (shelfOf i)
  (pendingItem sh.work i kind).isSome || flightIs (isItemOf i kind) sh.phase

/-- The node a node-addressed item of the ATTACH class or a node clear names (R51, R96). -/
def cmdNode : BusCmd → Option NodeIx
  | .assign n => some n
  | .locate n => some n
  | .release n => some n
  | .readInfo n => some n
  | .nodeClear n => some n
  | _ => none

/-- The node an item is addressed to: its slot's node, or the node it names. -/
def itemNode (s : State) (it : Item) : Option NodeIx :=
  match it.slot with
  | some i => (s.slot i).drive.map DrivePart.node
  | none => cmdNode it.cmd

/-- The chosen item becomes the transaction in flight and waits for its quiet time; the stuck-wire timer runs while the
wire is low (R50, R55, R71). -/
def launch (k : Shelf) (it : Item) (s : State) : State :=
  s.modShelf k fun sh =>
    { sh with
      phase := .waiting { item := it, node := itemNode s it, dropped := false, orphan := false }
      stuckTimer := if sh.dataHigh then none else s.after 50 }

/-- The first item of a slot in the order of its class (R55). -/
def firstItem (work : List Item) (i : Slot) (kinds : List BusKind) : Option Item :=
  kinds.findSome? (pendingItem work i)

/-- The positions that follow a pointer, going round to the pointer itself (R55). -/
def positionsAfter (p : Position) : List Position := allPositions.map fun d => p + 1 + d

/-- The class's pointer and its change (R54). -/
def pointerOf (p : Pointers) : BusClass → Position
  | .attach => 7
  | .attention => p.attention
  | .control => p.control
  | .fetch => p.fetch
  | .ship => p.ship
  | .poll => p.poll

def setPointer (p : Pointers) (c : BusClass) (q : Position) : Pointers :=
  match c with
  | .attach => p
  | .attention => { p with attention := q }
  | .control => { p with control := q }
  | .fetch => { p with fetch := q }
  | .ship => { p with ship := q }
  | .poll => { p with poll := q }

/-- The position and item the round-robin pointer gives a class (R55). -/
def pickSlotItem (k : Shelf) (sh : ShelfRec) (c : BusClass) : Option (Position × Item) :=
  (positionsAfter (pointerOf sh.pointers c)).findSome? fun p =>
    (firstItem sh.work (slotAt k p) (slotKinds c)).map fun it => (p, it)

/-- Take the oldest item of the ATTACH list (R55, step 2). -/
def takeAttach (k : Shelf) (s : State) : Option State :=
  match (s.shelf k).attachList with
  | it :: rest => some (launch k it (s.modShelf k fun sh => { sh with attachList := rest }))
  | [] => none

/-- Take the oldest shelf-wide ATTENTION item (R55, step 3). -/
def takeWide (k : Shelf) (s : State) : Option State :=
  match (s.shelf k).attnWide with
  | it :: rest => some (launch k it (s.modShelf k fun sh => { sh with attnWide := rest }))
  | [] => none

/-- Take the TEST_RESET (R55, step 3). -/
def takeTestReset (k : Shelf) (s : State) : Option State :=
  (s.shelf k).testReset.map fun it => launch k it (s.modShelf k fun sh => { sh with testReset := none })

/-- Take a per-slot item of a class and move its pointer (R55, step 4). -/
def takeSlotItem (c : BusClass) (k : Shelf) (s : State) : Option State :=
  (pickSlotItem k (s.shelf k) c).map fun (p, it) =>
    launch k it (s.modShelf k fun sh =>
      { sh with
        work := sh.work.filter fun x => !isItemOf (slotAt k p) it.cmd.kind x
        pointers := setPointer sh.pointers c p })

/-- The arbiter's choice, the classes in order 1 to 6; with nothing pending the wire is free (R55). -/
def choose (k : Shelf) (s : State) : State :=
  ((takeAttach k s).or <| (takeWide k s).or <| (takeSlotItem .attention k s).or <| (takeTestReset k s).or <|
    (takeSlotItem .control k s).or <| (takeSlotItem .fetch k s).or <| (takeSlotItem .ship k s).or
      (takeSlotItem .poll k s)).getD (s.modShelf k fun sh => { sh with phase := .free })

/-- At a submission the arbiter chooses if no transaction is in flight (R55). -/
def kick (k : Shelf) (s : State) : State := if (s.shelf k).phase = .free then choose k s else s

/-- Submit an item of the ATTACH class: each submission makes a new item (R53). -/
def submitAttach (k : Shelf) (cmd : BusCmd) (s : State) : State :=
  kick k (s.modShelf k fun sh =>
    { sh with attachList := sh.attachList ++ [{ shelf := k, slot := none, cmd := cmd, owner := .attachUnit }] })

/-- Submit a shelf-wide ATTENTION item (R68, R96). -/
def submitWide (k : Shelf) (cmd : BusCmd) (s : State) : State :=
  kick k (s.modShelf k fun sh =>
    { sh with attnWide := sh.attnWide ++ [{ shelf := k, slot := none, cmd := cmd, owner := .attentionUnit }] })

/-- Submit the shelf's TEST_RESET; one already pending takes the new owner, which is the same (R53, R70). -/
def submitReset (k : Shelf) (s : State) : State :=
  kick k (s.modShelf k fun sh =>
    { sh with testReset := some { shelf := k, slot := none, cmd := .testReset, owner := .planRunner } })

/-- Submit a per-slot item (R53): answered at once as NOT_BOUND without a drive part and as NO_RESPONSE for a SILENT
drive; a pending item of the kind takes the new fields and keeps its place; otherwise a new item is made. -/
def submitSlot (i : Slot) (cmd : BusCmd) (owner : Owner) (s : State) : State × Option Answer :=
  let r := s.slot i
  let k := shelfOf i
  let it : Item := { shelf := k, slot := some i, cmd := cmd, owner := owner }
  if r.drive.isNone then (s, some .notBound)
  else if r.silent then (s, some .noResponse)
  else if (pendingItem (s.shelf k).work i cmd.kind).isSome then
    (s.modShelf k fun sh => { sh with work := sh.work.map fun x => if isItemOf i cmd.kind x then it else x }, none)
  else (kick k (s.modShelf k fun sh => { sh with work := sh.work ++ [it] }), none)

/-- Submit a per-slot item and tell its owner an answer given at once; the owner of an item whose place it takes is told
SUPERSEDED (R53). -/
def submit (i : Slot) (cmd : BusCmd) (owner : Owner) (s : State) : State × List Tell :=
  let old := pendingItem (s.shelf (shelfOf i)).work i cmd.kind
  let it : Item := { shelf := shelfOf i, slot := some i, cmd := cmd, owner := owner }
  match submitSlot i cmd owner s with
  | (s', some a) => (s', [.answered it a])
  | (s', none) =>
    (s', match old with
      | some o => [.answered o .superseded]
      | none => [])

/-- Withdraw the slot's pending item of a kind; nobody is told (R53). -/
def withdrawItem (i : Slot) (kind : BusKind) (s : State) : State :=
  s.modShelf (shelfOf i) fun sh => { sh with work := sh.work.filter fun x => !isItemOf i kind x }

/-- The owner has no further interest in the transaction in flight, if it is of this property: it runs to its end and
its outcome is disregarded. -/
def orphan (k : Shelf) (p : Item → Bool) (s : State) : State :=
  s.modShelf k fun sh => { sh with phase := mapFlight (fun f => if p f.item then { f with orphan := true } else f) sh.phase }

/-- Withdraw the slot's pending item of a kind and disregard one in flight (R131, R199). -/
def renounce (i : Slot) (kind : BusKind) (s : State) : State :=
  orphan (shelfOf i) (isItemOf i kind) (withdrawItem i kind s)

/-- Drop the slot's work at the discard of its drive part: pending items go and their owners are told DROPPED; a
transaction in flight for the slot runs on and ends DROPPED (R57). -/
def dropWork (i : Slot) (s : State) : State × List Tell :=
  let k := shelfOf i
  let mine : Item → Bool := fun it => decide (it.slot = some i)
  (s.modShelf k fun sh =>
    { sh with
      work := sh.work.filter fun it => !mine it
      phase := mapFlight (fun f => if mine f.item then { f with dropped := true } else f) sh.phase },
    ((s.shelf k).work.filter mine).map fun it => .answered it .dropped)

/-- Whether an item is an ATTN_QUERY. -/
def isQuery (it : Item) : Bool := decide (it.cmd.kind = .attnQuery)

/-- Add an ATTN_QUERY if none is pending or in flight and the hold-off is not running (R68, R69; log 10). -/
def addQuery (k : Shelf) (s : State) : State :=
  let sh := s.shelf k
  if sh.attnWide.any isQuery || flightIs isQuery sh.phase || sh.holdoff.isSome then s
  else submitWide k (.attnQuery none) s

/-- Whether an item is a node clear (R96). -/
def isNodeClear (it : Item) : Bool :=
  match it.cmd with
  | .nodeClear _ => true
  | _ => false

/-- Whether an outcome leaves every missed count alone: DROPPED (R57), and the miss of a node clear (R96). -/
def uncounted (f : Flight) (answer : Answer) : Bool :=
  f.dropped || (isNodeClear f.item && decide (answer = .noReply))

/-- The end of a transaction with an outcome (R50, R56): the outcome is DROPPED if the drive part has gone (R57); the
owner is told first, then the missed count of the slot whose drive part holds the node moves (R61, R62), then, after an
ATTN_QUERY with a winner, a new query may be added (R68), and last the arbiter chooses (R55; log 13). -/
def endTransaction (k : Shelf) (f : Flight) (answer : Answer) (s : State) : State × List Tell :=
  let target := if uncounted f answer then none else f.node.bind (slotOfNode s k)
  let answer := if f.dropped then .dropped else answer
  (s.modShelf k fun sh => { sh with phase := .ending, stuckTimer := none },
    (if f.orphan then [] else [.answered f.item answer]) ++
      (match target with
        | some i => [.counted i answer (decide (classOf f.item.cmd.kind = .ship))]
        | none => []) ++
      (if isQuery f.item && f.node.isSome then [.requery k] else []) ++ [.wireFree k])

/-- The missed count after a transaction addressed to the slot's node (R61). Every miss of a SILENT drive puts it at 3, also
where a reply had returned it to 0 (log 43). -/
def countMissed (i : Slot) (answer : Answer) (ship : Bool) (s : State) : State × List Tell :=
  match (s.slot i).drive with
  | none => (s, [])
  | some d =>
    match answer with
    | .done _ => (s.modDrive i fun d => { d with missed := 0 }, [])
    | .badReply => (s.modDrive i fun d => { d with missed := 0 }, [])
    | .noReply =>
      let m := if (s.slot i).silent || ship then 3 else min 3 (d.missed + 1)
      (s.modDrive i fun d => { d with missed := m },
        if m = 3 ∧ (s.slot i).silent = false then [.unresponsive i] else [])
    | _ => (s, [])

/-- The wire is free again after a transaction: the arbiter chooses (R55). -/
def wireFree (k : Shelf) (s : State) : State := choose k s

/-- After an ATTN_QUERY with a winner, a new one is added if the wire is still asserted (R68). -/
def requery (k : Shelf) (s : State) : State := if (s.shelf k).attnWire then addQuery k s else s

end Sys2Proof.Machine
end

