-- ==== Sys2Proof/Machine/Attach.lean ====
section
/-! DEFINITION. The Attach Unit (chapter 04): the attaching set and its deadlines, the pass and its rounds, the reading
of the contest, the locate window, the binding, and the node map. -/

namespace Sys2Proof.Machine

/-- The entry of a node in the shelf's node map (R90). -/
def nodeEntry (s : State) (k : Shelf) (n : NodeIx) : NodeEntry := (s.shelf k).nodes[n]

/-- Change the entry of a node. -/
def setNode (k : Shelf) (n : NodeIx) (e : NodeEntry) (s : State) : State :=
  s.modShelf k fun sh => { sh with nodes := sh.nodes.set n e }

/-- Put the pass in a state. -/
def setPass (k : Shelf) (p : Pass) (s : State) : State := s.modShelf k fun sh => { sh with pass := p }

/-- Set the consecutive-mismatch count (R79). -/
def setMismatches (k : Shelf) (n : Nat) (s : State) : State := s.modShelf k fun sh => { sh with mismatches := n }

/-- Pause or resume a deadline (R76, R78). -/
def pauseDeadline (now : Nat) : Deadline → Deadline
  | .running m => .paused (m - now)
  | d => d
def resumeDeadline (now : Nat) : Deadline → Deadline
  | .paused left => .running (now + left)
  | d => d

/-- Change the deadlines of the shelf's attaching set. -/
def mapDeadlines (k : Shelf) (f : Deadline → Deadline) (s : State) : State :=
  (slotsOf k).foldl (fun s i => s.modSlot i fun r => { r with deadline := r.deadline.map f }) s

/-- Follow the KEY_MISSING condition (R76): while it holds the flag is set and the deadlines stand; when it ends they
resume from where they paused. -/
def syncKey (k : Shelf) (s : State) : State :=
  if keyMissing s k then raiseShelf k .keyMissing (mapDeadlines k (pauseDeadline s.now) s)
  else mapDeadlines k (resumeDeadline s.now) s

/-- The nodes of the shelf that stand STRANDED, ascending (R80). -/
def strandedNodes (s : State) (k : Shelf) : List NodeIx :=
  allPositions.filter fun n =>
    match nodeEntry s k n with
    | .stranded _ => true
    | _ => false

/-- Open a round (R80): a RELEASE for each stranded node, a WAKE with the pattern as it stands, and a CONTEST. -/
def openRound (k : Shelf) (s : State) : State :=
  let s := setPass k (.round .contest) s
  let s := (strandedNodes s k).foldl (fun s n => submitAttach k (.release n) s) s
  submitAttach k .contest (submitAttach k (.wake s.wakePattern) s)

/-- What follows a round's end or a pause's end (R79). -/
def nextRound (k : Shelf) (s : State) : State :=
  if (attachSet s k).isEmpty then setPass k .idle s
  else if s.wakePattern.isEmpty then setPass k .keyWait s
  else openRound k s

/-- Pause the pass for 1 s (R79). -/
def pausePass (k : Shelf) (reason : PauseReason) (s : State) : State := setPass k (.paused reason (s.now + 1000)) s

/-- Give up a CANDIDATE node by RELEASE (R87); with every switch of the shelf off it becomes FREE instead (R91). The
entry stays CANDIDATE until the RELEASE ends (log 25). -/
def giveUp (k : Shelf) (n : NodeIx) (s : State) : State :=
  if allOff s k then setNode k n .free s else submitAttach k (.release n) (setNode k n .candidate s)

/-- Whether an item belongs to the ATTACH class and is no RELEASE. -/
def isPassItem (it : Item) : Bool :=
  decide (classOf it.cmd.kind = .attach) && decide (it.cmd.kind ≠ .release)

/-- The pass stops because the set has emptied during a round or a pause (R91). -/
def stopPass (k : Shelf) (s : State) : State :=
  let pass := (s.shelf k).pass
  let s := s.modShelf k fun sh => { sh with attachList := sh.attachList.filter fun it => !isPassItem it }
  let s := setPass k .idle (orphan k isPassItem s)
  match pass with
  | .round (.assign n _) => giveUp k n s
  | .round (.locate n _) => giveUp k n s
  | .round (.window n _ _ _ _) => giveUp k n s
  | _ => s

/-- A slot joins the attaching set with a deadline of 30 s (R77), and the pass follows (R79, R82). -/
def joinSet (i : Slot) (s : State) : State :=
  let k := shelfOf i
  let s := syncKey k (s.modSlot i fun r => { r with deadline := some (.running (s.now + secs 30)) })
  match (s.shelf k).pass with
  | .idle =>
    let s := setMismatches k 0 s
    if s.wakePattern.isEmpty then setPass k .keyWait s else openRound k s
  | .paused .noContender _ => nextRound k s
  | _ => s

/-- Note in an open locate window that a slot has left the set (R86). -/
def noteLeft (i : Slot) : Pass → Pass
  | .round (.window n ident opened pulsing left) => .round (.window n ident opened pulsing (i :: left))
  | p => p

/-- The node BINDING to a slot in the round, if there is one (R91). -/
def bindingNode (i : Slot) : Pass → Option NodeIx
  | .round (.readInfo n _ j _) => if i = j then some n else none
  | _ => none

/-- A slot leaves the attaching set by switch-off, reset pulse or loss (R77, R91). -/
def leaveSet (i : Slot) (s : State) : State :=
  if (s.slot i).deadline.isNone then s
  else
    let k := shelfOf i
    let s := syncKey k (s.modSlot i fun r => { r with deadline := none })
    let binding := bindingNode i (s.shelf k).pass
    let s := s.modShelf k fun sh => { sh with pass := noteLeft i sh.pass }
    let s := match binding with
      | some n => setNode k n .free s
      | none => s
    if (attachSet s k).isEmpty then stopPass k s
    else
      match binding with
      | some _ =>
        let s := s.modShelf k fun sh => { sh with attachList := sh.attachList.filter fun it => !isPassItem it }
        nextRound k (orphan k isPassItem s)
      | none => s

/-- Every STRANDED and CANDIDATE node becomes FREE once every switch of the shelf is off (R87, R91), also a CANDIDATE
whose RELEASE is still outstanding (log 25). -/
def freeUnheld (k : Shelf) (s : State) : State :=
  if allOff s k then
    s.modShelf k fun sh => { sh with nodes := sh.nodes.map fun e =>
      match e with
      | .stranded _ => .free
      | .candidate => .free
      | e => e }
  else s

/-- The outcome of a RELEASE (R87). A miss of the third release of a STRANDED node frees it. -/
def releaseOutcome (k : Shelf) (n : NodeIx) (answered : Bool) (s : State) : State :=
  match nodeEntry s k n with
  | .candidate => setNode k n (if answered then .free else .stranded 1) s
  | .stranded c => setNode k n (if answered ∨ 3 ≤ c + 1 then .free else .stranded (c + 1)) s
  | _ => s

/-- The lowest FREE node of the map (R84). -/
def lowestFree (s : State) (k : Shelf) : Option NodeIx :=
  allPositions.find? fun n => decide (nodeEntry s k n = .free)

/-- Read the contest (R81 to R84). -/
def readContest (k : Shelf) (v : BitVec 64) (s : State) : State :=
  if v = BitVec.allOnes 64 then pausePass k .noContender (setMismatches k 0 s)
  else if identityCheck (contestIdentity v) = contestCheck v then
    let s := setMismatches k 0 s
    match lowestFree s k with
    | some n =>
      submitAttach k (.assign n) (setPass k (.round (.assign n (contestIdentity v))) (setNode k n .candidate s))
    | none => pausePass k .fault (raiseShelf k .busFault s)
  else
    let m := (s.shelf k).mismatches + 1
    if m < 3 then nextRound k (setMismatches k m s)
    else pausePass k .fault (setMismatches k 0 (raiseShelf k .busFault s))

/-- The comparison of a new drive with the slot's identity memory (R89). -/
def compareIdentity (memory : Option Identity) (ident : Identity) : Comparison :=
  match memory with
  | none => .none
  | some m => if m = ident then .equal else .different

/-- The binding (R89): the drive part is formed, the node is BOUND, the slot leaves the set, polling starts (R58) with
an invalid temperature record (R135), and the Slot Supervisor is told. -/
def bind (i : Slot) (n : NodeIx) (ident : Identity) (maxLba heads : Nat) (s : State) : State × List Tell :=
  let k := shelfOf i
  let s := s.modSlot i fun r =>
    { r with
      drive := some { ident := ident, node := n, maxLba := maxLba, heads := heads, motor := .stopped, missed := 0 }
      deadline := none
      pollTimer := s.after (secs (s.shelf k).pollSecs)
      poll := none
      temp := TempRec.reset }
  let s := syncKey k (setPass k (.round .finishing) (setNode k n (.bound i) s))
  let cmp := compareIdentity (s.slot i).identity ident
  let (s, tells) := submit i .poll .busController s
  (s, tells ++ [.bound i cmp, .roundOver k])

/-- The outcome of the round's READ_INFO (R88). A slot holds one node at most (R90). -/
def readInfoOutcome (k : Shelf) (n : NodeIx) (ident : Identity) (i : Slot) (attempt : Nat) (answer : Answer)
    (s : State) : State × List Tell :=
  match answer with
  | .done (.info maxLba heads) =>
    if (s.slot i).drive.isNone then bind i n ident maxLba heads s else (nextRound k (giveUp k n s), [])
  | .noReply =>
    if attempt < 3 then
      (submitAttach k (.readInfo n) (setPass k (.round (.readInfo n ident i (attempt + 1))) s), [])
    else (nextRound k (giveUp k n s), [])
  | _ => (nextRound k (giveUp k n s), [])

/-- The Attach Unit takes the outcome of one of its items (R80 to R88). An outcome the round no longer waits for
changes nothing, but for a RELEASE (R91). -/
def attachAnswered (k : Shelf) (cmd : BusCmd) (answer : Answer) (s : State) : State × List Tell :=
  match cmd, (s.shelf k).pass with
  | .release n, pass =>
    let s := releaseOutcome k n (decide (answer = .done .ack)) s
    (if pass = .round (.release n) then pausePass k .fault s else s, [])
  | .contest, .round .contest =>
    match answer with
    | .done (.contest v) => (readContest k v s, [])
    | _ => (s, [])
  | .assign n, .round (.assign m ident) =>
    if n = m then
      if answer = .done .ack then (submitAttach k (.locate n) (setPass k (.round (.locate n ident)) s), [])
      else (nextRound k (giveUp k n s), [])
    else (s, [])
  | .locate n, .round (.locate m ident) =>
    if n = m then
      if answer = .done .ack then (setPass k (.round (.window n ident s.now [] [])) s, [])
      else (nextRound k (giveUp k n s), [])
    else (s, [])
  | .readInfo n, .round (.readInfo m ident i attempt) =>
    if n = m then readInfoOutcome k n ident i attempt answer s else (s, [])
  | _, _ => (s, [])

/-- A debounced activity edge (R12) in an open locate window (R85): a rise within the first 100 ms makes the slot
pulse, a fall before 350 ms ends it (log 22). -/
def edgeInWindow (i : Slot) (level : Bool) (now : Nat) : Pass → Pass
  | .round (.window n ident opened pulsing left) =>
    let elapsed := now - opened
    if level then
      if elapsed ≤ 100 ∧ hasSlot pulsing i = false then .round (.window n ident opened (pulsing ++ [i]) left)
      else .round (.window n ident opened pulsing left)
    else if elapsed < 350 then
      .round (.window n ident opened (pulsing.filter fun j => decide (j ≠ i)) left)
    else .round (.window n ident opened pulsing left)
  | p => p

/-- An activity edge is reported to the Attach Unit of the slot's shelf (R12). -/
def activityEdge (i : Slot) (level : Bool) (s : State) : State :=
  s.modShelf (shelfOf i) fun sh => { sh with pass := edgeInWindow i level s.now sh.pass }

/-- The locate window closes (R86). -/
def closeWindow (k : Shelf) (n : NodeIx) (ident : Identity) (pulsing left : List Slot) (s : State) : State :=
  match pulsing with
  | [] => giveUp k n (setPass k (.round (.release n)) s)
  | [i] =>
    if (s.slot i).deadline.isSome then
      submitAttach k (.readInfo n) (setPass k (.round (.readInfo n ident i 1)) (setNode k n (.binding i) s))
    else if hasSlot left i then nextRound k (setNode k n .free s)
    else nextRound k (giveUp k n (raiseShelf k .busFault s))
  | _ => nextRound k (giveUp k n (raiseShelf k .busFault s))

/-- The round's end after a binding has been taken (R89). -/
def roundOver (k : Shelf) (s : State) : State :=
  if (s.shelf k).pass = .round .finishing then nextRound k s else s

/-- The wake pattern has been replaced (R75, R76, R79): a shelf in KEY_WAIT may start its round. -/
def keyLoaded (k : Shelf) (s : State) : State :=
  let s := syncKey k s
  if (s.shelf k).pass = .keyWait ∧ s.wakePattern.isEmpty = false then nextRound k s else s

end Sys2Proof.Machine
end

