-- ==== Sys2Proof/Machine/Attention.lean ====
section
/-! DEFINITION. The Attention Unit (chapter 05): capture, the dispositions, the fetch loop, the clear, and the discard
of a record. -/

namespace Sys2Proof.Machine

/-- Change the attention record of a slot, if it holds one. -/
def modAttn (i : Slot) (f : AttnRecord → AttnRecord) (s : State) : State :=
  s.modSlot i fun r => { r with attn := r.attn.map f }

/-- Set the outcome of the last-attention summary (R95). -/
def setOutcome (i : Slot) (o : AttnOutcome) (s : State) : State :=
  s.modSlot i fun r => { r with summary := r.summary.map fun m => { m with outcome := o } }

/-- Whether a record is a DEFECTS_READY record whose loop is not finished (R105, R179). -/
def loopUnfinished (r : SlotRec) : Bool :=
  match r.attn with
  | some a =>
    match a.fetch with
    | some f => !f.finished
    | none => false
  | none => false

/-- Discard the slot's record with outcome DISCARDED (R105, R107). A report it brought no longer owes a clear. -/
def discardRecord (i : Slot) (s : State) : State :=
  if (s.slot i).attn.isNone then s
  else
    let s := if loopUnfinished (s.slot i) then markIncomplete i s else s
    (setOutcome i .discarded s).modSlot i fun r =>
      { r with attn := none, reports := r.reports.map Report.discarded }

/-- Submit the ATTN_CLEAR of the slot's record (R103). -/
def clearRecord (i : Slot) (s : State) : State × List Tell :=
  if (s.slot i).attn.isNone then (s, [])
  else submit i .attnClear .attentionUnit (modAttn i (fun a => { a with clearPending := true }) s)

/-- The action of a code from 32 to 255 (R101). -/
def actionOf (s : State) (code : Byte) : VectorAction := (s.vectors[code.toNat - 32]?).getD .notifyClear

/-- What decides the handling of a code (R95, R98, R102). -/
def dispositionOf (s : State) (code : Byte) : Disposition :=
  if code.toNat < 32 then .fixed else .vector (actionOf s code)

/-- The fetch progress a record begins with (R95). -/
def fetchStart (code : Byte) : Option FetchProgress :=
  if code = 2 then some { received := 0, remaining := none, empties := 0, finished := false } else none

/-- Form the record and the summary at a capture (R96, steps 1 to 5). A clear pending without a record becomes the
record's (R103). -/
def formRecord (i : Slot) (code detail : Byte) (s : State) : State :=
  let run := (s.slot i).run
  let pending := pendingOrInFlight s i .attnClear
  s.modSlot i fun r =>
    { r with
      attn := some
        { code := code, detail := detail, phase := run.map Run.phase, run := if run.isSome then .current else .none,
          disposition := dispositionOf s code, stage := .part, clearPending := pending, fetch := fetchStart code }
      summary := some { code := code, detail := detail, phase := run.map Run.phase, outcome := .taken }
      reports := r.reports.map Report.superseded }

/-- Act on a fixed code at its capture (R98); `phase` is the capture phase index, absent without a run part. -/
def actFixed (i : Slot) (code detail : Byte) (phase : Option Nat) (s : State) : State × List Tell :=
  if code = 0 then
    match phase with
    | some p => (tellRunner i (.phaseDone p) true s, [])
    | none => (setOutcome i .stale s, [.clearRecord i])
  else if code = 1 then
    match phase with
    | some p => (tellRunner i (.phaseFailed p detail) true s, [])
    | none => (setOutcome i .stale s, [.clearRecord i])
  else if code = 2 then submit i .fetch .attentionUnit s
  else if code = 3 then
    match phase with
    | some _ => (tellRunner i .overTemp true s, [])
    | none => (s, [.spinDown i, .clearRecord i])
  else if code = 4 then
    match phase with
    | some _ => (tellRunner i .driveFault true s, [])
    | none => (s, [.clearRecord i])
  else (raiseSlot i .protocol s, [.clearRecord i])

/-- Act on a vector action at capture (R102). -/
def actVector (i : Slot) (code : Byte) (phase : Option Nat) (action : VectorAction) (s : State) : State × List Tell :=
  match action with
  | .notifyHold => (setOutcome i .held (raiseSlot i .attnHeld (modAttn i (fun a => { a with stage := .host }) s)), [])
  | .notifyClear => (raiseSlot i .attnSeen s, [.clearRecord i])
  | .stopPhase =>
    match phase with
    | some _ => (tellRunner i (.stopPhase .vector code) true s, [])
    | none => (s, [.clearRecord i])
  | .abortPlan =>
    match phase with
    | some _ => (tellRunner i (.abortPlan .vector code) true s, [])
    | none => (s, [.clearRecord i])
  | .ignore => (s, [.clearRecord i])

/-- Whether an item is the clear of a node. -/
def isClearOf (n : NodeIx) (it : Item) : Bool := decide (it.cmd = .nodeClear n)

/-- The node clear of an attention without a slot (R96): at most one is pending on a shelf, the others wait in the order
they arose, each node once. -/
def addNodeClear (k : Shelf) (n : NodeIx) (s : State) : State :=
  let sh := s.shelf k
  if sh.attnWide.any (isClearOf n) || flightIs (isClearOf n) sh.phase || sh.nodeWait.any (fun m => decide (m = n)) then s
  else if sh.attnWide.any isNodeClear || flightIs isNodeClear sh.phase then
    s.modShelf k fun sh => { sh with nodeWait := sh.nodeWait ++ [n] }
  else submitWide k (.nodeClear n) s

/-- A node clear has ended: the oldest waiting one is submitted (R96). -/
def nextNodeClear (k : Shelf) (s : State) : State :=
  match (s.shelf k).nodeWait with
  | n :: rest => submitWide k (.nodeClear n) (s.modShelf k fun sh => { sh with nodeWait := rest })
  | [] => s

/-- An ATTN_QUERY has ended DONE (R96; R107 for a SILENT drive). -/
def capture (k : Shelf) (n : NodeIx) (code detail : Byte) (s : State) : State × List Tell :=
  match (s.shelf k).nodes[n] with
  | .bound i =>
    let r := s.slot i
    if r.silent then (s, [])
    else if r.attn.isSome then (raiseSlot i .protocol s, [])
    else
      let s' := formRecord i code detail s
      let phase := r.run.map Run.phase
      match dispositionOf s code with
      | .fixed => actFixed i code detail phase s'
      | .vector action => actVector i code phase action s'
  | _ => (addNodeClear k n (raiseShelf k .protocol s), [])

/-- An ATTN_QUERY has ended NO_REPLY for a node (R97). -/
def queryMissed (k : Shelf) (n : NodeIx) (s : State) : State × List Tell :=
  match (s.shelf k).nodes[n] with
  | .bound i => if (s.slot i).attn.isSome then (s, []) else submit i .attnClear .attentionUnit s
  | _ => (s, [])

/-- The fetch loop of the slot's record is finished: its clear is submitted (R100). -/
def finishLoop (i : Slot) (s : State) : State × List Tell :=
  (modAttn i (fun a => { a with fetch := a.fetch.map fun f => { f with finished := true } }) s, [.clearRecord i])

/-- A FETCH has ended DONE (R100, R150). -/
def fetchDone (i : Slot) (a : AttnRecord) (f : FetchProgress) (l : List DefectReport) (remaining : Nat) (s : State) :
    State × List Tell :=
  let s := if (s.slot i).run.isSome && decide (a.run = .current) then deliver i (a.phase.getD 0) l s else s
  let empties := if remaining = 0 then f.empties else if 0 < l.length then 0 else f.empties + 1
  let progress : FetchProgress :=
    { received := satAdd 65535 f.received l.length, remaining := some remaining, empties := empties, finished := false }
  let s := modAttn i (fun a => { a with fetch := some progress }) s
  if remaining = 0 then finishLoop i s
  else if empties < 3 then submit i .fetch .attentionUnit s
  else finishLoop i (markIncomplete i (raiseSlot i .protocol s))

/-- The Attention Unit takes the outcome of a FETCH (R100, R107). One that ends after its record has gone, as by the DONE of
an inherited clear (R103), reaches no one (log 44). -/
def fetchAnswered (i : Slot) (answer : Answer) (s : State) : State × List Tell :=
  match (s.slot i).attn with
  | some a =>
    match a.fetch with
    | some f =>
      if f.finished then (s, [])
      else
        match answer with
        | .done (.reports l remaining) => fetchDone i a f l remaining s
        | .badReply => finishLoop i (markIncomplete i s)
        | .noReply => submit i .fetch .attentionUnit (markIncomplete i s)
        | .noResponse => (discardRecord i s, [])
        | _ => (s, [])
    | none => (s, [])
  | none => (s, [])

/-- The Attention Unit takes the outcome of an ATTN_CLEAR of the slot (R103, R107). -/
def clearAnswered (i : Slot) (answer : Answer) (s : State) : State × List Tell :=
  match answer with
  | .done _ =>
    (s.modSlot i fun r => { r with attn := none, reports := r.reports.map Report.cleared }, [])
  | .noReply => submit i .attnClear .attentionUnit s
  | .noResponse => (discardRecord i s, [])
  | _ => (s, [])

/-- The Attention Unit takes the outcome of one of its items. -/
def attentionAnswered (it : Item) (answer : Answer) (s : State) : State × List Tell :=
  match it.cmd, it.slot with
  | .attnQuery (some n), _ =>
    match answer with
    | .done (.attention code detail) => capture it.shelf n code detail s
    | _ => queryMissed it.shelf n s
  | .nodeClear _, _ => (nextNodeClear it.shelf s, [])
  | .attnClear, some i => clearAnswered i answer s
  | .fetch, some i => fetchAnswered i answer s
  | _, _ => (s, [])

/-- A DONE poll's attention-in-service indication (R106). -/
def pollInService (i : Slot) (inService : Bool) (s : State) : State × List Tell :=
  if inService && (s.slot i).attn.isNone && !pendingOrInFlight s i .attnClear then
    submit i .attnClear .attentionUnit (raiseSlot i .protocol s)
  else (s, [])

end Sys2Proof.Machine
end

