-- ==== Sys2Proof/Machine/Power.lean ====
section
/-! DEFINITION. The Power Manager (chapter 02): requests, withdrawals, grants, the spin window, spin-down and
power-off with what a power-off discards, shedding, and the disabling of a shelf. -/

namespace Sys2Proof.Machine

/-! ## The wait queue (R31 to R35) -/

/-- The slot's entry in its shelf's wait queue (R31). -/
def entryOf (s : State) (i : Slot) : Option QueueEntry :=
  (s.shelf (shelfOf i)).queue.find? fun e => decide (e.slot = i)

/-- Whether the slot has an entry of a kind. -/
def hasEntry (s : State) (i : Slot) (kind : EntryKind) : Bool :=
  (s.shelf (shelfOf i)).queue.any fun e => decide (e.slot = i) && decide (e.kind = kind)

/-- Change the wait queue of a shelf. -/
def setQueue (k : Shelf) (q : List QueueEntry) (s : State) : State := s.modShelf k fun sh => { sh with queue := q }

/-- Place an entry: at the tail, or in the place of the slot's entry (R31). -/
def placeRequest (e : QueueEntry) (q : List QueueEntry) : List QueueEntry :=
  if q.any fun x => decide (x.slot = e.slot) then q.map fun x => if x.slot = e.slot then e else x else q ++ [e]

/-- The queue without a slot's entry. -/
def withoutSlot (i : Slot) (q : List QueueEntry) : List QueueEntry := q.filter fun e => decide (e.slot ≠ i)

/-! ## Grants (R33, R34, R36, R37) -/

/-- Whether an entry fits the current limit (R33). -/
def fits (s : State) (k : Shelf) (e : QueueEntry) : Bool :=
  let sh := s.shelf k
  match e.kind with
  | .power => decide (committed s k + sh.idleDraw ≤ currentLimit sh)
  | .spin => decide (committed s k - sh.idleDraw + sh.inrushDraw ≤ currentLimit sh)

/-- Where the console receiver begins when the switch comes on (R166). -/
def rxAtPowerOn (line : Bool) : ConsoleRx := if line then .watching else .waitHigh

/-- A POWER_CYCLE that waits for power learns that the slot is on (R123, R124). -/
def cyclePowered (i : Slot) (s : State) : State :=
  s.modRun i fun run => if run.cycleStep = some .awaitPower then { run with cycleStep := some .attach } else run

/-- A power grant (R34, R36): the switch goes on at the idle draw, the admission becomes BOOTING and the boot delay
starts; a requester that is the Plan Runner learns POWERED_ON. -/
def grantPower (i : Slot) (by_ : Requester) (s : State) : State :=
  let k := shelfOf i
  let rank := nextRank s k
  let s := s.modSlot i fun r =>
    { r with
      cls := .idle
      powerRank := some rank
      powerReq := by_
      adm := .booting
      bootTimer := s.after (secs (s.shelf k).bootDelay)
      con := { r.con with rx := rxAtPowerOn r.con.line } }
  let s := if (s.slot i).occ = .powerWait then setOcc i .booting s else s
  if by_ = .planRunner then cyclePowered i s else s

/-- A spin grant (R34, R37): spin-hold is released at the inrush draw and the spin window opens. -/
def grantSpin (i : Slot) (by_ : Requester) (s : State) : State :=
  let k := shelfOf i
  let rank := nextRank s k
  s.modSlot i fun r =>
    { r with
      cls := .inrush
      spinRank := some rank
      spinTimer := s.after (secs (s.shelf k).spinWindow)
      spinReq := some by_ }

/-- Grant an entry. -/
def grant (e : QueueEntry) (s : State) : State :=
  match e.kind with
  | .power => grantPower e.slot e.requester s
  | .spin => grantSpin e.slot e.requester s

/-- Test the head, grant it if it fits and go on with the new head, at most so many times (R33). -/
def examineTimes : Nat → Shelf → State → State
  | 0, _, s => s
  | n + 1, k, s =>
    match (s.shelf k).queue with
    | e :: rest => if fits s k e then examineTimes n k (grant e (setQueue k rest s)) else s
    | [] => s

/-- Examine the wait queue for grants (R33). -/
def examine (k : Shelf) (s : State) : State := examineTimes (s.shelf k).queue.length k s

/-! ## Requests (R32) -/

/-- Whether a slot stands released to the operator: in REMOVE_READY, or with its latch energized (R10, R18). -/
def released (r : SlotRec) : Bool := decide (r.occ = .removeReady) || r.unlocked

/-- A POWER request (R32). Answers that change no state, SHELF_OFF and DISCARDED, end here, and so does a request for a
slot that its event has released to the operator, as a power cycle of the ladder on the REWORK path does (R4, R18, R66,
R198; log 50). -/
def requestPower (i : Slot) (by_ : Requester) (s : State) : State :=
  let k := shelfOf i
  let r := s.slot i
  if r.cls ≠ .off then if by_ = .planRunner then cyclePowered i s else s
  else if (s.shelf k).enabled = false ∨ released r = true then s
  else if by_ = .ladder ∧ r.occ = .binWait then s
  else
    let s := setQueue k (placeRequest { slot := i, kind := .power, requester := by_ } (s.shelf k).queue) s
    let s := s.modSlot i fun r => { r with adm := .queued }
    let s := if r.occ = .binWait ∨ r.occ = .shipping then s else setOcc i .powerWait s
    examine k s

/-- A SPIN request of the Plan Runner (R32). -/
def requestSpin (i : Slot) (s : State) : State × List Tell :=
  let k := shelfOf i
  match (s.slot i).cls with
  | .off => (s, [])
  | .idle =>
    (examine k (setQueue k (placeRequest { slot := i, kind := .spin, requester := .planRunner } (s.shelf k).queue) s), [])
  | .inrush => (s.modSlot i fun r => { r with spinReq := some .planRunner }, [])
  | .run => (s, [.spinReady i])

/-! ## Withdrawals, spin-down and power-off (R35, R40, R41) -/

/-- Withdraw the slot's entry of a kind (R35): the admission returns to OFF with a POWER entry, and the queue is
examined. -/
def withdrawEntry (i : Slot) (kind : EntryKind) (s : State) : State :=
  if hasEntry s i kind then
    let k := shelfOf i
    let s := setQueue k (withoutSlot i (s.shelf k).queue) s
    let s := if kind = .power then s.modSlot i fun r => { r with adm := .off } else s
    examine k s
  else s

/-- Return a slot to the idle draw: spin-hold is asserted and the window closes with no outcome told (R39, R40, R43). -/
def toIdle (i : Slot) (s : State) : State :=
  s.modSlot i fun r => { r with cls := .idle, spinRank := none, spinTimer := none, spinReq := none }

/-- A spin-down request (R40). -/
def spinDown (i : Slot) (s : State) : State :=
  let s := match (s.slot i).cls with
    | .inrush => examine (shelfOf i) (toIdle i s)
    | .run => examine (shelfOf i) (toIdle i s)
    | _ => s
  withdrawEntry i .spin s

/-- Turn the switch off (R41): the class is OFF, ranks, window and queue entry go, the admission is OFF, the boot delay
and a reset pulse end (R15, R65), and the console receiver stops (R166). -/
def cutPower (i : Slot) (s : State) : State :=
  let k := shelfOf i
  let s := s.modSlot i fun r =>
    { r with
      cls := .off
      powerRank := none
      spinRank := none
      spinTimer := none
      spinReq := none
      adm := .off
      bootTimer := none
      pulseTimer := none
      con := { r.con with rx := .stopped } }
  setQueue k (withoutSlot i (s.shelf k).queue) s

/-- A power-off request (R41). -/
def powerOff (i : Slot) (s : State) : State × List Tell :=
  if (s.slot i).cls ≠ .off then (cutPower i s, [.switchedOff i, .examine (shelfOf i)])
  else (withdrawEntry i .power s, [])

/-- Discard the drive part (R2): its node is freed (R90), the slot's work is dropped (R57), the poll timer stops and the
poll record goes (R58, R60), the SILENT mark is cleared (R67), the temperature record is invalid (R135), the matcher
starts afresh (R172) and the attention record is discarded (R105). -/
def discardDrive (i : Slot) (s : State) : State × List Tell :=
  match (s.slot i).drive with
  | none => (s, [])
  | some d =>
    let s := discardRecord i (setNode (shelfOf i) d.node .free s)
    let s := s.modSlot i fun r =>
      clearProgress { r with drive := none, pollTimer := none, poll := none, silent := false, temp := TempRec.reset }
    dropWork i s

/-- The switch of the slot has gone off: the blocks that hold state for a powered drive discard it (R41). -/
def switchedOff (i : Slot) (s : State) : State × List Tell :=
  let s := freeUnheld (shelfOf i) (leaveSet i s)
  discardDrive i s

/-! ## The spin window (R38, R39) -/

/-- A DONE poll's motor state reaches the Power Manager (R38). -/
def motorReport (i : Slot) (motor : Motor) (s : State) : State × List Tell :=
  let r := s.slot i
  if r.cls = .inrush ∧ motor = .ready then
    (s.modSlot i fun r => { r with cls := .run, spinTimer := none, spinReq := none },
      (if r.spinReq = some .planRunner then [.spinReady i] else []) ++ [.examine (shelfOf i)])
  else (s, [])

/-- The spin window expires (R39). -/
def windowExpired (i : Slot) (s : State) : State × List Tell :=
  let r := s.slot i
  if r.cls = .inrush then
    (toIdle i s, (if r.spinReq = some .planRunner then [.spinFailed i] else []) ++ [.examine (shelfOf i)])
  else (s, [])

/-! ## Shedding (R42 to R45) -/

/-- An owed request with the rank of the grant it undoes (R44). -/
structure Owed where
  slot : Slot
  kind : EntryKind
  rank : Nat
  deriving DecidableEq, Repr

/-- The slot of the shelf with the latest rank among those of a property (R43). -/
def latest (s : State) (k : Shelf) (rank : SlotRec → Option Nat) (p : SlotRec → Bool) : Option Slot :=
  (slotsOf k).foldl (fun best i =>
    if p (s.slot i) then
      match best with
      | none => some i
      | some j => if (rank (s.slot j)).getD 0 < (rank (s.slot i)).getD 0 then some i else best
    else best) none

/-- One stage over the class of a running motor (R43, stages 1 and 2): slots go to the idle draw, latest spin rank
first, until the total is within the limit; each owes SPIN. -/
def shedMotors : Nat → Shelf → PowerClass → State × List Owed → State × List Owed
  | 0, _, _, x => x
  | n + 1, k, c, (s, owed) =>
    if committed s k ≤ currentLimit (s.shelf k) then (s, owed)
    else
      match latest s k SlotRec.spinRank (fun r => decide (r.cls = c)) with
      | none => (s, owed)
      | some i => shedMotors n k c (toIdle i s, owed ++ [⟨i, .spin, ((s.slot i).spinRank).getD 0⟩])

/-- Stage 3 (R43): slots are switched off, latest power rank first; each owes POWER only. -/
def shedPower : Nat → Shelf → State × List Owed → State × List Owed
  | 0, _, x => x
  | n + 1, k, (s, owed) =>
    if committed s k ≤ currentLimit (s.shelf k) then (s, owed)
    else
      match latest s k SlotRec.powerRank (fun r => decide (r.cls ≠ .off)) with
      | none => (s, owed)
      | some i =>
        shedPower n k (cutPower i s,
          (owed.filter fun o => decide (o.slot ≠ i)) ++ [⟨i, .power, ((s.slot i).powerRank).getD 0⟩])

/-- The three stages (R43); a stage whose commitments would not fall passes every slot over. -/
def shedStages (k : Shelf) (s : State) : State × List Owed :=
  let sh := s.shelf k
  let x := if sh.idleDraw < sh.inrushDraw then shedMotors 8 k .inrush (s, []) else (s, [])
  let x := if sh.idleDraw < sh.runDraw then shedMotors 8 k .run x else x
  shedPower 8 k x

/-- Place an owed request in the order of the ranks it undoes, oldest first (R44). -/
def insertOwed (o : Owed) : List Owed → List Owed
  | [] => [o]
  | x :: l => if o.rank < x.rank then o :: x :: l else x :: insertOwed o l

/-- Whether an owed request is queued (R44): not a POWER in BIN_WAIT, not a SPIN without a run part. -/
def owedQueued (s : State) (o : Owed) : Bool :=
  match o.kind with
  | .power => decide ((s.slot o.slot).occ ≠ .binWait)
  | .spin => (s.slot o.slot).run.isSome

/-- The wait queue entry of an owed request (R44). -/
def owedEntry (s : State) (o : Owed) : QueueEntry :=
  match o.kind with
  | .power => { slot := o.slot, kind := .power, requester := (s.slot o.slot).powerReq }
  | .spin => { slot := o.slot, kind := .spin, requester := .planRunner }

/-- A slot that owes a queued POWER is QUEUED, and waits in POWER_WAIT unless it is SHIPPING (R8, R44). -/
def owePower (o : Owed) (s : State) : State :=
  if o.kind = .power then
    let s := s.modSlot o.slot fun r => { r with adm := .queued }
    if (s.slot o.slot).occ = .shipping then s else setOcc o.slot .powerWait s
  else s

/-- Place the owed requests together at the head of the queue (R44). -/
def placeOwed (k : Shelf) (owed : List Owed) (s : State) : State :=
  let queued := (owed.filter (owedQueued s)).foldl (fun l o => insertOwed o l) []
  let rest := (s.shelf k).queue.filter fun e => !(queued.any fun o => decide (o.slot = e.slot))
  queued.foldl (fun s o => owePower o s) (setQueue k (queued.map (owedEntry s) ++ rest) s)

/-- Shedding (R42 to R44), when an enabled shelf's total is above its limit. It tells every switch-off, then every
interruption, then every ship failure, each in the order in which the stages took the slots (log 45). -/
def shed (k : Shelf) (s : State) : State × List Tell :=
  if (s.shelf k).enabled && decide (currentLimit (s.shelf k) < committed s k) then
    let (s', owed) := shedStages k s
    let off := owed.filter fun o => decide (o.kind = .power)
    (placeOwed k owed s',
      off.map (fun o => .switchedOff o.slot) ++ owed.map (fun o => .interrupted o.slot .shed) ++
        (off.filter fun o => decide ((s.slot o.slot).occ = .shipping)).map (fun o => .shipFail o.slot .supplyOff) ++
        [.shedDone k])
  else (s, [])

/-- Shedding has told every slot it took: SHED is set and the queue is examined (R44). -/
def shedDone (k : Shelf) (s : State) : State := examine k (raiseShelf k .shed s)

/-- Follow a change of limit or of draws (R26, R28): shed what is over, else examine the queue. -/
def limitChanged (k : Shelf) (s : State) : State × List Tell :=
  if (s.shelf k).enabled && decide (currentLimit (s.shelf k) < committed s k) then shed k s else (examine k s, [])

/-- Withdraw the queue of a disabled shelf: each slot that stood there for power has admission OFF (R35, R45). -/
def clearQueue (k : Shelf) (s : State) : State :=
  let s' := (s.shelf k).queue.foldl (fun s e =>
    if e.kind = .power then s.modSlot e.slot fun r => { r with adm := .off } else s) s
  setQueue k [] s'

/-- Whether a disabled shelf holds a slot in this state (R17). -/
def heldByDisable (o : Occupancy) : Bool :=
  match o with
  | .powerWait | .booting | .attaching | .ready | .testing => true
  | _ => false

/-- Whether the slot is powered or stands in the wait queue, so that a disable withdraws something of it (R45). -/
def commits (s : State) (i : Slot) : Bool := decide ((s.slot i).cls ≠ .off) || (entryOf s i).isSome

/-- Disable a shelf (R45, R17): every powered slot is switched off, every entry withdrawn, and the slots are told and
placed. INTERRUPTED goes to each slot that was powered or queued and to each that is held with its run part, also in the
off time of a POWER_CYCLE. Switch-offs, interruptions, ship failures and placings are told one after the other, each in
ascending slot order (log 45). -/
def disableShelf (k : Shelf) (s : State) : State × List Tell :=
  let powered := (slotsOf k).filter fun i => decide ((s.slot i).cls ≠ .off)
  let told := (slotsOf k).filter fun i => commits s i || heldByDisable (s.slot i).occ
  let shippers := powered.filter fun i => decide ((s.slot i).occ = .shipping)
  let withdrawn := (slotsOf k).any (commits s)
  let s := clearQueue k (powered.foldl (fun s i => cutPower i s) s)
  (s, powered.map .switchedOff ++ told.map (fun i => .interrupted i .shed) ++
    shippers.map (fun i => .shipFail i .supplyOff) ++ (slotsOf k).map .placeDisabled ++
    (if withdrawn then [.shedDone k] else []))

end Sys2Proof.Machine
end

