-- ==== Sys2Proof/Machine/Plan.lean ====
section
/-! DEFINITION. The Plan Runner (chapter 06): the start of a run, the entry to a phase, the ending causes and stops, the
steps of a POWER_CYCLE, interruptions, and the outcomes of START_TEST and STOP_TEST. -/

namespace Sys2Proof.Machine

/-- The run record at a run's start (R115). -/
def newRun (p : PlanIx) (plan : Plan) : Run where
  plan := p
  planId := plan.id
  phase := 0
  state := .pending
  decided := none
  wall := 0
  dose := 0
  runDose := 0
  oobPhase := 0
  oobRun := 0
  excursion := 0
  stale := 0
  interruptions := 0
  cycleStep := none
  cyclesDone := 0
  suspShed := false
  suspRecovery := false
  outcomes := List.replicate plan.count .pending
  trips := 0
  incomplete := false
  stop := none
  wallTimer := none
  restTimer := none
  offTimer := none
  onTimer := none
  noAttachKept := false

/-- A run starts (R114): the run record is formed, the identity memory written from the drive part (R2), the slot enters
TESTING, and phase 0 is entered. -/
def startRun (i : Slot) (p : PlanIx) (s : State) : State × List Tell :=
  let plan := s.plans[p]
  let s := s.modSlot i fun r =>
    { r with run := some (newRun p plan), identity := r.drive.map DrivePart.ident }
  (setOcc i .testing s, [.enterPhase i])

/-- The per-phase fields at a phase's entry (R115). -/
def freshPhase (run : Run) : Run :=
  { run with
    state := .pending
    decided := none
    wall := 0
    dose := 0
    oobPhase := 0
    excursion := 0
    stale := 0
    interruptions := 0
    cycleStep := none
    cyclesDone := 0
    suspShed := false
    suspRecovery := false
    wallTimer := none
    restTimer := none
    offTimer := none
    onTimer := none
    noAttachKept := false }

/-- The first state of a phase whose drive is bound, or of a REST (R117): SOAK and DRIVE_TEST ask for SPIN (R118), a
POWER_CYCLE begins at SPIN_DOWN (R123), a REST asks for spin-down and starts its timer (R122). -/
def beginPhase (i : Slot) (body : PhaseBody) (s : State) : State × List Tell :=
  match body with
  | .soak .. => (s.modRun i fun run => { run with state := .starting }, [.requestSpin i])
  | .driveTest .. => (s.modRun i fun run => { run with state := .starting }, [.requestSpin i])
  | .rest duration =>
    (s.modRun i fun run =>
      { run with state := .running, wallTimer := s.after (secs 1), restTimer := s.after (secs duration) }, [.spinDown i])
  | .powerCycle .. => (s.modRun i fun run => { run with state := .running }, [.cycleDown i])

/-- Whether a phase is a REST, and whether it is a POWER_CYCLE. -/
def isRest : PhaseBody → Bool
  | .rest _ => true
  | _ => false
def isCycle : PhaseBody → Bool
  | .powerCycle .. => true
  | _ => false

/-- The run as a phase is entered (R117): the per-phase fields are reset, and a POWER_CYCLE's wall time counts from here
(R123). -/
def enteredRun (body : PhaseBody) (second : Option Nat) (run : Run) : Run :=
  { freshPhase run with wallTimer := if isCycle body then second else none }

/-- Enter the phase of the current index (R117): the per-phase fields are reset, the first state is set by kind and
admission, a slot that is off with no request standing asks for POWER, and a NO_ATTACH kept from the phase before is
taken (R127). -/
def enterPhase (i : Slot) (s : State) : State × List Tell :=
  match (s.slot i).run with
  | none => (s, [])
  | some run =>
    match phaseRec s run with
    | none => (s, [])
    | some rec =>
      let s := s.modRun i (enteredRun rec.body (s.after (secs 1)))
      let asks := decide ((s.slot i).adm = .off) && !hasEntry s i .power
      let (s, tells) :=
        if (s.slot i).adm = .bound ∨ isRest rec.body then beginPhase i rec.body s else (s, [])
      (s, tells ++ (if asks then [.requestPower i .planRunner] else []) ++
        (if run.noAttachKept then [.noAttach i] else []))

/-- The test code of a phase that runs a test. -/
def testCodeOf (s : State) (run : Run) : Option Byte :=
  match phaseRec s run with
  | some ⟨.soak c _ _ _ _ _, _⟩ => some c
  | some ⟨.driveTest c _ _, _⟩ => some c
  | _ => none

/-- Submit START_TEST with the phase's test code and index (R118). -/
def submitStart (i : Slot) (s : State) : State × List Tell :=
  match (s.slot i).run with
  | none => (s, [])
  | some run =>
    match testCodeOf s run with
    | some c => submit i (.startTest c run.phase) .planRunner s
    | none => (s, [])

/-! ## Ending causes, stops and the end of a phase (R120, R127 to R129) -/

/-- Whether a cause finds a test running on a bound drive, so that STOP_TEST is sent (R120, R128). -/
def testGoing (s : State) (i : Slot) (run : Run) : Bool :=
  decide (run.state = .running) && runsTest s run && (s.slot i).drive.isSome

/-- Decide the phase and send STOP_TEST (R120, step 2). -/
def beginStopping (i : Slot) (v : Verdict) (s : State) : State × List Tell :=
  submit i (.stopTest false) .planRunner
    (s.modRun i fun run => { run with decided := some v, state := .stopping, wallTimer := none })

/-- Decide the phase and end it at once (R120, step 3). -/
def endAtOnce (i : Slot) (v : Verdict) (s : State) : State × List Tell :=
  (s.modRun i fun run => { run with decided := some (run.decided.getD v), state := .ended }, [.phaseEnded i])

/-- An ending cause reaches the current phase: the first decides, later ones are dropped (R120). `byDrive` marks the
causes that the drive ended itself. -/
def endCause (i : Slot) (v : Verdict) (byDrive : Bool) (s : State) : State × List Tell :=
  match (s.slot i).run with
  | none => (s, [])
  | some run =>
    if run.decided.isSome ∨ run.state = .ended then (s, [])
    else if testGoing s i run && !byDrive then beginStopping i v s
    else endAtOnce i v s

/-- Whether a failed phase stops the plan: FAIL with on-fail STOP_PLAN, and FAIL NO_ATTACH whatever the on-fail (R127). -/
def failStops (v : Verdict) (onFail : OnFail) : Bool :=
  decide (v.outcome = .fail) && (decide (onFail = .stopPlan) || decide (v.reason = .noAttach))

/-- Whether the last phase is STOPPING toward completion (R129): the outcome it has decided completes the plan (R127). -/
def completing (s : State) (run : Run) : Bool :=
  decide (run.state = .stopping) && decide (run.phase + 1 = run.outcomes.length) &&
    (match run.decided, phaseRec s run with
    | some v, some rec => (decide (v.outcome = .pass) || decide (v.outcome = .fail)) && !failStops v rec.onFail
    | _, _ => false)

/-- Whether a stop that waits is dropped (R129): one is pending, or the last phase is STOPPING toward completion, whatever
the stop. That R128 and R176 hold a stop pending in STOPPING is read of the other STOPPING phases (log 18). -/
def stopDropped (s : State) (run : Run) : Bool := run.stop.isSome || completing s run

/-- A stop that waits (R128, R129, R176). -/
def waitStop (i : Slot) (reason : StopReason) (v : Verdict) (s : State) : State × List Tell :=
  match (s.slot i).run with
  | none => (s, [])
  | some run =>
    if stopDropped s run then (s, [])
    else
      let s := s.modRun i fun run => { run with stop := some reason }
      if run.state = .stopping then (s, [])
      else if testGoing s i run then beginStopping i v s
      else endAtOnce i v s

/-- The reason of the outcome ABORTED that goes with a stop that does not wait (R128). -/
def abortedReason : StopReason → PhaseReason
  | .swap => .swap
  | .pulled => .pulled
  | .lost => .lost
  | _ => .hostAbort

/-- A stop that does not wait (R128): it replaces a pending one, the phase takes ABORTED unless it had decided, and a
STOP_TEST of the slot is withdrawn or disregarded. -/
def hardStop (i : Slot) (reason : StopReason) (s : State) : State × List Tell :=
  match (s.slot i).run with
  | none => (s, [])
  | some _ =>
    let s := renounce i .stopTest (s.modRun i fun run => { run with stop := some reason })
    endAtOnce i { outcome := .aborted, reason := abortedReason reason, detail := 0 } s

/-- The dose of an ended phase in equivalent seconds: floor(phase dose / 256) for a SOAK, 0 for the others (R116,
R144). -/
def endedDose (s : State) (run : Run) : Nat :=
  match phaseRec s run with
  | some ⟨.soak .., _⟩ => run.dose / 256
  | _ => 0

/-- The run record with the ended phase's entry written and its dose added to the run dose (R120, R144). -/
def writeOutcome (dose : Nat) (run : Run) : Run :=
  let v := run.decided.getD passVerdict
  { run with
    outcomes := setNth run.outcomes run.phase (.ended v run.wall dose)
    runDose := satAdd 16777215 run.runDose dose
    wallTimer := none
    restTimer := none
    offTimer := none
    onTimer := none }

/-- Every phase not yet ended is SKIPPED (R127, R128). -/
def skipPending : OutcomeEntry → OutcomeEntry
  | .pending => .ended { outcome := .skipped, reason := .none, detail := 0 } 0 0
  | e => e

/-- The plan stops or completes: what is left is SKIPPED and the grading event follows (R127). -/
def stopPlan (i : Slot) (reason : StopReason) (s : State) : State × List Tell :=
  (s.modRun i fun run => { run with outcomes := run.outcomes.map skipPending }, [.grade i reason])

/-- How the run goes on after an ended phase (R127). -/
def goOn (i : Slot) (run : Run) (v : Verdict) (onFail : OnFail) (s : State) : State × List Tell :=
  match run.stop with
  | some reason => stopPlan i reason s
  | none =>
    if failStops v onFail then stopPlan i .phaseFail s
    else if run.phase + 1 < run.outcomes.length then
      (s.modRun i fun run => { run with phase := run.phase + 1 }, [.enterPhase i])
    else (s, [.grade i .none])

/-- The current phase is ENDED: its entry is written, the ladder stage returns to 0 (R63), also where a forced pull ends
the phase during a reset pulse (log 49), PHASE_END is set (R117), and the run goes on (R127). -/
def phaseEnded (i : Slot) (s : State) : State × List Tell :=
  match (s.slot i).run with
  | none => (s, [])
  | some run =>
    let s' := s.modRun i (writeOutcome (endedDose s run))
    let s' := raiseSlot i .phaseEnd (s'.modSlot i fun r => { r with ladder := 0 })
    let onFail := match phaseRec s run with
      | some rec => rec.onFail
      | none => .continue
    goOn i run (run.decided.getD passVerdict) onFail s'

/-- NO_ATTACH is told (R127): an ending cause in any state short of ENDED, kept for the next phase in ENDED. -/
def takeNoAttach (i : Slot) (s : State) : State × List Tell :=
  match (s.slot i).run with
  | none => (s, [])
  | some run =>
    if run.state = .ended then (s.modRun i fun run => { run with noAttachKept := true }, [])
    else endCause i (failVerdict .noAttach) false s

/-! ## Spin answers and the motor (R118, R126) -/

/-- The timers of a POWER_CYCLE's ON_TIME step (R123): at once for an on time of 0. -/
def enterOnTime (i : Slot) (onTime : Nat) (s : State) : State × List Tell :=
  let s := s.modRun i fun run =>
    { run with cycleStep := some .onTime, onTimer := if onTime = 0 then none else s.after (secs onTime) }
  (s, if onTime = 0 then [.cycleDone i] else [])

/-- The run as it resumes (R126): a DRIVE_TEST counts its wall seconds anew. -/
def resumed (rec : PhaseRec) (run : Run) : Run :=
  { run with
    state := .starting
    suspShed := false
    suspRecovery := false
    wall := match rec.body with
      | .driveTest .. => 0
      | _ => run.wall }

/-- SPIN_READY is told (R118, R123, R126). -/
def spinReady (i : Slot) (s : State) : State × List Tell :=
  match (s.slot i).run with
  | none => (s, [])
  | some run =>
    match phaseRec s run with
    | none => (s, [])
    | some rec =>
      match run.state with
      | .starting => submitStart i s
      | .suspended =>
        if (s.slot i).drive.isSome then submitStart i (staleAtResume i (s.modRun i (resumed rec))) else (s, [])
      | .running =>
        match rec.body with
        | .powerCycle _ _ onTime => if run.cycleStep = some .spin then enterOnTime i onTime s else (s, [])
        | _ => (s, [])
      | _ => (s, [])

/-- SPIN_FAILED is told (R118, R124, R126). -/
def spinFailed (i : Slot) (s : State) : State × List Tell :=
  match (s.slot i).run with
  | none => (s, [])
  | some run =>
    if run.state = .starting ∨ run.state = .suspended ∨ (run.state = .running ∧ run.cycleStep = some .spin) then
      endCause i (failVerdict .spin) false s
    else (s, [])

/-! ## POWER_CYCLE (R123, R124) -/

/-- Begin a cycle: spin-down, then power-off, both requested. -/
def cycleDown (i : Slot) (s : State) : State × List Tell :=
  (s.modRun i fun run => { run with cycleStep := some .spinDown }, [.spinDown i, .powerOff i, .cycleOff i])

/-- The power-off is answered: the off timer starts. -/
def cycleOff (i : Slot) (s : State) : State × List Tell :=
  match (s.slot i).run with
  | none => (s, [])
  | some run =>
    match phaseRec s run with
    | some ⟨.powerCycle _ offTime _, _⟩ =>
      if run.state = .running ∧ run.cycleStep = some .spinDown then
        (s.modRun i fun run => { run with cycleStep := some .offTime, offTimer := s.after (secs offTime) }, [])
      else (s, [])
    | _ => (s, [])

/-- The on time has run: a cycle is done (R123). -/
def cycleDone (i : Slot) (s : State) : State × List Tell :=
  match (s.slot i).run with
  | none => (s, [])
  | some run =>
    match phaseRec s run with
    | some ⟨.powerCycle cycles _ _, _⟩ =>
      if run.state = .running ∧ run.cycleStep = some .onTime then
        let s := s.modRun i fun run => { run with cyclesDone := run.cyclesDone + 1, onTimer := none }
        if cycles ≤ run.cyclesDone + 1 then endCause i passVerdict false s else (s, [.cycleDown i])
      else (s, [])
    | _ => (s, [])

/-- Move a POWER_CYCLE to a step in which no timer runs. -/
def toStep (i : Slot) (step : CycleStep) (s : State) : State :=
  s.modRun i fun run => { run with cycleStep := some step, offTimer := none, onTimer := none }

/-! ## Bindings and interruptions -/

/-- A binding with comparison EQUAL reaches the phase (R117, R124, R126). -/
def phaseBound (i : Slot) (s : State) : State × List Tell :=
  match (s.slot i).run with
  | none => (s, [])
  | some run =>
    match phaseRec s run with
    | none => (s, [])
    | some rec =>
      match run.state with
      | .pending => beginPhase i rec.body s
      | .suspended => (s, [.requestSpin i])
      | .running =>
        match rec.body with
        | .powerCycle .. => (toStep i .spin s, [.requestSpin i])
        | _ => (s, [])
      | _ => (s, [])

/-- The interruption count rises by 1, saturating at 255 (R125). -/
def countInterruption (run : Run) : Run := { run with interruptions := satAdd 255 run.interruptions 1 }

/-- The reason joins the suspension reasons (R125). -/
def addReason (reason : Interruption) (run : Run) : Run :=
  match reason with
  | .shed => { run with suspShed := true }
  | .recovery => { run with suspRecovery := true }

/-- A SOAK or DRIVE_TEST enters SUSPENDED (R125). -/
def suspend (i : Slot) (reason : Interruption) (run : Run) (s : State) : State × List Tell :=
  let going := testGoing s i run
  let s := withdrawItem i .startTest (s.modRun i fun run =>
    addReason reason { run with state := .suspended, wallTimer := none })
  let s := raiseSlot i .suspended s
  if going then submit i (.stopTest true) .planRunner s else (s, [])

/-- An interruption of a POWER_CYCLE in its step (R124). -/
def interruptCycle (i : Slot) (run : Run) (s : State) : State × List Tell :=
  match run.cycleStep with
  | some .spinDown => (s, [])
  | some .offTime => (s, [])
  | _ =>
    if (s.slot i).drive.isSome then (toStep i .spin s, [.requestSpin i]) else (toStep i .attach s, [])

/-- INTERRUPTED is told (R122, R124, R125). -/
def interrupted (i : Slot) (reason : Interruption) (s : State) : State × List Tell :=
  match (s.slot i).run with
  | none => (s, [])
  | some run =>
    match phaseRec s run with
    | none => (s, [])
    | some rec =>
      match run.state with
      | .suspended => (s.modRun i (addReason reason), [])
      | .starting | .running =>
        let s := s.modRun i countInterruption
        match rec.body with
        | .soak .. => suspend i reason run s
        | .driveTest .. =>
          if 4 ≤ run.interruptions + 1 then endCause i (failVerdict .interrupted) false s else suspend i reason run s
        | .rest _ => (s, [])
        | .powerCycle .. => interruptCycle i run s
      | _ => (s, [])

/-! ## Outcomes of the Plan Runner's items -/

/-- START_TEST has ended (R118, R119; log 19). -/
def startAnswered (i : Slot) (phase : Nat) (answer : Answer) (s : State) : State × List Tell :=
  match (s.slot i).run with
  | none => (s, [])
  | some run =>
    if run.phase = phase ∧ (run.state = .starting ∨ run.state = .running) then
      match answer with
      | .done _ =>
        (if run.state = .starting then
          s.modRun i fun run => { run with state := .running, wallTimer := s.after (secs 1) }
        else s, [])
      | .noReply => submitStart i s
      | .noResponse => waitStop i .noResponse (failVerdict .noResponse) s
      | _ => (s, [])
    else (s, [])

/-- STOP_TEST has ended (R120). A STOP_TEST of a suspension changes nothing (R125). -/
def stopAnswered (i : Slot) (suspension : Bool) (answer : Answer) (s : State) : State × List Tell :=
  match (s.slot i).run with
  | none => (s, [])
  | some run =>
    if suspension = false ∧ run.state = .stopping then
      let ended := s.modRun i fun run => { run with state := .ended }
      match answer with
      | .noReply => submit i (.stopTest false) .planRunner s
      | .noResponse =>
        (ended.modRun i fun run => { run with stop := some (run.stop.getD .noResponse) }, [.phaseEnded i])
      | .superseded => (s, [])
      | _ => (ended, [.phaseEnded i])
    else (s, [])

/-- The Plan Runner takes the outcome of one of its items. -/
def planAnswered (it : Item) (answer : Answer) (s : State) : State × List Tell :=
  match it.cmd, it.slot with
  | .startTest _ phase, some i => startAnswered i phase answer s
  | .stopTest suspension, some i => stopAnswered i suspension answer s
  | _, _ => (s, [])

/-- A DONE poll's test state (R121): IDLE in a RUNNING test, with no START_TEST pending or in flight. -/
def pollTestState (i : Slot) (t : TestState) (s : State) : State × List Tell :=
  match (s.slot i).run with
  | none => (s, [])
  | some run =>
    if t = .idle ∧ run.state = .running ∧ runsTest s run = true ∧ pendingOrInFlight s i .startTest = false then
      submitStart i (raiseSlot i .protocol s)
    else (s, [])

/-! ## Reports taken as events (R98, R99, R119, R128, R176) -/

/-- Whether a phase-end report is live (R99): the three tests are made as it is taken, and neither its run part is gone
(R131) nor has its phase been resumed since (R126). -/
def reportLive (s : State) (i : Slot) (live : Bool) (phase : Nat) : Bool :=
  match (s.slot i).run with
  | none => false
  | some run => live && decide (run.phase = phase) && decide (run.state = .running) && runsTest s run

/-- A live PHASE_DONE (R99, R119): a DRIVE_TEST passes, a SOAK's test is started again. -/
def liveDone (i : Slot) (s : State) : State × List Tell :=
  match (s.slot i).run with
  | none => (s, [])
  | some run =>
    match phaseRec s run with
    | some ⟨.driveTest .., _⟩ => (s, [.endCause i passVerdict true])
    | some ⟨.soak .., _⟩ => submitStart i s
    | _ => (s, [])

/-- OVER_TEMP reaches the Plan Runner (R119): a cause that is taken also spins the slot down (log 23). -/
def takeOverTemp (i : Slot) (s : State) : State × List Tell :=
  match (s.slot i).run with
  | none => (s, [])
  | some run =>
    if run.decided.isSome ∨ run.state = .ended then (s, [])
    else (s, [.spinDown i, .endCause i (failVerdict .thermal) false])

/-- A verdict of FAIL with a detail. -/
def failDetail (reason : PhaseReason) (detail : Byte) : Verdict :=
  { outcome := .fail, reason := reason, detail := detail.toNat }

/-- What the Plan Runner does with a report as it takes it. -/
def actOnReport (i : Slot) (kind : ReportKind) (live : Bool) (s : State) : State × List Tell :=
  match kind with
  | .phaseDone phase => if reportLive s i live phase then liveDone i s else (s, [])
  | .phaseFailed phase reason =>
    if reportLive s i live phase then (s, [.endCause i (failDetail .drive reason) true]) else (s, [])
  | .overTemp => if live then takeOverTemp i s else (s, [])
  | .driveFault => if live then (s, [.waitStop i .driveFault (failVerdict .driveFault)]) else (s, [])
  | .stopPhase .vector code => if live then (s, [.endCause i (failDetail .vector code) false]) else (s, [])
  | .stopPhase .signature _ => if live then (s, [.endCause i (failVerdict .trip) false]) else (s, [])
  | .abortPlan .vector code => if live then (s, [.waitStop i .vector (failDetail .vector code)]) else (s, [])
  | .abortPlan .signature _ => if live then (s, [.waitStop i .trip (failVerdict .trip)]) else (s, [])
  | .earlyStop => if live then (s, [.waitStop i .earlyStop (failVerdict .earlyStop)]) else (s, [])

/-- The summary's outcome of an attention whose report is taken (R98): STALE for a phase end that is stale. -/
def summaryOutcome (s : State) (i : Slot) (kind : ReportKind) (live : Bool) : AttnOutcome :=
  match kind with
  | .phaseDone phase => if reportLive s i live phase then .taken else .stale
  | .phaseFailed phase _ => if reportLive s i live phase then .taken else .stale
  | _ => .taken

/-- Take a report (R98, R99, R103): the summary of the attention that brought it takes its outcome, then its action, then
the clear of that attention's record. -/
def takeKind (i : Slot) (rep : Report) (s : State) : State × List Tell :=
  let s' := if rep.ownsSummary then setOutcome i (summaryOutcome s i rep.kind rep.live) s else s
  let (s', tells) := actOnReport i rep.kind rep.live s'
  (s', tells ++ (if rep.owesClear then [.clearRecord i] else []))

/-- A report that is told and taken at this moment. -/
def toldNow (kind : ReportKind) : Report := { kind := kind, live := true, owesClear := false, ownsSummary := false }

/-- A command that names a report (log 5): the oldest report of its source is taken if it is that one; a different older
one must be taken first; with none waiting the report is taken as told at this moment. -/
def takeReport (i : Slot) (kind : ReportKind) (s : State) : State × List Tell :=
  match oldestReport (s.slot i).reports (sourceOf kind) with
  | none => takeKind i (toldNow kind) s
  | some rep =>
    if rep.kind = kind then
      takeKind i rep (s.modSlot i fun r => { r with reports := removeReport r.reports (sourceOf kind) })
    else (s, [])

/-! ## The wall timer (R118, R139) -/

/-- The maximum wall time of a phase that runs a test. -/
def maxWallOf (s : State) (run : Run) : Option Nat :=
  match phaseRec s run with
  | some ⟨.soak _ m _ _ _ _, _⟩ => some m
  | some ⟨.driveTest _ _ m, _⟩ => some m
  | _ => none

/-- The wall time test (R118, R139). -/
def wallTest (i : Slot) (s : State) : State × List Tell :=
  match (s.slot i).run with
  | none => (s, [])
  | some run =>
    match maxWallOf s run with
    | some m => if run.state = .running ∧ m ≤ run.wall then endCause i (failVerdict .timeout) false s else (s, [])
    | none => (s, [])

/-- Whether the wall time of the current phase counts: a POWER_CYCLE's from its entry to its end (R123), that of the
others while they are RUNNING (R118, R122). -/
def wallCounts (s : State) (run : Run) : Bool :=
  match phaseRec s run with
  | some rec => decide (run.state = .running) || (isCycle rec.body && decide (run.state ≠ .ended))
  | none => false

/-- A wall second of the current phase (R139): the count rises, a SOAK takes its dose tick, then the wall time is
tested. -/
def wallSecond (i : Slot) (s : State) : State × List Tell :=
  match (s.slot i).run with
  | none => (s, [])
  | some run =>
    match run.wallTimer with
    | none => (s, [])
    | some m =>
      if wallCounts s run then
        let s := s.modRun i fun run =>
          { run with wall := satAdd 262143 run.wall 1, wallTimer := some (m + secs 1) }
        match phaseRec s run with
        | some ⟨.soak _ _ target low high limit, _⟩ =>
          let (s, tells) := doseTick i run target low high limit s
          (s, tells ++ [.wallTest i])
        | _ => (s, [.wallTest i])
      else (s.modRun i fun run => { run with wallTimer := none }, [])

end Sys2Proof.Machine
end

