-- ==== Sys2Proof/Machine/Grade.lean ====
section
/-! DEFINITION. The Grade and Ship Unit (chapter 10): the grade inputs, the rule table, the grading event, bins with
their hold queues, and the ship sequence with its failures. -/

namespace Sys2Proof.Machine

/-! ## The grading event (R178 to R183) -/

/-- The number of entries with outcome FAIL (R116). -/
def failedPhases (l : List OutcomeEntry) : Nat :=
  l.countP fun e =>
    match e with
    | .ended v _ _ => decide (v.outcome = .fail)
    | .pending => false

/-- The grade inputs of a slot as they stand (R179). -/
def gradeInputs (r : SlotRec) (reason : StopReason) : GradeInputs where
  attachOk := r.run.isSome || r.drive.isSome
  stop := reason
  failedPhases := (r.run.map fun run => failedPhases run.outcomes).getD 0
  worstHead := worstHead r.seg.heads
  totalSectors := totalSectors r.seg.heads
  grownSectors := totalGrown r.seg.heads
  reports := totalReports r.seg.heads
  trips := (r.run.map Run.trips).getD 0
  incomplete := r.run.isSome && ((r.run.map Run.incomplete).getD false || loopUnfinished r)
  oobSeconds := (r.run.map Run.oobRun).getD 0
  runDose := (r.run.map Run.runDose).getD 0

/-- The bit of a stop reason in a rule's allowed set (R181, R206); none for the reasons that lead to no tote. -/
def allowedBit : StopReason → Option Nat
  | .none => some 0
  | .phaseFail => some 1
  | .earlyStop => some 2
  | .driveFault => some 3
  | .vector => some 4
  | .trip => some 5
  | .noResponse => some 6
  | .hostAbort => some 7
  | .attachFail => some 8
  | .swap => none
  | .lost => none
  | .pulled => none

/-- Whether a rule's allowed set holds a stop reason. -/
def allows (set : BitVec 9) (reason : StopReason) : Bool :=
  match allowedBit reason with
  | some b => set.getLsbD b
  | none => false

/-- Whether an input meets a limit (R183). -/
def meets (limit input : Nat) : Bool := decide (limit = noLimit) || decide (input ≤ limit)

/-- Whether a rule matches the grade inputs (R183). -/
def Rule.matches (rule : Rule) (g : GradeInputs) : Bool :=
  meets rule.maxWorst g.worstHead && meets rule.maxTotal g.totalSectors && meets rule.maxGrown g.grownSectors &&
    meets rule.maxReports g.reports && meets rule.maxFailed g.failedPhases && meets rule.maxTrips g.trips &&
    meets rule.maxOob g.oobSeconds && allows rule.allowed g.stop && !(rule.requireComplete && g.incomplete)

/-- The first matching rule below the rule count, with its index (R183). -/
def firstMatch (s : State) (g : GradeInputs) : Option (Rule × Nat) :=
  (List.range s.ruleCount).findSome? fun n =>
    match s.rules[n]? with
    | some rule => if rule.matches g then some (rule, n) else none
    | none => none

/-- Whether a stop reason leads to a tote (R180). -/
def leadsToTote : StopReason → Bool
  | .lost => false
  | .pulled => false
  | .swap => false
  | _ => true

/-- The bin and the rule index (R180, R183). -/
def chooseBin (s : State) (g : GradeInputs) : Option BinIx × Nat :=
  if leadsToTote g.stop then
    match firstMatch s g with
    | some (rule, n) => (some rule.bin, n)
    | none => (some s.defaultBin, 16)
  else (none, 16)

/-- The result part formed at a grading event (R178, step 3). -/
def formResult (s : State) (i : Slot) (reason : StopReason) : Result :=
  let r := s.slot i
  let g := gradeInputs r reason
  let choice := chooseBin s g
  { inputs := g, bin := choice.1, ruleIndex := choice.2, planId := (r.run.map Run.planId).getD 0,
    firstGrown := r.seg.firstGrown, shipped := false }

/-- The grading event (R178) and the placing of the slot (R10). A slot that holds a result part takes no second one. The
slots of LOST, PULLED and SWAP are placed by the event that brought the stop. -/
def grade (i : Slot) (reason : StopReason) (s : State) : State × List Tell :=
  if (s.slot i).result.isSome then (s, [])
  else
    let res := formResult s i reason
    let s := raiseSlot i .planEnd (dropRun i (s.modSlot i fun r => { r with result := some res }))
    if leadsToTote reason then
      if (s.slot i).adm = .bound then (s, [.spinDown i, .enterBinWait i]) else (s, [.powerOff i, .enterBinWait i])
    else (s, [])

/-! ## Bins (R184 to R188) -/

/-- Change the result part of a slot, if it holds one. -/
def modResult (i : Slot) (f : Result → Result) (s : State) : State :=
  s.modSlot i fun r => { r with result := r.result.map f }

/-- Change the ship record of a slot, if it holds one. -/
def modShip (i : Slot) (f : ShipRec → ShipRec) (s : State) : State :=
  s.modSlot i fun r => { r with ship := r.ship.map f }

/-- A bin of the table. -/
def binAt (s : State) (b : BinIx) : Bin := s.bins[b]

/-- Whether a bin has a free place. -/
def binHasRoom (s : State) (b : BinIx) : Bool := decide ((binAt s b).use < (binAt s b).capacity)

/-- Set BIN_FULL if the bin's use equals its capacity, after an event that may have brought it there (R184; log 37). -/
def noteFull (b : BinIx) (s : State) : State :=
  if (binAt s b).use = (binAt s b).capacity then raiseController .binFull s else s

/-- Reserve a place of a bin for a slot (R185, R186); a slot holds one reservation at most (R184). -/
def reserve (i : Slot) (b : BinIx) (s : State) : State :=
  if (s.slot i).reservation.isSome then s
  else
    let s := s.modBin b fun bin => { bin with reserved := bin.reserved + 1 }
    noteFull b (s.modSlot i fun r => { r with reservation := some b })

/-- Try a reservation in the result's bin, or join the tail of its hold queue (R185). -/
def tryReserve (i : Slot) (s : State) : State × List Tell :=
  match (s.slot i).result.bind Result.bin with
  | none => (s, [])
  | some b =>
    if (binAt s b).hold.isEmpty && binHasRoom s b then (reserve i b s, [.reserved i])
    else (s.modBin b fun bin => { bin with hold := bin.hold ++ [i] }, [])

/-- Examine a bin's hold queue (R186): the head is granted while there is room, each grant taken whole before the next
test. -/
def examineHold (b : BinIx) (s : State) : State × List Tell :=
  match (binAt s b).hold with
  | [] => (s, [])
  | i :: rest =>
    if binHasRoom s b then
      (reserve i b (s.modBin b fun bin => { bin with hold := rest }), [.reserved i, .examineHold b])
    else (s, [])

/-- Release the slot's reservation (R187). -/
def releaseReservation (i : Slot) (s : State) : State × List Tell :=
  match (s.slot i).reservation with
  | none => (s, [])
  | some b =>
    ((s.modBin b fun bin => { bin with reserved := bin.reserved - 1 }).modSlot i fun r => { r with reservation := none },
      [.examineHold b])

/-- Convert the slot's reservation into a filled place (R14, R187). -/
def convertReservation (i : Slot) (s : State) : State :=
  match (s.slot i).reservation with
  | none => s
  | some b =>
    (s.modBin b fun bin => { bin with reserved := bin.reserved - 1, fill := bin.fill + 1 }).modSlot i fun r =>
      { r with reservation := none }

/-- Take a slot out of every hold queue (R187). -/
def leaveHold (i : Slot) (s : State) : State :=
  { s with bins := s.bins.map fun bin => { bin with hold := bin.hold.filter fun j => decide (j ≠ i) } }

/-! ## The ship sequence (R190 to R194) -/

/-- The items a slot receives (R190). -/
def selectedItems (s : State) (b : Option BinIx) : List ShipItem :=
  (List.range s.shipCount).filterMap fun n =>
    match (s.shipItems[n]?).getD none, b with
    | some it, some b => if it.bins.getLsbD b.val then some it else none
    | _, _ => none

/-- The path of a sequence (R191). -/
def shipPath (r : SlotRec) : ShipPath :=
  match r.result with
  | some res => if res.inputs.stop = .attachFail then .noDrive else if r.diverted then .rework else .full
  | none => if r.diverted then .rework else .full

/-- Submit the STAMP of the slot (R194). -/
def startStamp (i : Slot) (s : State) : State × List Tell :=
  match (s.slot i).result with
  | none => (s, [])
  | some res =>
    submit i (.stamp (res.bin.getD 0) res.ruleIndex res.planId res.inputs.runDose res.inputs.stop) .shipUnit
      (modShip i (fun rec => { rec with step := .stamp }) s)

/-- Submit the next item of step WRITE or READ, or pass on to the next step (R193). -/
def shipNext (i : Slot) (s : State) : State × List Tell :=
  match (s.slot i).ship with
  | none => (s, [])
  | some rec =>
    match rec.step, rec.selected[rec.position]? with
    | .write, some it => submit i (.writeItem it.id it.value) .shipUnit s
    | .write, none =>
      match rec.selected with
      | it :: _ => submit i (.readItem it.id) .shipUnit (modShip i (fun rec => { rec with step := .read, position := 0 }) s)
      | [] => startStamp i s
    | .read, some it => submit i (.readItem it.id) .shipUnit s
    | .read, none => startStamp i s
    | _, _ => (s, [])

/-- Enter step WRITE: the selected items are taken from the list as it stands (R190, R193). -/
def shipWrite (i : Slot) (s : State) : State × List Tell :=
  let items := selectedItems s ((s.slot i).result.bind Result.bin)
  (modShip i (fun rec => { rec with step := .write, position := 0, selected := items }) s, [.shipNext i])

/-- The first drive step of a path (R191). -/
def firstDriveStep (i : Slot) (path : ShipPath) (s : State) : State × List Tell :=
  match path with
  | .full => (s, [.shipWrite i])
  | .rework => startStamp i s
  | .noDrive => (s, [])

/-- The slot is reserved: it enters SHIPPING, the ship record is formed and the sequence begins by the admission (R9,
R191, R192). -/
def reserved (i : Slot) (s : State) : State × List Tell :=
  let path := shipPath (s.slot i)
  let s := s.modSlot i fun r =>
    { r with ship := some { path := path, step := .waitBind, position := 0, selected := [], failures := 0 } }
  let s := setOcc i .shipping s
  if path = .noDrive then (s, [.shipPowerOff i true])
  else
    match (s.slot i).adm with
    | .bound => firstDriveStep i path s
    | .off => (s, [.requestPower i .supervisor])
    | _ => (s, [])

/-- The Slot Supervisor reports the drive bound (R192). -/
def shipBound (i : Slot) (s : State) : State × List Tell :=
  match (s.slot i).ship with
  | none => (s, [])
  | some rec => if rec.step = .waitBind then firstDriveStep i rec.path s else (s, [])

/-- Step POWER_OFF: the power-off request, and what follows its answer (R194, R198). -/
def shipPowerOff (i : Slot) (shipped : Bool) (s : State) : State × List Tell :=
  (modShip i (fun rec => { rec with step := .powerOff }) s, [.powerOff i, .shipComplete i shipped])

/-- The sequence is complete (R194, R198, R10, R18). -/
def shipComplete (i : Slot) (shipped : Bool) (s : State) : State × List Tell :=
  match (s.slot i).ship with
  | none => (s, [])
  | some rec =>
    if rec.step = .powerOff then
      let s := modResult i (fun res => { res with shipped := shipped }) s
      let s := s.modSlot i fun r => { r with ship := none, diverted := false }
      let s := unlockLatch i (setOcc i .removeReady s)
      (if shipped then raiseSlot i .shipped s else s, [])
    else (s, [])

/-- The next position of the item list. -/
def advance (i : Slot) (s : State) : State := modShip i (fun rec => { rec with position := rec.position + 1 }) s

/-- The Grade and Ship Unit takes the outcome of one of its items (R193, R194). -/
def shipAnswered (it : Item) (answer : Answer) (s : State) : State × List Tell :=
  match it.slot with
  | none => (s, [])
  | some i =>
    match (s.slot i).ship with
    | none => (s, [])
    | some rec =>
      match answer, it.cmd, rec.step with
      | .noResponse, _, _ => (s, [.shipFail i .noResponse])
      | .done _, .writeItem _ _, .write => (advance i s, [.shipNext i])
      | .done (.value v), .readItem _, .read =>
        match rec.selected[rec.position]? with
        | some item =>
          if v = item.value then (advance i s, [.shipNext i]) else (s, [.shipFail i .mismatch])
        | none => (s, [])
      | .done _, .stamp _ _ _ _ _, .stamp =>
        submit i .park .shipUnit (modShip i (fun rec => { rec with step := .park }) s)
      | .done _, .park, .park => (s, [.shipPowerOff i true])
      | _, _, _ => (s, [])

/-! ## Ship failures (R195 to R199) -/

/-- Whether a cause counts at a step (R195). -/
def causeCounts : ShipCause → ShipStep → Bool
  | _, .powerOff => false
  | .supplyOff, .waitBind => true
  | .noAttach, .waitBind => true
  | _, .waitBind => false
  | .noAttach, _ => false
  | _, _ => true

/-- A first failure restarts the sequence at WRITE (R196). The earlier attempt's selected items are emptied here, not when
WRITE is entered again (log 46). -/
def shipRestart (i : Slot) (cause : ShipCause) (s : State) : State × List Tell :=
  let s := modShip i (fun rec => { rec with failures := 1, position := 0, step := .waitBind, selected := [] }) s
  if (s.slot i).drive.isSome then (s, [.shipWrite i])
  else if cause = .noAttach then (s, [.powerOff i, .requestPower i .supervisor])
  else (s, [])

/-- A second failure begins the diversion: the reservation is released, which offers the place to the bin's hold queue
(R197, step 1). -/
def shipDivert (i : Slot) (cause : ShipCause) (s : State) : State × List Tell :=
  let (s, tells) := releaseReservation i s
  (s, tells ++ [.divert i cause])

/-- The end of the REWORK path by a failure (R198). -/
def reworkEnd (i : Slot) (s : State) : State × List Tell :=
  (raiseSlot i .shipFailed s, [.shipPowerOff i false])

/-- A failure cause of the ship sequence (R195). -/
def shipFail (i : Slot) (cause : ShipCause) (s : State) : State × List Tell :=
  match (s.slot i).ship with
  | none => (s, [])
  | some rec =>
    if causeCounts cause rec.step then
      match rec.path with
      | .full => if cause = .noResponse ∨ rec.failures ≠ 0 then shipDivert i cause s else shipRestart i cause s
      | .rework => reworkEnd i s
      | .noDrive => (s, [])
    else (s, [])

/-- The kinds of the SHIP class (R54). -/
def shipKinds : List BusKind := [.writeItem, .readItem, .stamp, .park]

/-- Withdraw the slot's SHIP items and disregard one in flight (R199; log 24). -/
def renounceShip (i : Slot) (s : State) : State := shipKinds.foldl (fun s kind => renounce i kind s) s

/-- The diversion after the old bin's place has been offered (R197, steps 2 to 5). -/
def divert (i : Slot) (cause : ShipCause) (s : State) : State × List Tell :=
  let rework := s.reworkBin
  let s := modResult i (fun res => { res with bin := some rework }) s
  let s := raiseSlot i .shipFailed (s.modSlot i fun r => { r with diverted := true, ship := none })
  let s := withdrawEntry i .power (setOcc i .binWait (renounceShip i s))
  (s, (if cause = .noAttach then [.powerOff i] else []) ++ [.tryReserve i])

/-- The slot enters BIN_WAIT from the grading event (R9, R10, R185). -/
def enterBinWait (i : Slot) (s : State) : State × List Tell :=
  (setOcc i .binWait (withdrawEntry i .power s), [.tryReserve i])

/-- A loss, a forced pull or a DIFFERENT binding in BIN_WAIT or SHIPPING (R199): the place or the hold queue is left, the
result takes bin NONE and shipped no, and the sequence ends. -/
def leaveTote (i : Slot) (s : State) : State × List Tell :=
  let s := modResult i (fun res => { res with bin := none, shipped := false }) (leaveHold i s)
  let s := renounceShip i (s.modSlot i fun r => { r with ship := none, diverted := false })
  releaseReservation i s

end Sys2Proof.Machine
end

