-- ==== Sys2Proof/Machine/Supervisor.lean ====
section
/-! DEFINITION. The Slot Supervisor (chapter 01) and the recovery ladder (section 3.5): insertion, removal, loss,
bindings, the placing of slots, the unlock, and the three ladder stages. -/

namespace Sys2Proof.Machine

/-- Whether a cause of R16 keeps the slot from power. -/
def heldCause (s : State) (i : Slot) : Bool :=
  let r := s.slot i
  !(s.shelf (shelfOf i)).enabled || (!r.enabled && r.run.isNone) || r.result.isSome

/-- Put the tail ring and its counts at their emptied values (R169). -/
def emptyConsole (i : Slot) (s : State) : State :=
  s.modSlot i fun r => { r with con := { r.con with ring := [], received := 0, framingErrors := 0 } }

/-- An insertion taken in EMPTY (R13, R169). -/
def insertion (i : Slot) (s : State) : State × List Tell :=
  let s := raiseSlot i .inserted s
  let s := if (s.slot i).result.isNone then emptyConsole i s else s
  if (s.shelf (shelfOf i)).enabled && (s.slot i).enabled && (s.slot i).result.isNone then
    (s, [.requestPower i .supervisor])
  else (setOcc i .held s, [])

/-- A removal taken in REMOVE_READY (R14). -/
def normalRemoval (i : Slot) (s : State) : State :=
  setOcc i .empty (raiseSlot i .removed (lockLatch i (convertReservation i s)))

/-- Whether a slot waits for a tote place or ships. -/
def inTote (o : Occupancy) : Bool := decide (o = .binWait) || decide (o = .shipping)

/-- A removal in any other state: a loss (R15). -/
def loss (i : Slot) (s : State) : State × List Tell :=
  (s, [.hardStop i .lost] ++ (if inTote (s.slot i).occ then [.leaveTote i] else []) ++ [.powerOff i, .lost i])

/-- The end of a loss: the slot enters EMPTY and LOST and REMOVED are set (R15). -/
def lost (i : Slot) (s : State) : State :=
  let s := s.modSlot i fun r => { r with adm := .off, bootTimer := none }
  raiseSlot i .removed (raiseSlot i .lost (setOcc i .empty s))

/-- A removal (R14, R15). -/
def removal (i : Slot) (s : State) : State × List Tell :=
  match (s.slot i).occ with
  | .empty => (s, [])
  | .removeReady => (normalRemoval i s, [])
  | _ => loss i s

/-- A binding without a run part and without a result part (R6, R113). -/
def freshBinding (i : Slot) (s : State) : State × List Tell :=
  let s := raiseSlot i .attached (setOcc i .ready s)
  match (s.slot i).armed with
  | some p => (s, if (s.slot i).autostart then [.startRun i p] else [])
  | none => (s, [])

/-- The Attach Unit reports a binding (R4, R6). -/
def bound (i : Slot) (cmp : Comparison) (s : State) : State × List Tell :=
  let s := s.modSlot i fun r => { r with adm := .bound }
  let r := s.slot i
  if r.run.isSome then
    if cmp = .different then (s, [.hardStop i .swap, .swapped i])
    else (raiseSlot i .attached (setOcc i .testing s), [.phaseBound i])
  else if inTote r.occ then
    if cmp = .different then (s, [.leaveTote i, .swapped i]) else (raiseSlot i .attached s, [.shipBound i])
  else if r.result.isSome then (raiseSlot i .attached (setOcc i .ready s), [])
  else freshBinding i s

/-- The end of a DIFFERENT binding (R6): the identity memory is cleared, the slot enters READY and SWAP is set. -/
def swapped (i : Slot) (s : State) : State :=
  raiseSlot i .swap (setOcc i .ready (s.modSlot i fun r => { r with identity := none }))

/-- The attach deadline has expired (R7). -/
def attachFailed (i : Slot) (s : State) : State × List Tell :=
  let r := s.slot i
  if r.run.isSome then (s, [.noAttach i])
  else
    match r.occ with
    | .binWait => (s, [.powerOff i])
    | .shipping => (s, [.shipFail i .noAttach])
    | _ => if r.result.isSome then (s, [.powerOff i, .hold i]) else (s, [.grade i .attachFail])

/-- Re-examine a HELD slot (R16). -/
def reexamine (i : Slot) (s : State) : State × List Tell :=
  if (s.slot i).occ = .held ∧ heldCause s i = false then (s, [.requestPower i .supervisor]) else (s, [])

/-- The slot is released to the operator: REMOVE_READY with the latch energized (R18 to R20). -/
def unlocked (i : Slot) (s : State) : State := unlockLatch i (setOcc i .removeReady s)

/-- The result of a slot that is pulled (R20, step 1). -/
def pullResult (i : Slot) (s : State) : State × List Tell :=
  let r := s.slot i
  if r.run.isSome then (s, [.hardStop i .pulled])
  else if r.result.isNone then (s, [.grade i .pulled])
  else if inTote r.occ then (s, [.leaveTote i])
  else (modResult i (fun res => { res with bin := none, shipped := false }) s, [])

/-- SLOT_UNLOCK by occupancy (R19, R20); in EMPTY it is refused and does not come here. -/
def unlock (i : Slot) (s : State) : State × List Tell :=
  match (s.slot i).occ with
  | .empty => (s, [])
  | .removeReady => (unlockLatch i s, [])
  | .held => (s, [.powerOff i, .hardStop i .pulled, .unlocked i])
  | .powerWait => (s, [.powerOff i, .hardStop i .pulled, .unlocked i])
  | _ =>
    let (s, tells) := pullResult i s
    (s, tells ++ [.powerOff i, .unlocked i])

/-- Place a slot of a disabled shelf (R17). -/
def placeDisabled (i : Slot) (s : State) : State :=
  if heldByDisable (s.slot i).occ then setOcc i .held s else s

/-- Re-admit a slot at its shelf's enable (R17, R46). -/
def shelfEnabled (i : Slot) (s : State) : List Tell :=
  if (s.slot i).occ = .shipping ∧ (s.slot i).adm = .off then [.requestPower i .supervisor] else [.reexamine i]

/-- Place a slot whose run SHELF_RESTART has discarded (R131, step 5). -/
def placeRestarted (i : Slot) (s : State) : State × List Tell :=
  match (s.slot i).adm with
  | .bound => ((setOcc i .ready s).modSlot i fun r => { r with ladder := 0 }, [])
  | .booting => (setOcc i .booting s, [])
  | .attaching => (setOcc i .attaching s, [])
  | .queued => (setOcc i .powerWait s, [])
  | .off =>
    if (s.slot i).occ = .held then (s, [])
    else if heldCause s i then (setOcc i .held s, [])
    else (s, [.requestPower i .supervisor])

/-- SHELF_RESTART for one slot, up to its placing (R131, steps 1 to 4). -/
def restartSlot (i : Slot) (s : State) : State :=
  if (s.slot i).run.isNone then s
  else
    let s := (dropRun i s).modSlot i fun r => { r with identity := none }
    let s := renounce i .stopTest (renounce i .startTest s)
    emptySegment i (spinDown i s)

/-! ## The recovery ladder (R62 to R67) -/

/-- Stage 1: a reset pulse (R64). -/
def ladderPulse (i : Slot) (s : State) : State × List Tell :=
  let occ := (s.slot i).occ
  let s := spinDown i s
  let s := s.modSlot i fun r =>
    { r with pulseTimer := s.after 200, adm := .booting, ladderInReady := r.ladderInReady || decide (occ = .ready) }
  let s := if occ = .ready ∨ occ = .testing then setOcc i .booting s else s
  let (s, tells) := discardDrive i s
  (s, tells ++ (if occ = .testing then [.interrupted i .recovery] else []) ++
    (if occ = .shipping then [.shipFail i .resetPulse] else []))

/-- Stage 2: a power cycle (R66). -/
def ladderCycle (i : Slot) (s : State) : State × List Tell :=
  let occ := (s.slot i).occ
  (s.modSlot i fun r => { r with ladderInReady := r.ladderInReady || decide (occ = .ready) },
    [.powerOff i] ++ (if occ = .testing then [.interrupted i .recovery] else []) ++
      (if occ = .shipping then [.shipFail i .ladderOff] else []) ++ [.requestPower i .ladder])

/-- Stage 3: the drive is given up (R67). Run in READY, it is not counted among the stages whose return to READY keeps the
ladder stage (R63; log 48). -/
def ladderSilent (i : Slot) (s : State) : State × List Tell :=
  let occ := (s.slot i).occ
  (raiseSlot i .unresponsive (s.modSlot i fun r => { r with silent := true, pollTimer := none }),
    (if occ = .testing then [.waitStop i .noResponse (failVerdict .noResponse)] else []) ++
      (if occ = .shipping then [.shipFail i .noResponse] else []))

/-- The slot has become unresponsive: UNRESPONSIVE is set and the next stage is run (R62, R63; log 20). -/
def unresponsive (i : Slot) (s : State) : State × List Tell :=
  let stage := min 3 ((s.slot i).ladder + 1)
  let s := raiseSlot i .unresponsive (s.modSlot i fun r => { r with ladder := stage })
  if stage = 1 then ladderPulse i s else if stage = 2 then ladderCycle i s else ladderSilent i s

end Sys2Proof.Machine
end

