-- ==== Sys2Proof/Machine/Cascade.lean ====
section
/-! DEFINITION. How one event is carried out: each tell goes to the block it names, and the tells it leads to are taken
before those that follow it (log 7). -/

namespace Sys2Proof.Machine

/-- A POLL has ended DONE (R60): the fields go to the drive part and the poll record, the Power Manager, the Dose Unit,
the Plan Runner and the Attention Unit. -/
def pollDone (i : Slot) (test : TestState) (motor : Motor) (temperature progress : Nat) (inService : Bool) (s : State) :
    State × List Tell :=
  let s := (s.modDrive i fun d => { d with motor := motor }).modSlot i fun r =>
    { r with poll := some { test := test, progress := progress, inService := inService, moment := s.now } }
  let (s, motorTells) := motorReport i motor (storeTemperature i temperature s)
  let (s, testTells) := pollTestState i test s
  let (s, attnTells) := pollInService i inService s
  (s, motorTells ++ testTells ++ attnTells)

/-- The Bus Controller takes the outcome of a POLL (R56, R60). -/
def pollAnswered (it : Item) (answer : Answer) (s : State) : State × List Tell :=
  match it.slot, answer with
  | some i, .done (.status test motor temperature progress inService) =>
    pollDone i test motor temperature progress inService s
  | _, _ => (s, [])

/-- The owner of an item is told its outcome (R56). -/
def answerOwner (it : Item) (answer : Answer) (s : State) : State × List Tell :=
  match it.owner with
  | .attachUnit => attachAnswered it.shelf it.cmd answer s
  | .attentionUnit => attentionAnswered it answer s
  | .planRunner => planAnswered it answer s
  | .shipUnit => shipAnswered it answer s
  | .busController => pollAnswered it answer s

/-- Carry out one tell. -/
def act (t : Tell) (s : State) : State × List Tell :=
  match t with
  | .answered it answer => answerOwner it answer s
  | .counted i answer ship => countMissed i answer ship s
  | .unresponsive i => unresponsive i s
  | .requery k => (requery k s, [])
  | .wireFree k => (wireFree k s, [])
  | .examine k => (examine k s, [])
  | .requestPower i by_ => (requestPower i by_ s, [])
  | .requestSpin i => requestSpin i s
  | .spinDown i => (spinDown i s, [])
  | .powerOff i => powerOff i s
  | .switchedOff i => switchedOff i s
  | .shedDone k => (shedDone k s, [])
  | .spinReady i => spinReady i s
  | .spinFailed i => spinFailed i s
  | .interrupted i reason => interrupted i reason s
  | .noAttach i => takeNoAttach i s
  | .attachFailed i => attachFailed i s
  | .bound i cmp => bound i cmp s
  | .roundOver k => (roundOver k s, [])
  | .startRun i p => startRun i p s
  | .enterPhase i => enterPhase i s
  | .phaseBound i => phaseBound i s
  | .endCause i v byDrive => endCause i v byDrive s
  | .phaseEnded i => phaseEnded i s
  | .waitStop i reason v => waitStop i reason v s
  | .hardStop i reason => hardStop i reason s
  | .wallTest i => wallTest i s
  | .cycleDown i => cycleDown i s
  | .cycleOff i => cycleOff i s
  | .cycleDone i => cycleDone i s
  | .grade i reason => grade i reason s
  | .enterBinWait i => enterBinWait i s
  | .tryReserve i => tryReserve i s
  | .reserved i => reserved i s
  | .examineHold b => examineHold b s
  | .shipBound i => shipBound i s
  | .shipWrite i => shipWrite i s
  | .shipNext i => shipNext i s
  | .shipFail i cause => shipFail i cause s
  | .divert i cause => divert i cause s
  | .shipPowerOff i shipped => shipPowerOff i shipped s
  | .shipComplete i shipped => shipComplete i shipped s
  | .leaveTote i => leaveTote i s
  | .reexamine i => reexamine i s
  | .lost i => (lost i s, [])
  | .unlocked i => (unlocked i s, [])
  | .swapped i => (swapped i s, [])
  | .hold i => (setOcc i .held s, [])
  | .placeDisabled i => (placeDisabled i s, [])
  | .placeRestarted i => placeRestarted i s
  | .submitTestReset k => (submitReset k s, [])
  | .clearRecord i => clearRecord i s

/-- Carry out a list of tells, at most so many; absent if more are needed (log 7). -/
def carryOut : Nat → List Tell → State → Option State
  | _, [], s => some s
  | 0, _ :: _, _ => none
  | n + 1, t :: rest, s => carryOut n ((act t s).2 ++ rest) (act t s).1

end Sys2Proof.Machine
end

