-- ==== Sys2Proof/Machine/Replies.lean ====
section
/-! DEFINITION. The bytes of reply fields (R206, R208): each field that a reply's rule lists, in the order listed, an
enumerated value by its position, yes and no as 1 and 0, a stop reason by the list of R178, a set as a bit set. The size of
a number, which no rule gives for replies, is the fewest bytes that hold its range, and what else the manual leaves open is
a free value of bounded length (log 15). -/

namespace Sys2Proof.Machine

/-- A field of a reply: a number of a size, or one whose coding is open. -/
inductive ReplyField where
  | num (size value : Nat)
  | free (field : OpenField)
  deriving DecidableEq, Repr

/-- The most bytes an open field takes: what leaves every reply within its frame (R210; log 15). -/
def OpenField.room : OpenField → Nat
  | .part _ => 1
  | .entries _ => 1
  | .pollAge _ => 4
  | .items _ => 64

/-- The bytes of a field. -/
def ReplyField.bytes : ReplyField → List Byte
  | .num size value => bytesOf size value
  | .free x => (Config.openBytes x).take x.room

/-- An enumerated field: its value's position in the list where it is specified (R206). -/
def byPosition {α : Type} [DecidableEq α] (l : List α) (a : α) : ReplyField := .num 1 (l.idxOf a)

/-- A field whose values are yes and no, or on and off (R206). -/
def yesNo (b : Bool) : ReplyField := .num 1 (if b then 1 else 0)

/-- A mark whose two values are set and clear, in that order (R148, R206). -/
def markField (b : Bool) : ReplyField := byPosition [true, false] b

/-- A stop reason (R178). -/
def stopField (r : StopReason) : ReplyField := .num 1 (stopCode r)

/-- A part that may be absent: its fields are sent while it is present (R210). A field whose value is NONE is told so as
well, as an absent part (log 15). -/
def optional {α : Type} (a : Option α) (f : α → List ReplyField) : List ReplyField :=
  match a with
  | none => [.free (.part false)]
  | some a => .free (.part true) :: f a

/-- A list of entries. -/
def listed {α : Type} (l : List α) (f : α → List ReplyField) : List ReplyField :=
  .free (.entries l.length) :: l.flatMap f

/-! ## Shelves and bins (R27, R90, R189) -/

/-- An entry of a node map with its slot or its count (R90). An entry without a slot has no slot byte, and a STRANDED one
gives its count (log 15). -/
def nodeFields : NodeEntry → List ReplyField
  | .free => [.num 1 0]
  | .candidate => [.num 1 1]
  | .binding i => [.num 1 2, .num 1 i.val]
  | .bound i => [.num 1 3, .num 1 i.val]
  | .stranded c => [.num 1 4, .num 1 c]

/-- An entry of a wait queue (R27). -/
def queueFields (e : Slot × EntryKind) : List ReplyField := [.num 1 e.1.val, byPosition [.power, .spin] e.2]

/-- A shelf (R27, R90). -/
def shelfFields (r : ShelfReport) : List ReplyField :=
  [yesNo r.enabled, .num 2 r.limit, .num 1 r.idleDraw, .num 1 r.runDraw, .num 1 r.inrushDraw, .num 1 r.spinWindow,
    .num 1 r.bootDelay, byPosition [.good, .derated, .failed] r.supply, .num 2 r.currentLimit, .num 2 r.committed,
    yesNo r.lineA, yesNo r.lineB] ++
    listed r.queue queueFields ++ r.nodes.toList.flatMap nodeFields

/-! ## Section 0 of SLOT_READ (R210) -/

/-- The pattern of an indicator (R1). -/
def patternField (p : Pattern) : ReplyField := byPosition [.off, .on, .slow, .fast] p

/-- An identity (R2). -/
def identityFields (d : Identity) : List ReplyField := [.num 6 d.serial.toNat, .num 1 d.model.toNat]

/-- The drive part (R2). -/
def driveFields (d : DrivePart) : List ReplyField :=
  identityFields d.ident ++
    [.num 1 (nodeNumber d.node), .num 6 d.maxLba, .num 1 d.heads, byPosition [.stopped, .spinningUp, .ready] d.motor,
      .num 1 d.missed]

/-- The poll record (R60). -/
def pollFields (p : TestState × Nat × Bool × Nat) : List ReplyField :=
  [byPosition [.idle, .running, .done, .fault] p.1, .num 1 p.2.1, yesNo p.2.2.1, .free (.pollAge p.2.2.2)]

/-- The fetch progress of an attention record (R95); the last remaining count is absent for NONE (log 15). -/
def fetchFields (f : FetchProgress) : List ReplyField :=
  [.num 2 f.received] ++ optional f.remaining (fun n => [.num 1 n]) ++ [.num 1 f.empties, yesNo f.finished]

/-- The disposition (R95): a vector action is told as a present part with its position in R101, the fixed handling, for which
no rule gives a code, as an absent one (log 15). -/
def dispositionFields (d : Disposition) : List ReplyField :=
  match d with
  | .fixed => optional (none : Option VectorAction) fun _ => []
  | .vector a =>
    optional (some a) fun a => [byPosition [.notifyHold, .notifyClear, .stopPhase, .abortPlan, .ignore] a]

/-- The attention record (R95); the capture phase index is absent for NONE (log 15). -/
def attnFields (a : AttnRecord) : List ReplyField :=
  [.num 1 a.code.toNat, .num 1 a.detail.toNat] ++ optional a.phase (fun n => [.num 1 n]) ++
    [byPosition [.current, .ended, .none] a.run] ++ dispositionFields a.disposition ++
    [byPosition [.part, .host] a.stage, byPosition [false, true] a.clearPending] ++ optional a.fetch fetchFields

/-- The last-attention summary (R95); the capture phase index is absent for NONE (log 15). -/
def summaryFields (m : AttnSummary) : List ReplyField :=
  [.num 1 m.code.toNat, .num 1 m.detail.toNat] ++ optional m.phase (fun n => [.num 1 n]) ++
    [byPosition [.taken, .stale, .held, .acked, .discarded] m.outcome]

/-- The core fields of a slot, in the order of R1; PRESENT stands before ABSENT there, and ACTIVE before INACTIVE. The armed
plan is absent for NONE (log 15). -/
def slotFields (r : CoreReport) : List ReplyField :=
  [byPosition [.empty, .held, .powerWait, .booting, .attaching, .ready, .testing, .binWait, .shipping, .removeReady] r.occ,
    byPosition [.off, .queued, .booting, .attaching, .bound] r.adm, byPosition [true, false] r.present,
    byPosition [true, false] r.active, yesNo r.enabled] ++
    optional r.armed (fun p => [.num 1 p.val]) ++
    [yesNo r.autostart, byPosition [.off, .idle, .inrush, .run] r.cls, byPosition [false, true] r.unlocked,
      .num 1 r.unlockLeft, .num 1 r.locateLeft, patternField r.green, patternField r.amber]

/-- Section 0. -/
def coreFields (r : CoreReport) : List ReplyField :=
  slotFields r ++ optional r.drive driveFields ++ optional r.identity identityFields ++ optional r.poll pollFields ++
    optional (r.drive.map DrivePart.missed) (fun n => [.num 1 n]) ++ [.num 1 r.ladder, yesNo r.silent] ++
    [yesNo r.temperature.isSome] ++
    (match r.temperature with
      | some x => [.num 2 x.1, .num 2 x.2]
      | none => []) ++
    optional r.attn attnFields ++ optional r.summary summaryFields

/-! ## Section 1 of SLOT_READ (R115, R116, R210) -/

/-- A verdict's outcome and reason. The outcome is told by its position in R116's "PASS, FAIL, SKIPPED or ABORTED". R116
lists the reasons only by outcome: they are numbered through that table row by row but for SKIPPED's, with NONE once as 0
(log 15). -/
def verdictFields (v : Verdict) : List ReplyField :=
  [byPosition [.pass, .fail, .skipped, .aborted] v.outcome,
    byPosition [.none, .drive, .timeout, .excursion, .thermal, .vector, .trip, .spin, .noAttach, .interrupted, .earlyStop,
      .driveFault, .noResponse, .hostAbort, .pulled, .lost, .swap] v.reason]

/-- An entry of the outcome list (R116); the codes of its outcome and reason are the model's (log 15). -/
def outcomeFields : OutcomeEntry → List ReplyField
  | .pending => [.free (.part false)]
  | .ended v wall dose => .free (.part true) :: verdictFields v ++ [.num 1 v.detail, .num 3 wall, .num 3 dose]

/-- The suspension reasons as a bit set (R115, R206). -/
def reasonSet (shed recovery : Bool) : Nat := (if shed then 1 else 0) + (if recovery then 2 else 0)

/-- The run record, in the order of R115. -/
def runFields (r : Run) : List ReplyField :=
  [.num 1 r.plan.val, .num 2 r.planId, .num 1 r.phase,
    byPosition [.pending, .starting, .running, .stopping, .suspended, .ended] r.state] ++
    optional r.decided verdictFields ++
    [.num 3 r.wall, .num 4 r.dose, .num 3 r.runDose, .num 4 r.oobPhase, .num 4 r.oobRun, .num 2 r.excursion,
      .num 4 r.stale, .num 1 r.interruptions] ++
    optional r.cycleStep (fun c => [byPosition [.spinDown, .offTime, .awaitPower, .attach, .spin, .onTime] c]) ++
    [.num 1 r.cyclesDone, .num 1 (reasonSet r.suspShed r.suspRecovery)] ++ listed r.outcomes outcomeFields ++
    [.num 2 r.trips, yesNo r.incomplete] ++ optional r.stop (fun x => [stopField x])

/-! ## Section 2 of SLOT_READ (R178, R179, R191, R210) -/

/-- The grade inputs, in the order of R179. -/
def inputFields (g : GradeInputs) : List ReplyField :=
  [yesNo g.attachOk, stopField g.stop, .num 1 g.failedPhases, .num 8 g.worstHead, .num 8 g.totalSectors,
    .num 8 g.grownSectors, .num 4 g.reports, .num 2 g.trips, yesNo g.incomplete, .num 4 g.oobSeconds, .num 3 g.runDose]

/-- The first-grown capture (R158). -/
def captureFields (c : Capture) : List ReplyField := [.num 1 c.head, .num 6 c.start, .num 2 c.length, .num 1 c.phase]

/-- A bin, absent for NONE (log 15). -/
def binField (b : Option BinIx) : List ReplyField := optional b fun b => [.num 1 b.val]

/-- The result part, in the order of R178. -/
def resultFields (r : Result) : List ReplyField :=
  inputFields r.inputs ++ binField r.bin ++ [.num 1 r.ruleIndex, stopField r.inputs.stop, .num 2 r.planId] ++
    optional r.firstGrown captureFields ++ [yesNo r.shipped]

/-- The ship record, in the order of R191. -/
def shipFields (r : ShipRec) : List ReplyField :=
  [byPosition [.full, .rework, .noDrive] r.path,
    byPosition [.waitBind, .write, .read, .stamp, .park, .powerOff] r.step, .num 1 r.position, .free (.items r.selected),
    .num 1 r.failures]

/-- Section 2. The diverted mark is present or absent. -/
def gradeFields (result : Option Result) (reservation : Option BinIx) (holdPlace : Option Nat) (ship : Option ShipRec)
    (diverted : Bool) : List ReplyField :=
  optional result resultFields ++ binField reservation ++ optional holdPlace (fun n => [.num 1 n]) ++
    optional ship shipFields ++ [.free (.part diverted)]

/-! ## Segments, heads and consoles (R162, R163, R170) -/

/-- A stored entry (R149, R162). A length of 2^48 sectors needs seven bytes. -/
def entryFields (e : DefectEntry) : List ReplyField :=
  [.num 1 e.head, byPosition [.realloc, .pending, .servo, .ta] e.cls, byPosition [.baseline, .final, .other] e.origin,
    .num 1 e.phase, .num 6 e.start, .num 7 e.length]

/-- The counters of a head (R148, R163). -/
def headFields (c : HeadCount) : List ReplyField := [.num 4 c.reports, .num 8 c.sectors, .num 8 c.grown]

/-- The bytes of a console ring and its counts (R170). -/
def consoleFields (bytes : List Byte) (received framingErrors held : Nat) (rate : ConsoleRate) (matching : Bool)
    (progress : Vector Nat 4) : List ReplyField :=
  listed bytes (fun b => [.num 1 b.toNat]) ++
    [.num 4 received, .num 2 framingErrors, .num 2 held, byPosition [.r9600, .r38400, .r115200, .r921600] rate,
      yesNo matching] ++ progress.toList.map (.num 1)

/-! ## The reply as a whole -/

/-- A flag set or an enable set: four bytes (R211). -/
def setField (set : BitVec 32) : ReplyField := .num 4 set.toNat

/-- The fields of a reply in their order. -/
def bodyFields : ReplyBody → List ReplyField
  | .none => []
  | .identify device fast wakeLoaded => [.num 1 device, yesNo fast, yesNo wakeLoaded]
  | .shelf report => shelfFields report
  | .bin capacity fill reserved hold =>
    [.num 1 capacity, .num 1 fill, .num 1 reserved] ++ listed hold fun i => [.num 1 i.val]
  | .core report => coreFields report
  | .run run => optional run runFields
  | .result result reservation holdPlace ship diverted => gradeFields result reservation holdPlace ship diverted
  | .defects base limit count revision overflow entries =>
    [.num 2 base, .num 2 limit, .num 2 count, .num 2 revision, markField overflow] ++ listed entries entryFields
  | .heads counters fullDrops overflow early firstGrown =>
    counters.flatMap headFields ++ [.num 2 fullDrops, markField overflow, markField early] ++ optional firstGrown captureFields
  | .console bytes received framingErrors held rate matching progress =>
    consoleFields bytes received framingErrors held rate matching progress
  | .scope flags enables pending => [setField flags, setField enables, yesNo pending]
  | .allFlags sets => sets.map setField
  | .flagSet set => [setField set]

/-- The bytes of a reply's fields. -/
def bodyBytes (body : ReplyBody) : List Byte := (bodyFields body).flatMap ReplyField.bytes

end Sys2Proof.Machine
end

