-- ==== Sys2Proof/Machine/Link.lean ====
section
/-! DEFINITION. The Link Unit (chapter 11): the receiver, the placing of an arriving request, the transmitter's choice,
the service of a request with its reply, and how every command's handling ends. -/

namespace Sys2Proof.Machine

/-- What a command answers. -/
abbrev Out := Host.Outcome State Fault Refusal

/-! ## The transmitter (R207, R217) -/

/-- The notice of a scope as it is taken (R217). -/
def noticeFrame (s : State) (c : Scope) : TxFrame := .notice c s.sequence s.flags[c]

/-- While nothing is being sent, the transmitter takes the STARTUP notice, else the oldest reply, else the notice pending
longest (R207). -/
def startTx (s : State) : State :=
  if s.tx.isSome then s
  else if s.startupSent = false then { s with tx := some (.startup s.sequence s.fastLink) }
  else
    match s.replies, s.notices with
    | f :: rest, _ => { s with replies := rest, tx := some f }
    | [], c :: rest => { s with notices := rest, tx := some (noticeFrame s c) }
    | [], [] => s

/-- How a command's handling ends: its tells are carried out, and a frame that has become ready is taken by an idle
transmitter. -/
def conclude (x : State × List Tell) : Out :=
  match carryOut Config.tellBound x.2 x.1 with
  | some s => .next (startTx s)
  | none => .fault .cascade

/-! ## Arrival (R204) -/

/-- Place an arriving request (R204). -/
def arrive (kind tag : Byte) (payload : List Byte) (s : State) : State :=
  if s.requests.length < 4 then
    { s with requests := s.requests ++ [{ kind := kind, tag := tag, payload := payload, served := false }] }
  else if s.busyList.length < 4 then
    { s with busyList := s.busyList ++ [(kind, tag)], replies := s.replies ++ [.busyReply kind tag] }
  else raiseController .linkError s

/-! ## The receiver (R203) -/

/-- The receiver's states (R203). -/
inductive RxState where
  | hunt | length | kind | tag | payload | check
  deriving DecidableEq, Repr

/-- The receiver's state, by the bytes it holds (log 38). -/
def rxStateOf (held : List Byte) : RxState :=
  match held with
  | [] => .hunt
  | [_] => .length
  | [_, _] => .kind
  | [_, _, _] => .tag
  | _ :: n :: _ => if held.length < 4 + n.toNat then .payload else .check

/-- The bytes a frame's check covers: length, kind, tag and payload (R201). -/
def covered (frame : List Byte) : List Byte := (frame.drop 1).take (3 + field8 frame 1)

/-- Whether a complete frame's check is right (R201). -/
def checkOk (frame : List Byte) : Bool :=
  decide ((crc16 (covered frame)).toNat = field16 frame (4 + field8 frame 1))

/-- Abandon the frame in assembly: LINK_ERROR is set and the held bytes are discarded (R203). -/
def abandon (s : State) : State := raiseController .linkError { s with held := [] }

/-- Take one byte (R203). The second part is what must be re-examined after a failed check. -/
def takeByte (b : Byte) (s : State) : State × List Byte :=
  match s.held with
  | [] => (if b = 0xA5#8 then { s with held := [b] } else s, [])
  | [_] => (if b.toNat ≤ 250 then { s with held := s.held ++ [b] } else abandon s, [])
  | _ =>
    let frame := s.held ++ [b]
    if frame.length < 6 + field8 frame 1 then ({ s with held := frame }, [])
    else if checkOk frame then
      (arrive (byteAt frame 2) (byteAt frame 3) ((frame.drop 4).take (field8 frame 1)) { s with held := [] }, [])
    else (abandon s, frame.drop 1)

/-- Take bytes in order, those to be re-examined before the ones that follow, at most so many (R203). -/
def takeBytes : Nat → List Byte → State → State
  | 0, _, s => s
  | _ + 1, [], s => s
  | n + 1, b :: rest, s => takeBytes n ((takeByte b s).2 ++ rest) (takeByte b s).1

/-- A byte is received (R203). -/
def receiveByte (b : Byte) (s : State) : State := takeBytes 65536 [b] { s with lastHostByte := s.now }

/-- A byte with a framing error (R203): in HUNT it is discarded, else the frame is abandoned. -/
def receiveBroken (s : State) : State :=
  let s := { s with lastHostByte := s.now }
  if s.held.isEmpty then s else abandon s

/-! ## Requests and replies (R205, R206) -/

/-- What an owner makes of a request: a refusal with a status, or a change of state with what it leads to and the reply
fields formed once that is done. -/
inductive Handled where
  | refuse (status : Status)
  | take (s : State) (tells : List Tell) (body : State → ReplyBody)

/-- A request that is answered OK with no fields. -/
def Handled.ok (s : State) (tells : List Tell) : Handled := .take s tells fun _ => .none

/-- A request that reads state and changes none. -/
def Handled.read (s : State) (body : ReplyBody) : Handled := .take s [] fun _ => body

/-- The oldest request not yet served (R205). -/
def oldestUnserved (l : List Request) : Option Request := l.find? fun q => !q.served

/-- Mark the oldest request not yet served as served. -/
def markServed : List Request → List Request
  | [] => []
  | q :: rest => if q.served then q :: markServed rest else { q with served := true } :: rest

/-- The reply joins the reply order (R205, R207). -/
def addReply (f : TxFrame) (s : State) : State := { s with replies := s.replies ++ [f] }

/-- The handling of the request being served, with its reply (R205, R206). A request refused changes nothing. -/
def answerRequest (kind tag : Byte) (h : State → Handled) (s : State) : Out :=
  match h s with
  | .refuse status => .next (startTx (addReply (.reply kind tag status .none) s))
  | .take s' tells body =>
    match carryOut Config.tellBound tells s' with
    | some t => .next (startTx (addReply (.reply kind tag .ok (body t)) t))
    | none => .fault .cascade

/-- Serve a request (R205; log 4). If requests wait, it must be the oldest not yet served; if none waits, it arrives by
R204 and, unless the queue is full, is served at once. -/
def serve (kind tag : Byte) (payload : List Byte) (h : State → Handled) (s : State) : Out :=
  match oldestUnserved s.requests with
  | some q =>
    if q.kind = kind ∧ q.tag = tag ∧ q.payload = payload then
      answerRequest kind tag h { s with requests := markServed s.requests }
    else .next s
  | none =>
    if s.requests.length < 4 then
      let q : Request := { kind := kind, tag := tag, payload := payload, served := true }
      answerRequest kind tag h { s with requests := s.requests ++ [q] }
    else .next (startTx (arrive kind tag payload s))

/-- The fixed length test (R206, step 2). -/
def withLength (n : Nat) (payload : List Byte) (h : Handled) : Handled :=
  if payload.length = n then h else .refuse .badLength

/-- The tests that a field names a slot, a shelf, a bin or a plan (R209). -/
def withSlot (n : Nat) (h : Slot → Handled) : Handled :=
  match slotOf n with
  | some i => h i
  | none => .refuse .badValue
def withShelf (n : Nat) (h : Shelf → Handled) : Handled :=
  match shelfOfNat n with
  | some k => h k
  | none => .refuse .badValue
def withBin (n : Nat) (h : BinIx → Handled) : Handled :=
  match binOf n with
  | some b => h b
  | none => .refuse .badValue
def withPlan (n : Nat) (h : PlanIx → Handled) : Handled :=
  match planOfNat n with
  | some p => h p
  | none => .refuse .badValue

/-! ## The frame on the wire (R201, R206, R217, R218) -/

/-- The kind byte of a reply (R206). -/
def replyKind (kind : Byte) : Byte := if kind.toNat < 128 then kind + 0x80#8 else 0xFF#8

/-- The kind, tag and payload of a frame (R206, R217, R218). -/
def frameParts : TxFrame → Byte × Byte × List Byte
  | .startup sequence fast =>
    (0x7F#8, 0, bytesOf 1 sequence ++ bytesOf 1 Config.deviceCode ++ bytesOf 1 (if fast then 1 else 0))
  | .notice c sequence flags => (0x7E#8, 0, bytesOf 1 c.val ++ bytesOf 1 sequence ++ bytesOf 4 flags.toNat)
  | .reply kind tag status body => (replyKind kind, tag, bytesOf 1 (statusCode status) ++ bodyBytes body)
  | .busyReply kind tag => (replyKind kind, tag, bytesOf 1 (statusCode .busy))

/-- The bytes of a frame as they are sent (R201). -/
def frameBytes (f : TxFrame) : List Byte :=
  let (kind, tag, payload) := frameParts f
  let body := bytesOf 1 payload.length ++ [kind, tag] ++ payload
  0xA5#8 :: body ++ bytesOf 2 (crc16 body).toNat

/-- A bit of the host link's line (R201). -/
inductive LineBit where
  | start
  | data (value : Bool)
  | stop
  deriving DecidableEq, Repr

/-- A byte as the bits it is sent as, in either direction (R201): one start bit, eight data bits with the least significant
first, no parity and one stop bit. -/
def lineBits (b : Byte) : List LineBit :=
  [.start] ++ (List.range 8).map (fun n => .data (b.getLsbD n)) ++ [.stop]

/-- The bits of a frame as they are sent (R201). -/
def frameBits (f : TxFrame) : List LineBit := (frameBytes f).flatMap lineBits

end Sys2Proof.Machine
end

