-- ==== Sys2Proof/Machine/BusCmds.lean ====
section
/-! DEFINITION. The commands of the factory bus and of the attention wire (chapter 03), and the close of the locate
window (chapter 04). -/

namespace Sys2Proof.Machine

/-- Put the data wire's stage. -/
def setPhase (k : Shelf) (p : BusPhase) (s : State) : State := s.modShelf k fun sh => { sh with phase := p }

/-- The level of the shelf's attention wire, as a command brings it (log 10). -/
def setWire (k : Shelf) (level : Bool) (s : State) : State := s.modShelf k fun sh => { sh with attnWire := level }

/-- A frame or its bit periods end, and the data wire is released: the quiet time counts from here (R50; log 32). -/
def releaseWire (k : Shelf) (s : State) : State := s.modShelf k fun sh => { sh with highSince := s.now }

/-- QUIET_TIME_MET (R50, R71): the waiting transaction goes on the wire, and an episode of the wire staying low ends. -/
def execQuietTimeMet (k : Shelf) (s : State) : Out :=
  match (s.shelf k).phase with
  | .waiting f =>
    if (s.shelf k).dataHigh then
      .next (s.modShelf k fun sh => { sh with phase := .sending f, stuckTimer := none, stuckTold := false })
    else .next s
  | _ => .next s

/-- The stage after a command frame of a kind that goes on (R50, R52). -/
def afterCommand (f : Flight) (now : Nat) : BusPhase :=
  match f.item.cmd.kind with
  | .contest => .contending f
  | .attnQuery => .nodeBits f
  | _ => .window f (now + 10)

/-- Whether a kind's transaction ends with its command frame (R50). -/
def endsWithCommand : BusKind → Bool
  | .wake => true
  | .testReset => true
  | _ => false

/-- COMMAND_FRAME_END (R50, R52). -/
def execCommandFrameEnd (k : Shelf) (s : State) : Out :=
  match (s.shelf k).phase with
  | .sending f =>
    let s := releaseWire k s
    if endsWithCommand f.item.cmd.kind then conclude (endTransaction k f (.done .ack) s)
    else .next (setPhase k (afterCommand f s.now) s)
  | _ => .next s

/-- CONTEST_END (R52). -/
def execContestEnd (k : Shelf) (v : BitVec 64) (s : State) : Out :=
  match (s.shelf k).phase with
  | .contending f => conclude (endTransaction k f (.done (.contest v)) (releaseWire k s))
  | _ => .next s

/-- The node that a four-bit value names, if it names one (R69). -/
def nodeOfBits (v : BitVec 4) : Option NodeIx :=
  if h : 1 ≤ v.toNat ∧ v.toNat ≤ 8 then some ⟨v.toNat - 1, by omega⟩ else none

/-- An ATTN_QUERY without a winner (R69): BUS_FAULT unless the bits read all ones with the wire released, and the hold-off
of 1 s if the wire is still asserted. -/
def noWinner (k : Shelf) (v : BitVec 4) (wire : Bool) (s : State) : State :=
  let s := if wire = true ∨ v ≠ BitVec.allOnes 4 then raiseShelf k .busFault s else s
  if wire then s.modShelf k fun sh => { sh with holdoff := s.after 1000 } else s

/-- The transaction in flight of an ATTN_QUERY that has chosen a node. -/
def chooseNode (n : NodeIx) (f : Flight) : Flight :=
  { f with node := some n, item := { f.item with cmd := .attnQuery (some n) } }

/-- ATTN_QUERY_NODE_READ (R69). -/
def execAttnQueryNodeRead (k : Shelf) (v : BitVec 4) (wire : Bool) (s : State) : Out :=
  match (s.shelf k).phase with
  | .nodeBits f =>
    let s := setWire k wire (releaseWire k s)
    match nodeOfBits v with
    | some n => .next (setPhase k (.window (chooseNode n f) (s.now + 10)) s)
    | none => conclude (endTransaction k f .noReply (noWinner k v wire s))
  | _ => .next s

/-- PROTOCOL for a reply with a field out of range (R50): the slot's, or the shelf's if no slot has a drive part at that
node. -/
def badReplyFlag (k : Shelf) (f : Flight) (s : State) : State :=
  match f.node.bind (slotOfNode s k) with
  | some i => raiseSlot i .protocol s
  | none => raiseShelf k .protocol s

/-- REPLY_FRAME_RECEIVED (R50): a complete frame ends the transaction; bytes that are none leave it to the window's close.
A field out of range sets PROTOCOL also where the transaction's outcome is DROPPED (R57; log 42). -/
def execReplyFrameReceived (k : Shelf) (frame : List Byte) (wire : Bool) (s : State) : Out :=
  match (s.shelf k).phase with
  | .window f _ =>
    let quiet := releaseWire k s
    let s := setWire k wire quiet
    match readBytes f.item.cmd.kind f.node frame with
    | .incomplete => .next quiet
    | .done fields => conclude (endTransaction k f (.done fields) s)
    | .badReply => conclude (endTransaction k f .badReply (badReplyFlag k f s))
    | .wrongSender => conclude (endTransaction k f .noReply (raiseShelf k .protocol s))
    | .noReply => conclude (endTransaction k f .noReply s)
  | _ => .next s

/-- REPLY_WINDOW_CLOSE (R50). -/
def execReplyWindowClose (k : Shelf) (wire : Bool) (s : State) : Out :=
  match (s.shelf k).phase with
  | .window f _ => conclude (endTransaction k f .noReply (setWire k wire s))
  | _ => .next s

/-- DATA_WIRE_LEVEL_CHANGE (R50, R71): a release starts the quiet time anew; a low level stops it, and starts the 50 ms
of the stuck wire while a transaction waits. -/
def execDataWireLevelChange (k : Shelf) (level : Bool) (s : State) : Out :=
  if (s.shelf k).dataHigh = level then .next s
  else
    .next (s.modShelf k fun sh =>
      if level then { sh with dataHigh := true, highSince := s.now, stuckTimer := none }
      else
        { sh with
          dataHigh := false
          stuckTold := sh.stuckTold && decide (s.now - sh.highSince < 1)
          stuckTimer :=
            match sh.phase with
            | .waiting _ => s.after 50
            | _ => none })

/-- BUS_WIRE_STUCK (R71): the wire has stayed low for 50 ms while a transaction waits; the flag is set once an episode. -/
def execBusWireStuck (k : Shelf) (s : State) : Out :=
  if (s.shelf k).stuckTimer.isNone then .next s
  else
    let told := (s.shelf k).stuckTold
    let s := s.modShelf k fun sh => { sh with stuckTimer := none, stuckTold := true }
    conclude (if told then s else raiseShelf k .busFault s, [])

/-- ATTENTION_WIRE_ASSERTED (R68). -/
def execAttentionWireAsserted (k : Shelf) (s : State) : Out := conclude (addQuery k (setWire k true s), [])

/-- ATTN_HOLDOFF_EXPIRY (R68, R69). -/
def execAttnHoldoffExpiry (k : Shelf) (wire : Bool) (s : State) : Out :=
  if (s.shelf k).holdoff.isNone then .next s
  else
    let s := setWire k wire (s.modShelf k fun sh => { sh with holdoff := none })
    conclude (if wire then addQuery k s else s, [])

/-- POLL_TIMER_EXPIRY (R58): the timer starts again, and a POLL is submitted unless one is pending or in flight. -/
def execPollTimerExpiry (i : Slot) (s : State) : Out :=
  if (s.slot i).pollTimer.isNone then .next s
  else
    let s := s.modSlot i fun r => { r with pollTimer := s.after (secs (s.shelf (shelfOf i)).pollSecs) }
    if pendingOrInFlight s i .poll then .next s else conclude (submit i .poll .busController s)

/-- LOCATE_WINDOW_CLOSE (R86). -/
def execLocateWindowClose (k : Shelf) (s : State) : Out :=
  match (s.shelf k).pass with
  | .round (.window n ident _ pulsing left) => conclude (closeWindow k n ident pulsing left s, [])
  | _ => .next s

end Sys2Proof.Machine
end

