-- ==== Sys2Proof/Machine/LinkCmds.lean ====
section
/-! DEFINITION. The commands of the host link (sections 11.1, 11.2) and RESET. -/

namespace Sys2Proof.Machine

/-- The record of a slot after reset with its input pins as they stand (log 9). -/
def keepSlotPins (old new : SlotRec) : SlotRec :=
  { new with presRaw := old.presRaw, actRaw := old.actRaw, con := { new.con with line := old.con.line } }

/-- The record of a shelf after reset with its input pins as they stand (log 9). -/
def keepShelfPins (old new : ShelfRec) : ShelfRec :=
  { new with rawA := old.rawA, rawB := old.rawB, attnWire := old.attnWire }

/-- The machine after a reset of the running part: its reset values, the levels of its input pins as they stand, the link
rate read from BAUDSEL (R202, R218), and the STARTUP notice being sent (log 36). -/
def resetOf (s : State) : State :=
  { State.reset with
    slots := Vector.zipWith keepSlotPins s.slots State.reset.slots
    shelves := Vector.zipWith keepShelfPins s.shelves State.reset.shelves
    tx := some (.startup 0 s.baudsel)
    fastLink := s.baudsel
    baudsel := s.baudsel
    pending := s.pending }

/-- RESET (R24). -/
def execReset (s : State) : Out := .next (resetOf s)

/-- HOST_FRAME_RECEIVED (R203): the byte that completes a frame is received. -/
def execHostFrameReceived (b : Byte) (s : State) : Out := conclude (receiveByte b s, [])

/-- HOST_BYTE_RECEIVED (R203). -/
def execHostByteReceived (b : Byte) (s : State) : Out := conclude (receiveByte b s, [])

/-- HOST_FRAME_ABANDONED (R203): a length byte above 250, or a byte with a framing error. -/
def execHostFrameAbandoned (b : Byte) (framing : Bool) (s : State) : Out :=
  conclude (if framing then receiveBroken s else receiveByte b s, [])

/-- HOST_BYTE_GAP_EXPIRY (R203): a frame in assembly is abandoned. -/
def execHostByteGapExpiry (s : State) : Out :=
  if s.held.isEmpty then .next s else conclude (abandon s, [])

/-- What the end of a frame changes before the next is chosen (R204, R207, R217). -/
def frameEnded (f : TxFrame) (s : State) : State :=
  match f with
  | .startup _ _ => { s with startupSent := true, sequence := (s.sequence + 1) % 256 }
  | .notice _ _ _ => { s with sequence := (s.sequence + 1) % 256 }
  | .reply _ _ _ _ => { s with requests := s.requests.drop 1 }
  | .busyReply _ _ => { s with busyList := s.busyList.drop 1 }

/-- TX_FRAME_END (R207). -/
def execTxFrameEnd (s : State) : Out :=
  match s.tx with
  | none => .next s
  | some f => .next (startTx (frameEnded f { s with tx := none }))

/-- Whether a kind stands in the request catalogue (R208). -/
def inCatalogue (kind : Byte) : Bool := decide (1 ≤ kind.toNat) && decide (kind.toNat ≤ 0x22)

/-- UNKNOWN_KIND (R206, R208): a request whose kind is not in the catalogue. -/
def execUnknownKind (kind tag : Byte) (payload : List Byte) (s : State) : Out :=
  if inCatalogue kind then .next s else serve kind tag payload (fun _ => .refuse .unknownKind) s

/-- What IDENTIFY returns (R209). -/
def handleIdentify (payload : List Byte) (s : State) : Handled :=
  withLength 0 payload (.read s (.identify Config.deviceCode s.fastLink (!s.wakePattern.isEmpty)))

/-- IDENTIFY (R209). -/
def execIdentify (tag : Byte) (payload : List Byte) (s : State) : Out := serve 0x01#8 tag payload (handleIdentify payload) s

/-- What EVENTS_READ returns (R214). -/
def handleEventsRead (p : List Byte) (s : State) : Handled :=
  withLength 1 p <|
    if field8 p 0 = 255 then .read s (.allFlags s.flags.toList)
    else
      match scopeOf (field8 p 0) with
      | some c => .read s (.scope s.flags[c] s.enables[c] (noticePending s c))
      | none => .refuse .badValue

/-- EVENTS_READ (R214). -/
def execEventsRead (tag : Byte) (payload : List Byte) (s : State) : Out := serve 0x20#8 tag payload (handleEventsRead payload) s

/-- A scope and a set of flags that exist in it (R215, R216). -/
def withFlagSet (p : List Byte) (h : Scope → BitVec 32 → Handled) : Handled :=
  match scopeOf (field8 p 0) with
  | some c =>
    let set := BitVec.ofNat 32 (field32 p 1)
    if set &&& ~~~(scopeMask c) = 0#32 then h c set else .refuse .badValue
  | none => .refuse .badValue

/-- EVENTS_CLEAR's effect (R215). -/
def handleEventsClear (p : List Byte) (s : State) : Handled :=
  withLength 5 p <| withFlagSet p fun c set => .take (clearFlags c set s) [] fun t => .flagSet t.flags[c]

/-- EVENTS_CLEAR (R215). -/
def execEventsClear (tag : Byte) (payload : List Byte) (s : State) : Out := serve 0x21#8 tag payload (handleEventsClear payload) s

/-- EVENTS_ENABLE's effect (R216). -/
def handleEventsEnable (p : List Byte) (s : State) : Handled :=
  withLength 5 p <| withFlagSet p fun c set => .take (setEnables c set s) [] fun t => .flagSet t.enables[c]

/-- EVENTS_ENABLE (R216). -/
def execEventsEnable (tag : Byte) (payload : List Byte) (s : State) : Out := serve 0x22#8 tag payload (handleEventsEnable payload) s

end Sys2Proof.Machine
end

