-- ==== Sys2Proof/Machine/PinCmds.lean ====
section
/-! DEFINITION. The commands of the slot and shelf lines, of the slots' timers, and of the console lines. A timer's
expiry acts while the timer runs (log 2); a command that does not apply changes nothing (log 3). -/

namespace Sys2Proof.Machine

/-- The stability timer of a debounced line after a change of its raw level (R11, R12, R28): started by a change away
from the debounced level, stopped by a return to it. -/
def debounce (debounced level : Bool) (timer : Option Nat) : Option Nat := if level = debounced then none else timer

/-! ## Presence and activity (R11, R12) -/

/-- PRESENCE_LINE_CHANGE (R11). -/
def execPresenceLineChange (i : Slot) (level : Bool) (s : State) : Out :=
  if (s.slot i).presRaw = level then .next s
  else .next (s.modSlot i fun r => { r with presRaw := level, presTimer := debounce r.present level (s.after 250) })

/-- The debounced presence takes the raw level: an insertion or a removal (R11, R13 to R15). -/
def presenceSettles (i : Slot) (s : State) : State × List Tell :=
  let r := s.slot i
  let s := s.modSlot i fun r => { r with presTimer := none, present := r.presRaw }
  if r.present = r.presRaw then (s, [])
  else if r.presRaw then (if r.occ = .empty then insertion i s else (s, []))
  else removal i s

/-- PRESENCE_DEBOUNCE_EXPIRY (R11). -/
def execPresenceDebounceExpiry (i : Slot) (s : State) : Out :=
  if (s.slot i).presTimer.isNone then .next s else conclude (presenceSettles i s)

/-- ACTIVITY_LINE_CHANGE (R12). -/
def execActivityLineChange (i : Slot) (level : Bool) (s : State) : Out :=
  if (s.slot i).actRaw = level then .next s
  else .next (s.modSlot i fun r => { r with actRaw := level, actTimer := debounce r.active level (s.after 5) })

/-- The debounced activity takes the raw level, and the edge is reported to the Attach Unit (R12). -/
def activitySettles (i : Slot) (s : State) : State :=
  let r := s.slot i
  let s := s.modSlot i fun r => { r with actTimer := none, active := r.actRaw }
  if r.active = r.actRaw then s else activityEdge i r.actRaw s

/-- ACTIVITY_DEBOUNCE_EXPIRY (R12). -/
def execActivityDebounceExpiry (i : Slot) (s : State) : Out :=
  if (s.slot i).actTimer.isNone then .next s else .next (activitySettles i s)

/-! ## Supply lines (R28) -/

/-- A supply line takes a raw level; its stability timer follows. -/
def supplyRaw (line : SupplyLine) (level : Bool) (timer : Option Nat) (sh : ShelfRec) : ShelfRec :=
  match line with
  | .ssa => if sh.rawA = level then sh else { sh with rawA := level, timerA := debounce sh.lineA level timer }
  | .ssb => if sh.rawB = level then sh else { sh with rawB := level, timerB := debounce sh.lineB level timer }

/-- SUPPLY_LINE_CHANGE (R28). -/
def execSupplyLineChange (k : Shelf) (line : SupplyLine) (level : Bool) (s : State) : Out :=
  .next (s.modShelf k (supplyRaw line level (s.after 50)))

/-- A supply line settles at its raw level. -/
def supplyLevel (line : SupplyLine) (sh : ShelfRec) : ShelfRec :=
  match line with
  | .ssa => { sh with lineA := sh.rawA, timerA := none }
  | .ssb => { sh with lineB := sh.rawB, timerB := none }

/-- The stability timer of a supply line. -/
def supplyTimer (line : SupplyLine) (sh : ShelfRec) : Option Nat :=
  match line with
  | .ssa => sh.timerA
  | .ssb => sh.timerB

/-- A supply line settles: the code is decoded, the flags are set and the new limit is handled (R28). -/
def supplySettles (k : Shelf) (line : SupplyLine) (s : State) : State × List Tell :=
  let old := s.shelf k
  let s := s.modShelf k (supplyLevel line)
  let new := s.shelf k
  let s := if (new.lineA && new.lineB) && !(old.lineA && old.lineB) then raiseShelf k .supplyIllegal s else s
  let s := if supplyStatus new = supplyStatus old then s else raiseShelf k .supplyChange s
  if currentLimit new = currentLimit old then (s, []) else limitChanged k s

/-- SUPPLY_DEBOUNCE_EXPIRY (R28). -/
def execSupplyDebounceExpiry (k : Shelf) (line : SupplyLine) (s : State) : Out :=
  if (supplyTimer line (s.shelf k)).isNone then .next s else conclude (supplySettles k line s)

/-! ## The slots' timers -/

/-- SPIN_WINDOW_EXPIRY (R39). -/
def execSpinWindowExpiry (i : Slot) (s : State) : Out :=
  if (s.slot i).spinTimer.isNone then .next s else conclude (windowExpired i (s.modSlot i fun r => { r with spinTimer := none }))

/-- The boot delay has run: the admission becomes ATTACHING and the slot joins the attaching set (R4, R5, R77). -/
def bootDone (i : Slot) (s : State) : State :=
  let s := s.modSlot i fun r => { r with bootTimer := none, adm := .attaching }
  joinSet i (if (s.slot i).occ = .booting then setOcc i .attaching s else s)

/-- BOOT_DELAY_EXPIRY (R4). -/
def execBootDelayExpiry (i : Slot) (s : State) : Out :=
  if (s.slot i).bootTimer.isNone then .next s else conclude (bootDone i s, [])

/-- ATTACH_DEADLINE_EXPIRY (R78): a deadline that runs reaches 0. -/
def execAttachDeadlineExpiry (i : Slot) (s : State) : Out :=
  match (s.slot i).deadline with
  | some (.running _) =>
    conclude (raiseSlot i .attachFailed (s.modSlot i fun r => { r with deadline := some .expired }), [.attachFailed i])
  | _ => .next s

/-- ATTACH_PAUSE_EXPIRY (R79). -/
def execAttachPauseExpiry (k : Shelf) (s : State) : Out :=
  match (s.shelf k).pass with
  | .paused _ _ => conclude (nextRound k s, [])
  | _ => .next s

/-- UNLOCK_HOLD_EXPIRY (R18). -/
def execUnlockHoldExpiry (i : Slot) (s : State) : Out :=
  if (s.slot i).unlockTimer.isNone then .next s else .next (lockLatch i s)

/-- LOCATE_OVERRIDE_EXPIRY (R23). -/
def execLocateOverrideExpiry (i : Slot) (s : State) : Out := .next (s.modSlot i fun r => { r with locateTimer := none })

/-- RESET_PULSE_END (R65): the line is deasserted and the boot delay starts. -/
def execResetPulseEnd (i : Slot) (s : State) : Out :=
  if (s.slot i).pulseTimer.isNone then .next s
  else
    .next (s.modSlot i fun r =>
      { r with pulseTimer := none, bootTimer := s.after (secs (s.shelf (shelfOf i)).bootDelay) })

/-! ## The console line (R166) -/

/-- CONSOLE_LINE_CHANGE (R166, R167). -/
def execConsoleLineChange (i : Slot) (level : Bool) (s : State) : Out :=
  .next (modCon i (fun c => { c with line := level, rx := rxAfter level (s.shelf (shelfOf i)).rate c.rx }) s)

/-- CONSOLE_BYTE_ARRIVAL (R166; log 29). -/
def execConsoleByteArrival (i : Slot) (b : Byte) (s : State) : Out :=
  if receiverActive (s.slot i).con.rx then conclude (byteArrived i b s, []) else .next s

/-- CONSOLE_FRAMING_ERROR (R166; log 29). -/
def execConsoleFramingError (i : Slot) (s : State) : Out :=
  if receiverActive (s.slot i).con.rx then .next (framingError i s) else .next s

/-- CONSOLE_START_GLITCH (R166; log 29). -/
def execConsoleStartGlitch (i : Slot) (s : State) : Out :=
  if receiverActive (s.slot i).con.rx then .next (modCon i (fun c => { c with rx := .watching, line := true }) s)
  else .next s

end Sys2Proof.Machine
end

