-- ==== Sys2Proof/Machine/RunCmds.lean ====
section
/-! DEFINITION. The commands of a run (chapters 05 to 07): the reports a Plan Runner takes, and its timers. -/

namespace Sys2Proof.Machine

/-- PHASE_DONE (R99). -/
def execPhaseDone (i : Slot) (phase : Nat) (s : State) : Out := conclude (takeReport i (.phaseDone phase) s)

/-- PHASE_FAILED (R99). -/
def execPhaseFailed (i : Slot) (phase : Nat) (reason : Byte) (s : State) : Out :=
  conclude (takeReport i (.phaseFailed phase reason) s)

/-- OVER_TEMP (R98, R119). -/
def execOverTemp (i : Slot) (s : State) : Out := conclude (takeReport i .overTemp s)

/-- DRIVE_FAULT (R98, R128). -/
def execDriveFault (i : Slot) (s : State) : Out := conclude (takeReport i .driveFault s)

/-- STOP_PHASE (R102, R119, R176). -/
def execStopPhase (i : Slot) (source : TripSource) (code : Byte) (s : State) : Out :=
  conclude (takeReport i (.stopPhase source code) s)

/-- ABORT_PLAN (R102, R128, R176). -/
def execAbortPlan (i : Slot) (source : TripSource) (code : Byte) (s : State) : Out :=
  conclude (takeReport i (.abortPlan source code) s)

/-- EARLY_STOP (R128, R159). -/
def execEarlyStop (i : Slot) (s : State) : Out := conclude (takeReport i .earlyStop s)

/-- PHASE_WALL_SECOND (R118, R139; log 39). -/
def execPhaseWallSecond (i : Slot) (s : State) : Out := conclude (wallSecond i s)

/-- WALL_TIME_REACHED (R118; log 39). -/
def execWallTimeReached (i : Slot) (s : State) : Out := conclude (wallTest i s)

/-- REST_EXPIRY (R122). -/
def execRestExpiry (i : Slot) (s : State) : Out :=
  match (s.slot i).run with
  | some run =>
    if run.restTimer.isSome then
      conclude (s.modRun i fun run => { run with restTimer := none }, [.endCause i passVerdict false])
    else .next s
  | none => .next s

/-- OFF_TIME_EXPIRY (R123): the POWER request is made. -/
def execOffTimeExpiry (i : Slot) (s : State) : Out :=
  match (s.slot i).run with
  | some run =>
    if run.offTimer.isSome then conclude (toStep i .awaitPower s, [.requestPower i .planRunner]) else .next s
  | none => .next s

/-- ON_TIME_EXPIRY (R123). -/
def execOnTimeExpiry (i : Slot) (s : State) : Out :=
  match (s.slot i).run with
  | some run =>
    if run.onTimer.isSome then
      conclude (s.modRun i fun run => { run with onTimer := none }, [.cycleDone i])
    else .next s
  | none => .next s

end Sys2Proof.Machine
end

