-- ==== Sys2Proof/Machine/ShelfCmds.lean ====
section
/-! DEFINITION. The requests that set and read a shelf, and the tables of the shelves' blocks: budget (chapter 02), bus
(chapter 03), console rate (chapter 09), wake pattern (chapter 04), vector table (chapter 05), SHELF_RESTART (R131). -/

namespace Sys2Proof.Machine

/-- Whether a value lies in a range. -/
def within (low high n : Nat) : Bool := decide (low ≤ n) && decide (n ≤ high)

/-- Whether the seven fields of SHELF_SET lie in their ranges and the draws are in order (R26). -/
def shelfFieldsOk (p : List Byte) : Bool :=
  within 0 1 (field8 p 1) && within 0 2000 (field16 p 2) && within 1 100 (field8 p 4) && within 1 100 (field8 p 5) &&
    within 1 100 (field8 p 6) && within 5 60 (field8 p 7) && within 1 30 (field8 p 8) &&
    decide (field8 p 4 ≤ field8 p 5) && decide (field8 p 5 ≤ field8 p 6)

/-- Replace the seven fields of a shelf (R26). -/
def replaceShelf (k : Shelf) (p : List Byte) (s : State) : State :=
  s.modShelf k fun sh =>
    { sh with
      enabled := decide (field8 p 1 = 1)
      limit := field16 p 2
      idleDraw := field8 p 4
      runDraw := field8 p 5
      inrushDraw := field8 p 6
      spinWindow := field8 p 7
      bootDelay := field8 p 8 }

/-- SHELF_SET's five steps (R26): draws and limit with the record, then the enable, then the overrun, then the grants. -/
def handleShelfSet (p : List Byte) (s : State) : Handled :=
  withLength 9 p <| withShelf (field8 p 0) fun k =>
    if shelfFieldsOk p then
      let was := (s.shelf k).enabled
      let s := replaceShelf k p s
      let now := (s.shelf k).enabled
      if was && !now then
        let (s, tells) := disableShelf k s
        .ok s tells
      else if !was && now then
        .ok s ((slotsOf k).flatMap (fun i => shelfEnabled i s) ++ [.examine k])
      else
        let (s, tells) := shed k s
        .ok s (tells ++ [.examine k])
    else .refuse .badValue

/-- SHELF_SET (R26). -/
def execShelfSet (tag : Byte) (payload : List Byte) (s : State) : Out := serve 0x02#8 tag payload (handleShelfSet payload) s

/-- What SHELF_READ reports (R27, R90). -/
def shelfReport (s : State) (k : Shelf) : ShelfReport :=
  let sh := s.shelf k
  { enabled := sh.enabled, limit := sh.limit, idleDraw := sh.idleDraw, runDraw := sh.runDraw,
    inrushDraw := sh.inrushDraw, spinWindow := sh.spinWindow, bootDelay := sh.bootDelay, supply := supplyStatus sh,
    currentLimit := currentLimit sh, committed := committed s k, lineA := sh.lineA, lineB := sh.lineB,
    queue := sh.queue.map fun e => (e.slot, e.kind), nodes := sh.nodes }

/-- What SHELF_READ returns (R27). -/
def handleShelfRead (p : List Byte) (s : State) : Handled :=
  withLength 1 p <| withShelf (field8 p 0) fun k => .read s (.shelf (shelfReport s k))

/-- SHELF_READ (R27). -/
def execShelfRead (tag : Byte) (payload : List Byte) (s : State) : Out := serve 0x03#8 tag payload (handleShelfRead payload) s

/-- The slots of a shelf that hold a run part. -/
def runSlots (s : State) (k : Shelf) : List Slot := (slotsOf k).filter fun i => (s.slot i).run.isSome

/-- SHELF_RESTART's effect (R131): every slot with a run part is taken through steps 1 to 4, then every one is placed (step
5), each time in ascending slot order, and then TEST_RESET is submitted (the order among the slots is log 45). -/
def handleShelfRestart (p : List Byte) (s : State) : Handled :=
  withLength 1 p <| withShelf (field8 p 0) fun k =>
    let slots := runSlots s k
    .ok (slots.foldl (fun s i => restartSlot i s) s) (slots.map .placeRestarted ++ [.submitTestReset k])

/-- SHELF_RESTART (R131). -/
def execShelfRestart (tag : Byte) (payload : List Byte) (s : State) : Out :=
  serve 0x04#8 tag payload (handleShelfRestart payload) s

/-- Cut the poll timers of a shelf to the new interval (R59). -/
def cutTimer (limit : Nat) (t : Option Nat) : Option Nat := t.map fun m => min m limit

/-- BUS_SET's effect (R59). -/
def handleBusSet (p : List Byte) (s : State) : Handled :=
  withLength 2 p <| withShelf (field8 p 0) fun k =>
    if within 1 30 (field8 p 1) then
      let s := s.modShelf k fun sh => { sh with pollSecs := field8 p 1 }
      .ok ((slotsOf k).foldl (fun s i => s.modSlot i fun r =>
        { r with pollTimer := cutTimer (s.now + secs (field8 p 1)) r.pollTimer }) s) []
    else .refuse .badValue

/-- BUS_SET (R59). -/
def execBusSet (tag : Byte) (payload : List Byte) (s : State) : Out := serve 0x05#8 tag payload (handleBusSet payload) s

/-- CONSOLE_SET's effect (R167). -/
def handleConsoleSet (p : List Byte) (s : State) : Handled :=
  withLength 2 p <| withShelf (field8 p 0) fun k =>
    match consoleRateOf (field8 p 1) with
    | some rate => .ok (s.modShelf k fun sh => { sh with rate := rate }) []
    | none => .refuse .badValue

/-- CONSOLE_SET (R167). -/
def execConsoleSet (tag : Byte) (payload : List Byte) (s : State) : Out :=
  serve 0x06#8 tag payload (handleConsoleSet payload) s

/-- KEY_LOAD's effect (R75, R76, R206). -/
def handleKeyLoad (p : List Byte) (s : State) : Handled :=
  if p.length < 1 then .refuse .badLength
  else if 32 < field8 p 0 then .refuse .badValue
  else if p.length ≠ 1 + field8 p 0 then .refuse .badLength
  else .ok (allShelves.foldl (fun s k => keyLoaded k s) { s with wakePattern := p.drop 1 }) []

/-- KEY_LOAD (R75). -/
def execKeyLoad (tag : Byte) (payload : List Byte) (s : State) : Out := serve 0x07#8 tag payload (handleKeyLoad payload) s

/-- The vector table with the codes of a range set to an action (R101). -/
def setVectors (first last : Nat) (a : VectorAction) (v : Vector VectorAction 224) : Vector VectorAction 224 :=
  v.mapIdx fun n old => if first ≤ n + 32 ∧ n + 32 ≤ last then a else old

/-- VECTOR_SET's effect (R101). -/
def handleVectorSet (p : List Byte) (s : State) : Handled :=
  withLength 3 p <|
    if field8 p 0 < 32 ∨ field8 p 1 < field8 p 0 then .refuse .badValue
    else
      match vectorActionOf (field8 p 2) with
      | some a => .ok { s with vectors := setVectors (field8 p 0) (field8 p 1) a s.vectors } []
      | none => .refuse .badValue

/-- VECTOR_SET (R101). -/
def execVectorSet (tag : Byte) (payload : List Byte) (s : State) : Out := serve 0x08#8 tag payload (handleVectorSet payload) s

end Sys2Proof.Machine
end

