-- ==== Sys2Proof/Machine/TableCmds.lean ====
section
/-! DEFINITION. The requests that load the plan table (chapters 06, 09), the rule table, the ship item list and the bin
table (chapter 10), and the segment table (chapter 08). -/

namespace Sys2Proof.Machine

/-! ## Plans (R109 to R112, R171) -/

/-- Whether the header fields of PLAN_LOAD lie in their ranges (R109). The two-byte and four-byte fields whose range is
every value of their size need no test. -/
def planFieldsOk (p : List Byte) : Bool :=
  within 1 12 (field8 p 3) && within 0 600 (field16 p 4) && within 4 80 (field8 p 6) && within 2 120 (field8 p 25) &&
    within 10 60000 (field16 p 34)

/-- The nine factors of PLAN_LOAD. -/
def planFactors (p : List Byte) : Vector Nat 9 := Vector.ofFn fun n => field16 p (7 + 2 * n.val)

/-- The plan of an accepted PLAN_LOAD: every phase record unloaded, no signatures (R111). -/
def planFrom (p : List Byte) : Plan where
  id := field16 p 1
  count := field8 p 3
  t0 := field16 p 4
  step := field8 p 6
  factors := planFactors p
  stale := field8 p 25
  perHead := field32 p 26
  total := field32 p 30
  gap := field16 p 34
  phases := Vector.replicate 12 none
  sigs := Vector.replicate 4 none

/-- Replace a plan of the table. -/
def setPlan (n : PlanIx) (f : Plan → Plan) (s : State) : State := { s with plans := s.plans.set n (f s.plans[n]) }

/-- PLAN_LOAD's effect (R111). -/
def handlePlanLoad (p : List Byte) (s : State) : Handled :=
  withLength 36 p <| withPlan (field8 p 0) fun n =>
    if planFieldsOk p = false then .refuse .badValue
    else if planInUse s n then .refuse .inUse
    else .ok (setPlan n (fun _ => planFrom p) s) []

/-- PLAN_LOAD (R111). -/
def execPlanLoad (tag : Byte) (payload : List Byte) (s : State) : Out := serve 0x09#8 tag payload (handlePlanLoad payload) s

/-- The kind and its fields of PHASE_LOAD, in the order of R110; absent where one is out of its range (R111). Fields of
the other kinds are not read. -/
def phaseBodyFrom (p : List Byte) : Option PhaseBody :=
  match field8 p 2 with
  | 0 =>
    if within 1 262143 (field32 p 6) && within 1 16777215 (field32 p 10) && within 0 600 (field16 p 14) &&
        within 0 600 (field16 p 16) && decide (field16 p 14 ≤ field16 p 16) && within 0 3600 (field16 p 18) then
      some (.soak (byteAt p 4) (field32 p 6) (field32 p 10) (field16 p 14) (field16 p 16) (field16 p 18))
    else none
  | 1 =>
    match scanTagOf (field8 p 5) with
    | some tag => if within 1 262143 (field32 p 6) then some (.driveTest (byteAt p 4) tag (field32 p 6)) else none
    | none => none
  | 2 => if within 1 86400 (field32 p 20) then some (.rest (field32 p 20)) else none
  | 3 =>
    if within 1 255 (field8 p 24) && within 1 600 (field16 p 25) && within 0 3600 (field16 p 27) then
      some (.powerCycle (field8 p 24) (field16 p 25) (field16 p 27))
    else none
  | _ => none

/-- The phase record of PHASE_LOAD; absent where a field is out of its range (R110, R111). -/
def phaseFrom (p : List Byte) : Option PhaseRec :=
  match phaseBodyFrom p, onFailOf (field8 p 3) with
  | some body, some onFail => some { body := body, onFail := onFail }
  | _, _ => none

/-- PHASE_LOAD's effect (R111). -/
def handlePhaseLoad (p : List Byte) (s : State) : Handled :=
  withLength 29 p <| withPlan (field8 p 0) fun n =>
    if s.plans[n].count ≤ field8 p 1 then .refuse .badValue
    else
      match phaseFrom p with
      | none => .refuse .badValue
      | some rec =>
        if planInUse s n then .refuse .inUse
        else .ok (setPlan n (fun plan => { plan with phases := plan.phases.setIfInBounds (field8 p 1) (some rec) }) s) []

/-- PHASE_LOAD (R111). -/
def execPhaseLoad (tag : Byte) (payload : List Byte) (s : State) : Out := serve 0x0A#8 tag payload (handlePhaseLoad payload) s

/-- The signature of SIGNATURE_LOAD: a length of 0 makes the place absent, whatever the action (R171). The outer option
is absent for an action out of range. -/
def signatureFrom (p : List Byte) : Option (Option Signature) :=
  if field8 p 2 = 0 then some none
  else (tripActionOf (field8 p 3)).map fun a => some { bytes := p.drop 4, action := a }

/-- SIGNATURE_LOAD's effect (R171, R206). -/
def handleSignatureLoad (p : List Byte) (s : State) : Handled :=
  if p.length < 4 then .refuse .badLength
  else withPlan (field8 p 0) fun n =>
    if 3 < field8 p 1 ∨ 24 < field8 p 2 then .refuse .badValue
    else
      match signatureFrom p with
      | none => .refuse .badValue
      | some sig =>
        if p.length ≠ 4 + field8 p 2 then .refuse .badLength
        else if planInUse s n then .refuse .inUse
        else .ok (setPlan n (fun plan => { plan with sigs := plan.sigs.setIfInBounds (field8 p 1) sig }) s) []

/-- SIGNATURE_LOAD (R171). -/
def execSignatureLoad (tag : Byte) (payload : List Byte) (s : State) : Out :=
  serve 0x0B#8 tag payload (handleSignatureLoad payload) s

/-! ## Rules (R181, R182) -/

/-- RULE_LOAD's effect (R181; log 21). -/
def handleRuleLoad (p : List Byte) (s : State) : Handled :=
  withLength 33 p <| withBin (field8 p 32) fun b =>
    match yesNoOf (field8 p 31) with
    | none => .refuse .badValue
    | some complete =>
      if 15 < field8 p 0 then .refuse .badValue
      else
        let rule : Rule :=
          { maxWorst := field32 p 1, maxTotal := field32 p 5, maxGrown := field32 p 9, maxReports := field32 p 13,
            maxFailed := field32 p 17, maxTrips := field32 p 21, maxOob := field32 p 25,
            allowed := BitVec.ofNat 9 (field16 p 29), requireComplete := complete, bin := b }
        .ok { s with rules := s.rules.setIfInBounds (field8 p 0) rule } []

/-- RULE_LOAD (R181). -/
def execRuleLoad (tag : Byte) (payload : List Byte) (s : State) : Out := serve 0x0C#8 tag payload (handleRuleLoad payload) s

/-- RULES_SET's effect (R182). -/
def handleRulesSet (p : List Byte) (s : State) : Handled :=
  withLength 3 p <| withBin (field8 p 1) fun d => withBin (field8 p 2) fun w =>
    if 16 < field8 p 0 then .refuse .badValue
    else .ok { s with ruleCount := field8 p 0, defaultBin := d, reworkBin := w } []

/-- RULES_SET (R182). -/
def execRulesSet (tag : Byte) (payload : List Byte) (s : State) : Out := serve 0x0D#8 tag payload (handleRulesSet payload) s

/-! ## Ship items (R190) -/

/-- SHIP_ITEM_LOAD's effect (R190). -/
def handleShipItemLoad (p : List Byte) (s : State) : Handled :=
  withLength 9 p <|
    if 31 < field8 p 0 ∨ field16 p 1 = 0 then .refuse .badValue
    else if shipListInUse s then .refuse .inUse
    else
      let item : ShipItem :=
        { id := field16 p 1, value := BitVec.ofNat 32 (field32 p 3), bins := BitVec.ofNat 16 (field16 p 7) }
      .ok { s with shipItems := s.shipItems.setIfInBounds (field8 p 0) (some item) } []

/-- SHIP_ITEM_LOAD (R190). -/
def execShipItemLoad (tag : Byte) (payload : List Byte) (s : State) : Out :=
  serve 0x0E#8 tag payload (handleShipItemLoad payload) s

/-- Whether the first so many places of the ship item list are loaded (R190). -/
def placesLoaded (s : State) (n : Nat) : Bool := (List.range n).all fun m => ((s.shipItems[m]?).getD none).isSome

/-- SHIP_LIST_SET's effect (R190). -/
def handleShipListSet (p : List Byte) (s : State) : Handled :=
  withLength 1 p <|
    if 32 < field8 p 0 then .refuse .badValue
    else if placesLoaded s (field8 p 0) = false then .refuse .badState
    else if shipListInUse s then .refuse .inUse
    else .ok { s with shipCount := field8 p 0 } []

/-- SHIP_LIST_SET (R190). -/
def execShipListSet (tag : Byte) (payload : List Byte) (s : State) : Out :=
  serve 0x0F#8 tag payload (handleShipListSet payload) s

/-! ## Segments (R147) -/

/-- Whether two segments share a place (R146). -/
def segmentsOverlap (base₁ limit₁ base₂ limit₂ : Nat) : Bool :=
  decide (max base₁ base₂ < min (base₁ + limit₁) (base₂ + limit₂))

/-- Whether a segment would overlap that of another slot (R147). -/
def segmentClash (s : State) (i : Slot) (base limit : Nat) : Bool :=
  allSlots.any fun j => decide (j ≠ i) && segmentsOverlap base limit (s.slot j).seg.base (s.slot j).seg.limit

/-- SEGMENT_SET's effect (R147). -/
def handleSegmentSet (p : List Byte) (s : State) : Handled :=
  withLength 5 p <| withSlot (field8 p 0) fun i =>
    let base := field16 p 1
    let limit := field16 p 3
    if 6144 < base ∨ 6144 < limit ∨ 6144 < base + limit ∨ segmentClash s i base limit = true then .refuse .badValue
    else if (s.slot i).run.isSome ∨ (s.slot i).result.isSome then .refuse .badState
    else .ok (s.modSlot i fun r => { r with seg := { r.seg with base := base, limit := limit } }) []

/-- SEGMENT_SET (R147). -/
def execSegmentSet (tag : Byte) (payload : List Byte) (s : State) : Out := serve 0x10#8 tag payload (handleSegmentSet payload) s

/-! ## Bins (R188, R189) -/

/-- BIN_SET's effect (R184, R189): BIN_FULL where the capacity comes down to the bin's use, an examination where it
rises. -/
def handleBinSet (p : List Byte) (s : State) : Handled :=
  withLength 2 p <| withBin (field8 p 0) fun b =>
    let bin := binAt s b
    let cap := field8 p 1
    if cap = 0 ∨ cap < bin.use then .refuse .badValue
    else
      let s := s.modBin b fun bin => { bin with capacity := cap }
      if bin.capacity < cap then .ok s [.examineHold b]
      else if bin.use < bin.capacity then .ok (noteFull b s) []
      else .ok s []

/-- BIN_SET (R189). -/
def execBinSet (tag : Byte) (payload : List Byte) (s : State) : Out := serve 0x11#8 tag payload (handleBinSet payload) s

/-- What BIN_READ returns (R189). -/
def handleBinRead (p : List Byte) (s : State) : Handled :=
  withLength 1 p <| withBin (field8 p 0) fun b =>
    let bin := binAt s b
    .read s (.bin bin.capacity bin.fill bin.reserved bin.hold)

/-- BIN_READ (R189). -/
def execBinRead (tag : Byte) (payload : List Byte) (s : State) : Out := serve 0x12#8 tag payload (handleBinRead payload) s

/-- TOTE_SWAP's effect (R188). -/
def handleToteSwap (p : List Byte) (s : State) : Handled :=
  withLength 1 p <| withBin (field8 p 0) fun b => .ok (s.modBin b fun bin => { bin with fill := 0 }) [.examineHold b]

/-- TOTE_SWAP (R188). -/
def execToteSwap (tag : Byte) (payload : List Byte) (s : State) : Out := serve 0x13#8 tag payload (handleToteSwap payload) s

end Sys2Proof.Machine
end

