-- ==== Sys2Proof/Machine/SlotCmds.lean ====
section
/-! DEFINITION. The requests that name a slot (chapters 01, 05, 06, 08, 09, and R210). -/

namespace Sys2Proof.Machine

/-! ## Enable, arm, start, abort (R16, R113, R114, R130) -/

/-- Disabling a slot in POWER_WAIT without a run part and without a result part (R16). -/
def disableSlot (i : Slot) (s : State) : State :=
  let r := s.slot i
  if r.occ = .powerWait ∧ r.run.isNone = true ∧ r.result.isNone = true then
    setOcc i .held (withdrawEntry i .power s)
  else s

/-- SLOT_ENABLE's effect (R16, R209). -/
def handleSlotEnable (p : List Byte) (s : State) : Handled :=
  withLength 2 p <| withSlot (field8 p 0) fun i =>
    match yesNoOf (field8 p 1) with
    | none => .refuse .badValue
    | some on =>
      if (s.slot i).enabled = on then .ok s []
      else
        let s := s.modSlot i fun r => { r with enabled := on }
        if on then .ok s [.reexamine i] else .ok (disableSlot i s) []

/-- SLOT_ENABLE (R16). -/
def execSlotEnable (tag : Byte) (payload : List Byte) (s : State) : Out := serve 0x14#8 tag payload (handleSlotEnable payload) s

/-- Whether a slot in READY may start a run: no result part and no SILENT drive (R113, R114). -/
def mayStart (r : SlotRec) : Bool := decide (r.occ = .ready) && r.result.isNone && !r.silent

/-- SLOT_ARM's effect (R113). -/
def handleSlotArm (p : List Byte) (s : State) : Handled :=
  withLength 3 p <| withSlot (field8 p 0) fun i =>
    match yesNoOf (field8 p 2) with
    | none => .refuse .badValue
    | some auto =>
      if field8 p 1 = 255 then .ok (s.modSlot i fun r => { r with armed := none, autostart := auto }) []
      else
        withPlan (field8 p 1) fun n =>
          if s.plans[n].complete = false then .refuse .badState
          else
            let s := s.modSlot i fun r => { r with armed := some n, autostart := auto }
            .ok s (if auto && mayStart (s.slot i) then [.startRun i n] else [])

/-- SLOT_ARM (R113). -/
def execSlotArm (tag : Byte) (payload : List Byte) (s : State) : Out := serve 0x15#8 tag payload (handleSlotArm payload) s

/-- Start a run on a slot with a plan (R114). -/
def startWith (i : Slot) (n : PlanIx) (s : State) : Handled :=
  if mayStart (s.slot i) && s.plans[n].complete then .ok s [.startRun i n] else .refuse .badState

/-- SLOT_START's effect (R114). -/
def handleSlotStart (p : List Byte) (s : State) : Handled :=
  withLength 2 p <| withSlot (field8 p 0) fun i =>
    if field8 p 1 = 254 then
      match (s.slot i).armed with
      | some n => startWith i n s
      | none => .refuse .badState
    else withPlan (field8 p 1) fun n => startWith i n s

/-- SLOT_START (R114). -/
def execSlotStart (tag : Byte) (payload : List Byte) (s : State) : Out := serve 0x16#8 tag payload (handleSlotStart payload) s

/-- The verdict of a HOST_ABORT (R128). -/
def abortVerdict : Verdict := { outcome := .aborted, reason := .hostAbort, detail := 0 }

/-- SLOT_ABORT's effect (R130). -/
def handleSlotAbort (p : List Byte) (s : State) : Handled :=
  withLength 1 p <| withSlot (field8 p 0) fun i =>
    let r := s.slot i
    match r.run with
    | some run =>
      if run.stop.isSome then if r.occ = .testing then .ok s [] else .refuse .badState
      else if r.occ = .testing ∨ r.occ = .held then .ok s [.waitStop i .hostAbort abortVerdict] else .refuse .badState
    | none => if r.occ = .ready ∧ r.result.isNone = true then .ok s [.grade i .hostAbort] else .refuse .badState

/-- SLOT_ABORT (R130). -/
def execSlotAbort (tag : Byte) (payload : List Byte) (s : State) : Out := serve 0x17#8 tag payload (handleSlotAbort payload) s

/-! ## Unlock, locate, retire (R19, R21, R23) -/

/-- SLOT_UNLOCK's effect (R19, R20). -/
def handleSlotUnlock (p : List Byte) (s : State) : Handled :=
  withLength 1 p <| withSlot (field8 p 0) fun i =>
    if (s.slot i).occ = .empty then .refuse .badState
    else
      let (s, tells) := unlock i s
      .ok s tells

/-- SLOT_UNLOCK (R19). -/
def execSlotUnlock (tag : Byte) (payload : List Byte) (s : State) : Out := serve 0x18#8 tag payload (handleSlotUnlock payload) s

/-- The time of a SLOT_LOCATE: 0 is taken as 1, and above 255 as 255 (R23). -/
def locateSeconds (n : Nat) : Nat := max 1 (min 255 n)

/-- SLOT_LOCATE's effect (R23). -/
def handleSlotLocate (p : List Byte) (s : State) : Handled :=
  withLength 3 p <| withSlot (field8 p 0) fun i =>
    .ok (s.modSlot i fun r => { r with locateTimer := s.after (secs (locateSeconds (field16 p 1))) }) []

/-- SLOT_LOCATE (R23). -/
def execSlotLocate (tag : Byte) (payload : List Byte) (s : State) : Out := serve 0x19#8 tag payload (handleSlotLocate payload) s

/-- What SLOT_RETIRE discards (R21, R95, R164, R169, R197). -/
def retire (i : Slot) (s : State) : State :=
  let s := s.modSlot i fun r =>
    { r with result := none, identity := none, summary := none, diverted := false }
  emptyConsole i (emptySegment i s)

/-- SLOT_RETIRE's effect (R21). -/
def handleSlotRetire (p : List Byte) (s : State) : Handled :=
  withLength 1 p <| withSlot (field8 p 0) fun i =>
    let r := s.slot i
    if r.result.isSome ∧ (r.occ = .empty ∨ r.occ = .held ∨ r.occ = .ready) then .ok (retire i s) [.reexamine i]
    else .refuse .badState

/-- SLOT_RETIRE (R21). -/
def execSlotRetire (tag : Byte) (payload : List Byte) (s : State) : Out := serve 0x1A#8 tag payload (handleSlotRetire payload) s

/-! ## Reads (R162, R163, R170, R210) -/

/-- What section 0 of SLOT_READ reports (R210). -/
def coreReport (s : State) (i : Slot) : CoreReport :=
  let r := s.slot i
  { occ := r.occ, adm := r.adm, present := r.present, active := r.active, enabled := r.enabled, armed := r.armed,
    autostart := r.autostart, cls := r.cls, unlocked := r.unlocked, unlockLeft := secondsLeft r.unlockTimer s.now,
    locateLeft := secondsLeft r.locateTimer s.now, green := (indicators r).1, amber := (indicators r).2,
    drive := r.drive, identity := r.identity,
    poll := r.poll.map fun p => (p.test, p.progress, p.inService, (s.now - p.moment) / 1000),
    ladder := r.ladder, silent := r.silent,
    temperature := if r.temp.valid then some (r.temp.t, ageOf r.temp.moment s.now) else none,
    attn := r.attn, summary := r.summary }

/-- A slot's place in its bin's hold queue, if it stands in one, the head's being 0 (R185, R210; log 47). -/
def holdPlace (s : State) (i : Slot) : Option Nat :=
  match (s.slot i).result.bind Result.bin with
  | some b => (binAt s b).hold.findIdx? fun j => decide (j = i)
  | none => none

/-- What SLOT_READ returns (R210). -/
def handleSlotRead (p : List Byte) (s : State) : Handled :=
  withLength 2 p <| withSlot (field8 p 0) fun i =>
    let r := s.slot i
    match field8 p 1 with
    | 0 => .read s (.core (coreReport s i))
    | 1 => .read s (.run r.run)
    | 2 => .read s (.result r.result r.reservation (holdPlace s i) r.ship r.diverted)
    | _ => .refuse .badValue

/-- SLOT_READ (R210). -/
def execSlotRead (tag : Byte) (payload : List Byte) (s : State) : Out := serve 0x1B#8 tag payload (handleSlotRead payload) s

/-- ATTN_ACK's effect (R104). -/
def handleAttnAck (p : List Byte) (s : State) : Handled :=
  withLength 2 p <| withSlot (field8 p 0) fun i =>
    match (s.slot i).attn with
    | some a =>
      if a.stage = .host ∧ a.code = byteAt p 1 then
        .ok (setOutcome i .acked (modAttn i (fun a => { a with stage := .part }) s)) [.clearRecord i]
      else .refuse .badState
    | none => .refuse .badState

/-- ATTN_ACK (R104). -/
def execAttnAck (tag : Byte) (payload : List Byte) (s : State) : Out := serve 0x1C#8 tag payload (handleAttnAck payload) s

/-- What DEFECT_READ returns (R162). -/
def handleDefectRead (p : List Byte) (s : State) : Handled :=
  withLength 3 p <| withSlot (field8 p 0) fun i =>
    if 6143 < field16 p 1 then .refuse .badValue
    else
      let g := (s.slot i).seg
      .read s (.defects g.base g.limit g.entries.length g.revision g.overflow ((g.entries.drop (field16 p 1)).take 12))

/-- DEFECT_READ (R162). -/
def execDefectRead (tag : Byte) (payload : List Byte) (s : State) : Out := serve 0x1D#8 tag payload (handleDefectRead payload) s

/-- What HEAD_READ returns (R163). -/
def handleHeadRead (p : List Byte) (s : State) : Handled :=
  withLength 2 p <| withSlot (field8 p 0) fun i =>
    if 1 < field8 p 1 then .refuse .badValue
    else
      let g := (s.slot i).seg
      .read s (.heads ((g.heads.toList.drop (8 * field8 p 1)).take 8) g.fullDrops g.overflow g.early g.firstGrown)

/-- HEAD_READ (R163). -/
def execHeadRead (tag : Byte) (payload : List Byte) (s : State) : Out := serve 0x1E#8 tag payload (handleHeadRead payload) s

/-- The bytes of a ring that end at the one a back offset names, up to a count, oldest first (R170). -/
def ringStretch (ring : List Byte) (offset count : Nat) : List Byte :=
  let upTo := ring.take (ring.length - offset)
  upTo.drop (upTo.length - count)

/-- Whether matching is active for a slot (R172). -/
def matchingActive (r : SlotRec) : Bool := decide (r.occ = .testing)

/-- What CONSOLE_READ returns (R170). -/
def handleConsoleRead (p : List Byte) (s : State) : Handled :=
  withLength 4 p <| withSlot (field8 p 0) fun i =>
    if 511 < field16 p 1 ∨ 200 < field8 p 3 then .refuse .badValue
    else
      let r := s.slot i
      .read s (.console (ringStretch r.con.ring (field16 p 1) (field8 p 3)) r.con.received r.con.framingErrors
        r.con.ring.length (s.shelf (shelfOf i)).rate (matchingActive r) r.con.progress)

/-- CONSOLE_READ (R170). -/
def execConsoleRead (tag : Byte) (payload : List Byte) (s : State) : Out :=
  serve 0x1F#8 tag payload (handleConsoleRead payload) s

end Sys2Proof.Machine
end

