-- ==== Sys2Proof/Machine/Dispatch.lean ====
section
/-! DEFINITION. One arm per command. -/

namespace Sys2Proof.Machine

def exec (i : Instr) (s : State) : Host.Outcome State Fault Refusal :=
  match i with
  | .reset => Sys2Proof.Machine.execReset s
  | .hostFrameReceived byte => Sys2Proof.Machine.execHostFrameReceived byte s
  | .hostFrameAbandoned byte framingError => Sys2Proof.Machine.execHostFrameAbandoned byte framingError s
  | .hostByteGapExpiry => Sys2Proof.Machine.execHostByteGapExpiry s
  | .txFrameEnd => Sys2Proof.Machine.execTxFrameEnd s
  | .unknownKind kind tag payload => Sys2Proof.Machine.execUnknownKind kind tag payload s
  | .identify tag payload => Sys2Proof.Machine.execIdentify tag payload s
  | .shelfSet tag payload => Sys2Proof.Machine.execShelfSet tag payload s
  | .shelfRead tag payload => Sys2Proof.Machine.execShelfRead tag payload s
  | .shelfRestart tag payload => Sys2Proof.Machine.execShelfRestart tag payload s
  | .busSet tag payload => Sys2Proof.Machine.execBusSet tag payload s
  | .consoleSet tag payload => Sys2Proof.Machine.execConsoleSet tag payload s
  | .keyLoad tag payload => Sys2Proof.Machine.execKeyLoad tag payload s
  | .vectorSet tag payload => Sys2Proof.Machine.execVectorSet tag payload s
  | .planLoad tag payload => Sys2Proof.Machine.execPlanLoad tag payload s
  | .phaseLoad tag payload => Sys2Proof.Machine.execPhaseLoad tag payload s
  | .signatureLoad tag payload => Sys2Proof.Machine.execSignatureLoad tag payload s
  | .ruleLoad tag payload => Sys2Proof.Machine.execRuleLoad tag payload s
  | .rulesSet tag payload => Sys2Proof.Machine.execRulesSet tag payload s
  | .shipItemLoad tag payload => Sys2Proof.Machine.execShipItemLoad tag payload s
  | .shipListSet tag payload => Sys2Proof.Machine.execShipListSet tag payload s
  | .segmentSet tag payload => Sys2Proof.Machine.execSegmentSet tag payload s
  | .binSet tag payload => Sys2Proof.Machine.execBinSet tag payload s
  | .binRead tag payload => Sys2Proof.Machine.execBinRead tag payload s
  | .toteSwap tag payload => Sys2Proof.Machine.execToteSwap tag payload s
  | .slotEnable tag payload => Sys2Proof.Machine.execSlotEnable tag payload s
  | .slotArm tag payload => Sys2Proof.Machine.execSlotArm tag payload s
  | .slotStart tag payload => Sys2Proof.Machine.execSlotStart tag payload s
  | .slotAbort tag payload => Sys2Proof.Machine.execSlotAbort tag payload s
  | .slotUnlock tag payload => Sys2Proof.Machine.execSlotUnlock tag payload s
  | .slotLocate tag payload => Sys2Proof.Machine.execSlotLocate tag payload s
  | .slotRetire tag payload => Sys2Proof.Machine.execSlotRetire tag payload s
  | .slotRead tag payload => Sys2Proof.Machine.execSlotRead tag payload s
  | .attnAck tag payload => Sys2Proof.Machine.execAttnAck tag payload s
  | .defectRead tag payload => Sys2Proof.Machine.execDefectRead tag payload s
  | .headRead tag payload => Sys2Proof.Machine.execHeadRead tag payload s
  | .consoleRead tag payload => Sys2Proof.Machine.execConsoleRead tag payload s
  | .eventsRead tag payload => Sys2Proof.Machine.execEventsRead tag payload s
  | .eventsClear tag payload => Sys2Proof.Machine.execEventsClear tag payload s
  | .eventsEnable tag payload => Sys2Proof.Machine.execEventsEnable tag payload s
  | .presenceLineChange slot level => Sys2Proof.Machine.execPresenceLineChange slot level s
  | .presenceDebounceExpiry slot => Sys2Proof.Machine.execPresenceDebounceExpiry slot s
  | .activityLineChange slot level => Sys2Proof.Machine.execActivityLineChange slot level s
  | .activityDebounceExpiry slot => Sys2Proof.Machine.execActivityDebounceExpiry slot s
  | .supplyLineChange shelf line level => Sys2Proof.Machine.execSupplyLineChange shelf line level s
  | .supplyDebounceExpiry shelf line => Sys2Proof.Machine.execSupplyDebounceExpiry shelf line s
  | .spinWindowExpiry slot => Sys2Proof.Machine.execSpinWindowExpiry slot s
  | .bootDelayExpiry slot => Sys2Proof.Machine.execBootDelayExpiry slot s
  | .attachDeadlineExpiry slot => Sys2Proof.Machine.execAttachDeadlineExpiry slot s
  | .attachPauseExpiry shelf => Sys2Proof.Machine.execAttachPauseExpiry shelf s
  | .unlockHoldExpiry slot => Sys2Proof.Machine.execUnlockHoldExpiry slot s
  | .locateOverrideExpiry slot => Sys2Proof.Machine.execLocateOverrideExpiry slot s
  | .quietTimeMet shelf => Sys2Proof.Machine.execQuietTimeMet shelf s
  | .commandFrameEnd shelf => Sys2Proof.Machine.execCommandFrameEnd shelf s
  | .contestEnd shelf value => Sys2Proof.Machine.execContestEnd shelf value s
  | .attnQueryNodeRead shelf value wire => Sys2Proof.Machine.execAttnQueryNodeRead shelf value wire s
  | .replyFrameReceived shelf frame wire => Sys2Proof.Machine.execReplyFrameReceived shelf frame wire s
  | .replyWindowClose shelf wire => Sys2Proof.Machine.execReplyWindowClose shelf wire s
  | .resetPulseEnd slot => Sys2Proof.Machine.execResetPulseEnd slot s
  | .pollTimerExpiry slot => Sys2Proof.Machine.execPollTimerExpiry slot s
  | .attentionWireAsserted shelf => Sys2Proof.Machine.execAttentionWireAsserted shelf s
  | .attnHoldoffExpiry shelf wire => Sys2Proof.Machine.execAttnHoldoffExpiry shelf wire s
  | .busWireStuck shelf => Sys2Proof.Machine.execBusWireStuck shelf s
  | .locateWindowClose shelf => Sys2Proof.Machine.execLocateWindowClose shelf s
  | .phaseDone slot phase => Sys2Proof.Machine.execPhaseDone slot phase s
  | .phaseFailed slot phase reason => Sys2Proof.Machine.execPhaseFailed slot phase reason s
  | .overTemp slot => Sys2Proof.Machine.execOverTemp slot s
  | .driveFault slot => Sys2Proof.Machine.execDriveFault slot s
  | .stopPhase slot source code => Sys2Proof.Machine.execStopPhase slot source code s
  | .abortPlan slot source code => Sys2Proof.Machine.execAbortPlan slot source code s
  | .earlyStop slot => Sys2Proof.Machine.execEarlyStop slot s
  | .phaseWallSecond slot => Sys2Proof.Machine.execPhaseWallSecond slot s
  | .wallTimeReached slot => Sys2Proof.Machine.execWallTimeReached slot s
  | .restExpiry slot => Sys2Proof.Machine.execRestExpiry slot s
  | .offTimeExpiry slot => Sys2Proof.Machine.execOffTimeExpiry slot s
  | .onTimeExpiry slot => Sys2Proof.Machine.execOnTimeExpiry slot s
  | .consoleByteArrival slot byte => Sys2Proof.Machine.execConsoleByteArrival slot byte s
  | .consoleFramingError slot => Sys2Proof.Machine.execConsoleFramingError slot s
  | .dataWireLevelChange shelf level => Sys2Proof.Machine.execDataWireLevelChange shelf level s
  | .consoleLineChange slot level => Sys2Proof.Machine.execConsoleLineChange slot level s
  | .consoleStartGlitch slot => Sys2Proof.Machine.execConsoleStartGlitch slot s
  | .hostByteReceived byte => Sys2Proof.Machine.execHostByteReceived byte s

end Sys2Proof.Machine
end

