-- ==== Sys2Proof/Machine/Idle.lean ====
section
/-! DEFINITION. What the part does of itself while no command waits (log 1): a request is served, a report is taken, a
timer that has run out expires, or one millisecond passes. -/

namespace Sys2Proof.Machine

/-- The command of a waiting request, by its kind (R208). -/
def requestInstr (q : Request) : Instr :=
  match q.kind.toNat with
  | 0x01 => .identify q.tag q.payload
  | 0x02 => .shelfSet q.tag q.payload
  | 0x03 => .shelfRead q.tag q.payload
  | 0x04 => .shelfRestart q.tag q.payload
  | 0x05 => .busSet q.tag q.payload
  | 0x06 => .consoleSet q.tag q.payload
  | 0x07 => .keyLoad q.tag q.payload
  | 0x08 => .vectorSet q.tag q.payload
  | 0x09 => .planLoad q.tag q.payload
  | 0x0A => .phaseLoad q.tag q.payload
  | 0x0B => .signatureLoad q.tag q.payload
  | 0x0C => .ruleLoad q.tag q.payload
  | 0x0D => .rulesSet q.tag q.payload
  | 0x0E => .shipItemLoad q.tag q.payload
  | 0x0F => .shipListSet q.tag q.payload
  | 0x10 => .segmentSet q.tag q.payload
  | 0x11 => .binSet q.tag q.payload
  | 0x12 => .binRead q.tag q.payload
  | 0x13 => .toteSwap q.tag q.payload
  | 0x14 => .slotEnable q.tag q.payload
  | 0x15 => .slotArm q.tag q.payload
  | 0x16 => .slotStart q.tag q.payload
  | 0x17 => .slotAbort q.tag q.payload
  | 0x18 => .slotUnlock q.tag q.payload
  | 0x19 => .slotLocate q.tag q.payload
  | 0x1A => .slotRetire q.tag q.payload
  | 0x1B => .slotRead q.tag q.payload
  | 0x1C => .attnAck q.tag q.payload
  | 0x1D => .defectRead q.tag q.payload
  | 0x1E => .headRead q.tag q.payload
  | 0x1F => .consoleRead q.tag q.payload
  | 0x20 => .eventsRead q.tag q.payload
  | 0x21 => .eventsClear q.tag q.payload
  | 0x22 => .eventsEnable q.tag q.payload
  | _ => .unknownKind q.kind q.tag q.payload

/-- The command that takes a report. -/
def reportInstr (i : Slot) : ReportKind → Instr
  | .phaseDone phase => .phaseDone i phase
  | .phaseFailed phase reason => .phaseFailed i phase reason
  | .overTemp => .overTemp i
  | .driveFault => .driveFault i
  | .stopPhase source code => .stopPhase i source code
  | .abortPlan source code => .abortPlan i source code
  | .earlyStop => .earlyStop i

/-- Whether a timer has run out at a moment. -/
def due (timer : Option Nat) (now : Nat) : Bool :=
  match timer with
  | some m => decide (m ≤ now)
  | none => false

/-- A command, if a timer has run out. -/
def whenDue (timer : Option Nat) (now : Nat) (c : Instr) : Option Instr := if due timer now then some c else none

/-- The moment a slot's attach deadline runs out. -/
def deadlineMoment (r : SlotRec) : Option Nat :=
  match r.deadline with
  | some (.running m) => some m
  | _ => none

/-- The first timer of a slot that has run out. -/
def slotDue (s : State) (i : Slot) : Option Instr :=
  let r := s.slot i
  [whenDue r.presTimer s.now (.presenceDebounceExpiry i),
   whenDue r.actTimer s.now (.activityDebounceExpiry i),
   whenDue r.unlockTimer s.now (.unlockHoldExpiry i),
   whenDue r.locateTimer s.now (.locateOverrideExpiry i),
   whenDue r.pulseTimer s.now (.resetPulseEnd i),
   whenDue r.bootTimer s.now (.bootDelayExpiry i),
   whenDue (deadlineMoment r) s.now (.attachDeadlineExpiry i),
   whenDue r.spinTimer s.now (.spinWindowExpiry i),
   whenDue r.pollTimer s.now (.pollTimerExpiry i),
   whenDue (r.run.bind Run.wallTimer) s.now (.phaseWallSecond i),
   whenDue (r.run.bind Run.restTimer) s.now (.restExpiry i),
   whenDue (r.run.bind Run.offTimer) s.now (.offTimeExpiry i),
   whenDue (r.run.bind Run.onTimer) s.now (.onTimeExpiry i)].findSome? id

/-- The moment a shelf's locate window closes, and its pause ends (R79, R85). -/
def windowMoment (sh : ShelfRec) : Option Nat :=
  match sh.pass with
  | .round (.window _ _ opened _ _) => some (opened + 400)
  | _ => none
def pauseMoment (sh : ShelfRec) : Option Nat :=
  match sh.pass with
  | .paused _ m => some m
  | _ => none

/-- The moment a waiting transaction has its quiet time, and an open reply window closes (R50). -/
def quietMoment (sh : ShelfRec) : Option Nat :=
  match sh.phase with
  | .waiting _ => if sh.dataHigh then some (sh.highSince + 1) else none
  | _ => none
def replyMoment (sh : ShelfRec) : Option Nat :=
  match sh.phase with
  | .window _ m => some m
  | _ => none

/-- The first timer of a shelf that has run out. -/
def shelfDue (s : State) (k : Shelf) : Option Instr :=
  let sh := s.shelf k
  [whenDue sh.timerA s.now (.supplyDebounceExpiry k .ssa),
   whenDue sh.timerB s.now (.supplyDebounceExpiry k .ssb),
   whenDue (replyMoment sh) s.now (.replyWindowClose k sh.attnWire),
   whenDue (windowMoment sh) s.now (.locateWindowClose k),
   whenDue (pauseMoment sh) s.now (.attachPauseExpiry k),
   whenDue sh.holdoff s.now (.attnHoldoffExpiry k sh.attnWire),
   whenDue sh.stuckTimer s.now (.busWireStuck k),
   whenDue (quietMoment sh) s.now (.quietTimeMet k)].findSome? id

/-- The gap of more than 5 ms within a frame (R203). -/
def gapDue (s : State) : Option Instr :=
  if s.held.isEmpty = false ∧ s.lastHostByte + 5 < s.now then some .hostByteGapExpiry else none

/-- The command the part gives itself, if there is one (log 1): the oldest request, the oldest report of the lowest slot,
or a timer that has run out. -/
def duty (s : State) : Option Instr :=
  ((oldestUnserved s.requests).map requestInstr).or <|
    (allSlots.findSome? fun i => (s.slot i).reports.head?.map fun r => reportInstr i r.kind).or <|
      (allSlots.findSome? (slotDue s)).or <| (allShelves.findSome? (shelfDue s)).or (gapDue s)

/-- The stability timer of a line whose raw level differs from the debounced one and which no timer follows, as after a
reset (R11, R12, R28; log 9). -/
def arm (raw debounced : Bool) (timer : Option Nat) (moment : Nat) : Option Nat :=
  if raw = debounced then timer else some (timer.getD moment)

/-- One millisecond passes. -/
def tick (s : State) : State :=
  let m := s.now + 1
  { s with
    now := m
    slots := s.slots.map fun r =>
      { r with
        presTimer := arm r.presRaw r.present r.presTimer (m + 249)
        actTimer := arm r.actRaw r.active r.actTimer (m + 4) }
    shelves := s.shelves.map fun sh =>
      { sh with
        timerA := arm sh.rawA sh.lineA sh.timerA (m + 49)
        timerB := arm sh.rawB sh.lineB sh.timerB (m + 49) } }

end Sys2Proof.Machine
end

