-- ==== Sys2Proof/Safety.lean ====
section
/-! DEFINITION. The terms the statements use: how a request stands as it is served and answered, the frame a request comes
in, when a test runs on a slot, and what must hold of the machine in every state. -/

namespace Sys2Proof.Machine

/-! ## A request being served (R204 to R206) -/

/-- The request is the one served next: the oldest not yet served, or, with none waiting, one the queue has room for. -/
def NextServed (kind tag : Byte) (payload : List Byte) (s : State) : Prop :=
  match oldestUnserved s.requests with
  | some q => q.kind = kind ∧ q.tag = tag ∧ q.payload = payload
  | none => s.requests.length < 4

/-- The state in which that request stands in the queue as served; nothing else has changed. -/
def serving (kind tag : Byte) (payload : List Byte) (s : State) : State :=
  { s with
    requests :=
      match oldestUnserved s.requests with
      | some _ => markServed s.requests
      | none => s.requests ++ [{ kind := kind, tag := tag, payload := payload, served := true }] }

/-- The state after the request's reply has joined the reply order, an idle transmitter having taken a frame. -/
def answered (kind tag : Byte) (status : Status) (body : ReplyBody) (s : State) : State :=
  startTx (addReply (.reply kind tag status body) s)

/-- The bytes of a request's frame (R201). -/
def requestFrame (kind tag : Byte) (payload : List Byte) : List Byte :=
  let body := BitVec.ofNat 8 payload.length :: kind :: tag :: payload
  let check := (crc16 body).toNat
  0xA5#8 :: body ++ [BitVec.ofNat 8 (check / 256), BitVec.ofNat 8 (check % 256)]

/-- Receive bytes one after another, each by its own command. -/
def receiveAll : List Byte → State → Out
  | [], s => .next s
  | b :: rest, s =>
    match exec (.hostByteReceived b) s with
    | .next t => receiveAll rest t
    | out => out

/-! ## Flags and the factory bus -/

/-- A flag of a scope, by its bit. -/
def flagSet (s : State) (c : Scope) (bit : Nat) : Bool := s.flags[c].getLsbD bit

/-- The frame of a drive's reply (R49). -/
def busReply (n : NodeIx) (kind : BusKind) (body : List Byte) : List Byte :=
  let covered := BitVec.ofNat 8 (nodeNumber n) :: BitVec.ofNat 8 (busKindCode kind) :: BitVec.ofNat 8 body.length :: body
  covered ++ [crc8 covered]

/-- The slot has no item pending on its bus. -/
def NoWork (s : State) (i : Slot) : Prop := ∀ it ∈ (s.shelf (shelfOf i)).work, it.slot ≠ some i

/-- Whether the shelf has an item with these command fields pending in its ATTACH list or in flight. -/
def AttachPending (t : State) (k : Shelf) (cmd : BusCmd) : Prop :=
  (∃ it ∈ (t.shelf k).attachList, it.cmd = cmd) ∨ flightIs (fun it => decide (it.cmd = cmd)) (t.shelf k).phase = true

/-- Whether the shelf has an ATTN_QUERY pending or in flight. -/
def QueryPending (t : State) (k : Shelf) : Prop :=
  (t.shelf k).attnWide.any isQuery = true ∨ flightIs isQuery (t.shelf k).phase = true

/-- A slot's item with these command fields is pending or in flight. -/
def SlotPending (t : State) (i : Slot) (cmd : BusCmd) : Prop :=
  (∃ it ∈ (t.shelf (shelfOf i)).work, it.slot = some i ∧ it.cmd = cmd) ∨
    flightIs (fun it => decide (it.slot = some i ∧ it.cmd = cmd)) (t.shelf (shelfOf i)).phase = true

/-- The reply window of a slot's transaction with these command fields is open: the slot's drive holds the node it is
addressed to and answers, and nothing else of the slot is pending. -/
def SlotWindow (s : State) (i : Slot) (n : NodeIx) (d : DrivePart) (cmd : BusCmd) (owner : Owner) : Prop :=
  (∃ closes, (s.shelf (shelfOf i)).phase = .window
    { item := { shelf := shelfOf i, slot := some i, cmd := cmd, owner := owner },
      node := some n, dropped := false, orphan := false } closes) ∧
    (s.slot i).drive = some d ∧ slotOfNode s (shelfOf i) n = some i ∧ (s.slot i).silent = false ∧ NoWork s i

/-- The round's READ_INFO for a slot without a drive is in its reply window, and no drive part holds its node;
the slot is on, and nothing of it is pending. -/
def ReadInfoWindow (s : State) (i : Slot) (n : NodeIx) (ident : Identity) (attempt : Nat) : Prop :=
  (∃ closes, (s.shelf (shelfOf i)).phase = .window
    { item := { shelf := shelfOf i, slot := none, cmd := .readInfo n, owner := .attachUnit },
      node := some n, dropped := false, orphan := false } closes) ∧
    (s.shelf (shelfOf i)).pass = .round (.readInfo n ident i attempt) ∧ slotOfNode s (shelfOf i) n = none ∧
    (s.slot i).drive = none ∧ (s.slot i).silent = false ∧ (s.slot i).cls ≠ .off ∧ hasEntry s i .power = false ∧ NoWork s i

/-- A kind with per-slot items of a class (R54). -/
def PerSlot (c : BusClass) (kind : BusKind) : Prop := classOf kind = c ∧ kind ≠ .attnQuery ∧ kind ≠ .testReset

/-- The place of a class in the order of service, and of a kind among a slot's kinds of one class (R54). -/
def classPlace : BusClass → Nat
  | .attach => 1
  | .attention => 2
  | .control => 3
  | .fetch => 4
  | .ship => 5
  | .poll => 6
def kindPlace : BusKind → Nat
  | .startTest => 1
  | .readItem => 1
  | .stamp => 2
  | .park => 3
  | _ => 0

/-- The four bytes of a set, most significant first (R201, R211). -/
def setBytes (v : BitVec 32) : List Byte :=
  [v.extractLsb' 24 8, v.extractLsb' 16 8, v.extractLsb' 8 8, v.extractLsb' 0 8]

/-! ## A slot's run -/

/-- The slot's current phase runs a test on a bound drive that answers, nothing has been decided about it, and no
STOP_TEST of the slot is pending. -/
def TestGoing (s : State) (i : Slot) (run : Run) : Prop :=
  (s.slot i).run = some run ∧ run.state = .running ∧ runsTest s run = true ∧ run.decided = none ∧ run.stop = none ∧
    run.cycleStep = none ∧ (s.slot i).drive.isSome = true ∧ (s.slot i).silent = false ∧
    pendingItem (s.shelf (shelfOf i)).work i .stopTest = none

/-- The slot's phase has been decided with a verdict and its test is being stopped: the phase is STOPPING, its wall timer
holds, and a STOP_TEST is pending or in flight. -/
def StoppingWith (t : State) (i : Slot) (run : Run) (v : Verdict) (stop : Option StopReason) : Prop :=
  (t.slot i).run = some { run with decided := some v, state := .stopping, wallTimer := none, stop := stop } ∧
    pendingOrInFlight t i .stopTest = true

/-- Every slot but one stands as it did. -/
def OtherSlotsSame (s t : State) (i : Slot) : Prop := ∀ j : Slot, j ≠ i → t.slot j = s.slot j

/-- The Plan Runner takes the report now: it is told at this moment, or it is the oldest of its source and is live, told
under the run that the slot holds and, if it is a phase-end report, since the phase last resumed. -/
def TakenNow (s : State) (i : Slot) (kind : ReportKind) : Prop :=
  oldestReport (s.slot i).reports (sourceOf kind) = none ∨
    ∃ owes owns, oldestReport (s.slot i).reports (sourceOf kind) =
      some { kind := kind, live := true, owesClear := owes, ownsSummary := owns }

/-- The entry of the phase that has ended. -/
def endedEntry (s : State) (run : Run) (v : Verdict) : OutcomeEntry := .ended v run.wall (endedDose s run)

/-- The run after a phase ended with a verdict and the REST of so many seconds that follows it was entered (R122,
R127). -/
def RestEntered (s t : State) (i : Slot) (run : Run) (v : Verdict) (duration : Nat) : Prop :=
  ∃ run', (t.slot i).run = some run' ∧ run'.phase = run.phase + 1 ∧ run'.state = .running ∧ run'.decided = none ∧
    run'.outcomes = setNth run.outcomes run.phase (endedEntry s run v) ∧
    run'.runDose = min 16777215 (run.runDose + endedDose s run) ∧
    run'.restTimer = some (s.now + 1000 * duration) ∧ (t.slot i).ladder = 0 ∧
    flagSet t (slotScope i) (slotFlagBit .phaseEnd) = true

/-- The phase of the run is followed by a REST, and no stop is pending. -/
def RestFollows (s : State) (run : Run) (duration : Nat) : Prop :=
  run.stop = none ∧ run.noAttachKept = false ∧ run.phase + 1 < run.outcomes.length ∧
    ∃ onFail, ((planOf s run).phases[run.phase + 1]?).getD none = some { body := .rest duration, onFail := onFail }

/-! ## What holds of every state that a step leaves -/

/-- The draws of a shelf are ordered (R26), its entries are its own slots' and stand only while it is enabled (R32, R45),
a SPIN entry's slot is on (R32), its slots are off while it is disabled (R45), and its commitments are within its
current limit (R30). -/
def ShelfBudgetSound (s : State) (k : Shelf) : Prop :=
  let sh := s.shelf k
  (sh.idleDraw ≤ sh.runDraw ∧ sh.runDraw ≤ sh.inrushDraw) ∧
    (∀ e ∈ sh.queue, shelfOf e.slot = k ∧ sh.enabled = true ∧ (e.kind = .spin → (s.slot e.slot).cls ≠ .off)) ∧
    (sh.enabled = false → ∀ i : Slot, shelfOf i = k → (s.slot i).cls = .off) ∧
    committed s k ≤ currentLimit sh

/-- Every shelf's budget is sound. -/
def BudgetSound (s : State) : Prop := ∀ k : Shelf, ShelfBudgetSound s k

/-- Every flag that is set exists in its scope (R211). -/
def FlagsExist (s : State) : Prop := ∀ c : Scope, s.flags[c] &&& ~~~(scopeMask c) = 0#32

/-- Each scope stands in the pending notice list at most once (R217). -/
def NoticesOnce (s : State) : Prop := s.notices.Nodup

/-- The request queue and the BUSY list hold at most four each (R204). -/
def QueuesFit (s : State) : Prop := s.requests.length ≤ 4 ∧ s.busyList.length ≤ 4

/-- A bin's use is within its capacity, and its reserved count is the number of slots that hold a reservation in it
(R184). -/
def BinsSound (s : State) : Prop :=
  ∀ b : BinIx, s.bins[b].fill + s.bins[b].reserved ≤ s.bins[b].capacity ∧
    s.bins[b].reserved = (allSlots.filter fun i => decide ((s.slot i).reservation = some b)).length

/-- A latch is energized only while its slot's switch is off (R18); nothing of such a slot waits for power, and a wait
queue holds entries of its own shelf's slots only (R31). -/
def LatchSafe (s : State) : Prop :=
  (∀ k : Shelf, ∀ e ∈ (s.shelf k).queue, shelfOf e.slot = k) ∧
    ∀ i : Slot, (s.slot i).unlocked = true →
      (s.slot i).cls = .off ∧ ∀ e ∈ (s.shelf (shelfOf i)).queue, e.slot ≠ i

/-- A node of the shelf that no slot holds. -/
def NodeUnbound (s : State) (k : Shelf) (n : NodeIx) : Prop := ∀ i : Slot, (s.shelf k).nodes[n] ≠ .bound i

/-- The node an attach round works on is held by no slot, and the slots it names are its shelf's (R80 to R88). -/
def PassSound (s : State) (k : Shelf) : Prop :=
  match (s.shelf k).pass with
  | .round (.assign n _) => NodeUnbound s k n
  | .round (.locate n _) => NodeUnbound s k n
  | .round (.window n _ _ pulsing _) => NodeUnbound s k n ∧ ∀ i ∈ pulsing, shelfOf i = k
  | .round (.readInfo n _ i _) => NodeUnbound s k n ∧ shelfOf i = k
  | _ => True

/-- A node map says of a node that a slot holds it exactly if that slot of the shelf has a drive part at that node
(R90). -/
def NodeMapSound (s : State) : Prop :=
  ∀ k : Shelf, PassSound s k ∧ ∀ (n : NodeIx) (i : Slot),
    (s.shelf k).nodes[n] = .bound i ↔ shelfOf i = k ∧ (s.slot i).drive.map DrivePart.node = some n

/-- The slot is released to the operator with its drive gone, its latch energized for 120 s and no power asked for (R18,
R20, R198). -/
def ReleasedWithoutDrive (s t : State) (i : Slot) : Prop :=
  (t.slot i).occ = .removeReady ∧ (t.slot i).unlocked = true ∧ (t.slot i).unlockTimer = some (s.now + 120000) ∧
    (t.slot i).cls = .off ∧ (t.slot i).drive = none ∧ (t.slot i).attn = none ∧ hasEntry t i .power = false

/-- The slot has left the cell by a loss: it is EMPTY and off, without drive, run or power asked for (R15). -/
def LostSlot (t : State) (i : Slot) : Prop :=
  (t.slot i).occ = .empty ∧ (t.slot i).adm = .off ∧ (t.slot i).present = false ∧ (t.slot i).cls = .off ∧
    (t.slot i).drive = none ∧ (t.slot i).run = none ∧ (t.slot i).ladder = 0 ∧ hasEntry t i .power = false ∧
    flagSet t (slotScope i) (slotFlagBit .lost) = true ∧ flagSet t (slotScope i) (slotFlagBit .removed) = true

/-- The slot's result was formed for a stop that leads to no tote (R178, R180). -/
def ResultWithoutTote (t : State) (i : Slot) (reason : StopReason) : Prop :=
  ∃ res, (t.slot i).result = some res ∧ res.inputs.stop = reason ∧ res.bin = none ∧ res.shipped = false

/-- A slot without a drive has no attention record, and a switched off slot has no drive and waits for no spin. -/
def OffIsBare (s : State) (i : Slot) : Prop :=
  ((s.slot i).drive = none → (s.slot i).attn = none) ∧
    ((s.slot i).cls = .off → (s.slot i).drive = none ∧ hasEntry s i .spin = false)

/-- The slot has been taken out of the tote by its bin: no hold queue and no reservation holds it (R199). -/
def OutOfTotes (s t : State) (i : Slot) : Prop :=
  (t.slot i).reservation = none ∧ (t.slot i).ship = none ∧ (t.slot i).diverted = false ∧
    ∀ b : BinIx, t.bins[b] = { s.bins[b] with
      hold := s.bins[b].hold.filter fun j => decide (j ≠ i)
      reserved := if (s.slot i).reservation = some b then s.bins[b].reserved - 1 else s.bins[b].reserved }

/-- The slot's record once a place of the bin is reserved for it and its sequence stands at a step (R186, R191). -/
def SlotRec.shippingTo (r : SlotRec) (b : BinIx) (step : ShipStep) (selected : List ShipItem) : SlotRec :=
  { r with
    reservation := some b
    occ := .shipping
    ship := some { path := if r.diverted then .rework else .full, step := step, position := 0, selected := selected,
                   failures := 0 } }

/-- The sequence of a BOUND slot has started: the WRITE_ITEM of its first selected item is submitted on the FULL path, and
its STAMP where none is selected and on the REWORK path (R192, R193). -/
def ShipStarts (s t : State) (i : Slot) (b : BinIx) (res : Result) : Prop :=
  match if (s.slot i).diverted then [] else selectedItems s res.bin with
  | [] => t.slot i = (s.slot i).shippingTo b .stamp [] ∧
      SlotPending t i (.stamp (res.bin.getD 0) res.ruleIndex res.planId res.inputs.runDose res.inputs.stop)
  | first :: rest => t.slot i = (s.slot i).shippingTo b .write (first :: rest) ∧
      SlotPending t i (.writeItem first.id first.value)

/-- The sequence of a switched off slot without a drive is complete: its result is shipped, and it is released to the
operator with the place reserved (R192, R194). -/
def ShippedWithoutDrive (s t : State) (i : Slot) (b : BinIx) (res : Result) : Prop :=
  t.slot i = { s.slot i with
    reservation := some b
    occ := .removeReady
    unlocked := true
    unlockTimer := some (s.now + 120000)
    result := some { res with shipped := true }
    ship := none
    diverted := false } ∧
  flagSet t (slotScope i) (slotFlagBit .shipped) = true

/-- A switched off slot of a shelf with an empty wait queue waits for its binding, and its power is asked for unless the
shelf is disabled: it is switched on where the limit allows it, and stands in the queue where not (R9, R32, R33, R36,
R192). -/
def ShipAsksForPower (s t : State) (i : Slot) (b : BinIx) : Prop :=
  let sh := s.shelf (shelfOf i)
  let waits := (s.slot i).shippingTo b .waitBind []
  if sh.enabled = false then t.slot i = waits ∧ t.shelf (shelfOf i) = sh
  else if committed s (shelfOf i) + sh.idleDraw ≤ currentLimit sh then
    t.shelf (shelfOf i) = sh ∧ ∃ rank, t.slot i = { waits with
      cls := .idle
      adm := .booting
      powerRank := some rank
      powerReq := .supervisor
      bootTimer := some (s.now + 1000 * sh.bootDelay)
      con := { waits.con with rx := if waits.con.line then .watching else .waitHigh } }
  else t.slot i = { waits with adm := .queued } ∧
    t.shelf (shelfOf i) = { sh with queue := [{ slot := i, kind := .power, requester := .supervisor }] }

/-- No other slot waits for the place that the slot holds. -/
def NobodyWaits (s : State) (i : Slot) : Prop :=
  ∀ b : BinIx, (s.slot i).reservation = some b → ∀ j ∈ s.bins[b].hold, j = i

/-! ## What holds of a segment (R146, R156, R157) -/

/-- Whether an entry covers a sector. -/
def DefectEntry.has (e : DefectEntry) (sector : Nat) : Prop := e.start ≤ sector ∧ sector < e.start + e.length

/-- How many sectors of a report no stored entry of some property covers. -/
def sectorsOutside (entries : List DefectEntry) (p : DefectEntry → Bool) (e : DefectEntry) : Nat :=
  (List.range e.length).countP fun n => entries.all fun x =>
    !(p x && decide (x.start ≤ e.start + n) && decide (e.start + n < x.start + x.length))

/-- The entries stand in their order, and no two entries of one key overlap or adjoin (R156). -/
def SegmentOrdered (g : Segment) : Prop :=
  g.entries.Pairwise (fun a b => entryBefore a b = true) ∧
    g.entries.Pairwise (fun a b => sameKey a b = true → touches a.start a.length b.start b.length = false)

/-- The grown counter of every head is within its sector counter (R157). -/
def GrownWithinSectors (g : Segment) : Prop := ∀ h : Fin 16, g.heads[h].grown ≤ g.heads[h].sectors

/-- A place of the pool that lies in a segment. -/
def Segment.has (g : Segment) (place : Nat) : Prop := g.base ≤ place ∧ place < g.base + g.limit

/-- Every slot's segment is in order with its counters sound (R156, R157), and the segments lie apart within the pool of
6144 places (R146). -/
def SegmentsSound (s : State) : Prop :=
  (∀ i : Slot, let g := (s.slot i).seg
    SegmentOrdered g ∧ (∀ x ∈ g.entries, 1 ≤ x.length) ∧ GrownWithinSectors g ∧ g.base + g.limit ≤ 6144) ∧
  ∀ i j : Slot, i ≠ j → ∀ place : Nat, ¬((s.slot i).seg.has place ∧ (s.slot j).seg.has place)

end Sys2Proof.Machine
end

