-- ==== Sys2Proof/Certificates/Slice0/Obligations.lean ====
section
/-! DEFINITION. The statements for the provers. Each docstring names the rules it rests on. Where a statement says what a
command answers, the state it names is the whole next state: everything it does not update is as it was. Three of the
model's own conventions stand in most statements: a timer is the moment of its expiry on the model's clock (log 8), a
request is served as `NextServed` and `serving` say (log 4), and reply fields are kept by name (log 15). -/

open Sys2Proof Sys2Proof.Machine

/-! ## The machine -/

/-- A step takes the command at the front of the queue and carries it out with the queue's rest; with none waiting, the
oldest request not yet served is served (R205; log 1). -/
def Obligations.StepRunsTheFrontCommand : Prop :=
  (∀ (c : Instr) (rest : List Instr) (s : State), s.pending = c :: rest →
    step s = exec c { s with pending := rest }) ∧
  ∀ (q : Request) (s : State), s.pending = [] → oldestUnserved s.requests = some q → step s = exec (requestInstr q) s

/-- RESET puts every slot at the values of R24, with the event flags clear and the shelves disabled. -/
def Obligations.ResetEmptiesEverySlot : Prop :=
  ∀ s : State, ∃ t, exec .reset s = .next t ∧
    (∀ i : Slot, let r := t.slot i
      (switchOn r = false ∧ spinHold r = true ∧ driveReset r = false ∧ r.unlocked = false ∧
        indicators r = (.off, .off)) ∧
      (r.occ = .empty ∧ r.adm = .off ∧ r.present = false ∧ r.active = false ∧ r.enabled = true ∧ r.armed = none ∧
        r.autostart = false ∧ r.cls = .off) ∧
      (r.drive = none ∧ r.run = none ∧ r.result = none ∧ r.attn = none ∧ r.identity = none) ∧
      (r.presTimer = none ∧ r.actTimer = none ∧ r.bootTimer = none ∧ r.unlockTimer = none ∧ r.locateTimer = none)) ∧
    (∀ c : Scope, t.flags[c] = 0#32) ∧ ∀ k : Shelf, (t.shelf k).enabled = false

/-- After reset: the shelf budgets (R25, R48), the poll intervals and the bus of each shelf (R59, R72), the attach
pass with its mismatches and node map (R79, R90, R92), the console rates (R167, R177), and the tables and the link
(R75, R101, R109, R132, R182, R184, R190, R200, R211, R217, R218). -/
def Obligations.ResetTablesAndLink : Prop :=
  let s := State.reset
  (∀ k : Shelf, (s.shelf k).limit = 120 ∧ (s.shelf k).idleDraw = 6 ∧ (s.shelf k).runDraw = 9 ∧
    (s.shelf k).inrushDraw = 22 ∧ (s.shelf k).spinWindow = 20 ∧ (s.shelf k).bootDelay = 4 ∧
    supplyStatus (s.shelf k) = .good ∧ currentLimit (s.shelf k) = 120 ∧ committed s k = 0 ∧ (s.shelf k).queue = []) ∧
  (∀ k : Shelf, (s.shelf k).pollSecs = 2 ∧ (s.shelf k).rate = .r115200 ∧ (s.shelf k).pass = .idle ∧
    (s.shelf k).mismatches = 0 ∧ (s.shelf k).phase = .free ∧ ∀ n : NodeIx, (s.shelf k).nodes[n] = .free) ∧
  (s.wakePattern = [] ∧ s.ruleCount = 0 ∧ s.defaultBin = 15 ∧ s.reworkBin = 14 ∧ s.shipCount = 0) ∧
  (∀ n : Fin 224, s.vectors[n] = .notifyClear) ∧ (∀ p : PlanIx, s.plans[p].count = 0) ∧
  (∀ b : BinIx, s.bins[b] = { capacity := 20, fill := 0, reserved := 0, hold := [] }) ∧
  (s.held = [] ∧ s.requests = [] ∧ s.busyList = [] ∧ s.replies = [] ∧ s.notices = [] ∧ s.sequence = 0) ∧
  ∀ c : Scope, s.enables[c] = scopeMask c

/-- What every step keeps holds after reset: the budgets, the flags, the notice list, the queues, the bins, the
latches, the node maps and the segments are sound (R18, R30, R90, R146, R156, R157, R184, R204, R211, R217). -/
def Obligations.SoundAtReset : Prop :=
  BudgetSound State.reset ∧ FlagsExist State.reset ∧ NoticesOnce State.reset ∧ QueuesFit State.reset ∧
    BinsSound State.reset ∧ LatchSafe State.reset ∧ NodeMapSound State.reset ∧ SegmentsSound State.reset

/-! ## The host link (chapter 11) -/

/-- The bytes of a request's frame, received one by one from HUNT while the request queue has room, bring exactly that
request to the queue's tail; slots and shelves are untouched. A byte other than A5h in HUNT is discarded, and A5h begins
a frame (R201, R203, R204). -/
def Obligations.RequestFrameArrives : Prop :=
  (∀ (b : Byte) (s : State), s.held = [] → exec (.hostByteReceived b) s =
    .next (startTx { s with lastHostByte := s.now, held := if b = 0xA5#8 then [b] else [] })) ∧
  ∀ (kind tag : Byte) (payload : List Byte) (s : State), payload.length ≤ 250 → s.held = [] → s.requests.length < 4 →
    ∃ t, receiveAll (requestFrame kind tag payload) s = .next t ∧
      t.requests = s.requests ++ [{ kind := kind, tag := tag, payload := payload, served := false }] ∧
      t.held = [] ∧ t.slots = s.slots ∧ t.shelves = s.shelves ∧ t.flags = s.flags

/-- How a frame in reception ends (R203, R204). The byte that completes a frame with a right check places the request
by the state of the queues: in the request queue, else as a BUSY reply, else nowhere with LINK_ERROR set. A frame
whose check is wrong is dropped with LINK_ERROR set, and the bytes after its sync are taken again as in HUNT: with no
A5h among them nothing is held, a frame they begin is held as far as it goes, and a whole frame they hold is placed. A
frame is abandoned by a length byte above 250, by a byte with a framing error and by the gap: LINK_ERROR is set and
nothing of it is kept. A byte with a framing error in HUNT sets no flag. -/
def Obligations.FramesEnd : Prop :=
  let place := fun (kind tag : Byte) (payload : List Byte) (u : State) =>
    if u.requests.length < 4 then
      { u with requests := u.requests ++ [{ kind := kind, tag := tag, payload := payload, served := false }] }
    else if u.busyList.length < 4 then
      { u with busyList := u.busyList ++ [(kind, tag)], replies := u.replies ++ [.busyReply kind tag] }
    else raiseController .linkError u
  (∀ (kind tag : Byte) (payload : List Byte) (last : Byte) (s : State), payload.length ≤ 250 →
    s.held ++ [last] = requestFrame kind tag payload →
    exec (.hostFrameReceived last) s =
      .next (startTx (place kind tag payload { s with held := [], lastHostByte := s.now }))) ∧
  (∀ (n last : Byte) (rest : List Byte) (s : State), n.toNat ≤ 250 → s.held ++ [last] = 0xA5#8 :: n :: rest →
    rest.length = 4 + n.toNat → (crc16 (n :: rest.take (2 + n.toNat))).toNat ≠ field16 rest (2 + n.toNat) →
    let u := raiseController .linkError { s with held := [], lastHostByte := s.now }
    ((∀ b ∈ n :: rest, b ≠ 0xA5#8) → exec (.hostByteReceived last) s = .next (startTx u)) ∧
    ∀ (skipped : List Byte) (kind tag : Byte) (payload : List Byte), payload.length ≤ 250 →
      (∀ b ∈ skipped, b ≠ 0xA5#8) →
      (∀ m : Nat, 1 ≤ m → m < (requestFrame kind tag payload).length →
        n :: rest = skipped ++ (requestFrame kind tag payload).take m →
        exec (.hostByteReceived last) s =
          .next (startTx { u with held := (requestFrame kind tag payload).take m })) ∧
      (n :: rest = skipped ++ requestFrame kind tag payload →
        exec (.hostByteReceived last) s = .next (startTx (place kind tag payload u)))) ∧
  (∀ (b first : Byte) (s : State), s.held = [first] → 250 < b.toNat →
    exec (.hostFrameAbandoned b false) s =
      .next (startTx (raiseController .linkError { s with held := [], lastHostByte := s.now }))) ∧
  (∀ (b : Byte) (s : State), s.held ≠ [] →
    exec (.hostFrameAbandoned b true) s =
      .next (startTx (raiseController .linkError { s with held := [], lastHostByte := s.now }))) ∧
  (∀ (b : Byte) (s : State), s.held = [] →
    exec (.hostFrameAbandoned b true) s = .next (startTx { s with lastHostByte := s.now })) ∧
  ∀ s : State, s.held ≠ [] →
    exec .hostByteGapExpiry s = .next (startTx (raiseController .linkError { s with held := [] }))

/-- The end of a frame on the wire, and the frame chosen next: STARTUP while it has not been sent, else the oldest
reply, else the notice pending longest, formed as it is taken (R207, R217). -/
def Obligations.FrameEndChoosesNext : Prop :=
  ∀ (f : TxFrame) (s : State), s.tx = some f →
    ∃ u, exec .txFrameEnd s = .next (startTx u) ∧
      (u = match f with
        | .startup _ _ => { s with tx := none, startupSent := true, sequence := (s.sequence + 1) % 256 }
        | .notice _ _ _ => { s with tx := none, sequence := (s.sequence + 1) % 256 }
        | .reply _ _ _ _ => { s with tx := none, requests := s.requests.drop 1 }
        | .busyReply _ _ => { s with tx := none, busyList := s.busyList.drop 1 }) ∧
      (u.startupSent = false → (startTx u).tx = some (.startup u.sequence u.fastLink)) ∧
      (∀ r rest, u.startupSent = true → u.replies = r :: rest → (startTx u).tx = some r ∧ (startTx u).replies = rest) ∧
      ∀ c rest, u.startupSent = true → u.replies = [] → u.notices = c :: rest →
        (startTx u).tx = some (.notice c u.sequence u.flags[c]) ∧ (startTx u).notices = rest

/-- The tests that come before the owner's: a kind that is not in the catalogue is answered UNKNOWN_KIND, and a
payload of another length than the kind's BAD_LENGTH; neither changes anything (R206, R208). -/
def Obligations.RefusedBeforeTheOwner : Prop :=
  (∀ (kind tag : Byte) (p : List Byte) (s : State), (kind = 0 ∨ 0x22#8 < kind) → NextServed kind tag p s →
    exec (.unknownKind kind tag p) s = .next (answered kind tag .unknownKind .none (serving kind tag p s))) ∧
  ∀ (tag : Byte) (p : List Byte) (s : State) (row : Byte × Nat × (Byte → List Byte → Instr)),
    row ∈ [(0x01#8, 0, Instr.identify), (0x02#8, 9, Instr.shelfSet), (0x03#8, 1, Instr.shelfRead),
      (0x04#8, 1, Instr.shelfRestart), (0x05#8, 2, Instr.busSet), (0x06#8, 2, Instr.consoleSet),
      (0x08#8, 3, Instr.vectorSet), (0x09#8, 36, Instr.planLoad), (0x0A#8, 29, Instr.phaseLoad),
      (0x0C#8, 33, Instr.ruleLoad), (0x0D#8, 3, Instr.rulesSet), (0x0E#8, 9, Instr.shipItemLoad),
      (0x0F#8, 1, Instr.shipListSet), (0x10#8, 5, Instr.segmentSet), (0x11#8, 2, Instr.binSet),
      (0x12#8, 1, Instr.binRead), (0x13#8, 1, Instr.toteSwap), (0x14#8, 2, Instr.slotEnable),
      (0x15#8, 3, Instr.slotArm), (0x16#8, 2, Instr.slotStart), (0x17#8, 1, Instr.slotAbort),
      (0x18#8, 1, Instr.slotUnlock), (0x19#8, 3, Instr.slotLocate), (0x1A#8, 1, Instr.slotRetire),
      (0x1B#8, 2, Instr.slotRead), (0x1C#8, 2, Instr.attnAck), (0x1D#8, 3, Instr.defectRead),
      (0x1E#8, 2, Instr.headRead), (0x1F#8, 4, Instr.consoleRead), (0x20#8, 1, Instr.eventsRead),
      (0x21#8, 5, Instr.eventsClear), (0x22#8, 5, Instr.eventsEnable)] →
    p.length ≠ row.2.1 → NextServed row.1 tag p s →
    exec (row.2.2 tag p) s = .next (answered row.1 tag .badLength .none (serving row.1 tag p s))

/-- A request of the right length that names a slot above 23, a shelf above 2, a bin above 15, a plan above 3 or a scope
that does not exist is answered BAD_VALUE and changes nothing (R209, R214). SLOT_ARM also takes 255 for no plan,
SLOT_START 254 for the armed one, and EVENTS_READ 255 for all scopes. The bins of RULE_LOAD and RULES_SET are among
those that a request names. -/
def Obligations.NameOfNothingIsRefused : Prop :=
  (∀ (tag : Byte) (p : List Byte) (s : State) (row : Byte × Nat × Nat × (Byte → List Byte → Instr)),
    row ∈ [(0x09#8, 36, 4, Instr.planLoad), (0x0A#8, 29, 4, Instr.phaseLoad),
      (0x02#8, 9, 3, Instr.shelfSet), (0x03#8, 1, 3, Instr.shelfRead), (0x04#8, 1, 3, Instr.shelfRestart),
      (0x05#8, 2, 3, Instr.busSet), (0x06#8, 2, 3, Instr.consoleSet), (0x10#8, 5, 24, Instr.segmentSet),
      (0x11#8, 2, 16, Instr.binSet), (0x12#8, 1, 16, Instr.binRead), (0x13#8, 1, 16, Instr.toteSwap),
      (0x14#8, 2, 24, Instr.slotEnable), (0x15#8, 3, 24, Instr.slotArm), (0x16#8, 2, 24, Instr.slotStart),
      (0x17#8, 1, 24, Instr.slotAbort), (0x18#8, 1, 24, Instr.slotUnlock), (0x19#8, 3, 24, Instr.slotLocate),
      (0x1A#8, 1, 24, Instr.slotRetire), (0x1B#8, 2, 24, Instr.slotRead), (0x1C#8, 2, 24, Instr.attnAck),
      (0x1D#8, 3, 24, Instr.defectRead), (0x1E#8, 2, 24, Instr.headRead), (0x1F#8, 4, 24, Instr.consoleRead)] →
    p.length = row.2.1 → row.2.2.1 ≤ field8 p 0 → NextServed row.1 tag p s →
    exec (row.2.2.2 tag p) s = .next (answered row.1 tag .badValue .none (serving row.1 tag p s))) ∧
  ∀ (tag : Byte) (p : List Byte) (s : State),
    (4 ≤ p.length → 4 ≤ field8 p 0 → NextServed 0x0B#8 tag p s →
      exec (.signatureLoad tag p) s = .next (answered 0x0B#8 tag .badValue .none (serving 0x0B#8 tag p s))) ∧
    (p.length = 3 → 4 ≤ field8 p 1 → field8 p 1 ≠ 255 → NextServed 0x15#8 tag p s →
      exec (.slotArm tag p) s = .next (answered 0x15#8 tag .badValue .none (serving 0x15#8 tag p s))) ∧
    (p.length = 2 → 4 ≤ field8 p 1 → field8 p 1 ≠ 254 → NextServed 0x16#8 tag p s →
      exec (.slotStart tag p) s = .next (answered 0x16#8 tag .badValue .none (serving 0x16#8 tag p s))) ∧
    (p.length = 33 → 16 ≤ field8 p 32 → NextServed 0x0C#8 tag p s →
      exec (.ruleLoad tag p) s = .next (answered 0x0C#8 tag .badValue .none (serving 0x0C#8 tag p s))) ∧
    (p.length = 3 → (16 ≤ field8 p 1 ∨ 16 ≤ field8 p 2) → NextServed 0x0D#8 tag p s →
      exec (.rulesSet tag p) s = .next (answered 0x0D#8 tag .badValue .none (serving 0x0D#8 tag p s))) ∧
    (p.length = 1 → 28 ≤ field8 p 0 → field8 p 0 ≠ 255 → NextServed 0x20#8 tag p s →
      exec (.eventsRead tag p) s = .next (answered 0x20#8 tag .badValue .none (serving 0x20#8 tag p s)))

/-- The requests that read answer from the state as it stands and change nothing but the queue and the replies:
IDENTIFY, EVENTS_READ, SHELF_READ, BIN_READ, SLOT_READ, DEFECT_READ, HEAD_READ and CONSOLE_READ (R27, R162, R163,
R170, R189, R209, R210, R214). The bytes of IDENTIFY's reply are the device code, the rate and whether a pattern is
loaded, those of a flag set are four with the most significant first, and every section of SLOT_READ fits a frame with
its status (R206, R210, R211; the bound on the fields whose coding is open is the model's, log 15). -/
def Obligations.ReadsAnswerFromTheState : Prop :=
  (∀ (tag : Byte) (p : List Byte) (s : State),
    (p = [] → NextServed 0x01#8 tag p s →
      exec (.identify tag p) s = .next (answered 0x01#8 tag .ok
        (.identify 24 s.fastLink (decide (s.wakePattern ≠ []))) (serving 0x01#8 tag p s))) ∧
    (∀ c : Scope, p.length = 1 → field8 p 0 = c.val → NextServed 0x20#8 tag p s →
      exec (.eventsRead tag p) s = .next (answered 0x20#8 tag .ok
        (.scope s.flags[c] s.enables[c] (decide (c ∈ s.notices))) (serving 0x20#8 tag p s))) ∧
    (p.length = 1 → field8 p 0 = 255 → NextServed 0x20#8 tag p s →
      exec (.eventsRead tag p) s = .next (answered 0x20#8 tag .ok (.allFlags s.flags.toList) (serving 0x20#8 tag p s))) ∧
    (∀ k : Shelf, p.length = 1 → field8 p 0 = k.val → NextServed 0x03#8 tag p s →
      exec (.shelfRead tag p) s = .next (answered 0x03#8 tag .ok (.shelf (shelfReport s k)) (serving 0x03#8 tag p s))) ∧
    ∀ b : BinIx, p.length = 1 → field8 p 0 = b.val → NextServed 0x12#8 tag p s →
      exec (.binRead tag p) s = .next (answered 0x12#8 tag .ok
        (.bin s.bins[b].capacity s.bins[b].fill s.bins[b].reserved s.bins[b].hold) (serving 0x12#8 tag p s))) ∧
  (∀ (tag : Byte) (p : List Byte) (s : State) (i : Slot), field8 p 0 = i.val →
    (p.length = 2 → NextServed 0x1B#8 tag p s →
      (field8 p 1 = 0 → exec (.slotRead tag p) s =
        .next (answered 0x1B#8 tag .ok (.core (coreReport s i)) (serving 0x1B#8 tag p s))) ∧
      (field8 p 1 = 1 → exec (.slotRead tag p) s =
        .next (answered 0x1B#8 tag .ok (.run (s.slot i).run) (serving 0x1B#8 tag p s))) ∧
      (field8 p 1 = 2 → exec (.slotRead tag p) s =
        .next (answered 0x1B#8 tag .ok (.result (s.slot i).result (s.slot i).reservation (holdPlace s i)
          (s.slot i).ship (s.slot i).diverted) (serving 0x1B#8 tag p s))) ∧
      (2 < field8 p 1 → exec (.slotRead tag p) s =
        .next (answered 0x1B#8 tag .badValue .none (serving 0x1B#8 tag p s)))) ∧
    (p.length = 3 → field16 p 1 ≤ 6143 → NextServed 0x1D#8 tag p s →
      exec (.defectRead tag p) s = .next (answered 0x1D#8 tag .ok
        (let g := (s.slot i).seg
         .defects g.base g.limit g.entries.length g.revision g.overflow ((g.entries.drop (field16 p 1)).take 12))
        (serving 0x1D#8 tag p s))) ∧
    (p.length = 2 → field8 p 1 ≤ 1 → NextServed 0x1E#8 tag p s →
      exec (.headRead tag p) s = .next (answered 0x1E#8 tag .ok
        (let g := (s.slot i).seg
         .heads ((g.heads.toList.drop (8 * field8 p 1)).take 8) g.fullDrops g.overflow g.early g.firstGrown)
        (serving 0x1E#8 tag p s))) ∧
    (p.length = 4 → field16 p 1 ≤ 511 → field8 p 3 ≤ 200 → NextServed 0x1F#8 tag p s →
      exec (.consoleRead tag p) s = .next (answered 0x1F#8 tag .ok
        (let c := (s.slot i).con
         .console ((c.ring.take (c.ring.length - field16 p 1)).drop (c.ring.length - field16 p 1 - field8 p 3))
          c.received c.framingErrors c.ring.length (s.shelf (shelfOf i)).rate (decide ((s.slot i).occ = .testing))
          c.progress) (serving 0x1F#8 tag p s)))) ∧
  (∀ fast wake : Bool, bodyBytes (.identify 24 fast wake) = [24, if fast then 1 else 0, if wake then 1 else 0]) ∧
  (∀ (flags enables : BitVec 32) (pending : Bool),
    bodyBytes (.scope flags enables pending) = setBytes flags ++ setBytes enables ++ [if pending then 1 else 0]) ∧
  (∀ sets : List (BitVec 32), bodyBytes (.allFlags sets) = sets.flatMap setBytes) ∧
  (∀ r : CoreReport, (bodyBytes (.core r)).length ≤ 249) ∧
  (∀ run : Option Run, (∀ r, run = some r → r.outcomes.length ≤ 12) → (bodyBytes (.run run)).length ≤ 249) ∧
  ∀ (result : Option Result) (reservation : Option BinIx) (place : Option Nat) (ship : Option ShipRec) (diverted : Bool),
    (bodyBytes (.result result reservation place ship diverted)).length ≤ 249

/-! ## The events (sections 11.4 and 11.5) -/

/-- Setting a flag: it is set and no other flag changes; the scope joins the tail of the notice list exactly if the flag
was clear, its enable is on and no notice of the scope is pending; nothing else changes (R212, R217). -/
def Obligations.SettingAFlag : Prop :=
  ∀ (c : Scope) (bit : Nat) (s : State), bit < 32 →
    let t := setFlagBit c bit s
    flagSet t c bit = true ∧
      (∀ (d : Scope) (n : Nat), ¬(d = c ∧ n = bit) → flagSet t d n = flagSet s d n) ∧
      t.notices = (if flagSet s c bit = false ∧ s.enables[c].getLsbD bit = true ∧ c ∉ s.notices then s.notices ++ [c]
        else s.notices) ∧
      t = { s with flags := t.flags, notices := t.notices }

/-- EVENTS_CLEAR clears the flags it names but for condition flags whose condition holds, and EVENTS_ENABLE replaces
the enable set, a set flag that becomes enabled making the scope's notice pending; a set with a bit that has no flag,
and a scope above 27, are refused by both (R215, R216). The condition flags are ATTN_HELD of a record at stage HOST,
BIN_WAIT of a slot in that state, SEGMENT_FULL under the overflow mark, SUSPENDED of a suspended phase, and
KEY_MISSING of a shelf with an attaching slot while the wake pattern is empty; the controller has none (R213). -/
def Obligations.ClearingAndEnablingFlags : Prop :=
  (∀ (tag : Byte) (p : List Byte) (s : State), p.length = 5 →
    (∀ c : Scope, field8 p 0 = c.val →
      let set := BitVec.ofNat 32 (field32 p 1)
      (set &&& ~~~(scopeMask c) = 0#32 →
        (NextServed 0x21#8 tag p s →
          let left := s.flags[c] &&& ~~~(set &&& ~~~(conditionsOf s c))
          exec (.eventsClear tag p) s = .next (answered 0x21#8 tag .ok (.flagSet left)
            { serving 0x21#8 tag p s with flags := s.flags.set c left })) ∧
        (NextServed 0x22#8 tag p s →
          exec (.eventsEnable tag p) s = .next (answered 0x22#8 tag .ok (.flagSet set)
            { serving 0x22#8 tag p s with
              enables := s.enables.set c set
              notices := if s.flags[c] &&& set &&& ~~~s.enables[c] = 0#32 ∨ c ∈ s.notices then s.notices
                else s.notices ++ [c] }))) ∧
      (set &&& ~~~(scopeMask c) ≠ 0#32 →
        (NextServed 0x21#8 tag p s →
          exec (.eventsClear tag p) s = .next (answered 0x21#8 tag .badValue .none (serving 0x21#8 tag p s))) ∧
        (NextServed 0x22#8 tag p s →
          exec (.eventsEnable tag p) s = .next (answered 0x22#8 tag .badValue .none (serving 0x22#8 tag p s))))) ∧
    (27 < field8 p 0 →
      (NextServed 0x21#8 tag p s →
        exec (.eventsClear tag p) s = .next (answered 0x21#8 tag .badValue .none (serving 0x21#8 tag p s))) ∧
      (NextServed 0x22#8 tag p s →
        exec (.eventsEnable tag p) s = .next (answered 0x22#8 tag .badValue .none (serving 0x22#8 tag p s))))) ∧
  (∀ (s : State) (i : Slot) (bit : Nat), (conditionsOf s (slotScope i)).getLsbD bit = true ↔
    (bit = slotFlagBit .attnHeld ∧ ∃ a, (s.slot i).attn = some a ∧ a.stage = .host) ∨
      (bit = slotFlagBit .binWait ∧ (s.slot i).occ = .binWait) ∨
      (bit = slotFlagBit .segmentFull ∧ (s.slot i).seg.overflow = true) ∨
      (bit = slotFlagBit .suspended ∧ ∃ run, (s.slot i).run = some run ∧ run.state = .suspended)) ∧
  (∀ (s : State) (k : Shelf) (bit : Nat), (conditionsOf s (shelfScope k)).getLsbD bit = true ↔
    bit = shelfFlagBit .keyMissing ∧ s.wakePattern = [] ∧ ∃ i : Slot, shelfOf i = k ∧ (s.slot i).deadline.isSome) ∧
  ∀ s : State, conditionsOf s controllerScope = 0#32

/-- Every step keeps every set flag within the flags of its scope (R211), each scope in the pending notice list at
most once (R217), and the request queue and the BUSY list within four (R204). -/
def Obligations.StepsKeepFlagsNoticesAndQueues : Prop :=
  ∀ s t : State, step s = .next t →
    (FlagsExist s → FlagsExist t) ∧ (NoticesOnce s → NoticesOnce t) ∧ (QueuesFit s → QueuesFit t)

/-- A set flag stays set through every command but EVENTS_CLEAR and RESET (R212, R215). -/
def Obligations.FlagsStaySet : Prop :=
  ∀ (c : Instr) (s t : State), c ≠ .reset → (∀ tag p, c ≠ .eventsClear tag p) → exec c s = .next t →
    ∀ (d : Scope) (bit : Nat), flagSet s d bit = true → flagSet t d bit = true

/-! ## Shelves (chapters 02, 03, 04, 05, 09) -/

/-- SHELF_SET with a field out of its range, or draws out of order, is refused. Accepted, it replaces the seven
fields. A shelf that stays disabled, or enabled within its limit, has its wait queue examined; one left above its
limit is shed until it is within it (here without runs, bus work or shipping on the shelf), with SHED set (R26, R30,
R42). -/
def Obligations.ShelfSetReplacesTheFields : Prop :=
  ∀ (tag : Byte) (p : List Byte) (s : State) (k : Shelf), p.length = 9 → field8 p 0 = k.val → NextServed 0x02#8 tag p s →
    let ok := field8 p 1 ≤ 1 ∧ field16 p 2 ≤ 2000 ∧ 1 ≤ field8 p 4 ∧ field8 p 4 ≤ field8 p 5 ∧
      field8 p 5 ≤ field8 p 6 ∧ field8 p 6 ≤ 100 ∧ 5 ≤ field8 p 7 ∧ field8 p 7 ≤ 60 ∧ 1 ≤ field8 p 8 ∧ field8 p 8 ≤ 30
    let u := (serving 0x02#8 tag p s).modShelf k fun sh =>
      { sh with
        limit := field16 p 2, idleDraw := field8 p 4, runDraw := field8 p 5, inrushDraw := field8 p 6,
        spinWindow := field8 p 7, bootDelay := field8 p 8 }
    (¬ok → exec (.shelfSet tag p) s = .next (answered 0x02#8 tag .badValue .none (serving 0x02#8 tag p s))) ∧
    (ok → (field8 p 1 = if (s.shelf k).enabled then 1 else 0) →
      ((s.shelf k).enabled = true → committed u k ≤ currentLimit (u.shelf k)) →
      exec (.shelfSet tag p) s = .next (answered 0x02#8 tag .ok .none (examine k u))) ∧
    (ok → field8 p 1 = 1 → (s.shelf k).enabled = true → currentLimit (u.shelf k) < committed u k → BudgetSound s →
      (∀ i : Slot, shelfOf i = k → (s.slot i).run = none ∧ NoWork s i ∧ (s.slot i).occ ≠ .shipping) →
      ∃ t, exec (.shelfSet tag p) s = .next (answered 0x02#8 tag .ok .none t) ∧
        committed t k ≤ currentLimit (t.shelf k) ∧ (t.shelf k).limit = field16 p 2 ∧
        flagSet t (shelfScope k) (shelfFlagBit .shed) = true)

/-- Enabling a shelf whose slots are off admits its HELD slots that nothing else holds, their latches locked: each is
QUEUED, or granted and BOOTING. Disabling a shelf, here with no bus work, attention or shipping of a slot that is on
or runs, switches its slots off, withdraws its queue and holds its slots; a SOAK or DRIVE_TEST is suspended with reason
SHED, a REST counts the interruption, and a POWER_CYCLE counts it and waits for its binding unless it is on its way off
or off. SHED is set exactly if something was withdrawn. Slots of other shelves are untouched (R16, R17, R45, R46, R122,
R124, R125). -/
def Obligations.EnablingAndDisablingAShelf : Prop :=
  ∀ (tag : Byte) (p : List Byte) (s : State) (k : Shelf), p.length = 9 → field8 p 0 = k.val → NextServed 0x02#8 tag p s →
    field16 p 2 ≤ 2000 → 1 ≤ field8 p 4 → field8 p 4 ≤ field8 p 5 → field8 p 5 ≤ field8 p 6 → field8 p 6 ≤ 100 →
    5 ≤ field8 p 7 → field8 p 7 ≤ 60 → 1 ≤ field8 p 8 → field8 p 8 ≤ 30 →
    (field8 p 1 = 1 → (s.shelf k).enabled = false → (s.shelf k).queue = [] →
      (∀ i : Slot, shelfOf i = k → (s.slot i).cls = .off) →
      ∃ t, exec (.shelfSet tag p) s = .next (answered 0x02#8 tag .ok .none t) ∧
        ((t.shelf k).enabled = true ∧ (t.shelf k).limit = field16 p 2 ∧ (t.shelf k).idleDraw = field8 p 4 ∧
          (t.shelf k).runDraw = field8 p 5 ∧ (t.shelf k).inrushDraw = field8 p 6 ∧
          (t.shelf k).spinWindow = field8 p 7 ∧ (t.shelf k).bootDelay = field8 p 8) ∧
        (∀ i : Slot, shelfOf i = k → (s.slot i).occ = .held → ((s.slot i).enabled = true ∨ (s.slot i).run.isSome) →
          (s.slot i).result = none → (s.slot i).unlocked = false →
          ((t.slot i).occ = .powerWait ∧ (t.slot i).adm = .queued ∧ (t.slot i).cls = .off) ∨
            ((t.slot i).occ = .booting ∧ (t.slot i).adm = .booting ∧ (t.slot i).cls = .idle)) ∧
        ∀ i : Slot, shelfOf i ≠ k → t.slot i = s.slot i) ∧
    (field8 p 1 = 0 → (s.shelf k).enabled = true → (∀ e ∈ (s.shelf k).queue, shelfOf e.slot = k) →
      (∀ i : Slot, shelfOf i = k → ((s.slot i).cls = .off ∧ (s.slot i).run = none) ∨
        (NoWork s i ∧ (s.slot i).attn = none ∧ (s.slot i).occ ≠ .shipping ∧
          ((s.slot i).cls = .off → (s.slot i).drive = none))) →
      ∃ t, exec (.shelfSet tag p) s = .next (answered 0x02#8 tag .ok .none t) ∧
        ((t.shelf k).enabled = false ∧ (t.shelf k).queue = [] ∧ committed t k = 0) ∧
        (∀ i : Slot, shelfOf i = k →
          (t.slot i).cls = .off ∧ ((s.slot i).cls ≠ .off → (t.slot i).drive = none) ∧
          ((s.slot i).cls ≠ .off ∨ hasEntry s i .power = true → (t.slot i).adm = .off) ∧
          ((s.slot i).run = none → (t.slot i).run = none ∧
            (t.slot i).occ = (match (s.slot i).occ with
              | .powerWait | .booting | .attaching | .ready | .testing => .held
              | occ => occ)) ∧
          ∀ run body onFail, (s.slot i).run = some run → phaseRec s run = some { body := body, onFail := onFail } →
            ((s.slot i).occ = .powerWait ∨ (s.slot i).occ = .booting ∨ (s.slot i).occ = .attaching ∨
              (s.slot i).occ = .testing) →
            (t.slot i).occ = .held ∧
            let counted : Run := { run with interruptions := min 255 (run.interruptions + 1) }
            (run.state = .suspended → (t.slot i).run = some { run with suspShed := true }) ∧
            (run.state = .pending ∨ run.state = .stopping → (t.slot i).run = some run) ∧
            (run.state = .starting ∨ run.state = .running →
              ((∃ code wall target low high limit, body = .soak code wall target low high limit) ∨
                ((∃ code scan wall, body = .driveTest code scan wall) ∧ run.interruptions ≤ 2) →
                (t.slot i).run = some { counted with state := .suspended, wallTimer := none, suspShed := true } ∧
                  flagSet t (slotScope i) (slotFlagBit .suspended) = true) ∧
              ((∃ duration, body = .rest duration) → (t.slot i).run = some counted) ∧
              ∀ cycles off on, body = .powerCycle cycles off on →
                (t.slot i).run = some (if run.cycleStep = some .spinDown ∨ run.cycleStep = some .offTime then counted
                  else { counted with cycleStep := some .attach, offTimer := none, onTimer := none }))) ∧
        (((s.shelf k).queue ≠ [] ∨ ∃ i : Slot, shelfOf i = k ∧ (s.slot i).cls ≠ .off) →
          flagSet t (shelfScope k) (shelfFlagBit .shed) = true) ∧
        ((s.shelf k).queue = [] → (∀ i : Slot, shelfOf i = k → (s.slot i).cls = .off) →
          flagSet t (shelfScope k) (shelfFlagBit .shed) = flagSet s (shelfScope k) (shelfFlagBit .shed)) ∧
        ∀ i : Slot, shelfOf i ≠ k → t.slot i = s.slot i)

/-- Every step keeps the budgets sound: on each shelf the sum of the commitments stays within the current limit (R30).
-/
def Obligations.StepsKeepBudgetSound : Prop := ∀ s t : State, BudgetSound s → step s = .next t → BudgetSound t

/-- An examination of the wait queue ends with the queue empty or with a head that does not fit, and never carries a
sound shelf above its limit; the three stages of shedding end with the total within the limit (R30, R33, R43). -/
def Obligations.ExaminationAndShedding : Prop :=
  ∀ (k : Shelf) (s : State),
    (∀ e rest, ((examine k s).shelf k).queue = e :: rest → fits (examine k s) k e = false) ∧
    (BudgetSound s → committed (examine k s) k ≤ currentLimit ((examine k s).shelf k)) ∧
    committed (shedStages k s).1 k ≤ currentLimit ((shedStages k s).1.shelf k) ∧
    currentLimit ((shedStages k s).1.shelf k) = currentLimit (s.shelf k)

/-- A POWER grant and a SPIN grant (R34, R36, R37): the class, the ranks later than every rank held on the shelf, the
boot delay, the spin window and its requester. -/
def Obligations.GrantsActOnTheirSlot : Prop :=
  ∀ (s : State) (i : Slot) (by_ : Requester),
    (let t := grantPower i by_ s
     (t.slot i).cls = .idle ∧ (t.slot i).adm = .booting ∧
       (t.slot i).bootTimer = some (s.now + 1000 * (s.shelf (shelfOf i)).bootDelay) ∧
       ((s.slot i).occ = .powerWait → (t.slot i).occ = .booting) ∧
       ((s.slot i).occ ≠ .powerWait → (t.slot i).occ = (s.slot i).occ) ∧
       ∃ rank, (t.slot i).powerRank = some rank ∧
         ∀ j : Slot, shelfOf j = shelfOf i → (∀ m, (s.slot j).powerRank = some m → m < rank) ∧
           ∀ m, (s.slot j).spinRank = some m → m < rank) ∧
    (let t := grantSpin i by_ s
     (t.slot i).cls = .inrush ∧ (t.slot i).spinReq = some by_ ∧
       (t.slot i).spinTimer = some (s.now + 1000 * (s.shelf (shelfOf i)).spinWindow) ∧
       (t.slot i).powerRank = (s.slot i).powerRank ∧
       ∃ rank, (t.slot i).spinRank = some rank ∧
         ∀ j : Slot, shelfOf j = shelfOf i → (∀ m, (s.slot j).powerRank = some m → m < rank) ∧
           ∀ m, (s.slot j).spinRank = some m → m < rank)

/-- A supply line: a change of its raw level starts or stops its stability timer; at the expiry the level is taken, the
flags follow the decode, and with the commitments within the new limit the queue is examined if the limit changed; above
it the shelf is shed (here without runs, bus work or shipping on the shelf) (R28, R30, R42). -/
def Obligations.SupplyLines : Prop :=
  (∀ (k : Shelf) (level : Bool) (s : State), (s.shelf k).rawA ≠ level →
    exec (.supplyLineChange k .ssa level) s = .next (s.modShelf k fun sh =>
      { sh with rawA := level, timerA := if level = sh.lineA then none else some (s.now + 50) })) ∧
  (∀ (k : Shelf) (level : Bool) (s : State), (s.shelf k).rawB ≠ level →
    exec (.supplyLineChange k .ssb level) s = .next (s.modShelf k fun sh =>
      { sh with rawB := level, timerB := if level = sh.lineB then none else some (s.now + 50) })) ∧
  (∀ (k : Shelf) (line : SupplyLine) (s : State), (supplyTimer line (s.shelf k)).isSome →
    let u := s.modShelf k fun sh =>
      match line with
      | .ssa => { sh with lineA := sh.rawA, timerA := none }
      | .ssb => { sh with lineB := sh.rawB, timerB := none }
    ((s.shelf k).enabled = true → committed s k ≤ currentLimit (u.shelf k)) →
    ∃ v, exec (.supplyDebounceExpiry k line) s =
        .next (startTx (if currentLimit (u.shelf k) = currentLimit (s.shelf k) then v else examine k v)) ∧
      v = { u with flags := v.flags, notices := v.notices } ∧
      (((u.shelf k).lineA && (u.shelf k).lineB) = true → ((s.shelf k).lineA && (s.shelf k).lineB) = false →
        flagSet v (shelfScope k) (shelfFlagBit .supplyIllegal) = true) ∧
      (supplyStatus (u.shelf k) ≠ supplyStatus (s.shelf k) →
        flagSet v (shelfScope k) (shelfFlagBit .supplyChange) = true)) ∧
  (∀ (k : Shelf) (line : SupplyLine) (s : State), (supplyTimer line (s.shelf k)).isSome → BudgetSound s →
    (s.shelf k).enabled = true → currentLimit (supplyLevel line (s.shelf k)) < committed s k →
    (∀ i : Slot, shelfOf i = k → (s.slot i).run = none ∧ NoWork s i ∧ (s.slot i).occ ≠ .shipping) →
    ∃ t, exec (.supplyDebounceExpiry k line) s = .next t ∧ committed t k ≤ currentLimit (t.shelf k) ∧
      flagSet t (shelfScope k) (shelfFlagBit .shed) = true) ∧
  (supplyDecode false false = .good ∧ supplyDecode false true = .derated ∧ supplyDecode true false = .failed ∧
    supplyDecode true true = .derated)

/-- BUS_SET and CONSOLE_SET set their shelf's poll interval and console rate; every poll timer of the shelf with more
time left than the new interval is cut to it (R59, R167). KEY_LOAD replaces the wake pattern as a whole; a pattern too
long, or a payload that does not hold the stated number of bytes, is refused, and a shelf that waited for the pattern
with slots attaching opens a round (R75, R79, R206). VECTOR_SET sets the codes of its range to the action and leaves
the others (R101). -/
def Obligations.ShelfTablesAreSet : Prop :=
  (∀ (tag : Byte) (p : List Byte) (s : State) (k : Shelf), p.length = 2 → field8 p 0 = k.val →
    (1 ≤ field8 p 1 → field8 p 1 ≤ 30 → NextServed 0x05#8 tag p s →
      ∃ t, exec (.busSet tag p) s = .next (answered 0x05#8 tag .ok .none t) ∧
        (t.shelf k).pollSecs = field8 p 1 ∧ (∀ l : Shelf, l ≠ k → t.shelf l = s.shelf l) ∧
        ∀ i : Slot, t.slot i = if shelfOf i = k then
            { s.slot i with
              pollTimer := match (s.slot i).pollTimer with
                | some m => some (min m (s.now + 1000 * field8 p 1))
                | none => none }
          else s.slot i) ∧
    (∀ rate, consoleRateOf (field8 p 1) = some rate → NextServed 0x06#8 tag p s →
      exec (.consoleSet tag p) s = .next (answered 0x06#8 tag .ok .none
        ((serving 0x06#8 tag p s).modShelf k fun sh => { sh with rate := rate }))) ∧
    (3 < field8 p 1 → NextServed 0x06#8 tag p s →
      exec (.consoleSet tag p) s = .next (answered 0x06#8 tag .badValue .none (serving 0x06#8 tag p s)))) ∧
  (∀ (tag : Byte) (p : List Byte) (s : State), NextServed 0x07#8 tag p s →
    (p = [] → exec (.keyLoad tag p) s = .next (answered 0x07#8 tag .badLength .none (serving 0x07#8 tag p s))) ∧
    (p ≠ [] → 32 < field8 p 0 →
      exec (.keyLoad tag p) s = .next (answered 0x07#8 tag .badValue .none (serving 0x07#8 tag p s))) ∧
    (p ≠ [] → field8 p 0 ≤ 32 → p.length ≠ 1 + field8 p 0 →
      exec (.keyLoad tag p) s = .next (answered 0x07#8 tag .badLength .none (serving 0x07#8 tag p s))) ∧
    (p.length = 1 + field8 p 0 → field8 p 0 ≤ 32 →
      ((∀ k : Shelf, attachSet s k = [] ∧ (s.shelf k).pass ≠ .keyWait) →
        exec (.keyLoad tag p) s = .next (answered 0x07#8 tag .ok .none
          { serving 0x07#8 tag p s with wakePattern := p.drop 1 })) ∧
      ∃ t, exec (.keyLoad tag p) s = .next (answered 0x07#8 tag .ok .none t) ∧ t.wakePattern = p.drop 1 ∧
        ∀ k : Shelf, 0 < field8 p 0 → (s.shelf k).pass = .keyWait → attachSet s k ≠ [] →
          (t.shelf k).pass = .round .contest)) ∧
  (∀ (tag : Byte) (p : List Byte) (s : State), p.length = 3 → NextServed 0x08#8 tag p s →
    (field8 p 0 < 32 ∨ field8 p 1 < field8 p 0 ∨ 4 < field8 p 2 →
      exec (.vectorSet tag p) s = .next (answered 0x08#8 tag .badValue .none (serving 0x08#8 tag p s))) ∧
    ∀ a, 32 ≤ field8 p 0 → field8 p 0 ≤ field8 p 1 → vectorActionOf (field8 p 2) = some a →
      ∃ v : Vector VectorAction 224,
        exec (.vectorSet tag p) s =
          .next (answered 0x08#8 tag .ok .none { serving 0x08#8 tag p s with vectors := v }) ∧
        ∀ n : Fin 224, v[n] = if field8 p 0 ≤ n.val + 32 ∧ n.val + 32 ≤ field8 p 1 then a else s.vectors[n])

/-- SHELF_RESTART of a shelf whose queue asks no power for a bound slot: every slot of the shelf with a run part loses
run and identity memory and has its segment emptied, and a bound one is READY with its ladder stage at 0; no result
part is formed (R131). TEST_RESET stands pending or in flight on the shelf (R70), also where no slot held a run, which
is the model's reading (log 33). -/
def Obligations.ShelfRestartDropsTheRuns : Prop :=
  ∀ (tag : Byte) (p : List Byte) (s : State) (k : Shelf), p.length = 1 → field8 p 0 = k.val → NextServed 0x04#8 tag p s →
    (∀ e ∈ (s.shelf k).queue, shelfOf e.slot = k ∧ (e.kind = .power → (s.slot e.slot).adm ≠ .bound)) →
    ∃ t, exec (.shelfRestart tag p) s = .next (answered 0x04#8 tag .ok .none t) ∧
      (∀ i : Slot, shelfOf i = k → (s.slot i).run.isSome →
        (t.slot i).run = none ∧ (t.slot i).identity = none ∧ (t.slot i).result = (s.slot i).result ∧
          (t.slot i).seg = Segment.empty (s.slot i).seg.base (s.slot i).seg.limit ∧
          ((s.slot i).adm = .bound → (t.slot i).occ = .ready ∧ (t.slot i).ladder = 0)) ∧
      (∀ i : Slot, shelfOf i ≠ k → t.slot i = s.slot i) ∧
      ((t.shelf k).testReset.isSome ∨ flightIs (fun it => decide (it.cmd = .testReset)) (t.shelf k).phase = true)

/-! ## The tables (chapters 06, 08, 09, 10) -/

/-- PLAN_LOAD with every field in its range replaces the header, unloads the phases and removes the signatures;
PHASE_LOAD of each kind replaces one phase record, and SIGNATURE_LOAD one signature place, a length of 0 making it
absent. A plan in use is refused with IN_USE, a field of PLAN_LOAD out of range with BAD_VALUE before that (R109 to
R112, R171, R208). A SIGNATURE_LOAD shorter than its fixed fields is refused with BAD_LENGTH; then an index or a stated
length out of range with BAD_VALUE, whatever bytes follow; then, its fields in range, other than the stated number of
bytes with BAD_LENGTH, whether or not the plan is in use (R206, R208). -/
def Obligations.PlansAreLoaded : Prop :=
  (∀ (tag : Byte) (p : List Byte) (s : State) (n : PlanIx), p.length = 36 → field8 p 0 = n.val →
    NextServed 0x09#8 tag p s →
    let ok := 1 ≤ field8 p 3 ∧ field8 p 3 ≤ 12 ∧ field16 p 4 ≤ 600 ∧ 4 ≤ field8 p 6 ∧ field8 p 6 ≤ 80 ∧
      2 ≤ field8 p 25 ∧ field8 p 25 ≤ 120 ∧ 10 ≤ field16 p 34 ∧ field16 p 34 ≤ 60000
    (¬ok → exec (.planLoad tag p) s = .next (answered 0x09#8 tag .badValue .none (serving 0x09#8 tag p s))) ∧
    (ok → planInUse s n = true →
      exec (.planLoad tag p) s = .next (answered 0x09#8 tag .inUse .none (serving 0x09#8 tag p s))) ∧
    (ok → planInUse s n = false →
      exec (.planLoad tag p) s = .next (answered 0x09#8 tag .ok .none
        { serving 0x09#8 tag p s with
          plans := s.plans.set n
            { id := field16 p 1, count := field8 p 3, t0 := field16 p 4, step := field8 p 6,
              factors := Vector.ofFn fun m => field16 p (7 + 2 * m.val),
              stale := field8 p 25, perHead := field32 p 26, total := field32 p 30, gap := field16 p 34,
              phases := Vector.replicate 12 none, sigs := Vector.replicate 4 none } }))) ∧
  (∀ (tag : Byte) (p : List Byte) (s : State) (n : PlanIx), field8 p 0 = n.val →
    (∀ body onFail, p.length = 29 → NextServed 0x0A#8 tag p s → field8 p 1 < s.plans[n].count →
      onFailOf (field8 p 3) = some onFail →
      ((field8 p 2 = 0 ∧ 1 ≤ field32 p 6 ∧ field32 p 6 ≤ 262143 ∧ 1 ≤ field32 p 10 ∧ field32 p 10 ≤ 16777215 ∧
          field16 p 14 ≤ field16 p 16 ∧ field16 p 16 ≤ 600 ∧ field16 p 18 ≤ 3600 ∧
          body = .soak (byteAt p 4) (field32 p 6) (field32 p 10) (field16 p 14) (field16 p 16) (field16 p 18)) ∨
        (field8 p 2 = 1 ∧ 1 ≤ field32 p 6 ∧ field32 p 6 ≤ 262143 ∧
          ∃ scan, scanTagOf (field8 p 5) = some scan ∧ body = .driveTest (byteAt p 4) scan (field32 p 6)) ∨
        (field8 p 2 = 2 ∧ 1 ≤ field32 p 20 ∧ field32 p 20 ≤ 86400 ∧ body = .rest (field32 p 20)) ∨
        (field8 p 2 = 3 ∧ 1 ≤ field8 p 24 ∧ 1 ≤ field16 p 25 ∧ field16 p 25 ≤ 600 ∧ field16 p 27 ≤ 3600 ∧
          body = .powerCycle (field8 p 24) (field16 p 25) (field16 p 27))) →
      (planInUse s n = true →
        exec (.phaseLoad tag p) s = .next (answered 0x0A#8 tag .inUse .none (serving 0x0A#8 tag p s))) ∧
      (planInUse s n = false →
        exec (.phaseLoad tag p) s = .next (answered 0x0A#8 tag .ok .none
          { serving 0x0A#8 tag p s with
            plans := s.plans.set n { s.plans[n] with
              phases := s.plans[n].phases.setIfInBounds (field8 p 1)
                (some { body := body, onFail := onFail }) } }))) ∧
    (p.length = 29 → NextServed 0x0A#8 tag p s → s.plans[n].count ≤ field8 p 1 →
      exec (.phaseLoad tag p) s = .next (answered 0x0A#8 tag .badValue .none (serving 0x0A#8 tag p s))) ∧
    (NextServed 0x0B#8 tag p s →
      (4 ≤ p.length → (3 < field8 p 1 ∨ 24 < field8 p 2) →
        exec (.signatureLoad tag p) s = .next (answered 0x0B#8 tag .badValue .none (serving 0x0B#8 tag p s))) ∧
      (4 ≤ p.length → field8 p 1 ≤ 3 → field8 p 2 ≤ 24 → (field8 p 2 = 0 ∨ (tripActionOf (field8 p 3)).isSome) →
        p.length ≠ 4 + field8 p 2 →
        exec (.signatureLoad tag p) s = .next (answered 0x0B#8 tag .badLength .none (serving 0x0B#8 tag p s)))) ∧
    (∀ (sig : Option Signature), p.length = 4 + field8 p 2 → NextServed 0x0B#8 tag p s → field8 p 1 ≤ 3 →
      field8 p 2 ≤ 24 →
      ((field8 p 2 = 0 ∧ sig = none) ∨
        (1 ≤ field8 p 2 ∧ ∃ a, tripActionOf (field8 p 3) = some a ∧ sig = some { bytes := p.drop 4, action := a })) →
      (planInUse s n = true →
        exec (.signatureLoad tag p) s = .next (answered 0x0B#8 tag .inUse .none (serving 0x0B#8 tag p s))) ∧
      (planInUse s n = false →
        exec (.signatureLoad tag p) s = .next (answered 0x0B#8 tag .ok .none
          { serving 0x0B#8 tag p s with
            plans := s.plans.set n { s.plans[n] with
              sigs := s.plans[n].sigs.setIfInBounds (field8 p 1) sig } })))) ∧
  ∀ (tag : Byte) (p : List Byte) (s : State), p.length < 4 → NextServed 0x0B#8 tag p s →
    exec (.signatureLoad tag p) s = .next (answered 0x0B#8 tag .badLength .none (serving 0x0B#8 tag p s))

/-- RULE_LOAD replaces a rule, RULES_SET the three settings, SHIP_ITEM_LOAD an item place and SHIP_LIST_SET the list
count; the last two are refused with IN_USE while a sequence stands at WRITE or READ, and a count over an unloaded
place with BAD_STATE (R181, R182, R190, R208; that RULE_LOAD's bits 9 to 15 are ignored is the model's choice, log
21). SEGMENT_SET replaces a slot's base and limit where the segment lies in the pool and shares no place with another
slot's; a slot with a run or result part refuses with BAD_STATE, after the BAD_VALUE checks (R147). -/
def Obligations.RulesItemsAndSegments : Prop :=
  (∀ (tag : Byte) (p : List Byte) (s : State),
    (∀ (complete : Bool) (b : BinIx), p.length = 33 → NextServed 0x0C#8 tag p s → field8 p 0 ≤ 15 →
      yesNoOf (field8 p 31) = some complete → field8 p 32 = b.val →
      exec (.ruleLoad tag p) s = .next (answered 0x0C#8 tag .ok .none
        { serving 0x0C#8 tag p s with
          rules := s.rules.setIfInBounds (field8 p 0)
            { maxWorst := field32 p 1, maxTotal := field32 p 5, maxGrown := field32 p 9, maxReports := field32 p 13,
              maxFailed := field32 p 17, maxTrips := field32 p 21, maxOob := field32 p 25,
              allowed := BitVec.ofNat 9 (field16 p 29), requireComplete := complete, bin := b } })) ∧
    (∀ d w : BinIx, p.length = 3 → NextServed 0x0D#8 tag p s → field8 p 0 ≤ 16 → field8 p 1 = d.val →
      field8 p 2 = w.val →
      exec (.rulesSet tag p) s = .next (answered 0x0D#8 tag .ok .none
        { serving 0x0D#8 tag p s with ruleCount := field8 p 0, defaultBin := d, reworkBin := w })) ∧
    (p.length = 9 → NextServed 0x0E#8 tag p s →
      (31 < field8 p 0 ∨ field16 p 1 = 0 →
        exec (.shipItemLoad tag p) s = .next (answered 0x0E#8 tag .badValue .none (serving 0x0E#8 tag p s))) ∧
      (field8 p 0 ≤ 31 → field16 p 1 ≠ 0 → shipListInUse s = true →
        exec (.shipItemLoad tag p) s = .next (answered 0x0E#8 tag .inUse .none (serving 0x0E#8 tag p s))) ∧
      (field8 p 0 ≤ 31 → field16 p 1 ≠ 0 → shipListInUse s = false →
        exec (.shipItemLoad tag p) s = .next (answered 0x0E#8 tag .ok .none
          { serving 0x0E#8 tag p s with
            shipItems := s.shipItems.setIfInBounds (field8 p 0)
              (some { id := field16 p 1, value := BitVec.ofNat 32 (field32 p 3),
                      bins := BitVec.ofNat 16 (field16 p 7) }) }))) ∧
    (p.length = 1 → NextServed 0x0F#8 tag p s →
      (32 < field8 p 0 →
        exec (.shipListSet tag p) s = .next (answered 0x0F#8 tag .badValue .none (serving 0x0F#8 tag p s))) ∧
      (field8 p 0 ≤ 32 → (∃ m : Fin 32, m.val < field8 p 0 ∧ s.shipItems[m] = none) →
        exec (.shipListSet tag p) s = .next (answered 0x0F#8 tag .badState .none (serving 0x0F#8 tag p s))) ∧
      (field8 p 0 ≤ 32 → (∀ m : Fin 32, m.val < field8 p 0 → s.shipItems[m] ≠ none) →
        (shipListInUse s = true →
          exec (.shipListSet tag p) s = .next (answered 0x0F#8 tag .inUse .none (serving 0x0F#8 tag p s))) ∧
        (shipListInUse s = false →
          exec (.shipListSet tag p) s = .next (answered 0x0F#8 tag .ok .none
            { serving 0x0F#8 tag p s with shipCount := field8 p 0 }))))) ∧
  (∀ (tag : Byte) (p : List Byte) (s : State) (i : Slot), p.length = 5 → field8 p 0 = i.val → NextServed 0x10#8 tag p s →
    let base := field16 p 1
    let limit := field16 p 3
    let inPool := base + limit ≤ 6144
    let apart := ∀ (j : Slot) (x : Nat), j ≠ i → ¬((base ≤ x ∧ x < base + limit) ∧
      ((s.slot j).seg.base ≤ x ∧ x < (s.slot j).seg.base + (s.slot j).seg.limit))
    (¬(inPool ∧ apart) →
      exec (.segmentSet tag p) s = .next (answered 0x10#8 tag .badValue .none (serving 0x10#8 tag p s))) ∧
    (inPool → apart → ((s.slot i).run.isSome ∨ (s.slot i).result.isSome) →
      exec (.segmentSet tag p) s = .next (answered 0x10#8 tag .badState .none (serving 0x10#8 tag p s))) ∧
    (inPool → apart → (s.slot i).run = none → (s.slot i).result = none →
      exec (.segmentSet tag p) s = .next (answered 0x10#8 tag .ok .none
        ((serving 0x10#8 tag p s).modSlot i fun r => { r with seg := { r.seg with base := base, limit := limit } }))))

/-- BIN_SET sets a capacity that holds the bin's use and refuses any other; lowered to the use it sets BIN_FULL, and
left where it was it sets nothing, which is the model's reading (log 37). TOTE_SWAP empties the bin. As many places as
either makes are given to the slots at the head of the bin's hold queue, in its order (here slots that still come to
their binding, with a drive to ship): each enters SHIPPING with a reservation and a sequence that waits for the
binding, and a grant that fills the bin sets BIN_FULL (R184, R186, R188, R189, R191, R192). A waiting slot that is BOUND
starts its sequence at once: FULL with the WRITE_ITEM of its first selected item, or with STAMP where none is selected,
and REWORK with STAMP (R190 to R193). For one that is OFF the Slot Supervisor asks for power, as far as its shelf is
enabled: the slot waits in the shelf's queue or is switched on (R9, R32). One graded ATTACH_FAIL is powered off and
released to the operator at once (R192, R194). -/
def Obligations.BinsAndTotes : Prop :=
  ∀ (tag : Byte) (p : List Byte) (s : State) (b : BinIx), field8 p 0 = b.val →
    let bin := s.bins[b]
    let granted := fun (t : State) (cap fill : Nat) =>
      let m := min (cap - (fill + bin.reserved)) bin.hold.length
      t.bins[b] = { capacity := cap, fill := fill, reserved := bin.reserved + m, hold := bin.hold.drop m } ∧
        (∀ c : BinIx, c ≠ b → t.bins[c] = s.bins[c]) ∧
        (∀ i : Slot, i ∉ bin.hold.take m → t.slot i = s.slot i) ∧
        (∀ i ∈ bin.hold.take m, t.slot i = { s.slot i with
          reservation := some b, occ := .shipping
          ship := some { path := if (s.slot i).diverted then .rework else .full, step := .waitBind, position := 0,
                         selected := [], failures := 0 } }) ∧
        (0 < m → fill + bin.reserved + m = cap → flagSet t controllerScope (controllerFlagBit .binFull) = true)
    let mayWait := bin.hold.Nodup ∧ ∀ i ∈ bin.hold, (s.slot i).occ = .binWait ∧ (s.slot i).reservation = none ∧
      ((s.slot i).adm = .queued ∨ (s.slot i).adm = .booting ∨ (s.slot i).adm = .attaching) ∧
      ∀ res, (s.slot i).result = some res → res.inputs.stop ≠ .attachFail
    let alone := fun (i : Slot) (cap fill : Nat) => bin.hold = [i] ∧ fill + bin.reserved < cap ∧
      (s.slot i).occ = .binWait ∧ (s.slot i).reservation = none
    let ships := fun (i : Slot) => ∀ res, (s.slot i).result = some res → res.inputs.stop ≠ .attachFail
    let given := fun (t : State) (i : Slot) (cap fill : Nat) =>
      t.bins[b] = { capacity := cap, fill := fill, reserved := bin.reserved + 1, hold := [] } ∧
        (∀ c : BinIx, c ≠ b → t.bins[c] = s.bins[c]) ∧ OtherSlotsSame s t i ∧
        (fill + bin.reserved + 1 = cap → flagSet t controllerScope (controllerFlagBit .binFull) = true)
    let mayAsk := fun (i : Slot) => (s.slot i).adm = .off ∧ (s.slot i).cls = .off ∧ (s.slot i).unlocked = false ∧
      (s.shelf (shelfOf i)).queue = []
    let maySend := fun (i : Slot) => (s.slot i).adm = .bound ∧ (s.slot i).drive.isSome = true ∧
      (s.slot i).silent = false ∧ NoWork s i
    (p.length = 2 → NextServed 0x11#8 tag p s →
      (∀ i : Slot, bin.capacity < field8 p 1 → alone i (field8 p 1) bin.fill →
        (∀ res, (s.slot i).result = some res → ships i → maySend i →
          ∃ t, exec (.binSet tag p) s = .next (answered 0x11#8 tag .ok .none t) ∧
            given t i (field8 p 1) bin.fill ∧ ShipStarts s t i b res) ∧
        (ships i → mayAsk i →
          ∃ t, exec (.binSet tag p) s = .next (answered 0x11#8 tag .ok .none t) ∧
            given t i (field8 p 1) bin.fill ∧ ShipAsksForPower s t i b) ∧
        (∀ res, (s.slot i).result = some res → res.inputs.stop = .attachFail → mayAsk i →
          ∃ t, exec (.binSet tag p) s = .next (answered 0x11#8 tag .ok .none t) ∧
            given t i (field8 p 1) bin.fill ∧ ShippedWithoutDrive s t i b res)) ∧
      (field8 p 1 = 0 ∨ field8 p 1 < bin.fill + bin.reserved →
        exec (.binSet tag p) s = .next (answered 0x11#8 tag .badValue .none (serving 0x11#8 tag p s))) ∧
      (field8 p 1 ≠ 0 → bin.fill + bin.reserved ≤ field8 p 1 → (field8 p 1 ≤ bin.capacity ∨ bin.hold = []) →
        let u := { serving 0x11#8 tag p s with bins := s.bins.set b { bin with capacity := field8 p 1 } }
        exec (.binSet tag p) s = .next (answered 0x11#8 tag .ok .none
          (if bin.fill + bin.reserved = field8 p 1 ∧ field8 p 1 < bin.capacity then raiseController .binFull u
            else u))) ∧
      (bin.fill + bin.reserved ≤ bin.capacity → bin.capacity < field8 p 1 → mayWait →
        ∃ t, exec (.binSet tag p) s = .next (answered 0x11#8 tag .ok .none t) ∧ granted t (field8 p 1) bin.fill)) ∧
    (p.length = 1 → NextServed 0x13#8 tag p s →
      (∀ i : Slot, alone i bin.capacity 0 →
        (∀ res, (s.slot i).result = some res → ships i → maySend i →
          ∃ t, exec (.toteSwap tag p) s = .next (answered 0x13#8 tag .ok .none t) ∧
            given t i bin.capacity 0 ∧ ShipStarts s t i b res) ∧
        (ships i → mayAsk i →
          ∃ t, exec (.toteSwap tag p) s = .next (answered 0x13#8 tag .ok .none t) ∧
            given t i bin.capacity 0 ∧ ShipAsksForPower s t i b) ∧
        (∀ res, (s.slot i).result = some res → res.inputs.stop = .attachFail → mayAsk i →
          ∃ t, exec (.toteSwap tag p) s = .next (answered 0x13#8 tag .ok .none t) ∧
            given t i bin.capacity 0 ∧ ShippedWithoutDrive s t i b res)) ∧
      (bin.hold = [] →
        exec (.toteSwap tag p) s = .next (answered 0x13#8 tag .ok .none
          { serving 0x13#8 tag p s with bins := s.bins.set b { bin with fill := 0 } })) ∧
      (mayWait →
        ∃ t, exec (.toteSwap tag p) s = .next (answered 0x13#8 tag .ok .none t) ∧ granted t bin.capacity 0))

/-- Every step keeps each bin's fill and reserved count within its capacity, the reserved count being the number of
slots that hold a reservation in the bin (R184). -/
def Obligations.StepsKeepBinsSound : Prop :=
  ∀ s t : State, BinsSound s → step s = .next t → BinsSound t

/-- A plan that some slot has armed or runs is changed by no command but RESET (R112). -/
def Obligations.PlanInUseIsFixed : Prop :=
  ∀ (c : Instr) (s t : State) (n : PlanIx), c ≠ .reset → planInUse s n = true → exec c s = .next t →
    t.plans[n] = s.plans[n]

/-! ## The slots (chapters 01 and 05) -/

/-- SLOT_ENABLE: the enabled field takes the value; disabling a slot that waits for power without a run or a result
withdraws its POWER request and holds it; enabling a HELD slot that nothing else holds asks for power (R16, R209).
SLOT_ARM with a complete plan, or with NONE, replaces the armed plan and autostart; where it starts no run, nothing else
changes (R113). -/
def Obligations.EnableAndArm : Prop :=
  ∀ (tag : Byte) (p : List Byte) (s : State) (i : Slot), field8 p 0 = i.val →
    (p.length = 2 → NextServed 0x14#8 tag p s →
      let u := serving 0x14#8 tag p s
      (1 < field8 p 1 → exec (.slotEnable tag p) s = .next (answered 0x14#8 tag .badValue .none u)) ∧
      (field8 p 1 = (if (s.slot i).enabled then 1 else 0) →
        exec (.slotEnable tag p) s = .next (answered 0x14#8 tag .ok .none u)) ∧
      (field8 p 1 = 0 → (s.slot i).enabled = true →
        let v := u.modSlot i fun r => { r with enabled := false }
        exec (.slotEnable tag p) s = .next (answered 0x14#8 tag .ok .none
          (if (s.slot i).occ = .powerWait ∧ (s.slot i).run = none ∧ (s.slot i).result = none then
            setOcc i .held (withdrawEntry i .power v) else v))) ∧
      (field8 p 1 = 1 → (s.slot i).enabled = false →
        let v := u.modSlot i fun r => { r with enabled := true }
        exec (.slotEnable tag p) s = .next (answered 0x14#8 tag .ok .none
          (if (s.slot i).occ = .held ∧ (s.shelf (shelfOf i)).enabled = true ∧ (s.slot i).result = none then
            requestPower i .supervisor v else v)))) ∧
    (∀ auto : Bool, p.length = 3 → NextServed 0x15#8 tag p s → yesNoOf (field8 p 2) = some auto →
      let u := serving 0x15#8 tag p s
      (field8 p 1 = 255 → exec (.slotArm tag p) s = .next (answered 0x15#8 tag .ok .none
        (u.modSlot i fun r => { r with armed := none, autostart := auto }))) ∧
      (4 ≤ field8 p 1 → field8 p 1 ≠ 255 →
        exec (.slotArm tag p) s = .next (answered 0x15#8 tag .badValue .none u)) ∧
      ∀ n : PlanIx, field8 p 1 = n.val →
        (s.plans[n].complete = false → exec (.slotArm tag p) s = .next (answered 0x15#8 tag .badState .none u)) ∧
        (s.plans[n].complete = true →
          (auto = false ∨ (s.slot i).occ ≠ .ready ∨ (s.slot i).result ≠ none ∨ (s.slot i).silent = true) →
          exec (.slotArm tag p) s = .next (answered 0x15#8 tag .ok .none
            (u.modSlot i fun r => { r with armed := some n, autostart := auto }))))

/-- SLOT_START of a READY slot that is bound and spun down, with a complete plan given by its number or as the armed
one: the run record is formed, the identity memory written, the slot enters TESTING, and phase 0 is entered: a SOAK or
DRIVE_TEST asks for SPIN, a REST starts its timer, a POWER_CYCLE powers the slot off and starts its off timer. Where
R114 says so it is refused with BAD_STATE (R114, R117, R122, R123). -/
def Obligations.StartRunsThePlan : Prop :=
  ∀ (tag : Byte) (p : List Byte) (s : State) (i : Slot) (n : PlanIx), p.length = 2 → field8 p 0 = i.val →
    NextServed 0x16#8 tag p s →
    (∀ (d : DrivePart) (rec : PhaseRec), (field8 p 1 = n.val ∨ (field8 p 1 = 254 ∧ (s.slot i).armed = some n)) →
      s.plans[n].complete = true → (s.slot i).occ = .ready → (s.slot i).result = none → (s.slot i).silent = false →
      (s.slot i).drive = some d → (s.slot i).adm = .bound → (s.slot i).cls = .idle →
      s.plans[n].phases[0] = some rec →
      (∀ c o w, rec.body = .powerCycle c o w → NoWork s i ∧ (s.slot i).attn = none) →
      ∃ t, exec (.slotStart tag p) s = .next (answered 0x16#8 tag .ok .none t) ∧
        (t.slot i).occ = .testing ∧ (t.slot i).identity = some d.ident ∧ (t.slot i).armed = (s.slot i).armed ∧
        (t.slot i).autostart = (s.slot i).autostart ∧
        match rec.body with
        | .soak .. | .driveTest .. =>
          (t.slot i).run = some { newRun n s.plans[n] with state := .starting } ∧
            ((t.slot i).cls = .inrush ∨ ((t.slot i).cls = .idle ∧ hasEntry t i .spin = true))
        | .rest duration =>
          (t.slot i).run = some { newRun n s.plans[n] with
            state := .running, wallTimer := some (s.now + 1000), restTimer := some (s.now + 1000 * duration) }
        | .powerCycle _ offTime _ =>
          (t.slot i).run = some { newRun n s.plans[n] with
            state := .running, wallTimer := some (s.now + 1000), cycleStep := some .offTime,
            offTimer := some (s.now + 1000 * offTime) } ∧
            (t.slot i).cls = .off ∧ (t.slot i).adm = .off ∧ (t.slot i).drive = none) ∧
    (((field8 p 1 = n.val ∧ ((s.slot i).occ ≠ .ready ∨ (s.slot i).result ≠ none ∨ (s.slot i).silent = true ∨
        s.plans[n].complete = false)) ∨ (field8 p 1 = 254 ∧ (s.slot i).armed = none)) →
      exec (.slotStart tag p) s = .next (answered 0x16#8 tag .badState .none (serving 0x16#8 tag p s)))

/-- SLOT_ABORT: a running test is stopped with the stop HOST_ABORT pending; a phase already STOPPING keeps its outcome
and takes the pending stop; a run that has a stop pending keeps it, with the answer OK in TESTING and BAD_STATE in every
other state; a READY slot without a run or a result is graded HOST_ABORT, here into a bin with no free place; every other
slot refuses with BAD_STATE (R128, R130, R178, R185). -/
def Obligations.AbortStopsTheRun : Prop :=
  ∀ (tag : Byte) (p : List Byte) (s : State) (i : Slot), p.length = 1 → field8 p 0 = i.val → NextServed 0x17#8 tag p s →
    (∀ run, TestGoing s i run → ((s.slot i).occ = .testing ∨ (s.slot i).occ = .held) →
      ∃ t, exec (.slotAbort tag p) s = .next (answered 0x17#8 tag .ok .none t) ∧ OtherSlotsSame s t i ∧
        StoppingWith t i run { outcome := .aborted, reason := .hostAbort, detail := 0 } (some .hostAbort)) ∧
    (∀ run, (s.slot i).run = some run → ((s.slot i).occ = .testing ∨ (s.slot i).occ = .held) → run.stop = none →
      run.state = .stopping → run.phase + 1 < run.outcomes.length →
      exec (.slotAbort tag p) s = .next (answered 0x17#8 tag .ok .none
        ((serving 0x17#8 tag p s).modSlot i fun r =>
          { r with run := some { run with stop := some .hostAbort } }))) ∧
    (∀ run, (s.slot i).run = some run → run.stop.isSome →
      ((s.slot i).occ = .testing →
        exec (.slotAbort tag p) s = .next (answered 0x17#8 tag .ok .none (serving 0x17#8 tag p s))) ∧
      ((s.slot i).occ ≠ .testing →
        exec (.slotAbort tag p) s = .next (answered 0x17#8 tag .badState .none (serving 0x17#8 tag p s)))) ∧
    (∀ b : BinIx, (s.slot i).run = none → (s.slot i).occ = .ready → (s.slot i).result = none →
      (s.slot i).adm = .bound → (formResult s i .hostAbort).bin = some b →
      (s.bins[b].hold ≠ [] ∨ s.bins[b].capacity ≤ s.bins[b].fill + s.bins[b].reserved) →
      ∃ t, exec (.slotAbort tag p) s = .next (answered 0x17#8 tag .ok .none t) ∧
        (t.slot i).result = some (formResult s i .hostAbort) ∧ (t.slot i).occ = .binWait ∧
        t.bins[b] = { s.bins[b] with hold := s.bins[b].hold ++ [i] } ∧
        flagSet t (slotScope i) (slotFlagBit .planEnd) = true ∧
        flagSet t (slotScope i) (slotFlagBit .binWait) = true) ∧
    ((((s.slot i).run = none ∧ ¬((s.slot i).occ = .ready ∧ (s.slot i).result = none)) ∨
        ((s.slot i).run.isSome ∧ (s.slot i).occ ≠ .testing ∧ (s.slot i).occ ≠ .held)) →
      exec (.slotAbort tag p) s = .next (answered 0x17#8 tag .badState .none (serving 0x17#8 tag p s)))

/-- SLOT_UNLOCK: refused in EMPTY; in REMOVE_READY the latch is energized anew for 120 s; a HELD or waiting slot
without a run is released to the operator with its POWER request withdrawn. Every other slot is switched off and
released: a run is graded PULLED with bin NONE, and so is a slot with neither run nor result; a result that is pending
is kept with bin NONE; a slot in BIN_WAIT or SHIPPING also leaves its hold queue or its reservation (here one that no
other slot waits for) (R18, R19, R20, R199). -/
def Obligations.UnlockReleasesTheSlot : Prop :=
  ∀ (tag : Byte) (p : List Byte) (s : State) (i : Slot), p.length = 1 → field8 p 0 = i.val → NextServed 0x18#8 tag p s →
    ((s.slot i).occ = .empty →
      exec (.slotUnlock tag p) s = .next (answered 0x18#8 tag .badState .none (serving 0x18#8 tag p s))) ∧
    ((s.slot i).occ = .removeReady → (s.slot i).cls = .off → queued s i = false →
      exec (.slotUnlock tag p) s = .next (answered 0x18#8 tag .ok .none
        ((serving 0x18#8 tag p s).modSlot i fun r =>
          { r with unlocked := true, unlockTimer := some (s.now + 120000) }))) ∧
    (((s.slot i).occ = .held ∨ (s.slot i).occ = .powerWait) → (s.slot i).run = none → (s.slot i).cls = .off →
      hasEntry s i .spin = false →
      ∃ t, exec (.slotUnlock tag p) s = .next (answered 0x18#8 tag .ok .none t) ∧
        (t.slot i).occ = .removeReady ∧ (t.slot i).unlocked = true ∧ (t.slot i).unlockTimer = some (s.now + 120000) ∧
        (t.slot i).cls = .off ∧ (t.slot i).result = (s.slot i).result ∧ hasEntry t i .power = false ∧
        (hasEntry s i .power = true → (t.slot i).adm = .off)) ∧
    (NoWork s i → OffIsBare s i → (s.slot i).occ ≠ .empty → (s.slot i).occ ≠ .removeReady →
      ((s.slot i).result = none → ((s.slot i).run.isSome ∨ ((s.slot i).occ ≠ .held ∧ (s.slot i).occ ≠ .powerWait)) →
        ∃ t, exec (.slotUnlock tag p) s = .next (answered 0x18#8 tag .ok .none t) ∧ ReleasedWithoutDrive s t i ∧
          (t.slot i).run = none ∧ ResultWithoutTote t i .pulled ∧
          flagSet t (slotScope i) (slotFlagBit .planEnd) = true) ∧
      (∀ res d, (s.slot i).occ = .ready → (s.slot i).run = none → (s.slot i).result = some res →
        (s.slot i).cls ≠ .off → (s.slot i).drive = some d →
        ∃ t, exec (.slotUnlock tag p) s = .next (answered 0x18#8 tag .ok .none t) ∧ ReleasedWithoutDrive s t i ∧
          (t.slot i).adm = .off ∧ (t.slot i).result = some { res with bin := none, shipped := false } ∧
          (t.shelf (shelfOf i)).nodes[d.node] = .free) ∧
      ∀ res, ((s.slot i).occ = .binWait ∨ (s.slot i).occ = .shipping) → (s.slot i).run = none →
        (s.slot i).result = some res → NobodyWaits s i →
        ∃ t, exec (.slotUnlock tag p) s = .next (answered 0x18#8 tag .ok .none t) ∧ ReleasedWithoutDrive s t i ∧
          OutOfTotes s t i ∧ (t.slot i).result = some { res with bin := none, shipped := false })

/-- Every step keeps a latch energized only while its slot's switch is off and nothing of the slot waits for power
(R18). -/
def Obligations.StepsKeepLatchSafe : Prop :=
  ∀ s t : State, LatchSafe s → step s = .next t → LatchSafe t

/-- SLOT_LOCATE sets the locate override to its clamped time whatever the slot's state; while it runs the amber
indicator is FAST and the green keeps its pattern; its expiry ends it (R22, R23). SLOT_RETIRE of an EMPTY, HELD or
READY slot with a result part discards the result and the identity memory, empties the segment and the console counts,
and has a HELD slot re-examined; in every other case it is refused (R16, R21, R164, R169). ATTN_ACK of a record held
at stage HOST with the code it names releases the record: its stage is PART, its clear is submitted, and the
last-attention outcome is ACKED; without such a record it is refused with BAD_STATE (R103, R104). -/
def Obligations.LocateAckAndRetire : Prop :=
  ((∀ (tag : Byte) (p : List Byte) (s : State) (i : Slot), p.length = 3 → field8 p 0 = i.val → NextServed 0x19#8 tag p s →
    exec (.slotLocate tag p) s = .next (answered 0x19#8 tag .ok .none
      ((serving 0x19#8 tag p s).modSlot i fun r =>
        { r with locateTimer := some (s.now + 1000 * max 1 (min 255 (field16 p 1))) }))) ∧
  (∀ (r : SlotRec) (m : Nat), r.locateTimer = some m →
    indicators r = ((indicators { r with locateTimer := none }).1, .fast)) ∧
  ∀ (i : Slot) (s : State),
    exec (.locateOverrideExpiry i) s = .next (s.modSlot i fun r => { r with locateTimer := none })) ∧
  (∀ (tag : Byte) (p : List Byte) (s : State) (i : Slot), p.length = 1 → field8 p 0 = i.val → NextServed 0x1A#8 tag p s →
    let r := s.slot i
    (r.result.isSome → (r.occ = .empty ∨ r.occ = .held ∨ r.occ = .ready) →
      let u := (serving 0x1A#8 tag p s).modSlot i fun r =>
        { r with
          result := none, identity := none, summary := none, diverted := false,
          seg := Segment.empty r.seg.base r.seg.limit,
          con := { r.con with ring := [], received := 0, framingErrors := 0 } }
      exec (.slotRetire tag p) s = .next (answered 0x1A#8 tag .ok .none
        (if r.occ = .held ∧ (s.shelf (shelfOf i)).enabled = true ∧ (r.enabled = true ∨ r.run.isSome) then
          requestPower i .supervisor u else u))) ∧
    (r.result = none ∨ (r.occ ≠ .empty ∧ r.occ ≠ .held ∧ r.occ ≠ .ready) →
      exec (.slotRetire tag p) s = .next (answered 0x1A#8 tag .badState .none (serving 0x1A#8 tag p s)))) ∧
  (∀ (tag : Byte) (p : List Byte) (s : State) (i : Slot), p.length = 2 → field8 p 0 = i.val → NextServed 0x1C#8 tag p s →
    (∀ a, (s.slot i).attn = some a → a.stage = .host → a.code = byteAt p 1 → (s.slot i).drive.isSome →
      (s.slot i).silent = false → pendingItem (s.shelf (shelfOf i)).work i .attnClear = none →
      ∃ t, exec (.attnAck tag p) s = .next (answered 0x1C#8 tag .ok .none t) ∧ OtherSlotsSame s t i ∧
        t.slot i = { s.slot i with
          attn := some { a with stage := .part, clearPending := true },
          summary := (s.slot i).summary.map fun m => { m with outcome := .acked } } ∧
        pendingOrInFlight t i .attnClear = true) ∧
    (((s.slot i).attn = none ∨ ∃ a, (s.slot i).attn = some a ∧ (a.stage = .part ∨ a.code ≠ byteAt p 1)) →
      exec (.attnAck tag p) s = .next (answered 0x1C#8 tag .badState .none (serving 0x1C#8 tag p s))))

/-! ## The lines and the timers of the slots (chapters 01 to 04) -/

/-- A change of a presence or activity line starts the stability timer, or stops it at a return to the debounced
level; the activity's expiry takes the level and reports the edge to an open locate window (R11, R12, R85). That every
edge of the window is taken by one rule, so that a slot which rose, fell and rose again within 100 ms is pulsing, is
the model's choice (log 22). -/
def Obligations.PresenceAndActivityLines : Prop :=
  (∀ (i : Slot) (level : Bool) (s : State), (s.slot i).presRaw ≠ level →
    exec (.presenceLineChange i level) s = .next (s.modSlot i fun r =>
      { r with presRaw := level, presTimer := if level = r.present then none else some (s.now + 250) })) ∧
  (∀ (i : Slot) (level : Bool) (s : State), (s.slot i).actRaw ≠ level →
    exec (.activityLineChange i level) s = .next (s.modSlot i fun r =>
      { r with actRaw := level, actTimer := if level = r.active then none else some (s.now + 5) })) ∧
  ∀ (i : Slot) (s : State), (s.slot i).actTimer.isSome → (s.slot i).active ≠ (s.slot i).actRaw →
    ∃ t, exec (.activityDebounceExpiry i) s = .next t ∧ OtherSlotsSame s t i ∧
      t.slot i = { s.slot i with active := (s.slot i).actRaw, actTimer := none } ∧
      (∀ k : Shelf, k ≠ shelfOf i → t.shelf k = s.shelf k) ∧
      ∀ n ident opened pulsing left,
        (s.shelf (shelfOf i)).pass = .round (.window n ident opened pulsing left) →
        ∃ pulsing', (t.shelf (shelfOf i)).pass = .round (.window n ident opened pulsing' left) ∧
          ((s.slot i).actRaw = true → s.now - opened ≤ 100 → i ∈ pulsing') ∧
          ((s.slot i).actRaw = true → 100 < s.now - opened → pulsing' = pulsing) ∧
          ((s.slot i).actRaw = false → s.now - opened < 350 → i ∉ pulsing') ∧
          ((s.slot i).actRaw = false → 350 ≤ s.now - opened → pulsing' = pulsing) ∧
          ∀ j : Slot, j ≠ i → (j ∈ pulsing' ↔ j ∈ pulsing)

/-- The debounced presence settles: an insertion in EMPTY sets INSERTED and, its latch locked, asks for power or is held;
a removal in
REMOVE_READY is the drive's normal exit, with its reservation turned into a filled place; a removal in any other state
is a loss: the slot is EMPTY and off without its drive, a run is graded LOST with bin NONE, and a slot in BIN_WAIT or
SHIPPING leaves its hold queue or its reservation (here one that no other slot waits for) (R11, R13, R14, R15, R187,
R199). -/
def Obligations.PresenceSettles : Prop :=
  ∀ (i : Slot) (s : State), (s.slot i).presTimer.isSome →
    ((s.slot i).presRaw = true → (s.slot i).present = false → (s.slot i).occ = .empty →
      ∃ t, exec (.presenceDebounceExpiry i) s = .next t ∧ (t.slot i).present = true ∧ (t.slot i).presTimer = none ∧
        flagSet t (slotScope i) (slotFlagBit .inserted) = true ∧ (t.slot i).armed = (s.slot i).armed ∧
        (t.slot i).locateTimer = (s.slot i).locateTimer ∧
        ((s.shelf (shelfOf i)).enabled = true → (s.slot i).enabled = true → (s.slot i).result = none →
          (s.slot i).cls = .off → (s.slot i).unlocked = false →
          ((t.slot i).occ = .powerWait ∧ (t.slot i).adm = .queued ∧ hasEntry t i .power = true) ∨
            ((t.slot i).occ = .booting ∧ (t.slot i).adm = .booting ∧ (t.slot i).cls = .idle)) ∧
        (((s.shelf (shelfOf i)).enabled = false ∨ (s.slot i).enabled = false ∨ (s.slot i).result ≠ none) →
          (t.slot i).occ = .held)) ∧
    ((s.slot i).presRaw = false → (s.slot i).present = true → (s.slot i).occ = .removeReady →
      ∃ t, exec (.presenceDebounceExpiry i) s = .next t ∧ OtherSlotsSame s t i ∧
        t.slot i = { s.slot i with
          occ := .empty, present := false, presTimer := none, unlocked := false, unlockTimer := none,
          reservation := none, ladder := 0, ladderInReady := false } ∧
        flagSet t (slotScope i) (slotFlagBit .removed) = true ∧
        ∀ b : BinIx, t.bins[b] = if (s.slot i).reservation = some b then
            { s.bins[b] with reserved := s.bins[b].reserved - 1, fill := s.bins[b].fill + 1 }
          else s.bins[b]) ∧
    ((s.slot i).presRaw = false → (s.slot i).present = true → (s.slot i).occ ≠ .empty → (s.slot i).occ ≠ .removeReady →
      NoWork s i → OffIsBare s i →
      ((s.slot i).run = none → (s.slot i).occ ≠ .binWait → (s.slot i).occ ≠ .shipping →
        ∃ t, exec (.presenceDebounceExpiry i) s = .next t ∧ LostSlot t i ∧ (t.slot i).result = (s.slot i).result ∧
          (t.slot i).identity = (s.slot i).identity) ∧
      (∀ run, (s.slot i).run = some run → (s.slot i).result = none → (s.slot i).occ ≠ .binWait →
        (s.slot i).occ ≠ .shipping →
        ∃ t, exec (.presenceDebounceExpiry i) s = .next t ∧ LostSlot t i ∧ ResultWithoutTote t i .lost ∧
          (t.slot i).identity = (s.slot i).identity ∧ flagSet t (slotScope i) (slotFlagBit .planEnd) = true) ∧
      ∀ res, ((s.slot i).occ = .binWait ∨ (s.slot i).occ = .shipping) → (s.slot i).run = none →
        (s.slot i).result = some res → NobodyWaits s i →
        ∃ t, exec (.presenceDebounceExpiry i) s = .next t ∧ LostSlot t i ∧ OutOfTotes s t i ∧
          (t.slot i).result = some { res with bin := none, shipped := false })

/-- The unlock hold time runs out and the latch locks; the reset pulse ends and the boot delay starts; the boot delay
runs out and the slot is ATTACHING, in the attaching set with a deadline of 30 s that stands while the wake pattern is
empty, and an idle pass begins (R4, R5, R18, R65, R76, R77, R79). -/
def Obligations.SlotTimersExpire : Prop :=
  ∀ (i : Slot) (s : State),
    ((s.slot i).unlockTimer.isSome → exec (.unlockHoldExpiry i) s = .next (s.modSlot i fun r =>
      { r with unlocked := false, unlockTimer := none })) ∧
    ((s.slot i).pulseTimer.isSome → exec (.resetPulseEnd i) s = .next (s.modSlot i fun r =>
      { r with pulseTimer := none, bootTimer := some (s.now + 1000 * (s.shelf (shelfOf i)).bootDelay) })) ∧
    ((s.slot i).bootTimer.isSome →
      ∃ t, exec (.bootDelayExpiry i) s = .next t ∧ (t.slot i).adm = .attaching ∧ (t.slot i).bootTimer = none ∧
        (t.slot i).occ = (if (s.slot i).occ = .booting then .attaching else (s.slot i).occ) ∧
        (t.slot i).deadline = some (if s.wakePattern = [] then .paused 30000 else .running (s.now + 30000)) ∧
        ((s.shelf (shelfOf i)).pass = .idle → (t.shelf (shelfOf i)).mismatches = 0 ∧
          (t.shelf (shelfOf i)).pass = if s.wakePattern = [] then .keyWait else .round .contest) ∧
        (s.wakePattern = [] → flagSet t (shelfScope (shelfOf i)) (shelfFlagBit .keyMissing) = true))

/-- The spin window of a slot runs out: the slot returns to the idle draw and loses its spin rank, and the queue is
examined; a phase in STARTING that the spin was for fails with reason SPIN, and the run goes on (R39, R118, R127). -/
def Obligations.SpinWindowExpires : Prop :=
  ∀ (i : Slot) (s : State), (s.slot i).spinTimer.isSome → (s.slot i).cls = .inrush →
    ((s.slot i).spinReq ≠ some .planRunner ∨ (s.slot i).run = none →
      exec (.spinWindowExpiry i) s = .next (startTx (examine (shelfOf i) (s.modSlot i fun r =>
        { r with cls := .idle, spinRank := none, spinTimer := none, spinReq := none })))) ∧
    ∀ run duration body, (s.slot i).run = some run → (s.slot i).spinReq = some .planRunner → run.state = .starting →
      run.decided = none → (s.slot i).adm = .bound →
      phaseRec s run = some { body := body, onFail := .continue } → RestFollows s run duration →
      ∃ t, exec (.spinWindowExpiry i) s = .next t ∧
        RestEntered s t i run { outcome := .fail, reason := .spin, detail := 0 } duration

/-- The attach deadline runs out: ATTACH_FAILED is set and the deadline stands at 0 or goes with the power; a slot
with a result part is switched off and held, a slot in BIN_WAIT is switched off, and one without run and result is
graded ATTACH_FAIL, here into a bin with no free place (R7, R10, R78). The pause of a pass ends (R79). The locate
window closes (R86): one pulsing slot that is attaching is BINDING and READ_INFO goes to its node; one that has left
the set in the window lets the node go free; any other one, or several, set BUS_FAULT and give the node up; none gives
the node up and waits for its RELEASE (R87). That a node given up stands CANDIDATE until its RELEASE has ended is the
model's reading (log 25). -/
def Obligations.AttachTimersExpire : Prop :=
  ((∀ (i : Slot) (s : State) (m : Nat), (s.slot i).deadline = some (.running m) → (s.slot i).run = none →
    (s.slot i).drive = none → (s.slot i).cls ≠ .off →
    ((s.slot i).occ ≠ .binWait → (s.slot i).occ ≠ .shipping → (s.slot i).result.isSome →
      ∃ t, exec (.attachDeadlineExpiry i) s = .next t ∧ (t.slot i).occ = .held ∧ (t.slot i).cls = .off ∧
        (t.slot i).adm = .off ∧ (t.slot i).deadline = none ∧ (t.slot i).result = (s.slot i).result ∧
        flagSet t (slotScope i) (slotFlagBit .attachFailed) = true) ∧
    ((s.slot i).occ = .binWait →
      ∃ t, exec (.attachDeadlineExpiry i) s = .next t ∧ (t.slot i).occ = .binWait ∧ (t.slot i).cls = .off ∧
        (t.slot i).adm = .off ∧ (t.slot i).deadline = none ∧
        flagSet t (slotScope i) (slotFlagBit .attachFailed) = true) ∧
    ∀ b : BinIx, (s.slot i).occ = .attaching → (s.slot i).adm = .attaching → (s.slot i).result = none →
      (formResult s i .attachFail).bin = some b →
      (s.bins[b].hold ≠ [] ∨ s.bins[b].capacity ≤ s.bins[b].fill + s.bins[b].reserved) →
      ∃ t, exec (.attachDeadlineExpiry i) s = .next t ∧ (t.slot i).occ = .binWait ∧ (t.slot i).cls = .off ∧
        (t.slot i).adm = .off ∧ (t.slot i).result = some (formResult s i .attachFail) ∧
        t.bins[b] = { s.bins[b] with hold := s.bins[b].hold ++ [i] } ∧
        flagSet t (slotScope i) (slotFlagBit .attachFailed) = true ∧
        flagSet t (slotScope i) (slotFlagBit .planEnd) = true) ∧
  ∀ (k : Shelf) (s : State) (reason : PauseReason) (m : Nat), (s.shelf k).pass = .paused reason m →
    ∃ t, exec (.attachPauseExpiry k) s = .next t ∧ t.slots = s.slots ∧
      (t.shelf k).pass = if attachSet s k = [] then .idle else if s.wakePattern = [] then .keyWait
        else .round .contest) ∧
  (∀ (k : Shelf) (s : State) (n : NodeIx) (ident : Identity) (opened : Nat) (pulsing left : List Slot),
    (s.shelf k).pass = .round (.window n ident opened pulsing left) → allOff s k = false →
    ∃ t, exec (.locateWindowClose k) s = .next t ∧ t.slots = s.slots ∧
      (∀ i : Slot, pulsing = [i] → (s.slot i).deadline.isSome →
        (t.shelf k).pass = .round (.readInfo n ident i 1) ∧ (t.shelf k).nodes[n] = .binding i ∧
          AttachPending t k (.readInfo n)) ∧
      (∀ i : Slot, pulsing = [i] → (s.slot i).deadline = none → i ∈ left → (t.shelf k).nodes[n] = .free) ∧
      (∀ i : Slot, pulsing = [i] → (s.slot i).deadline = none → i ∉ left →
        (t.shelf k).nodes[n] = .candidate ∧ AttachPending t k (.release n) ∧
          flagSet t (shelfScope k) (shelfFlagBit .busFault) = true) ∧
      (2 ≤ pulsing.length → (t.shelf k).nodes[n] = .candidate ∧ AttachPending t k (.release n) ∧
        flagSet t (shelfScope k) (shelfFlagBit .busFault) = true) ∧
      (pulsing = [] → (t.shelf k).nodes[n] = .candidate ∧ AttachPending t k (.release n) ∧
        (t.shelf k).pass = .round (.release n) ∧ t.flags = s.flags))

/-- The outcome of READ_INFO (R88): a miss is tried again, the third gives the node up, and so does a reply with a
head count out of range, which sets the shelf's PROTOCOL. A right reply forms the drive part, binds the node, ends the
deadline and submits the first POLL (R89), and the slot goes where R6 says: a fresh drive to READY, or to TESTING with
autostart; a drive back in its run to TESTING, where a suspended phase asks for SPIN; a different drive stops the run
with SWAP and bin NONE; in BIN_WAIT and SHIPPING an equal drive, or one the slot remembers none for, stays, its
sequence going on from WAIT_BIND (R192), and a different one ends both (R199). (That a node given up stands CANDIDATE
until its RELEASE has ended is log 25.) -/
def Obligations.BindingCompletes : Prop :=
  ∀ (i : Slot) (s : State) (n : NodeIx) (ident : Identity) (attempt : Nat) (wire : Bool),
    ReadInfoWindow s i n ident attempt →
    let k := shelfOf i
    let givenUp := fun (t : State) => (t.shelf k).nodes[n] = .candidate ∧ AttachPending t k (.release n) ∧
      t.slots = s.slots
    (attempt < 3 → ∃ t, exec (.replyWindowClose k wire) s = .next t ∧ t.slots = s.slots ∧
      (t.shelf k).pass = .round (.readInfo n ident i (attempt + 1)) ∧ AttachPending t k (.readInfo n)) ∧
    (3 ≤ attempt → ∃ t, exec (.replyWindowClose k wire) s = .next t ∧ givenUp t) ∧
    ∀ info : List Byte, info.length = 7 →
      (field8 info 6 = 0 ∨ 16 < field8 info 6 →
        ∃ t, exec (.replyFrameReceived k (busReply n .readInfo info) wire) s = .next t ∧ givenUp t ∧
          flagSet t (shelfScope k) (shelfFlagBit .protocol) = true) ∧
      (1 ≤ field8 info 6 → field8 info 6 ≤ 16 →
        let r := s.slot i
        let formed : DrivePart := { ident := ident, node := n, maxLba := field48 info 0, heads := field8 info 6,
                                    motor := .stopped, missed := 0 }
        let bound := fun (t : State) => (t.slot i).drive = some formed ∧ (t.shelf k).nodes[n] = .bound i ∧
          (t.slot i).deadline = none ∧ (t.slot i).adm = .bound ∧
          (t.slot i).pollTimer = some (s.now + 1000 * (s.shelf k).pollSecs) ∧ (t.slot i).poll = none ∧
          (t.slot i).temp.valid = false ∧ pendingOrInFlight t i .poll = true
        let attached := fun (t : State) => bound t ∧ flagSet t (slotScope i) (slotFlagBit .attached) = true
        let swapped := fun (t : State) => bound t ∧ flagSet t (slotScope i) (slotFlagBit .swap) = true ∧
          (t.slot i).occ = .ready ∧ (t.slot i).identity = none ∧ (t.slot i).run = none
        ∃ t, exec (.replyFrameReceived k (busReply n .readInfo info) wire) s = .next t ∧
          (r.run = none → r.occ ≠ .binWait → r.occ ≠ .shipping →
            (r.result.isSome ∨ r.armed = none ∨ r.autostart = false →
              attached t ∧ (t.slot i).occ = .ready ∧ (t.slot i).run = none ∧ (t.slot i).result = r.result) ∧
            ∀ (p : PlanIx) (rec : PhaseRec), r.result = none → r.armed = some p → r.autostart = true →
              s.plans[p].phases[0] = some rec → (∀ c o w, rec.body ≠ .powerCycle c o w) →
              attached t ∧ (t.slot i).occ = .testing ∧ (t.slot i).identity = some ident ∧
                ∃ run, (t.slot i).run = some run ∧ run.plan = p ∧ run.phase = 0 ∧
                  run.state = match rec.body with
                    | .rest _ => .running
                    | _ => .starting) ∧
          (∀ run body onFail, r.run = some run → r.identity = some ident → r.cls = .idle →
            phaseRec s run = some { body := body, onFail := onFail } →
            (run.state = .pending → ∀ cycles off on, body ≠ .powerCycle cycles off on) →
            attached t ∧ (t.slot i).occ = .testing ∧ (t.slot i).identity = some ident ∧
              (run.state = .suspended → (t.slot i).run = some run ∧
                ((t.slot i).cls = .inrush ∨ ((t.slot i).cls = .idle ∧ hasEntry t i .spin = true))) ∧
              ∀ cycles off on, body = .powerCycle cycles off on → run.state = .running →
                (t.slot i).run = some { run with cycleStep := some .spin, offTimer := none, onTimer := none } ∧
                  ((t.slot i).cls = .inrush ∨ ((t.slot i).cls = .idle ∧ hasEntry t i .spin = true))) ∧
          (∀ run other, r.run = some run → r.result = none → r.identity = some other → other ≠ ident →
            swapped t ∧ ResultWithoutTote t i .swap) ∧
          ((r.occ = .binWait ∨ r.occ = .shipping) → r.run = none → r.identity = none ∨ r.identity = some ident →
            attached t ∧ (t.slot i).occ = r.occ ∧ (t.slot i).result = r.result ∧
            ∀ rec res b, r.ship = some rec → rec.step = .waitBind → r.result = some res → res.bin = some b →
              (rec.path = .full → ∃ items, items = selectedItems s (some b) ∧
                (t.slot i).ship = some { rec with
                  step := if items = [] then .stamp else .write, position := 0, selected := items } ∧
                ∀ first rest, items = first :: rest → SlotPending t i (.writeItem first.id first.value)) ∧
              (rec.path = .rework → (t.slot i).ship = some { rec with step := .stamp } ∧
                SlotPending t i (.stamp b res.ruleIndex res.planId res.inputs.runDose res.inputs.stop))) ∧
          ∀ res other, (r.occ = .binWait ∨ r.occ = .shipping) → r.run = none → r.result = some res →
            r.identity = some other → other ≠ ident → NobodyWaits s i →
            swapped t ∧ OutOfTotes s t i ∧ (t.slot i).result = some { res with bin := none, shipped := false })

/-- Every step keeps each node map in agreement with the drive parts: a node is BOUND to a slot exactly if that slot's
drive part holds it (R90). -/
def Obligations.StepsKeepNodeMapSound : Prop :=
  ∀ s t : State, NodeMapSound s → step s = .next t → NodeMapSound t

/-! ## The factory bus (chapters 03 to 05) -/

/-- The data wire: its level, the start of a waiting transaction after the quiet time, the stuck wire, and the end of
a command frame: a CONTEST and an ATTN_QUERY go on with their bit periods, a kind with a reply opens its window of 10
ms, a WAKE and a TEST_RESET end and the arbiter chooses (R50, R55, R70, R71; where the quiet time and the stuck timer
start is the model's reading, log 32). -/
def Obligations.DataWireAndCommandFrames : Prop :=
  ∀ (k : Shelf) (s : State),
    ((s.shelf k).dataHigh = false → exec (.dataWireLevelChange k true) s = .next (s.modShelf k fun sh =>
      { sh with dataHigh := true, highSince := s.now, stuckTimer := none })) ∧
    ((s.shelf k).dataHigh = true →
      ∃ told, exec (.dataWireLevelChange k false) s = .next (s.modShelf k fun sh =>
        { sh with
          dataHigh := false
          stuckTold := told
          stuckTimer := match sh.phase with
            | .waiting _ => some (s.now + 50)
            | _ => none }) ∧
        (s.now - (s.shelf k).highSince < 1 → told = (s.shelf k).stuckTold) ∧
        (1 ≤ s.now - (s.shelf k).highSince → told = false)) ∧
    (∀ f, (s.shelf k).phase = .waiting f → (s.shelf k).dataHigh = true →
      exec (.quietTimeMet k) s = .next (s.modShelf k fun sh =>
        { sh with phase := .sending f, stuckTimer := none, stuckTold := false })) ∧
    ((s.shelf k).stuckTimer.isSome →
      let u := s.modShelf k fun sh => { sh with stuckTimer := none, stuckTold := true }
      exec (.busWireStuck k) s =
        .next (startTx (if (s.shelf k).stuckTold = true then u else raiseShelf k .busFault u))) ∧
    ∀ f, (s.shelf k).phase = .sending f →
      (f.item.cmd.kind = .contest → exec (.commandFrameEnd k) s =
        .next (s.modShelf k fun sh => { sh with phase := .contending f, highSince := s.now })) ∧
      (f.item.cmd.kind = .attnQuery → exec (.commandFrameEnd k) s =
        .next (s.modShelf k fun sh => { sh with phase := .nodeBits f, highSince := s.now })) ∧
      (expectsReply f.item.cmd.kind = true → f.item.cmd.kind ≠ .attnQuery → exec (.commandFrameEnd k) s =
        .next (s.modShelf k fun sh => { sh with phase := .window f (s.now + 10), highSince := s.now })) ∧
      (f.node = none → f.item.shelf = k → f.item.slot = none →
        ((∃ pattern, f.item.cmd = .wake pattern ∧ f.item.owner = .attachUnit) ∨
          (f.item.cmd = .testReset ∧ f.item.owner = .planRunner)) →
        exec (.commandFrameEnd k) s = .next (startTx (choose k (s.modShelf k fun sh =>
          { sh with phase := .ending, highSince := s.now, stuckTimer := none }))))

/-- The reading of a contest (R81 to R84): all ones is no contender and pauses the pass for 1 s; a value whose check
byte is right for its serial and model gives the lowest free node to that identity by ASSIGN, or, with no node free,
sets BUS_FAULT and pauses; a wrong check byte counts a mismatch, and the third sets BUS_FAULT and pauses. -/
def Obligations.ContestIsRead : Prop :=
  (∀ (ident : Identity) (check : Byte), contestIdentity (ident.serial ++ ident.model ++ check) = ident ∧
    contestCheck (ident.serial ++ ident.model ++ check) = check) ∧
  (identityCheck ⟨1, 0⟩ = 0x15#8 ∧ identityCheck ⟨1, 1⟩ = 0x12#8) ∧
  ∀ (k : Shelf) (s : State) (v : BitVec 64),
    (s.shelf k).phase = .contending
      { item := { shelf := k, slot := none, cmd := .contest, owner := .attachUnit },
        node := none, dropped := false, orphan := false } →
    (s.shelf k).pass = .round .contest →
    ∃ t, exec (.contestEnd k v) s = .next t ∧ t.slots = s.slots ∧
      (v = BitVec.allOnes 64 →
        (t.shelf k).pass = .paused .noContender (s.now + 1000) ∧ (t.shelf k).mismatches = 0) ∧
      (v ≠ BitVec.allOnes 64 → identityCheck (contestIdentity v) = contestCheck v → (t.shelf k).mismatches = 0 ∧
        (∀ n : NodeIx, (s.shelf k).nodes[n] = .free → (∀ m : NodeIx, m < n → (s.shelf k).nodes[m] ≠ .free) →
          (t.shelf k).pass = .round (.assign n (contestIdentity v)) ∧ (t.shelf k).nodes[n] = .candidate ∧
            AttachPending t k (.assign n)) ∧
        ((∀ n : NodeIx, (s.shelf k).nodes[n] ≠ .free) →
          (t.shelf k).pass = .paused .fault (s.now + 1000) ∧
            flagSet t (shelfScope k) (shelfFlagBit .busFault) = true)) ∧
      (v ≠ BitVec.allOnes 64 → identityCheck (contestIdentity v) ≠ contestCheck v →
        ((s.shelf k).mismatches < 2 → (t.shelf k).mismatches = (s.shelf k).mismatches + 1 ∧
          (attachSet s k ≠ [] → s.wakePattern ≠ [] → (t.shelf k).pass = .round .contest)) ∧
        (2 ≤ (s.shelf k).mismatches → (t.shelf k).mismatches = 0 ∧
          (t.shelf k).pass = .paused .fault (s.now + 1000) ∧
          flagSet t (shelfScope k) (shelfFlagBit .busFault) = true))

/-- The attention wire: its assertion adds an ATTN_QUERY unless one stands or the hold-off runs; the node bits of a
query name the node whose reply is awaited; a value that names none sets BUS_FAULT unless it is all ones with the wire
released, and a wire still asserted starts the hold-off of 1 s, whose end adds a query (R68, R69; log 10). -/
def Obligations.AttentionWireIsServed : Prop :=
  (∀ (k : Shelf) (s : State), ∃ t, exec (.attentionWireAsserted k) s = .next t ∧ t.slots = s.slots ∧
    (t.shelf k).attnWire = true ∧ ((s.shelf k).holdoff = none → QueryPending t k) ∧
    (QueryPending s k ∨ (s.shelf k).holdoff.isSome →
      (t.shelf k).attnWide = (s.shelf k).attnWide ∧ (t.shelf k).phase = (s.shelf k).phase)) ∧
  (∀ (k : Shelf) (s : State) (wire : Bool), (s.shelf k).holdoff.isSome →
    ∃ t, exec (.attnHoldoffExpiry k wire) s = .next t ∧ t.slots = s.slots ∧ (t.shelf k).holdoff = none ∧
      (wire = true → QueryPending t k)) ∧
  ∀ (k : Shelf) (s : State) (v : BitVec 4) (wire : Bool) (f : Flight), (s.shelf k).phase = .nodeBits f →
    f = { item := { shelf := k, slot := none, cmd := .attnQuery none, owner := .attentionUnit },
          node := none, dropped := false, orphan := false } →
    (∀ n : NodeIx, v.toNat = n.val + 1 → exec (.attnQueryNodeRead k v wire) s = .next (s.modShelf k fun sh =>
      { sh with
        attnWire := wire
        highSince := s.now
        phase := .window { f with node := some n, item := { f.item with cmd := .attnQuery (some n) } }
          (s.now + 10) })) ∧
    ((v = 0#4 ∨ 8 < v.toNat) →
      ∃ t, exec (.attnQueryNodeRead k v wire) s = .next t ∧ t.slots = s.slots ∧ (t.shelf k).attnWire = wire ∧
        (t.shelf k).holdoff = (if wire then some (s.now + 1000) else (s.shelf k).holdoff) ∧
        (wire = true ∨ v ≠ 0xF#4 → flagSet t (shelfScope k) (shelfFlagBit .busFault) = true) ∧
        (wire = false → v = 0xF#4 → t.flags = s.flags))

/-- The end of a transaction in its reply window. The ack of a START_TEST puts its phase in RUNNING; the reply of a POLL
(here of a slot without a run, not in service, no entry waiting on the shelf) reaches the drive part, the poll record
and the temperature record, and a ready motor in INRUSH closes the window at RUN; the reply of an ATTN_QUERY (here of a
code with the action NOTIFY_HOLD) captures the attention, held at stage HOST; each sets the missed count to
0 (R38, R50, R60, R61, R96, R102, R118, R134). -/
def Obligations.RepliesAreTaken : Prop :=
  ∀ (k : Shelf) (s : State) (i : Slot) (n : NodeIx) (d : DrivePart) (closes : Nat) (wire : Bool) (f : Flight),
    (s.shelf k).phase = .window f closes → f.node = some n → f.dropped = false → f.orphan = false →
    f.item.shelf = k → (s.slot i).drive = some d → slotOfNode s k n = some i → shelfOf i = k →
    (∀ run code, f.item.slot = some i → f.item.cmd = .startTest code run.phase → f.item.owner = .planRunner →
      (s.slot i).run = some run → run.state = .starting →
      ∃ t, exec (.replyFrameReceived k (busReply n .startTest []) wire) s = .next t ∧ OtherSlotsSame s t i ∧
        t.slot i = { s.slot i with
          run := some { run with state := .running, wallTimer := some (s.now + 1000) },
          drive := some { d with missed := 0 } }) ∧
    (∀ (test : TestState) (motor : Motor) (tb mb th tl progress : Byte), f.item.slot = some i → f.item.cmd = .poll →
      f.item.owner = .busController → (s.slot i).run = none → (s.shelf k).queue = [] →
      testStateOf tb.toNat = some test → motorOf mb.toNat = some motor →
      ∃ t, exec (.replyFrameReceived k (busReply n .poll [tb, mb, th, tl, progress, 0]) wire) s = .next t ∧
        OtherSlotsSame s t i ∧ (t.slot i).drive = some { d with motor := motor, missed := 0 } ∧
        (t.slot i).poll = some { test := test, progress := min 100 progress.toNat, inService := false,
                                 moment := s.now } ∧
        (256 * th.toNat + tl.toNat ≤ 600 →
          (t.slot i).temp = { valid := true, t := 256 * th.toNat + tl.toNat, moment := s.now }) ∧
        (600 < 256 * th.toNat + tl.toNat → (t.slot i).temp = (s.slot i).temp) ∧
        (t.slot i).cls = if (s.slot i).cls = .inrush ∧ motor = .ready then .run else (s.slot i).cls) ∧
    ∀ (code detail : Byte), f.item.cmd = .attnQuery (some n) → f.item.owner = .attentionUnit →
      (s.shelf k).nodes[n] = .bound i → (s.slot i).silent = false → (s.slot i).attn = none →
      32 ≤ code.toNat → actionOf s code = .notifyHold →
      ∃ t, exec (.replyFrameReceived k (busReply n .attnQuery [code, detail]) wire) s = .next t ∧
        OtherSlotsSame s t i ∧
        (∃ a, (t.slot i).attn = some a ∧ a.code = code ∧ a.detail = detail ∧ a.stage = .host ∧
          a.phase = (s.slot i).run.map Run.phase) ∧
        (t.slot i).summary = some { code := code, detail := detail, phase := (s.slot i).run.map Run.phase,
                                    outcome := .held } ∧
        (t.slot i).drive = some { d with missed := 0 } ∧
        flagSet t (slotScope i) (slotFlagBit .attnHeld) = true ∧ (wire = true → (s.shelf k).holdoff = none →
          QueryPending t k)

/-- A POLL falls due: its timer starts again from the full interval, and a POLL stands pending for a drive that
answers (R58). The miss of a node clear changes no slot, whoever holds the node by then (R96). A POLL whose window
closes without a reply raises the missed count; at 3 the slot is UNRESPONSIVE, and with two ladder stages used the
drive is SILENT (R50, R61, R62, R63, R67; that the stage stays 3 is the model's choice, log 20). -/
def Obligations.PollsAndMisses : Prop :=
  (∀ (i : Slot) (s : State), (s.slot i).pollTimer.isSome →
    ∃ t, exec (.pollTimerExpiry i) s = .next t ∧ OtherSlotsSame s t i ∧
      t.slot i = { s.slot i with pollTimer := some (s.now + 1000 * (s.shelf (shelfOf i)).pollSecs) } ∧
      ((s.slot i).drive.isSome → (s.slot i).silent = false → pendingOrInFlight t i .poll = true)) ∧
  (∀ (k : Shelf) (s : State) (n : NodeIx) (closes : Nat) (wire : Bool),
    (s.shelf k).phase = .window
      { item := { shelf := k, slot := none, cmd := .nodeClear n, owner := .attentionUnit },
        node := some n, dropped := false, orphan := false } closes →
    ∃ t, exec (.replyWindowClose k wire) s = .next t ∧ t.slots = s.slots ∧ t.flags = s.flags) ∧
  ∀ (k : Shelf) (s : State) (i : Slot) (n : NodeIx) (d : DrivePart) (closes : Nat) (wire : Bool),
    (s.shelf k).phase = .window
      { item := { shelf := k, slot := some i, cmd := .poll, owner := .busController },
        node := some n, dropped := false, orphan := false } closes →
    (s.slot i).drive = some d → slotOfNode s k n = some i → (s.slot i).silent = false →
    (d.missed < 2 →
      ∃ t, exec (.replyWindowClose k wire) s = .next t ∧ OtherSlotsSame s t i ∧
        t.slot i = { s.slot i with drive := some { d with missed := d.missed + 1 } } ∧ t.flags = s.flags) ∧
    (d.missed = 2 → (s.slot i).ladder = 2 → (s.slot i).occ = .ready →
      ∃ t, exec (.replyWindowClose k wire) s = .next t ∧ OtherSlotsSame s t i ∧
        t.slot i = { s.slot i with
          drive := some { d with missed := 3 }, ladder := 3, silent := true, pollTimer := none } ∧
        flagSet t (slotScope i) (slotFlagBit .unresponsive) = true)

/-- A miss that makes the slot unresponsive runs the next stage of its ladder, UNRESPONSIVE being set (R61 to R66).
Stage 1 of a READY slot spins it down, starts a reset pulse of 200 ms and discards its drive part, and the slot is
BOOTING; stage 2 switches the slot off and asks for its power again, but in BIN_WAIT it stays off. A miss of the SHIP
class counts as three at once: its stage 1 is the first failure of a sequence on the FULL path, which waits for the
binding with its reservation kept (R195, R196). The third missed poll of a running SOAK or DRIVE_TEST suspends it at
stage 1 (R125). -/
def Obligations.LadderStages : Prop :=
  ∀ (i : Slot) (s : State) (n : NodeIx) (d : DrivePart) (wire : Bool),
    let k := shelfOf i
    let pulsed := fun (t : State) => (t.slot i).ladder = 1 ∧ (t.slot i).pulseTimer = some (s.now + 200) ∧
      (t.slot i).adm = .booting ∧ (t.slot i).cls = .idle ∧ (t.slot i).drive = none ∧ (t.slot i).silent = false ∧
      (t.shelf k).nodes[n] = .free ∧ flagSet t (slotScope i) (slotFlagBit .unresponsive) = true
    (s.slot i).cls ≠ .off → hasEntry s i .power = false → (hasEntry s i .spin = true → (s.slot i).cls = .idle) →
    (SlotWindow s i n d .poll .busController → d.missed = 2 → (s.slot i).run = none →
      ((s.slot i).ladder = 0 → (s.slot i).occ = .ready →
        ∃ t, exec (.replyWindowClose k wire) s = .next t ∧ pulsed t ∧ (t.slot i).occ = .booting ∧
          (t.slot i).ladderInReady = true ∧ hasEntry t i .spin = false) ∧
      ((s.slot i).ladder = 1 → (s.slot i).occ = .ready ∨ (s.slot i).occ = .binWait →
        ∃ t, exec (.replyWindowClose k wire) s = .next t ∧ (t.slot i).ladder = 2 ∧ (t.slot i).drive = none ∧
          flagSet t (slotScope i) (slotFlagBit .unresponsive) = true ∧
          ((s.slot i).occ = .binWait → (t.slot i).occ = .binWait ∧ (t.slot i).cls = .off ∧ (t.slot i).adm = .off ∧
            hasEntry t i .power = false) ∧
          ((s.slot i).occ = .ready → (s.shelf k).enabled = true → (s.slot i).unlocked = false →
            ((t.slot i).occ = .powerWait ∧ (t.slot i).adm = .queued ∧ (t.slot i).cls = .off ∧
                hasEntry t i .power = true) ∨
              ((t.slot i).occ = .booting ∧ (t.slot i).adm = .booting ∧ (t.slot i).cls = .idle)))) ∧
    (∀ id value rec, SlotWindow s i n d (.writeItem id value) .shipUnit → (s.slot i).ship = some rec →
      rec.path = .full → rec.step = .write → rec.failures = 0 → (s.slot i).ladder = 0 → (s.slot i).occ = .shipping →
      ∃ t, exec (.replyWindowClose k wire) s = .next t ∧ pulsed t ∧ (t.slot i).occ = .shipping ∧
        (t.slot i).reservation = (s.slot i).reservation ∧
        ∃ rec', (t.slot i).ship = some rec' ∧ rec'.path = .full ∧ rec'.step = .waitBind ∧ rec'.position = 0 ∧
          rec'.failures = 1) ∧
    ∀ run body onFail, SlotWindow s i n d .poll .busController → d.missed = 2 → (s.slot i).ladder = 0 →
      (s.slot i).occ = .testing → (s.slot i).attn = none → (s.slot i).run = some run →
      (run.state = .starting ∨ run.state = .running) → phaseRec s run = some { body := body, onFail := onFail } →
      ((∃ code wall target low high limit, body = .soak code wall target low high limit) ∨
        ((∃ code scan wall, body = .driveTest code scan wall) ∧ run.interruptions ≤ 2)) →
      ∃ t, exec (.replyWindowClose k wire) s = .next t ∧ pulsed t ∧ (t.slot i).occ = .booting ∧
        (t.slot i).run = some { run with
          state := .suspended, wallTimer := none, suspRecovery := true,
          interruptions := min 255 (run.interruptions + 1) } ∧
        flagSet t (slotScope i) (slotFlagBit .suspended) = true

/-- The outcomes of a FETCH (R100), for a reply without reports or a slot without a run: a remaining count of 0
finishes the loop and submits the record's clear (R103); reports with more to come set the empty fetches to 0 and a
FETCH follows; an empty reply with more to come counts one, and the third finishes the loop with PROTOCOL set and the
run's defects incomplete. A miss marks the run's defects incomplete and a FETCH follows; a reply with a field out of
range also finishes the loop. -/
def Obligations.FetchLoopRuns : Prop :=
  ∀ (i : Slot) (s : State) (n : NodeIx) (d : DrivePart) (a : AttnRecord) (p : FetchProgress) (wire : Bool),
    SlotWindow s i n d .fetch .attentionUnit → (s.slot i).attn = some a → a.fetch = some p → p.finished = false →
    let k := shelfOf i
    let incomplete := (s.slot i).run.map fun run => { run with incomplete := true }
    let answers := { s.slot i with drive := some { d with missed := 0 } }
    let finished := fun (p' : FetchProgress) =>
      some { a with fetch := some { p' with finished := true }, clearPending := true }
    (∀ (body : List Byte) (l : List DefectReport) (r : Nat), body.length = 10 * l.length + 1 →
      replyFields .fetch body = some (.reports l r) → (l = [] ∨ (s.slot i).run = none) →
      let p' : FetchProgress := { p with received := min 65535 (p.received + l.length), remaining := some r }
      ∃ t, exec (.replyFrameReceived k (busReply n .fetch body) wire) s = .next t ∧ OtherSlotsSame s t i ∧
        (r = 0 → t.slot i = { answers with attn := finished p' } ∧ SlotPending t i .attnClear) ∧
        (0 < r → l ≠ [] → t.slot i = { answers with attn := some { a with fetch := some { p' with empties := 0 } } } ∧
          SlotPending t i .fetch) ∧
        (0 < r → l = [] → p.empties < 2 →
          t.slot i = { answers with attn := some { a with fetch := some { p' with empties := p.empties + 1 } } } ∧
            SlotPending t i .fetch) ∧
        (0 < r → l = [] → 2 ≤ p.empties →
          t.slot i = { answers with attn := finished { p' with empties := p.empties + 1 }, run := incomplete } ∧
            SlotPending t i .attnClear ∧ flagSet t (slotScope i) (slotFlagBit .protocol) = true)) ∧
    (d.missed < 2 → ∃ t, exec (.replyWindowClose k wire) s = .next t ∧ OtherSlotsSame s t i ∧
      t.slot i = { s.slot i with drive := some { d with missed := d.missed + 1 }, run := incomplete } ∧
      SlotPending t i .fetch) ∧
    ∀ body : List Byte, body.length % 10 = 1 → body.length ≤ 60 → replyFields .fetch body = none →
      ∃ t, exec (.replyFrameReceived k (busReply n .fetch body) wire) s = .next t ∧ OtherSlotsSame s t i ∧
        t.slot i = { answers with attn := finished p, run := incomplete } ∧ SlotPending t i .attnClear ∧
        flagSet t (slotScope i) (slotFlagBit .protocol) = true

/-- The arbiter serves the classes in strict order: the oldest ATTACH item, else the oldest shelf-wide ATTENTION item;
a per-slot item of a class is taken only while no class above holds one, from the first position after the class's
pointer whose slot has an item of the class, the first in the order of the kinds within that slot, and the pointer
moves there; a TEST_RESET comes before the per-slot items of CONTROL and after those of ATTENTION; with nothing
pending the wire is free (R54, R55). -/
def Obligations.ArbiterServesInOrder : Prop :=
  ∀ (k : Shelf) (s : State),
    let t := choose k s
    let sh := s.shelf k
    (∀ it rest, sh.attachList = it :: rest → flightIs (fun x => decide (x = it)) (t.shelf k).phase = true ∧
      (t.shelf k).attachList = rest ∧ (t.shelf k).work = sh.work) ∧
    (∀ it rest, sh.attachList = [] → sh.attnWide = it :: rest →
      flightIs (fun x => decide (x = it)) (t.shelf k).phase = true ∧ (t.shelf k).attnWide = rest ∧
      (t.shelf k).work = sh.work) ∧
    (sh.attachList = [] → sh.attnWide = [] → ∀ c : BusClass, c ≠ .attach → (c ≠ .attention → sh.testReset = none) →
      ∀ (n : Position) (it : Item), it ∈ sh.work →
      it.slot = some (slotAt k (pointerOf sh.pointers c + 1 + n)) → PerSlot c it.cmd.kind →
      (∀ x ∈ sh.work, classPlace c ≤ classPlace (classOf x.cmd.kind)) →
      (∀ m : Position, m < n → ∀ x ∈ sh.work, x.slot = some (slotAt k (pointerOf sh.pointers c + 1 + m)) →
        ¬PerSlot c x.cmd.kind) →
      (∀ x ∈ sh.work, x.slot = it.slot → PerSlot c x.cmd.kind → x ≠ it → kindPlace it.cmd.kind < kindPlace x.cmd.kind) →
      flightIs (fun x => decide (x = it)) (t.shelf k).phase = true ∧
        pointerOf (t.shelf k).pointers c = pointerOf sh.pointers c + 1 + n ∧
        (∀ c' : BusClass, c' ≠ c → pointerOf (t.shelf k).pointers c' = pointerOf sh.pointers c') ∧
        (t.shelf k).testReset = sh.testReset ∧ ∀ x, x ∈ (t.shelf k).work ↔ x ∈ sh.work ∧ x ≠ it) ∧
    (∀ it, sh.attachList = [] → sh.attnWide = [] → sh.testReset = some it →
      (∀ x ∈ sh.work, ¬PerSlot .attention x.cmd.kind) →
      flightIs (fun x => decide (x = it)) (t.shelf k).phase = true ∧ (t.shelf k).testReset = none ∧
        (t.shelf k).work = sh.work ∧ (t.shelf k).pointers = sh.pointers) ∧
    (sh.attachList = [] → sh.attnWide = [] → sh.testReset = none →
      (∀ x ∈ sh.work, ∀ c : BusClass, ¬PerSlot c x.cmd.kind ∨ c = .attach) → (t.shelf k).phase = .free) ∧
    t.slots = s.slots

/-! ## Runs and dose (chapters 06 and 07) -/

/-- The causes that stop a running test: STOP_PHASE and ABORT_PLAN from a vector or a signature, OVER_TEMP,
DRIVE_FAULT and EARLY_STOP. Each decides the phase, submits STOP_TEST and leaves the phase STOPPING; the stops of R128
are held pending (R102, R119, R120, R128, R176; which report is taken is the model's choice, log 5). A stop that waits
and finds the phase STOPPING is held pending and leaves the decided outcome; it is dropped where another stop is pending,
or where the last phase is STOPPING toward completion (R128, R129; that this holds of the TRIP of a signature too, of
which R176 says that it is held pending in STOPPING, is the model's choice, log 18). -/
def Obligations.ReportsStopTheTest : Prop :=
  (∀ (i : Slot) (s : State) (run : Run) (reason : StopReason) (v : Verdict), (s.slot i).run = some run →
    run.state = .stopping →
    let completes := run.phase + 1 = run.outcomes.length ∧ ∃ w rec, run.decided = some w ∧
      phaseRec s run = some rec ∧
      (w.outcome = .pass ∨ (w.outcome = .fail ∧ rec.onFail = .continue ∧ w.reason ≠ .noAttach))
    (run.stop.isSome ∨ completes → act (.waitStop i reason v) s = (s, [])) ∧
    (run.stop = none → ¬completes → act (.waitStop i reason v) s =
      (s.modSlot i fun r => { r with run := some { run with stop := some reason } }, []))) ∧
  ∀ (i : Slot) (s : State) (run : Run) (code : Byte), TestGoing s i run →
    (TakenNow s i (.stopPhase .vector code) → ∃ t, exec (.stopPhase i .vector code) s = .next t ∧
      StoppingWith t i run { outcome := .fail, reason := .vector, detail := code.toNat } none) ∧
    (TakenNow s i (.stopPhase .signature code) → ∃ t, exec (.stopPhase i .signature code) s = .next t ∧
      StoppingWith t i run { outcome := .fail, reason := .trip, detail := 0 } none) ∧
    (TakenNow s i (.abortPlan .vector code) → ∃ t, exec (.abortPlan i .vector code) s = .next t ∧
      StoppingWith t i run { outcome := .fail, reason := .vector, detail := code.toNat } (some .vector)) ∧
    (TakenNow s i (.abortPlan .signature code) → ∃ t, exec (.abortPlan i .signature code) s = .next t ∧
      StoppingWith t i run { outcome := .fail, reason := .trip, detail := 0 } (some .trip)) ∧
    (TakenNow s i .overTemp → ∃ t, exec (.overTemp i) s = .next t ∧
      StoppingWith t i run { outcome := .fail, reason := .thermal, detail := 0 } none) ∧
    (TakenNow s i .driveFault → ∃ t, exec (.driveFault i) s = .next t ∧
      StoppingWith t i run { outcome := .fail, reason := .driveFault, detail := 0 } (some .driveFault)) ∧
    (TakenNow s i .earlyStop → ∃ t, exec (.earlyStop i) s = .next t ∧
      StoppingWith t i run { outcome := .fail, reason := .earlyStop, detail := 0 } (some .earlyStop))

/-- Phases that end of themselves, each followed by a REST on a bound slot: a live PHASE_DONE of a DRIVE_TEST and the
expiries of a REST and of a POWER_CYCLE's last on time end PASS, a live PHASE_FAILED ends FAIL DRIVE with the drive's
reason and goes on by on-fail CONTINUE. The ended phase's entry is written, PHASE_END is set, and the REST is entered
(R99, R119, R120, R122, R123, R127, R144; which report is taken is the model's choice, log 5). -/
def Obligations.PhasesEndAndTheRunGoesOn : Prop :=
  ∀ (i : Slot) (s : State) (run : Run) (duration : Nat), (s.slot i).run = some run → run.state = .running →
    run.decided = none → (s.slot i).adm = .bound → RestFollows s run duration →
    (∀ code scan wall onFail, phaseRec s run = some { body := .driveTest code scan wall, onFail := onFail } →
      TakenNow s i (.phaseDone run.phase) →
      ∃ t, exec (.phaseDone i run.phase) s = .next t ∧
        RestEntered s t i run { outcome := .pass, reason := .none, detail := 0 } duration) ∧
    (∀ (body : PhaseBody) (reason : Byte), phaseRec s run = some { body := body, onFail := .continue } →
      runsTest s run = true → TakenNow s i (.phaseFailed run.phase reason) →
      ∃ t, exec (.phaseFailed i run.phase reason) s = .next t ∧
        RestEntered s t i run { outcome := .fail, reason := .drive, detail := reason.toNat } duration) ∧
    (∀ seconds onFail, phaseRec s run = some { body := .rest seconds, onFail := onFail } → run.restTimer.isSome →
      ∃ t, exec (.restExpiry i) s = .next t ∧
        RestEntered s t i run { outcome := .pass, reason := .none, detail := 0 } duration) ∧
    ∀ cycles off on onFail, phaseRec s run = some { body := .powerCycle cycles off on, onFail := onFail } →
      run.onTimer.isSome → run.cycleStep = some .onTime → cycles ≤ run.cyclesDone + 1 →
      ∃ t, exec (.onTimeExpiry i) s = .next t ∧
        RestEntered s t i run { outcome := .pass, reason := .none, detail := 0 } duration

/-- A suspension with the drive still bound stops its test, and the outcome of that STOP_TEST changes nothing (R125).
The fourth interruption of a DRIVE_TEST ends it FAIL INTERRUPTED, at once where the drive part has gone (R125): its entry
is written, the ladder stage returns to 0, PHASE_END is set and the REST that follows is entered (R63, R117, R120, R122,
R127, R144). An interruption of a POWER_CYCLE moves it to ATTACH where the drive part has gone, and back to SPIN where it
is bound (R124). A ready motor in the spin window resumes a suspended phase: its reasons are emptied, a DRIVE_TEST counts
its wall seconds anew, START_TEST is submitted, and every phase-end report that still waits is stale from then on (R126).
A stale phase-end report changes nothing of the run when it is taken; the attention's summary becomes STALE and its
ATTN_CLEAR is submitted (R98, R99, R103). That the report waits to be taken by a command of its own, the oldest of its
source first, is the model's choice (log 5). That the clear goes out at that taking, if the report still owes it, and that
the summary becomes STALE then, if it is still that attention's, is the model's reading (log 6). -/
def Obligations.SuspensionAndResume : Prop :=
  ∀ (i : Slot) (s : State) (run : Run) (body : PhaseBody) (onFail : OnFail), (s.slot i).run = some run →
    phaseRec s run = some { body := body, onFail := onFail } →
    let counted : Run := { run with interruptions := min 255 (run.interruptions + 1) }
    let k := shelfOf i
    (∀ reason : Interruption, TestGoing s i run → NoWork s i →
      ((∃ code wall target low high limit, body = .soak code wall target low high limit) ∨ run.interruptions ≤ 2) →
      let t := (act (.interrupted i reason) s).1
      (t.slot i).run = some { counted with
          state := .suspended, wallTimer := none, suspShed := run.suspShed || decide (reason = .shed),
          suspRecovery := run.suspRecovery || decide (reason = .recovery) } ∧
        SlotPending t i (.stopTest true) ∧ flagSet t (slotScope i) (slotFlagBit .suspended) = true ∧
        (act (.interrupted i reason) s).2 = []) ∧
    (∀ (n : NodeIx) (d : DrivePart) (wire : Bool), SlotWindow s i n d (.stopTest true) .planRunner →
      ∃ t, exec (.replyFrameReceived k (busReply n .stopTest []) wire) s = .next t ∧ OtherSlotsSame s t i ∧
        t.slot i = { s.slot i with drive := some { d with missed := 0 } }) ∧
    (∀ (n : NodeIx) (d : DrivePart) (wire : Bool), SlotWindow s i n d .poll .busController → d.missed = 2 →
      (s.slot i).ladder = 0 → (s.slot i).occ = .testing → (s.slot i).attn = none → (s.slot i).cls ≠ .off →
      hasEntry s i .power = false → run.decided = none → (run.state = .starting ∨ run.state = .running) →
      (∀ duration code scan wall, body = .driveTest code scan wall → onFail = .continue → 3 ≤ run.interruptions →
        RestFollows s run duration →
        ∃ t, exec (.replyWindowClose k wire) s = .next t ∧
          RestEntered s t i run { outcome := .fail, reason := .interrupted, detail := 0 } duration) ∧
      ∀ cycles off on, body = .powerCycle cycles off on → run.state = .running →
        run.cycleStep = some .onTime ∨ run.cycleStep = some .spin →
        ∃ t, exec (.replyWindowClose k wire) s = .next t ∧ (t.slot i).run = some { counted with
          cycleStep := some .attach, offTimer := none, onTimer := none }) ∧
    (∀ (reason : Interruption) (cycles off on : Nat), body = .powerCycle cycles off on → run.state = .running →
      run.cycleStep = some .onTime ∨ run.cycleStep = some .spin → (s.slot i).drive.isSome = true →
      act (.interrupted i reason) s = (s.modSlot i fun r => { r with run := some { counted with
        cycleStep := some .spin, offTimer := none, onTimer := none } }, [.requestSpin i])) ∧
    (∀ (kind : ReportKind) (rep : Report),
      (kind = .phaseDone run.phase ∨ ∃ reason, kind = .phaseFailed run.phase reason) →
      oldestReport (s.slot i).reports .attention = some rep → rep.kind = kind → rep.live = false →
      (s.slot i).drive.isSome = true → (s.slot i).silent = false → NoWork s i →
      ∃ t, exec (reportInstr i kind) s = .next t ∧ OtherSlotsSame s t i ∧
        t.slot i = { s.slot i with
          reports := removeReport (s.slot i).reports .attention
          summary := (s.slot i).summary.map fun m => if rep.ownsSummary then { m with outcome := .stale } else m
          attn := (s.slot i).attn.map fun a => if rep.owesClear then { a with clearPending := true } else a } ∧
        (rep.owesClear = true → (s.slot i).attn.isSome → SlotPending t i .attnClear)) ∧
    ∀ (n : NodeIx) (d : DrivePart) (wire : Bool) (code tb th tl progress : Byte) (test : TestState),
      SlotWindow s i n d .poll .busController → testStateOf tb.toNat = some test → run.state = .suspended →
      (s.slot i).cls = .inrush → (s.slot i).spinReq = some .planRunner → (s.shelf k).queue = [] →
      ((∃ wall target low high limit, body = .soak code wall target low high limit) ∨
        ∃ scan wall, body = .driveTest code scan wall) →
      ∃ t, exec (.replyFrameReceived k (busReply n .poll [tb, 2, th, tl, progress, 0]) wire) s = .next t ∧
        OtherSlotsSame s t i ∧ (t.slot i).cls = .run ∧ (t.slot i).spinTimer = none ∧
        SlotPending t i (.startTest code run.phase) ∧
        (t.slot i).reports = (s.slot i).reports.map (fun rep =>
          match rep.kind with
          | .phaseDone _ | .phaseFailed _ _ => { rep with live := false }
          | _ => rep) ∧
        (t.slot i).run = some { run with
          state := .starting, suspShed := false, suspRecovery := false,
          wall := match body with
            | .driveTest .. => 0
            | _ => run.wall }

/-- A live PHASE_DONE of the last phase grades the run: with no rules loaded the result names the default bin and rule
index 16, holds the grade inputs of the run, the run part is gone, and with no free place in the bin the slot waits in
its hold queue (R10, R127, R178, R179, R183, R185; which report is taken is the model's choice, log 5). -/
def Obligations.LastPhaseGradesTheRun : Prop :=
  ∀ (i : Slot) (s : State) (run : Run) (code : Byte) (scan : ScanTag) (wall : Nat) (onFail : OnFail),
    (s.slot i).run = some run → run.state = .running → run.decided = none → run.stop = none →
    (s.slot i).adm = .bound → (s.slot i).occ = .testing → (s.slot i).result = none →
    phaseRec s run = some { body := .driveTest code scan wall, onFail := onFail } →
    run.phase + 1 = run.outcomes.length → TakenNow s i (.phaseDone run.phase) → s.ruleCount = 0 →
    (s.bins[s.defaultBin].hold ≠ [] ∨
      s.bins[s.defaultBin].capacity ≤ s.bins[s.defaultBin].fill + s.bins[s.defaultBin].reserved) →
    ∃ t res, exec (.phaseDone i run.phase) s = .next t ∧ (t.slot i).result = some res ∧
      (res.bin = some s.defaultBin ∧ res.ruleIndex = 16 ∧ res.planId = run.planId ∧ res.shipped = false ∧
        res.firstGrown = (s.slot i).seg.firstGrown) ∧
      (res.inputs.stop = .none ∧ res.inputs.attachOk = true ∧ res.inputs.trips = run.trips ∧
        res.inputs.oobSeconds = run.oobRun ∧ res.inputs.runDose = min 16777215 run.runDose ∧
        res.inputs.failedPhases = failedPhases (setNth run.outcomes run.phase
          (.ended { outcome := .pass, reason := .none, detail := 0 } run.wall 0)) ∧
        res.inputs.worstHead = worstHead (s.slot i).seg.heads ∧
        res.inputs.totalSectors = totalSectors (s.slot i).seg.heads) ∧
      (t.slot i).run = none ∧ (t.slot i).occ = .binWait ∧
      t.bins[s.defaultBin].hold = s.bins[s.defaultBin].hold ++ [i] ∧
      flagSet t (slotScope i) (slotFlagBit .phaseEnd) = true ∧
      flagSet t (slotScope i) (slotFlagBit .planEnd) = true ∧
      flagSet t (slotScope i) (slotFlagBit .binWait) = true

/-- A wall second of a running SOAK: in its band with a ready motor the dose is credited with the factor of the
temperature; out of band the out-of-band and excursion counts rise; not fresh only the stale count rises. A credit
that reaches the target ends the phase PASS, an excursion beyond its limit FAIL EXCURSION, and the maximum wall time
FAIL TIMEOUT, for a DRIVE_TEST as well (R118, R136, R139 to R143). A POWER_CYCLE counts its seconds from its entry,
PENDING included, to its end, and the off time's end asks for the slot's power (R123). A REST counts its seconds and
does nothing else with them (R122). When WALL_TIME_REACHED is taken,
and that the wall time stays at 262143 where a second would lead above its range (R115 gives the range alone), are the
model's choices (log 39). -/
def Obligations.SecondsOfAPhase : Prop :=
  (∀ (i : Slot) (s : State) (run : Run) (m : Nat) (code : Byte) (maxWall target low high limit : Nat)
      (onFail : OnFail), TestGoing s i run → run.wallTimer = some m →
    phaseRec s run = some { body := .soak code maxWall target low high limit, onFail := onFail } →
    let r := s.slot i
    let isFresh := r.temp.valid = true ∧ min 65535 ((s.now - r.temp.moment) / 1000) ≤ (planOf s run).stale
    let inBand := low ≤ r.temp.t ∧ r.temp.t ≤ high
    let ready := ∃ d, r.drive = some d ∧ d.motor = .ready
    let second : Run := { run with wall := min 262143 (run.wall + 1), wallTimer := some (m + 1000) }
    let credited : Run := { second with
      excursion := 0, dose := min 4294967295 (run.dose + factor (planOf s run) r.temp.t) }
    let outside : Run := { second with
      oobPhase := min 4294967295 (run.oobPhase + 1), oobRun := min 4294967295 (run.oobRun + 1),
      excursion := min 3601 (run.excursion + 1) }
    let stale : Run := { second with stale := min 4294967295 (run.stale + 1) }
    let stops := fun (run' : Run) (v : Verdict) =>
      ∃ t, exec (.phaseWallSecond i) s = .next t ∧ OtherSlotsSame s t i ∧ StoppingWith t i run' v none
    (second.wall < maxWall →
      (isFresh → inBand → ready → credited.dose < 256 * target →
        exec (.phaseWallSecond i) s = .next (startTx (s.modSlot i fun r => { r with run := some credited }))) ∧
      (isFresh → inBand → ¬ready →
        exec (.phaseWallSecond i) s =
          .next (startTx (s.modSlot i fun r => { r with run := some { second with excursion := 0 } }))) ∧
      (isFresh → ¬inBand → (limit = 0 ∨ min 3601 (run.excursion + 1) ≤ limit) →
        exec (.phaseWallSecond i) s = .next (startTx (s.modSlot i fun r => { r with run := some outside }))) ∧
      (¬isFresh →
        exec (.phaseWallSecond i) s = .next (startTx (s.modSlot i fun r => { r with run := some stale })))) ∧
    (isFresh → inBand → ready → 256 * target ≤ credited.dose →
      stops credited { outcome := .pass, reason := .none, detail := 0 }) ∧
    (isFresh → ¬inBand → limit ≠ 0 → limit < outside.excursion →
      stops outside { outcome := .fail, reason := .excursion, detail := 0 }) ∧
    (maxWall ≤ second.wall →
      let late : Verdict := { outcome := .fail, reason := .timeout, detail := 0 }
      (isFresh → inBand → ready → credited.dose < 256 * target → stops credited late) ∧
      (isFresh → inBand → ¬ready → stops { second with excursion := 0 } late) ∧
      (isFresh → ¬inBand → (limit = 0 ∨ outside.excursion ≤ limit) → stops outside late) ∧
      (¬isFresh → stops stale late))) ∧
  (∀ (i : Slot) (s : State) (run : Run) (m : Nat) (code : Byte) (scan : ScanTag) (maxWall : Nat) (onFail : OnFail),
    TestGoing s i run → run.wallTimer = some m →
    phaseRec s run = some { body := .driveTest code scan maxWall, onFail := onFail } →
    let second : Run := { run with wall := min 262143 (run.wall + 1), wallTimer := some (m + 1000) }
    (second.wall < maxWall →
      exec (.phaseWallSecond i) s = .next (startTx (s.modSlot i fun r => { r with run := some second }))) ∧
    (maxWall ≤ second.wall →
      ∃ t, exec (.phaseWallSecond i) s = .next t ∧ OtherSlotsSame s t i ∧
        StoppingWith t i second { outcome := .fail, reason := .timeout, detail := 0 } none)) ∧
  (∀ (i : Slot) (s : State) (run : Run) (m cycles off on : Nat) (onFail : OnFail), (s.slot i).run = some run →
    run.state ≠ .ended → run.wallTimer = some m →
    phaseRec s run = some { body := .powerCycle cycles off on, onFail := onFail } →
    exec (.phaseWallSecond i) s = .next (startTx (s.modSlot i fun r => { r with run := some { run with
      wall := min 262143 (run.wall + 1), wallTimer := some (m + 1000) } }))) ∧
  (∀ (i : Slot) (s : State) (run : Run) (m duration : Nat) (onFail : OnFail), (s.slot i).run = some run →
    run.state = .running → run.wallTimer = some m →
    phaseRec s run = some { body := .rest duration, onFail := onFail } →
    exec (.phaseWallSecond i) s = .next (startTx (s.modSlot i fun r => { r with run := some { run with
      wall := min 262143 (run.wall + 1), wallTimer := some (m + 1000) } }))) ∧
  (∀ (i : Slot) (s : State) (run : Run) (maxWall : Nat), TestGoing s i run → maxWallOf s run = some maxWall →
    maxWall ≤ run.wall →
    ∃ t, exec (.wallTimeReached i) s = .next t ∧ OtherSlotsSame s t i ∧
      StoppingWith t i run { outcome := .fail, reason := .timeout, detail := 0 } none) ∧
  ∀ (i : Slot) (s : State) (run : Run), (s.slot i).run = some run → run.offTimer.isSome →
    exec (.offTimeExpiry i) s = .next (startTx (requestPower i .planRunner (s.modSlot i fun r =>
      { r with run := some { run with cycleStep := some .awaitPower, offTimer := none, onTimer := none } })))

/-- The factor of a temperature at or below T0 is F0, at or above T8 is F8, and between them is interpolated between
its segment's two factors with truncation toward zero: it lies between them, both included, and is the segment's first
factor at its breakpoint. With the ranges of R109 the product's magnitude and the factor stay within their bounds.
With the reset values of a plan every factor is 256 (R137, R138). -/
def Obligations.FactorIsInterpolated : Prop :=
  (∀ (p : Plan) (t : Nat), 0 < p.step →
    (t ≤ p.t0 → factor p t = factorAt p 0) ∧ (p.t0 + 8 * p.step ≤ t → factor p t = factorAt p 8)) ∧
  (∀ t : Nat, factor Plan.reset t = 256) ∧
  ∀ (p : Plan) (t : Nat), 0 < p.step → p.t0 < t → t < p.t0 + 8 * p.step →
    let d := t - p.t0
    let k := d / p.step
    let r := d - k * p.step
    let lo := factorAt p k
    let hi := factorAt p (k + 1)
    (1 ≤ d ∧ d ≤ 8 * p.step - 1) ∧ k ≤ 7 ∧ r ≤ p.step - 1 ∧
      (factor p t : Int) = (lo : Int) + (((hi : Int) - (lo : Int)) * (r : Int)).tdiv (p.step : Int) ∧
      (lo ≤ hi → lo ≤ factor p t ∧ factor p t ≤ hi) ∧ (hi ≤ lo → hi ≤ factor p t ∧ factor p t ≤ lo) ∧
      (r = 0 → factor p t = lo) ∧
      (p.step ≤ 80 → (∀ m : Fin 9, p.factors[m] ≤ 65535) →
        (((hi : Int) - (lo : Int)) * (r : Int)).natAbs ≤ 5177265 ∧ factor p t ≤ 65535)

/-! ## Console, defects, grading, shipping (chapters 08 to 10) -/

/-- The console receiver: a byte joins the ring, which keeps the newest 512, and is counted; while the slot is TESTING
it goes to the matcher, and the signatures it completes are counted as trips, with TRIP set, and the STOP_PHASE and
ABORT_PLAN actions among them are told to the Plan Runner in ascending order of their places (R175; the reports wait
to be taken, log 5); a framing error is counted, clears the matcher's progress and waits for a high line; a line
change and a glitch move the receiver (R166 to R168, R172, R173, R175; log 29). -/
def Obligations.ConsoleReceiver : Prop :=
  ∀ (i : Slot) (s : State),
    (∀ (b : Byte), ((s.slot i).con.rx = .watching ∨ ∃ rate, (s.slot i).con.rx = .receiving rate) →
      (s.slot i).con.ring.length ≤ 512 →
      let ring := (s.slot i).con.ring ++ [b]
      let newest := ring.drop (ring.length - 512)
      ((s.slot i).occ ≠ .testing → exec (.consoleByteArrival i b) s = .next (startTx (s.modSlot i fun r =>
        { r with con := { r.con with
          ring := newest, received := (r.con.received + 1) % 4294967296, rx := .watching, line := true,
          lastByte := some s.now } }))) ∧
      ∀ run, (s.slot i).occ = .testing → (s.slot i).run = some run →
        let plan := planOf s run
        let after := advanceAll plan (gapExceeded (s.slot i).con.lastByte s.now plan.gap) (s.slot i).con.progress b
        let done := (List.finRange 4).filterMap fun m =>
          match plan.sigs[m] with
          | some sig => if after[m] = sig.bytes.length then some sig else none
          | none => none
        let told := done.filterMap fun sig =>
          match sig.action with
          | .count => none
          | .stopPhase => some (ReportKind.stopPhase .signature 0)
          | .abortPlan => some (ReportKind.abortPlan .signature 0)
        ∃ t, exec (.consoleByteArrival i b) s = .next t ∧ OtherSlotsSame s t i ∧ (t.slot i).con.ring = newest ∧
          (t.slot i).reports = (s.slot i).reports ++
            told.map (fun kind => { kind := kind, live := true, owesClear := false, ownsSummary := false }) ∧
          (done = [] → (t.slot i).con.progress = after ∧ (t.slot i).run = some run ∧
            t.flags = s.flags) ∧
          (done ≠ [] → (t.slot i).con.progress = Vector.replicate 4 0 ∧
            (t.slot i).run = some { run with trips := min 65535 (run.trips + done.length) } ∧
            flagSet t (slotScope i) (slotFlagBit .trip) = true)) ∧
    (((s.slot i).con.rx = .watching ∨ ∃ rate, (s.slot i).con.rx = .receiving rate) →
      exec (.consoleFramingError i) s = .next (s.modSlot i fun r => { r with con := { r.con with
        rx := .waitHigh, line := false, framingErrors := min 65535 (r.con.framingErrors + 1),
        progress := Vector.replicate 4 0, lastByte := some s.now } }) ∧
      exec (.consoleStartGlitch i) s = .next (s.modSlot i fun r => { r with con := { r.con with
        rx := .watching, line := true } })) ∧
    ∀ level : Bool, exec (.consoleLineChange i level) s = .next (s.modSlot i fun r => { r with con := { r.con with
      line := level
      rx := match r.con.rx, level with
        | .watching, false => .receiving (s.shelf (shelfOf i)).rate
        | .waitHigh, true => .watching
        | rx, _ => rx } })

/-- The insertion of a report keeps a segment's entries in order and apart (R156) and every grown counter within its
sector counter (R157). Unless the segment is full for it, the entries of its key cover afterwards what they covered
before and the report, and the entries of other keys stand as they were (R154). The head counts the report, the
sectors that no entry of the key covered, and for a FINAL report those that no BASELINE or FINAL entry of the head
covered (R153, R157); the first report that grew is captured (R158). A full segment stores nothing and counts the drop
(R155). A report that a FETCH brings under its run is inserted so, with the origin of its capture phase (R151) and cut
to the drive's end (R152); one outside the drive sets PROTOCOL and inserts nothing; a full segment sets SEGMENT_FULL
and the run's defects incomplete, and an exceeded limit sets the early-stop mark and EARLY_STOP once (R150, R159). -/
def Obligations.ReportsAreMergedAndDelivered : Prop :=
  (∀ (g : Segment) (e : DefectEntry), SegmentOrdered g → (∀ x ∈ g.entries, 1 ≤ x.length) → 1 ≤ e.length →
    let g' := g.insert e
    let full := g.limit ≤ g.entries.length ∧
      ∀ x ∈ g.entries, sameKey x e = true → touches x.start x.length e.start e.length = false
    let fresh := sectorsOutside g.entries (fun x => sameKey x e) e
    let grown := if e.origin = .final then
      sectorsOutside g.entries (fun x => decide (x.head = e.head) && decide (x.origin ≠ .other)) e else 0
    SegmentOrdered g' ∧ (∀ x ∈ g'.entries, 1 ≤ x.length) ∧ (GrownWithinSectors g → GrownWithinSectors g') ∧
      (g'.base = g.base ∧ g'.limit = g.limit ∧ g'.early = g.early) ∧
      (¬full → (∀ sector, (∃ x ∈ g'.entries, sameKey x e = true ∧ x.has sector) ↔
          (∃ x ∈ g.entries, sameKey x e = true ∧ x.has sector) ∨ e.has sector) ∧
        (∀ x, sameKey x e = false → (x ∈ g'.entries ↔ x ∈ g.entries)) ∧
        g'.overflow = g.overflow ∧ g'.fullDrops = g.fullDrops) ∧
      (full → g'.entries = g.entries ∧ g'.revision = g.revision ∧ g'.overflow = true ∧
        g'.fullDrops = min 65535 (g.fullDrops + 1)) ∧
      (∀ h : Fin 16, h.val = e.head →
        g'.heads[h].reports = min 4294967295 (g.heads[h].reports + 1) ∧
        g'.heads[h].sectors = min 18446744073709551615 (g.heads[h].sectors + fresh) ∧
        g'.heads[h].grown = min 18446744073709551615 (g.heads[h].grown + grown)) ∧
      (∀ h : Fin 16, h.val ≠ e.head → g'.heads[h] = g.heads[h]) ∧
      g'.revision = (if g'.entries = g.entries then g.revision else (g.revision + 1) % 65536) ∧
      g'.firstGrown = if g.firstGrown = none ∧ 0 < grown then
        some { head := e.head, start := e.start, length := e.length, phase := e.phase } else g.firstGrown) ∧
  ∀ (i : Slot) (s : State) (n : NodeIx) (d : DrivePart) (a : AttnRecord) (p : FetchProgress) (wire : Bool) (run : Run)
    (phase : Nat) (rec : PhaseRec) (body : List Byte) (rep : DefectReport) (r : Nat),
    SlotWindow s i n d .fetch .attentionUnit → (s.slot i).attn = some a → a.fetch = some p → p.finished = false →
    (s.slot i).run = some run → a.run = .current → a.phase = some phase →
    (planOf s run).phases[phase]? = some (some rec) → body.length = 11 →
    replyFields .fetch body = some (.reports [rep] r) →
    let origin : Origin := match rec.body with
      | .driveTest _ .baseline _ => .baseline
      | .driveTest _ .final _ => .final
      | _ => .other
    let e : DefectEntry :=
      { head := rep.head, cls := rep.cls, origin := origin, phase := phase, start := rep.start,
        length := min rep.length (d.maxLba - rep.start + 1) }
    let g := (s.slot i).seg
    let due := ((planOf s run).perHead ≠ 0 ∧ ∃ h : Fin 16, (planOf s run).perHead < (g.insert e).heads[h].sectors) ∨
      ((planOf s run).total ≠ 0 ∧ (planOf s run).total < totalSectors (g.insert e).heads)
    ∃ t, exec (.replyFrameReceived (shelfOf i) (busReply n .fetch body) wire) s = .next t ∧ OtherSlotsSame s t i ∧
      (d.heads ≤ rep.head ∨ d.maxLba < rep.start →
        (t.slot i).seg = g ∧ flagSet t (slotScope i) (slotFlagBit .protocol) = true) ∧
      (rep.head < d.heads → rep.start ≤ d.maxLba →
        (t.slot i).seg = { g.insert e with early := (t.slot i).seg.early } ∧
        ((t.slot i).seg.early = true ↔ g.early = true ∨ due) ∧
        (g.early = false → due → flagSet t (slotScope i) (slotFlagBit .earlyStop) = true) ∧
        (g.isFullFor e = true → flagSet t (slotScope i) (slotFlagBit .segmentFull) = true ∧
          (t.slot i).run = some { run with incomplete := true }) ∧
        (g.isFullFor e = false → (t.slot i).run = some run))

/-- Every step keeps every slot's segment in order, its entries of one key apart, its grown counters within the sector
counters, and the segments apart within the pool (R146, R156, R157). -/
def Obligations.StepsKeepSegmentsSound : Prop :=
  ∀ s t : State, SegmentsSound s → step s = .next t → SegmentsSound t

/-- The first of the rules below the rule count whose conditions all hold gives the bin and its own index; without one
the default bin and the index 16 are given (R183). -/
def Obligations.FirstMatchingRuleDecides : Prop :=
  ∀ (s : State) (g : GradeInputs), s.ruleCount ≤ 16 →
    g.stop ≠ .lost → g.stop ≠ .pulled → g.stop ≠ .swap →
    let within := fun (limit input : Nat) => limit = 0xFFFFFFFF ∨ input ≤ limit
    let holds := fun (n : Fin 16) => let r := s.rules[n]
      within r.maxWorst g.worstHead ∧ within r.maxTotal g.totalSectors ∧ within r.maxGrown g.grownSectors ∧
        within r.maxReports g.reports ∧ within r.maxFailed g.failedPhases ∧ within r.maxTrips g.trips ∧
        within r.maxOob g.oobSeconds ∧ r.allowed.getLsbD (stopCode g.stop) = true ∧
        (r.requireComplete = true → g.incomplete = false)
    (∀ n : Fin 16, n.val < s.ruleCount → holds n → (∀ m : Fin 16, m < n → ¬holds m) →
      chooseBin s g = (some s.rules[n].bin, n.val)) ∧
    ((∀ n : Fin 16, n.val < s.ruleCount → ¬holds n) → chooseBin s g = (some s.defaultBin, 16))

/-- The outcomes DONE of a ship sequence (R193, R194): each item written leads to the next, and the last to reading
them back from position 0; each item read back with its value leads to the next, and the last to STAMP with the fields
of the result; STAMP leads to PARK; PARK leads to the power-off, the result's shipped indication, SHIPPED, and
REMOVE_READY with the latch energized, the reservation being kept. -/
def Obligations.ShipStepsAdvance : Prop :=
  ∀ (i : Slot) (s : State) (n : NodeIx) (d : DrivePart) (rec : ShipRec) (res : Result) (b : BinIx) (wire : Bool),
    (s.slot i).ship = some rec → (s.slot i).result = some res → res.bin = some b →
    let k := shelfOf i
    let after := fun (rec' : ShipRec) => { s.slot i with drive := some { d with missed := 0 }, ship := some rec' }
    (∀ id value, rec.step = .write → SlotWindow s i n d (.writeItem id value) .shipUnit →
      ∃ t, exec (.replyFrameReceived k (busReply n .writeItem []) wire) s = .next t ∧ OtherSlotsSame s t i ∧
        (∀ it, rec.selected[rec.position + 1]? = some it →
          t.slot i = after { rec with position := rec.position + 1 } ∧ SlotPending t i (.writeItem it.id it.value)) ∧
        ∀ first rest, rec.selected = first :: rest → rec.selected.length ≤ rec.position + 1 →
          t.slot i = after { rec with step := .read, position := 0 } ∧ SlotPending t i (.readItem first.id)) ∧
    (∀ id item (value : List Byte), rec.step = .read → SlotWindow s i n d (.readItem id) .shipUnit →
      rec.selected[rec.position]? = some item → value.length = 4 → BitVec.ofNat 32 (field32 value 0) = item.value →
      ∃ t, exec (.replyFrameReceived k (busReply n .readItem value) wire) s = .next t ∧ OtherSlotsSame s t i ∧
        (∀ it, rec.selected[rec.position + 1]? = some it →
          t.slot i = after { rec with position := rec.position + 1 } ∧ SlotPending t i (.readItem it.id)) ∧
        (rec.selected.length ≤ rec.position + 1 →
          t.slot i = after { rec with step := .stamp, position := rec.position + 1 } ∧
            SlotPending t i (.stamp b res.ruleIndex res.planId res.inputs.runDose res.inputs.stop))) ∧
    (∀ bin rule planId dose stop, rec.step = .stamp →
      SlotWindow s i n d (.stamp bin rule planId dose stop) .shipUnit →
      ∃ t, exec (.replyFrameReceived k (busReply n .stamp []) wire) s = .next t ∧ OtherSlotsSame s t i ∧
        t.slot i = after { rec with step := .park } ∧ SlotPending t i .park) ∧
    (rec.step = .park → SlotWindow s i n d .park .shipUnit → (s.slot i).cls ≠ .off →
      ∃ t, exec (.replyFrameReceived k (busReply n .park []) wire) s = .next t ∧ ReleasedWithoutDrive s t i ∧
        (t.slot i).adm = .off ∧ (t.slot i).result = some { res with shipped := true } ∧ (t.slot i).ship = none ∧
        (t.slot i).diverted = false ∧ (t.slot i).reservation = (s.slot i).reservation ∧
        (t.shelf k).nodes[n] = .free ∧ flagSet t (slotScope i) (slotFlagBit .shipped) = true)

/-- A read-back that differs is a failure of the sequence (R195). The first on the FULL path restarts it at WRITE with
the items taken anew (R196). The second diverts the slot (R197), here with no slot waiting for the place it releases
and another bin for rework: the result names the rework bin, SHIP_FAILED is set, and with no free place there the slot
waits in BIN_WAIT, with one it goes on to SHIPPING on the REWORK path with its STAMP. On the REWORK path the power
cycle that follows a missed STAMP or PARK ends the path: the slot is released to the operator, off and unlocked with
its reservation kept, SHIP_FAILED set and shipped no (R66, R198). That no power is asked for then, though R66 has the
ladder submit a POWER request, is the model's reading: R4 has REMOVE_READY with admission OFF, and R18 the latch
energized only while the switch is off (log 50). On the FULL path the power cycle is the first failure: the sequence
waits for its binding while the slot's power is asked for. -/
def Obligations.ShipFailures : Prop :=
  ∀ (i : Slot) (s : State) (n : NodeIx) (d : DrivePart) (rec : ShipRec) (res : Result) (b : BinIx) (wire : Bool),
    (s.slot i).ship = some rec → (s.slot i).result = some res → res.bin = some b → (s.slot i).occ = .shipping →
    hasEntry s i .power = false →
    let k := shelfOf i
    let w := s.bins[s.reworkBin]
    (∀ id item (value : List Byte), rec.step = .read → rec.path = .full → SlotWindow s i n d (.readItem id) .shipUnit →
      rec.selected[rec.position]? = some item → value.length = 4 → BitVec.ofNat 32 (field32 value 0) ≠ item.value →
      ∃ t, exec (.replyFrameReceived k (busReply n .readItem value) wire) s = .next t ∧
        (rec.failures = 0 → OtherSlotsSame s t i ∧ t.flags = s.flags ∧
          ∃ items : List ShipItem, items = selectedItems s (some b) ∧
            (∀ it, it ∈ items ↔ ∃ m : Fin 32, m.val < s.shipCount ∧ s.shipItems[m] = some it ∧
              it.bins.getLsbD b.val = true) ∧
            t.slot i = { s.slot i with
              drive := some { d with missed := 0 }
              ship := some { rec with
                failures := 1, position := 0, selected := items, step := if items = [] then .stamp else .write } } ∧
            (∀ first rest, items = first :: rest → SlotPending t i (.writeItem first.id first.value)) ∧
            (items = [] → SlotPending t i
              (.stamp b res.ruleIndex res.planId res.inputs.runDose res.inputs.stop))) ∧
        (rec.failures ≠ 0 → (s.slot i).reservation = some b → b ≠ s.reworkBin → s.bins[b].hold = [] →
          res.inputs.stop ≠ .attachFail → (s.slot i).adm = .bound →
          OtherSlotsSame s t i ∧ (t.slot i).result = some { res with bin := some s.reworkBin } ∧
          (t.slot i).diverted = true ∧ flagSet t (slotScope i) (slotFlagBit .shipFailed) = true ∧
          flagSet t (slotScope i) (slotFlagBit .binWait) = true ∧
          t.bins[b] = { s.bins[b] with reserved := s.bins[b].reserved - 1 } ∧
          (w.hold ≠ [] ∨ w.capacity ≤ w.fill + w.reserved →
            (t.slot i).occ = .binWait ∧ (t.slot i).ship = none ∧ (t.slot i).reservation = none ∧
              t.bins[s.reworkBin] = { w with hold := w.hold ++ [i] }) ∧
          (w.hold = [] → w.fill + w.reserved < w.capacity →
            (t.slot i).occ = .shipping ∧ (t.slot i).reservation = some s.reworkBin ∧
              t.bins[s.reworkBin] = { w with reserved := w.reserved + 1 } ∧
              (t.slot i).ship = some { path := .rework, step := .stamp, position := 0, selected := [],
                                       failures := 0 } ∧
              SlotPending t i
                (.stamp s.reworkBin res.ruleIndex res.planId res.inputs.runDose res.inputs.stop)))) ∧
    ∀ cmd, SlotWindow s i n d cmd .shipUnit → classOf cmd.kind = .ship → (s.slot i).ladder = 1 → (s.slot i).cls ≠ .off →
      (rec.path = .rework → (rec.step = .stamp ∨ rec.step = .park) →
        ∃ t, exec (.replyWindowClose k wire) s = .next t ∧ ReleasedWithoutDrive s t i ∧ (t.slot i).adm = .off ∧
          (t.slot i).ladder = 2 ∧ (t.slot i).result = some { res with shipped := false } ∧ (t.slot i).ship = none ∧
          (t.slot i).diverted = false ∧ (t.slot i).reservation = (s.slot i).reservation ∧
          flagSet t (slotScope i) (slotFlagBit .shipFailed) = true ∧
          flagSet t (slotScope i) (slotFlagBit .unresponsive) = true) ∧
      (rec.path = .full → rec.failures = 0 →
        (rec.step = .write ∨ rec.step = .read ∨ rec.step = .stamp ∨ rec.step = .park) →
        (s.shelf k).enabled = true → (s.slot i).unlocked = false →
        ∃ t, exec (.replyWindowClose k wire) s = .next t ∧ (t.slot i).occ = .shipping ∧ (t.slot i).ladder = 2 ∧
          (t.slot i).drive = none ∧ (t.slot i).reservation = (s.slot i).reservation ∧
          (∃ rec', (t.slot i).ship = some rec' ∧ rec'.path = .full ∧ rec'.step = .waitBind ∧ rec'.position = 0 ∧
            rec'.failures = 1) ∧
          (((t.slot i).adm = .queued ∧ (t.slot i).cls = .off ∧ hasEntry t i .power = true) ∨
            ((t.slot i).adm = .booting ∧ (t.slot i).cls = .idle)))
end

