-- ==== Sys2Proof/Laws/State.lean ====
section
/-! SUPPORT. The small lemmas of the state's updates: what an update of one slot, one shelf or one bin leaves of each
field, and what reading a slot, a shelf or a bin after it gives. -/

namespace Sys2Proof.Machine

/-! ## Fields that an update leaves alone -/

@[simp] theorem State.modSlot_shelves (s : State) (i : Slot) (f : SlotRec → SlotRec) : (s.modSlot i f).shelves = s.shelves := rfl
@[simp] theorem State.modSlot_wakePattern (s : State) (i : Slot) (f : SlotRec → SlotRec) : (s.modSlot i f).wakePattern = s.wakePattern := rfl
@[simp] theorem State.modSlot_vectors (s : State) (i : Slot) (f : SlotRec → SlotRec) : (s.modSlot i f).vectors = s.vectors := rfl
@[simp] theorem State.modSlot_plans (s : State) (i : Slot) (f : SlotRec → SlotRec) : (s.modSlot i f).plans = s.plans := rfl
@[simp] theorem State.modSlot_rules (s : State) (i : Slot) (f : SlotRec → SlotRec) : (s.modSlot i f).rules = s.rules := rfl
@[simp] theorem State.modSlot_ruleCount (s : State) (i : Slot) (f : SlotRec → SlotRec) : (s.modSlot i f).ruleCount = s.ruleCount := rfl
@[simp] theorem State.modSlot_defaultBin (s : State) (i : Slot) (f : SlotRec → SlotRec) : (s.modSlot i f).defaultBin = s.defaultBin := rfl
@[simp] theorem State.modSlot_reworkBin (s : State) (i : Slot) (f : SlotRec → SlotRec) : (s.modSlot i f).reworkBin = s.reworkBin := rfl
@[simp] theorem State.modSlot_bins (s : State) (i : Slot) (f : SlotRec → SlotRec) : (s.modSlot i f).bins = s.bins := rfl
@[simp] theorem State.modSlot_shipItems (s : State) (i : Slot) (f : SlotRec → SlotRec) : (s.modSlot i f).shipItems = s.shipItems := rfl
@[simp] theorem State.modSlot_shipCount (s : State) (i : Slot) (f : SlotRec → SlotRec) : (s.modSlot i f).shipCount = s.shipCount := rfl
@[simp] theorem State.modSlot_flags (s : State) (i : Slot) (f : SlotRec → SlotRec) : (s.modSlot i f).flags = s.flags := rfl
@[simp] theorem State.modSlot_enables (s : State) (i : Slot) (f : SlotRec → SlotRec) : (s.modSlot i f).enables = s.enables := rfl
@[simp] theorem State.modSlot_notices (s : State) (i : Slot) (f : SlotRec → SlotRec) : (s.modSlot i f).notices = s.notices := rfl
@[simp] theorem State.modSlot_sequence (s : State) (i : Slot) (f : SlotRec → SlotRec) : (s.modSlot i f).sequence = s.sequence := rfl
@[simp] theorem State.modSlot_held (s : State) (i : Slot) (f : SlotRec → SlotRec) : (s.modSlot i f).held = s.held := rfl
@[simp] theorem State.modSlot_lastHostByte (s : State) (i : Slot) (f : SlotRec → SlotRec) : (s.modSlot i f).lastHostByte = s.lastHostByte := rfl
@[simp] theorem State.modSlot_requests (s : State) (i : Slot) (f : SlotRec → SlotRec) : (s.modSlot i f).requests = s.requests := rfl
@[simp] theorem State.modSlot_busyList (s : State) (i : Slot) (f : SlotRec → SlotRec) : (s.modSlot i f).busyList = s.busyList := rfl
@[simp] theorem State.modSlot_replies (s : State) (i : Slot) (f : SlotRec → SlotRec) : (s.modSlot i f).replies = s.replies := rfl
@[simp] theorem State.modSlot_tx (s : State) (i : Slot) (f : SlotRec → SlotRec) : (s.modSlot i f).tx = s.tx := rfl
@[simp] theorem State.modSlot_startupSent (s : State) (i : Slot) (f : SlotRec → SlotRec) : (s.modSlot i f).startupSent = s.startupSent := rfl
@[simp] theorem State.modSlot_fastLink (s : State) (i : Slot) (f : SlotRec → SlotRec) : (s.modSlot i f).fastLink = s.fastLink := rfl
@[simp] theorem State.modSlot_baudsel (s : State) (i : Slot) (f : SlotRec → SlotRec) : (s.modSlot i f).baudsel = s.baudsel := rfl
@[simp] theorem State.modSlot_now (s : State) (i : Slot) (f : SlotRec → SlotRec) : (s.modSlot i f).now = s.now := rfl
@[simp] theorem State.modSlot_pending (s : State) (i : Slot) (f : SlotRec → SlotRec) : (s.modSlot i f).pending = s.pending := rfl

@[simp] theorem State.modShelf_slots (s : State) (k : Shelf) (f : ShelfRec → ShelfRec) : (s.modShelf k f).slots = s.slots := rfl
@[simp] theorem State.modShelf_wakePattern (s : State) (k : Shelf) (f : ShelfRec → ShelfRec) : (s.modShelf k f).wakePattern = s.wakePattern := rfl
@[simp] theorem State.modShelf_vectors (s : State) (k : Shelf) (f : ShelfRec → ShelfRec) : (s.modShelf k f).vectors = s.vectors := rfl
@[simp] theorem State.modShelf_plans (s : State) (k : Shelf) (f : ShelfRec → ShelfRec) : (s.modShelf k f).plans = s.plans := rfl
@[simp] theorem State.modShelf_rules (s : State) (k : Shelf) (f : ShelfRec → ShelfRec) : (s.modShelf k f).rules = s.rules := rfl
@[simp] theorem State.modShelf_ruleCount (s : State) (k : Shelf) (f : ShelfRec → ShelfRec) : (s.modShelf k f).ruleCount = s.ruleCount := rfl
@[simp] theorem State.modShelf_defaultBin (s : State) (k : Shelf) (f : ShelfRec → ShelfRec) : (s.modShelf k f).defaultBin = s.defaultBin := rfl
@[simp] theorem State.modShelf_reworkBin (s : State) (k : Shelf) (f : ShelfRec → ShelfRec) : (s.modShelf k f).reworkBin = s.reworkBin := rfl
@[simp] theorem State.modShelf_bins (s : State) (k : Shelf) (f : ShelfRec → ShelfRec) : (s.modShelf k f).bins = s.bins := rfl
@[simp] theorem State.modShelf_shipItems (s : State) (k : Shelf) (f : ShelfRec → ShelfRec) : (s.modShelf k f).shipItems = s.shipItems := rfl
@[simp] theorem State.modShelf_shipCount (s : State) (k : Shelf) (f : ShelfRec → ShelfRec) : (s.modShelf k f).shipCount = s.shipCount := rfl
@[simp] theorem State.modShelf_flags (s : State) (k : Shelf) (f : ShelfRec → ShelfRec) : (s.modShelf k f).flags = s.flags := rfl
@[simp] theorem State.modShelf_enables (s : State) (k : Shelf) (f : ShelfRec → ShelfRec) : (s.modShelf k f).enables = s.enables := rfl
@[simp] theorem State.modShelf_notices (s : State) (k : Shelf) (f : ShelfRec → ShelfRec) : (s.modShelf k f).notices = s.notices := rfl
@[simp] theorem State.modShelf_sequence (s : State) (k : Shelf) (f : ShelfRec → ShelfRec) : (s.modShelf k f).sequence = s.sequence := rfl
@[simp] theorem State.modShelf_held (s : State) (k : Shelf) (f : ShelfRec → ShelfRec) : (s.modShelf k f).held = s.held := rfl
@[simp] theorem State.modShelf_lastHostByte (s : State) (k : Shelf) (f : ShelfRec → ShelfRec) : (s.modShelf k f).lastHostByte = s.lastHostByte := rfl
@[simp] theorem State.modShelf_requests (s : State) (k : Shelf) (f : ShelfRec → ShelfRec) : (s.modShelf k f).requests = s.requests := rfl
@[simp] theorem State.modShelf_busyList (s : State) (k : Shelf) (f : ShelfRec → ShelfRec) : (s.modShelf k f).busyList = s.busyList := rfl
@[simp] theorem State.modShelf_replies (s : State) (k : Shelf) (f : ShelfRec → ShelfRec) : (s.modShelf k f).replies = s.replies := rfl
@[simp] theorem State.modShelf_tx (s : State) (k : Shelf) (f : ShelfRec → ShelfRec) : (s.modShelf k f).tx = s.tx := rfl
@[simp] theorem State.modShelf_startupSent (s : State) (k : Shelf) (f : ShelfRec → ShelfRec) : (s.modShelf k f).startupSent = s.startupSent := rfl
@[simp] theorem State.modShelf_fastLink (s : State) (k : Shelf) (f : ShelfRec → ShelfRec) : (s.modShelf k f).fastLink = s.fastLink := rfl
@[simp] theorem State.modShelf_baudsel (s : State) (k : Shelf) (f : ShelfRec → ShelfRec) : (s.modShelf k f).baudsel = s.baudsel := rfl
@[simp] theorem State.modShelf_now (s : State) (k : Shelf) (f : ShelfRec → ShelfRec) : (s.modShelf k f).now = s.now := rfl
@[simp] theorem State.modShelf_pending (s : State) (k : Shelf) (f : ShelfRec → ShelfRec) : (s.modShelf k f).pending = s.pending := rfl

@[simp] theorem State.modBin_slots (s : State) (b : BinIx) (f : Bin → Bin) : (s.modBin b f).slots = s.slots := rfl
@[simp] theorem State.modBin_shelves (s : State) (b : BinIx) (f : Bin → Bin) : (s.modBin b f).shelves = s.shelves := rfl
@[simp] theorem State.modBin_wakePattern (s : State) (b : BinIx) (f : Bin → Bin) : (s.modBin b f).wakePattern = s.wakePattern := rfl
@[simp] theorem State.modBin_vectors (s : State) (b : BinIx) (f : Bin → Bin) : (s.modBin b f).vectors = s.vectors := rfl
@[simp] theorem State.modBin_plans (s : State) (b : BinIx) (f : Bin → Bin) : (s.modBin b f).plans = s.plans := rfl
@[simp] theorem State.modBin_rules (s : State) (b : BinIx) (f : Bin → Bin) : (s.modBin b f).rules = s.rules := rfl
@[simp] theorem State.modBin_ruleCount (s : State) (b : BinIx) (f : Bin → Bin) : (s.modBin b f).ruleCount = s.ruleCount := rfl
@[simp] theorem State.modBin_defaultBin (s : State) (b : BinIx) (f : Bin → Bin) : (s.modBin b f).defaultBin = s.defaultBin := rfl
@[simp] theorem State.modBin_reworkBin (s : State) (b : BinIx) (f : Bin → Bin) : (s.modBin b f).reworkBin = s.reworkBin := rfl
@[simp] theorem State.modBin_shipItems (s : State) (b : BinIx) (f : Bin → Bin) : (s.modBin b f).shipItems = s.shipItems := rfl
@[simp] theorem State.modBin_shipCount (s : State) (b : BinIx) (f : Bin → Bin) : (s.modBin b f).shipCount = s.shipCount := rfl
@[simp] theorem State.modBin_flags (s : State) (b : BinIx) (f : Bin → Bin) : (s.modBin b f).flags = s.flags := rfl
@[simp] theorem State.modBin_enables (s : State) (b : BinIx) (f : Bin → Bin) : (s.modBin b f).enables = s.enables := rfl
@[simp] theorem State.modBin_notices (s : State) (b : BinIx) (f : Bin → Bin) : (s.modBin b f).notices = s.notices := rfl
@[simp] theorem State.modBin_sequence (s : State) (b : BinIx) (f : Bin → Bin) : (s.modBin b f).sequence = s.sequence := rfl
@[simp] theorem State.modBin_held (s : State) (b : BinIx) (f : Bin → Bin) : (s.modBin b f).held = s.held := rfl
@[simp] theorem State.modBin_lastHostByte (s : State) (b : BinIx) (f : Bin → Bin) : (s.modBin b f).lastHostByte = s.lastHostByte := rfl
@[simp] theorem State.modBin_requests (s : State) (b : BinIx) (f : Bin → Bin) : (s.modBin b f).requests = s.requests := rfl
@[simp] theorem State.modBin_busyList (s : State) (b : BinIx) (f : Bin → Bin) : (s.modBin b f).busyList = s.busyList := rfl
@[simp] theorem State.modBin_replies (s : State) (b : BinIx) (f : Bin → Bin) : (s.modBin b f).replies = s.replies := rfl
@[simp] theorem State.modBin_tx (s : State) (b : BinIx) (f : Bin → Bin) : (s.modBin b f).tx = s.tx := rfl
@[simp] theorem State.modBin_startupSent (s : State) (b : BinIx) (f : Bin → Bin) : (s.modBin b f).startupSent = s.startupSent := rfl
@[simp] theorem State.modBin_fastLink (s : State) (b : BinIx) (f : Bin → Bin) : (s.modBin b f).fastLink = s.fastLink := rfl
@[simp] theorem State.modBin_baudsel (s : State) (b : BinIx) (f : Bin → Bin) : (s.modBin b f).baudsel = s.baudsel := rfl
@[simp] theorem State.modBin_now (s : State) (b : BinIx) (f : Bin → Bin) : (s.modBin b f).now = s.now := rfl
@[simp] theorem State.modBin_pending (s : State) (b : BinIx) (f : Bin → Bin) : (s.modBin b f).pending = s.pending := rfl

@[simp] theorem State.modRun_shelves (s : State) (i : Slot) (f : Run → Run) : (s.modRun i f).shelves = s.shelves := rfl
@[simp] theorem State.modRun_wakePattern (s : State) (i : Slot) (f : Run → Run) : (s.modRun i f).wakePattern = s.wakePattern := rfl
@[simp] theorem State.modRun_vectors (s : State) (i : Slot) (f : Run → Run) : (s.modRun i f).vectors = s.vectors := rfl
@[simp] theorem State.modRun_plans (s : State) (i : Slot) (f : Run → Run) : (s.modRun i f).plans = s.plans := rfl
@[simp] theorem State.modRun_rules (s : State) (i : Slot) (f : Run → Run) : (s.modRun i f).rules = s.rules := rfl
@[simp] theorem State.modRun_ruleCount (s : State) (i : Slot) (f : Run → Run) : (s.modRun i f).ruleCount = s.ruleCount := rfl
@[simp] theorem State.modRun_defaultBin (s : State) (i : Slot) (f : Run → Run) : (s.modRun i f).defaultBin = s.defaultBin := rfl
@[simp] theorem State.modRun_reworkBin (s : State) (i : Slot) (f : Run → Run) : (s.modRun i f).reworkBin = s.reworkBin := rfl
@[simp] theorem State.modRun_bins (s : State) (i : Slot) (f : Run → Run) : (s.modRun i f).bins = s.bins := rfl
@[simp] theorem State.modRun_shipItems (s : State) (i : Slot) (f : Run → Run) : (s.modRun i f).shipItems = s.shipItems := rfl
@[simp] theorem State.modRun_shipCount (s : State) (i : Slot) (f : Run → Run) : (s.modRun i f).shipCount = s.shipCount := rfl
@[simp] theorem State.modRun_flags (s : State) (i : Slot) (f : Run → Run) : (s.modRun i f).flags = s.flags := rfl
@[simp] theorem State.modRun_enables (s : State) (i : Slot) (f : Run → Run) : (s.modRun i f).enables = s.enables := rfl
@[simp] theorem State.modRun_notices (s : State) (i : Slot) (f : Run → Run) : (s.modRun i f).notices = s.notices := rfl
@[simp] theorem State.modRun_sequence (s : State) (i : Slot) (f : Run → Run) : (s.modRun i f).sequence = s.sequence := rfl
@[simp] theorem State.modRun_held (s : State) (i : Slot) (f : Run → Run) : (s.modRun i f).held = s.held := rfl
@[simp] theorem State.modRun_lastHostByte (s : State) (i : Slot) (f : Run → Run) : (s.modRun i f).lastHostByte = s.lastHostByte := rfl
@[simp] theorem State.modRun_requests (s : State) (i : Slot) (f : Run → Run) : (s.modRun i f).requests = s.requests := rfl
@[simp] theorem State.modRun_busyList (s : State) (i : Slot) (f : Run → Run) : (s.modRun i f).busyList = s.busyList := rfl
@[simp] theorem State.modRun_replies (s : State) (i : Slot) (f : Run → Run) : (s.modRun i f).replies = s.replies := rfl
@[simp] theorem State.modRun_tx (s : State) (i : Slot) (f : Run → Run) : (s.modRun i f).tx = s.tx := rfl
@[simp] theorem State.modRun_startupSent (s : State) (i : Slot) (f : Run → Run) : (s.modRun i f).startupSent = s.startupSent := rfl
@[simp] theorem State.modRun_fastLink (s : State) (i : Slot) (f : Run → Run) : (s.modRun i f).fastLink = s.fastLink := rfl
@[simp] theorem State.modRun_baudsel (s : State) (i : Slot) (f : Run → Run) : (s.modRun i f).baudsel = s.baudsel := rfl
@[simp] theorem State.modRun_now (s : State) (i : Slot) (f : Run → Run) : (s.modRun i f).now = s.now := rfl
@[simp] theorem State.modRun_pending (s : State) (i : Slot) (f : Run → Run) : (s.modRun i f).pending = s.pending := rfl
@[simp] theorem State.modDrive_shelves (s : State) (i : Slot) (f : DrivePart → DrivePart) : (s.modDrive i f).shelves = s.shelves := rfl
@[simp] theorem State.modDrive_wakePattern (s : State) (i : Slot) (f : DrivePart → DrivePart) : (s.modDrive i f).wakePattern = s.wakePattern := rfl
@[simp] theorem State.modDrive_vectors (s : State) (i : Slot) (f : DrivePart → DrivePart) : (s.modDrive i f).vectors = s.vectors := rfl
@[simp] theorem State.modDrive_plans (s : State) (i : Slot) (f : DrivePart → DrivePart) : (s.modDrive i f).plans = s.plans := rfl
@[simp] theorem State.modDrive_rules (s : State) (i : Slot) (f : DrivePart → DrivePart) : (s.modDrive i f).rules = s.rules := rfl
@[simp] theorem State.modDrive_ruleCount (s : State) (i : Slot) (f : DrivePart → DrivePart) : (s.modDrive i f).ruleCount = s.ruleCount := rfl
@[simp] theorem State.modDrive_defaultBin (s : State) (i : Slot) (f : DrivePart → DrivePart) : (s.modDrive i f).defaultBin = s.defaultBin := rfl
@[simp] theorem State.modDrive_reworkBin (s : State) (i : Slot) (f : DrivePart → DrivePart) : (s.modDrive i f).reworkBin = s.reworkBin := rfl
@[simp] theorem State.modDrive_bins (s : State) (i : Slot) (f : DrivePart → DrivePart) : (s.modDrive i f).bins = s.bins := rfl
@[simp] theorem State.modDrive_shipItems (s : State) (i : Slot) (f : DrivePart → DrivePart) : (s.modDrive i f).shipItems = s.shipItems := rfl
@[simp] theorem State.modDrive_shipCount (s : State) (i : Slot) (f : DrivePart → DrivePart) : (s.modDrive i f).shipCount = s.shipCount := rfl
@[simp] theorem State.modDrive_flags (s : State) (i : Slot) (f : DrivePart → DrivePart) : (s.modDrive i f).flags = s.flags := rfl
@[simp] theorem State.modDrive_enables (s : State) (i : Slot) (f : DrivePart → DrivePart) : (s.modDrive i f).enables = s.enables := rfl
@[simp] theorem State.modDrive_notices (s : State) (i : Slot) (f : DrivePart → DrivePart) : (s.modDrive i f).notices = s.notices := rfl
@[simp] theorem State.modDrive_sequence (s : State) (i : Slot) (f : DrivePart → DrivePart) : (s.modDrive i f).sequence = s.sequence := rfl
@[simp] theorem State.modDrive_held (s : State) (i : Slot) (f : DrivePart → DrivePart) : (s.modDrive i f).held = s.held := rfl
@[simp] theorem State.modDrive_lastHostByte (s : State) (i : Slot) (f : DrivePart → DrivePart) : (s.modDrive i f).lastHostByte = s.lastHostByte := rfl
@[simp] theorem State.modDrive_requests (s : State) (i : Slot) (f : DrivePart → DrivePart) : (s.modDrive i f).requests = s.requests := rfl
@[simp] theorem State.modDrive_busyList (s : State) (i : Slot) (f : DrivePart → DrivePart) : (s.modDrive i f).busyList = s.busyList := rfl
@[simp] theorem State.modDrive_replies (s : State) (i : Slot) (f : DrivePart → DrivePart) : (s.modDrive i f).replies = s.replies := rfl
@[simp] theorem State.modDrive_tx (s : State) (i : Slot) (f : DrivePart → DrivePart) : (s.modDrive i f).tx = s.tx := rfl
@[simp] theorem State.modDrive_startupSent (s : State) (i : Slot) (f : DrivePart → DrivePart) : (s.modDrive i f).startupSent = s.startupSent := rfl
@[simp] theorem State.modDrive_fastLink (s : State) (i : Slot) (f : DrivePart → DrivePart) : (s.modDrive i f).fastLink = s.fastLink := rfl
@[simp] theorem State.modDrive_baudsel (s : State) (i : Slot) (f : DrivePart → DrivePart) : (s.modDrive i f).baudsel = s.baudsel := rfl
@[simp] theorem State.modDrive_now (s : State) (i : Slot) (f : DrivePart → DrivePart) : (s.modDrive i f).now = s.now := rfl
@[simp] theorem State.modDrive_pending (s : State) (i : Slot) (f : DrivePart → DrivePart) : (s.modDrive i f).pending = s.pending := rfl

/-! ## Reading after an update -/

@[simp] theorem State.modSlot_slot (s : State) (i : Slot) (f : SlotRec → SlotRec) :
    (s.modSlot i f).slot i = f (s.slot i) := by
  simp [State.modSlot, State.slot]

theorem State.modSlot_slot_ne (s : State) {i j : Slot} (h : j ≠ i) (f : SlotRec → SlotRec) :
    (s.modSlot i f).slot j = s.slot j := by
  have h' : i.val ≠ j.val := fun e => h (Fin.ext e.symm)
  simp [State.modSlot, State.slot, Vector.getElem_set_ne, h']

theorem State.modSlot_slot_if (s : State) (i j : Slot) (f : SlotRec → SlotRec) :
    (s.modSlot i f).slot j = if j = i then f (s.slot i) else s.slot j := by
  split
  · next h => rw [h]; exact s.modSlot_slot i f
  · next h => exact s.modSlot_slot_ne h f

@[simp] theorem State.modSlot_shelf (s : State) (i : Slot) (f : SlotRec → SlotRec) (k : Shelf) :
    (s.modSlot i f).shelf k = s.shelf k := rfl

@[simp] theorem State.modShelf_shelf (s : State) (k : Shelf) (f : ShelfRec → ShelfRec) :
    (s.modShelf k f).shelf k = f (s.shelf k) := by
  simp [State.modShelf, State.shelf]

theorem State.modShelf_shelf_ne (s : State) {k l : Shelf} (h : l ≠ k) (f : ShelfRec → ShelfRec) :
    (s.modShelf k f).shelf l = s.shelf l := by
  have h' : k.val ≠ l.val := fun e => h (Fin.ext e.symm)
  simp [State.modShelf, State.shelf, Vector.getElem_set_ne, h']

theorem State.modShelf_shelf_if (s : State) (k l : Shelf) (f : ShelfRec → ShelfRec) :
    (s.modShelf k f).shelf l = if l = k then f (s.shelf k) else s.shelf l := by
  split
  · next h => rw [h]; exact s.modShelf_shelf k f
  · next h => exact s.modShelf_shelf_ne h f

@[simp] theorem State.modShelf_slot (s : State) (k : Shelf) (f : ShelfRec → ShelfRec) (i : Slot) :
    (s.modShelf k f).slot i = s.slot i := rfl

@[simp] theorem State.modBin_slot (s : State) (b : BinIx) (f : Bin → Bin) (i : Slot) :
    (s.modBin b f).slot i = s.slot i := rfl

@[simp] theorem State.modBin_shelf (s : State) (b : BinIx) (f : Bin → Bin) (k : Shelf) :
    (s.modBin b f).shelf k = s.shelf k := rfl

@[simp] theorem State.modRun_slot (s : State) (i : Slot) (f : Run → Run) :
    (s.modRun i f).slot i = { s.slot i with run := (s.slot i).run.map f } := by
  simp [State.modRun]

theorem State.modRun_slot_ne (s : State) {i j : Slot} (h : j ≠ i) (f : Run → Run) :
    (s.modRun i f).slot j = s.slot j := s.modSlot_slot_ne h _

@[simp] theorem State.modRun_shelf (s : State) (i : Slot) (f : Run → Run) (k : Shelf) :
    (s.modRun i f).shelf k = s.shelf k := rfl

@[simp] theorem State.modDrive_slot (s : State) (i : Slot) (f : DrivePart → DrivePart) :
    (s.modDrive i f).slot i = { s.slot i with drive := (s.slot i).drive.map f } := by
  simp [State.modDrive]

theorem State.modDrive_slot_ne (s : State) {i j : Slot} (h : j ≠ i) (f : DrivePart → DrivePart) :
    (s.modDrive i f).slot j = s.slot j := s.modSlot_slot_ne h _

@[simp] theorem State.modDrive_shelf (s : State) (i : Slot) (f : DrivePart → DrivePart) (k : Shelf) :
    (s.modDrive i f).shelf k = s.shelf k := rfl

/-- Two updates of one slot are one. -/
@[simp] theorem State.modSlot_modSlot (s : State) (i : Slot) (f g : SlotRec → SlotRec) :
    (s.modSlot i f).modSlot i g = s.modSlot i (g ∘ f) := by
  simp [State.modSlot, Vector.set_set]

/-- Two updates of one shelf are one. -/
@[simp] theorem State.modShelf_modShelf (s : State) (k : Shelf) (f g : ShelfRec → ShelfRec) :
    (s.modShelf k f).modShelf k g = s.modShelf k (g ∘ f) := by
  simp [State.modShelf, Vector.set_set]

/-- Updates of a slot and of a shelf can be told apart. -/
theorem State.modShelf_modSlot (s : State) (k : Shelf) (i : Slot) (f : SlotRec → SlotRec) (g : ShelfRec → ShelfRec) :
    (s.modSlot i f).modShelf k g = (s.modShelf k g).modSlot i f := rfl

/-! ## The parts of a state are read by slot and by shelf -/

/-- A slot lies on its shelf at its position. -/
@[simp] theorem slotAt_shelfOf_posOf (i : Slot) : slotAt (shelfOf i) (posOf i) = i := by
  ext; simp only [slotAt, shelfOf, posOf]; omega

@[simp] theorem shelfOf_slotAt (k : Shelf) (p : Position) : shelfOf (slotAt k p) = k := by
  ext; simp only [slotAt, shelfOf]; omega

@[simp] theorem posOf_slotAt (k : Shelf) (p : Position) : posOf (slotAt k p) = p := by
  ext; simp only [slotAt, posOf]; omega

theorem mem_allPositions (p : Position) : p ∈ allPositions := by revert p; decide

/-- The slots of a shelf are those whose shelf it is. -/
theorem mem_slotsOf {k : Shelf} {i : Slot} : i ∈ slotsOf k ↔ shelfOf i = k := by
  constructor
  · intro h
    obtain ⟨p, -, rfl⟩ := List.mem_map.1 h
    exact shelfOf_slotAt k p
  · rintro rfl
    exact List.mem_map.2 ⟨posOf i, mem_allPositions _, slotAt_shelfOf_posOf i⟩

theorem slotsOf_nodup (k : Shelf) : (slotsOf k).Nodup := by revert k; decide

/-! ## After reset -/

theorem allSlots_getElem (i : Slot) (h : i.val < allSlots.length) : allSlots[i.val] = i := by
  revert h; revert i; decide

theorem reset_slot (i : Slot) : State.reset.slot i = SlotRec.reset i := by
  have h : i.val < allSlots.length := i.isLt
  show (allSlots.map SlotRec.reset)[i.val]'(by simpa using h) = _
  rw [List.getElem_map, allSlots_getElem]

theorem reset_shelf (k : Shelf) : State.reset.shelf k = ShelfRec.reset := by
  show (Vector.replicate 3 ShelfRec.reset)[k] = _
  simp

end Sys2Proof.Machine
end

