-- ==== Sys2Proof/Laws/Keeps.lean ====
section
/-! SUPPORT. What the operations of the blocks can do, said once: each changes slots, shelves, bins and flags only; the
class of a slot and the budget of a shelf only through the Power Manager; a latch, a reservation, a segment and the use
of a bin only through their own operations; a drive part's node, the node map and the pass only through the Attach Unit's.
A property that the primitive changes keep is kept by every tell. -/

namespace Sys2Proof.Machine

/-- Two shelf records with one budget: enable, limit, draws, supply lines and wait queue. -/
abbrev SameBudget (a b : ShelfRec) : Prop :=
  a.enabled = b.enabled ∧ a.limit = b.limit ∧ a.idleDraw = b.idleDraw ∧ a.runDraw = b.runDraw ∧
    a.inrushDraw = b.inrushDraw ∧ a.lineA = b.lineA ∧ a.lineB = b.lineB ∧ a.queue = b.queue

/-- Two slot records of one class, latch and reservation, with one segment but for its marks. -/
abbrev SameHold (a b : SlotRec) : Prop :=
  a.cls = b.cls ∧ a.unlocked = b.unlocked ∧ a.reservation = b.reservation ∧ a.seg.base = b.seg.base ∧
    a.seg.limit = b.seg.limit ∧ a.seg.entries = b.seg.entries ∧ a.seg.heads = b.seg.heads

/-- The node of a slot's drive part. -/
abbrev nodeOf (r : SlotRec) : Option NodeIx := r.drive.map DrivePart.node

/-- A property that the primitive changes keep: a slot's record with its class, latch, reservation, segment and node as
they were, a shelf's record with its budget, node map and pass as they were, the hold queues of the bins, the flags, and
the operations that change the rest but for the node map. -/
structure Plain (P : State → Prop) : Prop where
  modSlot : ∀ {s : State} (i : Slot) (f : SlotRec → SlotRec), (∀ r, SameHold (f r) r ∧ nodeOf (f r) = nodeOf r) → P s →
    P (s.modSlot i f)
  modShelf : ∀ {s : State} (k : Shelf) (f : ShelfRec → ShelfRec),
    (∀ r, SameBudget (f r) r ∧ (f r).nodes = r.nodes ∧ (f r).pass = r.pass) → P s → P (s.modShelf k f)
  holds : ∀ {s : State} (v : Vector Bin 16), (∀ b : BinIx, v[b].capacity = s.bins[b].capacity ∧
    v[b].fill = s.bins[b].fill ∧ v[b].reserved = s.bins[b].reserved) → P s → P { s with bins := v }
  raiseSlot : ∀ {s : State} (i : Slot) (f : SlotFlag), P s → P (raiseSlot i f s)
  raiseShelf : ∀ {s : State} (k : Shelf) (f : ShelfFlag), P s → P (raiseShelf k f s)
  raiseController : ∀ {s : State} (f : ControllerFlag), P s → P (raiseController f s)
  examine : ∀ {s : State} (k : Shelf), P s → P (examine k s)
  requestPower : ∀ {s : State} (i : Slot) (by_ : Requester), P s → P (requestPower i by_ s)
  requestSpin : ∀ {s : State} (i : Slot), P s → P (requestSpin i s).1
  withdrawEntry : ∀ {s : State} (i : Slot) (kind : EntryKind), P s → P (withdrawEntry i kind s)
  spinDown : ∀ {s : State} (i : Slot), P s → P (spinDown i s)
  cutPower : ∀ {s : State} (i : Slot), P s → P (cutPower i s)
  motorReport : ∀ {s : State} (i : Slot) (motor : Motor), P s → P (motorReport i motor s).1
  windowExpired : ∀ {s : State} (i : Slot), P s → P (windowExpired i s).1
  unlockLatch : ∀ {s : State} (i : Slot), P s → P (unlockLatch i s)
  lockLatch : ∀ {s : State} (i : Slot), P s → P (lockLatch i s)
  insert : ∀ {s : State} (i : Slot) (e : DefectEntry), 1 ≤ e.length → P s →
    P (s.modSlot i fun r => { r with seg := (s.slot i).seg.insert e })
  emptySegment : ∀ {s : State} (i : Slot), P s → P (emptySegment i s)
  reserve : ∀ {s : State} (i : Slot) (b : BinIx), binHasRoom s b = true → P s → P (reserve i b s)
  releaseReservation : ∀ {s : State} (i : Slot), P s → P (releaseReservation i s).1
  convertReservation : ∀ {s : State} (i : Slot), P s → P (convertReservation i s)

/-- A property that the Attach Unit's operations keep as well, with what a switch-off does to a node. -/
structure Kept (P : State → Prop) : Prop extends Plain P where
  leaveSet : ∀ {s : State} (i : Slot), P s → P (leaveSet i s)
  freeUnheld : ∀ {s : State} (k : Shelf), P s → P (freeUnheld k s)
  discardDrive : ∀ {s : State} (i : Slot), P s → P (discardDrive i s).1
  attachAnswered : ∀ {s : State} (k : Shelf) (cmd : BusCmd) (answer : Answer), P s → P (attachAnswered k cmd answer s).1
  roundOver : ∀ {s : State} (k : Shelf), P s → P (roundOver k s)

/-- A property that does not speak of drive parts, node maps and passes. -/
structure Loose (P : State → Prop) : Prop extends Plain P where
  anySlot : ∀ {s : State} (i : Slot) (f : SlotRec → SlotRec), (∀ r, SameHold (f r) r) → P s → P (s.modSlot i f)
  anyShelf : ∀ {s : State} (k : Shelf) (f : ShelfRec → ShelfRec), (∀ r, SameBudget (f r) r) → P s → P (s.modShelf k f)

variable {P : State → Prop}

theorem ite_keeps {a b : State} {c : Prop} [Decidable c] (ha : P a) (hb : P b) : P (if c then a else b) := by
  split <;> assumption

theorem ite_fst_keeps {α : Type} {a b : State × α} {c : Prop} [Decidable c] (ha : P a.1) (hb : P b.1) :
    P (if c then a else b).1 := by
  split <;> assumption

theorem foldl_keeps {α : Type} {f : State → α → State} (hf : ∀ t a, P t → P (f t a)) (l : List α) {t : State} (h : P t) :
    P (l.foldl f t) := by
  induction l generalizing t with
  | nil => exact h
  | cons a l ih => exact ih (hf _ a h)

theorem modRun_keeps (hP : Plain P) {t : State} (i : Slot) (f : Run → Run) (h : P t) : P (t.modRun i f) :=
  hP.modSlot _ _ (by intro; exact ⟨⟨rfl, rfl, rfl, rfl, rfl, rfl, rfl⟩, rfl⟩) h

theorem modDrive_keeps (hP : Plain P) {t : State} (i : Slot) (f : DrivePart → DrivePart) (hf : ∀ d, (f d).node = d.node)
    (h : P t) : P (t.modDrive i f) := by
  refine hP.modSlot _ _ ?_ h
  intro r
  refine ⟨⟨rfl, rfl, rfl, rfl, rfl, rfl, rfl⟩, ?_⟩
  cases hd : r.drive <;> simp [nodeOf, hd, hf]

theorem enterLadder_same (o : Occupancy) (r : SlotRec) :
    SameHold (enterLadder o r) r ∧ nodeOf (enterLadder o r) = nodeOf r := by
  unfold enterLadder
  split
  · split <;> exact ⟨⟨rfl, rfl, rfl, rfl, rfl, rfl, rfl⟩, rfl⟩
  · exact ⟨⟨rfl, rfl, rfl, rfl, rfl, rfl, rfl⟩, rfl⟩
  · exact ⟨⟨rfl, rfl, rfl, rfl, rfl, rfl, rfl⟩, rfl⟩

theorem setOcc_keeps (hP : Plain P) {t : State} (i : Slot) (o : Occupancy) (h : P t) : P (setOcc i o t) := by
  unfold setOcc
  have hs : P (t.modSlot i fun r =>
      let r := enterLadder o { r with occ := o }
      if o = .testing ∨ (t.slot i).occ = .testing then clearProgress r else r) := by
    apply hP.modSlot _ _ _ h
    intro r
    dsimp only
    split
    · exact enterLadder_same o _
    · exact enterLadder_same o _
  exact ite_keeps h (ite_keeps (hP.raiseSlot _ _ hs) hs)


/-! ## Slots -/

/-! ## Reports -/

theorem tellRunner_keeps (hP : Plain P) {t : State} (i : Slot) (kind : ReportKind) (owesClear : Bool) (h : P t) :
    P (tellRunner i kind owesClear t) := by
  unfold tellRunner
  try dsimp only
  repeat' first
    | with_reducible exact h
    | with_reducible apply ite_keeps
    | with_reducible apply ite_fst_keeps
    | (with_reducible refine hP.modSlot _ _ ?_ ?_; focus (intro r; exact ⟨⟨rfl, rfl, rfl, rfl, rfl, rfl, rfl⟩, rfl⟩))

theorem dropRun_keeps (hP : Plain P) {t : State} (i : Slot) (h : P t) :
    P (dropRun i t) := by
  unfold dropRun
  try dsimp only
  repeat' first
    | with_reducible exact h
    | with_reducible apply ite_keeps
    | with_reducible apply ite_fst_keeps
    | (with_reducible refine hP.modSlot _ _ ?_ ?_; focus (intro r; exact ⟨⟨rfl, rfl, rfl, rfl, rfl, rfl, rfl⟩, rfl⟩))

theorem staleAtResume_keeps (hP : Plain P) {t : State} (i : Slot) (h : P t) : P (staleAtResume i t) := by
  unfold staleAtResume
  exact hP.modSlot _ _ (fun _ => ⟨⟨rfl, rfl, rfl, rfl, rfl, rfl, rfl⟩, rfl⟩) h

theorem markIncomplete_keeps (hP : Plain P) {t : State} (i : Slot) (h : P t) :
    P (markIncomplete i t) := by
  unfold markIncomplete
  try dsimp only
  repeat' first
    | with_reducible exact h
    | with_reducible apply ite_keeps
    | with_reducible apply ite_fst_keeps
    | with_reducible apply modRun_keeps hP

/-! ## Defect store -/

theorem earlyStopTest_keeps (hP : Plain P) {t : State} (i : Slot) (p : Plan) (h : P t) :
    P (earlyStopTest i p t) := by
  unfold earlyStopTest
  try dsimp only
  repeat' first
    | with_reducible exact h
    | with_reducible apply ite_keeps
    | with_reducible apply ite_fst_keeps
    | with_reducible apply hP.raiseSlot
    | with_reducible apply tellRunner_keeps hP
    | (with_reducible refine hP.modSlot _ _ ?_ ?_; focus (intro r; exact ⟨⟨rfl, rfl, rfl, rfl, rfl, rfl, rfl⟩, rfl⟩))

theorem insertReport_keeps (hP : Plain P) {t : State} (i : Slot) (phase : Nat) (rep : DefectReport) (h : P t) :
    P (insertReport i phase rep t) := by
  unfold insertReport
  split
  · next d run hd hr =>
    split
    · exact hP.raiseSlot _ _ h
    · next hc =>
      dsimp only
      apply earlyStopTest_keeps hP
      have hi := hP.insert (s := t) i
        { head := rep.head, cls := rep.cls, origin := originOf t run phase, phase := phase, start := rep.start,
          length := min rep.length (d.maxLba - rep.start + 1) } (by simp only [not_or, not_lt] at hc; dsimp only; omega) h
      exact ite_keeps (hP.raiseSlot _ _ (markIncomplete_keeps hP _ hi)) hi
  · exact h

theorem deliver_keeps (hP : Plain P) {t : State} (i : Slot) (phase : Nat) (reports : List DefectReport) (h : P t) :
    P (deliver i phase reports t) :=
  foldl_keeps (fun _ _ h => insertReport_keeps hP _ _ _ h) _ h

/-! ## Factory bus -/

theorem launch_keeps (hP : Plain P) {t : State} (k : Shelf) (it : Item) (h : P t) :
    P (launch k it t) := by
  unfold launch
  try dsimp only
  repeat' first
    | with_reducible exact h
    | with_reducible apply ite_keeps
    | with_reducible apply ite_fst_keeps
    | (with_reducible refine hP.modShelf _ _ ?_ ?_; focus (intro r; exact ⟨⟨rfl, rfl, rfl, rfl, rfl, rfl, rfl, rfl⟩, rfl, rfl⟩))

theorem option_or_keeps {a b : Option State} (ha : ∀ u ∈ a, P u) (hb : ∀ u ∈ b, P u) :
    ∀ u ∈ a.or b, P u := by
  cases a with
  | none => simpa using hb
  | some x => simpa using ha

theorem takeAttach_keeps (hP : Plain P) {t : State} (k : Shelf) (h : P t) : ∀ u ∈ takeAttach k t, P u := by
  unfold takeAttach
  split
  · rintro u hu
    obtain rfl := Option.mem_some.1 hu
    exact launch_keeps hP _ _ (hP.modShelf _ _ (by intro; exact ⟨⟨rfl, rfl, rfl, rfl, rfl, rfl, rfl, rfl⟩, rfl, rfl⟩) h)
  · intro u hu
    exact absurd hu (Option.not_mem_none u)

theorem takeWide_keeps (hP : Plain P) {t : State} (k : Shelf) (h : P t) : ∀ u ∈ takeWide k t, P u := by
  unfold takeWide
  split
  · rintro u hu
    obtain rfl := Option.mem_some.1 hu
    exact launch_keeps hP _ _ (hP.modShelf _ _ (by intro; exact ⟨⟨rfl, rfl, rfl, rfl, rfl, rfl, rfl, rfl⟩, rfl, rfl⟩) h)
  · intro u hu
    exact absurd hu (Option.not_mem_none u)

theorem takeTestReset_keeps (hP : Plain P) {t : State} (k : Shelf) (h : P t) : ∀ u ∈ takeTestReset k t, P u := by
  intro u hu
  obtain ⟨it, -, rfl⟩ := Option.mem_map.1 hu
  exact launch_keeps hP _ _ (hP.modShelf _ _ (by intro; exact ⟨⟨rfl, rfl, rfl, rfl, rfl, rfl, rfl, rfl⟩, rfl, rfl⟩) h)

theorem takeSlotItem_keeps (hP : Plain P) {t : State} (c : BusClass) (k : Shelf) (h : P t) :
    ∀ u ∈ takeSlotItem c k t, P u := by
  intro u hu
  obtain ⟨it, -, rfl⟩ := Option.mem_map.1 hu
  exact launch_keeps hP _ _ (hP.modShelf _ _ (by intro; exact ⟨⟨rfl, rfl, rfl, rfl, rfl, rfl, rfl, rfl⟩, rfl, rfl⟩) h)

theorem choose_keeps (hP : Plain P) {t : State} (k : Shelf) (h : P t) : P (choose k t) := by
  have key := option_or_keeps (takeAttach_keeps hP k h) <| option_or_keeps (takeWide_keeps hP k h) <|
    option_or_keeps (takeSlotItem_keeps hP .attention k h) <| option_or_keeps (takeTestReset_keeps hP k h) <|
    option_or_keeps (takeSlotItem_keeps hP .control k h) <| option_or_keeps (takeSlotItem_keeps hP .fetch k h) <|
    option_or_keeps (takeSlotItem_keeps hP .ship k h) (takeSlotItem_keeps hP .poll k h)
  unfold choose
  revert key
  generalize Option.or _ _ = o
  intro key
  cases o with
  | none => simpa using hP.modShelf _ _ (by intro; exact ⟨⟨rfl, rfl, rfl, rfl, rfl, rfl, rfl, rfl⟩, rfl, rfl⟩) h
  | some u => exact key u rfl

theorem kick_keeps (hP : Plain P) {t : State} (k : Shelf) (h : P t) :
    P (kick k t) := by
  unfold kick
  try dsimp only
  repeat' first
    | with_reducible exact h
    | with_reducible apply ite_keeps
    | with_reducible apply ite_fst_keeps
    | with_reducible apply choose_keeps hP

theorem submitAttach_keeps (hP : Plain P) {t : State} (k : Shelf) (cmd : BusCmd) (h : P t) :
    P (submitAttach k cmd t) := by
  unfold submitAttach
  try dsimp only
  repeat' first
    | with_reducible exact h
    | with_reducible apply ite_keeps
    | with_reducible apply ite_fst_keeps
    | with_reducible apply kick_keeps hP
    | (with_reducible refine hP.modShelf _ _ ?_ ?_; focus (intro r; exact ⟨⟨rfl, rfl, rfl, rfl, rfl, rfl, rfl, rfl⟩, rfl, rfl⟩))

theorem submitWide_keeps (hP : Plain P) {t : State} (k : Shelf) (cmd : BusCmd) (h : P t) :
    P (submitWide k cmd t) := by
  unfold submitWide
  try dsimp only
  repeat' first
    | with_reducible exact h
    | with_reducible apply ite_keeps
    | with_reducible apply ite_fst_keeps
    | with_reducible apply kick_keeps hP
    | (with_reducible refine hP.modShelf _ _ ?_ ?_; focus (intro r; exact ⟨⟨rfl, rfl, rfl, rfl, rfl, rfl, rfl, rfl⟩, rfl, rfl⟩))

theorem submitReset_keeps (hP : Plain P) {t : State} (k : Shelf) (h : P t) :
    P (submitReset k t) := by
  unfold submitReset
  try dsimp only
  repeat' first
    | with_reducible exact h
    | with_reducible apply ite_keeps
    | with_reducible apply ite_fst_keeps
    | with_reducible apply kick_keeps hP
    | (with_reducible refine hP.modShelf _ _ ?_ ?_; focus (intro r; exact ⟨⟨rfl, rfl, rfl, rfl, rfl, rfl, rfl, rfl⟩, rfl, rfl⟩))

theorem submitSlot_keeps (hP : Plain P) {t : State} (i : Slot) (cmd : BusCmd) (owner : Owner) (h : P t) :
    P (submitSlot i cmd owner t).1 := by
  unfold submitSlot
  dsimp only
  repeat' first
    | with_reducible exact h
    | with_reducible apply ite_fst_keeps
    | with_reducible apply kick_keeps hP
    | with_reducible refine hP.modShelf _ _ (by intro; exact ⟨⟨rfl, rfl, rfl, rfl, rfl, rfl, rfl, rfl⟩, rfl, rfl⟩) ?_

theorem submit_keeps (hP : Plain P) {t : State} (i : Slot) (cmd : BusCmd) (owner : Owner) (h : P t) :
    P (submit i cmd owner t).1 := by
  have := submitSlot_keeps hP i cmd owner h
  unfold submit
  dsimp only
  split <;> next heq => rw [heq] at this; exact this

theorem withdrawItem_keeps (hP : Plain P) {t : State} (i : Slot) (kind : BusKind) (h : P t) :
    P (withdrawItem i kind t) := by
  unfold withdrawItem
  try dsimp only
  repeat' first
    | with_reducible exact h
    | with_reducible apply ite_keeps
    | with_reducible apply ite_fst_keeps
    | (with_reducible refine hP.modShelf _ _ ?_ ?_; focus (intro r; exact ⟨⟨rfl, rfl, rfl, rfl, rfl, rfl, rfl, rfl⟩, rfl, rfl⟩))

theorem orphan_keeps (hP : Plain P) {t : State} (k : Shelf) (p : Item → Bool) (h : P t) :
    P (orphan k p t) := by
  unfold orphan
  try dsimp only
  repeat' first
    | with_reducible exact h
    | with_reducible apply ite_keeps
    | with_reducible apply ite_fst_keeps
    | (with_reducible refine hP.modShelf _ _ ?_ ?_; focus (intro r; exact ⟨⟨rfl, rfl, rfl, rfl, rfl, rfl, rfl, rfl⟩, rfl, rfl⟩))

theorem renounce_keeps (hP : Plain P) {t : State} (i : Slot) (kind : BusKind) (h : P t) :
    P (renounce i kind t) := by
  unfold renounce
  try dsimp only
  repeat' first
    | with_reducible exact h
    | with_reducible apply ite_keeps
    | with_reducible apply ite_fst_keeps
    | with_reducible apply orphan_keeps hP
    | with_reducible apply withdrawItem_keeps hP

theorem dropWork_keeps (hP : Plain P) {t : State} (i : Slot) (h : P t) :
    P (dropWork i t).1 := by
  unfold dropWork
  try dsimp only
  repeat' first
    | with_reducible exact h
    | with_reducible apply ite_keeps
    | with_reducible apply ite_fst_keeps
    | (with_reducible refine hP.modShelf _ _ ?_ ?_; focus (intro r; exact ⟨⟨rfl, rfl, rfl, rfl, rfl, rfl, rfl, rfl⟩, rfl, rfl⟩))

theorem addQuery_keeps (hP : Plain P) {t : State} (k : Shelf) (h : P t) :
    P (addQuery k t) := by
  unfold addQuery
  try dsimp only
  repeat' first
    | with_reducible exact h
    | with_reducible apply ite_keeps
    | with_reducible apply ite_fst_keeps
    | with_reducible apply submitWide_keeps hP

theorem endTransaction_keeps (hP : Plain P) {t : State} (k : Shelf) (f : Flight) (answer : Answer) (h : P t) :
    P (endTransaction k f answer t).1 := by
  unfold endTransaction
  try dsimp only
  repeat' first
    | with_reducible exact h
    | with_reducible apply ite_keeps
    | with_reducible apply ite_fst_keeps
    | (with_reducible refine hP.modShelf _ _ ?_ ?_; focus (intro r; exact ⟨⟨rfl, rfl, rfl, rfl, rfl, rfl, rfl, rfl⟩, rfl, rfl⟩))

theorem countMissed_keeps (hP : Plain P) {t : State} (i : Slot) (answer : Answer) (ship : Bool) (h : P t) :
    P (countMissed i answer ship t).1 := by
  unfold countMissed
  split
  · exact h
  · split
    · exact modDrive_keeps hP _ _ (fun _ => rfl) h
    · exact modDrive_keeps hP _ _ (fun _ => rfl) h
    · exact modDrive_keeps hP _ _ (fun _ => rfl) h
    · exact h

theorem wireFree_keeps (hP : Plain P) {t : State} (k : Shelf) (h : P t) :
    P (wireFree k t) := by
  unfold wireFree
  try dsimp only
  repeat' first
    | with_reducible exact h
    | with_reducible apply ite_keeps
    | with_reducible apply ite_fst_keeps
    | with_reducible apply choose_keeps hP

theorem requery_keeps (hP : Plain P) {t : State} (k : Shelf) (h : P t) :
    P (requery k t) := by
  unfold requery
  try dsimp only
  repeat' first
    | with_reducible exact h
    | with_reducible apply ite_keeps
    | with_reducible apply ite_fst_keeps
    | with_reducible apply addQuery_keeps hP

/-! ## Attachment -/

theorem setNode_keeps (hP : Loose P) {t : State} (k : Shelf) (n : NodeIx) (e : NodeEntry) (h : P t) :
    P (setNode k n e t) := by
  unfold setNode
  try dsimp only
  repeat' first
    | with_reducible exact h
    | with_reducible apply ite_keeps
    | with_reducible apply ite_fst_keeps
    | (with_reducible refine hP.anyShelf _ _ ?_ ?_; focus (intro r; exact ⟨rfl, rfl, rfl, rfl, rfl, rfl, rfl, rfl⟩))

theorem setPass_keeps (hP : Loose P) {t : State} (k : Shelf) (p : Pass) (h : P t) :
    P (setPass k p t) := by
  unfold setPass
  try dsimp only
  repeat' first
    | with_reducible exact h
    | with_reducible apply ite_keeps
    | with_reducible apply ite_fst_keeps
    | (with_reducible refine hP.anyShelf _ _ ?_ ?_; focus (intro r; exact ⟨rfl, rfl, rfl, rfl, rfl, rfl, rfl, rfl⟩))

theorem setMismatches_keeps (hP : Loose P) {t : State} (k : Shelf) (n : Nat) (h : P t) :
    P (setMismatches k n t) := by
  unfold setMismatches
  try dsimp only
  repeat' first
    | with_reducible exact h
    | with_reducible apply ite_keeps
    | with_reducible apply ite_fst_keeps
    | (with_reducible refine hP.anyShelf _ _ ?_ ?_; focus (intro r; exact ⟨rfl, rfl, rfl, rfl, rfl, rfl, rfl, rfl⟩))

theorem mapDeadlines_keeps (hP : Plain P) {t : State} (k : Shelf) (f : Deadline → Deadline) (h : P t) :
    P (mapDeadlines k f t) :=
  foldl_keeps (fun _ _ h => hP.modSlot _ _ (by intro; exact ⟨⟨rfl, rfl, rfl, rfl, rfl, rfl, rfl⟩, rfl⟩) h) _ h

theorem syncKey_keeps (hP : Plain P) {t : State} (k : Shelf) (h : P t) :
    P (syncKey k t) := by
  unfold syncKey
  try dsimp only
  repeat' first
    | with_reducible exact h
    | with_reducible apply ite_keeps
    | with_reducible apply ite_fst_keeps
    | with_reducible apply hP.raiseShelf
    | with_reducible apply mapDeadlines_keeps hP

theorem openRound_keeps (hP : Loose P) {t : State} (k : Shelf) (h : P t) : P (openRound k t) :=
  submitAttach_keeps hP.toPlain _ _ (submitAttach_keeps hP.toPlain _ _
    (foldl_keeps (fun _ _ h => submitAttach_keeps hP.toPlain _ _ h) _ (setPass_keeps hP _ _ h)))

theorem nextRound_keeps (hP : Loose P) {t : State} (k : Shelf) (h : P t) :
    P (nextRound k t) := by
  unfold nextRound
  try dsimp only
  repeat' first
    | with_reducible exact h
    | with_reducible apply ite_keeps
    | with_reducible apply ite_fst_keeps
    | with_reducible apply setPass_keeps hP
    | with_reducible apply openRound_keeps hP

theorem pausePass_keeps (hP : Loose P) {t : State} (k : Shelf) (reason : PauseReason) (h : P t) :
    P (pausePass k reason t) := by
  unfold pausePass
  try dsimp only
  repeat' first
    | with_reducible exact h
    | with_reducible apply ite_keeps
    | with_reducible apply ite_fst_keeps
    | with_reducible apply setPass_keeps hP

theorem giveUp_keeps (hP : Loose P) {t : State} (k : Shelf) (n : NodeIx) (h : P t) :
    P (giveUp k n t) := by
  unfold giveUp
  try dsimp only
  repeat' first
    | with_reducible exact h
    | with_reducible apply ite_keeps
    | with_reducible apply ite_fst_keeps
    | with_reducible apply setNode_keeps hP
    | with_reducible apply submitAttach_keeps hP.toPlain

theorem stopPass_keeps (hP : Loose P) {t : State} (k : Shelf) (h : P t) :
    P (stopPass k t) := by
  unfold stopPass
  try dsimp only
  repeat' first
    | with_reducible exact h
    | with_reducible apply ite_keeps
    | with_reducible apply ite_fst_keeps
    | (with_reducible refine hP.anyShelf _ _ ?_ ?_; focus (intro r; exact ⟨rfl, rfl, rfl, rfl, rfl, rfl, rfl, rfl⟩))
    | with_reducible apply setPass_keeps hP
    | with_reducible apply orphan_keeps hP.toPlain
    | with_reducible apply giveUp_keeps hP
    | split

theorem joinSet_keeps (hP : Loose P) {t : State} (i : Slot) (h : P t) :
    P (joinSet i t) := by
  unfold joinSet
  try dsimp only
  repeat' first
    | with_reducible exact h
    | with_reducible apply ite_keeps
    | with_reducible apply ite_fst_keeps
    | with_reducible apply syncKey_keeps hP.toPlain
    | (with_reducible refine hP.anySlot _ _ ?_ ?_; focus (intro r; exact ⟨rfl, rfl, rfl, rfl, rfl, rfl, rfl⟩))
    | with_reducible apply setMismatches_keeps hP
    | with_reducible apply setPass_keeps hP
    | with_reducible apply openRound_keeps hP
    | with_reducible apply nextRound_keeps hP
    | split

theorem leaveSet_keeps (hP : Loose P) {t : State} (i : Slot) (h : P t) :
    P (leaveSet i t) := by
  unfold leaveSet
  try dsimp only
  repeat' first
    | with_reducible exact h
    | with_reducible apply ite_keeps
    | with_reducible apply ite_fst_keeps
    | with_reducible apply syncKey_keeps hP.toPlain
    | (with_reducible refine hP.anySlot _ _ ?_ ?_; focus (intro r; exact ⟨rfl, rfl, rfl, rfl, rfl, rfl, rfl⟩))
    | (with_reducible refine hP.anyShelf _ _ ?_ ?_; focus (intro r; exact ⟨rfl, rfl, rfl, rfl, rfl, rfl, rfl, rfl⟩))
    | with_reducible apply setNode_keeps hP
    | with_reducible apply stopPass_keeps hP
    | with_reducible apply nextRound_keeps hP
    | with_reducible apply orphan_keeps hP.toPlain
    | split

theorem freeUnheld_keeps (hP : Loose P) {t : State} (k : Shelf) (h : P t) :
    P (freeUnheld k t) := by
  unfold freeUnheld
  try dsimp only
  repeat' first
    | with_reducible exact h
    | with_reducible apply ite_keeps
    | with_reducible apply ite_fst_keeps
    | (with_reducible refine hP.anyShelf _ _ ?_ ?_; focus (intro r; exact ⟨rfl, rfl, rfl, rfl, rfl, rfl, rfl, rfl⟩))

theorem releaseOutcome_keeps (hP : Loose P) {t : State} (k : Shelf) (n : NodeIx) (answered : Bool) (h : P t) :
    P (releaseOutcome k n answered t) := by
  unfold releaseOutcome
  try dsimp only
  repeat' first
    | with_reducible exact h
    | with_reducible apply ite_keeps
    | with_reducible apply ite_fst_keeps
    | with_reducible apply setNode_keeps hP
    | split

theorem readContest_keeps (hP : Loose P) {t : State} (k : Shelf) (v : BitVec 64) (h : P t) :
    P (readContest k v t) := by
  unfold readContest
  try dsimp only
  repeat' first
    | with_reducible exact h
    | with_reducible apply ite_keeps
    | with_reducible apply ite_fst_keeps
    | with_reducible apply pausePass_keeps hP
    | with_reducible apply setMismatches_keeps hP
    | with_reducible apply submitAttach_keeps hP.toPlain
    | with_reducible apply setPass_keeps hP
    | with_reducible apply setNode_keeps hP
    | with_reducible apply hP.raiseShelf
    | with_reducible apply nextRound_keeps hP
    | split

theorem bind_keeps (hP : Loose P) {t : State} (i : Slot) (n : NodeIx) (ident : Identity) (maxLba heads : Nat) (h : P t) :
    P (bind i n ident maxLba heads t).1 := by
  unfold bind
  try dsimp only
  repeat' first
    | with_reducible exact h
    | with_reducible apply ite_keeps
    | with_reducible apply ite_fst_keeps
    | (with_reducible refine hP.anySlot _ _ ?_ ?_; focus (intro r; exact ⟨rfl, rfl, rfl, rfl, rfl, rfl, rfl⟩))
    | with_reducible apply syncKey_keeps hP.toPlain
    | with_reducible apply setPass_keeps hP
    | with_reducible apply setNode_keeps hP
    | with_reducible apply submit_keeps hP.toPlain

theorem readInfoOutcome_keeps (hP : Loose P) {t : State} (k : Shelf) (n : NodeIx) (ident : Identity) (i : Slot) (attempt : Nat) (answer : Answer) (h : P t) :
    P (readInfoOutcome k n ident i attempt answer t).1 := by
  unfold readInfoOutcome
  try dsimp only
  repeat' first
    | with_reducible exact h
    | with_reducible apply ite_keeps
    | with_reducible apply ite_fst_keeps
    | with_reducible apply bind_keeps hP
    | with_reducible apply submitAttach_keeps hP.toPlain
    | with_reducible apply setPass_keeps hP
    | with_reducible apply nextRound_keeps hP
    | with_reducible apply giveUp_keeps hP
    | split

theorem attachAnswered_keeps (hP : Loose P) {t : State} (k : Shelf) (cmd : BusCmd) (answer : Answer) (h : P t) :
    P (attachAnswered k cmd answer t).1 := by
  unfold attachAnswered
  try dsimp only
  repeat' first
    | with_reducible exact h
    | with_reducible apply ite_keeps
    | with_reducible apply ite_fst_keeps
    | with_reducible apply releaseOutcome_keeps hP
    | with_reducible apply pausePass_keeps hP
    | with_reducible apply readContest_keeps hP
    | with_reducible apply submitAttach_keeps hP.toPlain
    | with_reducible apply setPass_keeps hP
    | with_reducible apply nextRound_keeps hP
    | with_reducible apply giveUp_keeps hP
    | with_reducible apply readInfoOutcome_keeps hP
    | split

theorem activityEdge_keeps (hP : Loose P) {t : State} (i : Slot) (level : Bool) (h : P t) :
    P (activityEdge i level t) := by
  unfold activityEdge
  try dsimp only
  repeat' first
    | with_reducible exact h
    | with_reducible apply ite_keeps
    | with_reducible apply ite_fst_keeps
    | (with_reducible refine hP.anyShelf _ _ ?_ ?_; focus (intro r; exact ⟨rfl, rfl, rfl, rfl, rfl, rfl, rfl, rfl⟩))

theorem closeWindow_keeps (hP : Loose P) {t : State} (k : Shelf) (n : NodeIx) (ident : Identity) (pulsing left : List Slot) (h : P t) :
    P (closeWindow k n ident pulsing left t) := by
  unfold closeWindow
  try dsimp only
  repeat' first
    | with_reducible exact h
    | with_reducible apply ite_keeps
    | with_reducible apply ite_fst_keeps
    | with_reducible apply giveUp_keeps hP
    | with_reducible apply setPass_keeps hP
    | with_reducible apply submitAttach_keeps hP.toPlain
    | with_reducible apply setNode_keeps hP
    | with_reducible apply nextRound_keeps hP
    | with_reducible apply hP.raiseShelf
    | split

theorem roundOver_keeps (hP : Loose P) {t : State} (k : Shelf) (h : P t) :
    P (roundOver k t) := by
  unfold roundOver
  try dsimp only
  repeat' first
    | with_reducible exact h
    | with_reducible apply ite_keeps
    | with_reducible apply ite_fst_keeps
    | with_reducible apply nextRound_keeps hP

theorem keyLoaded_keeps (hP : Loose P) {t : State} (k : Shelf) (h : P t) :
    P (keyLoaded k t) := by
  unfold keyLoaded
  try dsimp only
  repeat' first
    | with_reducible exact h
    | with_reducible apply ite_keeps
    | with_reducible apply ite_fst_keeps
    | with_reducible apply syncKey_keeps hP.toPlain
    | with_reducible apply nextRound_keeps hP

/-! ## Attention -/

theorem modAttn_keeps (hP : Plain P) {t : State} (i : Slot) (f : AttnRecord → AttnRecord) (h : P t) :
    P (modAttn i f t) := by
  unfold modAttn
  try dsimp only
  repeat' first
    | with_reducible exact h
    | with_reducible apply ite_keeps
    | with_reducible apply ite_fst_keeps
    | (with_reducible refine hP.modSlot _ _ ?_ ?_; focus (intro r; exact ⟨⟨rfl, rfl, rfl, rfl, rfl, rfl, rfl⟩, rfl⟩))

theorem setOutcome_keeps (hP : Plain P) {t : State} (i : Slot) (o : AttnOutcome) (h : P t) :
    P (setOutcome i o t) := by
  unfold setOutcome
  try dsimp only
  repeat' first
    | with_reducible exact h
    | with_reducible apply ite_keeps
    | with_reducible apply ite_fst_keeps
    | (with_reducible refine hP.modSlot _ _ ?_ ?_; focus (intro r; exact ⟨⟨rfl, rfl, rfl, rfl, rfl, rfl, rfl⟩, rfl⟩))

theorem discardRecord_keeps (hP : Plain P) {t : State} (i : Slot) (h : P t) :
    P (discardRecord i t) := by
  unfold discardRecord
  try dsimp only
  repeat' first
    | with_reducible exact h
    | with_reducible apply ite_keeps
    | with_reducible apply ite_fst_keeps
    | with_reducible apply markIncomplete_keeps hP
    | with_reducible apply setOutcome_keeps hP
    | (with_reducible refine hP.modSlot _ _ ?_ ?_; focus (intro r; exact ⟨⟨rfl, rfl, rfl, rfl, rfl, rfl, rfl⟩, rfl⟩))

theorem clearRecord_keeps (hP : Plain P) {t : State} (i : Slot) (h : P t) :
    P (clearRecord i t).1 := by
  unfold clearRecord
  try dsimp only
  repeat' first
    | with_reducible exact h
    | with_reducible apply ite_keeps
    | with_reducible apply ite_fst_keeps
    | with_reducible apply submit_keeps hP
    | with_reducible apply modAttn_keeps hP

theorem formRecord_keeps (hP : Plain P) {t : State} (i : Slot) (code detail : Byte) (h : P t) :
    P (formRecord i code detail t) := by
  unfold formRecord
  try dsimp only
  repeat' first
    | with_reducible exact h
    | with_reducible apply ite_keeps
    | with_reducible apply ite_fst_keeps
    | (with_reducible refine hP.modSlot _ _ ?_ ?_; focus (intro r; exact ⟨⟨rfl, rfl, rfl, rfl, rfl, rfl, rfl⟩, rfl⟩))

theorem actFixed_keeps (hP : Plain P) {t : State} (i : Slot) (code detail : Byte) (phase : Option Nat) (h : P t) :
    P (actFixed i code detail phase t).1 := by
  unfold actFixed
  try dsimp only
  repeat' first
    | with_reducible exact h
    | with_reducible apply ite_keeps
    | with_reducible apply ite_fst_keeps
    | with_reducible apply tellRunner_keeps hP
    | with_reducible apply setOutcome_keeps hP
    | with_reducible apply submit_keeps hP
    | with_reducible apply hP.raiseSlot
    | split

theorem actVector_keeps (hP : Plain P) {t : State} (i : Slot) (code : Byte) (phase : Option Nat) (action : VectorAction) (h : P t) :
    P (actVector i code phase action t).1 := by
  unfold actVector
  try dsimp only
  repeat' first
    | with_reducible exact h
    | with_reducible apply ite_keeps
    | with_reducible apply ite_fst_keeps
    | with_reducible apply setOutcome_keeps hP
    | with_reducible apply hP.raiseSlot
    | with_reducible apply modAttn_keeps hP
    | with_reducible apply tellRunner_keeps hP
    | split

theorem addNodeClear_keeps (hP : Plain P) {t : State} (k : Shelf) (n : NodeIx) (h : P t) :
    P (addNodeClear k n t) := by
  unfold addNodeClear
  try dsimp only
  repeat' first
    | with_reducible exact h
    | with_reducible apply ite_keeps
    | with_reducible apply ite_fst_keeps
    | (with_reducible refine hP.modShelf _ _ ?_ ?_; focus (intro r; exact ⟨⟨rfl, rfl, rfl, rfl, rfl, rfl, rfl, rfl⟩, rfl, rfl⟩))
    | with_reducible apply submitWide_keeps hP

theorem nextNodeClear_keeps (hP : Plain P) {t : State} (k : Shelf) (h : P t) :
    P (nextNodeClear k t) := by
  unfold nextNodeClear
  try dsimp only
  repeat' first
    | with_reducible exact h
    | with_reducible apply ite_keeps
    | with_reducible apply ite_fst_keeps
    | with_reducible apply submitWide_keeps hP
    | (with_reducible refine hP.modShelf _ _ ?_ ?_; focus (intro r; exact ⟨⟨rfl, rfl, rfl, rfl, rfl, rfl, rfl, rfl⟩, rfl, rfl⟩))
    | split

theorem capture_keeps (hP : Plain P) {t : State} (k : Shelf) (n : NodeIx) (code detail : Byte) (h : P t) :
    P (capture k n code detail t).1 := by
  unfold capture
  try dsimp only
  repeat' first
    | with_reducible exact h
    | with_reducible apply ite_keeps
    | with_reducible apply ite_fst_keeps
    | with_reducible apply hP.raiseSlot
    | with_reducible apply formRecord_keeps hP
    | with_reducible apply actFixed_keeps hP
    | with_reducible apply actVector_keeps hP
    | with_reducible apply addNodeClear_keeps hP
    | with_reducible apply hP.raiseShelf
    | split

theorem queryMissed_keeps (hP : Plain P) {t : State} (k : Shelf) (n : NodeIx) (h : P t) :
    P (queryMissed k n t).1 := by
  unfold queryMissed
  try dsimp only
  repeat' first
    | with_reducible exact h
    | with_reducible apply ite_keeps
    | with_reducible apply ite_fst_keeps
    | with_reducible apply submit_keeps hP
    | split

theorem finishLoop_keeps (hP : Plain P) {t : State} (i : Slot) (h : P t) :
    P (finishLoop i t).1 := by
  unfold finishLoop
  try dsimp only
  repeat' first
    | with_reducible exact h
    | with_reducible apply ite_keeps
    | with_reducible apply ite_fst_keeps
    | with_reducible apply modAttn_keeps hP

theorem fetchDone_keeps (hP : Plain P) {t : State} (i : Slot) (a : AttnRecord) (f : FetchProgress) (l : List DefectReport) (remaining : Nat) (h : P t) :
    P (fetchDone i a f l remaining t).1 := by
  unfold fetchDone
  try dsimp only
  repeat' first
    | with_reducible exact h
    | with_reducible apply ite_keeps
    | with_reducible apply ite_fst_keeps
    | with_reducible apply deliver_keeps hP
    | with_reducible apply modAttn_keeps hP
    | with_reducible apply finishLoop_keeps hP
    | with_reducible apply submit_keeps hP
    | with_reducible apply markIncomplete_keeps hP
    | with_reducible apply hP.raiseSlot

theorem fetchAnswered_keeps (hP : Plain P) {t : State} (i : Slot) (answer : Answer) (h : P t) :
    P (fetchAnswered i answer t).1 := by
  unfold fetchAnswered
  try dsimp only
  repeat' first
    | with_reducible exact h
    | with_reducible apply ite_keeps
    | with_reducible apply ite_fst_keeps
    | with_reducible apply fetchDone_keeps hP
    | with_reducible apply finishLoop_keeps hP
    | with_reducible apply markIncomplete_keeps hP
    | with_reducible apply submit_keeps hP
    | with_reducible apply discardRecord_keeps hP
    | split

theorem clearAnswered_keeps (hP : Plain P) {t : State} (i : Slot) (answer : Answer) (h : P t) :
    P (clearAnswered i answer t).1 := by
  unfold clearAnswered
  try dsimp only
  repeat' first
    | with_reducible exact h
    | with_reducible apply ite_keeps
    | with_reducible apply ite_fst_keeps
    | (with_reducible refine hP.modSlot _ _ ?_ ?_; focus (intro r; exact ⟨⟨rfl, rfl, rfl, rfl, rfl, rfl, rfl⟩, rfl⟩))
    | with_reducible apply submit_keeps hP
    | with_reducible apply discardRecord_keeps hP
    | split

theorem attentionAnswered_keeps (hP : Plain P) {t : State} (it : Item) (answer : Answer) (h : P t) :
    P (attentionAnswered it answer t).1 := by
  unfold attentionAnswered
  try dsimp only
  repeat' first
    | with_reducible exact h
    | with_reducible apply ite_keeps
    | with_reducible apply ite_fst_keeps
    | with_reducible apply capture_keeps hP
    | with_reducible apply queryMissed_keeps hP
    | with_reducible apply nextNodeClear_keeps hP
    | with_reducible apply clearAnswered_keeps hP
    | with_reducible apply fetchAnswered_keeps hP
    | split

theorem pollInService_keeps (hP : Plain P) {t : State} (i : Slot) (inService : Bool) (h : P t) :
    P (pollInService i inService t).1 := by
  unfold pollInService
  try dsimp only
  repeat' first
    | with_reducible exact h
    | with_reducible apply ite_keeps
    | with_reducible apply ite_fst_keeps
    | with_reducible apply submit_keeps hP
    | with_reducible apply hP.raiseSlot

/-! ## Power -/

theorem powerOff_keeps (hP : Plain P) {t : State} (i : Slot) (h : P t) :
    P (powerOff i t).1 := by
  unfold powerOff
  try dsimp only
  repeat' first
    | with_reducible exact h
    | with_reducible apply ite_keeps
    | with_reducible apply ite_fst_keeps
    | with_reducible apply hP.cutPower
    | with_reducible apply hP.withdrawEntry

theorem discardDrive_keeps (hP : Loose P) {t : State} (i : Slot) (h : P t) : P (discardDrive i t).1 := by
  unfold discardDrive
  split
  · exact h
  · apply dropWork_keeps hP.toPlain
    exact hP.anySlot _ _ (by intro; exact ⟨rfl, rfl, rfl, rfl, rfl, rfl, rfl⟩)
      (discardRecord_keeps hP.toPlain _ (setNode_keeps hP _ _ _ h))

/-- A property that does not speak of drive parts, node maps and passes is kept by the Attach Unit's operations. -/
theorem Loose.kept (hP : Loose P) : Kept P where
  toPlain := hP.toPlain
  leaveSet i h := leaveSet_keeps hP i h
  freeUnheld k h := freeUnheld_keeps hP k h
  discardDrive i h := discardDrive_keeps hP i h
  attachAnswered k cmd answer h := attachAnswered_keeps hP k cmd answer h
  roundOver k h := roundOver_keeps hP k h

theorem switchedOff_keeps (hP : Kept P) {t : State} (i : Slot) (h : P t) :
    P (switchedOff i t).1 := by
  unfold switchedOff
  try dsimp only
  repeat' first
    | with_reducible exact h
    | with_reducible apply ite_keeps
    | with_reducible apply ite_fst_keeps
    | with_reducible apply hP.freeUnheld
    | with_reducible apply hP.leaveSet
    | with_reducible apply hP.discardDrive

theorem shedDone_keeps (hP : Plain P) {t : State} (k : Shelf) (h : P t) :
    P (shedDone k t) := by
  unfold shedDone
  try dsimp only
  repeat' first
    | with_reducible exact h
    | with_reducible apply ite_keeps
    | with_reducible apply ite_fst_keeps
    | with_reducible apply hP.examine
    | with_reducible apply hP.raiseShelf

/-! ## Dose -/

theorem storeTemperature_keeps (hP : Plain P) {t : State} (i : Slot) (x : Nat) (h : P t) :
    P (storeTemperature i x t) := by
  unfold storeTemperature
  try dsimp only
  repeat' first
    | with_reducible exact h
    | with_reducible apply ite_keeps
    | with_reducible apply ite_fst_keeps
    | (with_reducible refine hP.modSlot _ _ ?_ ?_; focus (intro r; exact ⟨⟨rfl, rfl, rfl, rfl, rfl, rfl, rfl⟩, rfl⟩))

theorem doseTick_keeps (hP : Plain P) {t : State} (i : Slot) (run : Run) (target low high limit : Nat) (h : P t) :
    P (doseTick i run target low high limit t).1 := by
  unfold doseTick
  try dsimp only
  repeat' first
    | with_reducible exact h
    | with_reducible apply ite_keeps
    | with_reducible apply ite_fst_keeps
    | with_reducible apply modRun_keeps hP

/-! ## Plan runner -/

theorem startRun_keeps (hP : Plain P) {t : State} (i : Slot) (p : PlanIx) (h : P t) :
    P (startRun i p t).1 := by
  unfold startRun
  try dsimp only
  repeat' first
    | with_reducible exact h
    | with_reducible apply ite_keeps
    | with_reducible apply ite_fst_keeps
    | (with_reducible refine hP.modSlot _ _ ?_ ?_; focus (intro r; exact ⟨⟨rfl, rfl, rfl, rfl, rfl, rfl, rfl⟩, rfl⟩))
    | with_reducible apply setOcc_keeps hP

theorem beginPhase_keeps (hP : Plain P) {t : State} (i : Slot) (body : PhaseBody) (h : P t) :
    P (beginPhase i body t).1 := by
  unfold beginPhase
  try dsimp only
  repeat' first
    | with_reducible exact h
    | with_reducible apply ite_keeps
    | with_reducible apply ite_fst_keeps
    | with_reducible apply modRun_keeps hP
    | split

theorem enterPhase_keeps (hP : Plain P) {t : State} (i : Slot) (h : P t) :
    P (enterPhase i t).1 := by
  unfold enterPhase
  try dsimp only
  repeat' first
    | with_reducible exact h
    | with_reducible apply ite_keeps
    | with_reducible apply ite_fst_keeps
    | with_reducible apply modRun_keeps hP
    | with_reducible apply beginPhase_keeps hP
    | split

theorem submitStart_keeps (hP : Plain P) {t : State} (i : Slot) (h : P t) :
    P (submitStart i t).1 := by
  unfold submitStart
  try dsimp only
  repeat' first
    | with_reducible exact h
    | with_reducible apply ite_keeps
    | with_reducible apply ite_fst_keeps
    | with_reducible apply submit_keeps hP
    | split

theorem beginStopping_keeps (hP : Plain P) {t : State} (i : Slot) (v : Verdict) (h : P t) :
    P (beginStopping i v t).1 := by
  unfold beginStopping
  try dsimp only
  repeat' first
    | with_reducible exact h
    | with_reducible apply ite_keeps
    | with_reducible apply ite_fst_keeps
    | with_reducible apply submit_keeps hP
    | with_reducible apply modRun_keeps hP

theorem endAtOnce_keeps (hP : Plain P) {t : State} (i : Slot) (v : Verdict) (h : P t) :
    P (endAtOnce i v t).1 := by
  unfold endAtOnce
  try dsimp only
  repeat' first
    | with_reducible exact h
    | with_reducible apply ite_keeps
    | with_reducible apply ite_fst_keeps
    | with_reducible apply modRun_keeps hP

theorem endCause_keeps (hP : Plain P) {t : State} (i : Slot) (v : Verdict) (byDrive : Bool) (h : P t) :
    P (endCause i v byDrive t).1 := by
  unfold endCause
  try dsimp only
  repeat' first
    | with_reducible exact h
    | with_reducible apply ite_keeps
    | with_reducible apply ite_fst_keeps
    | with_reducible apply beginStopping_keeps hP
    | with_reducible apply endAtOnce_keeps hP
    | split

theorem waitStop_keeps (hP : Plain P) {t : State} (i : Slot) (reason : StopReason) (v : Verdict) (h : P t) :
    P (waitStop i reason v t).1 := by
  unfold waitStop
  try dsimp only
  repeat' first
    | with_reducible exact h
    | with_reducible apply ite_keeps
    | with_reducible apply ite_fst_keeps
    | with_reducible apply modRun_keeps hP
    | with_reducible apply beginStopping_keeps hP
    | with_reducible apply endAtOnce_keeps hP
    | split

theorem hardStop_keeps (hP : Plain P) {t : State} (i : Slot) (reason : StopReason) (h : P t) :
    P (hardStop i reason t).1 := by
  unfold hardStop
  try dsimp only
  repeat' first
    | with_reducible exact h
    | with_reducible apply ite_keeps
    | with_reducible apply ite_fst_keeps
    | with_reducible apply renounce_keeps hP
    | with_reducible apply modRun_keeps hP
    | with_reducible apply endAtOnce_keeps hP
    | split

theorem stopPlan_keeps (hP : Plain P) {t : State} (i : Slot) (reason : StopReason) (h : P t) :
    P (stopPlan i reason t).1 := by
  unfold stopPlan
  try dsimp only
  repeat' first
    | with_reducible exact h
    | with_reducible apply ite_keeps
    | with_reducible apply ite_fst_keeps
    | with_reducible apply modRun_keeps hP

theorem goOn_keeps (hP : Plain P) {t : State} (i : Slot) (run : Run) (v : Verdict) (onFail : OnFail) (h : P t) :
    P (goOn i run v onFail t).1 := by
  unfold goOn
  try dsimp only
  repeat' first
    | with_reducible exact h
    | with_reducible apply ite_keeps
    | with_reducible apply ite_fst_keeps
    | with_reducible apply stopPlan_keeps hP
    | with_reducible apply modRun_keeps hP
    | split

theorem phaseEnded_keeps (hP : Plain P) {t : State} (i : Slot) (h : P t) :
    P (phaseEnded i t).1 := by
  unfold phaseEnded
  try dsimp only
  repeat' first
    | with_reducible exact h
    | with_reducible apply ite_keeps
    | with_reducible apply ite_fst_keeps
    | with_reducible apply modRun_keeps hP
    | with_reducible apply hP.raiseSlot
    | (with_reducible refine hP.modSlot _ _ ?_ ?_; focus (intro r; exact ⟨⟨rfl, rfl, rfl, rfl, rfl, rfl, rfl⟩, rfl⟩))
    | with_reducible apply goOn_keeps hP
    | split

theorem takeNoAttach_keeps (hP : Plain P) {t : State} (i : Slot) (h : P t) :
    P (takeNoAttach i t).1 := by
  unfold takeNoAttach
  try dsimp only
  repeat' first
    | with_reducible exact h
    | with_reducible apply ite_keeps
    | with_reducible apply ite_fst_keeps
    | with_reducible apply modRun_keeps hP
    | with_reducible apply endCause_keeps hP
    | split

theorem enterOnTime_keeps (hP : Plain P) {t : State} (i : Slot) (onTime : Nat) (h : P t) :
    P (enterOnTime i onTime t).1 := by
  unfold enterOnTime
  try dsimp only
  repeat' first
    | with_reducible exact h
    | with_reducible apply ite_keeps
    | with_reducible apply ite_fst_keeps
    | with_reducible apply modRun_keeps hP

theorem spinReady_keeps (hP : Plain P) {t : State} (i : Slot) (h : P t) :
    P (spinReady i t).1 := by
  unfold spinReady
  try dsimp only
  repeat' first
    | with_reducible exact h
    | with_reducible apply ite_keeps
    | with_reducible apply ite_fst_keeps
    | with_reducible apply submitStart_keeps hP
    | with_reducible apply staleAtResume_keeps hP
    | with_reducible apply modRun_keeps hP
    | with_reducible apply enterOnTime_keeps hP
    | split

theorem spinFailed_keeps (hP : Plain P) {t : State} (i : Slot) (h : P t) :
    P (spinFailed i t).1 := by
  unfold spinFailed
  try dsimp only
  repeat' first
    | with_reducible exact h
    | with_reducible apply ite_keeps
    | with_reducible apply ite_fst_keeps
    | with_reducible apply endCause_keeps hP
    | split

theorem cycleDown_keeps (hP : Plain P) {t : State} (i : Slot) (h : P t) :
    P (cycleDown i t).1 := by
  unfold cycleDown
  try dsimp only
  repeat' first
    | with_reducible exact h
    | with_reducible apply ite_keeps
    | with_reducible apply ite_fst_keeps
    | with_reducible apply modRun_keeps hP

theorem cycleOff_keeps (hP : Plain P) {t : State} (i : Slot) (h : P t) :
    P (cycleOff i t).1 := by
  unfold cycleOff
  try dsimp only
  repeat' first
    | with_reducible exact h
    | with_reducible apply ite_keeps
    | with_reducible apply ite_fst_keeps
    | with_reducible apply modRun_keeps hP
    | split

theorem cycleDone_keeps (hP : Plain P) {t : State} (i : Slot) (h : P t) :
    P (cycleDone i t).1 := by
  unfold cycleDone
  try dsimp only
  repeat' first
    | with_reducible exact h
    | with_reducible apply ite_keeps
    | with_reducible apply ite_fst_keeps
    | with_reducible apply modRun_keeps hP
    | with_reducible apply endCause_keeps hP
    | split

theorem toStep_keeps (hP : Plain P) {t : State} (i : Slot) (step : CycleStep) (h : P t) :
    P (toStep i step t) := by
  unfold toStep
  try dsimp only
  repeat' first
    | with_reducible exact h
    | with_reducible apply ite_keeps
    | with_reducible apply ite_fst_keeps
    | with_reducible apply modRun_keeps hP

theorem phaseBound_keeps (hP : Plain P) {t : State} (i : Slot) (h : P t) :
    P (phaseBound i t).1 := by
  unfold phaseBound
  try dsimp only
  repeat' first
    | with_reducible exact h
    | with_reducible apply ite_keeps
    | with_reducible apply ite_fst_keeps
    | with_reducible apply beginPhase_keeps hP
    | with_reducible apply toStep_keeps hP
    | split

theorem suspend_keeps (hP : Plain P) {t : State} (i : Slot) (reason : Interruption) (run : Run) (h : P t) :
    P (suspend i reason run t).1 := by
  unfold suspend
  try dsimp only
  repeat' first
    | with_reducible exact h
    | with_reducible apply ite_keeps
    | with_reducible apply ite_fst_keeps
    | with_reducible apply withdrawItem_keeps hP
    | with_reducible apply modRun_keeps hP
    | with_reducible apply hP.raiseSlot
    | with_reducible apply submit_keeps hP

theorem interruptCycle_keeps (hP : Plain P) {t : State} (i : Slot) (run : Run) (h : P t) :
    P (interruptCycle i run t).1 := by
  unfold interruptCycle
  try dsimp only
  repeat' first
    | with_reducible exact h
    | with_reducible apply ite_keeps
    | with_reducible apply ite_fst_keeps
    | with_reducible apply toStep_keeps hP
    | split

theorem interrupted_keeps (hP : Plain P) {t : State} (i : Slot) (reason : Interruption) (h : P t) :
    P (interrupted i reason t).1 := by
  unfold interrupted
  try dsimp only
  repeat' first
    | with_reducible exact h
    | with_reducible apply ite_keeps
    | with_reducible apply ite_fst_keeps
    | with_reducible apply modRun_keeps hP
    | with_reducible apply suspend_keeps hP
    | with_reducible apply endCause_keeps hP
    | with_reducible apply interruptCycle_keeps hP
    | split

theorem startAnswered_keeps (hP : Plain P) {t : State} (i : Slot) (phase : Nat) (answer : Answer) (h : P t) :
    P (startAnswered i phase answer t).1 := by
  unfold startAnswered
  try dsimp only
  repeat' first
    | with_reducible exact h
    | with_reducible apply ite_keeps
    | with_reducible apply ite_fst_keeps
    | with_reducible apply modRun_keeps hP
    | with_reducible apply submitStart_keeps hP
    | with_reducible apply waitStop_keeps hP
    | split

theorem stopAnswered_keeps (hP : Plain P) {t : State} (i : Slot) (suspension : Bool) (answer : Answer) (h : P t) :
    P (stopAnswered i suspension answer t).1 := by
  unfold stopAnswered
  try dsimp only
  repeat' first
    | with_reducible exact h
    | with_reducible apply ite_keeps
    | with_reducible apply ite_fst_keeps
    | with_reducible apply modRun_keeps hP
    | with_reducible apply submit_keeps hP
    | split

theorem planAnswered_keeps (hP : Plain P) {t : State} (it : Item) (answer : Answer) (h : P t) :
    P (planAnswered it answer t).1 := by
  unfold planAnswered
  try dsimp only
  repeat' first
    | with_reducible exact h
    | with_reducible apply ite_keeps
    | with_reducible apply ite_fst_keeps
    | with_reducible apply startAnswered_keeps hP
    | with_reducible apply stopAnswered_keeps hP
    | split

theorem pollTestState_keeps (hP : Plain P) {t : State} (i : Slot) (x : TestState) (h : P t) :
    P (pollTestState i x t).1 := by
  unfold pollTestState
  try dsimp only
  repeat' first
    | with_reducible exact h
    | with_reducible apply ite_keeps
    | with_reducible apply ite_fst_keeps
    | with_reducible apply submitStart_keeps hP
    | with_reducible apply hP.raiseSlot
    | split

theorem liveDone_keeps (hP : Plain P) {t : State} (i : Slot) (h : P t) :
    P (liveDone i t).1 := by
  unfold liveDone
  try dsimp only
  repeat' first
    | with_reducible exact h
    | with_reducible apply ite_keeps
    | with_reducible apply ite_fst_keeps
    | with_reducible apply submitStart_keeps hP
    | split

theorem takeOverTemp_keeps (_hP : Plain P) {t : State} (i : Slot) (h : P t) :
    P (takeOverTemp i t).1 := by
  unfold takeOverTemp
  try dsimp only
  repeat' first
    | with_reducible exact h
    | with_reducible apply ite_keeps
    | with_reducible apply ite_fst_keeps
    | split

theorem actOnReport_keeps (hP : Plain P) {t : State} (i : Slot) (kind : ReportKind) (live : Bool) (h : P t) :
    P (actOnReport i kind live t).1 := by
  unfold actOnReport
  try dsimp only
  repeat' first
    | with_reducible exact h
    | with_reducible apply ite_keeps
    | with_reducible apply ite_fst_keeps
    | with_reducible apply liveDone_keeps hP
    | with_reducible apply takeOverTemp_keeps hP
    | split

theorem takeKind_keeps (hP : Plain P) {t : State} (i : Slot) (rep : Report) (h : P t) :
    P (takeKind i rep t).1 := by
  unfold takeKind
  try dsimp only
  repeat' first
    | with_reducible exact h
    | with_reducible apply ite_keeps
    | with_reducible apply ite_fst_keeps
    | with_reducible apply setOutcome_keeps hP
    | with_reducible apply actOnReport_keeps hP

theorem takeReport_keeps (hP : Plain P) {t : State} (i : Slot) (kind : ReportKind) (h : P t) :
    P (takeReport i kind t).1 := by
  unfold takeReport
  try dsimp only
  repeat' first
    | with_reducible exact h
    | with_reducible apply ite_keeps
    | with_reducible apply ite_fst_keeps
    | with_reducible apply takeKind_keeps hP
    | (with_reducible refine hP.modSlot _ _ ?_ ?_; focus (intro r; exact ⟨⟨rfl, rfl, rfl, rfl, rfl, rfl, rfl⟩, rfl⟩))
    | split

theorem wallTest_keeps (hP : Plain P) {t : State} (i : Slot) (h : P t) :
    P (wallTest i t).1 := by
  unfold wallTest
  try dsimp only
  repeat' first
    | with_reducible exact h
    | with_reducible apply ite_keeps
    | with_reducible apply ite_fst_keeps
    | with_reducible apply endCause_keeps hP
    | split

theorem wallSecond_keeps (hP : Plain P) {t : State} (i : Slot) (h : P t) :
    P (wallSecond i t).1 := by
  unfold wallSecond
  try dsimp only
  repeat' first
    | with_reducible exact h
    | with_reducible apply ite_keeps
    | with_reducible apply ite_fst_keeps
    | with_reducible apply modRun_keeps hP
    | with_reducible apply doseTick_keeps hP
    | split

/-! ## Grade and ship -/

theorem grade_keeps (hP : Plain P) {t : State} (i : Slot) (reason : StopReason) (h : P t) :
    P (grade i reason t).1 := by
  unfold grade
  try dsimp only
  repeat' first
    | with_reducible exact h
    | with_reducible apply ite_keeps
    | with_reducible apply ite_fst_keeps
    | with_reducible apply hP.raiseSlot
    | with_reducible apply dropRun_keeps hP
    | (with_reducible refine hP.modSlot _ _ ?_ ?_; focus (intro r; exact ⟨⟨rfl, rfl, rfl, rfl, rfl, rfl, rfl⟩, rfl⟩))

theorem modResult_keeps (hP : Plain P) {t : State} (i : Slot) (f : Result → Result) (h : P t) :
    P (modResult i f t) := by
  unfold modResult
  try dsimp only
  repeat' first
    | with_reducible exact h
    | with_reducible apply ite_keeps
    | with_reducible apply ite_fst_keeps
    | (with_reducible refine hP.modSlot _ _ ?_ ?_; focus (intro r; exact ⟨⟨rfl, rfl, rfl, rfl, rfl, rfl, rfl⟩, rfl⟩))

theorem modShip_keeps (hP : Plain P) {t : State} (i : Slot) (f : ShipRec → ShipRec) (h : P t) :
    P (modShip i f t) := by
  unfold modShip
  try dsimp only
  repeat' first
    | with_reducible exact h
    | with_reducible apply ite_keeps
    | with_reducible apply ite_fst_keeps
    | (with_reducible refine hP.modSlot _ _ ?_ ?_; focus (intro r; exact ⟨⟨rfl, rfl, rfl, rfl, rfl, rfl, rfl⟩, rfl⟩))

theorem setHold_keeps (hP : Plain P) {t : State} (b : BinIx) (f : Bin → List Slot) (h : P t) :
    P (t.modBin b fun bin => { bin with hold := f bin }) := by
  refine hP.holds _ ?_ h
  intro c
  by_cases hc : c = b
  · subst hc; simp
  · have : b.val ≠ c.val := fun e => hc (Fin.ext e.symm)
    simp [Vector.getElem_set_ne, this]

theorem noteFull_keeps (hP : Plain P) {t : State} (b : BinIx) (h : P t) :
    P (noteFull b t) := by
  unfold noteFull
  try dsimp only
  repeat' first
    | with_reducible exact h
    | with_reducible apply ite_keeps
    | with_reducible apply ite_fst_keeps
    | with_reducible apply hP.raiseController

theorem tryReserve_keeps (hP : Plain P) {t : State} (i : Slot) (h : P t) : P (tryReserve i t).1 := by
  unfold tryReserve
  split
  · exact h
  · split
    · next hr => exact hP.reserve _ _ (by simp only [Bool.and_eq_true] at hr; exact hr.2) h
    · exact setHold_keeps hP _ (fun bin => bin.hold ++ [i]) h

theorem examineHold_keeps (hP : Plain P) {t : State} (b : BinIx) (h : P t) : P (examineHold b t).1 := by
  unfold examineHold
  split
  · exact h
  · split
    · next hr =>
      refine hP.reserve _ _ ?_ (setHold_keeps hP _ _ h)
      unfold binHasRoom at hr ⊢
      have := of_decide_eq_true hr
      simpa [binAt, Bin.use, State.modBin] using this
    · exact h

theorem leaveHold_keeps (hP : Plain P) {t : State} (i : Slot) (h : P t) : P (leaveHold i t) :=
  hP.holds _ (by intro b; simp) h

theorem startStamp_keeps (hP : Plain P) {t : State} (i : Slot) (h : P t) :
    P (startStamp i t).1 := by
  unfold startStamp
  try dsimp only
  repeat' first
    | with_reducible exact h
    | with_reducible apply ite_keeps
    | with_reducible apply ite_fst_keeps
    | with_reducible apply submit_keeps hP
    | with_reducible apply modShip_keeps hP
    | split

theorem shipNext_keeps (hP : Plain P) {t : State} (i : Slot) (h : P t) :
    P (shipNext i t).1 := by
  unfold shipNext
  try dsimp only
  repeat' first
    | with_reducible exact h
    | with_reducible apply ite_keeps
    | with_reducible apply ite_fst_keeps
    | with_reducible apply submit_keeps hP
    | with_reducible apply modShip_keeps hP
    | with_reducible apply startStamp_keeps hP
    | split

theorem shipWrite_keeps (hP : Plain P) {t : State} (i : Slot) (h : P t) :
    P (shipWrite i t).1 := by
  unfold shipWrite
  try dsimp only
  repeat' first
    | with_reducible exact h
    | with_reducible apply ite_keeps
    | with_reducible apply ite_fst_keeps
    | with_reducible apply modShip_keeps hP

theorem firstDriveStep_keeps (hP : Plain P) {t : State} (i : Slot) (path : ShipPath) (h : P t) :
    P (firstDriveStep i path t).1 := by
  unfold firstDriveStep
  try dsimp only
  repeat' first
    | with_reducible exact h
    | with_reducible apply ite_keeps
    | with_reducible apply ite_fst_keeps
    | with_reducible apply startStamp_keeps hP
    | split

theorem reserved_keeps (hP : Plain P) {t : State} (i : Slot) (h : P t) :
    P (reserved i t).1 := by
  unfold reserved
  try dsimp only
  repeat' first
    | with_reducible exact h
    | with_reducible apply ite_keeps
    | with_reducible apply ite_fst_keeps
    | (with_reducible refine hP.modSlot _ _ ?_ ?_; focus (intro r; exact ⟨⟨rfl, rfl, rfl, rfl, rfl, rfl, rfl⟩, rfl⟩))
    | with_reducible apply setOcc_keeps hP
    | with_reducible apply firstDriveStep_keeps hP
    | split

theorem shipBound_keeps (hP : Plain P) {t : State} (i : Slot) (h : P t) :
    P (shipBound i t).1 := by
  unfold shipBound
  try dsimp only
  repeat' first
    | with_reducible exact h
    | with_reducible apply ite_keeps
    | with_reducible apply ite_fst_keeps
    | with_reducible apply firstDriveStep_keeps hP
    | split

theorem shipPowerOff_keeps (hP : Plain P) {t : State} (i : Slot) (shipped : Bool) (h : P t) :
    P (shipPowerOff i shipped t).1 := by
  unfold shipPowerOff
  try dsimp only
  repeat' first
    | with_reducible exact h
    | with_reducible apply ite_keeps
    | with_reducible apply ite_fst_keeps
    | with_reducible apply modShip_keeps hP

theorem shipComplete_keeps (hP : Plain P) {t : State} (i : Slot) (shipped : Bool) (h : P t) :
    P (shipComplete i shipped t).1 := by
  unfold shipComplete
  try dsimp only
  repeat' first
    | with_reducible exact h
    | with_reducible apply ite_keeps
    | with_reducible apply ite_fst_keeps
    | with_reducible apply modResult_keeps hP
    | (with_reducible refine hP.modSlot _ _ ?_ ?_; focus (intro r; exact ⟨⟨rfl, rfl, rfl, rfl, rfl, rfl, rfl⟩, rfl⟩))
    | with_reducible apply hP.unlockLatch
    | with_reducible apply setOcc_keeps hP
    | with_reducible apply hP.raiseSlot
    | split

theorem advance_keeps (hP : Plain P) {t : State} (i : Slot) (h : P t) :
    P (advance i t) := by
  unfold advance
  try dsimp only
  repeat' first
    | with_reducible exact h
    | with_reducible apply ite_keeps
    | with_reducible apply ite_fst_keeps
    | with_reducible apply modShip_keeps hP

theorem shipAnswered_keeps (hP : Plain P) {t : State} (it : Item) (answer : Answer) (h : P t) :
    P (shipAnswered it answer t).1 := by
  unfold shipAnswered
  try dsimp only
  repeat' first
    | with_reducible exact h
    | with_reducible apply ite_keeps
    | with_reducible apply ite_fst_keeps
    | with_reducible apply advance_keeps hP
    | with_reducible apply submit_keeps hP
    | with_reducible apply modShip_keeps hP
    | split

theorem shipRestart_keeps (hP : Plain P) {t : State} (i : Slot) (cause : ShipCause) (h : P t) :
    P (shipRestart i cause t).1 := by
  unfold shipRestart
  try dsimp only
  repeat' first
    | with_reducible exact h
    | with_reducible apply ite_keeps
    | with_reducible apply ite_fst_keeps
    | with_reducible apply modShip_keeps hP

theorem shipDivert_keeps (hP : Plain P) {t : State} (i : Slot) (cause : ShipCause) (h : P t) :
    P (shipDivert i cause t).1 := hP.releaseReservation i h

theorem reworkEnd_keeps (hP : Plain P) {t : State} (i : Slot) (h : P t) :
    P (reworkEnd i t).1 := by
  unfold reworkEnd
  try dsimp only
  repeat' first
    | with_reducible exact h
    | with_reducible apply ite_keeps
    | with_reducible apply ite_fst_keeps
    | with_reducible apply hP.raiseSlot

theorem shipFail_keeps (hP : Plain P) {t : State} (i : Slot) (cause : ShipCause) (h : P t) :
    P (shipFail i cause t).1 := by
  unfold shipFail
  try dsimp only
  repeat' first
    | with_reducible exact h
    | with_reducible apply ite_keeps
    | with_reducible apply ite_fst_keeps
    | with_reducible apply shipDivert_keeps hP
    | with_reducible apply shipRestart_keeps hP
    | with_reducible apply reworkEnd_keeps hP
    | split

theorem renounceShip_keeps (hP : Plain P) {t : State} (i : Slot) (h : P t) : P (renounceShip i t) :=
  foldl_keeps (fun _ _ h => renounce_keeps hP _ _ h) _ h

theorem divert_keeps (hP : Plain P) {t : State} (i : Slot) (cause : ShipCause) (h : P t) :
    P (divert i cause t).1 := by
  unfold divert
  try dsimp only
  repeat' first
    | with_reducible exact h
    | with_reducible apply ite_keeps
    | with_reducible apply ite_fst_keeps
    | with_reducible apply modResult_keeps hP
    | with_reducible apply hP.raiseSlot
    | (with_reducible refine hP.modSlot _ _ ?_ ?_; focus (intro r; exact ⟨⟨rfl, rfl, rfl, rfl, rfl, rfl, rfl⟩, rfl⟩))
    | with_reducible apply hP.withdrawEntry
    | with_reducible apply setOcc_keeps hP
    | with_reducible apply renounceShip_keeps hP

theorem enterBinWait_keeps (hP : Plain P) {t : State} (i : Slot) (h : P t) :
    P (enterBinWait i t).1 := by
  unfold enterBinWait
  try dsimp only
  repeat' first
    | with_reducible exact h
    | with_reducible apply ite_keeps
    | with_reducible apply ite_fst_keeps
    | with_reducible apply setOcc_keeps hP
    | with_reducible apply hP.withdrawEntry

theorem leaveTote_keeps (hP : Plain P) {t : State} (i : Slot) (h : P t) :
    P (leaveTote i t).1 := by
  unfold leaveTote
  try dsimp only
  repeat' first
    | with_reducible exact h
    | with_reducible apply ite_keeps
    | with_reducible apply ite_fst_keeps
    | with_reducible apply modResult_keeps hP
    | with_reducible apply leaveHold_keeps hP
    | with_reducible apply renounceShip_keeps hP
    | (with_reducible refine hP.modSlot _ _ ?_ ?_; focus (intro r; exact ⟨⟨rfl, rfl, rfl, rfl, rfl, rfl, rfl⟩, rfl⟩))
    | with_reducible apply hP.releaseReservation

/-! ## Slot supervisor -/

theorem emptyConsole_keeps (hP : Plain P) {t : State} (i : Slot) (h : P t) :
    P (emptyConsole i t) := by
  unfold emptyConsole
  try dsimp only
  repeat' first
    | with_reducible exact h
    | with_reducible apply ite_keeps
    | with_reducible apply ite_fst_keeps
    | (with_reducible refine hP.modSlot _ _ ?_ ?_; focus (intro r; exact ⟨⟨rfl, rfl, rfl, rfl, rfl, rfl, rfl⟩, rfl⟩))

theorem insertion_keeps (hP : Plain P) {t : State} (i : Slot) (h : P t) :
    P (insertion i t).1 := by
  unfold insertion
  try dsimp only
  repeat' first
    | with_reducible exact h
    | with_reducible apply ite_keeps
    | with_reducible apply ite_fst_keeps
    | with_reducible apply hP.raiseSlot
    | with_reducible apply emptyConsole_keeps hP
    | with_reducible apply setOcc_keeps hP

theorem normalRemoval_keeps (hP : Plain P) {t : State} (i : Slot) (h : P t) :
    P (normalRemoval i t) := by
  unfold normalRemoval
  try dsimp only
  repeat' first
    | with_reducible exact h
    | with_reducible apply ite_keeps
    | with_reducible apply ite_fst_keeps
    | with_reducible apply setOcc_keeps hP
    | with_reducible apply hP.raiseSlot
    | with_reducible apply hP.lockLatch
    | with_reducible apply hP.convertReservation

theorem loss_keeps (_hP : Plain P) {t : State} (i : Slot) (h : P t) :
    P (loss i t).1 := by
  unfold loss
  try dsimp only
  exact h

theorem lost_keeps (hP : Plain P) {t : State} (i : Slot) (h : P t) :
    P (lost i t) := by
  unfold lost
  try dsimp only
  repeat' first
    | with_reducible exact h
    | with_reducible apply ite_keeps
    | with_reducible apply ite_fst_keeps
    | (with_reducible refine hP.modSlot _ _ ?_ ?_; focus (intro r; exact ⟨⟨rfl, rfl, rfl, rfl, rfl, rfl, rfl⟩, rfl⟩))
    | with_reducible apply hP.raiseSlot
    | with_reducible apply setOcc_keeps hP

theorem removal_keeps (hP : Plain P) {t : State} (i : Slot) (h : P t) :
    P (removal i t).1 := by
  unfold removal
  try dsimp only
  repeat' first
    | with_reducible exact h
    | with_reducible apply ite_keeps
    | with_reducible apply ite_fst_keeps
    | with_reducible apply normalRemoval_keeps hP
    | with_reducible apply loss_keeps hP
    | split

theorem freshBinding_keeps (hP : Plain P) {t : State} (i : Slot) (h : P t) :
    P (freshBinding i t).1 := by
  unfold freshBinding
  try dsimp only
  repeat' first
    | with_reducible exact h
    | with_reducible apply ite_keeps
    | with_reducible apply ite_fst_keeps
    | with_reducible apply hP.raiseSlot
    | with_reducible apply setOcc_keeps hP
    | split

theorem bound_keeps (hP : Plain P) {t : State} (i : Slot) (cmp : Comparison) (h : P t) :
    P (bound i cmp t).1 := by
  unfold bound
  try dsimp only
  repeat' first
    | with_reducible exact h
    | with_reducible apply ite_keeps
    | with_reducible apply ite_fst_keeps
    | (with_reducible refine hP.modSlot _ _ ?_ ?_; focus (intro r; exact ⟨⟨rfl, rfl, rfl, rfl, rfl, rfl, rfl⟩, rfl⟩))
    | with_reducible apply hP.raiseSlot
    | with_reducible apply setOcc_keeps hP
    | with_reducible apply freshBinding_keeps hP

theorem swapped_keeps (hP : Plain P) {t : State} (i : Slot) (h : P t) :
    P (swapped i t) := by
  unfold swapped
  try dsimp only
  repeat' first
    | with_reducible exact h
    | with_reducible apply ite_keeps
    | with_reducible apply ite_fst_keeps
    | with_reducible apply hP.raiseSlot
    | with_reducible apply setOcc_keeps hP
    | (with_reducible refine hP.modSlot _ _ ?_ ?_; focus (intro r; exact ⟨⟨rfl, rfl, rfl, rfl, rfl, rfl, rfl⟩, rfl⟩))

theorem attachFailed_keeps (_hP : Plain P) {t : State} (i : Slot) (h : P t) :
    P (attachFailed i t).1 := by
  unfold attachFailed
  try dsimp only
  repeat' first
    | with_reducible exact h
    | with_reducible apply ite_keeps
    | with_reducible apply ite_fst_keeps
    | split

theorem reexamine_keeps (_hP : Plain P) {t : State} (i : Slot) (h : P t) :
    P (reexamine i t).1 := by
  unfold reexamine
  try dsimp only
  repeat' first
    | with_reducible exact h
    | with_reducible apply ite_keeps
    | with_reducible apply ite_fst_keeps

theorem unlocked_keeps (hP : Plain P) {t : State} (i : Slot) (h : P t) :
    P (unlocked i t) := by
  unfold unlocked
  try dsimp only
  repeat' first
    | with_reducible exact h
    | with_reducible apply ite_keeps
    | with_reducible apply ite_fst_keeps
    | with_reducible apply hP.unlockLatch
    | with_reducible apply setOcc_keeps hP

theorem pullResult_keeps (hP : Plain P) {t : State} (i : Slot) (h : P t) :
    P (pullResult i t).1 := by
  unfold pullResult
  try dsimp only
  repeat' first
    | with_reducible exact h
    | with_reducible apply ite_keeps
    | with_reducible apply ite_fst_keeps
    | with_reducible apply modResult_keeps hP

theorem unlock_keeps (hP : Plain P) {t : State} (i : Slot) (h : P t) :
    P (unlock i t).1 := by
  unfold unlock
  try dsimp only
  repeat' first
    | with_reducible exact h
    | with_reducible apply ite_keeps
    | with_reducible apply ite_fst_keeps
    | with_reducible apply hP.unlockLatch
    | with_reducible apply pullResult_keeps hP
    | split

theorem placeDisabled_keeps (hP : Plain P) {t : State} (i : Slot) (h : P t) :
    P (placeDisabled i t) := by
  unfold placeDisabled
  try dsimp only
  repeat' first
    | with_reducible exact h
    | with_reducible apply ite_keeps
    | with_reducible apply ite_fst_keeps
    | with_reducible apply setOcc_keeps hP

theorem placeRestarted_keeps (hP : Plain P) {t : State} (i : Slot) (h : P t) :
    P (placeRestarted i t).1 := by
  unfold placeRestarted
  try dsimp only
  repeat' first
    | with_reducible exact h
    | with_reducible apply ite_keeps
    | with_reducible apply ite_fst_keeps
    | with_reducible apply setOcc_keeps hP
    | (with_reducible refine hP.modSlot _ _ ?_ ?_; focus (intro r; exact ⟨⟨rfl, rfl, rfl, rfl, rfl, rfl, rfl⟩, rfl⟩))
    | split

theorem restartSlot_keeps (hP : Plain P) {t : State} (i : Slot) (h : P t) :
    P (restartSlot i t) := by
  unfold restartSlot
  try dsimp only
  repeat' first
    | with_reducible exact h
    | with_reducible apply ite_keeps
    | with_reducible apply ite_fst_keeps
    | with_reducible apply dropRun_keeps hP
    | (with_reducible refine hP.modSlot _ _ ?_ ?_; focus (intro r; exact ⟨⟨rfl, rfl, rfl, rfl, rfl, rfl, rfl⟩, rfl⟩))
    | with_reducible apply renounce_keeps hP
    | with_reducible apply hP.emptySegment
    | with_reducible apply hP.spinDown

theorem ladderPulse_keeps (hP : Kept P) {t : State} (i : Slot) (h : P t) :
    P (ladderPulse i t).1 := by
  unfold ladderPulse
  try dsimp only
  repeat' first
    | with_reducible exact h
    | with_reducible apply ite_keeps
    | with_reducible apply ite_fst_keeps
    | with_reducible apply hP.spinDown
    | (with_reducible refine hP.modSlot _ _ ?_ ?_; focus (intro r; exact ⟨⟨rfl, rfl, rfl, rfl, rfl, rfl, rfl⟩, rfl⟩))
    | with_reducible apply setOcc_keeps hP.toPlain
    | with_reducible apply hP.discardDrive

theorem ladderCycle_keeps (hP : Plain P) {t : State} (i : Slot) (h : P t) :
    P (ladderCycle i t).1 := by
  unfold ladderCycle
  try dsimp only
  repeat' first
    | with_reducible exact h
    | with_reducible apply ite_keeps
    | with_reducible apply ite_fst_keeps
    | (with_reducible refine hP.modSlot _ _ ?_ ?_; focus (intro r; exact ⟨⟨rfl, rfl, rfl, rfl, rfl, rfl, rfl⟩, rfl⟩))

theorem ladderSilent_keeps (hP : Plain P) {t : State} (i : Slot) (h : P t) :
    P (ladderSilent i t).1 := by
  unfold ladderSilent
  try dsimp only
  repeat' first
    | with_reducible exact h
    | with_reducible apply ite_keeps
    | with_reducible apply ite_fst_keeps
    | with_reducible apply hP.raiseSlot
    | (with_reducible refine hP.modSlot _ _ ?_ ?_; focus (intro r; exact ⟨⟨rfl, rfl, rfl, rfl, rfl, rfl, rfl⟩, rfl⟩))

theorem unresponsive_keeps (hP : Kept P) {t : State} (i : Slot) (h : P t) :
    P (unresponsive i t).1 := by
  unfold unresponsive
  try dsimp only
  repeat' first
    | with_reducible exact h
    | with_reducible apply ite_keeps
    | with_reducible apply ite_fst_keeps
    | with_reducible apply hP.raiseSlot
    | (with_reducible refine hP.modSlot _ _ ?_ ?_; focus (intro r; exact ⟨⟨rfl, rfl, rfl, rfl, rfl, rfl, rfl⟩, rfl⟩))
    | with_reducible apply ladderPulse_keeps hP
    | with_reducible apply ladderCycle_keeps hP.toPlain
    | with_reducible apply ladderSilent_keeps hP.toPlain

/-! ## Console -/

theorem modCon_keeps (hP : Plain P) {t : State} (i : Slot) (f : ConsoleRec → ConsoleRec) (h : P t) :
    P (modCon i f t) := by
  unfold modCon
  try dsimp only
  repeat' first
    | with_reducible exact h
    | with_reducible apply ite_keeps
    | with_reducible apply ite_fst_keeps
    | (with_reducible refine hP.modSlot _ _ ?_ ?_; focus (intro r; exact ⟨⟨rfl, rfl, rfl, rfl, rfl, rfl, rfl⟩, rfl⟩))

theorem tellAction_keeps (hP : Plain P) {t : State} (i : Slot) (sig : Signature) (h : P t) :
    P (tellAction i sig t) := by
  unfold tellAction
  try dsimp only
  repeat' first
    | with_reducible exact h
    | with_reducible apply ite_keeps
    | with_reducible apply ite_fst_keeps
    | with_reducible apply tellRunner_keeps hP
    | split

theorem trip_keeps (hP : Plain P) {t : State} (i : Slot) (done : List Signature) (h : P t) : P (trip i done t) :=
  foldl_keeps (fun _ _ h => tellAction_keeps hP _ _ h) _ (hP.raiseSlot _ _ (modRun_keeps hP _ _ h))

theorem matchByte_keeps (hP : Plain P) {t : State} (i : Slot) (run : Run) (b : Byte) (h : P t) :
    P (matchByte i run b t) := by
  unfold matchByte
  try dsimp only
  repeat' first
    | with_reducible exact h
    | with_reducible apply ite_keeps
    | with_reducible apply ite_fst_keeps
    | with_reducible apply modCon_keeps hP
    | with_reducible apply trip_keeps hP
    | split

theorem byteArrived_keeps (hP : Plain P) {t : State} (i : Slot) (b : Byte) (h : P t) :
    P (byteArrived i b t) := by
  unfold byteArrived
  try dsimp only
  repeat' first
    | with_reducible exact h
    | with_reducible apply ite_keeps
    | with_reducible apply ite_fst_keeps
    | with_reducible apply modCon_keeps hP
    | with_reducible apply matchByte_keeps hP
    | split

theorem framingError_keeps (hP : Plain P) {t : State} (i : Slot) (h : P t) :
    P (framingError i t) := by
  unfold framingError
  try dsimp only
  repeat' first
    | with_reducible exact h
    | with_reducible apply ite_keeps
    | with_reducible apply ite_fst_keeps
    | with_reducible apply modCon_keeps hP

/-! ## Tells -/

theorem pollDone_keeps (hP : Plain P) {t : State} (i : Slot) (test : TestState) (motor : Motor) (temperature progress : Nat) (inService : Bool) (h : P t) :
    P (pollDone i test motor temperature progress inService t).1 := by
  unfold pollDone
  try dsimp only
  repeat' first
    | with_reducible exact h
    | with_reducible apply ite_keeps
    | with_reducible apply ite_fst_keeps
    | (with_reducible refine modDrive_keeps hP _ _ ?_ ?_; focus (intro d; rfl))
    | (with_reducible refine hP.modSlot _ _ ?_ ?_; focus (intro r; exact ⟨⟨rfl, rfl, rfl, rfl, rfl, rfl, rfl⟩, rfl⟩))
    | with_reducible apply hP.motorReport
    | with_reducible apply storeTemperature_keeps hP
    | with_reducible apply pollTestState_keeps hP
    | with_reducible apply pollInService_keeps hP

theorem pollAnswered_keeps (hP : Plain P) {t : State} (it : Item) (answer : Answer) (h : P t) :
    P (pollAnswered it answer t).1 := by
  unfold pollAnswered
  try dsimp only
  repeat' first
    | with_reducible exact h
    | with_reducible apply ite_keeps
    | with_reducible apply ite_fst_keeps
    | with_reducible apply pollDone_keeps hP
    | split

theorem answerOwner_keeps (hP : Kept P) {t : State} (it : Item) (answer : Answer) (h : P t) :
    P (answerOwner it answer t).1 := by
  unfold answerOwner
  try dsimp only
  repeat' first
    | with_reducible exact h
    | with_reducible apply ite_keeps
    | with_reducible apply ite_fst_keeps
    | with_reducible apply hP.attachAnswered
    | with_reducible apply attentionAnswered_keeps hP.toPlain
    | with_reducible apply planAnswered_keeps hP.toPlain
    | with_reducible apply shipAnswered_keeps hP.toPlain
    | with_reducible apply pollAnswered_keeps hP.toPlain
    | split

theorem act_keeps (hP : Kept P) {t : State} (x : Tell) (h : P t) :
    P (act x t).1 := by
  unfold act
  try dsimp only
  repeat' first
    | with_reducible exact h
    | with_reducible apply ite_keeps
    | with_reducible apply ite_fst_keeps
    | with_reducible apply answerOwner_keeps hP
    | with_reducible apply countMissed_keeps hP.toPlain
    | with_reducible apply unresponsive_keeps hP
    | with_reducible apply requery_keeps hP.toPlain
    | with_reducible apply wireFree_keeps hP.toPlain
    | with_reducible apply hP.examine
    | with_reducible apply hP.requestPower
    | with_reducible apply hP.requestSpin
    | with_reducible apply hP.spinDown
    | with_reducible apply powerOff_keeps hP.toPlain
    | with_reducible apply switchedOff_keeps hP
    | with_reducible apply shedDone_keeps hP.toPlain
    | with_reducible apply spinReady_keeps hP.toPlain
    | with_reducible apply spinFailed_keeps hP.toPlain
    | with_reducible apply interrupted_keeps hP.toPlain
    | with_reducible apply takeNoAttach_keeps hP.toPlain
    | with_reducible apply attachFailed_keeps hP.toPlain
    | with_reducible apply bound_keeps hP.toPlain
    | with_reducible apply hP.roundOver
    | with_reducible apply startRun_keeps hP.toPlain
    | with_reducible apply enterPhase_keeps hP.toPlain
    | with_reducible apply phaseBound_keeps hP.toPlain
    | with_reducible apply endCause_keeps hP.toPlain
    | with_reducible apply phaseEnded_keeps hP.toPlain
    | with_reducible apply waitStop_keeps hP.toPlain
    | with_reducible apply hardStop_keeps hP.toPlain
    | with_reducible apply wallTest_keeps hP.toPlain
    | with_reducible apply cycleDown_keeps hP.toPlain
    | with_reducible apply cycleOff_keeps hP.toPlain
    | with_reducible apply cycleDone_keeps hP.toPlain
    | with_reducible apply grade_keeps hP.toPlain
    | with_reducible apply enterBinWait_keeps hP.toPlain
    | with_reducible apply tryReserve_keeps hP.toPlain
    | with_reducible apply reserved_keeps hP.toPlain
    | with_reducible apply examineHold_keeps hP.toPlain
    | with_reducible apply shipBound_keeps hP.toPlain
    | with_reducible apply shipWrite_keeps hP.toPlain
    | with_reducible apply shipNext_keeps hP.toPlain
    | with_reducible apply shipFail_keeps hP.toPlain
    | with_reducible apply divert_keeps hP.toPlain
    | with_reducible apply shipPowerOff_keeps hP.toPlain
    | with_reducible apply shipComplete_keeps hP.toPlain
    | with_reducible apply leaveTote_keeps hP.toPlain
    | with_reducible apply reexamine_keeps hP.toPlain
    | with_reducible apply lost_keeps hP.toPlain
    | with_reducible apply unlocked_keeps hP.toPlain
    | with_reducible apply swapped_keeps hP.toPlain
    | with_reducible apply setOcc_keeps hP.toPlain
    | with_reducible apply placeDisabled_keeps hP.toPlain
    | with_reducible apply placeRestarted_keeps hP.toPlain
    | with_reducible apply submitReset_keeps hP.toPlain
    | with_reducible apply clearRecord_keeps hP.toPlain
    | split

/-- A kept property holds after any tells. -/
theorem carryOut_kept (hP : Kept P) {n : Nat} {l : List Tell} {s t : State} (hs : P s) (h : carryOut n l s = some t) :
    P t := by
  induction n generalizing l s with
  | zero =>
    cases l with
    | nil => exact Option.some.inj h ▸ hs
    | cons a l => simp [carryOut] at h
  | succ n ih =>
    cases l with
    | nil => exact Option.some.inj h ▸ hs
    | cons a l => exact ih (act_keeps hP _ hs) h

end Sys2Proof.Machine
end

