-- ==== Sys2Proof/Laws/Link.lean ====
section
/-! SUPPORT. What the Link Unit's shared operations do: the transmitter's choice, the service of a request, and the
carrying out of tells. -/

namespace Sys2Proof.Machine

/-! ## Carrying out tells -/

@[simp] theorem carryOut_nil (n : Nat) (s : State) : carryOut n [] s = some s := by
  cases n <;> rfl

theorem carryOut_cons (n : Nat) (t : Tell) (l : List Tell) (s : State) :
    carryOut (n + 1) (t :: l) s = carryOut n ((act t s).2 ++ l) (act t s).1 := rfl

/-- Tells that can be carried out can be carried out with a larger bound. -/
theorem carryOut_mono {n m : Nat} (h : n ≤ m) {l : List Tell} {s t : State} (ht : carryOut n l s = some t) :
    carryOut m l s = some t := by
  induction m generalizing n l s with
  | zero => obtain rfl : n = 0 := by omega
            exact ht
  | succ m ih =>
    cases l with
    | nil => simpa using ht
    | cons a l =>
      cases n with
      | zero => simp [carryOut] at ht
      | succ n => exact ih (n := n) (by omega) (by simpa [carryOut] using ht)

/-- Carrying out one list after another. -/
theorem carryOut_append {n m : Nat} {l₁ l₂ : List Tell} {s t u : State} (h₁ : carryOut n l₁ s = some t)
    (h₂ : carryOut m l₂ t = some u) : carryOut (n + m) (l₁ ++ l₂) s = some u := by
  induction n generalizing l₁ s with
  | zero =>
    cases l₁ with
    | nil => simp only [carryOut_nil, Option.some.injEq] at h₁; subst h₁; simpa using h₂
    | cons a l => simp [carryOut] at h₁
  | succ n ih =>
    cases l₁ with
    | nil => simp only [carryOut_nil, Option.some.injEq] at h₁; subst h₁; exact carryOut_mono (by omega) h₂
    | cons a l =>
      rw [carryOut_cons] at h₁
      have := ih h₁
      rw [List.append_assoc] at this
      rw [Nat.succ_add, List.cons_append, carryOut_cons]
      exact this

/-- A property that every tell keeps is kept by the carrying out of any tells. -/
theorem carryOut_keeps {P : State → Prop} (hP : ∀ t s, P s → P (act t s).1) {n : Nat} {l : List Tell} {s t : State}
    (hs : P s) (h : carryOut n l s = some t) : P t := by
  induction n generalizing l s with
  | zero =>
    cases l with
    | nil => simp only [carryOut_nil, Option.some.injEq] at h; exact h ▸ hs
    | cons a l => simp [carryOut] at h
  | succ n ih =>
    cases l with
    | nil => simp only [carryOut_nil, Option.some.injEq] at h; exact h ▸ hs
    | cons a l => exact ih (hP _ _ hs) h

@[simp] theorem conclude_nil (s : State) : conclude (s, []) = .next (startTx s) := by
  simp [conclude]

/-- A command whose tells are carried out answers the next state. -/
theorem conclude_of {x : State × List Tell} {n : Nat} {t : State} (hn : n ≤ Config.tellBound)
    (h : carryOut n x.2 x.1 = some t) : conclude x = .next (startTx t) := by
  simp [conclude, carryOut_mono hn h]

/-! ## The transmitter -/

/-- What the transmitter may change: the frame it sends, the reply order and the notice list. -/
theorem startTx_frame (s : State) :
    startTx s = { s with tx := (startTx s).tx, replies := (startTx s).replies, notices := (startTx s).notices } := by
  unfold startTx
  split
  · rfl
  · split
    · rfl
    · split <;> rfl

@[simp] theorem startTx_slots (s : State) : (startTx s).slots = s.slots := by rw [startTx_frame]
@[simp] theorem startTx_shelves (s : State) : (startTx s).shelves = s.shelves := by rw [startTx_frame]
@[simp] theorem startTx_slot (s : State) (i : Slot) : (startTx s).slot i = s.slot i := by simp [State.slot]
@[simp] theorem startTx_shelf (s : State) (k : Shelf) : (startTx s).shelf k = s.shelf k := by simp [State.shelf]
@[simp] theorem startTx_flags (s : State) : (startTx s).flags = s.flags := by rw [startTx_frame]
@[simp] theorem startTx_enables (s : State) : (startTx s).enables = s.enables := by rw [startTx_frame]
@[simp] theorem startTx_requests (s : State) : (startTx s).requests = s.requests := by rw [startTx_frame]
@[simp] theorem startTx_busyList (s : State) : (startTx s).busyList = s.busyList := by rw [startTx_frame]
@[simp] theorem startTx_held (s : State) : (startTx s).held = s.held := by rw [startTx_frame]
@[simp] theorem startTx_bins (s : State) : (startTx s).bins = s.bins := by rw [startTx_frame]
@[simp] theorem startTx_plans (s : State) : (startTx s).plans = s.plans := by rw [startTx_frame]
@[simp] theorem startTx_now (s : State) : (startTx s).now = s.now := by rw [startTx_frame]
@[simp] theorem startTx_pending (s : State) : (startTx s).pending = s.pending := by rw [startTx_frame]

/-! ## The service of a request -/

/-- The request served next is handled with the queue showing it as served (R205). -/
theorem serve_next {kind tag : Byte} {p : List Byte} {s : State} (h : NextServed kind tag p s) (f : State → Handled) :
    serve kind tag p f s = answerRequest kind tag f (serving kind tag p s) := by
  unfold NextServed at h
  unfold serve serving
  revert h
  cases oldestUnserved s.requests with
  | some q => exact fun h => if_pos h
  | none => exact fun h => if_pos h

/-- A refused request changes nothing but the queue and the replies (R206). -/
theorem answerRequest_refuse {kind tag : Byte} {f : State → Handled} {s : State} {status : Status}
    (h : f s = .refuse status) : answerRequest kind tag f s = .next (answered kind tag status .none s) := by
  simp [answerRequest, h, answered]

/-- A request whose tells are carried out is answered OK from the state that leaves. -/
theorem answerRequest_take {kind tag : Byte} {f : State → Handled} {s s' t : State} {tells : List Tell}
    {body : State → ReplyBody} {n : Nat} (h : f s = .take s' tells body) (hn : n ≤ Config.tellBound)
    (ht : carryOut n tells s' = some t) : answerRequest kind tag f s = .next (answered kind tag .ok (body t) t) := by
  simp [answerRequest, h, answered, carryOut_mono hn ht]

/-- A request that leads to no tell. -/
theorem answerRequest_quiet {kind tag : Byte} {f : State → Handled} {s s' : State} {body : State → ReplyBody}
    (h : f s = .take s' [] body) : answerRequest kind tag f s = .next (answered kind tag .ok (body s') s') :=
  answerRequest_take h (Nat.zero_le _) (carryOut_nil 0 s')

/-- A request that reads. -/
theorem answerRequest_read {kind tag : Byte} {f : State → Handled} {s s' : State} {b : ReplyBody}
    (h : f s = .read s' b) : answerRequest kind tag f s = .next (answered kind tag .ok b s') :=
  answerRequest_quiet (body := fun _ => b) h

/-- A request answered OK without fields, its tells carried out. -/
theorem answerRequest_ok {kind tag : Byte} {f : State → Handled} {s s' t : State} {tells : List Tell} {n : Nat}
    (h : f s = .ok s' tells) (hn : n ≤ Config.tellBound) (ht : carryOut n tells s' = some t) :
    answerRequest kind tag f s = .next (answered kind tag .ok .none t) :=
  answerRequest_take (body := fun _ => .none) h hn ht

/-- A request answered OK without fields that leads to no tell. -/
theorem answerRequest_done {kind tag : Byte} {f : State → Handled} {s s' : State} (h : f s = .ok s' []) :
    answerRequest kind tag f s = .next (answered kind tag .ok .none s') :=
  answerRequest_ok h (Nat.zero_le _) (carryOut_nil 0 s')

section
variable (kind tag : Byte) (p : List Byte) (s : State)
@[simp] theorem serving_slots : (serving kind tag p s).slots = s.slots := rfl
@[simp] theorem serving_shelves : (serving kind tag p s).shelves = s.shelves := rfl
@[simp] theorem serving_slot (i : Slot) : (serving kind tag p s).slot i = s.slot i := rfl
@[simp] theorem serving_shelf (k : Shelf) : (serving kind tag p s).shelf k = s.shelf k := rfl
@[simp] theorem serving_plans : (serving kind tag p s).plans = s.plans := rfl
@[simp] theorem serving_bins : (serving kind tag p s).bins = s.bins := rfl
@[simp] theorem serving_flags : (serving kind tag p s).flags = s.flags := rfl
@[simp] theorem serving_enables : (serving kind tag p s).enables = s.enables := rfl
@[simp] theorem serving_notices : (serving kind tag p s).notices = s.notices := rfl
@[simp] theorem serving_now : (serving kind tag p s).now = s.now := rfl
end

/-! ## The numbers that name a thing -/

@[simp] theorem slotOf_val (i : Slot) : slotOf i.val = some i := by simp [slotOf]
@[simp] theorem shelfOfNat_val (k : Shelf) : shelfOfNat k.val = some k := by simp [shelfOfNat]
@[simp] theorem binOf_val (b : BinIx) : binOf b.val = some b := by simp [binOf]
@[simp] theorem planOfNat_val (p : PlanIx) : planOfNat p.val = some p := by simp [planOfNat]
@[simp] theorem scopeOf_val (c : Scope) : scopeOf c.val = some c := by simp [scopeOf]

theorem withSlot_val {n : Nat} {i : Slot} (h : n = i.val) (f : Slot → Handled) : withSlot n f = f i := by
  subst h; simp [withSlot]
theorem withShelf_val {n : Nat} {k : Shelf} (h : n = k.val) (f : Shelf → Handled) : withShelf n f = f k := by
  subst h; simp [withShelf]
theorem withBin_val {n : Nat} {b : BinIx} (h : n = b.val) (f : BinIx → Handled) : withBin n f = f b := by
  subst h; simp [withBin]
theorem withPlan_val {n : Nat} {p : PlanIx} (h : n = p.val) (f : PlanIx → Handled) : withPlan n f = f p := by
  subst h; simp [withPlan]

theorem withSlot_ge {n : Nat} (h : 24 ≤ n) (f : Slot → Handled) : withSlot n f = .refuse .badValue := by
  simp [withSlot, slotOf, Nat.not_lt.2 h]
theorem withShelf_ge {n : Nat} (h : 3 ≤ n) (f : Shelf → Handled) : withShelf n f = .refuse .badValue := by
  simp [withShelf, shelfOfNat, Nat.not_lt.2 h]
theorem withBin_ge {n : Nat} (h : 16 ≤ n) (f : BinIx → Handled) : withBin n f = .refuse .badValue := by
  simp [withBin, binOf, Nat.not_lt.2 h]
theorem withPlan_ge {n : Nat} (h : 4 ≤ n) (f : PlanIx → Handled) : withPlan n f = .refuse .badValue := by
  simp [withPlan, planOfNat, Nat.not_lt.2 h]

theorem withLength_eq {n : Nat} {p : List Byte} (h : p.length = n) (f : Handled) : withLength n p f = f := by
  simp [withLength, h]
theorem withLength_ne {n : Nat} {p : List Byte} (h : p.length ≠ n) (f : Handled) :
    withLength n p f = .refuse .badLength := by
  simp [withLength, h]

end Sys2Proof.Machine
end

