-- ==== Sys2Proof/Laws/Changed.lean ====
section
/-! SUPPORT. What any tells can change: slots, shelves, bins and flags; no table, no queue of the link and no count of the
link's frames. -/

namespace Sys2Proof.Machine

/-- The second state is the first with slots, shelves and bins changed and flags set. -/
inductive Changed : State → State → Prop where
  | refl (s : State) : Changed s s
  | slots {s t : State} (v : Vector SlotRec 24) (h : Changed s t) : Changed s { t with slots := v }
  | shelves {s t : State} (v : Vector ShelfRec 3) (h : Changed s t) : Changed s { t with shelves := v }
  | bins {s t : State} (v : Vector Bin 16) (h : Changed s t) : Changed s { t with bins := v }
  | raiseSlot {s t : State} (i : Slot) (f : SlotFlag) (h : Changed s t) : Changed s (raiseSlot i f t)
  | raiseShelf {s t : State} (k : Shelf) (f : ShelfFlag) (h : Changed s t) : Changed s (raiseShelf k f t)
  | raiseController {s t : State} (f : ControllerFlag) (h : Changed s t) : Changed s (raiseController f t)

theorem modSlot_changed {s t : State} (i : Slot) (f : SlotRec → SlotRec) (h : Changed s t) : Changed s (t.modSlot i f) :=
  .slots _ h

theorem modShelf_changed {s t : State} (k : Shelf) (f : ShelfRec → ShelfRec) (h : Changed s t) :
    Changed s (t.modShelf k f) :=
  .shelves _ h

theorem modRun_changed {s t : State} (i : Slot) (f : Run → Run) (h : Changed s t) : Changed s (t.modRun i f) :=
  .slots _ h

theorem ite_changed {s a b : State} {c : Prop} [Decidable c] (ha : Changed s a) (hb : Changed s b) :
    Changed s (if c then a else b) := by
  split <;> assumption

theorem ite_fst_changed {α : Type} {s : State} {a b : State × α} {c : Prop} [Decidable c] (ha : Changed s a.1)
    (hb : Changed s b.1) : Changed s (if c then a else b).1 := by
  split <;> assumption

theorem foldl_changed {α : Type} {f : State → α → State} (hf : ∀ s t a, Changed s t → Changed s (f t a)) (l : List α)
    {s t : State} (h : Changed s t) : Changed s (l.foldl f t) := by
  induction l generalizing t with
  | nil => exact h
  | cons a l ih => exact ih (hf _ _ a h)

/-! ## The Power Manager -/

theorem setOcc_changed {s t : State} (i : Slot) (o : Occupancy) (h : Changed s t) :
    Changed s (setOcc i o t) := by
  unfold setOcc
  try dsimp only
  repeat' first
    | with_reducible exact h
    | with_reducible apply ite_changed
    | with_reducible apply ite_fst_changed
    | with_reducible apply modSlot_changed
    | with_reducible apply Changed.raiseSlot

theorem setQueue_changed {s t : State} (k : Shelf) (q : List QueueEntry) (h : Changed s t) :
    Changed s (setQueue k q t) := by
  unfold setQueue
  try dsimp only
  repeat' first
    | with_reducible exact h
    | with_reducible apply ite_changed
    | with_reducible apply ite_fst_changed
    | with_reducible apply modShelf_changed

theorem cyclePowered_changed {s t : State} (i : Slot) (h : Changed s t) :
    Changed s (cyclePowered i t) := by
  unfold cyclePowered
  try dsimp only
  repeat' first
    | with_reducible exact h
    | with_reducible apply ite_changed
    | with_reducible apply ite_fst_changed
    | with_reducible apply modRun_changed

theorem grantPower_changed {s t : State} (i : Slot) (by_ : Requester) (h : Changed s t) :
    Changed s (grantPower i by_ t) := by
  unfold grantPower
  try dsimp only
  repeat' first
    | with_reducible exact h
    | with_reducible apply ite_changed
    | with_reducible apply ite_fst_changed
    | with_reducible apply modSlot_changed
    | with_reducible apply setOcc_changed
    | with_reducible apply cyclePowered_changed

theorem grantSpin_changed {s t : State} (i : Slot) (by_ : Requester) (h : Changed s t) :
    Changed s (grantSpin i by_ t) := by
  unfold grantSpin
  try dsimp only
  repeat' first
    | with_reducible exact h
    | with_reducible apply ite_changed
    | with_reducible apply ite_fst_changed
    | with_reducible apply modSlot_changed

theorem grant_changed {s t : State} (e : QueueEntry) (h : Changed s t) :
    Changed s (grant e t) := by
  unfold grant
  try dsimp only
  repeat' first
    | with_reducible exact h
    | with_reducible apply ite_changed
    | with_reducible apply ite_fst_changed
    | with_reducible apply grantPower_changed
    | with_reducible apply grantSpin_changed
    | split

theorem examineTimes_changed {s t : State} (n : Nat) (k : Shelf) (h : Changed s t) :
    Changed s (examineTimes n k t) := by
  induction n generalizing t with
  | zero => exact h
  | succ n ih =>
    unfold examineTimes
    split
    · split
      · exact ih (grant_changed _ (setQueue_changed _ _ h))
      · exact h
    · exact h

theorem examine_changed {s t : State} (k : Shelf) (h : Changed s t) : Changed s (examine k t) :=
  examineTimes_changed _ _ h

theorem requestPower_changed {s t : State} (i : Slot) (by_ : Requester) (h : Changed s t) :
    Changed s (requestPower i by_ t) := by
  unfold requestPower
  try dsimp only
  repeat' first
    | with_reducible exact h
    | with_reducible apply ite_changed
    | with_reducible apply ite_fst_changed
    | with_reducible apply cyclePowered_changed
    | with_reducible apply setQueue_changed
    | with_reducible apply modSlot_changed
    | with_reducible apply setOcc_changed
    | with_reducible apply examine_changed

theorem requestSpin_changed {s t : State} (i : Slot) (h : Changed s t) :
    Changed s (requestSpin i t).1 := by
  unfold requestSpin
  try dsimp only
  repeat' first
    | with_reducible exact h
    | with_reducible apply ite_changed
    | with_reducible apply ite_fst_changed
    | with_reducible apply examine_changed
    | with_reducible apply setQueue_changed
    | with_reducible apply modSlot_changed
    | split

theorem withdrawEntry_changed {s t : State} (i : Slot) (kind : EntryKind) (h : Changed s t) :
    Changed s (withdrawEntry i kind t) := by
  unfold withdrawEntry
  try dsimp only
  repeat' first
    | with_reducible exact h
    | with_reducible apply ite_changed
    | with_reducible apply ite_fst_changed
    | with_reducible apply setQueue_changed
    | with_reducible apply modSlot_changed
    | with_reducible apply examine_changed

theorem toIdle_changed {s t : State} (i : Slot) (h : Changed s t) :
    Changed s (toIdle i t) := by
  unfold toIdle
  try dsimp only
  repeat' first
    | with_reducible exact h
    | with_reducible apply ite_changed
    | with_reducible apply ite_fst_changed
    | with_reducible apply modSlot_changed

theorem spinDown_changed {s t : State} (i : Slot) (h : Changed s t) :
    Changed s (spinDown i t) := by
  unfold spinDown
  try dsimp only
  repeat' first
    | with_reducible exact h
    | with_reducible apply ite_changed
    | with_reducible apply ite_fst_changed
    | with_reducible apply examine_changed
    | with_reducible apply toIdle_changed
    | with_reducible apply withdrawEntry_changed
    | split

theorem cutPower_changed {s t : State} (i : Slot) (h : Changed s t) :
    Changed s (cutPower i t) := by
  unfold cutPower
  try dsimp only
  repeat' first
    | with_reducible exact h
    | with_reducible apply ite_changed
    | with_reducible apply ite_fst_changed
    | with_reducible apply modSlot_changed
    | with_reducible apply setQueue_changed

theorem motorReport_changed {s t : State} (i : Slot) (motor : Motor) (h : Changed s t) :
    Changed s (motorReport i motor t).1 := by
  unfold motorReport
  try dsimp only
  repeat' first
    | with_reducible exact h
    | with_reducible apply ite_changed
    | with_reducible apply ite_fst_changed
    | with_reducible apply modSlot_changed

theorem windowExpired_changed {s t : State} (i : Slot) (h : Changed s t) :
    Changed s (windowExpired i t).1 := by
  unfold windowExpired
  try dsimp only
  repeat' first
    | with_reducible exact h
    | with_reducible apply ite_changed
    | with_reducible apply ite_fst_changed
    | with_reducible apply toIdle_changed

theorem shedMotors_changed {s : State} (n : Nat) (k : Shelf) (c : PowerClass) {x : State × List Owed}
    (h : Changed s x.1) : Changed s (shedMotors n k c x).1 := by
  induction n generalizing x with
  | zero => exact h
  | succ n ih =>
    unfold shedMotors
    split
    · exact h
    · split
      · exact h
      · exact ih (toIdle_changed _ h)

theorem shedPower_changed {s : State} (n : Nat) (k : Shelf) {x : State × List Owed} (h : Changed s x.1) :
    Changed s (shedPower n k x).1 := by
  induction n generalizing x with
  | zero => exact h
  | succ n ih =>
    unfold shedPower
    split
    · exact h
    · split
      · exact h
      · exact ih (cutPower_changed _ h)

theorem shedStages_changed {s t : State} (k : Shelf) (h : Changed s t) :
    Changed s (shedStages k t).1 := by
  unfold shedStages
  dsimp only
  apply shedPower_changed
  apply ite_fst_changed
  · apply shedMotors_changed
    apply ite_fst_changed
    · exact shedMotors_changed _ _ _ h
    · exact h
  · apply ite_fst_changed
    · exact shedMotors_changed _ _ _ h
    · exact h

theorem owePower_changed {s t : State} (o : Owed) (h : Changed s t) :
    Changed s (owePower o t) := by
  unfold owePower
  try dsimp only
  repeat' first
    | with_reducible exact h
    | with_reducible apply ite_changed
    | with_reducible apply ite_fst_changed
    | with_reducible apply modSlot_changed
    | with_reducible apply setOcc_changed

theorem placeOwed_changed {s t : State} (k : Shelf) (owed : List Owed) (h : Changed s t) :
    Changed s (placeOwed k owed t) :=
  foldl_changed (fun _ _ _ h => owePower_changed _ h) _ (setQueue_changed _ _ h)

theorem shed_changed {s t : State} (k : Shelf) (h : Changed s t) :
    Changed s (shed k t).1 := by
  unfold shed
  try dsimp only
  repeat' first
    | with_reducible exact h
    | with_reducible apply ite_changed
    | with_reducible apply ite_fst_changed
    | with_reducible apply shedStages_changed
    | with_reducible apply placeOwed_changed

theorem limitChanged_changed {s t : State} (k : Shelf) (h : Changed s t) :
    Changed s (limitChanged k t).1 := by
  unfold limitChanged
  try dsimp only
  repeat' first
    | with_reducible exact h
    | with_reducible apply ite_changed
    | with_reducible apply ite_fst_changed
    | with_reducible apply shed_changed
    | with_reducible apply examine_changed

theorem clearQueue_changed {s t : State} (k : Shelf) (h : Changed s t) : Changed s (clearQueue k t) :=
  setQueue_changed _ _ (foldl_changed (fun _ _ _ h => ite_changed (modSlot_changed _ _ h) h) _ h)

theorem disableShelf_changed {s t : State} (k : Shelf) (h : Changed s t) : Changed s (disableShelf k t).1 :=
  clearQueue_changed _ (foldl_changed (fun _ _ _ h => cutPower_changed _ h) _ h)

/-! ## Bins -/

theorem reserve_changed {s t : State} (i : Slot) (b : BinIx) (h : Changed s t) : Changed s (reserve i b t) := by
  unfold reserve noteFull
  have hs : Changed s ((t.modBin b fun bin => { bin with reserved := bin.reserved + 1 }).modSlot i fun r =>
      { r with reservation := some b }) := .slots _ (.bins _ h)
  exact ite_changed h (ite_changed (.raiseController _ hs) hs)

theorem releaseReservation_changed {s t : State} (i : Slot) (h : Changed s t) :
    Changed s (releaseReservation i t).1 := by
  unfold releaseReservation
  split
  · exact h
  · exact .slots _ (.bins _ h)

theorem convertReservation_changed {s t : State} (i : Slot) (h : Changed s t) : Changed s (convertReservation i t) := by
  unfold convertReservation
  split
  · exact h
  · exact .slots _ (.bins _ h)

/-! ## Tells -/

/-- What the primitive changes and the operations of the blocks do is such a change. -/
theorem changed_loose (s : State) : Loose (Changed s) where
  modSlot _ _ _ h := .slots _ h
  anySlot _ _ _ h := .slots _ h
  modShelf _ _ _ h := .shelves _ h
  anyShelf _ _ _ h := .shelves _ h
  holds _ _ h := .bins _ h
  raiseSlot _ _ h := .raiseSlot _ _ h
  raiseShelf _ _ h := .raiseShelf _ _ h
  raiseController _ h := .raiseController _ h
  examine _ h := examine_changed _ h
  requestPower _ _ h := requestPower_changed _ _ h
  requestSpin _ h := requestSpin_changed _ h
  withdrawEntry _ _ h := withdrawEntry_changed _ _ h
  spinDown _ h := spinDown_changed _ h
  cutPower _ h := cutPower_changed _ h
  motorReport _ _ h := motorReport_changed _ _ h
  windowExpired _ h := windowExpired_changed _ h
  unlockLatch _ h := ite_changed (.slots _ h) h
  lockLatch _ h := .slots _ h
  insert _ _ _ h := .slots _ h
  emptySegment _ h := .slots _ h
  reserve _ _ _ h := reserve_changed _ _ h
  releaseReservation _ h := releaseReservation_changed _ h
  convertReservation _ h := convertReservation_changed _ h

theorem changed_kept (s : State) : Kept (Changed s) := (changed_loose s).kept

/-- One tell changes slots, shelves, bins and flags. -/
theorem act_changed (x : Tell) (s : State) : Changed s (act x s).1 := act_keeps (changed_kept s) x (.refl s)

/-- Any tells do. -/
theorem carryOut_changed {n : Nat} {l : List Tell} {s t u : State} (hs : Changed s t) (h : carryOut n l t = some u) :
    Changed s u :=
  carryOut_kept (changed_kept s) hs h

/-! ## What such a change leaves -/

theorem makePending_frame (c : Scope) (s : State) : makePending c s = { s with notices := (makePending c s).notices } := by
  unfold makePending
  split <;> rfl

/-- Setting a flag changes the flags and the notice list only. -/
theorem setFlagBit_frame (c : Scope) (bit : Nat) (s : State) :
    setFlagBit c bit s = { s with flags := (setFlagBit c bit s).flags, notices := (setFlagBit c bit s).notices } := by
  unfold setFlagBit
  split
  · rfl
  · dsimp only
    split
    · rw [makePending_frame]
    · rfl

theorem Changed.wakePattern_eq {s t : State} (h : Changed s t) : t.wakePattern = s.wakePattern := by
  induction h with
  | refl => rfl
  | slots _ _ ih => exact ih
  | shelves _ _ ih => exact ih
  | bins _ _ ih => exact ih
  | raiseSlot _ _ _ ih => rw [Machine.raiseSlot, setFlagBit_frame]; exact ih
  | raiseShelf _ _ _ ih => rw [Machine.raiseShelf, setFlagBit_frame]; exact ih
  | raiseController _ _ ih => rw [Machine.raiseController, setFlagBit_frame]; exact ih

theorem Changed.vectors_eq {s t : State} (h : Changed s t) : t.vectors = s.vectors := by
  induction h with
  | refl => rfl
  | slots _ _ ih => exact ih
  | shelves _ _ ih => exact ih
  | bins _ _ ih => exact ih
  | raiseSlot _ _ _ ih => rw [Machine.raiseSlot, setFlagBit_frame]; exact ih
  | raiseShelf _ _ _ ih => rw [Machine.raiseShelf, setFlagBit_frame]; exact ih
  | raiseController _ _ ih => rw [Machine.raiseController, setFlagBit_frame]; exact ih

theorem Changed.plans_eq {s t : State} (h : Changed s t) : t.plans = s.plans := by
  induction h with
  | refl => rfl
  | slots _ _ ih => exact ih
  | shelves _ _ ih => exact ih
  | bins _ _ ih => exact ih
  | raiseSlot _ _ _ ih => rw [Machine.raiseSlot, setFlagBit_frame]; exact ih
  | raiseShelf _ _ _ ih => rw [Machine.raiseShelf, setFlagBit_frame]; exact ih
  | raiseController _ _ ih => rw [Machine.raiseController, setFlagBit_frame]; exact ih

theorem Changed.rules_eq {s t : State} (h : Changed s t) : t.rules = s.rules := by
  induction h with
  | refl => rfl
  | slots _ _ ih => exact ih
  | shelves _ _ ih => exact ih
  | bins _ _ ih => exact ih
  | raiseSlot _ _ _ ih => rw [Machine.raiseSlot, setFlagBit_frame]; exact ih
  | raiseShelf _ _ _ ih => rw [Machine.raiseShelf, setFlagBit_frame]; exact ih
  | raiseController _ _ ih => rw [Machine.raiseController, setFlagBit_frame]; exact ih

theorem Changed.ruleCount_eq {s t : State} (h : Changed s t) : t.ruleCount = s.ruleCount := by
  induction h with
  | refl => rfl
  | slots _ _ ih => exact ih
  | shelves _ _ ih => exact ih
  | bins _ _ ih => exact ih
  | raiseSlot _ _ _ ih => rw [Machine.raiseSlot, setFlagBit_frame]; exact ih
  | raiseShelf _ _ _ ih => rw [Machine.raiseShelf, setFlagBit_frame]; exact ih
  | raiseController _ _ ih => rw [Machine.raiseController, setFlagBit_frame]; exact ih

theorem Changed.defaultBin_eq {s t : State} (h : Changed s t) : t.defaultBin = s.defaultBin := by
  induction h with
  | refl => rfl
  | slots _ _ ih => exact ih
  | shelves _ _ ih => exact ih
  | bins _ _ ih => exact ih
  | raiseSlot _ _ _ ih => rw [Machine.raiseSlot, setFlagBit_frame]; exact ih
  | raiseShelf _ _ _ ih => rw [Machine.raiseShelf, setFlagBit_frame]; exact ih
  | raiseController _ _ ih => rw [Machine.raiseController, setFlagBit_frame]; exact ih

theorem Changed.reworkBin_eq {s t : State} (h : Changed s t) : t.reworkBin = s.reworkBin := by
  induction h with
  | refl => rfl
  | slots _ _ ih => exact ih
  | shelves _ _ ih => exact ih
  | bins _ _ ih => exact ih
  | raiseSlot _ _ _ ih => rw [Machine.raiseSlot, setFlagBit_frame]; exact ih
  | raiseShelf _ _ _ ih => rw [Machine.raiseShelf, setFlagBit_frame]; exact ih
  | raiseController _ _ ih => rw [Machine.raiseController, setFlagBit_frame]; exact ih

theorem Changed.shipItems_eq {s t : State} (h : Changed s t) : t.shipItems = s.shipItems := by
  induction h with
  | refl => rfl
  | slots _ _ ih => exact ih
  | shelves _ _ ih => exact ih
  | bins _ _ ih => exact ih
  | raiseSlot _ _ _ ih => rw [Machine.raiseSlot, setFlagBit_frame]; exact ih
  | raiseShelf _ _ _ ih => rw [Machine.raiseShelf, setFlagBit_frame]; exact ih
  | raiseController _ _ ih => rw [Machine.raiseController, setFlagBit_frame]; exact ih

theorem Changed.shipCount_eq {s t : State} (h : Changed s t) : t.shipCount = s.shipCount := by
  induction h with
  | refl => rfl
  | slots _ _ ih => exact ih
  | shelves _ _ ih => exact ih
  | bins _ _ ih => exact ih
  | raiseSlot _ _ _ ih => rw [Machine.raiseSlot, setFlagBit_frame]; exact ih
  | raiseShelf _ _ _ ih => rw [Machine.raiseShelf, setFlagBit_frame]; exact ih
  | raiseController _ _ ih => rw [Machine.raiseController, setFlagBit_frame]; exact ih

theorem Changed.enables_eq {s t : State} (h : Changed s t) : t.enables = s.enables := by
  induction h with
  | refl => rfl
  | slots _ _ ih => exact ih
  | shelves _ _ ih => exact ih
  | bins _ _ ih => exact ih
  | raiseSlot _ _ _ ih => rw [Machine.raiseSlot, setFlagBit_frame]; exact ih
  | raiseShelf _ _ _ ih => rw [Machine.raiseShelf, setFlagBit_frame]; exact ih
  | raiseController _ _ ih => rw [Machine.raiseController, setFlagBit_frame]; exact ih

theorem Changed.sequence_eq {s t : State} (h : Changed s t) : t.sequence = s.sequence := by
  induction h with
  | refl => rfl
  | slots _ _ ih => exact ih
  | shelves _ _ ih => exact ih
  | bins _ _ ih => exact ih
  | raiseSlot _ _ _ ih => rw [Machine.raiseSlot, setFlagBit_frame]; exact ih
  | raiseShelf _ _ _ ih => rw [Machine.raiseShelf, setFlagBit_frame]; exact ih
  | raiseController _ _ ih => rw [Machine.raiseController, setFlagBit_frame]; exact ih

theorem Changed.held_eq {s t : State} (h : Changed s t) : t.held = s.held := by
  induction h with
  | refl => rfl
  | slots _ _ ih => exact ih
  | shelves _ _ ih => exact ih
  | bins _ _ ih => exact ih
  | raiseSlot _ _ _ ih => rw [Machine.raiseSlot, setFlagBit_frame]; exact ih
  | raiseShelf _ _ _ ih => rw [Machine.raiseShelf, setFlagBit_frame]; exact ih
  | raiseController _ _ ih => rw [Machine.raiseController, setFlagBit_frame]; exact ih

theorem Changed.lastHostByte_eq {s t : State} (h : Changed s t) : t.lastHostByte = s.lastHostByte := by
  induction h with
  | refl => rfl
  | slots _ _ ih => exact ih
  | shelves _ _ ih => exact ih
  | bins _ _ ih => exact ih
  | raiseSlot _ _ _ ih => rw [Machine.raiseSlot, setFlagBit_frame]; exact ih
  | raiseShelf _ _ _ ih => rw [Machine.raiseShelf, setFlagBit_frame]; exact ih
  | raiseController _ _ ih => rw [Machine.raiseController, setFlagBit_frame]; exact ih

theorem Changed.requests_eq {s t : State} (h : Changed s t) : t.requests = s.requests := by
  induction h with
  | refl => rfl
  | slots _ _ ih => exact ih
  | shelves _ _ ih => exact ih
  | bins _ _ ih => exact ih
  | raiseSlot _ _ _ ih => rw [Machine.raiseSlot, setFlagBit_frame]; exact ih
  | raiseShelf _ _ _ ih => rw [Machine.raiseShelf, setFlagBit_frame]; exact ih
  | raiseController _ _ ih => rw [Machine.raiseController, setFlagBit_frame]; exact ih

theorem Changed.busyList_eq {s t : State} (h : Changed s t) : t.busyList = s.busyList := by
  induction h with
  | refl => rfl
  | slots _ _ ih => exact ih
  | shelves _ _ ih => exact ih
  | bins _ _ ih => exact ih
  | raiseSlot _ _ _ ih => rw [Machine.raiseSlot, setFlagBit_frame]; exact ih
  | raiseShelf _ _ _ ih => rw [Machine.raiseShelf, setFlagBit_frame]; exact ih
  | raiseController _ _ ih => rw [Machine.raiseController, setFlagBit_frame]; exact ih

theorem Changed.replies_eq {s t : State} (h : Changed s t) : t.replies = s.replies := by
  induction h with
  | refl => rfl
  | slots _ _ ih => exact ih
  | shelves _ _ ih => exact ih
  | bins _ _ ih => exact ih
  | raiseSlot _ _ _ ih => rw [Machine.raiseSlot, setFlagBit_frame]; exact ih
  | raiseShelf _ _ _ ih => rw [Machine.raiseShelf, setFlagBit_frame]; exact ih
  | raiseController _ _ ih => rw [Machine.raiseController, setFlagBit_frame]; exact ih

theorem Changed.tx_eq {s t : State} (h : Changed s t) : t.tx = s.tx := by
  induction h with
  | refl => rfl
  | slots _ _ ih => exact ih
  | shelves _ _ ih => exact ih
  | bins _ _ ih => exact ih
  | raiseSlot _ _ _ ih => rw [Machine.raiseSlot, setFlagBit_frame]; exact ih
  | raiseShelf _ _ _ ih => rw [Machine.raiseShelf, setFlagBit_frame]; exact ih
  | raiseController _ _ ih => rw [Machine.raiseController, setFlagBit_frame]; exact ih

theorem Changed.startupSent_eq {s t : State} (h : Changed s t) : t.startupSent = s.startupSent := by
  induction h with
  | refl => rfl
  | slots _ _ ih => exact ih
  | shelves _ _ ih => exact ih
  | bins _ _ ih => exact ih
  | raiseSlot _ _ _ ih => rw [Machine.raiseSlot, setFlagBit_frame]; exact ih
  | raiseShelf _ _ _ ih => rw [Machine.raiseShelf, setFlagBit_frame]; exact ih
  | raiseController _ _ ih => rw [Machine.raiseController, setFlagBit_frame]; exact ih

theorem Changed.fastLink_eq {s t : State} (h : Changed s t) : t.fastLink = s.fastLink := by
  induction h with
  | refl => rfl
  | slots _ _ ih => exact ih
  | shelves _ _ ih => exact ih
  | bins _ _ ih => exact ih
  | raiseSlot _ _ _ ih => rw [Machine.raiseSlot, setFlagBit_frame]; exact ih
  | raiseShelf _ _ _ ih => rw [Machine.raiseShelf, setFlagBit_frame]; exact ih
  | raiseController _ _ ih => rw [Machine.raiseController, setFlagBit_frame]; exact ih

theorem Changed.baudsel_eq {s t : State} (h : Changed s t) : t.baudsel = s.baudsel := by
  induction h with
  | refl => rfl
  | slots _ _ ih => exact ih
  | shelves _ _ ih => exact ih
  | bins _ _ ih => exact ih
  | raiseSlot _ _ _ ih => rw [Machine.raiseSlot, setFlagBit_frame]; exact ih
  | raiseShelf _ _ _ ih => rw [Machine.raiseShelf, setFlagBit_frame]; exact ih
  | raiseController _ _ ih => rw [Machine.raiseController, setFlagBit_frame]; exact ih

theorem Changed.now_eq {s t : State} (h : Changed s t) : t.now = s.now := by
  induction h with
  | refl => rfl
  | slots _ _ ih => exact ih
  | shelves _ _ ih => exact ih
  | bins _ _ ih => exact ih
  | raiseSlot _ _ _ ih => rw [Machine.raiseSlot, setFlagBit_frame]; exact ih
  | raiseShelf _ _ _ ih => rw [Machine.raiseShelf, setFlagBit_frame]; exact ih
  | raiseController _ _ ih => rw [Machine.raiseController, setFlagBit_frame]; exact ih

theorem Changed.pending_eq {s t : State} (h : Changed s t) : t.pending = s.pending := by
  induction h with
  | refl => rfl
  | slots _ _ ih => exact ih
  | shelves _ _ ih => exact ih
  | bins _ _ ih => exact ih
  | raiseSlot _ _ _ ih => rw [Machine.raiseSlot, setFlagBit_frame]; exact ih
  | raiseShelf _ _ _ ih => rw [Machine.raiseShelf, setFlagBit_frame]; exact ih
  | raiseController _ _ ih => rw [Machine.raiseController, setFlagBit_frame]; exact ih

end Sys2Proof.Machine
end

