-- ==== Sys2Proof/Laws/Steps.lean ====
section
/-! SUPPORT. What a step can do to slots, shelves and bins, said once: a property of those three that the operations of the
blocks and the few commands named in `Held` keep is kept by every step. -/

namespace Sys2Proof.Machine

/-- What a request's handling leaves has a property. -/
def Handled.Keeps (P : State → Prop) : Handled → Prop
  | .refuse _ => True
  | .take s _ _ => P s

/-- A property of slots, shelves and bins that the operations of the blocks keep, and the commands that change a budget, a
segment's place, a bin's capacity or fill, or a pass. -/
structure Held (P : State → Prop) : Prop extends Kept P where
  same : ∀ {s t : State}, t.slots = s.slots → t.shelves = s.shelves → t.bins = s.bins → P s → P t
  shelfSet : ∀ {s : State} (p : List Byte), P s → (handleShelfSet p s).Keeps P
  segmentSet : ∀ {s : State} (p : List Byte), P s → (handleSegmentSet p s).Keeps P
  binSet : ∀ {s : State} (p : List Byte), P s → (handleBinSet p s).Keeps P
  toteSwap : ∀ {s : State} (p : List Byte), P s → (handleToteSwap p s).Keeps P
  supplySettles : ∀ {s : State} (k : Shelf) (line : SupplyLine), P s → P (supplySettles k line s).1
  joinSet : ∀ {s : State} (i : Slot), P s → P (joinSet i s)
  keyLoaded : ∀ {s : State} (k : Shelf), P s → P (keyLoaded k s)
  nextRound : ∀ {s : State} (k : Shelf), P s → P (nextRound k s)
  activityEdge : ∀ {s : State} (i : Slot) (level : Bool), P s → P (activityEdge i level s)
  closeWindow : ∀ {s : State} (k : Shelf) (n : NodeIx) (ident : Identity) (opened : Nat) (pulsing left : List Slot),
    (s.shelf k).pass = .round (.window n ident opened pulsing left) → P s → P (closeWindow k n ident pulsing left s)
  reset : ∀ {s : State}, P s → P (resetOf s)
  tick : ∀ {s : State}, P s → P (tick s)

variable {P : State → Prop}

theorem startTx_stays (hP : Held P) {s : State} (h : P s) : P (startTx s) :=
  hP.same (startTx_slots s) (startTx_shelves s) (startTx_bins s) h

theorem conclude_stays (hP : Held P) {x : State × List Tell} {t : State} (h : P x.1) (ht : conclude x = .next t) : P t := by
  unfold conclude at ht
  split at ht
  · next u hu => cases ht; exact startTx_stays hP (carryOut_kept hP.toKept h hu)
  · cases ht

theorem next_stays {s t : State} (h : P s) (ht : (Host.Outcome.next s : Out) = .next t) : P t := by
  cases ht; exact h

theorem ite_out {c : Prop} [Decidable c] {a b : Out} {t : State} (ha : a = .next t → P t) (hb : b = .next t → P t)
    (h : (if c then a else b) = .next t) : P t := by
  split at h
  · exact ha h
  · exact hb h

/-! ## Requests -/

theorem answerRequest_stays (hP : Held P) {kind tag : Byte} {f : State → Handled} {s t : State} (hf : (f s).Keeps P)
    (h : P s) (ht : answerRequest kind tag f s = .next t) : P t := by
  unfold answerRequest at ht
  revert hf ht
  cases f s with
  | refuse status =>
    intro _ ht
    cases ht
    exact startTx_stays hP (hP.same (s := s) rfl rfl rfl h)
  | take s' tells body =>
    intro hf ht
    dsimp only at ht
    split at ht
    · next u hu =>
      cases ht
      exact startTx_stays hP (hP.same (s := u) rfl rfl rfl (carryOut_kept hP.toKept hf hu))
    · cases ht

theorem arrive_stays (hP : Held P) {kind tag : Byte} {p : List Byte} {s : State} (h : P s) : P (arrive kind tag p s) := by
  unfold arrive
  split
  · exact hP.same (s := s) rfl rfl rfl h
  · split
    · exact hP.same (s := s) rfl rfl rfl h
    · exact hP.raiseController _ h

/-- A request whose handling keeps the property keeps it when it is served. -/
theorem serve_stays (hP : Held P) {kind tag : Byte} {p : List Byte} {f : State → Handled} {s t : State}
    (hf : ∀ s, P s → (f s).Keeps P) (h : P s) (ht : serve kind tag p f s = .next t) : P t := by
  have hq : ∀ q, P { s with requests := q } := fun _ => hP.same (s := s) rfl rfl rfl h
  unfold serve at ht
  split at ht
  · split at ht
    · exact answerRequest_stays hP (hf _ (hq _)) (hq _) ht
    · exact next_stays h ht
  · split at ht
    · exact answerRequest_stays hP (hf _ (hq _)) (hq _) ht
    · exact next_stays (startTx_stays hP (arrive_stays hP h)) ht

theorem withLength_stays {n : Nat} {p : List Byte} {f : Handled} (h : f.Keeps P) : (withLength n p f).Keeps P := by
  unfold withLength
  split
  · exact h
  · trivial

theorem withSlot_stays {n : Nat} {f : Slot → Handled} (h : ∀ i, (f i).Keeps P) : (withSlot n f).Keeps P := by
  unfold withSlot
  split
  · exact h _
  · trivial

theorem withShelf_stays {n : Nat} {f : Shelf → Handled} (h : ∀ k, (f k).Keeps P) : (withShelf n f).Keeps P := by
  unfold withShelf
  split
  · exact h _
  · trivial

theorem withBin_stays {n : Nat} {f : BinIx → Handled} (h : ∀ b, (f b).Keeps P) : (withBin n f).Keeps P := by
  unfold withBin
  split
  · exact h _
  · trivial

theorem withPlan_stays {n : Nat} {f : PlanIx → Handled} (h : ∀ p, (f p).Keeps P) : (withPlan n f).Keeps P := by
  unfold withPlan
  split
  · exact h _
  · trivial

theorem withFlagSet_stays {p : List Byte} {f : Scope → BitVec 32 → Handled} (h : ∀ c set, (f c set).Keeps P) :
    (withFlagSet p f).Keeps P := by
  unfold withFlagSet
  split
  · dsimp only
    split
    · exact h _ _
    · trivial
  · trivial

/-! ## The commands, by what they change -/

section
variable (hP : Held P) {s t : State} (h : P s)
include hP h

theorem shelfRestart_stays (p : List Byte) : (handleShelfRestart p s).Keeps P := by
  apply withLength_stays
  apply withShelf_stays
  intro k
  exact foldl_keeps (fun _ _ h => restartSlot_keeps hP.toPlain _ h) _ h

theorem busSet_stays (p : List Byte) : (handleBusSet p s).Keeps P := by
  apply withLength_stays
  apply withShelf_stays
  intro k
  split
  · exact foldl_keeps (fun _ _ h => hP.modSlot _ _ (by intro; exact ⟨⟨rfl, rfl, rfl, rfl, rfl, rfl, rfl⟩, rfl⟩) h) _
      (hP.modShelf _ _ (by intro; exact ⟨⟨rfl, rfl, rfl, rfl, rfl, rfl, rfl, rfl⟩, rfl, rfl⟩) h)
  · trivial

theorem consoleSet_stays (p : List Byte) : (handleConsoleSet p s).Keeps P := by
  apply withLength_stays
  apply withShelf_stays
  intro k
  split
  · exact hP.modShelf _ _ (by intro; exact ⟨⟨rfl, rfl, rfl, rfl, rfl, rfl, rfl, rfl⟩, rfl, rfl⟩) h
  · trivial

theorem keyLoad_stays (p : List Byte) : (handleKeyLoad p s).Keeps P := by
  unfold handleKeyLoad
  split
  · trivial
  · split
    · trivial
    · split
      · trivial
      · exact foldl_keeps (fun _ _ h => hP.keyLoaded _ h) _ (hP.same (s := s) rfl rfl rfl h)

theorem vectorSet_stays (p : List Byte) : (handleVectorSet p s).Keeps P := by
  apply withLength_stays
  split
  · trivial
  · split
    · exact hP.same (s := s) rfl rfl rfl h
    · trivial

theorem planLoad_stays (p : List Byte) : (handlePlanLoad p s).Keeps P := by
  apply withLength_stays
  apply withPlan_stays
  intro n
  split
  · trivial
  · split
    · trivial
    · exact hP.same (s := s) rfl rfl rfl h

theorem phaseLoad_stays (p : List Byte) : (handlePhaseLoad p s).Keeps P := by
  apply withLength_stays
  apply withPlan_stays
  intro n
  split
  · trivial
  · split
    · trivial
    · split
      · trivial
      · exact hP.same (s := s) rfl rfl rfl h

theorem signatureLoad_stays (p : List Byte) : (handleSignatureLoad p s).Keeps P := by
  unfold handleSignatureLoad
  split
  · trivial
  · apply withPlan_stays
    intro n
    split
    · trivial
    · split
      · trivial
      · split
        · trivial
        · split
          · trivial
          · exact hP.same (s := s) rfl rfl rfl h

theorem ruleLoad_stays (p : List Byte) : (handleRuleLoad p s).Keeps P := by
  apply withLength_stays
  apply withBin_stays
  intro b
  split
  · trivial
  · split
    · trivial
    · exact hP.same (s := s) rfl rfl rfl h

theorem rulesSet_stays (p : List Byte) : (handleRulesSet p s).Keeps P := by
  apply withLength_stays
  apply withBin_stays
  intro d
  apply withBin_stays
  intro w
  split
  · trivial
  · exact hP.same (s := s) rfl rfl rfl h

theorem shipItemLoad_stays (p : List Byte) : (handleShipItemLoad p s).Keeps P := by
  apply withLength_stays
  split
  · trivial
  · split
    · trivial
    · exact hP.same (s := s) rfl rfl rfl h

theorem shipListSet_stays (p : List Byte) : (handleShipListSet p s).Keeps P := by
  apply withLength_stays
  split
  · trivial
  · split
    · trivial
    · split
      · trivial
      · exact hP.same (s := s) rfl rfl rfl h

theorem slotEnable_stays (p : List Byte) : (handleSlotEnable p s).Keeps P := by
  apply withLength_stays
  apply withSlot_stays
  intro i
  split
  · trivial
  · split
    · exact h
    · have hs : ∀ on, P (s.modSlot i fun r => { r with enabled := on }) :=
        fun on => hP.modSlot _ _ (by intro; exact ⟨⟨rfl, rfl, rfl, rfl, rfl, rfl, rfl⟩, rfl⟩) h
      dsimp only
      split
      · exact hs _
      · show P (disableSlot i _)
        unfold disableSlot
        exact ite_keeps (setOcc_keeps hP.toPlain _ _ (hP.withdrawEntry _ _ (hs _))) (hs _)

theorem slotArm_stays (p : List Byte) : (handleSlotArm p s).Keeps P := by
  apply withLength_stays
  apply withSlot_stays
  intro i
  split
  · trivial
  · split
    · exact hP.modSlot _ _ (by intro; exact ⟨⟨rfl, rfl, rfl, rfl, rfl, rfl, rfl⟩, rfl⟩) h
    · apply withPlan_stays
      intro n
      split
      · trivial
      · exact hP.modSlot _ _ (by intro; exact ⟨⟨rfl, rfl, rfl, rfl, rfl, rfl, rfl⟩, rfl⟩) h

omit hP in
theorem slotStart_stays (p : List Byte) : (handleSlotStart p s).Keeps P := by
  have hs : ∀ i n, (startWith i n s).Keeps P := by
    intro i n
    unfold startWith
    split
    · exact h
    · trivial
  apply withLength_stays
  apply withSlot_stays
  intro i
  split
  · split
    · exact hs _ _
    · trivial
  · apply withPlan_stays
    intro n
    exact hs _ _

omit hP in
theorem slotAbort_stays (p : List Byte) : (handleSlotAbort p s).Keeps P := by
  apply withLength_stays
  apply withSlot_stays
  intro i
  dsimp only
  (repeat' split) <;> first | exact h | trivial

theorem slotUnlock_stays (p : List Byte) : (handleSlotUnlock p s).Keeps P := by
  apply withLength_stays
  apply withSlot_stays
  intro i
  split
  · trivial
  · exact unlock_keeps hP.toPlain _ h

theorem slotLocate_stays (p : List Byte) : (handleSlotLocate p s).Keeps P := by
  apply withLength_stays
  apply withSlot_stays
  intro i
  exact hP.modSlot _ _ (by intro; exact ⟨⟨rfl, rfl, rfl, rfl, rfl, rfl, rfl⟩, rfl⟩) h

theorem slotRetire_stays (p : List Byte) : (handleSlotRetire p s).Keeps P := by
  apply withLength_stays
  apply withSlot_stays
  intro i
  dsimp only
  split
  · exact emptyConsole_keeps hP.toPlain _ (hP.emptySegment _
      (hP.modSlot _ _ (by intro; exact ⟨⟨rfl, rfl, rfl, rfl, rfl, rfl, rfl⟩, rfl⟩) h))
  · trivial

theorem attnAck_stays (p : List Byte) : (handleAttnAck p s).Keeps P := by
  apply withLength_stays
  apply withSlot_stays
  intro i
  split
  · split
    · exact setOutcome_keeps hP.toPlain _ _ (modAttn_keeps hP.toPlain _ _ h)
    · trivial
  · trivial

end

theorem takeBytes_stays (hP : Held P) (n : Nat) (l : List Byte) {s : State} (h : P s) : P (takeBytes n l s) := by
  have hab : ∀ s : State, P s → P (abandon s) := fun s h => hP.raiseController _ (hP.same (s := s) rfl rfl rfl h)
  induction n generalizing l s with
  | zero => exact h
  | succ n ih =>
    cases l with
    | nil => exact h
    | cons b l =>
      apply ih
      unfold takeByte
      split
      · dsimp only
        split
        · exact hP.same (s := s) rfl rfl rfl h
        · exact h
      · dsimp only
        split
        · exact hP.same (s := s) rfl rfl rfl h
        · exact hab _ h
      · dsimp only
        split
        · exact hP.same (s := s) rfl rfl rfl h
        · split
          · exact arrive_stays hP (hP.same (s := s) rfl rfl rfl h)
          · exact hab _ h

theorem receiveByte_stays (hP : Held P) (b : Byte) {s : State} (h : P s) : P (receiveByte b s) :=
  takeBytes_stays hP _ _ (hP.same (s := s) rfl rfl rfl h)

/-- Every command keeps such a property. -/
theorem exec_stays (hP : Held P) (c : Instr) {s t : State} (h : P s) (ht : exec c s = .next t) : P t := by
  have plainSlot : ∀ (i : Slot) (f : SlotRec → SlotRec), (∀ r, SameHold (f r) r ∧ nodeOf (f r) = nodeOf r) →
      P (s.modSlot i f) := fun i f hf => hP.modSlot i f hf h
  have plainShelf : ∀ {u : State} (k : Shelf) (f : ShelfRec → ShelfRec), (∀ r, SameBudget (f r) r ∧
      (f r).nodes = r.nodes ∧ (f r).pass = r.pass) → P u → P (u.modShelf k f) := fun k f hf h => hP.modShelf k f hf h
  have hrel : ∀ k, P (releaseWire k s) := fun k => plainShelf _ _ (by
    intro; exact ⟨⟨rfl, rfl, rfl, rfl, rfl, rfl, rfl, rfl⟩, rfl, rfl⟩) h
  have hwire : ∀ {u : State} k l, P u → P (setWire k l u) := fun k l hu => plainShelf _ _ (by
    intro; exact ⟨⟨rfl, rfl, rfl, rfl, rfl, rfl, rfl, rfl⟩, rfl, rfl⟩) hu
  have hphase : ∀ {u : State} k p, P u → P (setPhase k p u) := fun k p hu => plainShelf _ _ (by
    intro; exact ⟨⟨rfl, rfl, rfl, rfl, rfl, rfl, rfl, rfl⟩, rfl, rfl⟩) hu
  have readHeld : ∀ {kind tag : Byte} {p : List Byte} {f : State → Handled}, (∀ u, P u → (f u).Keeps P) →
      serve kind tag p f s = .next t → P t := fun hf ht => serve_stays hP hf h ht
  have hreport : ∀ i kind, conclude (takeReport i kind s) = .next t → P t :=
    fun i kind ht => conclude_stays hP (takeReport_keeps hP.toPlain i kind h) ht
  cases c with
  | reset => exact next_stays (hP.reset h) ht
  | hostFrameReceived b =>
    dsimp only [exec, execHostFrameReceived] at ht
    exact conclude_stays hP (x := (receiveByte b s, [])) (receiveByte_stays hP b h) ht
  | hostByteReceived b =>
    dsimp only [exec, execHostByteReceived] at ht
    exact conclude_stays hP (x := (receiveByte b s, [])) (receiveByte_stays hP b h) ht
  | hostFrameAbandoned b framing =>
    dsimp only [exec, execHostFrameAbandoned] at ht
    refine conclude_stays hP (x := (if framing = true then receiveBroken s else receiveByte b s, [])) ?_ ht
    refine ite_keeps ?_ (receiveByte_stays hP b h)
    exact ite_keeps (hP.same (s := s) rfl rfl rfl h) (hP.raiseController _ (hP.same (s := s) rfl rfl rfl h))
  | hostByteGapExpiry =>
    exact ite_out (next_stays h) (conclude_stays hP (x := (abandon s, []))
      (hP.raiseController _ (hP.same (s := s) rfl rfl rfl h))) ht
  | txFrameEnd =>
    dsimp only [exec, execTxFrameEnd] at ht
    split at ht
    · exact next_stays h ht
    · next f _ =>
      refine next_stays (startTx_stays hP ?_) ht
      cases f <;> exact hP.same (s := s) rfl rfl rfl h
  | unknownKind kind tag p =>
    dsimp only [exec, execUnknownKind] at ht
    exact ite_out (next_stays h) (readHeld (f := fun _ => .refuse .unknownKind) fun _ _ => trivial) ht
  | identify tag p =>
    exact readHeld (f := handleIdentify p) (fun u hu => withLength_stays hu) ht
  | shelfSet tag p => exact readHeld (fun u hu => hP.shelfSet p hu) ht
  | shelfRead tag p =>
    exact readHeld (f := handleShelfRead p) (fun u hu => withLength_stays (withShelf_stays fun _ => hu)) ht
  | shelfRestart tag p => exact readHeld (fun u hu => shelfRestart_stays hP hu p) ht
  | busSet tag p => exact readHeld (fun u hu => busSet_stays hP hu p) ht
  | consoleSet tag p => exact readHeld (fun u hu => consoleSet_stays hP hu p) ht
  | keyLoad tag p => exact readHeld (fun u hu => keyLoad_stays hP hu p) ht
  | vectorSet tag p => exact readHeld (fun u hu => vectorSet_stays hP hu p) ht
  | planLoad tag p => exact readHeld (fun u hu => planLoad_stays hP hu p) ht
  | phaseLoad tag p => exact readHeld (fun u hu => phaseLoad_stays hP hu p) ht
  | signatureLoad tag p => exact readHeld (fun u hu => signatureLoad_stays hP hu p) ht
  | ruleLoad tag p => exact readHeld (fun u hu => ruleLoad_stays hP hu p) ht
  | rulesSet tag p => exact readHeld (fun u hu => rulesSet_stays hP hu p) ht
  | shipItemLoad tag p => exact readHeld (fun u hu => shipItemLoad_stays hP hu p) ht
  | shipListSet tag p => exact readHeld (fun u hu => shipListSet_stays hP hu p) ht
  | segmentSet tag p => exact readHeld (fun u hu => hP.segmentSet p hu) ht
  | binSet tag p => exact readHeld (fun u hu => hP.binSet p hu) ht
  | binRead tag p =>
    exact readHeld (f := handleBinRead p) (fun u hu => withLength_stays (withBin_stays fun _ => hu)) ht
  | toteSwap tag p => exact readHeld (fun u hu => hP.toteSwap p hu) ht
  | slotEnable tag p => exact readHeld (fun u hu => slotEnable_stays hP hu p) ht
  | slotArm tag p => exact readHeld (fun u hu => slotArm_stays hP hu p) ht
  | slotStart tag p => exact readHeld (fun u hu => slotStart_stays hu p) ht
  | slotAbort tag p => exact readHeld (fun u hu => slotAbort_stays hu p) ht
  | slotUnlock tag p => exact readHeld (fun u hu => slotUnlock_stays hP hu p) ht
  | slotLocate tag p => exact readHeld (fun u hu => slotLocate_stays hP hu p) ht
  | slotRetire tag p => exact readHeld (fun u hu => slotRetire_stays hP hu p) ht
  | slotRead tag p =>
    refine readHeld (f := handleSlotRead p) (fun u hu => withLength_stays (withSlot_stays fun i => ?_)) ht
    dsimp only
    split <;> first | exact hu | trivial
  | attnAck tag p => exact readHeld (fun u hu => attnAck_stays hP hu p) ht
  | defectRead tag p =>
    refine readHeld (f := handleDefectRead p) (fun u hu => withLength_stays (withSlot_stays fun i => ?_)) ht
    dsimp only
    split <;> first | exact hu | trivial
  | headRead tag p =>
    refine readHeld (f := handleHeadRead p) (fun u hu => withLength_stays (withSlot_stays fun i => ?_)) ht
    dsimp only
    split <;> first | exact hu | trivial
  | consoleRead tag p =>
    refine readHeld (f := handleConsoleRead p) (fun u hu => withLength_stays (withSlot_stays fun i => ?_)) ht
    dsimp only
    split <;> first | exact hu | trivial
  | eventsRead tag p =>
    refine readHeld (f := handleEventsRead p) (fun u hu => withLength_stays ?_) ht
    split
    · exact hu
    · split <;> first | exact hu | trivial
  | eventsClear tag p =>
    exact readHeld (f := handleEventsClear p) (fun u hu => withLength_stays (withFlagSet_stays fun c set =>
      (hP.same (s := u) (t := clearFlags c set u) rfl rfl rfl hu : P _))) ht
  | eventsEnable tag p =>
    refine readHeld (f := handleEventsEnable p) (fun u hu => withLength_stays (withFlagSet_stays fun c set => ?_)) ht
    show P (setEnables c set u)
    unfold setEnables
    refine ite_keeps (hP.same (s := u) rfl rfl rfl hu) ?_
    rw [makePending_frame]
    exact hP.same (s := u) rfl rfl rfl hu
  | presenceLineChange i level =>
    exact ite_out (next_stays h)
      (next_stays (plainSlot _ _ (by intro; exact ⟨⟨rfl, rfl, rfl, rfl, rfl, rfl, rfl⟩, rfl⟩))) ht
  | presenceDebounceExpiry i =>
    refine ite_out (next_stays h) (conclude_stays hP ?_) ht
    have hs : P (s.modSlot i fun r => { r with presTimer := none, present := r.presRaw }) :=
      plainSlot _ _ (by intro; exact ⟨⟨rfl, rfl, rfl, rfl, rfl, rfl, rfl⟩, rfl⟩)
    exact ite_fst_keeps hs (ite_fst_keeps (ite_fst_keeps (insertion_keeps hP.toPlain _ hs) hs)
      (removal_keeps hP.toPlain _ hs))
  | activityLineChange i level =>
    exact ite_out (next_stays h)
      (next_stays (plainSlot _ _ (by intro; exact ⟨⟨rfl, rfl, rfl, rfl, rfl, rfl, rfl⟩, rfl⟩))) ht
  | activityDebounceExpiry i =>
    refine ite_out (next_stays h) (next_stays ?_) ht
    have hs : P (s.modSlot i fun r => { r with actTimer := none, active := r.actRaw }) :=
      plainSlot _ _ (by intro; exact ⟨⟨rfl, rfl, rfl, rfl, rfl, rfl, rfl⟩, rfl⟩)
    exact ite_keeps hs (hP.activityEdge _ _ hs)
  | supplyLineChange k line level =>
    refine next_stays (plainShelf _ _ ?_ h) ht
    intro r
    cases line <;> (dsimp only [supplyRaw]; split) <;> exact ⟨⟨rfl, rfl, rfl, rfl, rfl, rfl, rfl, rfl⟩, rfl, rfl⟩
  | supplyDebounceExpiry k line =>
    exact ite_out (next_stays h) (conclude_stays hP (hP.supplySettles _ _ h)) ht
  | spinWindowExpiry i =>
    exact ite_out (next_stays h) (conclude_stays hP (hP.windowExpired _
      (plainSlot _ _ (by intro; exact ⟨⟨rfl, rfl, rfl, rfl, rfl, rfl, rfl⟩, rfl⟩)))) ht
  | bootDelayExpiry i =>
    refine ite_out (next_stays h) (conclude_stays hP (hP.joinSet _ ?_)) ht
    have hs : P (s.modSlot i fun r => { r with bootTimer := none, adm := .attaching }) :=
      plainSlot _ _ (by intro; exact ⟨⟨rfl, rfl, rfl, rfl, rfl, rfl, rfl⟩, rfl⟩)
    exact ite_keeps (setOcc_keeps hP.toPlain _ _ hs) hs
  | attachDeadlineExpiry i =>
    dsimp only [exec, execAttachDeadlineExpiry] at ht
    split at ht
    · exact conclude_stays hP (hP.raiseSlot _ _
        (plainSlot _ _ (by intro; exact ⟨⟨rfl, rfl, rfl, rfl, rfl, rfl, rfl⟩, rfl⟩))) ht
    · exact next_stays h ht
  | attachPauseExpiry k =>
    dsimp only [exec, execAttachPauseExpiry] at ht
    split at ht
    · exact conclude_stays hP (hP.nextRound _ h) ht
    · exact next_stays h ht
  | unlockHoldExpiry i => exact ite_out (next_stays h) (next_stays (hP.lockLatch _ h)) ht
  | locateOverrideExpiry i =>
    exact next_stays (plainSlot _ _ (by intro; exact ⟨⟨rfl, rfl, rfl, rfl, rfl, rfl, rfl⟩, rfl⟩)) ht
  | quietTimeMet k =>
    dsimp only [exec, execQuietTimeMet] at ht
    split at ht
    · exact ite_out (next_stays (plainShelf _ _ (by
        intro; exact ⟨⟨rfl, rfl, rfl, rfl, rfl, rfl, rfl, rfl⟩, rfl, rfl⟩) h)) (next_stays h) ht
    · exact next_stays h ht
  | commandFrameEnd k =>
    dsimp only [exec, execCommandFrameEnd] at ht
    split at ht
    · exact ite_out (conclude_stays hP (endTransaction_keeps hP.toPlain _ _ _ (hrel k)))
        (next_stays (hphase _ _ (hrel k))) ht
    · exact next_stays h ht
  | contestEnd k v =>
    dsimp only [exec, execContestEnd] at ht
    split at ht
    · exact conclude_stays hP (endTransaction_keeps hP.toPlain _ _ _ (hrel k)) ht
    · exact next_stays h ht
  | attnQueryNodeRead k v wire =>
    dsimp only [exec, execAttnQueryNodeRead] at ht
    split at ht
    · split at ht
      · exact next_stays (hphase _ _ (hwire _ _ (hrel k))) ht
      · refine conclude_stays hP (endTransaction_keeps hP.toPlain _ _ _ ?_) ht
        have hu := ite_keeps (c := wire = true ∨ v ≠ BitVec.allOnes 4)
          (hP.raiseShelf k .busFault (hwire k wire (hrel k))) (hwire k wire (hrel k))
        exact ite_keeps (plainShelf _ _ (by
          intro; exact ⟨⟨rfl, rfl, rfl, rfl, rfl, rfl, rfl, rfl⟩, rfl, rfl⟩) hu) hu
    · exact next_stays h ht
  | replyFrameReceived k frame wire =>
    dsimp only [exec, execReplyFrameReceived] at ht
    have hu := hwire k wire (hrel k)
    split at ht
    · split at ht
      · exact next_stays (hrel k) ht
      · exact conclude_stays hP (endTransaction_keeps hP.toPlain _ _ _ hu) ht
      · refine conclude_stays hP (endTransaction_keeps hP.toPlain _ _ _ ?_) ht
        unfold badReplyFlag
        split
        · exact hP.raiseSlot _ _ hu
        · exact hP.raiseShelf _ _ hu
      · exact conclude_stays hP (endTransaction_keeps hP.toPlain _ _ _ (hP.raiseShelf _ _ hu)) ht
      · exact conclude_stays hP (endTransaction_keeps hP.toPlain _ _ _ hu) ht
    · exact next_stays h ht
  | replyWindowClose k wire =>
    dsimp only [exec, execReplyWindowClose] at ht
    split at ht
    · exact conclude_stays hP (endTransaction_keeps hP.toPlain _ _ _ (hwire k wire h)) ht
    · exact next_stays h ht
  | resetPulseEnd i =>
    exact ite_out (next_stays h)
      (next_stays (plainSlot _ _ (by intro; exact ⟨⟨rfl, rfl, rfl, rfl, rfl, rfl, rfl⟩, rfl⟩))) ht
  | pollTimerExpiry i =>
    have hs : P (s.modSlot i fun r => { r with pollTimer := s.after (secs (s.shelf (shelfOf i)).pollSecs) }) :=
      plainSlot _ _ (by intro; exact ⟨⟨rfl, rfl, rfl, rfl, rfl, rfl, rfl⟩, rfl⟩)
    exact ite_out (next_stays h)
      (ite_out (next_stays hs) (conclude_stays hP (submit_keeps hP.toPlain _ _ _ hs))) ht
  | attentionWireAsserted k =>
    exact conclude_stays hP (x := (addQuery k (setWire k true s), [])) (addQuery_keeps hP.toPlain _ (hwire k true h)) ht
  | attnHoldoffExpiry k wire =>
    have hu := hwire k wire (plainShelf k (fun sh => { sh with holdoff := none }) (by
      intro; exact ⟨⟨rfl, rfl, rfl, rfl, rfl, rfl, rfl, rfl⟩, rfl, rfl⟩) h)
    exact ite_out (next_stays h) (conclude_stays hP (ite_keeps (addQuery_keeps hP.toPlain _ hu) hu)) ht
  | busWireStuck k =>
    have hu := plainShelf k (fun sh => { sh with stuckTimer := none, stuckTold := true }) (by
      intro; exact ⟨⟨rfl, rfl, rfl, rfl, rfl, rfl, rfl, rfl⟩, rfl, rfl⟩) h
    exact ite_out (next_stays h) (conclude_stays hP (ite_keeps hu (hP.raiseShelf _ _ hu))) ht
  | locateWindowClose k =>
    dsimp only [exec, execLocateWindowClose] at ht
    split at ht
    · next hp => exact conclude_stays hP (hP.closeWindow _ _ _ _ _ _ hp h) ht
    · exact next_stays h ht
  | phaseDone i phase => exact hreport _ _ ht
  | phaseFailed i phase reason => exact hreport _ _ ht
  | overTemp i => exact hreport _ _ ht
  | driveFault i => exact hreport _ _ ht
  | stopPhase i source code => exact hreport _ _ ht
  | abortPlan i source code => exact hreport _ _ ht
  | earlyStop i => exact hreport _ _ ht
  | phaseWallSecond i => exact conclude_stays hP (wallSecond_keeps hP.toPlain _ h) ht
  | wallTimeReached i => exact conclude_stays hP (wallTest_keeps hP.toPlain _ h) ht
  | restExpiry i =>
    dsimp only [exec, execRestExpiry] at ht
    split at ht
    · exact ite_out (conclude_stays hP (modRun_keeps hP.toPlain _ _ h)) (next_stays h) ht
    · exact next_stays h ht
  | offTimeExpiry i =>
    dsimp only [exec, execOffTimeExpiry] at ht
    split at ht
    · exact ite_out (conclude_stays hP (toStep_keeps hP.toPlain _ _ h)) (next_stays h) ht
    · exact next_stays h ht
  | onTimeExpiry i =>
    dsimp only [exec, execOnTimeExpiry] at ht
    split at ht
    · exact ite_out (conclude_stays hP (modRun_keeps hP.toPlain _ _ h)) (next_stays h) ht
    · exact next_stays h ht
  | consoleByteArrival i b =>
    exact ite_out (conclude_stays hP (byteArrived_keeps hP.toPlain _ _ h)) (next_stays h) ht
  | consoleFramingError i =>
    exact ite_out (next_stays (framingError_keeps hP.toPlain _ h)) (next_stays h) ht
  | consoleStartGlitch i =>
    exact ite_out (next_stays (modCon_keeps hP.toPlain _ _ h)) (next_stays h) ht
  | dataWireLevelChange k level =>
    refine ite_out (next_stays h) (next_stays (plainShelf _ _ ?_ h)) ht
    intro r
    split <;> exact ⟨⟨rfl, rfl, rfl, rfl, rfl, rfl, rfl, rfl⟩, rfl, rfl⟩
  | consoleLineChange i level => exact next_stays (modCon_keeps hP.toPlain _ _ h) ht

/-- Every step keeps such a property. -/
theorem step_stays (hP : Held P) {s t : State} (h : P s) (ht : step s = .next t) : P t := by
  unfold step at ht
  split at ht
  · next c rest _ => exact exec_stays hP c (s := { s with pending := rest }) (hP.same (s := s) rfl rfl rfl h) ht
  · unfold idle at ht
    split at ht
    · exact exec_stays hP _ h ht
    · exact next_stays (hP.tick h) ht

end Sys2Proof.Machine
end

