-- ==== Sys2Proof/WellFormed.lean ====
section
/-! DEFINITION. When a command can be sent at all: the operands that the frames and the blocks of the manual can carry.
A command that is not well formed still has a meaning; nothing outside can bring it. -/

namespace Sys2Proof

/-- A payload of the host link holds 0 to 250 bytes (R201). -/
def payloadFits (payload : List Byte) : Bool := decide (payload.length ≤ 250)

/-- A kind outside the request catalogue (R208). -/
def kindUnknown (kind : Byte) : Bool := decide (kind.toNat = 0) || decide (0x22 < kind.toNat)

/-- A phase index (R110). -/
def phaseFits (phase : Nat) : Bool := decide (phase ≤ 11)

/-- A code that can stop a phase or a plan: a vector action has a code of 32 to 255 (R102), a signature carries none. -/
def sourceFits (source : TripSource) (code : Byte) : Bool :=
  match source with
  | .vector => decide (32 ≤ code.toNat)
  | .signature => decide (code = 0)

/-- Whether a command is well formed. -/
def wellFormed : Instr → Bool
  | .unknownKind kind _ payload => kindUnknown kind && payloadFits payload
  | .hostFrameAbandoned b framing => framing || decide (250 < b.toNat)
  | .identify _ p => payloadFits p
  | .shelfSet _ p => payloadFits p
  | .shelfRead _ p => payloadFits p
  | .shelfRestart _ p => payloadFits p
  | .busSet _ p => payloadFits p
  | .consoleSet _ p => payloadFits p
  | .keyLoad _ p => payloadFits p
  | .vectorSet _ p => payloadFits p
  | .planLoad _ p => payloadFits p
  | .phaseLoad _ p => payloadFits p
  | .signatureLoad _ p => payloadFits p
  | .ruleLoad _ p => payloadFits p
  | .rulesSet _ p => payloadFits p
  | .shipItemLoad _ p => payloadFits p
  | .shipListSet _ p => payloadFits p
  | .segmentSet _ p => payloadFits p
  | .binSet _ p => payloadFits p
  | .binRead _ p => payloadFits p
  | .toteSwap _ p => payloadFits p
  | .slotEnable _ p => payloadFits p
  | .slotArm _ p => payloadFits p
  | .slotStart _ p => payloadFits p
  | .slotAbort _ p => payloadFits p
  | .slotUnlock _ p => payloadFits p
  | .slotLocate _ p => payloadFits p
  | .slotRetire _ p => payloadFits p
  | .slotRead _ p => payloadFits p
  | .attnAck _ p => payloadFits p
  | .defectRead _ p => payloadFits p
  | .headRead _ p => payloadFits p
  | .consoleRead _ p => payloadFits p
  | .eventsRead _ p => payloadFits p
  | .eventsClear _ p => payloadFits p
  | .eventsEnable _ p => payloadFits p
  | .phaseDone _ phase => phaseFits phase
  | .phaseFailed _ phase _ => phaseFits phase
  | .stopPhase _ source code => sourceFits source code
  | .abortPlan _ source code => sourceFits source code
  | .reset | .hostFrameReceived _ | .hostByteGapExpiry | .txFrameEnd | .presenceLineChange _ _
  | .presenceDebounceExpiry _ | .activityLineChange _ _ | .activityDebounceExpiry _ | .supplyLineChange _ _ _
  | .supplyDebounceExpiry _ _ | .spinWindowExpiry _ | .bootDelayExpiry _ | .attachDeadlineExpiry _
  | .attachPauseExpiry _ | .unlockHoldExpiry _ | .locateOverrideExpiry _ | .quietTimeMet _ | .commandFrameEnd _
  | .contestEnd _ _ | .attnQueryNodeRead _ _ _ | .replyFrameReceived _ _ _ | .replyWindowClose _ _
  | .resetPulseEnd _ | .pollTimerExpiry _ | .attentionWireAsserted _ | .attnHoldoffExpiry _ _ | .busWireStuck _
  | .locateWindowClose _ | .overTemp _ | .driveFault _ | .earlyStop _ | .phaseWallSecond _ | .wallTimeReached _
  | .restExpiry _ | .offTimeExpiry _ | .onTimeExpiry _ | .consoleByteArrival _ _ | .consoleFramingError _
  | .dataWireLevelChange _ _ | .consoleLineChange _ _ | .consoleStartGlitch _ | .hostByteReceived _ => true

end Sys2Proof
end

