-- ==== Sys2Proof/Tests/Slice0.lean ====
section
/-! SUPPORT. Tests of the model: ill-formed commands are refused by the check, small examples whose values come from the
manual, and for every statement with hypotheses the states and operands that meet them. -/

namespace Sys2Proof.Tests

open Machine

-- Each test waits for the kernel; elaborating them one after another keeps the number of waiting threads small.
set_option Elab.async false

/-! ## What cannot be sent (WellFormed) -/

theorem test_wf_payload_of_251 : wellFormed (.keyLoad 1 (List.replicate 251 0)) = false := by decide +kernel
theorem test_wf_payload_of_250 : wellFormed (.keyLoad 1 (List.replicate 250 0)) = true := by decide +kernel
theorem test_wf_known_kind : wellFormed (.unknownKind 0x22 1 []) = false := by decide +kernel
theorem test_wf_unknown_kind : wellFormed (.unknownKind 0x23 1 []) = true := by decide +kernel
theorem test_wf_abandoned_without_cause : wellFormed (.hostFrameAbandoned 250 false) = false := by decide +kernel
theorem test_wf_phase_12 : wellFormed (.phaseDone 0 12) = false := by decide +kernel
theorem test_wf_vector_code_31 : wellFormed (.stopPhase 0 .vector 31) = false := by decide +kernel
theorem test_wf_signature_with_code : wellFormed (.abortPlan 0 .signature 1) = false := by decide +kernel

/-! ## The manual's own figures -/

/-- R81, R83: the two worked check bytes. -/
theorem test_identity_checks : identityCheck ⟨1, 0⟩ = 0x15#8 ∧ identityCheck ⟨1, 1⟩ = 0x12#8 := by decide +kernel

/-- A plan whose factors rise from 512 to 724 over a step of 20, and one whose factors fall from 1024 to 900 (R138). -/
def rising : Plan := { Plan.reset with t0 := 300, step := 20, factors := #v[512, 724, 1024, 1024, 1024, 1024, 1024, 1024, 1024] }
def falling : Plan := { Plan.reset with t0 := 300, step := 20, factors := #v[1024, 900, 900, 900, 900, 900, 900, 900, 900] }

/-- R138: both worked examples. -/
theorem test_factor_rounds_toward_zero : factor rising 318 = 702 ∧ factor falling 307 = 981 := by decide +kernel

/-- R28: DERATED halves the limit with truncation, and FAILED leaves none. -/
theorem test_current_limit :
    currentLimit { ShelfRec.reset with limit := 121, lineB := true } = 60 ∧
      currentLimit { ShelfRec.reset with lineA := true } = 0 := by decide +kernel

/-- R22, R23: the indicators of a slot being tested, alone and while it is located. -/
theorem test_indicators :
    indicators { SlotRec.reset 3 with occ := .testing } = (.fast, .off) ∧
      indicators { SlotRec.reset 3 with occ := .ready, locateTimer := some 5 } = (.on, .fast) := by decide +kernel

/-- R149: sectors 0 to 9 and 10 to 19 adjoin and do not overlap. -/
theorem test_adjacent_ranges : overlaps 0 10 10 10 = false ∧ touches 0 10 10 10 = true ∧ touches 0 10 11 10 = false := by
  decide +kernel

/-- R178: the codes of the stop reasons stand in the list's order. -/
theorem test_stop_codes : stopCode .none = 0 ∧ stopCode .hostAbort = 7 ∧ stopCode .pulled = 11 := by decide +kernel

/-- R49: a byte goes out as a low start period, eight data periods from the highest bit, and a high stop period. -/
theorem test_wire_form : bytePeriods 0xA1 = [false, true, false, true, false, false, false, false, true, true] := by
  decide +kernel

/-- R201: a byte goes out on the host link with its lowest data bit first. -/
theorem test_line_bits : lineBits 0xA1 =
    [.start, .data true, .data false, .data false, .data false, .data false, .data true, .data false, .data true, .stop] := by
  decide +kernel

/-- R148, R206: a set mark stands first in its list, and a clear one second. -/
theorem test_mark_bytes : (markField true).bytes = [0] ∧ (markField false).bytes = [1] := by decide +kernel

/-- R149, R162: an entry of 2^48 sectors is sent with that length. -/
theorem test_longest_entry :
    (entryFields ⟨15, .ta, .other, 11, 0, 281474976710656⟩).flatMap ReplyField.bytes =
      [15, 3, 2, 11] ++ List.replicate 6 0 ++ 1 :: List.replicate 6 0 := by decide +kernel

/-- R206, R209: the bytes of an IDENTIFY reply at the fast rate without a wake pattern. -/
theorem test_identify_bytes : bodyBytes (.identify 24 true false) = [24, 1, 0] := by decide +kernel

/-- R218: the bytes of the STARTUP notice's payload, and the kinds of notices and replies. -/
theorem test_startup_frame :
    frameParts (.startup 0 false) = (0x7F#8, 0#8, [0#8, 24#8, 0#8]) ∧ replyKind 0x02#8 = 0x82#8 := by decide +kernel

/-! ## Small machines -/

/-- A drive bound on node 1, its motor ready. -/
def drive : DrivePart := { ident := ⟨1, 0⟩, node := 0, maxLba := 1953525167, heads := 8, motor := .ready, missed := 0 }

/-- A plan of eight phases, with a REST after each of the other kinds, and one signature. -/
def plan : Plan := { rising with
  id := 7, count := 8
  phases := #v[some ⟨.soak 5 100 10 300 350 5, .continue⟩, some ⟨.rest 60, .continue⟩,
    some ⟨.driveTest 6 .final 100, .continue⟩, some ⟨.rest 60, .continue⟩, some ⟨.powerCycle 1 5 5, .continue⟩,
    some ⟨.rest 60, .continue⟩, some ⟨.rest 60, .continue⟩, some ⟨.driveTest 8 .none 100, .continue⟩,
    none, none, none, none]
  sigs := #v[some ⟨[0x41#8, 0x42#8], .count⟩, none, none, none] }

/-- The machine after reset with that plan in the first place and shelf 0 enabled. -/
def ground : State :=
  { State.reset with plans := State.reset.plans.set 0 plan }.modShelf 0 fun sh => { sh with enabled := true }

/-- That machine with slot 0 changed, and with shelf 0 changed. -/
def slot0 (f : SlotRec → SlotRec) : State := ground.modSlot 0 f
def shelf0 (f : ShelfRec → ShelfRec) : State := ground.modShelf 0 f

/-- A slot with a bound drive, READY and spun down. -/
def ready (r : SlotRec) : SlotRec := { r with occ := .ready, adm := .bound, cls := .idle, present := true, drive := some drive }

/-- The run of the plan at a phase, RUNNING. -/
def runAt (phase : Nat) : Run := { newRun 0 plan with phase := phase, state := .running }

/-- A slot with that run going on. -/
def testing (run : Run) (r : SlotRec) : SlotRec := { ready r with occ := .testing, cls := .run, run := some run }

/-- A result part of a stop reason. -/
def resultOf (reason : StopReason) : Result where
  inputs := gradeInputs (SlotRec.reset 0) reason
  bin := some 15
  ruleIndex := 16
  planId := 0
  firstGrown := none
  shipped := false

/-- A request may be served next where none waits and the queue has room. -/
theorem served_next {k t : Byte} {p : List Byte} {s : State} (h : s.requests = []) : NextServed k t p s := by
  simp [NextServed, oldestUnserved, h]

/-- A request that waits unserved is the next. -/
theorem served_waiting {k t : Byte} {p : List Byte} {s : State} (h : s.requests = [⟨k, t, p, false⟩]) :
    NextServed k t p s := by
  simp [NextServed, oldestUnserved, h]

/-- Whether a command answers a next state with a property. -/
def leads (out : Out) (P : State → Bool) : Bool :=
  match out with
  | .next t => P t
  | _ => false

/-! ## Witnesses: the machine and the host link -/

theorem witness_StepRunsTheFrontCommand :
    ({ State.reset with pending := [.reset, .txFrameEnd] } : State).pending = .reset :: [.txFrameEnd] ∧
      State.reset.pending = [] ∧
      oldestUnserved [(⟨1, 2, [], true⟩ : Request), ⟨0x1B, 3, [0, 0], false⟩] = some ⟨0x1B, 3, [0, 0], false⟩ := by
  decide +kernel

theorem witness_RequestFrameArrives :
    State.reset.held = [] ∧ (List.replicate 250 (0 : Byte)).length ≤ 250 ∧
      ({ State.reset with requests := List.replicate 3 ⟨1, 2, [], true⟩ } : State).requests.length < 4 := by
  decide +kernel

/-- A frame but for its last byte. -/
def almost (kind tag : Byte) (payload : List Byte) : State :=
  { State.reset with held := (requestFrame kind tag payload).dropLast }

theorem frame_ne_nil (kind tag : Byte) (payload : List Byte) : requestFrame kind tag payload ≠ [] := by
  simp [requestFrame]

/-- A frame whose last byte is still to come. -/
def faulty (bytes : List Byte) : State := { State.reset with held := 0xA5#8 :: bytes.dropLast }

/-- What follows the sync of frames with a wrong check: without another sync, with the beginning of a frame, and with a
whole one. -/
def wrongAlone : List Byte := [0, 1, 2, 0, 0]
def wrongThenPart : List Byte := [0, 1, 2, 0xA5, 0]
def wrongThenWhole : List Byte := 4 :: 1 :: 2 :: requestFrame 1 9 []

theorem witness_FramesEnd :
    ((List.replicate 250 (0 : Byte)).length ≤ 250 ∧
        (almost 7 2 (List.replicate 250 0)).held ++ [(requestFrame 7 2 (List.replicate 250 0)).getLast (frame_ne_nil _ _ _)]
          = requestFrame 7 2 (List.replicate 250 0)) ∧
      ((faulty wrongAlone).held ++ [0] = 0xA5#8 :: wrongAlone ∧
        (crc16 [0, 1, 2]).toNat ≠ field16 wrongAlone.tail 2 ∧ ∀ b ∈ wrongAlone, b ≠ 0xA5#8) ∧
      ((faulty wrongThenPart).held ++ [0] = 0xA5#8 :: wrongThenPart ∧
        (crc16 [0, 1, 2]).toNat ≠ field16 wrongThenPart.tail 2 ∧
        wrongThenPart = [0, 1, 2] ++ (requestFrame 1 9 []).take 2) ∧
      ((faulty wrongThenWhole).held ++ [wrongThenWhole.getLast (by simp [wrongThenWhole])] = 0xA5#8 :: wrongThenWhole ∧
        (crc16 (wrongThenWhole.take 7)).toNat ≠ field16 wrongThenWhole.tail 6 ∧
        wrongThenWhole.tail.length = 4 + (4#8).toNat ∧ wrongThenWhole = [4, 1, 2] ++ requestFrame 1 9 []) ∧
      ({ State.reset with held := [0xA5#8] } : State).held = [0xA5#8] ∧ 250 < (251#8).toNat ∧
      (almost 1 2 []).held ≠ [] ∧ State.reset.held = [] :=
  ⟨⟨List.length_replicate.le, List.dropLast_append_getLast _⟩, by decide +kernel, by decide +kernel, by decide +kernel,
    rfl, by decide, by decide +kernel, rfl⟩

theorem witness_FrameEndChoosesNext :
    State.reset.tx = some (.startup 0 false) ∧
      (let s := { State.reset with tx := some (.busyReply 1 2) }
       s.tx = some (.busyReply 1 2) ∧ s.startupSent = false) ∧
      (let s := { State.reset with startupSent := true, tx := some (.busyReply 1 2), replies := [.busyReply 1 3] }
       s.startupSent = true ∧ s.replies = .busyReply 1 3 :: []) ∧
      (let s := { State.reset with startupSent := true, tx := some (.busyReply 1 2), notices := [27, 0] }
       s.startupSent = true ∧ s.replies = [] ∧ s.notices = 27 :: [0]) := by
  decide +kernel

theorem witness_RefusedBeforeTheOwner :
    (NextServed 0x23 1 [] State.reset ∧ 0x22#8 < (0x23 : Byte)) ∧ NextServed 0 1 [5] State.reset ∧
      (NextServed 0x01 1 [0] State.reset ∧ ([0] : List Byte).length ≠ 0) ∧
      (NextServed 0x02 1 (List.replicate 8 0) State.reset ∧ (List.replicate 8 (0 : Byte)).length ≠ 9) ∧
      NextServed 0x22 1 [] { State.reset with requests := [⟨0x22, 1, [], false⟩] } := by
  refine ⟨⟨served_next rfl, by decide⟩, served_next rfl, ⟨served_next rfl, by decide⟩, ⟨served_next rfl, by decide⟩,
    served_waiting rfl⟩

theorem witness_NameOfNothingIsRefused :
    (NextServed 0x17 1 [24] State.reset ∧ 24 ≤ field8 [24] 0) ∧ (NextServed 0x03 1 [3] State.reset ∧ 3 ≤ field8 [3] 0) ∧
      (NextServed 0x12 1 [16] State.reset ∧ 16 ≤ field8 [16] 0) ∧
      (NextServed 0x09 1 (List.replicate 36 4) State.reset ∧ (List.replicate 36 (4 : Byte)).length = 36) ∧
      (NextServed 0x0B 1 [4, 0, 0, 0] State.reset ∧ 4 ≤ field8 [4, 0, 0, 0] 0) ∧
      (NextServed 0x15 1 [0, 254, 0] State.reset ∧ 4 ≤ field8 [0, 4, 0] 1 ∧ field8 [0, 254, 0] 1 ≠ 255) ∧
      (NextServed 0x16 1 [0, 253] State.reset ∧ field8 [0, 255] 1 ≠ 254 ∧ 4 ≤ field8 [0, 253] 1) ∧
      (NextServed 0x0C 1 (List.replicate 33 16) State.reset ∧ 16 ≤ field8 (List.replicate 33 16) 32) ∧
      (NextServed 0x0D 1 [16, 16, 15] State.reset ∧ NextServed 0x0D 1 [16, 15, 16] State.reset ∧
        16 ≤ field8 [16, 16, 15] 1 ∧ 16 ≤ field8 [16, 15, 16] 2) ∧
      NextServed 0x20 1 [254] State.reset ∧ 28 ≤ field8 [28] 0 ∧ field8 [254] 0 ≠ 255 :=
  ⟨⟨served_next rfl, by decide⟩, ⟨served_next rfl, by decide⟩, ⟨served_next rfl, by decide⟩,
    ⟨served_next rfl, by decide⟩, ⟨served_next rfl, by decide⟩, ⟨served_next rfl, by decide, by decide⟩,
    ⟨served_next rfl, by decide, by decide⟩, ⟨served_next rfl, by decide⟩,
    ⟨served_next rfl, served_next rfl, by decide, by decide⟩, served_next rfl, by decide, by decide⟩

theorem witness_ReadsAnswerFromTheState :
    (NextServed 0x01 1 [] State.reset ∧ (field8 [27] 0 = (27 : Scope).val ∧ NextServed 0x20 1 [27] State.reset) ∧
        (field8 [255] 0 = 255 ∧ NextServed 0x20 1 [255] State.reset) ∧
        (field8 [2] 0 = (2 : Shelf).val ∧ NextServed 0x03 1 [2] State.reset) ∧
        field8 [15] 0 = (15 : BinIx).val ∧ NextServed 0x12 1 [15] State.reset) ∧
      (field8 [23, 0] 0 = (23 : Slot).val ∧ NextServed 0x1B 1 [23, 0] State.reset ∧ field8 [23, 0] 1 = 0 ∧
        field8 [23, 1] 1 = 1 ∧ field8 [23, 2] 1 = 2 ∧ 2 < field8 [23, 3] 1) ∧
      (NextServed 0x1D 1 [23, 0x17, 0xFF] State.reset ∧ field16 [23, 0x17, 0xFF] 1 = 6143) ∧
      (NextServed 0x1E 1 [23, 1] State.reset ∧ field8 [23, 1] 1 ≤ 1) ∧
      (NextServed 0x1F 1 [23, 1, 255, 200] State.reset ∧ field16 [23, 1, 255, 200] 1 = 511 ∧
        field8 [23, 1, 255, 200] 3 = 200) ∧
      ∀ r, some (newRun 0 { plan with count := 12 }) = some r → r.outcomes.length ≤ 12 :=
  ⟨⟨served_next rfl, ⟨by decide, served_next rfl⟩, ⟨by decide, served_next rfl⟩, ⟨by decide, served_next rfl⟩,
      by decide, served_next rfl⟩,
    ⟨by decide, served_next rfl, by decide, by decide, by decide, by decide⟩, ⟨served_next rfl, by decide⟩,
    ⟨served_next rfl, by decide⟩, ⟨served_next rfl, by decide, by decide⟩, fun r h => by cases h; decide +kernel⟩

theorem witness_SettingAFlag :
    (0 < 32 ∧ 31 < 32) ∧ ¬((26 : Scope) = 27 ∧ 0 = 0) ∧
      flagSet State.reset 27 0 = false ∧ State.reset.enables[(27 : Scope)].getLsbD 0 = true ∧
        (27 : Scope) ∉ State.reset.notices := by
  decide +kernel

theorem witness_ClearingAndEnablingFlags :
    (field8 [27, 0, 0, 0, 3] 0 = (27 : Scope).val ∧ NextServed 0x21 1 [27, 0, 0, 0, 3] State.reset ∧
        NextServed 0x22 1 [27, 0, 0, 0, 3] State.reset ∧
        BitVec.ofNat 32 (field32 [27, 0, 0, 0, 3] 1) &&& ~~~(scopeMask 27) = 0#32) ∧
      BitVec.ofNat 32 (field32 [27, 0, 0, 0, 4] 1) &&& ~~~(scopeMask 27) ≠ 0#32 ∧ 27 < field8 [28, 0, 0, 0, 0] 0 :=
  ⟨⟨by decide, served_next rfl, served_next rfl, by decide +kernel⟩, by decide +kernel, by decide⟩

/-- A machine whose next command abandons a frame and sets LINK_ERROR while four requests and four BUSY replies wait. -/
def laden : State :=
  { State.reset with
    pending := [.hostByteGapExpiry], held := [0xA5#8], flags := State.reset.flags.set 27 2#32
    requests := List.replicate 4 ⟨1, 2, [], true⟩, busyList := List.replicate 4 (1, 2) }

theorem laden_steps : ∃ t, step laden = .next t := ⟨_, rfl⟩

theorem witness_StepsKeepFlagsNoticesAndQueues :
    (FlagsExist laden ∧ NoticesOnce laden ∧ QueuesFit laden) ∧ ∃ t, step laden = .next t :=
  ⟨by unfold FlagsExist NoticesOnce QueuesFit; decide +kernel, laden_steps⟩

theorem witness_FlagsStaySet :
    (Instr.hostByteGapExpiry ≠ .reset ∧ ∀ tag p, Instr.hostByteGapExpiry ≠ .eventsClear tag p) ∧
      (∃ t, exec .hostByteGapExpiry laden = .next t) ∧ flagSet laden 27 1 = true :=
  ⟨⟨by decide, by intros; simp⟩, ⟨_, rfl⟩, by decide +kernel⟩

/-! ## Witnesses: the shelves -/

/-- Slot 0 bound and READY, spun down: 6 W of the shelf's 120. -/
def oneReady : State := slot0 ready

/-- A shelf with the budget fields of a SHELF_SET payload. -/
def budgetFields (p : List Byte) (sh : ShelfRec) : ShelfRec :=
  { sh with
    limit := field16 p 2, idleDraw := field8 p 4, runDraw := field8 p 5, inrushDraw := field8 p 6,
    spinWindow := field8 p 7, bootDelay := field8 p 8 }

theorem oneReady_sound : BudgetSound oneReady := by
  unfold BudgetSound ShelfBudgetSound; decide +kernel

theorem oneReady_quiet (i : Slot) (_ : shelfOf i = 0) :
    (oneReady.slot i).run = none ∧ NoWork oneReady i ∧ (oneReady.slot i).occ ≠ .shipping := by
  revert i; unfold NoWork; decide +kernel

theorem witness_ShelfSetReplacesTheFields :
    (let p : List Byte := [0, 1, 0x07, 0xD0, 100, 100, 100, 60, 30]
     field8 p 0 = (0 : Shelf).val ∧ NextServed 0x02 1 p oneReady ∧ field16 p 2 = 2000 ∧ field8 p 6 = 100 ∧
       (oneReady.shelf 0).enabled = true ∧
       committed ((serving 0x02#8 1 p oneReady).modShelf 0 (budgetFields p)) 0 ≤ 2000) ∧
      (let p : List Byte := [0, 0, 0, 0, 1, 1, 1, 5, 1]
       NextServed 0x02 1 p State.reset ∧ field8 p 1 = 0 ∧ (State.reset.shelf 0).enabled = false) ∧
      (let p : List Byte := [0, 1, 0x07, 0xD1, 1, 1, 1, 5, 1]
       NextServed 0x02 1 p oneReady ∧ ¬field16 p 2 ≤ 2000) ∧
      let p : List Byte := [0, 1, 0, 5, 6, 9, 22, 20, 4]
      NextServed 0x02 1 p oneReady ∧ BudgetSound oneReady ∧
        (∀ i : Slot, shelfOf i = 0 → (oneReady.slot i).run = none ∧ NoWork oneReady i ∧ (oneReady.slot i).occ ≠ .shipping) ∧
        currentLimit (((serving 0x02#8 1 p oneReady).modShelf 0 (budgetFields p)).shelf 0) <
          committed ((serving 0x02#8 1 p oneReady).modShelf 0 (budgetFields p)) 0 :=
  ⟨⟨by decide, served_next rfl, by decide, by decide, by decide +kernel, by decide +kernel⟩,
    ⟨served_next rfl, by decide, by decide +kernel⟩, ⟨served_next rfl, by decide⟩, served_next rfl, oneReady_sound,
    oneReady_quiet, by decide +kernel⟩

/-- Slot 0 HELD on the disabled shelf of a reset, and slot 0 waiting for power on the enabled one. -/
def heldSlot : State := State.reset.modSlot 0 fun r => { r with occ := .held, present := true }
def waiting : State :=
  (slot0 fun r => { r with occ := .powerWait, adm := .queued, present := true }).modShelf 0 fun sh =>
    { sh with queue := [{ slot := 0, kind := .power, requester := .supervisor }] }

/-- A slot switched off within its POWER_CYCLE. -/
def cycledOff : Run := { runAt 4 with cycleStep := some .offTime, offTimer := some 5000 }
def off (r : SlotRec) : SlotRec := { r with cls := .off, adm := .off, drive := none }

/-- A shelf with runs at every kind of phase: slots 0 to 3 with the SOAK, a DRIVE_TEST, a REST and a POWER_CYCLE's on time,
slot 4 in the off time, slot 5 suspended and powered to attach, and slot 6 waiting for power. -/
def busyShelf : State :=
  (((((((ground.modSlot 0 (testing (runAt 0))).modSlot 1 (testing { runAt 2 with interruptions := 2 })).modSlot 2
    (testing (runAt 5))).modSlot 3 (testing { runAt 4 with cycleStep := some .onTime })).modSlot 4
      fun r => off (testing cycledOff r)).modSlot 5
      fun r => { testing { runAt 0 with state := .suspended, suspShed := true } r with
        occ := .attaching, adm := .attaching, cls := .idle, drive := none }).modSlot 6
      fun r => { r with occ := .powerWait, adm := .queued, present := true }).modShelf 0 fun sh =>
    { sh with queue := [{ slot := 6, kind := .power, requester := .supervisor }] }

theorem witness_EnablingAndDisablingAShelf :
    (let p : List Byte := [0, 1, 0, 120, 6, 9, 22, 20, 4]
     field8 p 0 = (0 : Shelf).val ∧ NextServed 0x02 1 p heldSlot ∧ field8 p 1 = 1 ∧
       (∀ i : Slot, shelfOf i = 0 → (heldSlot.slot i).cls = .off) ∧
       (heldSlot.shelf 0).enabled = false ∧ (heldSlot.shelf 0).queue = [] ∧ (heldSlot.slot 0).occ = .held ∧
       (heldSlot.slot 0).enabled = true ∧ (heldSlot.slot 0).result = none ∧ (heldSlot.slot 0).unlocked = false) ∧
      let p : List Byte := [0, 0, 0, 120, 6, 9, 22, 20, 4]
      NextServed 0x02 1 p busyShelf ∧ field8 p 1 = 0 ∧ (busyShelf.shelf 0).enabled = true ∧
        (∀ e ∈ (busyShelf.shelf 0).queue, shelfOf e.slot = 0) ∧
        (∀ i : Slot, shelfOf i = 0 → ((busyShelf.slot i).cls = .off ∧ (busyShelf.slot i).run = none) ∨
          (NoWork busyShelf i ∧ (busyShelf.slot i).attn = none ∧ (busyShelf.slot i).occ ≠ .shipping ∧
            ((busyShelf.slot i).cls = .off → (busyShelf.slot i).drive = none))) ∧
        ((busyShelf.slot 1).run = some { runAt 2 with interruptions := 2 } ∧
          phaseRec busyShelf (runAt 2) = some { body := .driveTest 6 .final 100, onFail := .continue }) ∧
        ((busyShelf.slot 4).run = some cycledOff ∧ (busyShelf.slot 4).occ = .testing ∧
          phaseRec busyShelf cycledOff = some { body := .powerCycle 1 5 5, onFail := .continue }) ∧
        (busyShelf.slot 5).run.map Run.state = some .suspended ∧ (busyShelf.shelf 0).queue ≠ [] :=
  ⟨⟨by decide, served_next rfl, by decide, by decide +kernel, by decide +kernel, by decide +kernel, by decide +kernel,
      by decide +kernel, by decide +kernel, by decide +kernel⟩,
    served_next rfl, by decide, by decide +kernel, by decide +kernel, by unfold NoWork; decide +kernel,
    by decide +kernel, by decide +kernel, by decide +kernel, by decide +kernel⟩

/-- The debounced presence of slot 1 is about to settle beside a READY slot 0. -/
def inserting : State :=
  { oneReady.modSlot 1 fun r => { r with presRaw := true, presTimer := some 250 } with
    pending := [.presenceDebounceExpiry 1] }

theorem witness_StepsKeepBudgetSound : BudgetSound inserting ∧ ∃ t, step inserting = .next t :=
  ⟨by unfold BudgetSound ShelfBudgetSound; decide +kernel, _, rfl⟩

/-- The waiting slot on a shelf with no watt to give. -/
def starved : State := waiting.modShelf 0 fun sh => { sh with limit := 0 }

theorem witness_ExaminationAndShedding :
    ((examine 0 starved).shelf 0).queue = { slot := 0, kind := .power, requester := .supervisor } :: [] ∧
      BudgetSound starved :=
  ⟨by decide +kernel, by unfold BudgetSound ShelfBudgetSound; decide +kernel⟩

theorem witness_GrantsActOnTheirSlot :
    (waiting.slot 0).occ = .powerWait ∧ (oneReady.slot 0).occ ≠ .powerWait ∧
      (let s := slot0 fun r => { ready r with powerRank := some 3, spinRank := some 4 }
       shelfOf 0 = shelfOf 1 ∧ (s.slot 0).powerRank = some 3 ∧ (s.slot 0).spinRank = some 4) := by
  decide +kernel

/-- A supply line that has gone high and is about to settle, beside a READY slot. -/
def failing : State := oneReady.modShelf 0 fun sh => { sh with rawA := true, timerA := some 50 }

theorem witness_SupplyLines :
    ((State.reset.shelf 2).rawA ≠ true ∧ (State.reset.shelf 2).rawB ≠ true) ∧
      (let s := State.reset.modShelf 2 fun sh => { sh with rawB := true, timerB := some 50, lineA := true }
       (supplyTimer .ssb (s.shelf 2)).isSome ∧ (s.shelf 2).enabled = false) ∧
      (let s := oneReady.modShelf 0 fun sh => { sh with rawB := true, timerB := some 50 }
       (supplyTimer .ssb (s.shelf 0)).isSome ∧ committed s 0 ≤ currentLimit { s.shelf 0 with lineB := true, timerB := none }) ∧
      (supplyTimer .ssa (failing.shelf 0)).isSome ∧ BudgetSound failing ∧ (failing.shelf 0).enabled = true ∧
        currentLimit (supplyLevel .ssa (failing.shelf 0)) < committed failing 0 ∧
        ∀ i : Slot, shelfOf i = 0 →
          (failing.slot i).run = none ∧ NoWork failing i ∧ (failing.slot i).occ ≠ .shipping :=
  ⟨by decide +kernel, by decide +kernel, by decide +kernel, by decide +kernel,
    by unfold BudgetSound ShelfBudgetSound; decide +kernel, by decide +kernel, by decide +kernel,
    by unfold NoWork; decide +kernel⟩

/-- Slot 0 attaching on a shelf that waits for the wake pattern. -/
def keyless : State :=
  (slot0 fun r => { r with occ := .attaching, adm := .attaching, cls := .idle, present := true, deadline := some (.paused 30000) }).modShelf 0
    fun sh => { sh with pass := .keyWait }

theorem witness_ShelfTablesAreSet :
    (field8 [2, 30] 0 = (2 : Shelf).val ∧ field8 [2, 30] 1 = 30 ∧ NextServed 0x05 1 [2, 30] State.reset) ∧
      (consoleRateOf (field8 [2, 3] 1) = some .r921600 ∧ NextServed 0x06 1 [2, 3] State.reset) ∧
      (3 < field8 [2, 4] 1 ∧ NextServed 0x06 1 [2, 4] State.reset) ∧
      (NextServed 0x07 1 [] State.reset ∧ (NextServed 0x07 1 [33] State.reset ∧ 32 < field8 [33] 0) ∧
        (NextServed 0x07 1 [32] State.reset ∧ ([32] : List Byte).length ≠ 1 + field8 [32] 0) ∧
        (∀ k : Shelf, attachSet State.reset k = [] ∧ (State.reset.shelf k).pass ≠ .keyWait) ∧
        NextServed 0x07 1 (32 :: List.replicate 32 0) keyless ∧
        (32 :: List.replicate 32 0 : List Byte).length = 1 + field8 (32 :: List.replicate 32 0) 0 ∧
        (keyless.shelf 0).pass = .keyWait ∧ attachSet keyless 0 ≠ []) ∧
      (NextServed 0x08 1 [32, 255, 4] State.reset ∧ field8 [32, 255, 4] 0 = 32 ∧
        vectorActionOf (field8 [32, 255, 4] 2) = some .ignore) ∧
      field8 [31, 31, 0] 0 < 32 ∧ field8 [33, 32, 0] 1 < field8 [33, 32, 0] 0 ∧ 4 < field8 [32, 32, 5] 2 :=
  ⟨⟨by decide, by decide, served_next rfl⟩, ⟨by decide, served_next rfl⟩, ⟨by decide, served_next rfl⟩,
    ⟨served_next rfl, ⟨served_next rfl, by decide⟩, ⟨served_next rfl, by decide⟩, by decide +kernel, served_next rfl,
      by decide +kernel, by decide +kernel, by decide +kernel⟩,
    ⟨served_next rfl, by decide, by decide⟩, by decide, by decide, by decide⟩

/-- Slot 0 in phase n of its run. -/
def running (n : Nat) : State := slot0 (testing (runAt n))

theorem witness_ShelfRestartDropsTheRuns :
    let s := (running 0).modShelf 0 fun sh => { sh with queue := [{ slot := 7, kind := .power, requester := .supervisor }] }
    field8 [0] 0 = (0 : Shelf).val ∧ NextServed 0x04 1 [0] s ∧
      (∀ e ∈ (s.shelf 0).queue, shelfOf e.slot = 0 ∧ (e.kind = .power → (s.slot e.slot).adm ≠ .bound)) ∧
      (s.slot 0).run.isSome ∧ (s.slot 0).adm = .bound :=
  ⟨by decide, served_next rfl, by decide +kernel, by decide +kernel, by decide +kernel⟩

/-! ## Witnesses: the tables -/

/-- A PLAN_LOAD payload at the upper ends of its ranges, with a gap of 60000, and with one of 60001. -/
def planBytes (gapLow : Byte) : List Byte :=
  [0, 0, 9, 12, 0x02, 0x58, 80] ++ List.replicate 18 1 ++ [120] ++ List.replicate 8 0 ++ [0xEA, gapLow]

/-- Plan 0 armed in slot 5. -/
def armed : State := ground.modSlot 5 fun r => { r with armed := some 0 }

theorem witness_PlansAreLoaded_header :
    (let p := planBytes 0x60
     p.length = 36 ∧ field8 p 0 = (0 : PlanIx).val ∧ field8 p 3 = 12 ∧ field16 p 4 = 600 ∧ field8 p 6 = 80 ∧
       field8 p 25 = 120 ∧ field16 p 34 = 60000) ∧
      NextServed 0x09 1 (planBytes 0x60) ground ∧ planInUse ground 0 = false ∧ planInUse armed 0 = true ∧
      field16 (planBytes 0x61) 34 = 60001 :=
  ⟨by decide +kernel, served_next rfl, by decide +kernel, by decide +kernel, by decide +kernel⟩

/-- PHASE_LOAD payloads of the four kinds, each at the ends of its ranges. -/
def soakBytes : List Byte :=
  [0, 7, 0, 0, 5, 0, 0, 3, 0xFF, 0xFF, 0, 0xFF, 0xFF, 0xFF, 0x02, 0x58, 0x02, 0x58, 0x0E, 0x10] ++ List.replicate 9 0
def testBytes : List Byte := [0, 7, 1, 1, 5, 2, 0, 0, 0, 1] ++ List.replicate 19 0
def restBytes : List Byte := [0, 7, 2, 0] ++ List.replicate 16 0 ++ [0, 1, 0x51, 0x80, 0, 0, 0, 0, 0]
def cycleBytes : List Byte := [0, 7, 3, 0] ++ List.replicate 20 0 ++ [1, 0x02, 0x58, 0x0E, 0x10]

theorem witness_PlansAreLoaded :
    (∀ p ∈ [soakBytes, testBytes, restBytes, cycleBytes],
        p.length = 29 ∧ field8 p 0 = (0 : PlanIx).val ∧ field8 p 1 < ground.plans[(0 : PlanIx)].count) ∧
      (field32 soakBytes 6 = 262143 ∧ field32 soakBytes 10 = 16777215 ∧ field16 soakBytes 14 = 600 ∧
        field16 soakBytes 16 = 600 ∧ field16 soakBytes 18 = 3600 ∧ onFailOf (field8 soakBytes 3) = some .continue) ∧
      (field32 testBytes 6 = 1 ∧ scanTagOf (field8 testBytes 5) = some .none) ∧ field32 restBytes 20 = 86400 ∧
      (field8 cycleBytes 24 = 1 ∧ field16 cycleBytes 25 = 600 ∧ field16 cycleBytes 27 = 3600) ∧
      ground.plans[(0 : PlanIx)].count ≤ field8 [0, 8] 1 ∧
      (let p : List Byte := [0, 3, 24, 2] ++ List.replicate 24 0x41
       p.length = 4 + field8 p 2 ∧ field8 p 1 ≤ 3 ∧ field8 p 2 ≤ 24 ∧ tripActionOf (field8 p 3) = some .abortPlan) ∧
      (let p : List Byte := [0, 3, 0, 9]
       p.length = 4 + field8 p 2 ∧ field8 p 2 = 0) := by
  decide +kernel

theorem witness_PlansAreLoaded_signature :
    (NextServed 0x0B 1 [0, 3, 0] ground ∧ ([0, 3, 0] : List Byte).length < 4) ∧
      (let p : List Byte := [0, 3, 25, 2, 0x41]
       NextServed 0x0B 1 p ground ∧ 4 ≤ p.length ∧ field8 p 1 ≤ 3 ∧ 24 < field8 p 2) ∧
      (let p : List Byte := [0, 4, 24, 2, 0x41]
       NextServed 0x0B 1 p ground ∧ 4 ≤ p.length ∧ 3 < field8 p 1) ∧
      (let p : List Byte := [0, 3, 24, 2] ++ List.replicate 23 0x41
       NextServed 0x0B 1 p armed ∧ field8 p 0 = (0 : PlanIx).val ∧ field8 p 1 ≤ 3 ∧ field8 p 2 ≤ 24 ∧
         (tripActionOf (field8 p 3)).isSome ∧ p.length ≠ 4 + field8 p 2) ∧
      (let p : List Byte := [0, 3, 0, 9, 0x41]
       NextServed 0x0B 1 p ground ∧ field8 p 2 = 0 ∧ p.length ≠ 4 + field8 p 2) :=
  ⟨⟨served_next rfl, by decide⟩, ⟨served_next rfl, by decide, by decide, by decide⟩,
    ⟨served_next rfl, by decide, by decide⟩,
    ⟨served_next rfl, by decide, by decide, by decide, by decide, by decide⟩, ⟨served_next rfl, by decide, by decide⟩⟩

theorem witness_PlansAreLoaded_served :
    NextServed 0x0A 1 soakBytes ground ∧ NextServed 0x0B 1 [0, 3, 0, 9] ground ∧ NextServed 0x0A 1 restBytes armed ∧
      NextServed 0x0B 1 [0, 3, 0, 9] armed :=
  ⟨served_next rfl, served_next rfl, served_next rfl, served_next rfl⟩

/-- A RULE_LOAD payload for rule 15 and bin 15. -/
def ruleBytes : List Byte := [15] ++ List.replicate 28 0xFF ++ [1, 0xFF, 1, 15]

/-- One loaded ship item, and a sequence at WRITE. -/
def shipping : State := { ground with shipItems := ground.shipItems.set 0 (some ⟨1, 2, 3⟩) }.modSlot 0 fun r =>
  { r with ship := some { path := .full, step := .write, position := 0, selected := [], failures := 0 } }
def oneItem : State := { ground with shipItems := ground.shipItems.set 0 (some ⟨1, 2, 3⟩) }

theorem witness_RulesItemsAndSegments_items :
    (ruleBytes.length = 33 ∧ field8 ruleBytes 0 = 15 ∧ yesNoOf (field8 ruleBytes 31) = some true ∧
        field8 ruleBytes 32 = (15 : BinIx).val ∧ NextServed 0x0C 1 ruleBytes ground) ∧
      (field8 [16, 15, 14] 0 = 16 ∧ NextServed 0x0D 1 [16, 15, 14] ground) ∧
      (let p : List Byte := [31, 0, 1, 0, 0, 0, 9, 0xFF, 0xFF]
       field8 p 0 = 31 ∧ field16 p 1 ≠ 0 ∧ NextServed 0x0E 1 p ground ∧ shipListInUse ground = false ∧
         NextServed 0x0E 1 p shipping ∧ shipListInUse shipping = true) ∧
      31 < field8 [32] 0 ∧
      (NextServed 0x0F 1 [33] ground ∧ 32 < field8 [33] 0) ∧
      (NextServed 0x0F 1 [32] ground ∧ (∃ m : Fin 32, m.val < field8 [32] 0 ∧ ground.shipItems[m] = none)) ∧
      (∀ m : Fin 32, m.val < field8 [1] 0 → oneItem.shipItems[m] ≠ none) ∧ NextServed 0x0F 1 [1] oneItem ∧
      (∀ m : Fin 32, m.val < field8 [1] 0 → shipping.shipItems[m] ≠ none) ∧ NextServed 0x0F 1 [1] shipping :=
  ⟨⟨by decide, by decide, by decide, by decide, served_next rfl⟩, ⟨by decide, served_next rfl⟩,
    ⟨by decide, by decide, served_next rfl, by decide +kernel, served_next rfl, by decide +kernel⟩, by decide,
    ⟨served_next rfl, by decide⟩, ⟨served_next rfl, by decide +kernel⟩, by decide +kernel, served_next rfl,
    by decide +kernel, served_next rfl⟩

theorem reset_segment (j : Slot) :
    (ground.slot j).seg.base = 256 * j.val ∧ (ground.slot j).seg.limit = 256 := by
  revert j; decide +kernel

theorem witness_RulesItemsAndSegments :
    (let p : List Byte := [23, 0x17, 0, 1, 0]
     NextServed 0x10 1 p ground ∧ field8 p 0 = (23 : Slot).val ∧ field16 p 1 + field16 p 3 = 6144 ∧
       (ground.slot 23).run = none ∧ (ground.slot 23).result = none ∧
       ∀ (j : Slot) (x : Nat), j ≠ 23 → ¬((field16 p 1 ≤ x ∧ x < field16 p 1 + field16 p 3) ∧
         ((ground.slot j).seg.base ≤ x ∧ x < (ground.slot j).seg.base + (ground.slot j).seg.limit))) ∧
      (let p : List Byte := [23, 0x17, 0, 1, 1]
       NextServed 0x10 1 p ground ∧ ¬field16 p 1 + field16 p 3 ≤ 6144) ∧
      (let p : List Byte := [0, 0, 0, 0, 0]
       NextServed 0x10 1 p (running 0) ∧ field16 p 1 + field16 p 3 = 0 ∧ ((running 0).slot 0).run.isSome) := by
  refine ⟨⟨served_next rfl, by decide, by decide, by decide +kernel, by decide +kernel, ?_⟩,
    ⟨served_next rfl, by decide⟩, served_next rfl, by decide, by decide +kernel⟩
  intro j x hj h
  have hs := reset_segment j
  have hv : j.val ≠ 23 := fun e => hj (Fin.ext e)
  have h0 : field16 [23, 0x17, 0, 1, 0] 1 = 5888 := by decide
  omega

/-- Slots 0 and 1 waiting for a place in bin 3, their power asked for. -/
def waitingForBin (r : SlotRec) : SlotRec :=
  { r with occ := .binWait, adm := .queued, present := true, result := some (resultOf .none) }
def holding : State :=
  { (slot0 waitingForBin).modSlot 1 waitingForBin with
    bins := ground.bins.set 3 { capacity := 2, fill := 2, reserved := 0, hold := [0, 1] } }

/-- Slot 0 alone waiting for a place in the full bin 15, with its drive bound, and switched off. -/
def aloneWaiting (f : SlotRec → SlotRec) : State :=
  { slot0 fun r => f { r with occ := .binWait, present := true, result := some (resultOf .none) } with
    bins := ground.bins.set 15 { capacity := 1, fill := 1, reserved := 0, hold := [0] }
    shipItems := ground.shipItems.set 0 (some ⟨1, 2, 0x8000⟩), shipCount := 1 }
def boundWaiting : State := aloneWaiting fun r => { r with adm := .bound, cls := .idle, drive := some drive }
def reworkWaiting : State :=
  aloneWaiting fun r => { r with adm := .bound, cls := .idle, drive := some drive, diverted := true }
def offWaiting : State := aloneWaiting id
def unattached : State := aloneWaiting fun r => { r with result := some (resultOf .attachFail) }

theorem witness_BinsAndTotes_alone :
    (∀ s ∈ [boundWaiting, reworkWaiting, offWaiting],
        s.bins[(15 : BinIx)].hold = [0] ∧ 0 + s.bins[(15 : BinIx)].reserved < s.bins[(15 : BinIx)].capacity ∧
          (s.slot 0).occ = .binWait ∧ (s.slot 0).reservation = none ∧ (s.slot 0).result = some (resultOf .none) ∧
          s.bins[(15 : BinIx)].fill + s.bins[(15 : BinIx)].reserved < field8 [15, 2] 1 ∧
          s.bins[(15 : BinIx)].capacity < field8 [15, 2] 1) ∧
      (∀ s ∈ [boundWaiting, reworkWaiting], (s.slot 0).adm = .bound ∧ (s.slot 0).drive.isSome = true ∧
        (s.slot 0).silent = false ∧ (s.shelf 0).work = []) ∧
      (selectedItems boundWaiting (some 15) = [⟨1, 2, 0x8000⟩] ∧ (reworkWaiting.slot 0).diverted = true) ∧
      (let r := offWaiting.slot 0
       r.adm = .off ∧ r.cls = .off ∧ r.unlocked = false ∧ (offWaiting.shelf 0).queue = [] ∧
         (offWaiting.shelf 0).enabled = true) ∧
      NextServed 0x13 1 [15] boundWaiting ∧ NextServed 0x13 1 [15] reworkWaiting ∧ NextServed 0x13 1 [15] offWaiting ∧
      NextServed 0x11 1 [15, 2] boundWaiting ∧ NextServed 0x11 1 [15, 2] offWaiting ∧
      (unattached.bins = offWaiting.bins ∧ (unattached.slot 0).result = some (resultOf .attachFail) ∧
        (unattached.slot 0).occ = .binWait ∧ (unattached.slot 0).adm = .off ∧ (unattached.slot 0).cls = .off) ∧
      NextServed 0x13 1 [15] unattached ∧ NextServed 0x11 1 [15, 2] unattached :=
  ⟨by decide +kernel, by decide +kernel, by decide +kernel, by decide +kernel, served_next rfl, served_next rfl,
    served_next rfl, served_next rfl, served_next rfl, by decide +kernel, served_next rfl, served_next rfl⟩

theorem witness_BinsAndTotes :
    (NextServed 0x11 1 [15, 1] ground ∧ field8 [15, 1] 1 = 1 ∧ ground.bins[(15 : BinIx)].use = 0 ∧
        ground.bins[(15 : BinIx)].capacity = 20 ∧ ground.bins[(15 : BinIx)].hold = []) ∧
      (NextServed 0x11 1 [15, 255] ground ∧ field8 [15, 255] 1 = 255) ∧ field8 [15, 0] 1 = 0 ∧
      (NextServed 0x11 1 [3, 1] holding ∧ field8 [3, 1] 1 < holding.bins[(3 : BinIx)].use) ∧
      (NextServed 0x11 1 [3, 4] holding ∧ holding.bins[(3 : BinIx)].use ≤ holding.bins[(3 : BinIx)].capacity ∧
        holding.bins[(3 : BinIx)].capacity < field8 [3, 4] 1) ∧
      (NextServed 0x13 1 [15] ground ∧ NextServed 0x13 1 [3] holding) ∧
      (holding.bins[(3 : BinIx)].hold.Nodup ∧ ∀ i ∈ holding.bins[(3 : BinIx)].hold, (holding.slot i).occ = .binWait ∧
        (holding.slot i).reservation = none ∧ (holding.slot i).adm = .queued ∧
        (holding.slot i).result = some (resultOf .none)) ∧
      ∀ res, some (resultOf .none) = some res → res.inputs.stop ≠ .attachFail :=
  ⟨⟨served_next rfl, by decide, by decide +kernel, by decide +kernel, by decide +kernel⟩,
    ⟨served_next rfl, by decide⟩, by decide, ⟨served_next rfl, by decide +kernel⟩,
    ⟨served_next rfl, by decide +kernel, by decide +kernel⟩, ⟨served_next rfl, served_next rfl⟩, by decide +kernel,
    fun res h => by cases h; decide⟩

theorem witness_StepsKeepBinsSound : BinsSound inserting ∧ ∃ t, step inserting = .next t :=
  ⟨by unfold BinsSound; decide +kernel, _, rfl⟩

theorem witness_PlanInUseIsFixed :
    (Instr.planLoad 1 (planBytes 0x60) ≠ .reset ∧ planInUse armed 0 = true) ∧
      ∃ t, exec (.planLoad 1 (planBytes 0x60)) armed = .next t :=
  ⟨⟨by simp, by decide +kernel⟩, _, rfl⟩

/-! ## Witnesses: the slots -/

theorem witness_EnableAndArm :
    (NextServed 0x14 1 [0, 2] ground ∧ 1 < field8 [0, 2] 1) ∧
      (NextServed 0x14 1 [0, 0] waiting ∧ field8 [0, 0] 1 = 0 ∧ (waiting.slot 0).enabled = true ∧
        (waiting.slot 0).occ = .powerWait) ∧
      (let s := slot0 fun r => { r with occ := .held, enabled := false }
       NextServed 0x14 1 [0, 1] s ∧ field8 [0, 1] 1 = 1 ∧ (s.slot 0).enabled = false ∧ (s.slot 0).occ = .held) ∧
      (NextServed 0x15 1 [0, 255, 1] ground ∧ yesNoOf (field8 [0, 255, 1] 2) = some true) ∧
      (4 ≤ field8 [0, 4, 0] 1 ∧ 4 ≤ field8 [0, 254, 0] 1 ∧ field8 [0, 254, 0] 1 ≠ 255) ∧
      (field8 [0, 3, 0] 1 = (3 : PlanIx).val ∧ ground.plans[(3 : PlanIx)].complete = false ∧
        NextServed 0x15 1 [0, 3, 0] ground) ∧
      field8 [0, 0, 1] 1 = (0 : PlanIx).val ∧ ground.plans[(0 : PlanIx)].complete = true ∧
        NextServed 0x15 1 [0, 0, 1] ground ∧ (ground.slot 0).occ ≠ .ready :=
  ⟨⟨served_next rfl, by decide⟩, ⟨served_next rfl, by decide, by decide +kernel, by decide +kernel⟩,
    ⟨served_next rfl, by decide, by decide +kernel, by decide +kernel⟩, ⟨served_next rfl, by decide⟩, by decide,
    ⟨by decide, by decide +kernel, served_next rfl⟩, by decide, by decide +kernel, served_next rfl, by decide +kernel⟩

/-- The ready slot with a plan of one phase. -/
def startable (rec : PhaseRec) : State :=
  { oneReady with plans := oneReady.plans.set 3 { plan with count := 1, phases := (Vector.replicate 12 none).set 0 (some rec) } }

theorem startable_starts (rec : PhaseRec) :
    (startable rec).plans[(3 : PlanIx)].complete = true ∧ ((startable rec).slot 0).occ = .ready ∧
      ((startable rec).slot 0).result = none ∧ ((startable rec).slot 0).silent = false ∧
      ((startable rec).slot 0).drive = some drive ∧ ((startable rec).slot 0).adm = .bound ∧
      ((startable rec).slot 0).cls = .idle ∧ (startable rec).plans[(3 : PlanIx)].phases[0] = some rec ∧
      NextServed 0x16 1 [0, 3] (startable rec) ∧ NoWork (startable rec) 0 ∧ ((startable rec).slot 0).attn = none :=
  ⟨rfl, rfl, rfl, rfl, rfl, rfl, rfl, rfl, served_next rfl, fun _ h => (nomatch h), rfl⟩

theorem witness_StartRunsThePlan :
    (∀ rec ∈ [(⟨.soak 5 100 10 300 350 5, .continue⟩ : PhaseRec), ⟨.driveTest 6 .final 100, .continue⟩,
        ⟨.rest 60, .continue⟩, ⟨.powerCycle 1 5 5, .continue⟩],
      (startable rec).plans[(3 : PlanIx)].phases[0] = some rec ∧ NextServed 0x16 1 [0, 3] (startable rec)) ∧
      field8 [0, 3] 1 = (3 : PlanIx).val ∧
      (NextServed 0x16 1 [0, 3] ground ∧ (ground.slot 0).occ ≠ .ready) ∧
      NextServed 0x16 1 [0, 254] oneReady ∧ field8 [0, 254] 1 = 254 ∧ (oneReady.slot 0).armed = none :=
  ⟨fun rec _ => ⟨(startable_starts rec).2.2.2.2.2.2.2.1, (startable_starts rec).2.2.2.2.2.2.2.2.1⟩, by decide,
    ⟨served_next rfl, by decide +kernel⟩, served_next rfl, by decide, by decide +kernel⟩

theorem running_goes : TestGoing (running 0) 0 (runAt 0) ∧ TestGoing (running 2) 0 (runAt 2) := by
  unfold TestGoing; decide +kernel

/-- The ready slot with the default bin full. -/
def fullTote : State := { oneReady with bins := oneReady.bins.set 15 { capacity := 1, fill := 1, reserved := 0, hold := [] } }

theorem witness_AbortStopsTheRun :
    (field8 [0] 0 = (0 : Slot).val ∧ NextServed 0x17 1 [0] (running 0) ∧ ((running 0).slot 0).occ = .testing) ∧
      TestGoing (running 0) 0 (runAt 0) ∧
      (let run := { runAt 0 with state := .stopping }
       let s := slot0 (testing run)
       NextServed 0x17 1 [0] s ∧ (s.slot 0).run = some run ∧ run.stop = none ∧ run.phase + 1 < run.outcomes.length) ∧
      (NextServed 0x17 1 [0] fullTote ∧ (fullTote.slot 0).run = none ∧ (fullTote.slot 0).occ = .ready ∧
        (fullTote.slot 0).result = none ∧ (fullTote.slot 0).adm = .bound ∧
        (formResult fullTote 0 .hostAbort).bin = some 15 ∧
        fullTote.bins[(15 : BinIx)].capacity ≤ fullTote.bins[(15 : BinIx)].fill + fullTote.bins[(15 : BinIx)].reserved) ∧
      (let run := { runAt 0 with state := .stopping, stop := some .earlyStop }
       let s := slot0 fun r => { testing run r with occ := .held }
       (NextServed 0x17 1 [0] (slot0 (testing run)) ∧ ((slot0 (testing run)).slot 0).run = some run ∧
           ((slot0 (testing run)).slot 0).occ = .testing) ∧
         NextServed 0x17 1 [0] s ∧ (s.slot 0).run = some run ∧ run.stop.isSome ∧ (s.slot 0).occ = .held) ∧
      NextServed 0x17 1 [0] ground ∧ (ground.slot 0).run = none ∧ (ground.slot 0).occ ≠ .ready :=
  ⟨⟨by decide, served_next rfl, by decide +kernel⟩, running_goes.1,
    ⟨served_next rfl, by decide +kernel, by decide +kernel, by decide +kernel⟩,
    ⟨served_next rfl, by decide +kernel, by decide +kernel, by decide +kernel, by decide +kernel, by decide +kernel,
      by decide +kernel⟩,
    ⟨⟨served_next rfl, by decide +kernel, by decide +kernel⟩, served_next rfl, by decide +kernel, by decide, by decide +kernel⟩,
    served_next rfl, by decide +kernel, by decide +kernel⟩

/-- The ready slot with a result pending. -/
def finished : State := slot0 fun r => { ready r with result := some (resultOf .none) }

/-- Slot 0 shipping to bin 15 with a sequence at a step, and its bin with that one reservation. -/
def shippingAt (path : ShipPath) (step : ShipStep) (selected : List ShipItem) (failures : Nat) : SlotRec → SlotRec :=
  fun r => { ready r with
    occ := .shipping, reservation := some 15, result := some (resultOf .none)
    ship := some { path := path, step := step, position := 0, selected := selected, failures := failures } }
def reserved (s : State) : State :=
  { s with bins := s.bins.set 15 { capacity := 20, fill := 0, reserved := 1, hold := [] } }

/-- What SLOT_UNLOCK's forced pulls and the losses ask of a slot. -/
def Free (s : State) : Prop := NoWork s 0 ∧ OffIsBare s 0 ∧ NobodyWaits s 0

theorem witness_UnlockReleasesTheSlot :
    (field8 [23] 0 = (23 : Slot).val ∧ NextServed 0x18 1 [23] ground ∧ (ground.slot 23).occ = .empty) ∧
      (let s := slot0 fun r => { r with occ := .removeReady, present := true }
       NextServed 0x18 1 [0] s ∧ (s.slot 0).occ = .removeReady ∧ (s.slot 0).cls = .off ∧ queued s 0 = false) ∧
      (NextServed 0x18 1 [0] waiting ∧ (waiting.slot 0).occ = .powerWait ∧ (waiting.slot 0).run = none ∧
        (waiting.slot 0).cls = .off ∧ hasEntry waiting 0 .power = true ∧ hasEntry waiting 0 .spin = false) ∧
      (NextServed 0x18 1 [0] (running 0) ∧ Free (running 0) ∧ ((running 0).slot 0).run.isSome ∧
        ((running 0).slot 0).result = none) ∧
      (NextServed 0x18 1 [0] oneReady ∧ Free oneReady ∧ (oneReady.slot 0).run = none ∧ (oneReady.slot 0).occ = .ready ∧
        (oneReady.slot 0).result = none) ∧
      (NextServed 0x18 1 [0] finished ∧ Free finished ∧ (finished.slot 0).occ = .ready ∧
        (finished.slot 0).result = some (resultOf .none) ∧ (finished.slot 0).cls ≠ .off ∧
        (finished.slot 0).drive = some drive) ∧
      (NextServed 0x18 1 [0] (reserved (slot0 (shippingAt .full .write [] 0))) ∧
        Free (reserved (slot0 (shippingAt .full .write [] 0)))) ∧
      NextServed 0x18 1 [0] { holding with requests := [] } ∧ Free holding ∧ (holding.slot 0).occ = .binWait :=
  ⟨⟨by decide, served_next rfl, by decide +kernel⟩,
    ⟨served_next rfl, by decide +kernel, by decide +kernel, by decide +kernel⟩,
    ⟨served_next rfl, by decide +kernel, by decide +kernel, by decide +kernel, by decide +kernel, by decide +kernel⟩,
    ⟨served_next rfl, by unfold Free NoWork OffIsBare NobodyWaits; decide +kernel, by decide +kernel, by decide +kernel⟩,
    ⟨served_next rfl, by unfold Free NoWork OffIsBare NobodyWaits; decide +kernel, by decide +kernel, by decide +kernel,
      by decide +kernel⟩,
    ⟨served_next rfl, by unfold Free NoWork OffIsBare NobodyWaits; decide +kernel, by decide +kernel, by decide +kernel,
      by decide +kernel, by decide +kernel⟩,
    ⟨served_next rfl, by unfold Free NoWork OffIsBare NobodyWaits; decide +kernel⟩,
    served_next rfl, by unfold Free NoWork OffIsBare NobodyWaits; decide +kernel, by decide +kernel⟩

/-- A slot released to the operator beside the one whose presence is about to settle. -/
def releasing : State := inserting.modSlot 2 fun r => { r with occ := .removeReady, present := true, unlocked := true }

theorem witness_StepsKeepLatchSafe : LatchSafe releasing ∧ ∃ t, step releasing = .next t :=
  ⟨by unfold LatchSafe; decide +kernel, _, rfl⟩

theorem witness_LocateAckAndRetire_locate :
    (NextServed 0x19 1 [23, 0, 0] ground ∧ field8 [23, 0, 0] 0 = (23 : Slot).val ∧ max 1 (min 255 (field16 [23, 0, 0] 1)) = 1) ∧
      (NextServed 0x19 1 [23, 1, 0] ground ∧ max 1 (min 255 (field16 [23, 1, 0] 1)) = 255) ∧
      ({ SlotRec.reset 0 with locateTimer := some 5 } : SlotRec).locateTimer = some 5 :=
  ⟨⟨served_next rfl, by decide, by decide⟩, ⟨served_next rfl, by decide⟩, rfl⟩

theorem witness_LocateAckAndRetire_retire :
    (NextServed 0x1A 1 [0] finished ∧ (finished.slot 0).result.isSome ∧ (finished.slot 0).occ = .ready) ∧
      NextServed 0x1A 1 [0] ground ∧ (ground.slot 0).result = none :=
  ⟨⟨served_next rfl, by decide +kernel, by decide +kernel⟩, served_next rfl, by decide +kernel⟩

/-- An attention of a code held for the host. -/
def heldAttn : AttnRecord where
  code := 40
  detail := 1
  phase := none
  run := .none
  disposition := .vector .notifyHold
  stage := .host
  clearPending := false
  fetch := none

theorem witness_LocateAckAndRetire :
    (let s := slot0 fun r => { ready r with attn := some heldAttn }
     NextServed 0x1C 1 [0, 40] s ∧ field8 [0, 40] 0 = (0 : Slot).val ∧ (s.slot 0).attn = some heldAttn ∧
       heldAttn.stage = .host ∧ heldAttn.code = byteAt [0, 40] 1 ∧ (s.slot 0).drive.isSome ∧
       (s.slot 0).silent = false ∧ pendingItem (s.shelf (shelfOf 0)).work 0 .attnClear = none ∧
       heldAttn.code ≠ byteAt [0, 41] 1) ∧
      NextServed 0x1C 1 [0, 40] ground ∧ (ground.slot 0).attn = none :=
  ⟨⟨served_next rfl, by decide, by decide +kernel, by decide, by decide, by decide +kernel, by decide +kernel,
      by decide +kernel, by decide⟩, served_next rfl, by decide +kernel⟩

/-! ## Witnesses: the lines and the timers -/

/-- The locate window of the shelf open since moment 0 for node 1, with slots already seen pulsing and gone. -/
def windowed (pulsing left : List Slot) : ShelfRec → ShelfRec := fun sh =>
  { sh with pass := .round (.window 0 ⟨1, 0⟩ 0 pulsing left), nodes := sh.nodes.set 0 .candidate }

theorem witness_PresenceAndActivityLines :
    (ground.slot 23).presRaw ≠ true ∧ (ground.slot 23).actRaw ≠ true ∧
      (let s := { (slot0 fun r => { r with actRaw := true, actTimer := some 5 }).modShelf 0 (windowed [] []) with now := 100 }
       (s.slot 0).actTimer.isSome ∧ (s.slot 0).active ≠ (s.slot 0).actRaw ∧
         (s.shelf (shelfOf 0)).pass = .round (.window 0 ⟨1, 0⟩ 0 [] []) ∧ s.now - 0 ≤ 100) ∧
      (let s := { (slot0 fun r => { r with active := true, actTimer := some 5 }).modShelf 0 (windowed [0] []) with now := 349 }
       (s.slot 0).actTimer.isSome ∧ (s.slot 0).active ≠ (s.slot 0).actRaw ∧
         (s.shelf (shelfOf 0)).pass = .round (.window 0 ⟨1, 0⟩ 0 [0] []) ∧ (s.slot 0).actRaw = false ∧ s.now - 0 < 350) ∧
      let s := { (slot0 fun r => { r with active := true, actTimer := some 5 }).modShelf 0 (windowed [0] []) with now := 350 }
      (s.slot 0).actRaw = false ∧ 350 ≤ s.now - 0 := by
  decide +kernel

/-- Slot 0 with its drive about to be found gone. -/
def leaving (f : SlotRec → SlotRec) : State := slot0 fun r => { f r with present := true, presRaw := false, presTimer := some 250 }

theorem witness_PresenceSettles :
    (let s := slot0 fun r => { r with presRaw := true, presTimer := some 250 }
     (s.slot 0).presTimer.isSome ∧ (s.slot 0).presRaw = true ∧ (s.slot 0).present = false ∧ (s.slot 0).occ = .empty ∧
       (s.shelf (shelfOf 0)).enabled = true ∧ (s.slot 0).enabled = true ∧ (s.slot 0).result = none ∧
       (s.slot 0).cls = .off ∧ (s.slot 0).unlocked = false) ∧
      (let s := State.reset.modSlot 23 fun r => { r with presRaw := true, presTimer := some 250 }
       (s.slot 23).presRaw = true ∧ (s.slot 23).occ = .empty ∧ (s.shelf (shelfOf 23)).enabled = false) ∧
      (let s := slot0 fun r => { r with occ := .removeReady, present := true, presTimer := some 250, reservation := some 3 }
       (s.slot 0).presTimer.isSome ∧ (s.slot 0).presRaw = false ∧ (s.slot 0).present = true ∧
         (s.slot 0).occ = .removeReady) ∧
      (Free (leaving ready) ∧ ((leaving ready).slot 0).presTimer.isSome ∧ ((leaving ready).slot 0).presRaw = false ∧
        ((leaving ready).slot 0).run = none ∧ ((leaving ready).slot 0).occ = .ready) ∧
      (Free (leaving (testing (runAt 0))) ∧ ((leaving (testing (runAt 0))).slot 0).run = some (runAt 0) ∧
        ((leaving (testing (runAt 0))).slot 0).result = none ∧ ((leaving (testing (runAt 0))).slot 0).occ = .testing) ∧
      let s := reserved (leaving (shippingAt .full .write [] 0))
      Free s ∧ (s.slot 0).occ = .shipping ∧ (s.slot 0).run = none ∧ (s.slot 0).result = some (resultOf .none) :=
  ⟨by decide +kernel, by decide +kernel, by decide +kernel, ⟨by unfold Free NoWork OffIsBare NobodyWaits; decide +kernel, by decide +kernel⟩,
    ⟨by unfold Free NoWork OffIsBare NobodyWaits; decide +kernel, by decide +kernel⟩,
    by unfold Free NoWork OffIsBare NobodyWaits; decide +kernel, by decide +kernel⟩

theorem witness_SlotTimersExpire :
    ((slot0 fun r => { r with unlockTimer := some 1 }).slot 0).unlockTimer.isSome ∧
      ((slot0 fun r => { r with pulseTimer := some 1 }).slot 0).pulseTimer.isSome ∧
      let s := slot0 fun r => { r with occ := .booting, adm := .booting, cls := .idle, bootTimer := some 1 }
      (s.slot 0).bootTimer.isSome ∧ (s.shelf (shelfOf 0)).pass = .idle ∧ s.wakePattern = [] := by
  decide +kernel

/-- A phase of the run waiting for its drive to spin up. -/
def spinning : State := slot0 fun r =>
  { testing { runAt 0 with state := .starting } r with
    cls := .inrush, spinTimer := some 20, spinReq := some .planRunner, spinRank := some 1 }

theorem witness_SpinWindowExpires :
    (let s := slot0 fun r => { ready r with cls := .inrush, spinTimer := some 20, spinReq := some .ladder }
     (s.slot 0).spinTimer.isSome ∧ (s.slot 0).cls = .inrush ∧ (s.slot 0).spinReq ≠ some .planRunner) ∧
      ((spinning.slot 0).spinTimer.isSome ∧ (spinning.slot 0).cls = .inrush ∧
        (spinning.slot 0).run = some { runAt 0 with state := .starting } ∧
        (spinning.slot 0).spinReq = some .planRunner ∧ (spinning.slot 0).adm = .bound ∧
        phaseRec spinning { runAt 0 with state := .starting } =
          some { body := .soak 5 100 10 300 350 5, onFail := .continue }) ∧
      RestFollows spinning { runAt 0 with state := .starting } 60 :=
  ⟨by decide +kernel, by decide +kernel, by decide +kernel, by decide +kernel, by decide +kernel, .continue, by decide +kernel⟩

/-- A slot powered to attach, whose deadline runs. -/
def attaching (occ : Occupancy) (result : Option Result) : State := slot0 fun r =>
  { r with occ := occ, adm := .attaching, cls := .idle, present := true, deadline := some (.running 30000), result := result }

theorem witness_AttachTimersExpire :
    (let s := attaching .attaching (some (resultOf .none))
     (s.slot 0).deadline = some (.running 30000) ∧ (s.slot 0).run = none ∧ (s.slot 0).drive = none ∧
       (s.slot 0).cls ≠ .off ∧ (s.slot 0).occ ≠ .binWait ∧ (s.slot 0).occ ≠ .shipping ∧ (s.slot 0).result.isSome) ∧
      ((attaching .binWait (some (resultOf .none))).slot 0).occ = .binWait ∧
      (let s := { attaching .attaching none with
         bins := ground.bins.set 15 { capacity := 1, fill := 1, reserved := 0, hold := [] } }
       (s.slot 0).occ = .attaching ∧ (s.slot 0).adm = .attaching ∧ (s.slot 0).result = none ∧
         (formResult s 0 .attachFail).bin = some 15 ∧
         s.bins[(15 : BinIx)].capacity ≤ s.bins[(15 : BinIx)].fill + s.bins[(15 : BinIx)].reserved) ∧
      ((shelf0 fun sh => { sh with pass := .paused .fault 1000 }).shelf 0).pass = .paused .fault 1000 := by
  decide +kernel

theorem witness_AttachTimersExpire_locate :
    (let s := (attaching .attaching none).modShelf 0 (windowed [0] [])
     (s.shelf 0).pass = .round (.window 0 ⟨1, 0⟩ 0 [0] []) ∧ allOff s 0 = false ∧ (s.slot 0).deadline.isSome) ∧
      (let s := oneReady.modShelf 0 (windowed [5] [5])
       (s.shelf 0).pass = .round (.window 0 ⟨1, 0⟩ 0 [5] [5]) ∧ allOff s 0 = false ∧ (s.slot 5).deadline = none) ∧
      (let s := oneReady.modShelf 0 (windowed [5] [])
       allOff s 0 = false ∧ (s.slot 5).deadline = none ∧ (5 : Slot) ∉ ([] : List Slot)) ∧
      allOff (oneReady.modShelf 0 (windowed [5, 6] [])) 0 = false ∧ allOff (oneReady.modShelf 0 (windowed [] [])) 0 = false := by
  decide +kernel

/-! ## Witnesses: the factory bus -/

/-- A flight on shelf 0. -/
def flight (slot : Option Slot) (node : Option NodeIx) (cmd : BusCmd) (owner : Owner) : Flight where
  item := { shelf := 0, slot := slot, cmd := cmd, owner := owner }
  node := node
  dropped := false
  orphan := false

/-- Slot 0 with a bound drive whose node the map names. -/
def boundState (f : SlotRec → SlotRec) : State :=
  (slot0 fun r => f (ready r)).modShelf 0 fun sh => { sh with nodes := sh.nodes.set 0 (.bound 0) }

/-- The items of a slot's bus with a window open, for a bound drive that answers. -/
theorem window_of {s : State} {d : DrivePart} {cmd : BusCmd} {owner : Owner}
    (h : (s.shelf 0).phase = .window (flight (some 0) (some 0) cmd owner) 10 ∧ (s.slot 0).drive = some d ∧
      slotOfNode s 0 0 = some 0 ∧ (s.slot 0).silent = false ∧ (s.shelf 0).work = []) : SlotWindow s 0 0 d cmd owner := by
  obtain ⟨hp, hd, hn, hs, hw⟩ := h
  refine ⟨⟨10, hp⟩, hd, hn, hs, fun it hit => ?_⟩
  have hk : shelfOf 0 = 0 := by decide
  rw [hk, hw] at hit
  cases hit

/-- Slot 0 with its drive bound and the reply window of one of its transactions open. -/
def answering (cmd : BusCmd) (owner : Owner) (f : SlotRec → SlotRec) : State :=
  (slot0 f).modShelf 0 fun sh =>
    { sh with nodes := sh.nodes.set 0 (.bound 0), phase := .window (flight (some 0) (some 0) cmd owner) 10 }

/-- Slot 0 of an attach round at READ_INFO, the window open. -/
def readingInfo (attempt : Nat) (f : SlotRec → SlotRec) : State :=
  (slot0 fun r => f { r with
    occ := .attaching, adm := .attaching, cls := .idle, present := true, deadline := some (.running 30000) }).modShelf 0
    fun sh => { sh with
      nodes := sh.nodes.set 0 (.binding 0), pass := .round (.readInfo 0 ⟨1, 0⟩ 0 attempt)
      phase := .window (flight none (some 0) (.readInfo 0) .attachUnit) 10 }

theorem reading_of {s : State} {attempt : Nat}
    (h : ((s.shelf 0).phase = .window (flight none (some 0) (.readInfo 0) .attachUnit) 10 ∧
      (s.shelf 0).pass = .round (.readInfo 0 ⟨1, 0⟩ 0 attempt) ∧ slotOfNode s 0 0 = none) ∧ (s.slot 0).drive = none ∧
      (s.slot 0).silent = false ∧ (s.slot 0).cls ≠ .off ∧ hasEntry s 0 .power = false ∧ (s.shelf 0).work = []) :
    ReadInfoWindow s 0 0 ⟨1, 0⟩ attempt := by
  obtain ⟨⟨hw, hp, hn⟩, hd, hs, hc, he, hk⟩ := h
  refine ⟨⟨10, hw⟩, hp, hn, hd, hs, hc, he, fun it hit => ?_⟩
  have hz : shelfOf 0 = 0 := by decide
  rw [hz, hk] at hit
  cases hit

/-- The bytes of a drive's INFO with some number of heads. -/
def infoBytes (heads : Byte) : List Byte := [0, 0, 0x74, 0x70, 0x6D, 0xAF, heads]

/-- What the slot may hold as its drive comes back: a suspended SOAK, a POWER_CYCLE at ATTACH, and a sequence that waits. -/
def suspendedRun : Run := { runAt 0 with state := .suspended, suspShed := true }
def attachRun : Run := { runAt 4 with cycleStep := some .attach }
def returning (run : Run) : SlotRec → SlotRec := fun r => { r with run := some run, identity := some ⟨1, 0⟩ }
def waitingShip (path : ShipPath) (identity : Option Identity) : SlotRec → SlotRec := fun r => { r with
  occ := .shipping, reservation := some 15, result := some (resultOf .none), identity := identity
  ship := some { path := path, step := .waitBind, position := 0, selected := [], failures := 0 } }

theorem witness_BindingCompletes :
    (ReadInfoWindow (readingInfo 2 id) 0 0 ⟨1, 0⟩ 2 ∧ ReadInfoWindow (readingInfo 3 id) 0 0 ⟨1, 0⟩ 3) ∧
      (∀ heads ∈ [(0 : Byte), 1, 16, 17], (infoBytes heads).length = 7 ∧ field8 (infoBytes heads) 6 = heads.toNat) ∧
      (ReadInfoWindow (readingInfo 1 id) 0 0 ⟨1, 0⟩ 1 ∧ ((readingInfo 1 id).slot 0).occ = .attaching ∧
        ((readingInfo 1 id).slot 0).run = none ∧ ((readingInfo 1 id).slot 0).armed = none) ∧
      (let s := readingInfo 1 fun r => { r with armed := some 0, autostart := true }
       ReadInfoWindow s 0 0 ⟨1, 0⟩ 1 ∧ (s.slot 0).run = none ∧ (s.slot 0).result = none ∧ (s.slot 0).armed = some 0 ∧
         (s.slot 0).autostart = true ∧
         s.plans[(0 : PlanIx)].phases[0] = some { body := .soak 5 100 10 300 350 5, onFail := .continue }) ∧
      (∀ run ∈ [suspendedRun, attachRun], let s := readingInfo 1 (returning run)
        (s.slot 0).run = some run ∧ (s.slot 0).identity = some ⟨1, 0⟩ ∧ (s.slot 0).cls = .idle ∧
          (phaseRec s run).isSome ∧ run.state ≠ .pending) ∧
      (let s := readingInfo 1 fun r => { returning (runAt 0) r with identity := some ⟨2, 0⟩ }
       ReadInfoWindow s 0 0 ⟨1, 0⟩ 1 ∧ (s.slot 0).run = some (runAt 0) ∧ (s.slot 0).result = none ∧
         (s.slot 0).identity = some ⟨2, 0⟩) ∧
      (∀ path ∈ [ShipPath.full, .rework], let s := readingInfo 1 (waitingShip path (some ⟨1, 0⟩))
        (s.slot 0).occ = .shipping ∧ (s.slot 0).run = none ∧ (s.slot 0).identity = some ⟨1, 0⟩ ∧
          (s.slot 0).result = some (resultOf .none) ∧ (resultOf .none).bin = some 15) ∧
      let s := reserved (readingInfo 1 (waitingShip .full (some ⟨2, 0⟩)))
      ReadInfoWindow s 0 0 ⟨1, 0⟩ 1 ∧ (s.slot 0).occ = .shipping ∧ (s.slot 0).identity = some ⟨2, 0⟩ ∧ NobodyWaits s 0 :=
  ⟨⟨reading_of (by decide +kernel), reading_of (by decide +kernel)⟩, by decide +kernel,
    ⟨reading_of (by decide +kernel), by decide +kernel⟩, ⟨reading_of (by decide +kernel), by decide +kernel⟩,
    by decide +kernel, ⟨reading_of (by decide +kernel), by decide +kernel⟩, by decide +kernel,
    reading_of (by decide +kernel), by decide +kernel, by decide +kernel, by unfold NobodyWaits; decide +kernel⟩

theorem witness_BindingCompletes_returning :
    ReadInfoWindow (readingInfo 1 (returning suspendedRun)) 0 0 ⟨1, 0⟩ 1 ∧
      ReadInfoWindow (readingInfo 1 (returning attachRun)) 0 0 ⟨1, 0⟩ 1 ∧
      ReadInfoWindow (readingInfo 1 (waitingShip .full none)) 0 0 ⟨1, 0⟩ 1 ∧
      ReadInfoWindow (readingInfo 1 (waitingShip .rework (some ⟨1, 0⟩))) 0 0 ⟨1, 0⟩ 1 :=
  ⟨reading_of (by decide +kernel), reading_of (by decide +kernel), reading_of (by decide +kernel),
    reading_of (by decide +kernel)⟩

/-- A bound drive whose next POLL falls due. -/
def polling : State := { boundState (fun r => { r with pollTimer := some 2000 }) with pending := [.pollTimerExpiry 0] }

theorem witness_StepsKeepNodeMapSound : NodeMapSound polling ∧ ∃ t, step polling = .next t := by
  refine ⟨fun k => ⟨?_, ?_⟩, _, rfl⟩
  · have h : (polling.shelf k).pass = .idle := by revert k; decide +kernel
    simp [PassSound, h]
  · revert k; decide +kernel

/-- Shelf 0 with its wire at a stage. -/
def wire (phase : BusPhase) (s : State) : State := s.modShelf 0 fun sh => { sh with phase := phase }

theorem witness_DataWireAndCommandFrames :
    ((ground.modShelf 0 fun sh => { sh with dataHigh := false }).shelf 0).dataHigh = false ∧
      ((ground.shelf 0).dataHigh = true ∧ ground.now - (ground.shelf 0).highSince < 1 ∧
        1 ≤ ({ ground with now := 1 } : State).now - (ground.shelf 0).highSince) ∧
      ((wire (.waiting (flight none none .contest .attachUnit)) ground).shelf 0).phase =
        .waiting (flight none none .contest .attachUnit) ∧
      ((ground.modShelf 0 fun sh => { sh with stuckTimer := some 50 }).shelf 0).stuckTimer.isSome ∧
      (∀ f ∈ [flight none none .contest .attachUnit, flight none none (.attnQuery none) .attentionUnit,
          flight (some 0) (some 0) .poll .busController, flight none none (.wake [1]) .attachUnit,
          flight none none .testReset .planRunner],
        ((wire (.sending f) ground).shelf 0).phase = .sending f) ∧
      expectsReply (flight (some 0) (some 0) .poll .busController).item.cmd.kind = true := by
  decide +kernel

/-- Shelf 0 with a contest's bit periods running and some mismatches counted. -/
def contesting (mismatches : Nat) (nodes : Vector NodeEntry 8) : State :=
  { (attaching .attaching none).modShelf 0 fun sh =>
      { sh with
        phase := .contending (flight none none .contest .attachUnit)
        pass := .round .contest, mismatches := mismatches, nodes := nodes } with
    wakePattern := [1] }

theorem witness_ContestIsRead :
    (∀ m ∈ [0, 1, 2], ((contesting m (Vector.replicate 8 .free)).shelf 0).phase =
        .contending { item := { shelf := 0, slot := none, cmd := .contest, owner := .attachUnit },
                      node := none, dropped := false, orphan := false } ∧
      ((contesting m (Vector.replicate 8 .free)).shelf 0).pass = .round .contest ∧
      ((contesting m (Vector.replicate 8 .free)).shelf 0).mismatches = m ∧
      attachSet (contesting m (Vector.replicate 8 .free)) 0 ≠ []) ∧
      (let v := (1#48 ++ 0#8) ++ 0x15#8
       v ≠ BitVec.allOnes 64 ∧ identityCheck (contestIdentity v) = contestCheck v) ∧
      (let v := (1#48 ++ 0#8) ++ 0x16#8
       v ≠ BitVec.allOnes 64 ∧ identityCheck (contestIdentity v) ≠ contestCheck v) ∧
      (let s := contesting 0 ((Vector.replicate 8 .candidate).set 7 .free)
       (s.shelf 0).nodes[(7 : NodeIx)] = .free ∧ ∀ m : NodeIx, m < 7 → (s.shelf 0).nodes[m] ≠ .free) ∧
      ∀ n : NodeIx, ((contesting 0 (Vector.replicate 8 .candidate)).shelf 0).nodes[n] ≠ .free := by
  decide +kernel

theorem witness_AttentionWireIsServed :
    ((ground.shelf 0).holdoff = none ∧ ((shelf0 fun sh => { sh with holdoff := some 1000 }).shelf 0).holdoff.isSome) ∧
      (let s := shelf0 fun sh => { sh with attnWide := [(flight none none (.attnQuery none) .attentionUnit).item] }
       (s.shelf 0).attnWide.any isQuery = true) ∧
      ((wire (.nodeBits (flight none none (.attnQuery none) .attentionUnit)) ground).shelf 0).phase =
        .nodeBits (flight none none (.attnQuery none) .attentionUnit) ∧
      (1#4).toNat = (0 : NodeIx).val + 1 ∧ (8#4).toNat = (7 : NodeIx).val + 1 ∧ 8 < (9#4).toNat ∧ 8 < (0xF#4).toNat := by
  decide +kernel

theorem witness_RepliesAreTaken :
    (let f := flight (some 0) (some 0) (.startTest 5 0) .planRunner
     let s := wire (.window f 10) (slot0 (testing { runAt 0 with state := .starting }))
     (s.shelf 0).phase = .window f 10 ∧ (s.slot 0).drive = some drive ∧ slotOfNode s 0 0 = some 0 ∧
       (s.slot 0).run = some { runAt 0 with state := .starting }) ∧
      (let f := flight (some 0) (some 0) .poll .busController
       let s := wire (.window f 10) (boundState fun r => { r with cls := .inrush, spinTimer := some 20, spinRank := some 1 })
       (s.shelf 0).phase = .window f 10 ∧ (s.slot 0).drive = some drive ∧ slotOfNode s 0 0 = some 0 ∧
         (s.slot 0).run = none ∧ (s.shelf 0).queue = [] ∧ testStateOf (3#8).toNat = some .fault ∧
         motorOf (2#8).toNat = some .ready ∧ 256 * (0x02#8).toNat + (0x58#8).toNat = 600 ∧
         256 * (0x02#8).toNat + (0x59#8).toNat = 601) ∧
      let f := flight none (some 0) (.attnQuery (some 0)) .attentionUnit
      let s := wire (.window f 10) (boundState fun r => r)
      let s := { s with vectors := s.vectors.set 0 .notifyHold }
      (s.shelf 0).phase = .window f 10 ∧ slotOfNode s 0 0 = some 0 ∧ (s.shelf 0).nodes[(0 : NodeIx)] = .bound 0 ∧
        (s.slot 0).silent = false ∧ (s.slot 0).attn = none ∧ actionOf s 32 = .notifyHold := by
  decide +kernel

/-- A POLL of slot 0 whose window is open, with some polls missed and some ladder stages used. -/
def missing (missed ladder : Nat) : State :=
  wire (.window (flight (some 0) (some 0) .poll .busController) 10)
    (boundState fun r => { r with drive := some { drive with missed := missed }, ladder := ladder })

theorem witness_PollsAndMisses :
    ((boundState fun r => { r with pollTimer := some 2000 }).slot 0).pollTimer.isSome ∧
      (let f := flight none (some 0) (.nodeClear 0) .attentionUnit
       ((wire (.window f 10) (boundState id)).shelf 0).phase = .window f 10) ∧
      (∀ m ∈ [0, 1, 2], ((missing m 2).shelf 0).phase = .window
          { item := { shelf := 0, slot := some 0, cmd := .poll, owner := .busController },
            node := some 0, dropped := false, orphan := false } 10 ∧
        ((missing m 2).slot 0).drive = some { drive with missed := m } ∧ slotOfNode (missing m 2) 0 0 = some 0 ∧
        ((missing m 2).slot 0).silent = false ∧ ((missing m 2).slot 0).ladder = 2 ∧
        ((missing m 2).slot 0).occ = .ready) := by
  decide +kernel

/-- A missed SHIP transaction, and a missed POLL with two misses before it. -/
def missedPoll (f : SlotRec → SlotRec) : State :=
  answering .poll .busController fun r => { f r with drive := some { drive with missed := 2 } }
def missedWrite : State := answering (.writeItem 1 2) .shipUnit (shippingAt .full .write [⟨1, 2, 3⟩] 0)

theorem witness_LadderStages :
    (∀ ladder ∈ [0, 1], ∀ occ ∈ [Occupancy.ready, .binWait],
        let s := missedPoll fun r => { ready r with ladder := ladder, occ := occ }
        (s.slot 0).ladder = ladder ∧ (s.slot 0).occ = occ ∧ (s.slot 0).cls ≠ .off ∧ hasEntry s 0 .power = false ∧
          hasEntry s 0 .spin = false ∧ (s.slot 0).run = none ∧ (s.shelf 0).enabled = true ∧
          (s.slot 0).unlocked = false) ∧
      SlotWindow (missedPoll ready) 0 0 { drive with missed := 2 } .poll .busController ∧
      SlotWindow (missedPoll fun r => { ready r with ladder := 1, occ := .binWait }) 0 0 { drive with missed := 2 } .poll
        .busController ∧
      (SlotWindow missedWrite 0 0 drive (.writeItem 1 2) .shipUnit ∧ (missedWrite.slot 0).ladder = 0 ∧
        (missedWrite.slot 0).occ = .shipping ∧ (missedWrite.slot 0).cls ≠ .off ∧
        hasEntry missedWrite 0 .power = false) ∧
      SlotWindow (missedPoll (testing (runAt 0))) 0 0 { drive with missed := 2 } .poll .busController ∧
      (let run := { runAt 2 with interruptions := 2 }
       let s := missedPoll (testing run)
       SlotWindow s 0 0 { drive with missed := 2 } .poll .busController ∧ (s.slot 0).ladder = 0 ∧
         (s.slot 0).occ = .testing ∧ (s.slot 0).attn = none ∧ (s.slot 0).run = some run ∧
         phaseRec s run = some { body := .driveTest 6 .final 100, onFail := .continue }) :=
  ⟨by decide +kernel, window_of (by decide +kernel), window_of (by decide +kernel),
    ⟨window_of (by decide +kernel), by decide +kernel⟩, window_of (by decide +kernel),
    window_of (by decide +kernel), by decide +kernel⟩

/-- A record whose reports are being fetched, and the FETCH of slot 0 in its window. -/
def fetching (empties : Nat) : AttnRecord := { heldAttn with
  code := 2, disposition := .fixed, stage := .part, run := .current, phase := some 0
  fetch := some { received := 0, remaining := none, empties := empties, finished := false } }
def fetched (empties : Nat) (f : SlotRec → SlotRec) : State :=
  answering .fetch .attentionUnit fun r => { f r with attn := some (fetching empties) }

/-- A report of head 7, class 2, from a sector on, 16 sectors long, with nothing more to come. -/
def reportBytes (head low : Byte) : List Byte := [head, 2, 0, 0, 0x74, 0x70, 0x6D, low, 0, 16, 0]

theorem witness_FetchLoopRuns :
    (∀ empties ∈ [0, 1, 2], ((fetched empties (testing (runAt 0))).slot 0).attn = some (fetching empties)) ∧
      SlotWindow (fetched 0 ready) 0 0 drive .fetch .attentionUnit ∧
      SlotWindow (fetched 2 (testing (runAt 0))) 0 0 drive .fetch .attentionUnit ∧
      (replyFields .fetch [0] = some (.reports [] 0) ∧ replyFields .fetch [5] = some (.reports [] 5)) ∧
      ((reportBytes 7 0xA8).length = 11 ∧ ((fetched 0 ready).slot 0).run = none ∧
        replyFields .fetch (reportBytes 7 0xA8) =
          some (.reports [{ head := 7, cls := .servo, start := 1953525160, length := 16 }] 0)) ∧
      let body : List Byte := [0, 9, 0, 0, 0, 0, 0, 0, 0, 1, 0]
      body.length % 10 = 1 ∧ replyFields .fetch body = none :=
  ⟨by decide +kernel, window_of (by decide +kernel), window_of (by decide +kernel), by decide +kernel,
    by decide +kernel, by decide +kernel⟩

/-- The item of a slot on shelf 0. -/
def itemOf (i : Slot) (cmd : BusCmd) (owner : Owner) : Item := { shelf := 0, slot := some i, cmd := cmd, owner := owner }

/-- Work of every class on shelf 0: POLLs of slots 0 and 3, a STAMP and a WRITE_ITEM of slot 5, a STOP_TEST of slot 1. -/
def pollWork : List Item := [itemOf 0 .poll .busController, itemOf 3 .poll .busController]
def shipWork : List Item := itemOf 5 .park .shipUnit :: itemOf 5 (.writeItem 1 2) .shipUnit :: pollWork
def controlWork : List Item := itemOf 1 (.stopTest false) .planRunner :: shipWork
def testResetItem : Item := { shelf := 0, slot := none, cmd := .testReset, owner := .planRunner }

/-- What the clause on per-slot items asks of an item at a distance from the pointer of its class. -/
def Chosen (work : List Item) (c : BusClass) (pointer n : Position) (it : Item) : Prop :=
  it ∈ work ∧ it.slot = some (slotAt 0 (pointer + 1 + n)) ∧ PerSlot c it.cmd.kind ∧
    (∀ x ∈ work, classPlace c ≤ classPlace (classOf x.cmd.kind)) ∧
    (∀ m : Position, m < n → ∀ x ∈ work, x.slot = some (slotAt 0 (pointer + 1 + m)) → ¬PerSlot c x.cmd.kind) ∧
    ∀ x ∈ work, x.slot = it.slot → PerSlot c x.cmd.kind → x ≠ it → kindPlace it.cmd.kind < kindPlace x.cmd.kind

theorem witness_ArbiterServesInOrder :
    (let it := (flight none none .contest .attachUnit).item
     ((shelf0 fun sh => { sh with attachList := [it] }).shelf 0).attachList = it :: []) ∧
      (let it := (flight none none (.attnQuery none) .attentionUnit).item
       ((shelf0 fun sh => { sh with attnWide := [it] }).shelf 0).attnWide = it :: []) ∧
      (pointerOf (ground.shelf 0).pointers .poll = 7 ∧ pointerOf (ground.shelf 0).pointers .ship = 7 ∧
        (ground.shelf 0).testReset = none) ∧
      Chosen pollWork .poll 7 0 (itemOf 0 .poll .busController) ∧
      Chosen pollWork .poll 0 2 (itemOf 3 .poll .busController) ∧
      Chosen shipWork .ship 7 5 (itemOf 5 (.writeItem 1 2) .shipUnit) ∧
      Chosen controlWork .control 7 1 (itemOf 1 (.stopTest false) .planRunner) ∧
      (((shelf0 fun sh => { sh with testReset := some testResetItem, work := controlWork }).shelf 0).testReset =
          some testResetItem ∧ ∀ x ∈ controlWork, ¬PerSlot .attention x.cmd.kind) ∧
      (ground.shelf 0).work = [] :=
  ⟨by decide +kernel, by decide +kernel, by decide +kernel, by unfold Chosen PerSlot; decide +kernel, by unfold Chosen PerSlot; decide +kernel,
    by unfold Chosen PerSlot; decide +kernel, by unfold Chosen PerSlot; decide +kernel,
    ⟨by decide +kernel, by unfold PerSlot; decide +kernel⟩, by decide +kernel⟩

/-! ## Witnesses: runs, dose, console, defects, grading -/

theorem witness_ReportsStopTheTest :
    TestGoing (running 0) 0 (runAt 0) ∧ TestGoing (running 2) 0 (runAt 2) ∧ TakenNow (running 0) 0 .overTemp ∧
      TakenNow (running 0) 0 (.stopPhase .vector 255) ∧ TakenNow (running 0) 0 (.stopPhase .signature 0) ∧
      TakenNow (running 0) 0 (.abortPlan .vector 32) ∧ TakenNow (running 0) 0 (.abortPlan .signature 0) ∧
      TakenNow (running 0) 0 .driveFault ∧ TakenNow (running 0) 0 .earlyStop ∧
      TakenNow (slot0 fun r => { testing (runAt 0) r with reports := [⟨.overTemp, true, true, true⟩] }) 0 .overTemp :=
  ⟨running_goes.1, running_goes.2, .inl (by decide +kernel), .inl (by decide +kernel), .inl (by decide +kernel),
    .inl (by decide +kernel), .inl (by decide +kernel), .inl (by decide +kernel), .inl (by decide +kernel),
    .inr ⟨true, true, by decide +kernel⟩⟩

/-- A run STOPPING with an outcome decided, and a stop pending or none. -/
def stoppingRun (phase : Nat) (v : Verdict) (stop : Option StopReason) : Run :=
  { runAt phase with state := .stopping, decided := some v, stop := stop }

theorem witness_ReportsStopTheTest_stopping :
    ∀ run ∈ [stoppingRun 0 passVerdict none, stoppingRun 0 passVerdict (some .earlyStop),
        stoppingRun 7 passVerdict none, stoppingRun 7 (failVerdict .trip) none],
      let s := slot0 (testing run)
      (s.slot 0).run = some run ∧ run.state = .stopping ∧
        (phaseRec s run).map PhaseRec.onFail = some .continue ∧ run.decided.isSome ∧
        (run.phase = 7 → run.phase + 1 = run.outcomes.length ∧ run.stop = none) := by
  decide +kernel

/-- A TRIP that finds the last phase stopping toward completion is dropped, and held pending in an earlier phase (R129,
R176; log 18). -/
theorem test_trip_while_stopping :
    let after := fun (phase : Nat) =>
      (((act (.waitStop 0 .trip (failVerdict .trip)) (slot0 (testing (stoppingRun phase (failVerdict .trip) none)))).1.slot
        0).run.map Run.stop)
    after 7 = some none ∧ after 0 = some (some .trip) := by
  decide +kernel

theorem rest_follows (n : Nat) (h : n = 0 ∨ n = 2 ∨ n = 4 ∨ n = 5) : RestFollows (running n) (runAt n) 60 := by
  rcases h with rfl | rfl | rfl | rfl <;>
    exact ⟨by decide +kernel, by decide +kernel, by decide +kernel, .continue, by decide +kernel⟩

/-- The run at its REST, and at the on time of the only cycle of its POWER_CYCLE. -/
def resting : Run := { runAt 5 with restTimer := some 60000 }
def lastOnTime : Run := { runAt 4 with cycleStep := some .onTime, onTimer := some 5000 }

theorem witness_PhasesEndAndTheRunGoesOn :
    (((running 2).slot 0).run = some (runAt 2) ∧ ((running 2).slot 0).adm = .bound ∧
        phaseRec (running 2) (runAt 2) = some { body := .driveTest 6 .final 100, onFail := .continue } ∧
        runsTest (running 2) (runAt 2) = true) ∧
      (let s := slot0 (testing resting)
       (s.slot 0).run = some resting ∧ resting.restTimer.isSome ∧
         phaseRec s resting = some { body := .rest 60, onFail := .continue }) ∧
      (let s := slot0 (testing lastOnTime)
       (s.slot 0).run = some lastOnTime ∧ 1 ≤ lastOnTime.cyclesDone + 1 ∧
         phaseRec s lastOnTime = some { body := .powerCycle 1 5 5, onFail := .continue }) := by
  decide +kernel

theorem witness_PhasesEndAndTheRunGoesOn_follows :
    RestFollows (running 2) (runAt 2) 60 ∧ TakenNow (running 2) 0 (.phaseDone (runAt 2).phase) ∧
      TakenNow (running 2) 0 (.phaseFailed (runAt 2).phase 9) ∧ RestFollows (slot0 (testing resting)) resting 60 ∧
      RestFollows (slot0 (testing lastOnTime)) lastOnTime 60 :=
  ⟨rest_follows 2 (by decide), .inl (by decide +kernel), .inl (by decide +kernel),
    ⟨by decide +kernel, by decide +kernel, by decide +kernel, .continue, by decide +kernel⟩,
    by decide +kernel, by decide +kernel, by decide +kernel, .continue, by decide +kernel⟩

/-- The DRIVE_TEST with three interruptions, and the POWER_CYCLE at its on time. -/
def worn : Run := { runAt 2 with interruptions := 3 }
def cycling : Run := { runAt 4 with cycleStep := some .onTime, onTimer := some 5000 }

/-- The suspended SOAK in its spin window, a POLL of its drive being answered. -/
def resuming : State := answering .poll .busController fun r =>
  { testing suspendedRun r with cls := .inrush, spinTimer := some 20, spinReq := some .planRunner, spinRank := some 1 }

/-- A PHASE_DONE that waited over the suspension of its phase, before and after the resume (R126). -/
def overtaken (live : Bool) (run : Run) : State := slot0 fun r =>
  { testing run r with reports := [{ kind := .phaseDone 0, live := live, owesClear := true, ownsSummary := true }] }

/-- A phase-end report captured during the suspension is stale once the phase resumes (R126). -/
theorem test_resume_stales_reports :
    leads (.next (act (.spinReady 0) (overtaken true { runAt 0 with state := .suspended })).1) fun t =>
      decide ((t.slot 0).reports.map Report.live = [false] ∧ (t.slot 0).run.map Run.state = some .starting) := by
  decide +kernel

theorem witness_SuspensionAndResume_stale :
    let s := overtaken false (runAt 0)
    (s.slot 0).run = some (runAt 0) ∧
      oldestReport (s.slot 0).reports .attention = some ⟨.phaseDone (runAt 0).phase, false, true, true⟩ ∧
      (s.slot 0).drive.isSome = true ∧ (s.slot 0).silent = false ∧ (s.shelf 0).work = [] := by
  decide +kernel

theorem witness_SuspensionAndResume :
    (TestGoing (running 0) 0 (runAt 0) ∧ NoWork (running 0) 0) ∧
      SlotWindow (answering (.stopTest true) .planRunner (testing suspendedRun)) 0 0 drive (.stopTest true) .planRunner ∧
      (SlotWindow (missedPoll (testing worn)) 0 0 { drive with missed := 2 } .poll .busController ∧
        3 ≤ worn.interruptions ∧ RestFollows (missedPoll (testing worn)) worn 60) ∧
      (let s := missedPoll (testing cycling)
       SlotWindow s 0 0 { drive with missed := 2 } .poll .busController ∧ (s.slot 0).run = some cycling ∧
         phaseRec s cycling = some { body := .powerCycle 1 5 5, onFail := .continue } ∧ (s.slot 0).drive.isSome = true) ∧
      SlotWindow resuming 0 0 drive .poll .busController ∧ testStateOf (0#8).toNat = some .idle ∧
        (resuming.slot 0).run = some suspendedRun ∧ (resuming.shelf 0).queue = [] :=
  ⟨⟨running_goes.1, by unfold NoWork; decide +kernel⟩, window_of (by decide +kernel),
    ⟨window_of (by decide +kernel), by decide, by decide +kernel, by decide +kernel, by decide +kernel, .continue,
      by decide +kernel⟩,
    ⟨window_of (by decide +kernel), by decide +kernel⟩, window_of (by decide +kernel), by decide +kernel⟩

/-- The last phase of the run, with the default bin full. -/
def lastPhase : State :=
  { running 7 with bins := ground.bins.set 15 { capacity := 1, fill := 1, reserved := 0, hold := [] } }

theorem witness_LastPhaseGradesTheRun :
    ((lastPhase.slot 0).run = some (runAt 7) ∧ (runAt 7).stop = none ∧ (lastPhase.slot 0).adm = .bound ∧
        (lastPhase.slot 0).occ = .testing ∧ (lastPhase.slot 0).result = none ∧
        phaseRec lastPhase (runAt 7) = some { body := .driveTest 8 .none 100, onFail := .continue } ∧
        (runAt 7).phase + 1 = (runAt 7).outcomes.length ∧ lastPhase.ruleCount = 0 ∧
        lastPhase.bins[lastPhase.defaultBin].capacity ≤
          lastPhase.bins[lastPhase.defaultBin].fill + lastPhase.bins[lastPhase.defaultBin].reserved) ∧
      TakenNow lastPhase 0 (.phaseDone (runAt 7).phase) :=
  ⟨by decide +kernel, .inl (by decide +kernel)⟩

/-- The SOAK of the run with a temperature and a dose, its wall timer running. -/
def soaking (t dose : Nat) (motor : Motor) : State := slot0 fun r =>
  { testing { runAt 0 with wallTimer := some 1000, dose := dose } r with
    temp := { valid := true, t := t, moment := 0 }, drive := some { drive with motor := motor } }

theorem soaking_goes (t dose : Nat) (motor : Motor) :
    TestGoing (soaking t dose motor) 0 { runAt 0 with wallTimer := some 1000, dose := dose } :=
  ⟨rfl, rfl, rfl, rfl, rfl, rfl, rfl, rfl, rfl⟩

/-- The POWER_CYCLE before its binding, counting its seconds. -/
def pendingCycle : Run := { runAt 4 with state := .pending, wallTimer := some 1000 }

theorem witness_SecondsOfAPhase :
    TestGoing (soaking 318 0 .ready) 0 { runAt 0 with wallTimer := some 1000, dose := 0 } ∧
      (let s := soaking 318 0 .ready
       phaseRec s (runAt 0) = some { body := .soak 5 100 10 300 350 5, onFail := .continue } ∧
         (s.slot 0).temp.valid = true ∧ min 65535 ((s.now - (s.slot 0).temp.moment) / 1000) ≤ (planOf s (runAt 0)).stale ∧
         300 ≤ (s.slot 0).temp.t ∧ (s.slot 0).temp.t ≤ 350 ∧ min 262143 ((runAt 0).wall + 1) < 100 ∧
         0 + factor (planOf s (runAt 0)) 318 < 256 * 10 ∧ 256 * 10 ≤ 1858 + factor (planOf s (runAt 0)) 318) ∧
      (((soaking 318 0 .spinningUp).slot 0).drive = some { drive with motor := .spinningUp } ∧
        ((soaking 351 0 .ready).slot 0).temp.t = 351 ∧ min 3601 ((runAt 0).excursion + 1) ≤ 5 ∧
        5 < min 3601 ({ runAt 0 with excursion := 5 }.excursion + 1) ∧
        100 ≤ min 262143 ({ runAt 0 with wall := 99 }.wall + 1) ∧
        ¬min 65535 ((({ soaking 318 0 .ready with now := 11000 } : State).now - 0) / 1000) ≤ plan.stale) ∧
      (let run := { runAt 2 with wallTimer := some 1000 }
       TestGoing (slot0 (testing run)) 0 run ∧
         phaseRec ground run = some { body := .driveTest 6 .final 100, onFail := .continue }) ∧
      (let s := slot0 (testing pendingCycle)
       (s.slot 0).run = some pendingCycle ∧ pendingCycle.state ≠ .ended ∧ pendingCycle.wallTimer = some 1000 ∧
         phaseRec s pendingCycle = some { body := .powerCycle 1 5 5, onFail := .continue }) ∧
      (let run := { resting with wallTimer := some 1000 }
       let s := slot0 (testing run)
       (s.slot 0).run = some run ∧ run.state = .running ∧
         phaseRec s run = some { body := .rest 60, onFail := .continue }) ∧
      (maxWallOf (running 0) { runAt 0 with wall := 100 } = some 100 ∧ 100 ≤ { runAt 0 with wall := 100 }.wall) ∧
      { runAt 4 with offTimer := some 5000 }.offTimer.isSome :=
  ⟨soaking_goes 318 0 .ready, by decide +kernel, by decide +kernel,
    ⟨⟨rfl, rfl, rfl, rfl, rfl, rfl, rfl, rfl, rfl⟩, by decide +kernel⟩, by decide +kernel, by decide +kernel, by decide +kernel, by decide⟩

theorem witness_FactorIsInterpolated :
    (0 < rising.step ∧ rising.t0 < 301 ∧ 301 < rising.t0 + 8 * rising.step) ∧
      (rising.t0 < 459 ∧ 459 < rising.t0 + 8 * rising.step) ∧ (300 ≤ rising.t0 ∧ rising.t0 + 8 * rising.step ≤ 460) ∧
      (320 - rising.t0) % rising.step = 0 ∧ rising.step ≤ 80 ∧ ∀ m : Fin 9, rising.factors[m] ≤ 65535 := by
  decide +kernel

/-- The plan with a signature for each action, all of two bytes with one second byte. -/
def acting : Plan := { plan with
  sigs := #v[some ⟨[0x41#8, 0x42#8], .abortPlan⟩, some ⟨[0x41#8, 0x42#8], .count⟩, none, some ⟨[0x43#8, 0x42#8], .stopPhase⟩] }

/-- The run being watched under that plan, the first bytes of its signatures read. -/
def watched : State :=
  { slot0 fun r => { testing (runAt 0) r with
      con := { r.con with rx := .receiving .r115200, progress := #v[1, 1, 0, 1], lastByte := some 0 } } with
    plans := ground.plans.set 0 acting }

theorem witness_ConsoleReceiver :
    (let s := slot0 fun r => { r with con := { r.con with rx := .watching, ring := List.replicate 512 0 } }
     (s.slot 0).con.rx = .watching ∧ (s.slot 0).con.ring.length = 512 ∧ (s.slot 0).occ ≠ .testing) ∧
      (watched.slot 0).con.rx = .receiving .r115200 ∧ (watched.slot 0).occ = .testing ∧
        (watched.slot 0).run = some (runAt 0) ∧ planOf watched (runAt 0) = acting ∧
        advanceAll acting (gapExceeded (some 0) 0 acting.gap) #v[1, 1, 0, 1] 0x42 = #v[2, 2, 0, 2] ∧
        advanceAll acting (gapExceeded (some 0) 0 acting.gap) #v[1, 1, 0, 1] 0x44 = #v[0, 0, 0, 0] := by
  decide +kernel

/-- A stored entry and a report that adjoins it. -/
def stored : DefectEntry where
  head := 0
  cls := .realloc
  origin := .other
  phase := 0
  start := 0
  length := 10

/-- A FETCH of the run in phase 0, its plan stopping a run early at one sector, its segment with room for one entry. -/
def delivering (limit : Nat) : State :=
  let s := fetched 0 fun r => { testing (runAt 0) r with seg := { Segment.empty 0 limit with entries := [stored] } }
  { s with plans := s.plans.set 0 { plan with total := 1 } }

theorem witness_ReportsAreMergedAndDelivered :
    (let g := { Segment.empty 0 256 with entries := [stored] }
     SegmentOrdered g ∧ (∀ x ∈ g.entries, 1 ≤ x.length) ∧ GrownWithinSectors g) ∧
      1 ≤ { stored with start := 10, length := 1 }.length ∧
      (let g := { Segment.empty 0 1 with entries := [stored] }
       g.limit ≤ g.entries.length ∧
         ∀ x ∈ g.entries, sameKey x { stored with start := 11 } = true → touches x.start x.length 11 10 = false) ∧
      (∀ limit ∈ [1, 256], ((delivering limit).slot 0).attn = some (fetching 0) ∧
        ((delivering limit).slot 0).run = some (runAt 0) ∧ (fetching 0).run = .current ∧
        (planOf (delivering limit) (runAt 0)).phases[0]? =
          some (some { body := .soak 5 100 10 300 350 5, onFail := .continue })) ∧
      SlotWindow (delivering 1) 0 0 drive .fetch .attentionUnit ∧
      SlotWindow (delivering 256) 0 0 drive .fetch .attentionUnit ∧
      (drive.heads ≤ (8#8).toNat ∧ 1953525160 ≤ drive.maxLba ∧ drive.maxLba < 1953525168 ∧
        (planOf (delivering 1) (runAt 0)).total = 1) := by
  refine ⟨?_, by decide, by decide +kernel, by decide +kernel, window_of (by decide +kernel),
    window_of (by decide +kernel), by decide +kernel⟩
  unfold SegmentOrdered GrownWithinSectors; decide +kernel

theorem witness_StepsKeepSegmentsSound : SegmentsSound inserting ∧ ∃ t, step inserting = .next t := by
  have hb : ∀ j : Slot, (inserting.slot j).seg.base = 256 * j.val ∧ (inserting.slot j).seg.limit = 256 := by
    decide +kernel
  refine ⟨⟨by unfold SegmentOrdered GrownWithinSectors; decide +kernel, fun i j hij place h => ?_⟩, _, rfl⟩
  obtain ⟨⟨hi, hi'⟩, hj, hj'⟩ := h
  have hne : i.val ≠ j.val := fun e => hij (Fin.ext e)
  have := hb i
  have := hb j
  omega

/-- One rule loaded, which allows every stop reason or none. -/
def oneRule (allowed : BitVec 9) : State :=
  { ground with ruleCount := 1, rules := ground.rules.set 0 { Rule.reset with allowed := allowed, bin := 4 } }

theorem witness_FirstMatchingRuleDecides :
    (oneRule 0x1FF).ruleCount ≤ 16 ∧
      ((resultOf .hostAbort).inputs.stop ≠ .lost ∧ (resultOf .hostAbort).inputs.stop ≠ .pulled ∧
        (resultOf .hostAbort).inputs.stop ≠ .swap) ∧
      ((oneRule 0x1FF).rules[(0 : Fin 16)].matches (resultOf .hostAbort).inputs = true ∧
        chooseBin (oneRule 0x1FF) (resultOf .hostAbort).inputs = (some 4, 0)) ∧
      ∀ n : Fin 16, (oneRule 0).rules[n].matches (resultOf .hostAbort).inputs = false := by
  decide +kernel

/-- The sequence of slot 0 at a transaction of its own, in its window. -/
def shipAt (cmd : BusCmd) (rec : ShipRec) : State :=
  answering cmd .shipUnit fun r => { shippingAt .full .write [] 0 r with ship := some rec }
def shipRec (path : ShipPath) (step : ShipStep) (position failures : Nat) : ShipRec where
  path := path
  step := step
  position := position
  selected := [⟨1, 2, 3⟩, ⟨4, 5, 6⟩]
  failures := failures

theorem witness_ShipStepsAdvance :
    (∀ position ∈ [0, 1], let s := shipAt (.writeItem 1 2) (shipRec .full .write position 0)
      (s.slot 0).ship = some (shipRec .full .write position 0) ∧ (s.slot 0).result = some (resultOf .none) ∧
        (resultOf .none).bin = some 15 ∧ (s.slot 0).cls ≠ .off) ∧
      SlotWindow (shipAt (.writeItem 1 2) (shipRec .full .write 0 0)) 0 0 drive (.writeItem 1 2) .shipUnit ∧
      SlotWindow (shipAt (.readItem 4) (shipRec .full .read 1 0)) 0 0 drive (.readItem 4) .shipUnit ∧
      BitVec.ofNat 32 (field32 [0, 0, 0, 5] 0) = (⟨4, 5, 6⟩ : ShipItem).value ∧
      SlotWindow (shipAt (.stamp 15 16 0 0 .none) (shipRec .rework .stamp 0 0)) 0 0 drive (.stamp 15 16 0 0 .none) .shipUnit ∧
      SlotWindow (shipAt .park (shipRec .full .park 0 0)) 0 0 drive .park .shipUnit :=
  ⟨by decide +kernel, window_of (by decide +kernel), window_of (by decide +kernel), by decide +kernel,
    window_of (by decide +kernel), window_of (by decide +kernel)⟩

/-- A read-back after some failures, with the bin for rework full or free. -/
def readBack (failures fill : Nat) : State :=
  let s := reserved (shipAt (.readItem 4) (shipRec .full .read 1 failures))
  { s with bins := s.bins.set 14 { capacity := 1, fill := fill, reserved := 0, hold := [] } }

/-- A sequence whose drive has used one ladder stage. -/
def failingShip (cmd : BusCmd) (rec : ShipRec) : State := (shipAt cmd rec).modSlot 0 fun r => { r with ladder := 1 }

theorem witness_ShipFailures :
    (∀ failures ∈ [0, 1], ∀ fill ∈ [0, 1], let s := readBack failures fill
      (s.slot 0).ship = some (shipRec .full .read 1 failures) ∧ (s.slot 0).occ = .shipping ∧
        hasEntry s 0 .power = false ∧ (s.slot 0).reservation = some 15 ∧ s.reworkBin = 14 ∧
        s.bins[(15 : BinIx)].hold = [] ∧ (s.slot 0).adm = .bound ∧ (resultOf .none).inputs.stop ≠ .attachFail) ∧
      SlotWindow (readBack 0 0) 0 0 drive (.readItem 4) .shipUnit ∧
      SlotWindow (readBack 1 1) 0 0 drive (.readItem 4) .shipUnit ∧
      BitVec.ofNat 32 (field32 [0, 0, 0, 6] 0) ≠ (⟨4, 5, 6⟩ : ShipItem).value ∧
      (let s := failingShip .park (shipRec .rework .park 0 0)
       SlotWindow s 0 0 drive .park .shipUnit ∧ classOf (BusCmd.park).kind = .ship ∧ (s.slot 0).ladder = 1 ∧
         (s.slot 0).cls ≠ .off) ∧
      (let s := failingShip .park (shipRec .full .park 0 0)
       SlotWindow s 0 0 drive .park .shipUnit ∧ (s.shelf 0).enabled = true ∧ (s.slot 0).unlocked = false ∧
         (s.slot 0).ladder = 1) :=
  ⟨by decide +kernel, window_of (by decide +kernel), window_of (by decide +kernel), by decide +kernel,
    ⟨window_of (by decide +kernel), by decide +kernel⟩, window_of (by decide +kernel), by decide +kernel⟩

/-! ## Single commands -/

/-- R203: a byte other than A5h is discarded in HUNT, and A5h begins a frame. -/
theorem test_hunt :
    leads (exec (.hostByteReceived 0x5A) State.reset) (fun t => t.held.isEmpty) ∧
      leads (exec (.hostByteReceived 0xA5) State.reset) (fun t => decide (t.held = [0xA5])) := by decide +kernel

/-- R207, R217, R218: after the STARTUP notice the oldest pending notice is sent, with the sequence number 1. -/
theorem test_notice_after_startup :
    leads (exec .txFrameEnd { State.reset with notices := [27], flags := State.reset.flags.set 27 2#32 })
      (fun t => decide (t.tx = some (.notice 27 1 2#32))) := by decide +kernel

/-- R26, R206: a limit of 2001 is BAD_VALUE, and a payload one byte short BAD_LENGTH. -/
theorem test_shelf_set_refusals :
    leads (exec (.shelfSet 7 [0, 1, 0x07, 0xD1, 6, 9, 22, 20, 4]) State.reset)
        (fun t => decide (t.replies = [.reply 0x02 7 .badValue .none])) ∧
      leads (exec (.shelfSet 7 [0, 1, 0x07, 0xD0, 6, 9, 22, 20]) State.reset)
        (fun t => decide (t.replies = [.reply 0x02 7 .badLength .none])) := by decide +kernel

/-- R11, R13, R33, R36: an insertion is granted power at once where the budget allows it, and waits where it does not. -/
theorem test_insertion :
    leads (exec (.presenceDebounceExpiry 1) { inserting with pending := [] })
        (fun t => decide ((t.slot 1).occ = .booting ∧ (t.slot 1).cls = .idle ∧ committed t 0 = 12)) ∧
      leads (exec (.presenceDebounceExpiry 1)
          ({ inserting with pending := [] }.modShelf 0 fun sh => { sh with limit := 11 }))
        (fun t => decide ((t.slot 1).occ = .powerWait ∧ (t.slot 1).adm = .queued ∧ committed t 0 = 6)) := by
  decide +kernel

/-- R4, R77: the boot delay's end starts an attach deadline of 30 s. -/
theorem test_boot_delay :
    leads (exec (.bootDelayExpiry 0)
        { slot0 (fun r => { r with occ := .booting, adm := .booting, cls := .idle, present := true, bootTimer := some 4000 }) with
          wakePattern := [1], now := 4000 })
      (fun t => decide ((t.slot 0).occ = .attaching ∧ (t.slot 0).deadline = some (.running 34000))) := by decide +kernel

/-- R81 to R84: a contest read without error gives node 1 to its identity. -/
theorem test_contest :
    leads (exec (.contestEnd 0 ((1#48 ++ 0#8) ++ 0x15#8)) (contesting 0 (Vector.replicate 8 .free)))
      (fun t => decide ((t.shelf 0).pass = .round (.assign 0 ⟨1, 0⟩) ∧ (t.shelf 0).nodes[0] = .candidate)) := by
  decide +kernel

/-- R96: the miss of a node clear leaves the missed count of the slot that holds the node by then. -/
theorem test_node_clear_missed :
    leads (exec (.replyWindowClose 0 false) (wire (.window (flight none (some 0) (.nodeClear 0) .attentionUnit) 10) (boundState id)))
      (fun t => decide ((t.slot 0).drive = some drive)) := by decide +kernel

/-- R175: the actions of the signatures that a byte completes are told in ascending order of their places. -/
theorem test_actions_in_order :
    leads (exec (.consoleByteArrival 0 0x42) watched) (fun t =>
      decide ((t.slot 0).reports.map Report.kind = [.abortPlan .signature 0, .stopPhase .signature 0] ∧
        (t.slot 0).run.map Run.trips = some 3)) := by decide +kernel

/-- R61 to R63: the third missed poll in a row is UNRESPONSIVE (slot flag set) and starts the ladder. -/
theorem test_third_miss :
    leads (exec (.replyWindowClose 0 false) (missing 2 0))
      (fun t => flagSet t 0 (slotFlagBit .unresponsive) && decide ((t.slot 0).ladder = 1)) := by decide +kernel

/-- R66, R198: the power cycle that ends a REWORK path leaves the slot in REMOVE_READY, off, with no power asked for. -/
theorem test_rework_ends_off :
    leads (exec (.replyWindowClose 0 false) (failingShip .park (shipRec .rework .park 0 0)))
      (fun t => decide ((t.slot 0).occ = .removeReady ∧ (t.slot 0).cls = .off) && !hasEntry t 0 .power) := by decide +kernel

/-- R138, R142: a second in band at 318 qd earns 702 of dose. -/
theorem test_dose_second :
    leads (exec (.phaseWallSecond 0) (soaking 318 0 .ready))
      (fun t => decide ((t.slot 0).run.map Run.dose = some 702 ∧ (t.slot 0).run.map Run.wall = some 1)) := by decide +kernel

/-- R141: a second out of band earns nothing and counts. -/
theorem test_out_of_band_second :
    leads (exec (.phaseWallSecond 0) (soaking 351 0 .ready))
      (fun t => decide ((t.slot 0).run.map Run.dose = some 0 ∧ (t.slot 0).run.map Run.oobRun = some 1)) := by decide +kernel

/-- R152: the manual's report that runs over the end of the drive is cut to length 8. -/
theorem test_report_is_cut :
    decide (((insertReport 0 0 { head := 7, cls := .servo, start := 1953525160, length := 16 } (running 0)).slot 0).seg.entries.map
      DefectEntry.length = [8]) := by decide +kernel

/-- R154: a report that adjoins an entry of its key becomes one entry with it. -/
theorem test_merge :
    (({ Segment.empty 0 256 with entries := [stored] }.insert { stored with start := 10, length := 5 }).entries.map
      fun (e : DefectEntry) => (e.start, e.length)) = [(0, 15)] := by decide +kernel

/-- R172, R173: the bytes 41h 42h complete a signature, which is counted. -/
theorem test_signature :
    leads (exec (.consoleByteArrival 0 0x42) (slot0 fun r => { testing (runAt 0) r with
        con := { r.con with rx := .watching, progress := #v[1, 0, 0, 0], lastByte := some 0 } }))
      (fun t => flagSet t 0 (slotFlagBit .trip) && decide ((t.slot 0).run.map Run.trips = some 1)) := by decide +kernel

/-- R18, R20: the pull of a finished drive unlocks the latch for 120 s and switches the slot off. -/
theorem test_forced_unlock :
    leads (exec (.slotUnlock 1 [0]) finished)
      (fun t => decide ((t.slot 0).occ = .removeReady ∧ (t.slot 0).unlockTimer = some 120000 ∧ (t.slot 0).cls = .off)) := by
  decide +kernel

/-- R130, R128: an aborted test has STOP_TEST in flight or pending and its phase STOPPING. -/
theorem test_abort :
    leads (exec (.slotAbort 1 [0]) (running 0))
      (fun t => pendingOrInFlight t 0 .stopTest && decide ((t.slot 0).run.map Run.state = some .stopping)) := by
  decide +kernel

/-- R24: RESET keeps nothing of a run. -/
theorem test_reset : leads (exec .reset (running 0)) (fun t => decide ((t.slot 0).run = none ∧ t.plans[0] = Plan.reset)) := by
  decide +kernel

/-- R205 (log 1): with no command waiting, the oldest request is served, and else one millisecond passes. -/
theorem test_idle :
    leads (step { State.reset with requests := [⟨0x19, 3, [0, 0, 5], false⟩] })
        (fun t => decide ((t.slot 0).locateTimer = some 5000)) ∧
      leads (step State.reset) (fun t => decide (t.now = 1)) := by decide +kernel

end Sys2Proof.Tests
end

