-- ==== Sys2Proof/Proofs/Reading.lean ====
section
/-! SUPPORT. What reading a state gives after a flag is set, after a change of occupancy, of a latch or of a wait queue, and
after grants: one rule per operation. -/

namespace Sys2Proof.Machine

/-! ## Updates of one slot -/

/-- Only what an update makes of the slot's record matters. -/
theorem State.modSlot_congr {s : State} {i : Slot} {f g : SlotRec → SlotRec} (h : f (s.slot i) = g (s.slot i)) :
    s.modSlot i f = s.modSlot i g := by
  unfold State.slot at h
  simp only [State.modSlot, h]

theorem State.modSlot_eq_self {s : State} {i : Slot} {f : SlotRec → SlotRec} (h : f (s.slot i) = s.slot i) :
    s.modSlot i f = s := by
  unfold State.slot at h
  simp only [State.modSlot, h]
  simp

/-! ## Flags -/

section
variable (c : Scope) (bit : Nat) (s : State)
@[simp] theorem setFlagBit_slots : (setFlagBit c bit s).slots = s.slots := by rw [setFlagBit_frame]
@[simp] theorem setFlagBit_shelves : (setFlagBit c bit s).shelves = s.shelves := by rw [setFlagBit_frame]
@[simp] theorem setFlagBit_bins : (setFlagBit c bit s).bins = s.bins := by rw [setFlagBit_frame]
@[simp] theorem setFlagBit_now : (setFlagBit c bit s).now = s.now := by rw [setFlagBit_frame]
@[simp] theorem setFlagBit_wakePattern : (setFlagBit c bit s).wakePattern = s.wakePattern := by rw [setFlagBit_frame]
@[simp] theorem setFlagBit_plans : (setFlagBit c bit s).plans = s.plans := by rw [setFlagBit_frame]
@[simp] theorem setFlagBit_reworkBin : (setFlagBit c bit s).reworkBin = s.reworkBin := by rw [setFlagBit_frame]
@[simp] theorem setFlagBit_shipItems : (setFlagBit c bit s).shipItems = s.shipItems := by rw [setFlagBit_frame]
@[simp] theorem setFlagBit_shipCount : (setFlagBit c bit s).shipCount = s.shipCount := by rw [setFlagBit_frame]
@[simp] theorem setFlagBit_slot (i : Slot) : (setFlagBit c bit s).slot i = s.slot i := by simp [State.slot]
@[simp] theorem setFlagBit_shelf (k : Shelf) : (setFlagBit c bit s).shelf k = s.shelf k := by simp [State.shelf]
end

section
variable (i : Slot) (k : Shelf) (f : SlotFlag) (g : ShelfFlag) (h : ControllerFlag) (s : State)
@[simp] theorem raiseSlot_slot (j : Slot) : (raiseSlot i f s).slot j = s.slot j := setFlagBit_slot ..
@[simp] theorem raiseSlot_shelf (l : Shelf) : (raiseSlot i f s).shelf l = s.shelf l := setFlagBit_shelf ..
@[simp] theorem raiseSlot_bins : (raiseSlot i f s).bins = s.bins := setFlagBit_bins ..
@[simp] theorem raiseSlot_now : (raiseSlot i f s).now = s.now := setFlagBit_now ..
@[simp] theorem raiseShelf_slot (j : Slot) : (raiseShelf k g s).slot j = s.slot j := setFlagBit_slot ..
@[simp] theorem raiseShelf_slots : (raiseShelf k g s).slots = s.slots := setFlagBit_slots ..
@[simp] theorem raiseShelf_shelf (l : Shelf) : (raiseShelf k g s).shelf l = s.shelf l := setFlagBit_shelf ..
@[simp] theorem raiseShelf_bins : (raiseShelf k g s).bins = s.bins := setFlagBit_bins ..
@[simp] theorem raiseShelf_now : (raiseShelf k g s).now = s.now := setFlagBit_now ..
@[simp] theorem raiseShelf_wakePattern : (raiseShelf k g s).wakePattern = s.wakePattern := setFlagBit_wakePattern ..
@[simp] theorem raiseController_slot (j : Slot) : (raiseController h s).slot j = s.slot j := setFlagBit_slot ..
@[simp] theorem raiseController_shelf (l : Shelf) : (raiseController h s).shelf l = s.shelf l := setFlagBit_shelf ..
@[simp] theorem raiseController_bins : (raiseController h s).bins = s.bins := setFlagBit_bins ..
@[simp] theorem raiseController_now : (raiseController h s).now = s.now := setFlagBit_now ..
end

@[simp] theorem makePending_flags (c : Scope) (s : State) : (makePending c s).flags = s.flags := by rw [makePending_frame]

/-- The flags after one is set: its bit has joined its scope's set. -/
theorem setFlagBit_flags (c : Scope) (bit : Nat) (s : State) :
    (setFlagBit c bit s).flags =
      if s.flags[c].getLsbD bit then s.flags else s.flags.set c (s.flags[c] ||| (1#32 <<< bit)) := by
  unfold setFlagBit
  split
  · rfl
  · dsimp only
    split <;> simp

/-- A flag that is set is set. -/
theorem flagSet_setFlagBit (c : Scope) {bit : Nat} (hb : bit < 32) (s : State) : flagSet (setFlagBit c bit s) c bit = true := by
  unfold flagSet
  rw [setFlagBit_flags]
  split
  · assumption
  · simp [hb]

/-- Setting a flag clears none. -/
theorem flagSet_setFlagBit_of {s : State} {c : Scope} {bit : Nat} (h : flagSet s c bit = true) (d : Scope) (b : Nat) :
    flagSet (setFlagBit d b s) c bit = true := by
  unfold flagSet at h ⊢
  rw [setFlagBit_flags]
  split
  · exact h
  · by_cases hdc : d = c
    · subst hdc
      have h' : s.flags[d.val].getLsbD bit = true := h
      simp [h']
    · have : d.val ≠ c.val := fun e => hdc (Fin.ext e)
      simpa [Vector.getElem_set_ne, this] using h

@[simp] theorem flagSet_raiseSlot (i : Slot) (f : SlotFlag) (s : State) :
    flagSet (raiseSlot i f s) (slotScope i) (slotFlagBit f) = true :=
  flagSet_setFlagBit _ (by cases f <;> decide) s

@[simp] theorem flagSet_raiseShelf (k : Shelf) (f : ShelfFlag) (s : State) :
    flagSet (raiseShelf k f s) (shelfScope k) (shelfFlagBit f) = true :=
  flagSet_setFlagBit _ (by cases f <;> decide) s

@[simp] theorem flagSet_raiseController (f : ControllerFlag) (s : State) :
    flagSet (raiseController f s) controllerScope (controllerFlagBit f) = true :=
  flagSet_setFlagBit _ (by cases f <;> decide) s

theorem flagSet_congr {s t : State} (h : t.flags = s.flags) (c : Scope) (bit : Nat) : flagSet t c bit = flagSet s c bit := by
  simp [flagSet, h]

@[simp] theorem flagSet_startTx (s : State) (c : Scope) (bit : Nat) : flagSet (startTx s) c bit = flagSet s c bit :=
  flagSet_congr (startTx_flags s) c bit

/-! ## Occupancy -/

/-- The record of a slot that has moved to an occupancy state (R63, R172). -/
def SlotRec.movedTo (r : SlotRec) (o : Occupancy) : SlotRec :=
  if r.occ = o then r
  else
    let r' := enterLadder o { r with occ := o }
    if o = .testing ∨ r.occ = .testing then clearProgress r' else r'

/-- The occupancy, the ladder's marks and the matcher's progress are all that a move may change. -/
theorem SlotRec.movedTo_frame (r : SlotRec) (o : Occupancy) :
    r.movedTo o = { r with
      occ := o, ladder := (r.movedTo o).ladder, ladderInReady := (r.movedTo o).ladderInReady,
      con := { r.con with progress := (r.movedTo o).con.progress } } := by
  unfold SlotRec.movedTo
  split
  · next h => subst h; rfl
  · unfold enterLadder
    dsimp only
    split <;> split <;> first | rfl | (split <;> rfl)

section
variable (r : SlotRec) (o : Occupancy)
@[simp] theorem SlotRec.movedTo_occ : (r.movedTo o).occ = o := by rw [movedTo_frame]
@[simp] theorem SlotRec.movedTo_adm : (r.movedTo o).adm = r.adm := by rw [movedTo_frame]
@[simp] theorem SlotRec.movedTo_present : (r.movedTo o).present = r.present := by rw [movedTo_frame]
@[simp] theorem SlotRec.movedTo_presTimer : (r.movedTo o).presTimer = r.presTimer := by rw [movedTo_frame]
@[simp] theorem SlotRec.movedTo_enabled : (r.movedTo o).enabled = r.enabled := by rw [movedTo_frame]
@[simp] theorem SlotRec.movedTo_armed : (r.movedTo o).armed = r.armed := by rw [movedTo_frame]
@[simp] theorem SlotRec.movedTo_autostart : (r.movedTo o).autostart = r.autostart := by rw [movedTo_frame]
@[simp] theorem SlotRec.movedTo_unlocked : (r.movedTo o).unlocked = r.unlocked := by rw [movedTo_frame]
@[simp] theorem SlotRec.movedTo_unlockTimer : (r.movedTo o).unlockTimer = r.unlockTimer := by rw [movedTo_frame]
@[simp] theorem SlotRec.movedTo_locateTimer : (r.movedTo o).locateTimer = r.locateTimer := by rw [movedTo_frame]
@[simp] theorem SlotRec.movedTo_bootTimer : (r.movedTo o).bootTimer = r.bootTimer := by rw [movedTo_frame]
@[simp] theorem SlotRec.movedTo_identity : (r.movedTo o).identity = r.identity := by rw [movedTo_frame]
@[simp] theorem SlotRec.movedTo_drive : (r.movedTo o).drive = r.drive := by rw [movedTo_frame]
@[simp] theorem SlotRec.movedTo_run : (r.movedTo o).run = r.run := by rw [movedTo_frame]
@[simp] theorem SlotRec.movedTo_result : (r.movedTo o).result = r.result := by rw [movedTo_frame]
@[simp] theorem SlotRec.movedTo_cls : (r.movedTo o).cls = r.cls := by rw [movedTo_frame]
@[simp] theorem SlotRec.movedTo_silent : (r.movedTo o).silent = r.silent := by rw [movedTo_frame]
@[simp] theorem SlotRec.movedTo_pollTimer : (r.movedTo o).pollTimer = r.pollTimer := by rw [movedTo_frame]
@[simp] theorem SlotRec.movedTo_poll : (r.movedTo o).poll = r.poll := by rw [movedTo_frame]
@[simp] theorem SlotRec.movedTo_temp : (r.movedTo o).temp = r.temp := by rw [movedTo_frame]
@[simp] theorem SlotRec.movedTo_deadline : (r.movedTo o).deadline = r.deadline := by rw [movedTo_frame]
@[simp] theorem SlotRec.movedTo_attn : (r.movedTo o).attn = r.attn := by rw [movedTo_frame]
@[simp] theorem SlotRec.movedTo_reservation : (r.movedTo o).reservation = r.reservation := by rw [movedTo_frame]
@[simp] theorem SlotRec.movedTo_ship : (r.movedTo o).ship = r.ship := by rw [movedTo_frame]
@[simp] theorem SlotRec.movedTo_diverted : (r.movedTo o).diverted = r.diverted := by rw [movedTo_frame]
end

theorem SlotRec.movedTo_self (r : SlotRec) : r.movedTo r.occ = r := by simp [movedTo]

/-- Between two states that are neither TESTING nor one at whose entry the ladder's stage returns, a move changes nothing
else. -/
theorem SlotRec.movedTo_plain (r : SlotRec) {o : Occupancy} (h : r.occ ≠ .testing) (ho : o ≠ .testing ∧ o ≠ .ready ∧ o ≠ .empty) :
    r.movedTo o = { r with occ := o } := by
  obtain ⟨ht, hr, he⟩ := ho
  unfold SlotRec.movedTo
  split
  · next h => subst h; rfl
  · simp only [ht, h, or_self, if_false]
    unfold enterLadder
    split <;> first | rfl | contradiction

/-- A move is a change of the slot's record, and sets BIN_WAIT at an entry to BIN_WAIT (R10). -/
theorem setOcc_eq (i : Slot) (o : Occupancy) (s : State) :
    setOcc i o s =
      if o = .binWait ∧ (s.slot i).occ ≠ .binWait then raiseSlot i .binWait (s.modSlot i (·.movedTo o))
      else s.modSlot i (·.movedTo o) := by
  unfold setOcc
  by_cases h : (s.slot i).occ = o
  · subst h
    have : s.modSlot i (·.movedTo (s.slot i).occ) = s := State.modSlot_eq_self (SlotRec.movedTo_self _)
    simp [this]
  · have hmod : (s.modSlot i fun r =>
        let r := enterLadder o { r with occ := o }
        if o = .testing ∨ (s.slot i).occ = .testing then clearProgress r else r) = s.modSlot i (·.movedTo o) :=
      State.modSlot_congr (by simp [SlotRec.movedTo, h])
    simp only [h, if_false, hmod]
    by_cases ho : o = .binWait
    · subst ho; simp [h]
    · simp [ho]

section
variable (i : Slot) (o : Occupancy) (s : State)

@[simp] theorem setOcc_slot : (setOcc i o s).slot i = (s.slot i).movedTo o := by rw [setOcc_eq]; split <;> simp

theorem setOcc_slot_if (j : Slot) : (setOcc i o s).slot j = if j = i then (s.slot i).movedTo o else s.slot j := by
  rw [setOcc_eq]; split <;> simp [State.modSlot_slot_if]

theorem setOcc_slot_ne {j : Slot} (h : j ≠ i) : (setOcc i o s).slot j = s.slot j := by simp [setOcc_slot_if, h]

@[simp] theorem setOcc_shelf (k : Shelf) : (setOcc i o s).shelf k = s.shelf k := by rw [setOcc_eq]; split <;> simp
@[simp] theorem setOcc_bins : (setOcc i o s).bins = s.bins := by rw [setOcc_eq]; split <;> simp
@[simp] theorem setOcc_now : (setOcc i o s).now = s.now := by rw [setOcc_eq]; split <;> simp
@[simp] theorem setOcc_hasEntry (j : Slot) (kind : EntryKind) : hasEntry (setOcc i o s) j kind = hasEntry s j kind := by
  simp [hasEntry]

/-- No other move sets a flag. -/
theorem setOcc_of_ne_binWait {o : Occupancy} (h : o ≠ .binWait) : setOcc i o s = s.modSlot i (·.movedTo o) := by
  simp [setOcc_eq, h]

theorem setOcc_flags {o : Occupancy} (h : o ≠ .binWait) : (setOcc i o s).flags = s.flags := by
  rw [setOcc_of_ne_binWait i s h]; rfl

theorem flagSet_setOcc_binWait {s : State} {i : Slot} (h : (s.slot i).occ ≠ .binWait) :
    flagSet (setOcc i .binWait s) (slotScope i) (slotFlagBit .binWait) = true := by
  rw [setOcc_eq, if_pos ⟨rfl, h⟩]; simp
end

/-! ## Wait queues -/

section
variable (k : Shelf) (q : List QueueEntry) (s : State)
@[simp] theorem setQueue_slot (i : Slot) : (setQueue k q s).slot i = s.slot i := rfl
@[simp] theorem setQueue_bins : (setQueue k q s).bins = s.bins := rfl
@[simp] theorem setQueue_flags : (setQueue k q s).flags = s.flags := rfl
@[simp] theorem setQueue_now : (setQueue k q s).now = s.now := rfl
@[simp] theorem setQueue_shelf : (setQueue k q s).shelf k = { s.shelf k with queue := q } := by simp [setQueue]
theorem setQueue_shelf_ne {l : Shelf} (h : l ≠ k) : (setQueue k q s).shelf l = s.shelf l := State.modShelf_shelf_ne s h _
end

/-- A slot that stands in its queue does so with an entry of either kind. -/
theorem queued_eq_false {s : State} {i : Slot} : queued s i = false ↔ ∀ e ∈ (s.shelf (shelfOf i)).queue, e.slot ≠ i := by
  simp [queued]

theorem hasEntry_eq_false {s : State} {i : Slot} {kind : EntryKind} :
    hasEntry s i kind = false ↔ ∀ e ∈ (s.shelf (shelfOf i)).queue, e.slot = i → e.kind ≠ kind := by
  simp [hasEntry]

theorem queued_of_hasEntry {s : State} {i : Slot} (hp : hasEntry s i .power = false) (hs : hasEntry s i .spin = false) :
    queued s i = false := by
  rw [hasEntry_eq_false] at hp hs
  refine queued_eq_false.2 fun e he hi => ?_
  have := hp e he hi
  have := hs e he hi
  cases hk : e.kind <;> simp_all

theorem hasEntry_of_queued {s : State} {i : Slot} (h : queued s i = false) (kind : EntryKind) : hasEntry s i kind = false :=
  hasEntry_eq_false.2 fun e he hi => absurd hi (queued_eq_false.1 h e he)

theorem queued_congr {s t : State} {i : Slot} (h : (t.shelf (shelfOf i)).queue = (s.shelf (shelfOf i)).queue) :
    queued t i = queued s i := by simp [queued, h]

theorem hasEntry_congr {s t : State} {i : Slot} (h : (t.shelf (shelfOf i)).queue = (s.shelf (shelfOf i)).queue)
    (kind : EntryKind) : hasEntry t i kind = hasEntry s i kind := by simp [hasEntry, h]

theorem mem_withoutSlot {i : Slot} {q : List QueueEntry} {e : QueueEntry} : e ∈ withoutSlot i q ↔ e ∈ q ∧ e.slot ≠ i := by
  simp [withoutSlot]

/-- Whoever is placed stands in the queue with that entry, and with no other. -/
theorem mem_placeRequest {e x : QueueEntry} {q : List QueueEntry} (h : x ∈ placeRequest e q) :
    x = e ∨ (x ∈ q ∧ x.slot ≠ e.slot) := by
  unfold placeRequest at h
  split at h
  · obtain ⟨y, hy, rfl⟩ := List.mem_map.1 h
    split
    · exact .inl rfl
    · next hne => exact .inr ⟨hy, hne⟩
  · next hany =>
    rcases List.mem_append.1 h with h | h
    · refine .inr ⟨h, fun he => hany ?_⟩
      exact List.any_eq_true.2 ⟨x, h, by simpa using he⟩
    · exact .inl (List.mem_singleton.1 h)

theorem self_mem_placeRequest (e : QueueEntry) (q : List QueueEntry) : e ∈ placeRequest e q := by
  unfold placeRequest
  split
  · next h =>
    obtain ⟨x, hx, he⟩ := List.any_eq_true.1 h
    exact List.mem_map.2 ⟨x, hx, if_pos (of_decide_eq_true he)⟩
  · simp

/-! ## Grants -/

/-- The record of a slot as power is granted to it (R34, R36). -/
def SlotRec.poweredOn (r : SlotRec) (rank : Nat) (by_ : Requester) (boot : Option Nat) : SlotRec :=
  let r' := { r with
    cls := .idle, powerRank := some rank, powerReq := by_, adm := .booting, bootTimer := boot,
    con := { r.con with rx := rxAtPowerOn r.con.line } }
  let r'' := if r.occ = .powerWait then r'.movedTo .booting else r'
  if by_ = .planRunner then
    { r'' with run := r''.run.map fun run => if run.cycleStep = some .awaitPower then { run with cycleStep := some .attach } else run }
  else r''

/-- What a power grant may change of a record. -/
theorem SlotRec.poweredOn_frame (r : SlotRec) (rank : Nat) (by_ : Requester) (boot : Option Nat) :
    r.poweredOn rank by_ boot = { r with
      occ := if r.occ = .powerWait then .booting else r.occ
      cls := .idle, powerRank := some rank, powerReq := by_, adm := .booting, bootTimer := boot,
      con := { r.con with rx := rxAtPowerOn r.con.line }
      run := (r.poweredOn rank by_ boot).run } := by
  unfold SlotRec.poweredOn
  by_cases ho : r.occ = .powerWait
  · simp only [ho, if_true]
    rw [SlotRec.movedTo_plain _ (by simp) (by decide)]
    split <;> rfl
  · simp only [ho, if_false]
    split <;> rfl

section
variable (r : SlotRec) (rank : Nat) (by_ : Requester) (boot : Option Nat)
@[simp] theorem SlotRec.poweredOn_occ :
    (r.poweredOn rank by_ boot).occ = if r.occ = .powerWait then .booting else r.occ := by rw [poweredOn_frame]
@[simp] theorem SlotRec.poweredOn_adm : (r.poweredOn rank by_ boot).adm = .booting := by rw [poweredOn_frame]
@[simp] theorem SlotRec.poweredOn_cls : (r.poweredOn rank by_ boot).cls = .idle := by rw [poweredOn_frame]
@[simp] theorem SlotRec.poweredOn_present : (r.poweredOn rank by_ boot).present = r.present := by rw [poweredOn_frame]
@[simp] theorem SlotRec.poweredOn_presTimer : (r.poweredOn rank by_ boot).presTimer = r.presTimer := by rw [poweredOn_frame]
@[simp] theorem SlotRec.poweredOn_armed : (r.poweredOn rank by_ boot).armed = r.armed := by rw [poweredOn_frame]
@[simp] theorem SlotRec.poweredOn_locateTimer : (r.poweredOn rank by_ boot).locateTimer = r.locateTimer := by rw [poweredOn_frame]
@[simp] theorem SlotRec.poweredOn_unlocked : (r.poweredOn rank by_ boot).unlocked = r.unlocked := by rw [poweredOn_frame]
@[simp] theorem SlotRec.poweredOn_unlockTimer : (r.poweredOn rank by_ boot).unlockTimer = r.unlockTimer := by rw [poweredOn_frame]
@[simp] theorem SlotRec.poweredOn_identity : (r.poweredOn rank by_ boot).identity = r.identity := by rw [poweredOn_frame]
@[simp] theorem SlotRec.poweredOn_drive : (r.poweredOn rank by_ boot).drive = r.drive := by rw [poweredOn_frame]
@[simp] theorem SlotRec.poweredOn_result : (r.poweredOn rank by_ boot).result = r.result := by rw [poweredOn_frame]
@[simp] theorem SlotRec.poweredOn_silent : (r.poweredOn rank by_ boot).silent = r.silent := by rw [poweredOn_frame]
@[simp] theorem SlotRec.poweredOn_deadline : (r.poweredOn rank by_ boot).deadline = r.deadline := by rw [poweredOn_frame]
@[simp] theorem SlotRec.poweredOn_attn : (r.poweredOn rank by_ boot).attn = r.attn := by rw [poweredOn_frame]
@[simp] theorem SlotRec.poweredOn_reservation : (r.poweredOn rank by_ boot).reservation = r.reservation := by rw [poweredOn_frame]
@[simp] theorem SlotRec.poweredOn_ship : (r.poweredOn rank by_ boot).ship = r.ship := by rw [poweredOn_frame]
@[simp] theorem SlotRec.poweredOn_diverted : (r.poweredOn rank by_ boot).diverted = r.diverted := by rw [poweredOn_frame]
@[simp] theorem SlotRec.poweredOn_ladder : (r.poweredOn rank by_ boot).ladder = r.ladder := by rw [poweredOn_frame]

/-- Only the Plan Runner's own requests tell a run of the power (R123). -/
theorem SlotRec.poweredOn_run {by_ : Requester} (h : by_ ≠ .planRunner) : (r.poweredOn rank by_ boot).run = r.run := by
  unfold SlotRec.poweredOn
  simp only [h, if_false]
  split <;> simp
end

theorem grantPower_eq (i : Slot) (by_ : Requester) (s : State) :
    grantPower i by_ s = s.modSlot i fun r =>
      r.poweredOn (nextRank s (shelfOf i)) by_ (some (s.now + 1000 * (s.shelf (shelfOf i)).bootDelay)) := by
  unfold grantPower cyclePowered SlotRec.poweredOn
  simp only [setOcc_of_ne_binWait i _ (o := .booting) (by decide), State.modRun, State.after, secs]
  by_cases ho : (s.slot i).occ = .powerWait <;> by_cases hb : by_ = .planRunner <;>
    · simp only [ho, hb, State.modSlot_slot, State.modSlot_modSlot, if_true, if_false]
      exact State.modSlot_congr (by simp [ho])

/-- The record of a slot as spin is granted to it (R34, R37). -/
def SlotRec.spunUp (r : SlotRec) (rank : Nat) (by_ : Requester) (window : Option Nat) : SlotRec :=
  { r with cls := .inrush, spinRank := some rank, spinTimer := window, spinReq := some by_ }

/-- A grant changes the record of the entry's slot only. -/
theorem grant_eq (e : QueueEntry) (s : State) : ∃ f : SlotRec → SlotRec, grant e s = s.modSlot e.slot f ∧
    ((∃ rank boot, e.kind = .power ∧ ∀ r, f r = r.poweredOn rank e.requester boot) ∨
      ∃ rank window, e.kind = .spin ∧ ∀ r, f r = r.spunUp rank e.requester window) := by
  unfold grant
  cases hk : e.kind with
  | power => exact ⟨_, grantPower_eq _ _ _, .inl ⟨_, _, rfl, fun _ => rfl⟩⟩
  | spin => exact ⟨_, rfl, .inr ⟨_, _, rfl, fun _ => rfl⟩⟩

@[simp] theorem grant_shelf (e : QueueEntry) (s : State) (k : Shelf) : (grant e s).shelf k = s.shelf k := by
  obtain ⟨f, hf, -⟩ := grant_eq e s; rw [hf]; rfl
@[simp] theorem grant_bins (e : QueueEntry) (s : State) : (grant e s).bins = s.bins := by
  obtain ⟨f, hf, -⟩ := grant_eq e s; rw [hf]; rfl
@[simp] theorem grant_flags (e : QueueEntry) (s : State) : (grant e s).flags = s.flags := by
  obtain ⟨f, hf, -⟩ := grant_eq e s; rw [hf]; rfl
@[simp] theorem grant_now (e : QueueEntry) (s : State) : (grant e s).now = s.now := by
  obtain ⟨f, hf, -⟩ := grant_eq e s; rw [hf]; rfl
theorem grant_slot_ne {e : QueueEntry} {i : Slot} (h : i ≠ e.slot) (s : State) : (grant e s).slot i = s.slot i := by
  obtain ⟨f, hf, -⟩ := grant_eq e s; rw [hf]; exact s.modSlot_slot_ne h f

/-- One such change after another. -/
theorem Changed.trans {s t u : State} (h : Changed s t) (h' : Changed t u) : Changed s u := by
  induction h' with
  | refl => exact h
  | slots v _ ih => exact .slots v ih
  | shelves v _ ih => exact .shelves v ih
  | bins v _ ih => exact .bins v ih
  | raiseSlot i f _ ih => exact .raiseSlot i f ih
  | raiseShelf k f _ ih => exact .raiseShelf k f ih
  | raiseController f _ ih => exact .raiseController f ih

/-- Grants and withdrawals change slots and the wait queue of the shelf, from which entries have gone. -/
structure Granted (k : Shelf) (s t : State) : Prop where
  bins : t.bins = s.bins
  flags : t.flags = s.flags
  shelf_ne : ∀ l, l ≠ k → t.shelf l = s.shelf l
  shelf : t.shelf k = { s.shelf k with queue := (t.shelf k).queue }
  queue : ∀ e ∈ (t.shelf k).queue, e ∈ (s.shelf k).queue
  changed : Changed s t

theorem Granted.refl (k : Shelf) (s : State) : Granted k s s :=
  ⟨rfl, rfl, fun _ _ => rfl, rfl, fun _ h => h, .refl s⟩

theorem Granted.trans {k : Shelf} {s t u : State} (h : Granted k s t) (h' : Granted k t u) : Granted k s u where
  bins := h'.bins.trans h.bins
  flags := h'.flags.trans h.flags
  shelf_ne l hl := (h'.shelf_ne l hl).trans (h.shelf_ne l hl)
  shelf := by rw [h'.shelf, h.shelf]
  queue e he := h.queue e (h'.queue e he)
  changed := h.changed.trans h'.changed

/-- A change of slots alone. -/
theorem Granted.of_modSlot (k : Shelf) (i : Slot) (f : SlotRec → SlotRec) (s : State) : Granted k s (s.modSlot i f) :=
  ⟨rfl, rfl, fun _ _ => rfl, rfl, fun _ h => h, .slots _ (.refl s)⟩

theorem Granted.of_setQueue {k : Shelf} {q : List QueueEntry} {s : State} (h : ∀ e ∈ q, e ∈ (s.shelf k).queue) :
    Granted k s (setQueue k q s) :=
  ⟨rfl, rfl, fun _ hl => setQueue_shelf_ne k q s hl, by simp, by simpa using h, .shelves _ (.refl s)⟩

/-- The head's grant. -/
theorem granted_head {k : Shelf} {s : State} {e : QueueEntry} {rest : List QueueEntry} (h : (s.shelf k).queue = e :: rest) :
    Granted k s (grant e (setQueue k rest s)) := by
  obtain ⟨f, hf, -⟩ := grant_eq e (setQueue k rest s)
  rw [hf]
  exact (Granted.of_setQueue fun x hx => by rw [h]; exact List.mem_cons_of_mem _ hx).trans (.of_modSlot ..)

theorem examineTimes_granted (n : Nat) (k : Shelf) (s : State) : Granted k s (examineTimes n k s) := by
  induction n generalizing s with
  | zero => exact .refl k s
  | succ n ih =>
    unfold examineTimes
    split
    · next e rest hq =>
      split
      · exact (granted_head hq).trans (ih _)
      · exact .refl k s
    · exact .refl k s

theorem examine_granted (k : Shelf) (s : State) : Granted k s (examine k s) := examineTimes_granted _ k s

/-- The entries that wait after the head's grant waited before. -/
theorem mem_queue_of_mem_granted {k : Shelf} {s : State} {e x : QueueEntry} {rest : List QueueEntry}
    (hq : (s.shelf k).queue = e :: rest) (hx : x ∈ ((grant e (setQueue k rest s)).shelf k).queue) :
    x ∈ (s.shelf k).queue := by
  simp only [grant_shelf, setQueue_shelf] at hx
  rw [hq]; exact List.mem_cons_of_mem _ hx

theorem examineTimes_slot_keeps {k : Shelf} {i : Slot} {P : SlotRec → Prop} (n : Nat) {s : State}
    (hP : ∀ e ∈ (s.shelf k).queue, e.slot = i → ∀ t : State, P (t.slot i) → P ((grant e t).slot i)) (h : P (s.slot i)) :
    P ((examineTimes n k s).slot i) := by
  induction n generalizing s with
  | zero => exact h
  | succ n ih =>
    unfold examineTimes
    split
    · next e rest hq =>
      split
      · refine ih (fun x hx => hP x (mem_queue_of_mem_granted hq hx)) ?_
        by_cases hi : e.slot = i
        · exact hP e (by simp [hq]) hi _ h
        · rw [grant_slot_ne (Ne.symm hi)]; exact h
      · exact h
    · exact h

/-- A property of a slot's record that every grant to it keeps is kept by an examination. -/
theorem examine_slot_keeps {k : Shelf} {i : Slot} {P : SlotRec → Prop} {s : State}
    (hP : ∀ e ∈ (s.shelf k).queue, e.slot = i → ∀ t : State, P (t.slot i) → P ((grant e t).slot i)) (h : P (s.slot i)) :
    P ((examine k s).slot i) := examineTimes_slot_keeps _ hP h

/-- A slot that does not wait is granted nothing. -/
theorem examine_slot_of_not_queued {k : Shelf} {i : Slot} {s : State} (h : ∀ e ∈ (s.shelf k).queue, e.slot ≠ i) :
    (examine k s).slot i = s.slot i :=
  examine_slot_keeps (P := fun r => r = s.slot i) (fun e he hi => absurd hi (h e he)) rfl

/-- A slot that waits still waits with its record as it was, or a grant has been made to it. -/
theorem examine_slot_or {k : Shelf} {i : Slot} {Q : SlotRec → Prop} {s : State}
    (hQ : ∀ e ∈ (s.shelf k).queue, e.slot = i → ∀ t : State, t.slot i = s.slot i ∨ Q (t.slot i) → Q ((grant e t).slot i)) :
    ((examine k s).slot i = s.slot i ∧ ∀ e ∈ (s.shelf k).queue, e.slot = i → e ∈ ((examine k s).shelf k).queue) ∨
      Q ((examine k s).slot i) := by
  unfold examine
  generalize (s.shelf k).queue.length = n
  induction n generalizing s with
  | zero => exact .inl ⟨rfl, fun _ he _ => he⟩
  | succ n ih =>
    unfold examineTimes
    split
    · next e rest hq =>
      split
      · have hrest := fun x hx => hQ x (mem_queue_of_mem_granted (x := x) hq hx)
        by_cases hi : e.slot = i
        · have hg := hQ e (by simp [hq]) hi (setQueue k rest s) (.inl rfl)
          exact .inr (examineTimes_slot_keeps n (fun x hx hxi t ht => hrest x hx hxi t (.inr ht)) hg)
        · have hs : (grant e (setQueue k rest s)).slot i = s.slot i := by simp [grant_slot_ne (Ne.symm hi)]
          rcases ih (s := grant e (setQueue k rest s)) (by rw [hs]; exact hrest) with ⟨hr, hin⟩ | hq'
          · refine .inl ⟨hr.trans hs, fun x hx hxi => ?_⟩
            rcases List.mem_cons.1 (hq ▸ hx) with rfl | hx
            · exact absurd hxi hi
            · exact hin x (by simpa using hx) hxi
          · exact .inr hq'
      · exact .inl ⟨rfl, fun _ he _ => he⟩
    · exact .inl ⟨rfl, fun _ he _ => he⟩

end Sys2Proof.Machine
end

