-- ==== Sys2Proof/Proofs/BusReading.lean ====
section
/-! SUPPORT. What the Bus Controller's lists and its arbiter may change, and what the Attach Unit may: the shelf's bus and
pass, the deadlines of the attaching set, and the shelf's flags. -/

namespace Sys2Proof.Machine

/-! ## The Bus Controller (sections 3.1, 3.2) -/

theorem State.modShelf_congr {s : State} {k : Shelf} {f g : ShelfRec → ShelfRec} (h : f (s.shelf k) = g (s.shelf k)) :
    s.modShelf k f = s.modShelf k g := by
  unfold State.shelf at h
  simp only [State.modShelf, h]

theorem State.modShelf_eq_self {s : State} {k : Shelf} {f : ShelfRec → ShelfRec} (h : f (s.shelf k) = s.shelf k) :
    s.modShelf k f = s := by
  unfold State.shelf at h
  simp only [State.modShelf, h]
  simp

/-- The record of a shelf with the pending work, the pointers and the stage of the wire of another. -/
def ShelfRec.withBus (sh b : ShelfRec) : ShelfRec :=
  { sh with
    attachList := b.attachList, attnWide := b.attnWide, testReset := b.testReset, work := b.work, pointers := b.pointers,
    phase := b.phase, stuckTimer := b.stuckTimer, holdoff := b.holdoff, nodeWait := b.nodeWait
    attnWire := b.attnWire, highSince := b.highSince }

section
variable (sh b : ShelfRec)
@[simp] theorem ShelfRec.withBus_enabled : (sh.withBus b).enabled = sh.enabled := rfl
@[simp] theorem ShelfRec.withBus_queue : (sh.withBus b).queue = sh.queue := rfl
@[simp] theorem ShelfRec.withBus_bootDelay : (sh.withBus b).bootDelay = sh.bootDelay := rfl
@[simp] theorem ShelfRec.withBus_pollSecs : (sh.withBus b).pollSecs = sh.pollSecs := rfl
@[simp] theorem ShelfRec.withBus_pass : (sh.withBus b).pass = sh.pass := rfl
@[simp] theorem ShelfRec.withBus_mismatches : (sh.withBus b).mismatches = sh.mismatches := rfl
@[simp] theorem ShelfRec.withBus_nodes : (sh.withBus b).nodes = sh.nodes := rfl
@[simp] theorem ShelfRec.withBus_attachList : (sh.withBus b).attachList = b.attachList := rfl
@[simp] theorem ShelfRec.withBus_attnWide : (sh.withBus b).attnWide = b.attnWide := rfl
@[simp] theorem ShelfRec.withBus_work : (sh.withBus b).work = b.work := rfl
@[simp] theorem ShelfRec.withBus_phase : (sh.withBus b).phase = b.phase := rfl
end

/-- The second state is the first but for the pending work, the pointers and the stage of the wire of one shelf. -/
def BusOnly (k : Shelf) (s t : State) : Prop := ∃ b : ShelfRec, t = s.modShelf k (·.withBus b)

theorem BusOnly.of_mod {k : Shelf} {s : State} {f : ShelfRec → ShelfRec}
    (h : f (s.shelf k) = (s.shelf k).withBus (f (s.shelf k))) : BusOnly k s (s.modShelf k f) :=
  ⟨f (s.shelf k), State.modShelf_congr h⟩

theorem BusOnly.refl (k : Shelf) (s : State) : BusOnly k s s := 
  ⟨s.shelf k, (State.modShelf_eq_self rfl).symm⟩

theorem BusOnly.trans {k : Shelf} {s t u : State} (h : BusOnly k s t) (h' : BusOnly k t u) : BusOnly k s u := by
  obtain ⟨b, rfl⟩ := h
  obtain ⟨c, rfl⟩ := h'
  exact ⟨c, by rw [State.modShelf_modShelf]; rfl⟩

section
variable {k : Shelf} {s t : State} (h : BusOnly k s t)
include h

theorem BusOnly.slots : t.slots = s.slots := by obtain ⟨b, rfl⟩ := h; rfl
theorem BusOnly.slot (i : Slot) : t.slot i = s.slot i := by simp [State.slot, h.slots]
theorem BusOnly.bins : t.bins = s.bins := by obtain ⟨b, rfl⟩ := h; rfl
theorem BusOnly.flags : t.flags = s.flags := by obtain ⟨b, rfl⟩ := h; rfl
theorem BusOnly.now : t.now = s.now := by obtain ⟨b, rfl⟩ := h; rfl
theorem BusOnly.wakePattern : t.wakePattern = s.wakePattern := by obtain ⟨b, rfl⟩ := h; rfl
theorem BusOnly.shelf_ne {l : Shelf} (hl : l ≠ k) : t.shelf l = s.shelf l := by
  obtain ⟨b, rfl⟩ := h; exact State.modShelf_shelf_ne s hl _
theorem BusOnly.shelf : t.shelf k = (s.shelf k).withBus (t.shelf k) := by
  obtain ⟨b, rfl⟩ := h; simp [ShelfRec.withBus]
theorem BusOnly.queue (l : Shelf) : (t.shelf l).queue = (s.shelf l).queue := by
  by_cases hl : l = k
  · subst hl; rw [h.shelf]; rfl
  · rw [h.shelf_ne hl]
theorem BusOnly.enabled (l : Shelf) : (t.shelf l).enabled = (s.shelf l).enabled := by
  by_cases hl : l = k
  · subst hl; rw [h.shelf]; rfl
  · rw [h.shelf_ne hl]
theorem BusOnly.pass : (t.shelf k).pass = (s.shelf k).pass := by rw [h.shelf]; rfl
theorem BusOnly.nodes : (t.shelf k).nodes = (s.shelf k).nodes := by rw [h.shelf]; rfl
theorem BusOnly.mismatches : (t.shelf k).mismatches = (s.shelf k).mismatches := by rw [h.shelf]; rfl
theorem BusOnly.changed : Changed s t := by obtain ⟨b, rfl⟩ := h; exact .shelves _ (.refl s)
end

theorem launch_busOnly (k : Shelf) (it : Item) (s : State) : BusOnly k s (launch k it s) := .of_mod rfl

/-- What a take of the arbiter leads to: the item launched from the shelf with its lists shortened. -/
theorem takeAttach_busOnly {k : Shelf} {s t : State} (h : takeAttach k s = some t) : BusOnly k s t := by
  unfold takeAttach at h
  split at h
  · cases h; exact (BusOnly.of_mod rfl).trans (launch_busOnly ..)
  · cases h

theorem takeWide_busOnly {k : Shelf} {s t : State} (h : takeWide k s = some t) : BusOnly k s t := by
  unfold takeWide at h
  split at h
  · cases h; exact (BusOnly.of_mod rfl).trans (launch_busOnly ..)
  · cases h

theorem takeTestReset_busOnly {k : Shelf} {s t : State} (h : takeTestReset k s = some t) : BusOnly k s t := by
  obtain ⟨it, -, rfl⟩ := Option.map_eq_some_iff.1 h
  exact (BusOnly.of_mod rfl).trans (launch_busOnly ..)

theorem takeSlotItem_busOnly {c : BusClass} {k : Shelf} {s t : State} (h : takeSlotItem c k s = some t) : BusOnly k s t := by
  obtain ⟨⟨p, it⟩, -, rfl⟩ := Option.map_eq_some_iff.1 h
  exact (BusOnly.of_mod rfl).trans (launch_busOnly ..)

/-- The arbiter's choice is one of its takes, or none with the wire free (R55). -/
theorem choose_cases (k : Shelf) (s : State) :
    takeAttach k s = some (choose k s) ∨ takeWide k s = some (choose k s) ∨ takeTestReset k s = some (choose k s) ∨
      (∃ c, takeSlotItem c k s = some (choose k s)) ∨ choose k s = s.modShelf k fun sh => { sh with phase := .free } := by
  unfold choose
  cases h1 : takeAttach k s with
  | some t => exact .inl rfl
  | none =>
  cases h2 : takeWide k s with
  | some t => exact .inr (.inl rfl)
  | none =>
  cases h3 : takeSlotItem .attention k s with
  | some t => exact .inr (.inr (.inr (.inl ⟨_, h3⟩)))
  | none =>
  cases h4 : takeTestReset k s with
  | some t => exact .inr (.inr (.inl rfl))
  | none =>
  cases h5 : takeSlotItem .control k s with
  | some t => exact .inr (.inr (.inr (.inl ⟨_, h5⟩)))
  | none =>
  cases h6 : takeSlotItem .fetch k s with
  | some t => exact .inr (.inr (.inr (.inl ⟨_, h6⟩)))
  | none =>
  cases h7 : takeSlotItem .ship k s with
  | some t => exact .inr (.inr (.inr (.inl ⟨_, h7⟩)))
  | none =>
  cases h8 : takeSlotItem .poll k s with
  | some t => exact .inr (.inr (.inr (.inl ⟨_, h8⟩)))
  | none => exact .inr (.inr (.inr (.inr rfl)))

theorem choose_busOnly (k : Shelf) (s : State) : BusOnly k s (choose k s) := by
  rcases choose_cases k s with h | h | h | ⟨c, h⟩ | h
  · exact takeAttach_busOnly h
  · exact takeWide_busOnly h
  · exact takeTestReset_busOnly h
  · exact takeSlotItem_busOnly h
  · rw [h]; exact .of_mod rfl

theorem kick_busOnly (k : Shelf) (s : State) : BusOnly k s (kick k s) := by
  unfold kick; split
  · exact choose_busOnly k s
  · exact .refl k s

theorem submitAttach_busOnly (k : Shelf) (cmd : BusCmd) (s : State) : BusOnly k s (submitAttach k cmd s) := by
  unfold submitAttach; refine BusOnly.trans (.of_mod ?_) (kick_busOnly _ _); rfl

theorem submitWide_busOnly (k : Shelf) (cmd : BusCmd) (s : State) : BusOnly k s (submitWide k cmd s) := by
  unfold submitWide; refine BusOnly.trans (.of_mod ?_) (kick_busOnly _ _); rfl

theorem submitSlot_busOnly (i : Slot) (cmd : BusCmd) (owner : Owner) (s : State) :
    BusOnly (shelfOf i) s (submitSlot i cmd owner s).1 := by
  unfold submitSlot
  dsimp only
  split
  · exact .refl _ s
  · split
    · exact .refl _ s
    · split
      · dsimp only
        exact .of_mod rfl
      · refine BusOnly.trans (.of_mod ?_) (kick_busOnly _ _)
        rfl

theorem submit_fst (i : Slot) (cmd : BusCmd) (owner : Owner) (s : State) :
    (submit i cmd owner s).1 = (submitSlot i cmd owner s).1 := by
  unfold submit
  dsimp only
  split <;> simp_all

theorem submit_busOnly (i : Slot) (cmd : BusCmd) (owner : Owner) (s : State) :
    BusOnly (shelfOf i) s (submit i cmd owner s).1 := by
  rw [submit_fst]; exact submitSlot_busOnly i cmd owner s

theorem withdrawItem_busOnly (i : Slot) (kind : BusKind) (s : State) : BusOnly (shelfOf i) s (withdrawItem i kind s) := by
  unfold withdrawItem; exact .of_mod rfl

theorem orphan_busOnly (k : Shelf) (p : Item → Bool) (s : State) : BusOnly k s (orphan k p s) := by
  unfold orphan; exact .of_mod rfl

theorem renounce_busOnly (i : Slot) (kind : BusKind) (s : State) : BusOnly (shelfOf i) s (renounce i kind s) :=
  (withdrawItem_busOnly ..).trans (orphan_busOnly ..)

theorem renounceShip_busOnly (i : Slot) (s : State) : BusOnly (shelfOf i) s (renounceShip i s) :=
  (((renounce_busOnly ..).trans (renounce_busOnly ..)).trans (renounce_busOnly ..)).trans (renounce_busOnly ..)

theorem dropWork_busOnly (i : Slot) (s : State) : BusOnly (shelfOf i) s (dropWork i s).1 := by
  unfold dropWork; dsimp only; exact .of_mod rfl

/-! ## Pending work -/

/-- The items pending for slots of the shelf were pending before. -/
def WorkWithin (k : Shelf) (s t : State) : Prop := ∀ it ∈ (t.shelf k).work, it ∈ (s.shelf k).work

theorem WorkWithin.refl (k : Shelf) (s : State) : WorkWithin k s s := fun _ h => h

theorem WorkWithin.trans {k : Shelf} {s t u : State} (h : WorkWithin k s t) (h' : WorkWithin k t u) : WorkWithin k s u :=
  fun it hit => h it (h' it hit)

theorem WorkWithin.of_eq {k : Shelf} {s t : State} (h : (t.shelf k).work = (s.shelf k).work) : WorkWithin k s t :=
  fun _ hit => h ▸ hit

theorem WorkWithin.noWork {s t : State} {i : Slot} (h : WorkWithin (shelfOf i) s t) (hw : NoWork s i) : NoWork t i :=
  fun it hit => hw it (h it hit)

@[simp] theorem launch_work (k : Shelf) (it : Item) (s : State) : ((launch k it s).shelf k).work = (s.shelf k).work := by
  simp [launch]

theorem choose_workWithin (k : Shelf) (s : State) : WorkWithin k s (choose k s) := by
  rcases choose_cases k s with h | h | h | ⟨c, h⟩ | h
  · unfold takeAttach at h
    split at h
    · rw [← Option.some.inj h]; exact .of_eq (by simp)
    · cases h
  · unfold takeWide at h
    split at h
    · rw [← Option.some.inj h]; exact .of_eq (by simp)
    · cases h
  · obtain ⟨_, -, h⟩ := Option.map_eq_some_iff.1 h
    rw [← h]; exact .of_eq (by simp)
  · obtain ⟨⟨p, it⟩, -, h⟩ := Option.map_eq_some_iff.1 h
    rw [← h]
    intro x hx
    simp only [launch_work, State.modShelf_shelf] at hx
    exact List.mem_of_mem_filter hx
  · rw [h]; exact .of_eq (by simp)

theorem kick_workWithin (k : Shelf) (s : State) : WorkWithin k s (kick k s) := by
  unfold kick; split
  · exact choose_workWithin k s
  · exact .refl k s

theorem submitAttach_workWithin (k : Shelf) (cmd : BusCmd) (s : State) : WorkWithin k s (submitAttach k cmd s) := by
  unfold submitAttach
  refine WorkWithin.trans (.of_eq ?_) (kick_workWithin _ _)
  simp

theorem orphan_workWithin (k : Shelf) (p : Item → Bool) (s : State) : WorkWithin k s (orphan k p s) :=
  .of_eq (by simp [orphan])

theorem renounce_workWithin (i : Slot) (kind : BusKind) (s : State) : WorkWithin (shelfOf i) s (renounce i kind s) := by
  unfold renounce
  refine WorkWithin.trans (fun _ hit => ?_) (orphan_workWithin _ _ _)
  simp only [withdrawItem, State.modShelf_shelf] at hit
  exact List.mem_of_mem_filter hit

theorem renounceShip_workWithin (i : Slot) (s : State) : WorkWithin (shelfOf i) s (renounceShip i s) :=
  WorkWithin.trans (.trans (.trans (renounce_workWithin i _ _) (renounce_workWithin i _ _)) (renounce_workWithin i _ _))
    (renounce_workWithin i _ _)

/-- A slot without pending work drops none (R57). -/
theorem dropWork_snd {i : Slot} {s : State} (h : NoWork s i) : (dropWork i s).2 = [] := by
  unfold dropWork
  simp only [List.map_eq_nil_iff, List.filter_eq_nil_iff]
  intro it hit
  simpa using h it hit

/-- The slot has an item with these command fields pending, and no other of that kind, or it is in flight (R53). -/
def SolePending (s : State) (i : Slot) (cmd : BusCmd) : Prop :=
  ((∃ it ∈ (s.shelf (shelfOf i)).work, it.slot = some i ∧ it.cmd = cmd) ∧
      ∀ it ∈ (s.shelf (shelfOf i)).work, isItemOf i cmd.kind it = true → it.cmd = cmd) ∨
    flightIs (fun it => decide (it.slot = some i ∧ it.cmd = cmd)) (s.shelf (shelfOf i)).phase = true

theorem SolePending.slotPending {s : State} {i : Slot} {cmd : BusCmd} (h : SolePending s i cmd) : SlotPending s i cmd :=
  h.imp (fun h => h.1) id

theorem SolePending.congr {s t : State} {i : Slot} {cmd : BusCmd} (h : SolePending s i cmd)
    (hw : (t.shelf (shelfOf i)).work = (s.shelf (shelfOf i)).work)
    (hp : (t.shelf (shelfOf i)).phase = (s.shelf (shelfOf i)).phase) : SolePending t i cmd := by
  unfold SolePending at h ⊢
  rwa [hw, hp]

theorem isItemOf_iff {i : Slot} {kind : BusKind} {it : Item} :
    isItemOf i kind it = true ↔ it.slot = some i ∧ it.cmd.kind = kind := by simp [isItemOf]

theorem SlotPending.pendingOrInFlight {s : State} {i : Slot} {cmd : BusCmd} {kind : BusKind} (h : SlotPending s i cmd)
    (hk : cmd.kind = kind) : pendingOrInFlight s i kind = true := by
  unfold Sys2Proof.Machine.pendingOrInFlight
  rcases h with ⟨it, hit, hs, hc⟩ | h
  · have : (pendingItem (s.shelf (shelfOf i)).work i kind).isSome := by
      unfold pendingItem
      rw [List.find?_isSome]
      exact ⟨it, hit, isItemOf_iff.2 ⟨hs, by rw [hc, hk]⟩⟩
    simp [this]
  · have : flightIs (isItemOf i kind) (s.shelf (shelfOf i)).phase = true := by
      unfold flightIs at h ⊢
      split at h
      · obtain ⟨hs, hc⟩ := of_decide_eq_true h
        exact isItemOf_iff.2 ⟨hs, by rw [hc, hk]⟩
      · cases h
    simp [this]

/-- The item that the round-robin pointer gives a class is a pending one of its position's slot (R55). -/
theorem pickSlotItem_some {k : Shelf} {sh : ShelfRec} {c : BusClass} {p : Position} {it : Item}
    (h : pickSlotItem k sh c = some (p, it)) : it ∈ sh.work ∧ it.slot = some (slotAt k p) := by
  obtain ⟨q, -, hq⟩ := List.exists_of_findSome?_eq_some h
  obtain ⟨x, hx, heq⟩ := Option.map_eq_some_iff.1 hq
  cases heq
  obtain ⟨kind, -, hkind⟩ := List.exists_of_findSome?_eq_some hx
  exact ⟨List.mem_of_find?_eq_some hkind, (isItemOf_iff.1 (List.find?_some hkind)).1⟩

/-- The arbiter's choice leaves the slot's only item of its kind pending, or puts it in flight. -/
theorem choose_solePending {s : State} {i : Slot} {cmd : BusCmd} (h : SolePending s i cmd)
    (hf : inFlight (s.shelf (shelfOf i)).phase = none) : SolePending (choose (shelfOf i) s) i cmd := by
  rcases h with h | h
  · have keep : ∀ t : State, (t.shelf (shelfOf i)).work = (s.shelf (shelfOf i)).work → SolePending t i cmd := fun t ht =>
      .inl (by rw [ht]; exact h)
    rcases choose_cases (shelfOf i) s with ht | ht | ht | ⟨c, ht⟩ | ht
    · unfold takeAttach at ht
      split at ht
      · exact keep _ (by rw [← Option.some.inj ht]; simp)
      · cases ht
    · unfold takeWide at ht
      split at ht
      · exact keep _ (by rw [← Option.some.inj ht]; simp)
      · cases ht
    · obtain ⟨_, -, ht⟩ := Option.map_eq_some_iff.1 ht
      exact keep _ (by rw [← ht]; simp)
    · obtain ⟨⟨p, it⟩, hpick, ht⟩ := Option.map_eq_some_iff.1 ht
      obtain ⟨hmem, hslot⟩ := pickSlotItem_some hpick
      obtain ⟨⟨x, hx, hxs, hxc⟩, hall⟩ := h
      rw [← ht]
      by_cases hgone : isItemOf (slotAt (shelfOf i) p) it.cmd.kind x = true
      · obtain ⟨hs, hkind⟩ := isItemOf_iff.1 hgone
        have hi : slotAt (shelfOf i) p = i := Option.some.inj (hs.symm.trans hxs)
        have hcmd : it.cmd = cmd := hall it hmem (isItemOf_iff.2 ⟨hi ▸ hslot, by rw [← hkind, hxc]⟩)
        exact .inr (by simp [launch, flightIs, inFlight, hslot, hi, hcmd])
      · refine .inl ⟨⟨x, ?_, hxs, hxc⟩, fun y hy => ?_⟩
        · simp only [launch_work, State.modShelf_shelf]
          exact List.mem_filter.2 ⟨hx, by simpa using hgone⟩
        · simp only [launch_work, State.modShelf_shelf] at hy
          exact hall y (List.mem_of_mem_filter hy)
    · exact keep _ (by rw [ht]; simp)
  · simp [flightIs, hf] at h

theorem kick_solePending {s : State} {i : Slot} {cmd : BusCmd} (h : SolePending s i cmd) :
    SolePending (kick (shelfOf i) s) i cmd := by
  unfold kick
  split
  · next hf => exact choose_solePending h (by simp [hf, inFlight])
  · exact h

/-- A submission for a drive that answers, with no item of its kind pending, is pending or in flight, and nobody is told
(R53). -/
theorem submit_of_bound {i : Slot} {cmd : BusCmd} (owner : Owner) {s : State} (hd : (s.slot i).drive.isSome)
    (hs : (s.slot i).silent = false) (hp : pendingItem (s.shelf (shelfOf i)).work i cmd.kind = none) :
    ∃ u, submit i cmd owner s = (u, []) ∧ BusOnly (shelfOf i) s u ∧ SolePending u i cmd ∧
      ((s.shelf (shelfOf i)).phase ≠ .free → (u.shelf (shelfOf i)).phase = (s.shelf (shelfOf i)).phase) := by
  have hnone : (s.slot i).drive.isNone = false := by
    cases h : (s.slot i).drive with
    | none => simp [h] at hd
    | some d => rfl
  have hsubmit : submitSlot i cmd owner s = (kick (shelfOf i) (s.modShelf (shelfOf i) fun sh =>
      { sh with work := sh.work ++ [{ shelf := shelfOf i, slot := some i, cmd := cmd, owner := owner }] }), none) := by
    simp [submitSlot, hnone, hs, hp]
  refine ⟨kick (shelfOf i) (s.modShelf (shelfOf i) fun sh =>
      { sh with work := sh.work ++ [{ shelf := shelfOf i, slot := some i, cmd := cmd, owner := owner }] }), ?_, ?_, ?_, ?_⟩
  · simp [submit, hsubmit, hp]
  · refine BusOnly.trans (.of_mod ?_) (kick_busOnly _ _)
    rfl
  · refine kick_solePending (.inl ⟨?_, fun it hit hof => ?_⟩)
    · exact ⟨{ shelf := shelfOf i, slot := some i, cmd := cmd, owner := owner }, by simp, rfl, rfl⟩
    · simp only [State.modShelf_shelf, List.mem_append, List.mem_singleton] at hit
      rcases hit with hit | rfl
      · exact absurd hof (by simpa using List.find?_eq_none.1 hp it hit)
      · rfl
  · intro hfree
    simp [kick, hfree]

/-- A slot without pending work has none of a kind. -/
theorem NoWork.pendingItem {s : State} {i : Slot} (h : NoWork s i) (kind : BusKind) :
    pendingItem (s.shelf (shelfOf i)).work i kind = none := by
  unfold Sys2Proof.Machine.pendingItem
  rw [List.find?_eq_none]
  intro it hit
  simp [isItemOf, h it hit]

/-! ## The Attach Unit (chapter 04) -/

/-- The record of a shelf with the bus, the node map and the pass of another. -/
def ShelfRec.withAttach (sh b : ShelfRec) : ShelfRec :=
  { sh.withBus b with nodes := b.nodes, pass := b.pass, mismatches := b.mismatches }

/-- The second state is the first but for the deadlines of the attaching set, the bus, the node map and the pass of one
shelf, and flags set; no work is pending that was not before. -/
structure AttachOnly (k : Shelf) (s t : State) : Prop where
  slot : ∀ j, t.slot j = { s.slot j with deadline := (t.slot j).deadline }
  noDeadline : ∀ j, (s.slot j).deadline = none → (t.slot j).deadline = none
  shelf : t.shelf k = (s.shelf k).withAttach (t.shelf k)
  shelf_ne : ∀ l, l ≠ k → t.shelf l = s.shelf l
  work : WorkWithin k s t
  bins : t.bins = s.bins
  changed : Changed s t
  flagSet : ∀ c bit, flagSet s c bit = true → flagSet t c bit = true

namespace AttachOnly

theorem refl (k : Shelf) (s : State) : AttachOnly k s s :=
  ⟨fun _ => rfl, fun _ h => h, rfl, fun _ _ => rfl, .refl k s, rfl, .refl s, fun _ _ h => h⟩

theorem trans {k : Shelf} {s t u : State} (h : AttachOnly k s t) (h' : AttachOnly k t u) : AttachOnly k s u where
  slot j := by rw [h'.slot j, h.slot j]
  noDeadline j hj := h'.noDeadline j (h.noDeadline j hj)
  shelf := by rw [h'.shelf, h.shelf]; rfl
  shelf_ne l hl := (h'.shelf_ne l hl).trans (h.shelf_ne l hl)
  work := h.work.trans h'.work
  bins := h'.bins.trans h.bins
  changed := h.changed.trans h'.changed
  flagSet c bit hs := h'.flagSet c bit (h.flagSet c bit hs)

theorem of_bus {k : Shelf} {s t : State} (h : BusOnly k s t) (hw : WorkWithin k s t) : AttachOnly k s t where
  slot j := by rw [h.slot]
  noDeadline j hj := by rw [h.slot]; exact hj
  shelf := by rw [h.shelf]; rfl
  shelf_ne _ hl := h.shelf_ne hl
  work := hw
  bins := h.bins
  changed := h.changed
  flagSet c bit hs := (flagSet_congr h.flags c bit).trans hs

/-- A change of the shelf's node map, pass and lists of the ATTACH class. -/
theorem of_modShelf {k : Shelf} {s : State} {f : ShelfRec → ShelfRec}
    (h : f (s.shelf k) = (s.shelf k).withAttach (f (s.shelf k))) (hw : (f (s.shelf k)).work = (s.shelf k).work) :
    AttachOnly k s (s.modShelf k f) where
  slot _ := rfl
  noDeadline _ hj := hj
  shelf := by rw [State.modShelf_shelf]; exact h
  shelf_ne _ hl := State.modShelf_shelf_ne s hl f
  work := .of_eq (by rw [State.modShelf_shelf, hw])
  bins := rfl
  changed := .shelves _ (.refl s)
  flagSet _ _ hs := hs

theorem of_raise (k : Shelf) (l : Shelf) (f : ShelfFlag) (s : State) : AttachOnly k s (raiseShelf l f s) where
  slot j := by simp
  noDeadline j hj := by simpa using hj
  shelf := by simp; rfl
  shelf_ne _ _ := by simp
  work := .of_eq (by simp)
  bins := by simp
  changed := .raiseShelf l f (.refl s)
  flagSet _ _ hs := flagSet_setFlagBit_of hs _ _

theorem of_deadline (k : Shelf) (i : Slot) (f : SlotRec → Option Deadline) (hf : ∀ r, r.deadline = none → f r = none)
    (s : State) : AttachOnly k s (s.modSlot i fun r => { r with deadline := f r }) where
  noDeadline j hj := by
    rw [State.modSlot_slot_if]
    split
    · next h => subst h; exact hf _ hj
    · exact hj
  slot j := by
    rw [State.modSlot_slot_if]
    split
    · next h => subst h; rfl
    · rfl
  shelf := rfl
  shelf_ne _ _ := rfl
  work := .refl k s
  bins := rfl
  changed := .slots _ (.refl s)
  flagSet _ _ hs := hs

theorem foldl {α : Type} {k : Shelf} {f : State → α → State} (hf : ∀ s a, AttachOnly k s (f s a)) (l : List α) (s : State) :
    AttachOnly k s (l.foldl f s) := by
  induction l generalizing s with
  | nil => exact .refl k s
  | cons a l ih => exact (hf s a).trans (ih _)

end AttachOnly

theorem setNode_attachOnly (k : Shelf) (n : NodeIx) (e : NodeEntry) (s : State) : AttachOnly k s (setNode k n e s) :=
  .of_modShelf rfl rfl

theorem setPass_attachOnly (k : Shelf) (p : Pass) (s : State) : AttachOnly k s (setPass k p s) := .of_modShelf rfl rfl

theorem submitAttach_attachOnly (k : Shelf) (cmd : BusCmd) (s : State) : AttachOnly k s (submitAttach k cmd s) :=
  .of_bus (submitAttach_busOnly ..) (submitAttach_workWithin _ _ _)

theorem mapDeadlines_attachOnly (k : Shelf) (f : Deadline → Deadline) (s : State) : AttachOnly k s (mapDeadlines k f s) :=
  AttachOnly.foldl (fun s i => .of_deadline k i (fun r => r.deadline.map f) (by simp +contextual) s) _ s

theorem syncKey_attachOnly (k : Shelf) (s : State) : AttachOnly k s (syncKey k s) := by
  unfold syncKey
  split
  · exact (mapDeadlines_attachOnly ..).trans (.of_raise ..)
  · exact mapDeadlines_attachOnly ..

theorem openRound_attachOnly (k : Shelf) (s : State) : AttachOnly k s (openRound k s) :=
  (((setPass_attachOnly ..).trans (AttachOnly.foldl (fun s n => submitAttach_attachOnly k (.release n) s) _ _)).trans
    (submitAttach_attachOnly ..)).trans (submitAttach_attachOnly ..)

theorem nextRound_attachOnly (k : Shelf) (s : State) : AttachOnly k s (nextRound k s) := by
  unfold nextRound
  split
  · exact setPass_attachOnly ..
  · split
    · exact setPass_attachOnly ..
    · exact openRound_attachOnly ..

theorem giveUp_attachOnly (k : Shelf) (n : NodeIx) (s : State) : AttachOnly k s (giveUp k n s) := by
  unfold giveUp
  split
  · exact setNode_attachOnly ..
  · exact (setNode_attachOnly ..).trans (submitAttach_attachOnly ..)

theorem orphan_attachOnly (k : Shelf) (p : Item → Bool) (s : State) : AttachOnly k s (orphan k p s) :=
  .of_bus (orphan_busOnly ..) (orphan_workWithin _ _ _)

theorem stopPass_attachOnly (k : Shelf) (s : State) : AttachOnly k s (stopPass k s) := by
  have hs : AttachOnly k s (setPass k .idle (orphan k isPassItem (s.modShelf k fun sh =>
      { sh with attachList := sh.attachList.filter fun it => !isPassItem it }))) :=
    ((AttachOnly.of_modShelf rfl rfl).trans (orphan_attachOnly ..)).trans (setPass_attachOnly ..)
  unfold stopPass
  dsimp only
  split
  · exact hs.trans (giveUp_attachOnly ..)
  · exact hs.trans (giveUp_attachOnly ..)
  · exact hs.trans (giveUp_attachOnly ..)
  · exact hs

/-- A slot of the attaching set leaves it with its deadline gone, and the pass follows (R77, R91). -/
theorem leaveSet_after {i : Slot} {s : State} (h : (s.slot i).deadline.isSome) :
    AttachOnly (shelfOf i) (s.modSlot i fun r => { r with deadline := none }) (leaveSet i s) := by
  unfold leaveSet
  have hne : (s.slot i).deadline.isNone = false := by simpa using h
  simp only [hne, Bool.false_eq_true, if_false]
  have hd := syncKey_attachOnly (shelfOf i) (s.modSlot i fun r => { r with deadline := none })
  generalize syncKey (shelfOf i) _ = u at hd ⊢
  have hn := hd.trans (AttachOnly.of_modShelf (f := fun sh => { sh with pass := noteLeft i sh.pass }) rfl rfl)
  generalize (u.modShelf (shelfOf i) fun sh => { sh with pass := noteLeft i sh.pass }) = v at hn ⊢
  cases bindingNode i (u.shelf (shelfOf i)).pass with
  | none =>
    dsimp only
    split
    · exact hn.trans (stopPass_attachOnly ..)
    · exact hn
  | some n =>
    have hb := hn.trans (setNode_attachOnly (shelfOf i) n .free v)
    dsimp only
    split
    · exact hb.trans (stopPass_attachOnly ..)
    · exact ((hb.trans (.of_modShelf rfl rfl)).trans (orphan_attachOnly ..)).trans (nextRound_attachOnly ..)

theorem leaveSet_attachOnly (i : Slot) (s : State) : AttachOnly (shelfOf i) s (leaveSet i s) := by
  cases h : (s.slot i).deadline with
  | none =>
    have hs : leaveSet i s = s := by simp [leaveSet, h]
    rw [hs]; exact .refl _ s
  | some d => exact (AttachOnly.of_deadline _ i (fun _ => none) (fun _ _ => rfl) s).trans (leaveSet_after (by simp [h]))

@[simp] theorem leaveSet_deadline (i : Slot) (s : State) : ((leaveSet i s).slot i).deadline = none := by
  cases h : (s.slot i).deadline with
  | none => exact (leaveSet_attachOnly i s).noDeadline i h
  | some d => exact (leaveSet_after (by simp [h])).noDeadline i (by simp)

theorem freeUnheld_attachOnly (k : Shelf) (s : State) : AttachOnly k s (freeUnheld k s) := by
  unfold freeUnheld
  split
  · exact .of_modShelf rfl rfl
  · exact .refl k s

section
variable {k : Shelf} {s t : State} (h : AttachOnly k s t)
include h
theorem AttachOnly.now : t.now = s.now := h.changed.now_eq
theorem AttachOnly.queue (l : Shelf) : (t.shelf l).queue = (s.shelf l).queue := by
  by_cases hl : l = k
  · subst hl; rw [h.shelf]; rfl
  · rw [h.shelf_ne l hl]
theorem AttachOnly.hasEntry (i : Slot) (kind : EntryKind) : hasEntry t i kind = hasEntry s i kind :=
  hasEntry_congr (h.queue _) kind
theorem AttachOnly.enabled (l : Shelf) : (t.shelf l).enabled = (s.shelf l).enabled := by
  by_cases hl : l = k
  · subst hl; rw [h.shelf]; rfl
  · rw [h.shelf_ne l hl]
end

/-! ## Rounds, pauses and nodes given up -/

/-- A round begins with the pass at its contest and items on the bus (R80). -/
theorem openRound_busOnly (k : Shelf) (s : State) : BusOnly k (setPass k (.round .contest) s) (openRound k s) := by
  have hfold : ∀ (l : List NodeIx) (u : State), BusOnly k u (l.foldl (fun s n => submitAttach k (.release n) s) u) := by
    intro l
    induction l with
    | nil => exact fun u => .refl k u
    | cons n l ih => exact fun u => (submitAttach_busOnly ..).trans (ih _)
  exact ((hfold _ _).trans (submitAttach_busOnly ..)).trans (submitAttach_busOnly ..)

@[simp] theorem setPass_shelf (k : Shelf) (p : Pass) (s : State) : (setPass k p s).shelf k = { s.shelf k with pass := p } := by
  simp [setPass]

@[simp] theorem setNode_shelf (k : Shelf) (n : NodeIx) (e : NodeEntry) (s : State) :
    (setNode k n e s).shelf k = { s.shelf k with nodes := (s.shelf k).nodes.set n e } := by simp [setNode]

/-- The pass that follows a round or a pause (R79). -/
def passNext (s : State) (k : Shelf) : Pass :=
  if attachSet s k = [] then .idle else if s.wakePattern = [] then .keyWait else .round .contest

/-- What follows a round's end changes the pass and the bus (R79). -/
theorem nextRound_busOnly (k : Shelf) (s : State) : BusOnly k (setPass k (passNext s k) s) (nextRound k s) := by
  unfold nextRound passNext
  simp only [List.isEmpty_iff]
  split
  · exact .refl k _
  · split
    · exact .refl k _
    · exact openRound_busOnly k s

section
variable (k : Shelf) (s : State)
@[simp] theorem nextRound_slots : (nextRound k s).slots = s.slots := (nextRound_busOnly k s).slots
@[simp] theorem nextRound_slot (i : Slot) : (nextRound k s).slot i = s.slot i := by simp [State.slot]
@[simp] theorem nextRound_flags : (nextRound k s).flags = s.flags := (nextRound_busOnly k s).flags
@[simp] theorem nextRound_nodes : ((nextRound k s).shelf k).nodes = (s.shelf k).nodes := by
  rw [(nextRound_busOnly k s).nodes]; simp
@[simp] theorem nextRound_pass : ((nextRound k s).shelf k).pass = passNext s k := by
  rw [(nextRound_busOnly k s).pass]; simp
end

/-- A node is given up while the shelf has power: it stands CANDIDATE with its RELEASE submitted (R87; log 25). -/
theorem giveUp_busOnly {k : Shelf} {s : State} (n : NodeIx) (h : allOff s k = false) :
    BusOnly k (setNode k n .candidate s) (giveUp k n s) := by
  simp only [giveUp, h, Bool.false_eq_true, if_false]
  exact submitAttach_busOnly ..

/-- An item of the ATTACH list is there or in flight once the arbiter may have chosen. -/
theorem kick_attachPending {k : Shelf} {s : State} {cmd : BusCmd} (h : AttachPending s k cmd) :
    AttachPending (kick k s) k cmd := by
  unfold kick
  split
  · next hf =>
    rcases h with ⟨it, hit, hc⟩ | h
    · cases hl : (s.shelf k).attachList with
      | nil => simp [hl] at hit
      | cons x rest =>
        have ht : takeAttach k s = some (launch k x (s.modShelf k fun sh => { sh with attachList := rest })) := by
          simp [takeAttach, hl]
        have hch : choose k s = launch k x (s.modShelf k fun sh => { sh with attachList := rest }) := by
          simp [choose, ht]
        rw [hch]
        rcases List.mem_cons.1 (hl ▸ hit) with rfl | hit
        · exact .inr (by simp [launch, flightIs, inFlight, hc])
        · exact .inl ⟨it, by simpa [launch] using hit, hc⟩
    · simp [flightIs, hf, inFlight] at h
  · exact h

/-- A submission leaves what is pending pending (R53). -/
theorem submitAttach_attachPending {k : Shelf} {s : State} {cmd : BusCmd} (h : AttachPending s k cmd) (c : BusCmd) :
    AttachPending (submitAttach k c s) k cmd := by
  refine kick_attachPending ?_
  rcases h with ⟨it, hit, hc⟩ | h
  · exact .inl ⟨it, by simp [hit], hc⟩
  · exact .inr (by simpa using h)

/-- What is submitted is pending or in flight. -/
theorem submitAttach_pending (k : Shelf) (cmd : BusCmd) (s : State) : AttachPending (submitAttach k cmd s) k cmd :=
  kick_attachPending (.inl ⟨{ shelf := k, slot := none, cmd := cmd, owner := .attachUnit }, by simp, rfl⟩)

theorem AttachPending.congr {k : Shelf} {s t : State} {cmd : BusCmd} (h : AttachPending s k cmd)
    (hl : (t.shelf k).attachList = (s.shelf k).attachList) (hp : (t.shelf k).phase = (s.shelf k).phase) :
    AttachPending t k cmd := by
  unfold AttachPending at h ⊢
  rwa [hl, hp]

theorem nextRound_attachPending {k : Shelf} {s : State} {cmd : BusCmd} (h : AttachPending s k cmd) :
    AttachPending (nextRound k s) k cmd := by
  have hp : ∀ p, AttachPending (setPass k p s) k cmd := fun p => h.congr (by simp) (by simp)
  have hfold : ∀ (l : List NodeIx) (u : State), AttachPending u k cmd →
      AttachPending (l.foldl (fun s n => submitAttach k (.release n) s) u) k cmd := by
    intro l
    induction l with
    | nil => exact fun u hu => hu
    | cons n l ih => exact fun u hu => ih _ (submitAttach_attachPending hu _)
  unfold nextRound
  split
  · exact hp _
  · split
    · exact hp _
    · exact submitAttach_attachPending (submitAttach_attachPending (hfold _ _ (hp _)) _) _

theorem giveUp_attachPending {k : Shelf} {s : State} (n : NodeIx) (h : allOff s k = false) :
    AttachPending (giveUp k n s) k (.release n) := by
  simp only [giveUp, h, Bool.false_eq_true, if_false]
  exact submitAttach_pending ..

end Sys2Proof.Machine
end

