-- ==== Sys2Proof/Proofs/LatchSafe.lean ====
section
/-! SUPPORT. A latch is energized only while its slot's switch is off (R18): the operations that change a class, a latch or
a wait queue keep it, and so does every step. -/

namespace Sys2Proof.Machine

/-! ## What keeps the latches safe -/

/-- A change that energizes no latch, switches no slot with an energized latch on, and lets entries into a wait queue only
for slots of the shelf whose latch is locked. -/
theorem LatchSafe.of_change {s t : State} (h : LatchSafe s)
    (hslot : ∀ i, (t.slot i).unlocked = true → (s.slot i).unlocked = true ∧ ((s.slot i).cls = .off → (t.slot i).cls = .off))
    (hqueue : ∀ k, ∀ e ∈ (t.shelf k).queue,
      e ∈ (s.shelf k).queue ∨ (shelfOf e.slot = k ∧ (s.slot e.slot).unlocked = false)) : LatchSafe t := by
  obtain ⟨hown, hlatch⟩ := h
  refine ⟨fun k e he => ?_, fun i hi => ?_⟩
  · rcases hqueue k e he with h | h
    · exact hown k e h
    · exact h.1
  · obtain ⟨hu, hc⟩ := hslot i hi
    obtain ⟨hoff, hq⟩ := hlatch i hu
    refine ⟨hc hoff, fun e he heq => ?_⟩
    rcases hqueue _ e he with h | h
    · exact hq e h heq
    · simp [← heq, h.2] at hu

/-- A change of one slot that energizes no latch and switches an unlatched slot only. -/
theorem LatchSafe.modSlot {s : State} (h : LatchSafe s) (i : Slot) (f : SlotRec → SlotRec)
    (hf : (f (s.slot i)).unlocked = true →
      (s.slot i).unlocked = true ∧ ((s.slot i).cls = .off → (f (s.slot i)).cls = .off)) :
    LatchSafe (s.modSlot i f) := by
  refine h.of_change (fun j hj => ?_) (fun k e he => .inl he)
  rw [State.modSlot_slot_if] at hj ⊢
  split at hj
  · next hji => subst hji; simpa using hf hj
  · next hji => simpa [hji] using hj

/-- A change of one shelf that lets entries in for slots of the shelf whose latch is locked. -/
theorem LatchSafe.modShelf {s : State} (h : LatchSafe s) (k : Shelf) (f : ShelfRec → ShelfRec)
    (hf : ∀ e ∈ (f (s.shelf k)).queue,
      e ∈ (s.shelf k).queue ∨ (shelfOf e.slot = k ∧ (s.slot e.slot).unlocked = false)) :
    LatchSafe (s.modShelf k f) := by
  refine h.of_change (fun j hj => ⟨hj, id⟩) (fun l e he => ?_)
  rw [State.modShelf_shelf_if] at he
  split at he
  · next hl => subst hl; exact hf e he
  · exact .inl he

/-- A change of anything but slots and shelves. -/
theorem LatchSafe.same {s t : State} (h : LatchSafe s) (hs : t.slots = s.slots) (hk : t.shelves = s.shelves) :
    LatchSafe t := by
  have hslot : t.slot = s.slot := by funext i; simp [State.slot, hs]
  have hshelf : t.shelf = s.shelf := by funext k; simp [State.shelf, hk]
  unfold LatchSafe
  rw [hslot, hshelf]
  exact h

theorem LatchSafe.modBin {s : State} (h : LatchSafe s) (b : BinIx) (f : Bin → Bin) : LatchSafe (s.modBin b f) :=
  h.same rfl rfl

/-- A slot that is switched on is latched, and so is one that waits for power. -/
theorem LatchSafe.locked_of_on {s : State} (h : LatchSafe s) {i : Slot} (hc : (s.slot i).cls ≠ .off) :
    (s.slot i).unlocked = false := by
  by_contra hu
  exact hc (h.2 i (by simpa using hu)).1

theorem LatchSafe.locked_of_entry {s : State} (h : LatchSafe s) {k : Shelf} {e : QueueEntry} (he : e ∈ (s.shelf k).queue) :
    (s.slot e.slot).unlocked = false := by
  by_contra hu
  have hk := h.1 k e he
  exact (h.2 e.slot (by simpa using hu)).2 e (hk ▸ he) rfl

theorem LatchSafe.setQueue {s : State} (h : LatchSafe s) (k : Shelf) (q : List QueueEntry)
    (hq : ∀ e ∈ q, e ∈ (s.shelf k).queue ∨ (shelfOf e.slot = k ∧ (s.slot e.slot).unlocked = false)) :
    LatchSafe (setQueue k q s) :=
  h.modShelf k _ hq

/-- An entry placed for a slot of the shelf whose latch is locked. -/
theorem LatchSafe.place {s : State} (h : LatchSafe s) (e : QueueEntry) (hu : (s.slot e.slot).unlocked = false) :
    LatchSafe (Sys2Proof.Machine.setQueue (shelfOf e.slot) (placeRequest e (s.shelf (shelfOf e.slot)).queue) s) := by
  refine h.setQueue _ _ fun x hx => ?_
  unfold placeRequest at hx
  split at hx
  · obtain ⟨y, hy, rfl⟩ := List.mem_map.1 hx
    split
    · exact .inr ⟨rfl, hu⟩
    · exact .inl hy
  · rcases List.mem_append.1 hx with hx | hx
    · exact .inl hx
    · obtain rfl := List.mem_singleton.1 hx
      exact .inr ⟨rfl, hu⟩

theorem LatchSafe.withoutSlot {s : State} (h : LatchSafe s) (k : Shelf) (i : Slot) :
    LatchSafe (Sys2Proof.Machine.setQueue k (withoutSlot i (s.shelf k).queue) s) :=
  h.setQueue _ _ fun _ he => .inl (List.mem_of_mem_filter he)

/-! ## Changes of occupancy and flags -/

theorem raise_latchSafe {s : State} (c : Scope) (bit : Nat) (h : LatchSafe s) : LatchSafe (setFlagBit c bit s) :=
  h.same (by rw [setFlagBit_frame]) (by rw [setFlagBit_frame])

theorem setOcc_latchSafe {s : State} (i : Slot) (o : Occupancy) (h : LatchSafe s) : LatchSafe (setOcc i o s) := by
  refine h.of_change (fun j hj => ?_) (fun k e he => .inl (by simpa using he))
  rw [setOcc_slot_if] at hj ⊢
  split at hj
  · next hji => subst hji; simpa using hj
  · next hji => simpa [hji] using hj

/-! ## Grants and requests -/

/-- A grant to a slot whose latch is locked. -/
theorem grant_latchSafe {s : State} {e : QueueEntry} (h : LatchSafe s) (he : (s.slot e.slot).unlocked = false) :
    LatchSafe (grant e s) := by
  obtain ⟨f, hf, hrec⟩ := grant_eq e s
  rw [hf]
  refine h.modSlot _ _ fun hu => ?_
  rcases hrec with ⟨rank, boot, -, hf⟩ | ⟨rank, window, -, hf⟩ <;> rw [hf] at hu
  · simp [he] at hu
  · simp [SlotRec.spunUp, he] at hu

theorem examineTimes_latchSafe {s : State} (n : Nat) (k : Shelf) (h : LatchSafe s) : LatchSafe (examineTimes n k s) := by
  induction n generalizing s with
  | zero => exact h
  | succ n ih =>
    unfold examineTimes
    split
    · next e rest hq =>
      split
      · have hrest := h.setQueue k rest fun x hx => .inl (by rw [hq]; exact List.mem_cons_of_mem _ hx)
        exact ih (grant_latchSafe hrest (h.locked_of_entry (k := k) (by simp [hq])))
      · exact h
    · exact h

theorem examine_latchSafe {s : State} (k : Shelf) (h : LatchSafe s) : LatchSafe (examine k s) :=
  examineTimes_latchSafe _ k h

theorem requestPower_latchSafe {s : State} (i : Slot) (by_ : Requester) (h : LatchSafe s) :
    LatchSafe (requestPower i by_ s) := by
  unfold requestPower
  refine ite_keeps (ite_keeps (h.modSlot i _ fun hu => ⟨hu, id⟩) h) ?_
  split
  · exact h
  · next hr =>
    have hu : (s.slot i).unlocked = false := by simp [released] at hr; exact hr.2.2
    have hq := (h.place { slot := i, kind := .power, requester := by_ } hu).modSlot i
      (fun r => { r with adm := .queued }) fun hu => ⟨hu, id⟩
    exact ite_keeps h (examine_latchSafe _ (ite_keeps hq (setOcc_latchSafe _ _ hq)))

theorem requestSpin_latchSafe {s : State} (i : Slot) (h : LatchSafe s) : LatchSafe (requestSpin i s).1 := by
  unfold requestSpin
  split
  · exact h
  · next hc =>
    exact examine_latchSafe _ (h.place { slot := i, kind := .spin, requester := .planRunner }
      (h.locked_of_on (by simp [hc])))
  · exact h.modSlot i _ fun hu => ⟨hu, id⟩
  · exact h

theorem withdrawEntry_latchSafe {s : State} (i : Slot) (kind : EntryKind) (h : LatchSafe s) :
    LatchSafe (withdrawEntry i kind s) := by
  have hq := h.withoutSlot (shelfOf i) i
  exact ite_keeps (examine_latchSafe _ (ite_keeps (hq.modSlot i _ fun hu => ⟨hu, id⟩) hq)) h

/-- A powered slot returns to the idle draw. -/
theorem toIdle_latchSafe {s : State} {i : Slot} (h : LatchSafe s) (hc : (s.slot i).cls ≠ .off) : LatchSafe (toIdle i s) :=
  h.modSlot i _ fun hu => absurd hu (by simp [h.locked_of_on hc])

theorem spinDown_latchSafe {s : State} (i : Slot) (h : LatchSafe s) : LatchSafe (spinDown i s) := by
  unfold spinDown
  refine withdrawEntry_latchSafe _ _ ?_
  split
  · next hc => exact examine_latchSafe _ (toIdle_latchSafe h (by simp [hc]))
  · next hc => exact examine_latchSafe _ (toIdle_latchSafe h (by simp [hc]))
  · exact h

theorem cutPower_latchSafe {s : State} (i : Slot) (h : LatchSafe s) : LatchSafe (cutPower i s) :=
  (h.modSlot i _ fun hu => ⟨hu, fun _ => rfl⟩).withoutSlot _ _

theorem motorReport_latchSafe {s : State} (i : Slot) (motor : Motor) (h : LatchSafe s) :
    LatchSafe (motorReport i motor s).1 := by
  unfold motorReport
  dsimp only
  split
  · next hc => exact h.modSlot i _ fun hu => absurd hu (by simp [h.locked_of_on (i := i) (by simp [hc.1])])
  · exact h

theorem windowExpired_latchSafe {s : State} (i : Slot) (h : LatchSafe s) : LatchSafe (windowExpired i s).1 := by
  unfold windowExpired
  dsimp only
  split
  · next hc => exact toIdle_latchSafe h (by simp [hc])
  · exact h

/-- The latch is energized only where the switch is off and nothing waits (R18). -/
theorem unlockLatch_latchSafe {s : State} (i : Slot) (h : LatchSafe s) : LatchSafe (unlockLatch i s) := by
  unfold unlockLatch
  split
  · next hc =>
    obtain ⟨hoff, hq⟩ := hc
    refine ⟨h.1, fun j hj => ?_⟩
    rw [State.modSlot_slot_if] at hj ⊢
    split at hj
    · next hji => subst hji; exact ⟨by simpa using hoff, queued_eq_false.1 hq⟩
    · next hji => simpa [hji] using h.2 j hj
  · exact h

theorem lockLatch_latchSafe {s : State} (i : Slot) (h : LatchSafe s) : LatchSafe (lockLatch i s) :=
  h.modSlot i _ fun hu => by simp at hu

/-! ## Shedding and the disable of a shelf -/

/-- A slot owes a request to the shelf it stands on, and its latch is locked, since it was switched on. -/
def OwedLocked (k : Shelf) (x : State × List Owed) : Prop :=
  LatchSafe x.1 ∧ ∀ o ∈ x.2, shelfOf o.slot = k ∧ (x.1.slot o.slot).unlocked = false

/-- The slot that a stage takes is one of the shelf with the property asked for. -/
theorem latest_some {s : State} {k : Shelf} {rank : SlotRec → Option Nat} {p : SlotRec → Bool} {i : Slot}
    (h : latest s k rank p = some i) : shelfOf i = k ∧ p (s.slot i) = true := by
  unfold latest at h
  suffices H : ∀ (l : List Slot) (best : Option Slot), (∀ j ∈ l, shelfOf j = k) →
      (∀ j, best = some j → shelfOf j = k ∧ p (s.slot j) = true) →
      ∀ j, l.foldl (fun best i =>
        if p (s.slot i) then
          match best with
          | none => some i
          | some j => if (rank (s.slot j)).getD 0 < (rank (s.slot i)).getD 0 then some i else best
        else best) best = some j → shelfOf j = k ∧ p (s.slot j) = true from
    H _ none (fun j hj => mem_slotsOf.1 hj) (by simp) i h
  intro l
  induction l with
  | nil => exact fun best _ hb j hj => hb j hj
  | cons a l ih =>
    intro best hl hb j hj
    refine ih _ (fun x hx => hl x (List.mem_cons_of_mem _ hx)) (fun x hx => ?_) j hj
    have ha := hl a (by simp)
    dsimp only at hx
    split at hx
    · next hp =>
      split at hx
      · cases hx; exact ⟨ha, hp⟩
      · split at hx
        · cases hx; exact ⟨ha, hp⟩
        · exact hb x hx
    · exact hb x hx

theorem shedMotors_owedLocked {x : State × List Owed} (n : Nat) {k : Shelf} {c : PowerClass} (hc : c ≠ .off)
    (h : OwedLocked k x) : OwedLocked k (shedMotors n k c x) := by
  induction n generalizing x with
  | zero => exact h
  | succ n ih =>
    unfold shedMotors
    split
    · exact h
    · split
      · exact h
      · next i hi =>
        obtain ⟨hk, hcls⟩ := latest_some hi
        have hon : (x.1.slot i).cls ≠ .off := by simpa [of_decide_eq_true hcls] using hc
        refine ih ⟨toIdle_latchSafe h.1 hon, fun o ho => ?_⟩
        have hlocked : ∀ j, (x.1.slot j).unlocked = false → ((toIdle i x.1).slot j).unlocked = false := by
          intro j hj
          unfold toIdle
          rw [State.modSlot_slot_if]
          split
          · next hji => subst hji; exact hj
          · exact hj
        rcases List.mem_append.1 ho with ho | ho
        · exact ⟨(h.2 o ho).1, hlocked _ (h.2 o ho).2⟩
        · obtain rfl := List.mem_singleton.1 ho
          exact ⟨hk, hlocked _ (h.1.locked_of_on hon)⟩

theorem shedPower_owedLocked {x : State × List Owed} (n : Nat) {k : Shelf} (h : OwedLocked k x) :
    OwedLocked k (shedPower n k x) := by
  induction n generalizing x with
  | zero => exact h
  | succ n ih =>
    unfold shedPower
    split
    · exact h
    · split
      · exact h
      · next i hi =>
        obtain ⟨hk, hcls⟩ := latest_some hi
        refine ih ⟨cutPower_latchSafe i h.1, fun o ho => ?_⟩
        have hlocked : ∀ j, (x.1.slot j).unlocked = false → ((cutPower i x.1).slot j).unlocked = false := by
          intro j hj
          unfold cutPower
          rw [setQueue_slot, State.modSlot_slot_if]
          split
          · next hji => subst hji; exact hj
          · exact hj
        rcases List.mem_append.1 ho with ho | ho
        · have ho := h.2 o (List.mem_of_mem_filter ho)
          exact ⟨ho.1, hlocked _ ho.2⟩
        · obtain rfl := List.mem_singleton.1 ho
          exact ⟨hk, hlocked _ (h.1.locked_of_on (of_decide_eq_true hcls))⟩

theorem shedStages_owedLocked {s : State} (k : Shelf) (h : LatchSafe s) : OwedLocked k (shedStages k s) := by
  have h0 : OwedLocked k (s, []) := ⟨h, by simp⟩
  unfold shedStages
  dsimp only
  refine shedPower_owedLocked 8 ?_
  have h1 : OwedLocked k (if (s.shelf k).idleDraw < (s.shelf k).inrushDraw then shedMotors 8 k .inrush (s, []) else (s, [])) := by
    split
    · exact shedMotors_owedLocked 8 (by decide) h0
    · exact h0
  split
  · exact shedMotors_owedLocked 8 (by decide) h1
  · exact h1

theorem owePower_latchSafe {s : State} (o : Owed) (h : LatchSafe s) : LatchSafe (owePower o s) := by
  unfold owePower
  have hq := h.modSlot o.slot (fun r => { r with adm := .queued }) fun hu => ⟨hu, id⟩
  exact ite_keeps (ite_keeps hq (setOcc_latchSafe _ _ hq)) h

theorem mem_insertOwed {o x : Owed} {l : List Owed} (h : x ∈ insertOwed o l) : x = o ∨ x ∈ l := by
  induction l with
  | nil => simpa [insertOwed] using h
  | cons a l ih =>
    unfold insertOwed at h
    split at h
    · simpa using h
    · rcases List.mem_cons.1 h with rfl | h
      · simp
      · rcases ih h with rfl | h <;> simp [*]

/-- The owed requests in the order of their ranks are those owed. -/
theorem mem_foldl_insertOwed {l acc : List Owed} {x : Owed} (h : x ∈ l.foldl (fun l o => insertOwed o l) acc) :
    x ∈ l ∨ x ∈ acc := by
  induction l generalizing acc with
  | nil => exact .inr h
  | cons a l ih =>
    rcases ih h with h | h
    · exact .inl (List.mem_cons_of_mem _ h)
    · rcases mem_insertOwed h with rfl | h
      · simp
      · exact .inr h

theorem placeOwed_latchSafe {k : Shelf} {x : State × List Owed} (h : OwedLocked k x) :
    LatchSafe (placeOwed k x.2 x.1) := by
  refine foldl_keeps (fun _ _ h => owePower_latchSafe _ h) _ (h.1.setQueue k _ fun e he => ?_)
  rcases List.mem_append.1 he with he | he
  · obtain ⟨o, ho, rfl⟩ := List.mem_map.1 he
    have ho : o ∈ x.2 := by
      rcases mem_foldl_insertOwed ho with ho | ho
      · exact List.mem_of_mem_filter ho
      · simp at ho
    obtain ⟨hk, hu⟩ := h.2 o ho
    have hslot : (owedEntry x.1 o).slot = o.slot := by unfold owedEntry; split <;> rfl
    exact .inr (by rw [hslot]; exact ⟨hk, hu⟩)
  · exact .inl (List.mem_of_mem_filter he)

theorem shed_latchSafe {s : State} (k : Shelf) (h : LatchSafe s) : LatchSafe (shed k s).1 := by
  have hs := shedStages_owedLocked k h
  unfold shed
  generalize shedStages k s = x at hs ⊢
  split
  · exact placeOwed_latchSafe hs
  · exact h

theorem limitChanged_latchSafe {s : State} (k : Shelf) (h : LatchSafe s) : LatchSafe (limitChanged k s).1 :=
  ite_fst_keeps (shed_latchSafe k h) (examine_latchSafe k h)

theorem clearQueue_latchSafe {s : State} (k : Shelf) (h : LatchSafe s) : LatchSafe (clearQueue k s) := by
  refine LatchSafe.setQueue ?_ k [] (by simp)
  exact foldl_keeps (fun _ _ h => ite_keeps (h.modSlot _ _ fun hu => ⟨hu, id⟩) h) _ h

theorem disableShelf_latchSafe {s : State} (k : Shelf) (h : LatchSafe s) : LatchSafe (disableShelf k s).1 :=
  clearQueue_latchSafe k (foldl_keeps (fun _ _ h => cutPower_latchSafe _ h) _ h)

/-- A change of a shelf's record that leaves its wait queue alone. -/
theorem LatchSafe.sameQueue {s : State} (h : LatchSafe s) (k : Shelf) (f : ShelfRec → ShelfRec)
    (hf : ∀ sh, (f sh).queue = sh.queue) : LatchSafe (s.modShelf k f) :=
  h.modShelf k f fun e he => .inl (by rwa [hf] at he)

theorem handleShelfSet_latchSafe {s : State} (p : List Byte) (h : LatchSafe s) : (handleShelfSet p s).Keeps LatchSafe := by
  refine withLength_stays (withShelf_stays fun k => ?_)
  have hr : LatchSafe (replaceShelf k p s) := h.sameQueue k _ fun _ => rfl
  split
  · dsimp only
    split
    · exact disableShelf_latchSafe k hr
    · split
      · exact hr
      · exact shed_latchSafe k hr
  · trivial

theorem supplySettles_latchSafe {s : State} (k : Shelf) (line : SupplyLine) (h : LatchSafe s) :
    LatchSafe (supplySettles k line s).1 := by
  have hl := h.sameQueue k (supplyLevel line) fun _ => by cases line <;> rfl
  unfold supplySettles
  have hi := ite_keeps (c := ((((s.modShelf k (supplyLevel line)).shelf k).lineA && ((s.modShelf k (supplyLevel line)).shelf k).lineB) &&
    !((s.shelf k).lineA && (s.shelf k).lineB)) = true) (raise_latchSafe (shelfScope k) (shelfFlagBit .supplyIllegal) hl) hl
  have hc := ite_keeps (c := supplyStatus ((s.modShelf k (supplyLevel line)).shelf k) = supplyStatus (s.shelf k)) hi
    (raise_latchSafe (shelfScope k) (shelfFlagBit .supplyChange) hi)
  exact ite_fst_keeps hc (limitChanged_latchSafe k hc)

/-! ## Reset, the passing of time, and every step -/

theorem resetOf_latchSafe (s : State) : LatchSafe (resetOf s) := by
  have hslot : ∀ i, (resetOf s).slot i = keepSlotPins (s.slot i) (State.reset.slot i) := fun i => by
    simp [resetOf, State.slot]
  have hshelf : ∀ k, (resetOf s).shelf k = keepShelfPins (s.shelf k) (State.reset.shelf k) := fun k => by
    simp [resetOf, State.shelf]
  refine ⟨fun k e he => ?_, fun i hi => ?_⟩
  · simp [hshelf, reset_shelf, keepShelfPins, ShelfRec.reset] at he
  · simp [hslot, reset_slot, keepSlotPins, SlotRec.reset] at hi

theorem tick_latchSafe {s : State} (h : LatchSafe s) : LatchSafe (tick s) := by
  refine h.of_change (fun i hi => ?_) (fun k e he => .inl ?_)
  · simpa [tick, State.slot] using hi
  · simpa [tick, State.shelf] using he

/-- The operations of the blocks keep the latches safe. -/
theorem latchSafe_loose : Loose LatchSafe where
  modSlot i f hf h := h.modSlot i f fun hu => by
    obtain ⟨⟨hcls, hlatch, -⟩, -⟩ := hf (State.slot _ i)
    exact ⟨hlatch ▸ hu, fun hc => hcls.trans hc⟩
  anySlot i f hf h := h.modSlot i f fun hu => by
    obtain ⟨hcls, hlatch, -⟩ := hf (State.slot _ i)
    exact ⟨hlatch ▸ hu, fun hc => hcls.trans hc⟩
  modShelf k f hf h := h.sameQueue k f fun sh => by
    obtain ⟨⟨-, -, -, -, -, -, -, hq⟩, -⟩ := hf sh
    exact hq
  anyShelf k f hf h := h.sameQueue k f fun sh => by
    obtain ⟨-, -, -, -, -, -, -, hq⟩ := hf sh
    exact hq
  holds _ _ h := h.same rfl rfl
  raiseSlot _ _ h := raise_latchSafe _ _ h
  raiseShelf _ _ h := raise_latchSafe _ _ h
  raiseController _ h := raise_latchSafe _ _ h
  examine k h := examine_latchSafe k h
  requestPower i by_ h := requestPower_latchSafe i by_ h
  requestSpin i h := requestSpin_latchSafe i h
  withdrawEntry i kind h := withdrawEntry_latchSafe i kind h
  spinDown i h := spinDown_latchSafe i h
  cutPower i h := cutPower_latchSafe i h
  motorReport i motor h := motorReport_latchSafe i motor h
  windowExpired i h := windowExpired_latchSafe i h
  unlockLatch i h := unlockLatch_latchSafe i h
  lockLatch i h := lockLatch_latchSafe i h
  insert i _ _ h := h.modSlot i _ fun hu => ⟨hu, id⟩
  emptySegment i h := h.modSlot i _ fun hu => ⟨hu, id⟩
  reserve i b _ h := by
    unfold reserve noteFull
    have hr := (h.same (t := State.modBin _ b fun bin => { bin with reserved := bin.reserved + 1 }) rfl rfl).modSlot i
      (fun r => { r with reservation := some b }) fun hu => ⟨hu, id⟩
    exact ite_keeps h (ite_keeps (raise_latchSafe _ _ hr) hr)
  releaseReservation i h := by
    unfold releaseReservation
    split
    · exact h
    · refine (h.modBin _ _).modSlot i _ fun hu => ?_
      exact ⟨hu, id⟩
  convertReservation i h := by
    unfold convertReservation
    split
    · exact h
    · refine (h.modBin _ _).modSlot i _ fun hu => ?_
      exact ⟨hu, id⟩

/-- So do the commands. -/
theorem latchSafe_held : Held LatchSafe where
  toKept := latchSafe_loose.kept
  same hs hk _ h := h.same hs hk
  shelfSet p h := handleShelfSet_latchSafe p h
  segmentSet p h := by
    refine withLength_stays (withSlot_stays fun i => ?_)
    dsimp only
    split
    · trivial
    · split
      · trivial
      · exact h.modSlot i _ fun hu => ⟨hu, id⟩
  binSet p h := by
    refine withLength_stays (withBin_stays fun b => ?_)
    have hb := h.same (t := State.modBin _ b fun bin => { bin with capacity := field8 p 1 }) rfl rfl
    dsimp only
    split
    · trivial
    · split
      · exact hb
      · split
        · exact ite_keeps (raise_latchSafe _ _ hb) hb
        · exact hb
  toteSwap p h := withLength_stays (withBin_stays fun _ => h.same rfl rfl)
  supplySettles k line h := supplySettles_latchSafe k line h
  joinSet i h := joinSet_keeps latchSafe_loose i h
  keyLoaded k h := keyLoaded_keeps latchSafe_loose k h
  nextRound k h := nextRound_keeps latchSafe_loose k h
  activityEdge i level h := activityEdge_keeps latchSafe_loose i level h
  closeWindow k n ident _ pulsing left _ h := closeWindow_keeps latchSafe_loose k n ident pulsing left h
  reset {s} _ := resetOf_latchSafe s
  tick h := tick_latchSafe h

/-- Settles O32: the latches are safe in the `Held` sense, so that every command and every duty of the part keeps them. -/
theorem stepsKeepLatchSafe : Obligations.StepsKeepLatchSafe :=
  fun _ _ h ht => step_stays latchSafe_held h ht

end Sys2Proof.Machine
end

