-- ==== Sys2Proof/Proofs/SlotRequests.lean ====
section
/-! SUPPORT. The state after reset; the presence and activity lines; enabling, arming, locating, retiring a slot, and
ATTN_ACK. -/

namespace Sys2Proof.Machine

/-! ## Reset (R24) -/

theorem resetOf_slot (s : State) (i : Slot) : (resetOf s).slot i = keepSlotPins (s.slot i) (SlotRec.reset i) := by
  rw [← reset_slot i]; simp [resetOf, State.slot]

theorem resetOf_shelf (s : State) (k : Shelf) : (resetOf s).shelf k = keepShelfPins (s.shelf k) ShelfRec.reset := by
  rw [← reset_shelf k]; simp [resetOf, State.shelf]

/-- Settles O2: RESET ends in `resetOf`, whose slots are reset records but for the input pins. -/
theorem resetEmptiesEverySlot : Obligations.ResetEmptiesEverySlot := by
  intro s
  refine ⟨resetOf s, rfl, fun i => ?_, fun c => ?_, fun k => ?_⟩
  · rw [resetOf_slot]
    exact ⟨⟨rfl, rfl, rfl, rfl, rfl⟩, ⟨rfl, rfl, rfl, rfl, rfl, rfl, rfl, rfl⟩, ⟨rfl, rfl, rfl, rfl, rfl⟩,
      rfl, rfl, rfl, rfl, rfl⟩
  · simp [resetOf, State.reset]
  · rw [resetOf_shelf]; rfl

theorem budgetSound_reset : BudgetSound State.reset := by
  intro k
  have hoff : ∀ i, commitment State.reset i = 0 := fun i => by simp [commitment, reset_slot, SlotRec.reset, drawOf]
  have hsum : committed State.reset k = 0 := by
    unfold committed
    rw [List.map_congr_left (fun i _ => hoff i)]
    simp
  refine ⟨?_, ?_, ?_, ?_⟩
  · rw [reset_shelf]; decide
  · simp [reset_shelf, ShelfRec.reset]
  · intro _ i _; rw [reset_slot]; rfl
  · rw [hsum]; exact Nat.zero_le _

theorem binsSound_reset : BinsSound State.reset := by
  intro b
  have hb : State.reset.bins[b] = Bin.reset := by simp [State.reset]
  have hf : (allSlots.filter fun i => decide ((State.reset.slot i).reservation = some b)) = [] := by
    simp [reset_slot, SlotRec.reset]
  rw [hb, hf]
  decide

theorem nodeMapSound_reset : NodeMapSound State.reset := by
  intro k
  refine ⟨?_, fun n i => ?_⟩
  · simp [PassSound, reset_shelf, ShelfRec.reset]
  · simp [reset_shelf, reset_slot, ShelfRec.reset, SlotRec.reset]

/-- The empty segments after reset lie one after the other, 256 places each (R146). -/
theorem segmentsSound_reset : SegmentsSound State.reset := by
  refine ⟨fun i => ?_, fun i j hij place => ?_⟩
  · have := i.isLt
    simp only [reset_slot, SlotRec.reset]
    refine ⟨⟨by simp [Segment.empty], by simp [Segment.empty]⟩, by simp [Segment.empty], ?_, ?_⟩
    · intro h; simp [Segment.empty, HeadCount.zero]
    · simp only [Segment.empty]; omega
  · have : i.val ≠ j.val := fun h => hij (Fin.ext h)
    simp only [reset_slot, SlotRec.reset, Segment.has, Segment.empty]
    omega

/-- Settles O4: each of the eight properties is read off the reset records. -/
theorem soundAtReset : Obligations.SoundAtReset := by
  refine ⟨budgetSound_reset, fun c => ?_, ?_, ?_, binsSound_reset, ?_, nodeMapSound_reset, segmentsSound_reset⟩
  · simp [State.reset]
  · simp [NoticesOnce, State.reset]
  · simp [QueuesFit, State.reset]
  · simp [LatchSafe, reset_slot, reset_shelf, SlotRec.reset, ShelfRec.reset]

/-! ## The lines (R11, R12, R85) -/

/-- What an activity edge makes of an open locate window (R85). -/
theorem edgeInWindow_window (i : Slot) (level : Bool) (now : Nat) (n : NodeIx) (ident : Identity) (opened : Nat)
    (pulsing left : List Slot) :
    ∃ pulsing', edgeInWindow i level now (.round (.window n ident opened pulsing left)) =
        .round (.window n ident opened pulsing' left) ∧
      (level = true → now - opened ≤ 100 → i ∈ pulsing') ∧
      (level = true → 100 < now - opened → pulsing' = pulsing) ∧
      (level = false → now - opened < 350 → i ∉ pulsing') ∧
      (level = false → 350 ≤ now - opened → pulsing' = pulsing) ∧
      ∀ j : Slot, j ≠ i → (j ∈ pulsing' ↔ j ∈ pulsing) := by
  cases level with
  | true =>
    by_cases hin : now - opened ≤ 100
    · by_cases hp : i ∈ pulsing
      · refine ⟨pulsing, ?_, fun _ _ => hp, fun _ _ => rfl, nofun, nofun, fun _ _ => Iff.rfl⟩
        simp [edgeInWindow, hasSlot, hp]
      · refine ⟨pulsing ++ [i], ?_, by simp, fun _ h => absurd hin (by omega), nofun, nofun, fun j hj => by simp [hj]⟩
        simp [edgeInWindow, hasSlot, hin, hp]
    · refine ⟨pulsing, ?_, fun _ h => absurd h hin, fun _ _ => rfl, nofun, nofun, fun _ _ => Iff.rfl⟩
      simp [edgeInWindow, hin]
  | false =>
    by_cases hin : now - opened < 350
    · refine ⟨pulsing.filter fun j => decide (j ≠ i), ?_, nofun, nofun, by simp, fun _ h => absurd hin (by omega),
        fun j hj => by simp [hj]⟩
      simp [edgeInWindow, hin]
    · refine ⟨pulsing, ?_, nofun, nofun, fun _ h => absurd h hin, fun _ _ => rfl, fun _ _ => Iff.rfl⟩
      simp [edgeInWindow, hin]

section
variable (i : Slot) (level : Bool) (s : State)
@[simp] theorem activityEdge_slot (j : Slot) : (activityEdge i level s).slot j = s.slot j := rfl
@[simp] theorem activityEdge_shelf : (activityEdge i level s).shelf (shelfOf i) =
    { s.shelf (shelfOf i) with pass := edgeInWindow i level s.now (s.shelf (shelfOf i)).pass } := by simp [activityEdge]
theorem activityEdge_shelf_ne {k : Shelf} (h : k ≠ shelfOf i) : (activityEdge i level s).shelf k = s.shelf k :=
  State.modShelf_shelf_ne s h _
end

/-- Settles O34, the window's edges by the branches of `edgeInWindow`. -/
theorem presenceAndActivityLines : Obligations.PresenceAndActivityLines := by
  refine ⟨fun i level s h => ?_, fun i level s h => ?_, fun i s ht hne => ?_⟩
  · exact if_neg h
  · exact if_neg h
  · have hexec : exec (.activityDebounceExpiry i) s = .next (activitySettles i s) := by
      show execActivityDebounceExpiry i s = _
      unfold execActivityDebounceExpiry
      rw [if_neg (by simpa [Option.isSome_iff_ne_none] using ht)]
    have hedge : activitySettles i s = activityEdge i (s.slot i).actRaw
        (s.modSlot i fun r => { r with actTimer := none, active := r.actRaw }) := if_neg hne
    rw [hedge] at hexec
    refine ⟨_, hexec, fun j hj => ?_, ?_, fun k hk => ?_, fun n ident opened pulsing left hpass => ?_⟩
    · simp [State.modSlot_slot_ne s hj]
    · simp
    · simp [activityEdge_shelf_ne i _ _ hk]
    · obtain ⟨pulsing', hp, hrest⟩ := edgeInWindow_window i (s.slot i).actRaw s.now n ident opened pulsing left
      exact ⟨pulsing', by simpa [hpass] using hp, hrest⟩

/-! ## Requests that name a slot (R16, R21, R23, R104, R113) -/

/-- A slot is re-examined: power is asked for where it is HELD and nothing holds it (R16). -/
theorem carryOut_reexamine (i : Slot) (s : State) : carryOut 2 [.reexamine i] s =
    some (if (s.slot i).occ = .held ∧ heldCause s i = false then requestPower i .supervisor s else s) := by
  rw [carryOut_cons]
  simp only [act, reexamine]
  split <;> rfl

/-- Settles O28, each request by the branches of its handler. -/
theorem enableAndArm : Obligations.EnableAndArm := by
  intro tag p s i hi
  refine ⟨fun hlen hnext => ?_, fun auto hlen hnext hauto => ?_⟩
  · have hexec : exec (.slotEnable tag p) s = answerRequest 0x14#8 tag (handleSlotEnable p) (serving 0x14#8 tag p s) :=
      serve_next hnext _
    have hhandle : ∀ u : State, handleSlotEnable p u = match yesNoOf (field8 p 1) with
        | none => .refuse .badValue
        | some on =>
          if (u.slot i).enabled = on then .ok u []
          else
            let v := u.modSlot i fun r => { r with enabled := on }
            if on then .ok v [.reexamine i] else .ok (disableSlot i v) [] := fun u => by
      unfold handleSlotEnable
      rw [withLength_eq hlen, withSlot_val hi] <;> rfl
    intro u
    rw [hexec]
    refine ⟨fun h => answerRequest_refuse ?_, fun h => answerRequest_done ?_, fun h0 hen => ?_, fun h1 hen => ?_⟩
    · have hv : yesNoOf (field8 p 1) = none := by
        unfold yesNoOf; split <;> first | omega | rfl
      rw [hhandle, hv]
    · have hv : yesNoOf (field8 p 1) = some (s.slot i).enabled := by
        rw [h]; cases (s.slot i).enabled <;> rfl
      rw [hhandle, hv]
      exact if_pos rfl
    · have hv : yesNoOf (field8 p 1) = some false := by rw [h0]; rfl
      refine answerRequest_done ?_
      rw [hhandle, hv]
      simp [u, hen, disableSlot]
    · have hv : yesNoOf (field8 p 1) = some true := by rw [h1]; rfl
      have hok : handleSlotEnable p u = .ok (u.modSlot i fun r => { r with enabled := true }) [.reexamine i] := by
        rw [hhandle, hv]; simp [u, hen]
      refine answerRequest_ok (n := 2) hok (by decide) ?_
      have hcause : heldCause (u.modSlot i fun r => { r with enabled := true }) i = false ↔
          (s.shelf (shelfOf i)).enabled = true ∧ (s.slot i).result = none := by simp [heldCause, u]
      have hocc : ((u.modSlot i fun r => { r with enabled := true }).slot i).occ = (s.slot i).occ := by simp [u]
      rw [carryOut_reexamine, hocc]
      exact congrArg some (if_congr (and_congr_right fun _ => hcause) rfl rfl)
  · have hexec : exec (.slotArm tag p) s = answerRequest 0x15#8 tag (handleSlotArm p) (serving 0x15#8 tag p s) :=
      serve_next hnext _
    have hhandle : ∀ u : State, handleSlotArm p u =
        if field8 p 1 = 255 then .ok (u.modSlot i fun r => { r with armed := none, autostart := auto }) []
        else withPlan (field8 p 1) fun n =>
          if u.plans[n].complete = false then .refuse .badState
          else
            let v := u.modSlot i fun r => { r with armed := some n, autostart := auto }
            .ok v (if auto && mayStart (v.slot i) then [.startRun i n] else []) := fun u => by
      unfold handleSlotArm
      rw [withLength_eq hlen, withSlot_val hi, hauto]
    intro u
    rw [hexec]
    refine ⟨fun h => answerRequest_done ?_, fun h4 h255 => answerRequest_refuse ?_, fun n hn => ⟨fun hc => ?_, fun hc hno => ?_⟩⟩
    · rw [hhandle, if_pos h]
    · rw [hhandle, if_neg h255, withPlan_ge h4]
    · have h255 : field8 p 1 ≠ 255 := by have := n.isLt; omega
      refine answerRequest_refuse ?_
      rw [hhandle, if_neg h255, withPlan_val hn]
      exact if_pos hc
    · have h255 : field8 p 1 ≠ 255 := by have := n.isLt; omega
      have hquiet : (auto && mayStart ((u.modSlot i fun r => { r with armed := some n, autostart := auto }).slot i)) = false := by
        simp only [mayStart, State.modSlot_slot]
        rcases hno with h | h | h | h <;> simp [u, h]
      refine answerRequest_done ?_
      rw [hhandle, if_neg h255, withPlan_val hn]
      have hloaded : ¬u.plans[n].complete = false := fun h => by
        rw [show u.plans[n].complete = true from hc] at h
        cases h
      exact (if_neg hloaded).trans (congrArg (Handled.ok _) (if_neg (by rw [hquiet]; decide)))

/-- The indicators of a slot while a locate override runs (R23). -/
theorem indicators_locate {r : SlotRec} {m : Nat} (h : r.locateTimer = some m) :
    indicators r = ((indicators { r with locateTimer := none }).1, .fast) := by
  have hb : basePatterns { r with locateTimer := none } = basePatterns r := rfl
  simp [indicators, h, hb]

/-- What SLOT_RETIRE discards, in one change of the slot's record (R21, R164, R169). -/
theorem retire_eq (i : Slot) (s : State) : retire i s = s.modSlot i fun r => { r with
    result := none, identity := none, summary := none, diverted := false
    seg := Segment.empty r.seg.base r.seg.limit
    con := { r.con with ring := [], received := 0, framingErrors := 0 } } := by
  simp only [retire, emptyConsole, emptySegment, State.modSlot_modSlot]
  rfl

/-- Whether the retired slot is asked power for: it is HELD, and nothing else holds it (R16). -/
theorem heldCause_retire (i : Slot) (s : State) : heldCause (retire i s) i = false ↔
    (s.shelf (shelfOf i)).enabled = true ∧ ((s.slot i).enabled = true ∨ (s.slot i).run.isSome) := by
  rw [retire_eq]
  simp only [heldCause, State.modSlot_slot, State.modSlot_shelf]
  cases (s.shelf (shelfOf i)).enabled <;> cases (s.slot i).enabled <;> cases (s.slot i).run <;> simp

/-- SLOT_RETIRE, whose one tell has the slot re-examined (R16, R21). -/
theorem slotRetire_settled {tag : Byte} {p : List Byte} {s : State} {i : Slot} (hlen : p.length = 1)
    (hi : field8 p 0 = i.val) (hnext : NextServed 0x1A#8 tag p s) :
    let r := s.slot i
    let u := retire i (serving 0x1A#8 tag p s)
    (r.result.isSome → (r.occ = .empty ∨ r.occ = .held ∨ r.occ = .ready) →
      exec (.slotRetire tag p) s = .next (answered 0x1A#8 tag .ok .none
        (if r.occ = .held ∧ (s.shelf (shelfOf i)).enabled = true ∧ (r.enabled = true ∨ r.run.isSome) then
          requestPower i .supervisor u else u))) ∧
    (r.result = none ∨ (r.occ ≠ .empty ∧ r.occ ≠ .held ∧ r.occ ≠ .ready) →
      exec (.slotRetire tag p) s = .next (answered 0x1A#8 tag .badState .none (serving 0x1A#8 tag p s))) := by
  have hexec : exec (.slotRetire tag p) s = answerRequest 0x1A#8 tag (handleSlotRetire p) (serving 0x1A#8 tag p s) :=
    serve_next hnext _
  have hhandle : ∀ u : State, handleSlotRetire p u =
      if (u.slot i).result.isSome ∧ ((u.slot i).occ = .empty ∨ (u.slot i).occ = .held ∨ (u.slot i).occ = .ready) then
        .ok (retire i u) [.reexamine i]
      else .refuse .badState := fun u => by
    unfold handleSlotRetire
    rw [withLength_eq hlen, withSlot_val hi]
  intro r u
  rw [hexec]
  refine ⟨fun hres hocc => ?_, fun hno => answerRequest_refuse ?_⟩
  · have hok : handleSlotRetire p (serving 0x1A#8 tag p s) = .ok u [.reexamine i] :=
      (hhandle _).trans (if_pos ⟨hres, hocc⟩)
    refine answerRequest_ok (n := 2) hok (by decide) ?_
    have hocc : (u.slot i).occ = r.occ := by simp [u, r, retire_eq]
    rw [carryOut_reexamine, hocc]
    exact congrArg some (if_congr (and_congr_right fun _ => heldCause_retire i _) rfl rfl)
  · rw [hhandle]
    refine if_neg fun ⟨hres, hocc⟩ => ?_
    rcases hno with h | ⟨h1, h2, h3⟩
    · simp [show (s.slot i).result = none from h] at hres
    · rcases hocc with h | h | h
      · exact h1 h
      · exact h2 h
      · exact h3 h

theorem slotLocate_settled {tag : Byte} {p : List Byte} {s : State} {i : Slot} (hlen : p.length = 3)
    (hi : field8 p 0 = i.val) (hnext : NextServed 0x19#8 tag p s) :
    exec (.slotLocate tag p) s = .next (answered 0x19#8 tag .ok .none
      ((serving 0x19#8 tag p s).modSlot i fun r =>
        { r with locateTimer := some (s.now + 1000 * max 1 (min 255 (field16 p 1))) })) := by
  have hexec : exec (.slotLocate tag p) s = answerRequest 0x19#8 tag (handleSlotLocate p) (serving 0x19#8 tag p s) :=
    serve_next hnext _
  rw [hexec]
  refine answerRequest_done ?_
  unfold handleSlotLocate
  rw [withLength_eq hlen, withSlot_val hi]
  rfl

/-- A record held at stage HOST is released: its clear is submitted (R103, R104). -/
theorem attnAck_settled {tag : Byte} {p : List Byte} {s : State} {i : Slot} (hlen : p.length = 2)
    (hi : field8 p 0 = i.val) (hnext : NextServed 0x1C#8 tag p s) :
    (∀ a, (s.slot i).attn = some a → a.stage = .host → a.code = byteAt p 1 → (s.slot i).drive.isSome →
      (s.slot i).silent = false → pendingItem (s.shelf (shelfOf i)).work i .attnClear = none →
      ∃ t, exec (.attnAck tag p) s = .next (answered 0x1C#8 tag .ok .none t) ∧ OtherSlotsSame s t i ∧
        t.slot i = { s.slot i with
          attn := some { a with stage := .part, clearPending := true },
          summary := (s.slot i).summary.map fun m => { m with outcome := .acked } } ∧
        pendingOrInFlight t i .attnClear = true) ∧
    (((s.slot i).attn = none ∨ ∃ a, (s.slot i).attn = some a ∧ (a.stage = .part ∨ a.code ≠ byteAt p 1)) →
      exec (.attnAck tag p) s = .next (answered 0x1C#8 tag .badState .none (serving 0x1C#8 tag p s))) := by
  have hexec : exec (.attnAck tag p) s = answerRequest 0x1C#8 tag (handleAttnAck p) (serving 0x1C#8 tag p s) :=
    serve_next hnext _
  have hhandle : ∀ u : State, handleAttnAck p u = match (u.slot i).attn with
      | some a =>
        if a.stage = .host ∧ a.code = byteAt p 1 then
          .ok (setOutcome i .acked (modAttn i (fun a => { a with stage := .part }) u)) [.clearRecord i]
        else .refuse .badState
      | none => .refuse .badState := fun u => by
    unfold handleAttnAck
    rw [withLength_eq hlen, withSlot_val hi] <;> rfl
  rw [hexec]
  refine ⟨fun a ha hstage hcode hdrive hsilent hpend => ?_, fun hno => answerRequest_refuse ?_⟩
  · -- The record as it stands when the clear is submitted.
    have hcleared : modAttn i (fun a => { a with clearPending := true })
        (setOutcome i .acked (modAttn i (fun a => { a with stage := .part }) (serving 0x1C#8 tag p s))) =
        (serving 0x1C#8 tag p s).modSlot i fun r => { r with
          attn := some { a with stage := .part, clearPending := true }
          summary := r.summary.map fun m => { m with outcome := .acked } } := by
      simp only [modAttn, setOutcome, State.modSlot_modSlot]
      exact State.modSlot_congr (by simp [ha])
    obtain ⟨u, hsub, hbus, hpending, -⟩ := submit_of_bound (i := i) (cmd := .attnClear) .attentionUnit
      (s := (serving 0x1C#8 tag p s).modSlot i fun r => { r with
          attn := some { a with stage := .part, clearPending := true }
          summary := r.summary.map fun m => { m with outcome := .acked } })
      (by simpa using hdrive) (by simpa using hsilent) hpend
    have hok : handleAttnAck p (serving 0x1C#8 tag p s) = .ok
        (setOutcome i .acked (modAttn i (fun a => { a with stage := .part }) (serving 0x1C#8 tag p s))) [.clearRecord i] := by
      rw [hhandle]
      simp [ha, hstage, hcode]
    refine ⟨u, answerRequest_ok (n := 1) hok (by decide) ?_, fun j hj => ?_, ?_, hpending.slotPending.pendingOrInFlight rfl⟩
    · have hsome : ((setOutcome i .acked (modAttn i (fun a => { a with stage := .part }) (serving 0x1C#8 tag p s))).slot
          i).attn.isNone = false := by simp [setOutcome, modAttn, ha]
      rw [carryOut_cons]
      simp [act, clearRecord, hsome, hcleared, hsub]
    · rw [hbus.slot, State.modSlot_slot_ne _ hj, serving_slot]
    · rw [hbus.slot, State.modSlot_slot, serving_slot]
  · rw [hhandle]
    rcases hno with h | ⟨a, ha, h⟩
    · simp [h]
    · rcases h with h | h <;> simp [ha, h]

/-- Settles O33. -/
theorem locateAckAndRetire : Obligations.LocateAckAndRetire := by
  refine ⟨⟨fun tag p s i hlen hi hnext => slotLocate_settled hlen hi hnext, fun r m h => indicators_locate h,
    fun i s => rfl⟩, fun tag p s i hlen hi hnext => ?_, fun tag p s i hlen hi hnext => attnAck_settled hlen hi hnext⟩
  have h := slotRetire_settled hlen hi hnext
  simp only [retire_eq] at h
  exact h

end Sys2Proof.Machine
end

