-- ==== Sys2Proof/Proofs/AttachTimers.lean ====
section
/-! SUPPORT. The attaching set and the pass: the deadlines that stand or run, the joining of the set, the timers of a slot and
of the pass, and the close of the locate window. -/

namespace Sys2Proof.Machine

/-! ## Deadlines (R76 to R78) -/

/-- One change made of each slot of a list. -/
theorem foldl_modSlot_slot (f : SlotRec → SlotRec) (l : List Slot) (hl : l.Nodup) (s : State) (j : Slot) :
    (l.foldl (fun s i => s.modSlot i f) s).slot j = if j ∈ l then f (s.slot j) else s.slot j := by
  induction l generalizing s with
  | nil => simp
  | cons a l ih =>
    obtain ⟨ha, hl⟩ := List.nodup_cons.1 hl
    rw [List.foldl_cons, ih hl, State.modSlot_slot_if]
    by_cases hj : j = a
    · subst hj; simp [ha]
    · simp [hj]

theorem mapDeadlines_slot (k : Shelf) (f : Deadline → Deadline) (s : State) (j : Slot) :
    (mapDeadlines k f s).slot j =
      if shelfOf j = k then { s.slot j with deadline := (s.slot j).deadline.map f } else s.slot j := by
  unfold mapDeadlines
  rw [foldl_modSlot_slot _ _ (slotsOf_nodup k)]
  simp only [mem_slotsOf]

/-- The slots of the shelf stand or run as the KEY_MISSING condition says (R76). -/
theorem syncKey_deadline (s : State) (i : Slot) : ((syncKey (shelfOf i) s).slot i).deadline =
    (s.slot i).deadline.map (if keyMissing s (shelfOf i) then pauseDeadline s.now else resumeDeadline s.now) := by
  unfold syncKey
  split <;> simp [mapDeadlines_slot]

theorem mem_attachSet {s : State} {k : Shelf} {i : Slot} : i ∈ attachSet s k ↔ shelfOf i = k ∧ (s.slot i).deadline.isSome := by
  simp [attachSet, mem_slotsOf]

/-- With a slot in the set, the condition is that the wake pattern is empty (R76). -/
theorem keyMissing_of_mem {s : State} {i : Slot} (h : (s.slot i).deadline.isSome) :
    keyMissing s (shelfOf i) = s.wakePattern.isEmpty := by
  have hne : attachSet s (shelfOf i) ≠ [] := List.ne_nil_of_mem (mem_attachSet.2 ⟨rfl, h⟩)
  simp [keyMissing, hne]

theorem syncKey_flag {s : State} {k : Shelf} (h : keyMissing s k = true) :
    flagSet (syncKey k s) (shelfScope k) (shelfFlagBit .keyMissing) = true := by
  simp [syncKey, h]

/-! ## Joining the set (R77, R79) -/

/-- The slot in the set, its deadline standing or running, before the pass follows (R77). -/
def joined (i : Slot) (s : State) : State :=
  syncKey (shelfOf i) (s.modSlot i fun r => { r with deadline := some (.running (s.now + secs 30)) })

theorem joined_deadline (i : Slot) (s : State) : ((joined i s).slot i).deadline =
    some (if s.wakePattern = [] then .paused 30000 else .running (s.now + 30000)) := by
  unfold joined
  rw [syncKey_deadline, keyMissing_of_mem (by simp)]
  by_cases h : s.wakePattern = []
  · simp [h, pauseDeadline, secs]
  · simp [h, resumeDeadline, secs]

theorem joined_attachOnly (i : Slot) (s : State) :
    AttachOnly (shelfOf i) (s.modSlot i fun r => { r with deadline := some (.running (s.now + secs 30)) }) (joined i s) :=
  syncKey_attachOnly ..

theorem joined_wakePattern (i : Slot) (s : State) : (joined i s).wakePattern = s.wakePattern :=
  (joined_attachOnly i s).changed.wakePattern_eq

theorem syncKey_shelf (k : Shelf) (s : State) : (syncKey k s).shelf k = s.shelf k := by
  have hmap : ∀ (f : Deadline → Deadline), (mapDeadlines k f s).shelf k = s.shelf k := fun f => by
    unfold mapDeadlines
    induction slotsOf k generalizing s with
    | nil => rfl
    | cons a l ih => exact (ih _)
  unfold syncKey
  split <;> simp [hmap]

/-- The pass follows a slot that has joined: an idle one begins, one that is paused for want of a contender goes on (R79,
R82). -/
theorem joinSet_eq (i : Slot) (s : State) : joinSet i s = match (s.shelf (shelfOf i)).pass with
    | .idle => if s.wakePattern.isEmpty then setPass (shelfOf i) .keyWait (setMismatches (shelfOf i) 0 (joined i s))
        else openRound (shelfOf i) (setMismatches (shelfOf i) 0 (joined i s))
    | .paused .noContender _ => nextRound (shelfOf i) (joined i s)
    | _ => joined i s := by
  have hpass : ((joined i s).shelf (shelfOf i)).pass = (s.shelf (shelfOf i)).pass := by
    unfold joined; rw [syncKey_shelf]; rfl
  have hwake : (setMismatches (shelfOf i) 0 (joined i s)).wakePattern = s.wakePattern := joined_wakePattern i s
  rw [← hwake, ← hpass]
  rfl

theorem joinSet_slots (i : Slot) (s : State) : (joinSet i s).slots = (joined i s).slots := by
  rw [joinSet_eq]
  split
  · split
    · rfl
    · exact (openRound_busOnly ..).slots
  · exact nextRound_slots ..
  · rfl

theorem joinSet_flags (i : Slot) (s : State) : (joinSet i s).flags = (joined i s).flags := by
  rw [joinSet_eq]
  split
  · split
    · rfl
    · exact (openRound_busOnly ..).flags
  · exact nextRound_flags ..
  · rfl

theorem joinSet_slot (i : Slot) (s : State) (j : Slot) : (joinSet i s).slot j = (joined i s).slot j := by
  simp [State.slot, joinSet_slots]

/-- An idle pass begins: it waits for the key or opens a round, its count of mismatches at 0 (R79). -/
theorem joinSet_of_idle {i : Slot} {s : State} (h : (s.shelf (shelfOf i)).pass = .idle) :
    ((joinSet i s).shelf (shelfOf i)).mismatches = 0 ∧
      ((joinSet i s).shelf (shelfOf i)).pass = if s.wakePattern = [] then .keyWait else .round .contest := by
  rw [joinSet_eq, h]
  simp only [List.isEmpty_iff]
  split
  · simp [setMismatches]
  · have hb := openRound_busOnly (shelfOf i) (setMismatches (shelfOf i) 0 (joined i s))
    rw [hb.mismatches, hb.pass]
    simp [setMismatches]

/-! ## The timers of a slot (R4, R18, R65) -/

/-- The slot as it joins the set (R4, R5). -/
theorem bootDone_eq (i : Slot) (s : State) : bootDone i s = joinSet i (s.modSlot i fun r =>
    if r.occ = .booting then ({ r with bootTimer := none, adm := .attaching } : SlotRec).movedTo .attaching
    else { r with bootTimer := none, adm := .attaching }) := by
  unfold bootDone
  simp only [setOcc_of_ne_binWait i _ (o := .attaching) (by decide), State.modSlot_slot]
  split
  · next h =>
    rw [State.modSlot_modSlot]
    refine congrArg (joinSet i) (State.modSlot_congr ?_)
    simp [h]
  · next h =>
    refine congrArg (joinSet i) (State.modSlot_congr ?_)
    simp [h]

/-- Settles O36: the boot delay's end is `bootDone`, read through `joinSet`. -/
theorem slotTimersExpire : Obligations.SlotTimersExpire := by
  intro i s
  refine ⟨fun h => ?_, fun h => ?_, fun h => ?_⟩
  · exact if_neg (by simpa [Option.isSome_iff_ne_none] using h)
  · exact if_neg (by simpa [Option.isSome_iff_ne_none] using h)
  · have hexec : exec (.bootDelayExpiry i) s = .next (startTx (bootDone i s)) :=
      (if_neg (by simpa [Option.isSome_iff_ne_none] using h)).trans (conclude_nil _)
    have hslot := (joined_attachOnly i (s.modSlot i fun r =>
      if r.occ = .booting then ({ r with bootTimer := none, adm := .attaching } : SlotRec).movedTo .attaching
      else { r with bootTimer := none, adm := .attaching })).slot i
    refine ⟨_, hexec, ?_⟩
    rw [bootDone_eq]
    simp only [startTx_slot, startTx_shelf, joinSet_slot]
    refine ⟨?_, ?_, ?_, ?_, ?_, ?_⟩
    · rw [hslot]; simp only [State.modSlot_slot]; split <;> simp
    · rw [hslot]; simp only [State.modSlot_slot]; split <;> simp
    · rw [hslot]; simp only [State.modSlot_slot]; split <;> simp
    · exact joined_deadline i _
    · exact fun hidle => joinSet_of_idle hidle
    · intro hkey
      rw [flagSet_startTx, flagSet_congr (joinSet_flags i _)]
      refine syncKey_flag ?_
      rw [keyMissing_of_mem (by simp)]
      simpa using hkey

/-! ## The pause and the locate window (R79, R86, R87) -/

theorem attachPauseExpires (k : Shelf) (s : State) (reason : PauseReason) (m : Nat)
    (h : (s.shelf k).pass = .paused reason m) :
    ∃ t, exec (.attachPauseExpiry k) s = .next t ∧ t.slots = s.slots ∧
      (t.shelf k).pass = if attachSet s k = [] then .idle else if s.wakePattern = [] then .keyWait else .round .contest := by
  have hexec : exec (.attachPauseExpiry k) s = .next (startTx (nextRound k s)) := by
    show execAttachPauseExpiry k s = _
    unfold execAttachPauseExpiry
    rw [h]
    exact conclude_nil _
  exact ⟨_, hexec, by simp, by simp [passNext]⟩

@[simp] theorem giveUp_slots (k : Shelf) (n : NodeIx) (s : State) : (giveUp k n s).slots = s.slots := by
  unfold giveUp
  split
  · rfl
  · exact (submitAttach_busOnly ..).slots

@[simp] theorem giveUp_slot (k : Shelf) (n : NodeIx) (s : State) (i : Slot) : (giveUp k n s).slot i = s.slot i := by
  simp [State.slot]

theorem giveUp_candidate {k : Shelf} {s : State} (n : NodeIx) (h : allOff s k = false) :
    ((giveUp k n s).shelf k).nodes[n] = .candidate := by
  rw [(giveUp_busOnly n h).nodes]; simp

theorem allOff_congr {s t : State} (h : t.slots = s.slots) (k : Shelf) : allOff t k = allOff s k := by
  have hslot : t.slot = s.slot := by funext i; simp [State.slot, h]
  simp [allOff, hslot]

/-- A node given up at a fault: BUS_FAULT is set, the node stands CANDIDATE, and its RELEASE is submitted (R87). -/
theorem nextRound_giveUp_fault {k : Shelf} {s : State} (n : NodeIx) (h : allOff s k = false) :
    let t := nextRound k (giveUp k n (raiseShelf k .busFault s))
    (t.shelf k).nodes[n] = .candidate ∧ AttachPending t k (.release n) ∧
      flagSet t (shelfScope k) (shelfFlagBit .busFault) = true := by
  have hoff : allOff (raiseShelf k .busFault s) k = false := by rw [allOff_congr (raiseShelf_slots ..), h]
  refine ⟨?_, nextRound_attachPending (giveUp_attachPending n hoff), ?_⟩
  · rw [nextRound_nodes]; exact giveUp_candidate n hoff
  · exact ((giveUp_attachOnly k n _).trans (nextRound_attachOnly ..)).flagSet _ _ (flagSet_raiseShelf ..)

theorem locateWindowCloses (k : Shelf) (s : State) (n : NodeIx) (ident : Identity) (opened : Nat)
    (pulsing left : List Slot) (hpass : (s.shelf k).pass = .round (.window n ident opened pulsing left))
    (hon : allOff s k = false) :
    ∃ t, exec (.locateWindowClose k) s = .next t ∧ t.slots = s.slots ∧
      (∀ i : Slot, pulsing = [i] → (s.slot i).deadline.isSome →
        (t.shelf k).pass = .round (.readInfo n ident i 1) ∧ (t.shelf k).nodes[n] = .binding i ∧
          AttachPending t k (.readInfo n)) ∧
      (∀ i : Slot, pulsing = [i] → (s.slot i).deadline = none → i ∈ left → (t.shelf k).nodes[n] = .free) ∧
      (∀ i : Slot, pulsing = [i] → (s.slot i).deadline = none → i ∉ left →
        (t.shelf k).nodes[n] = .candidate ∧ AttachPending t k (.release n) ∧
          flagSet t (shelfScope k) (shelfFlagBit .busFault) = true) ∧
      (2 ≤ pulsing.length → (t.shelf k).nodes[n] = .candidate ∧ AttachPending t k (.release n) ∧
        flagSet t (shelfScope k) (shelfFlagBit .busFault) = true) ∧
      (pulsing = [] → (t.shelf k).nodes[n] = .candidate ∧ AttachPending t k (.release n) ∧
        (t.shelf k).pass = .round (.release n) ∧ t.flags = s.flags) := by
  have hexec : exec (.locateWindowClose k) s = .next (startTx (closeWindow k n ident pulsing left s)) := by
    show execLocateWindowClose k s = _
    unfold execLocateWindowClose
    rw [hpass]
    exact conclude_nil _
  have hpending : ∀ {u : State} {cmd : BusCmd}, AttachPending u k cmd → AttachPending (startTx u) k cmd := fun h =>
    h.congr (by simp) (by simp)
  refine ⟨_, hexec, ?_⟩
  match pulsing with
  | [] =>
    have hclose : closeWindow k n ident [] left s = giveUp k n (setPass k (.round (.release n)) s) := rfl
    have hbus := giveUp_busOnly (s := setPass k (.round (.release n)) s) n hon
    rw [hclose]
    refine ⟨by simp [setPass], nofun, nofun, nofun, nofun, fun _ => ⟨?_, ?_, ?_, ?_⟩⟩
    · rw [startTx_shelf]; exact giveUp_candidate n hon
    · exact hpending (giveUp_attachPending n hon)
    · rw [startTx_shelf, hbus.pass]; simp
    · rw [startTx_flags, hbus.flags]; rfl
  | [i] =>
    have hall : ∀ {Q : Slot → Prop}, Q i → ∀ j : Slot, [i] = [j] → Q j := fun hq j hj => by
      cases hj; exact hq
    by_cases hd : (s.slot i).deadline.isSome
    · have hclose : closeWindow k n ident [i] left s =
          submitAttach k (.readInfo n) (setPass k (.round (.readInfo n ident i 1)) (setNode k n (.binding i) s)) := if_pos hd
      have hbus := submitAttach_busOnly k (.readInfo n) (setPass k (.round (.readInfo n ident i 1)) (setNode k n (.binding i) s))
      have hne : (s.slot i).deadline ≠ none := Option.isSome_iff_ne_none.1 hd
      rw [hclose]
      refine ⟨by rw [startTx_slots, hbus.slots]; rfl, hall fun _ => ⟨?_, ?_, ?_⟩, hall fun h => absurd h hne,
        hall fun h => absurd h hne, nofun, nofun⟩
      · rw [startTx_shelf, hbus.pass]; simp
      · rw [startTx_shelf, hbus.nodes]; simp
      · exact hpending (submitAttach_pending ..)
    · have hnone : (s.slot i).deadline = none := by simpa using hd
      by_cases hl : i ∈ left
      · have hclose : closeWindow k n ident [i] left s = nextRound k (setNode k n .free s) :=
          (if_neg hd).trans (if_pos (by simpa [hasSlot] using hl))
        rw [hclose]
        refine ⟨by simp [setNode], hall fun h => absurd h hd, hall fun _ _ => by simp, hall fun _ h => absurd hl h, nofun, nofun⟩
      · have hclose : closeWindow k n ident [i] left s = nextRound k (giveUp k n (raiseShelf k .busFault s)) :=
          (if_neg hd).trans (if_neg (by simpa [hasSlot] using hl))
        obtain ⟨hn, hp, hf⟩ := nextRound_giveUp_fault n hon
        rw [hclose]
        exact ⟨by simp, hall fun h => absurd h hd, hall fun _ h => absurd h hl,
          hall fun _ _ => ⟨by simpa using hn, hpending hp, by simpa using hf⟩, nofun, nofun⟩
  | i :: j :: rest =>
    have hclose : closeWindow k n ident (i :: j :: rest) left s = nextRound k (giveUp k n (raiseShelf k .busFault s)) := rfl
    obtain ⟨hn, hp, hf⟩ := nextRound_giveUp_fault n hon
    rw [hclose]
    exact ⟨by simp, nofun, nofun, nofun, fun _ => ⟨by simpa using hn, hpending hp, by simpa using hf⟩, nofun⟩

end Sys2Proof.Machine
end

