-- ==== Sys2Proof/Proofs/PowerReading.lean ====
section
/-! SUPPORT. What the requests to the Power Manager come to for the slot that makes them: a withdrawal, a spin-down, a
power-off with all it discards, a POWER and a SPIN request. -/

namespace Sys2Proof.Machine

section
variable {k : Shelf} {s t : State} (h : Granted k s t)
include h
theorem Granted.now : t.now = s.now := h.changed.now_eq
theorem Granted.shelf_nodes (l : Shelf) : (t.shelf l).nodes = (s.shelf l).nodes := by
  by_cases hl : l = k
  · subst hl; rw [h.shelf]
  · rw [h.shelf_ne l hl]
theorem Granted.enabled (l : Shelf) : (t.shelf l).enabled = (s.shelf l).enabled := by
  by_cases hl : l = k
  · subst hl; rw [h.shelf]
  · rw [h.shelf_ne l hl]
theorem Granted.mem_queue (l : Shelf) {e : QueueEntry} (he : e ∈ (t.shelf l).queue) : e ∈ (s.shelf l).queue := by
  by_cases hl : l = k
  · subst hl; exact h.queue e he
  · rwa [h.shelf_ne l hl] at he
theorem Granted.noWork {i : Slot} (hw : NoWork s i) : NoWork t i := by
  intro it hit
  by_cases hl : shelfOf i = k
  · subst hl; rw [h.shelf] at hit; exact hw it hit
  · rw [h.shelf_ne _ hl] at hit; exact hw it hit
theorem Granted.not_queued {i : Slot} (hq : queued s i = false) : queued t i = false :=
  queued_eq_false.2 fun e he => queued_eq_false.1 hq e (h.mem_queue _ he)
theorem Granted.hasEntry {i : Slot} {kind : EntryKind} (hq : hasEntry s i kind = false) : hasEntry t i kind = false :=
  hasEntry_eq_false.2 fun e he => hasEntry_eq_false.1 hq e (h.mem_queue _ he)
end

/-- A slot that does not wait is granted nothing at an examination of its shelf's queue. -/
theorem examine_slot {s : State} {i : Slot} (h : queued s i = false) : (examine (shelfOf i) s).slot i = s.slot i :=
  examine_slot_of_not_queued (queued_eq_false.1 h)

/-! ## Withdrawals and spin-down (R35, R40) -/

theorem queued_withoutSlot (i : Slot) (s : State) :
    queued (setQueue (shelfOf i) (withoutSlot i (s.shelf (shelfOf i)).queue) s) i = false := by
  refine queued_eq_false.2 fun e he => ?_
  rw [setQueue_shelf] at he
  exact (mem_withoutSlot.1 he).2

theorem withdrawEntry_granted (i : Slot) (kind : EntryKind) (s : State) :
    Granted (shelfOf i) s (withdrawEntry i kind s) := by
  unfold withdrawEntry
  split
  · have hq : Granted (shelfOf i) s (setQueue (shelfOf i) (withoutSlot i (s.shelf (shelfOf i)).queue) s) :=
      .of_setQueue fun e he => (mem_withoutSlot.1 he).1
    dsimp only
    split
    · exact (hq.trans (.of_modSlot ..)).trans (examine_granted ..)
    · exact hq.trans (examine_granted ..)
  · exact .refl _ s

/-- The slot that withdraws has no entry left, and with a POWER entry its admission returns to OFF (R35). -/
theorem withdrawEntry_slot (i : Slot) (kind : EntryKind) (s : State) :
    (withdrawEntry i kind s).slot i =
      if hasEntry s i kind = true ∧ kind = .power then { s.slot i with adm := .off } else s.slot i := by
  unfold withdrawEntry
  have hq := queued_withoutSlot i s
  by_cases h : hasEntry s i kind = true
  · by_cases hk : kind = .power
    · subst hk
      simp only [h, if_true, and_self]
      rw [examine_slot (by exact hq)]
      simp
    · simp only [h, hk, if_true, if_false, and_false]
      rw [examine_slot hq, setQueue_slot]
  · simp [h]

theorem withdrawEntry_hasEntry (i : Slot) (kind : EntryKind) (s : State) : hasEntry (withdrawEntry i kind s) i kind = false := by
  by_cases h : hasEntry s i kind = true
  · have hq := queued_withoutSlot i s
    have hw : queued (withdrawEntry i kind s) i = false := by
      unfold withdrawEntry
      simp only [h, if_true]
      exact (examine_granted ..).not_queued (by split <;> exact hq)
    exact hasEntry_of_queued hw kind
  · have h' : hasEntry s i kind = false := by simpa using h
    exact (withdrawEntry_granted i kind s).hasEntry h'

theorem withdrawEntry_of_none {i : Slot} {kind : EntryKind} {s : State} (h : hasEntry s i kind = false) :
    withdrawEntry i kind s = s := by simp [withdrawEntry, h]

/-- A slot whose SPIN entry does not stand has none of its requests left once it has withdrawn its POWER request. -/
theorem withdrawEntry_not_queued {i : Slot} {s : State} (h : hasEntry s i .spin = false) :
    queued (withdrawEntry i .power s) i = false :=
  queued_of_hasEntry (withdrawEntry_hasEntry ..) ((withdrawEntry_granted ..).hasEntry h)

theorem spinDown_granted (i : Slot) (s : State) : Granted (shelfOf i) s (spinDown i s) := by
  unfold spinDown
  dsimp only
  refine Granted.trans ?_ (withdrawEntry_granted ..)
  split
  · exact (Granted.of_modSlot ..).trans (examine_granted ..)
  · exact (Granted.of_modSlot ..).trans (examine_granted ..)
  · exact .refl _ s

/-! ## Power-off (R41, R2) -/

/-- The record of a slot whose switch has gone off with its boot delay, ranks, windows and deadline (R41, R77): what a
powered drive has left of its own stands in the second record. -/
def SlotRec.switchedOff (r b : SlotRec) : SlotRec :=
  { r with
    cls := .off, adm := .off, powerRank := none, spinRank := none, spinTimer := none, spinReq := none
    bootTimer := none, pulseTimer := none, deadline := none, drive := none
    con := b.con, attn := b.attn, summary := b.summary, reports := b.reports, run := b.run
    pollTimer := b.pollTimer, poll := b.poll, silent := b.silent, temp := b.temp }

/-- What a power-off leaves (R41, R2): the slot is off without its drive, out of the wait queue, its node free. -/
structure SwitchedOff (i : Slot) (s u : State) : Prop where
  slot : u.slot i = (s.slot i).switchedOff (u.slot i)
  attn : (s.slot i).drive.isSome ∨ (s.slot i).attn = none → (u.slot i).attn = none
  run : (u.slot i).run.isSome = (s.slot i).run.isSome
  not_queued : queued u i = false
  node : ∀ d, (s.slot i).drive = some d → (u.shelf (shelfOf i)).nodes[d.node] = .free
  noWork : NoWork s i → NoWork u i
  enabled : (u.shelf (shelfOf i)).enabled = (s.shelf (shelfOf i)).enabled
  bins : u.bins = s.bins
  changed : Changed s u
  flagSet : ∀ c bit, flagSet s c bit = true → flagSet u c bit = true

/-- A record that is discarded takes nothing of the slot with it but its marks (R105). -/
theorem discardRecord_slot (i : Slot) (s : State) : (discardRecord i s).slot i = { s.slot i with
    attn := none, summary := ((discardRecord i s).slot i).summary, reports := ((discardRecord i s).slot i).reports,
    run := ((discardRecord i s).slot i).run } ∧
    ((discardRecord i s).slot i).run.isSome = (s.slot i).run.isSome := by
  unfold discardRecord
  split
  · next h =>
    have h' : (s.slot i).attn = none := by simpa using h
    generalize hr : s.slot i = r at h'
    cases r
    simp_all
  · dsimp only
    split
    · simp [setOutcome, markIncomplete]
    · simp [setOutcome]

theorem discardRecord_modSlot (i : Slot) (s : State) : ∃ f, discardRecord i s = s.modSlot i f := by
  unfold discardRecord
  split
  · exact ⟨id, (State.modSlot_eq_self rfl).symm⟩
  · dsimp only
    split
    · simp only [setOutcome, markIncomplete, State.modRun, State.modSlot_modSlot]; exact ⟨_, rfl⟩
    · simp only [setOutcome, State.modSlot_modSlot]; exact ⟨_, rfl⟩

/-- The drive part that is discarded (R2): its node is free, its record and its polling have gone, and its work is
dropped. -/
theorem discardDrive_some {i : Slot} {s : State} {d : DrivePart} (hd : (s.slot i).drive = some d) (hw : NoWork s i) :
    ∃ u, discardDrive i s = (u, []) ∧ u.slot i = { s.slot i with
        drive := none, attn := none, con := (u.slot i).con, summary := (u.slot i).summary, reports := (u.slot i).reports
        run := (u.slot i).run, pollTimer := none, poll := none, silent := false, temp := TempRec.reset } ∧
      (u.slot i).run.isSome = (s.slot i).run.isSome ∧ (u.shelf (shelfOf i)).nodes[d.node] = .free ∧
      NoWork u i ∧ (∀ l, (u.shelf l).queue = (s.shelf l).queue) ∧
      (u.shelf (shelfOf i)).enabled = (s.shelf (shelfOf i)).enabled ∧ u.bins = s.bins ∧ u.flags = s.flags ∧ Changed s u := by
  obtain ⟨f, hf⟩ := discardRecord_modSlot i (setNode (shelfOf i) d.node .free s)
  obtain ⟨hrec, hrun⟩ := discardRecord_slot i (setNode (shelfOf i) d.node .free s)
  have hnode := setNode_attachOnly (shelfOf i) d.node .free s
  generalize hv : (discardRecord i (setNode (shelfOf i) d.node .free s)).modSlot i (fun r =>
      clearProgress { r with drive := none, pollTimer := none, poll := none, silent := false, temp := TempRec.reset }) = v
  have hshelf : v.shelves = (setNode (shelfOf i) d.node .free s).shelves := by rw [← hv, hf]; rfl
  have hsh : ∀ l, v.shelf l = (setNode (shelfOf i) d.node .free s).shelf l := fun l => by simp [State.shelf, hshelf]
  have hbus := dropWork_busOnly i v
  have hwork : NoWork v i := fun it hit => hw it (by simpa [hsh] using hit)
  refine ⟨(dropWork i v).1, ?_, ?_, ?_, ?_, ?_, ?_, ?_, ?_, ?_, ?_⟩
  · unfold discardDrive
    simp only [hd, hv]
    exact Prod.ext rfl (dropWork_snd hwork)
  · rw [hbus.slot, ← hv, State.modSlot_slot, hrec]
    rfl
  · rw [hbus.slot, ← hv, State.modSlot_slot]
    exact hrun
  · rw [hbus.nodes, hsh]; simp
  · intro it hit
    refine hwork it ?_
    simp only [dropWork, State.modShelf_shelf] at hit
    exact List.mem_of_mem_filter hit
  · intro l; rw [hbus.queue, hsh, hnode.queue]
  · rw [hbus.enabled, hsh, hnode.enabled]
  · rw [hbus.bins, ← hv, hf]; rfl
  · rw [hbus.flags, ← hv, hf]; rfl
  · refine Changed.trans ?_ hbus.changed
    rw [← hv, hf, State.modSlot_modSlot]
    exact .slots _ (.shelves _ (.refl s))

theorem cutPower_granted (i : Slot) (s : State) : Granted (shelfOf i) s (cutPower i s) := by
  unfold cutPower
  exact (Granted.of_modSlot ..).trans (.of_setQueue fun e he => (mem_withoutSlot.1 he).1)

/-- A powered slot is switched off, with all that a power-off leads to (R41): three tells of which nothing remains. -/
theorem powerOff_on {i : Slot} {s : State} (hc : (s.slot i).cls ≠ .off) (hw : (s.slot i).drive = none ∨ NoWork s i) :
    ∃ u, SwitchedOff i s u ∧ carryOut 3 [.powerOff i] s = some u := by
  have hcut := cutPower_granted i s
  have hq : queued (cutPower i s) i = false := queued_withoutSlot i _
  have hattach := (leaveSet_attachOnly i (cutPower i s)).trans (freeUnheld_attachOnly (shelfOf i) _)
  generalize hv : freeUnheld (shelfOf i) (leaveSet i (cutPower i s)) = v at hattach
  have hdead : (v.slot i).deadline = none := by
    rw [← hv]; exact (freeUnheld_attachOnly (shelfOf i) _).noDeadline i (leaveSet_deadline ..)
  have hvslot : v.slot i = { (cutPower i s).slot i with deadline := none } := by rw [hattach.slot i, hdead]
  have hdrive : (v.slot i).drive = (s.slot i).drive := by rw [hvslot]; simp [cutPower]
  have hvq : queued v i = false := (queued_congr (hattach.queue _)).trans hq
  -- The drive part goes where there is one.
  obtain ⟨w, hw', hslot, hattn, hrun, hnode, hnowork, hqueue, hen, hbins, hflags, hch⟩ :
      ∃ w, discardDrive i v = (w, []) ∧ w.slot i = (s.slot i).switchedOff (w.slot i) ∧
        ((s.slot i).drive.isSome ∨ (s.slot i).attn = none → (w.slot i).attn = none) ∧
        (w.slot i).run.isSome = (s.slot i).run.isSome ∧
        (∀ d, (s.slot i).drive = some d → (w.shelf (shelfOf i)).nodes[d.node] = .free) ∧
        (NoWork s i → NoWork w i) ∧
        (∀ l, (w.shelf l).queue = (v.shelf l).queue) ∧
        (w.shelf (shelfOf i)).enabled = (v.shelf (shelfOf i)).enabled ∧ w.bins = v.bins ∧ w.flags = v.flags ∧
        Changed v w := by
    cases hd : (s.slot i).drive with
    | none =>
      refine ⟨v, by simp [discardDrive, hdrive, hd], ?_, ?_, ?_, nofun, fun hw => hattach.work.noWork (hcut.noWork hw),
        fun _ => rfl, rfl, rfl, rfl, .refl v⟩
      · rw [hvslot]; simp [cutPower, SlotRec.switchedOff, hd]
      · intro h
        rw [hvslot]
        simpa [cutPower] using h
      · rw [hvslot]; simp [cutPower]
    | some d =>
      have hnw : NoWork s i := hw.resolve_left (by simp [hd])
      obtain ⟨w, hdis, hslot, hrun, hnode, hnowork, hqueue, hen, hbins, hflags, hch⟩ :=
        discardDrive_some (hdrive.trans hd) (hattach.work.noWork (hcut.noWork hnw))
      refine ⟨w, hdis, ?_, fun _ => by rw [hslot], ?_, ?_, fun _ => hnowork, hqueue, hen, hbins, hflags, hch⟩
      · rw [hslot, hvslot]; simp [cutPower, SlotRec.switchedOff]
      · rw [hrun, hvslot]; simp [cutPower]
      · intro d' hd'; cases hd'; exact hnode
  have hwq : queued w i = false := (queued_congr (hqueue _)).trans hvq
  have hexam := examine_granted (shelfOf i) w
  have heslot : (examine (shelfOf i) w).slot i = w.slot i := examine_slot hwq
  refine ⟨examine (shelfOf i) w, ⟨?_, ?_, ?_, ?_, ?_, ?_, ?_, ?_, ?_, ?_⟩, ?_⟩
  · rw [heslot]; exact hslot
  · rw [heslot]; exact hattn
  · rw [heslot]; exact hrun
  · exact hexam.not_queued hwq
  · intro d hd; rw [hexam.shelf_nodes]; exact hnode d hd
  · exact fun h => hexam.noWork (hnowork h)
  · rw [hexam.enabled, hen, hattach.enabled, hcut.enabled]
  · rw [hexam.bins, hbins, hattach.bins, hcut.bins]
  · exact ((hcut.changed.trans hattach.changed).trans hch).trans hexam.changed
  · intro c bit h
    rw [flagSet_congr (hexam.flags.trans hflags)]
    exact hattach.flagSet c bit ((flagSet_congr hcut.flags c bit).trans h)
  · have hoff : powerOff i s = (cutPower i s, [.switchedOff i, .examine (shelfOf i)]) := if_pos hc
    have hsw : switchedOff i (cutPower i s) = (w, []) := by unfold switchedOff; rw [hv]; exact hw'
    rw [carryOut_cons]
    simp only [act, hoff, List.append_nil]
    rw [carryOut_cons]
    simp only [act, hsw, List.nil_append]
    rfl

/-- A power-off of a slot that is off withdraws its POWER request (R41, R35). -/
theorem powerOff_off {i : Slot} {s : State} (hc : (s.slot i).cls = .off) :
    carryOut 1 [.powerOff i] s = some (withdrawEntry i .power s) := by
  have hoff : powerOff i s = (withdrawEntry i .power s, []) := if_neg (by simp [hc])
  rw [carryOut_cons]
  simp only [act, hoff, List.nil_append, carryOut_nil]

/-- The record of a slot without switch, drive and attention, the rest of what power gives it as in the second record. -/
def SlotRec.bare (r b : SlotRec) : SlotRec :=
  { r.switchedOff b with
    adm := b.adm, powerRank := b.powerRank, spinRank := b.spinRank, spinTimer := b.spinTimer, spinReq := b.spinReq
    bootTimer := b.bootTimer, pulseTimer := b.pulseTimer, deadline := b.deadline, attn := none }

/-- What a power-off leaves of a slot, on or off before, that loses its attention record with its drive. -/
structure PoweredDown (i : Slot) (s u : State) : Prop where
  slot : u.slot i = (s.slot i).bare (u.slot i)
  run : (u.slot i).run.isSome = (s.slot i).run.isSome
  adm : (s.slot i).cls ≠ .off → (u.slot i).adm = .off
  not_queued : queued u i = false
  node : (s.slot i).cls ≠ .off → ∀ d, (s.slot i).drive = some d → (u.shelf (shelfOf i)).nodes[d.node] = .free
  noWork : NoWork u i
  bins : u.bins = s.bins
  changed : Changed s u
  flagSet : ∀ c bit, flagSet s c bit = true → flagSet u c bit = true

theorem powerOff_bare {i : Slot} {s : State} (hw : NoWork s i) (hb : OffIsBare s i) :
    ∃ u, PoweredDown i s u ∧ carryOut 3 [.powerOff i] s = some u := by
  by_cases hc : (s.slot i).cls = .off
  · obtain ⟨hd, hspin⟩ := hb.2 hc
    have hg := withdrawEntry_granted i .power s
    refine ⟨_, ⟨?_, ?_, fun h => absurd hc h, withdrawEntry_not_queued hspin, fun h => absurd hc h, hg.noWork hw, hg.bins,
      hg.changed, fun c bit h => (flagSet_congr hg.flags c bit).trans h⟩, carryOut_mono (by decide) (powerOff_off hc)⟩
    · have ha := hb.1 hd
      rw [withdrawEntry_slot]
      generalize s.slot i = r at hc hd ha ⊢
      cases r
      split <;> simp_all [SlotRec.bare, SlotRec.switchedOff]
    · rw [withdrawEntry_slot]; split <;> rfl
  · obtain ⟨u, hu, hrun⟩ := powerOff_on hc (.inr hw)
    have ha : (u.slot i).attn = none := hu.attn (by
      cases hd : (s.slot i).drive with
      | none => exact .inr (hb.1 hd)
      | some d => exact .inl rfl)
    refine ⟨u, ⟨?_, hu.run, fun _ => by rw [hu.slot]; rfl, hu.not_queued, fun _ => hu.node, hu.noWork hw, hu.bins,
      hu.changed, hu.flagSet⟩, hrun⟩
    have hs := hu.slot
    generalize u.slot i = r at hs ha ⊢
    rw [hs]
    simp [SlotRec.bare, SlotRec.switchedOff, ← ha]

/-! ## Requests (R32 to R34) -/

/-- The record of a slot to which power has been granted, perhaps more than once (R36). -/
def PoweredFrom (r r' : SlotRec) : Prop :=
  r' = { r with
    occ := if r.occ = .powerWait then .booting else r.occ
    cls := .idle, powerRank := r'.powerRank, powerReq := r'.powerReq, adm := .booting, bootTimer := r'.bootTimer
    con := r'.con, run := r'.run }

/-- A slot all of whose entries ask for power waits as it was, or has been powered. -/
theorem examine_power {i : Slot} {s : State} (h : ∀ e ∈ (s.shelf (shelfOf i)).queue, e.slot = i → e.kind = .power) :
    ((examine (shelfOf i) s).slot i = s.slot i ∧
      ∀ e ∈ (s.shelf (shelfOf i)).queue, e.slot = i → e ∈ ((examine (shelfOf i) s).shelf (shelfOf i)).queue) ∨
      PoweredFrom (s.slot i) ((examine (shelfOf i) s).slot i) := by
  refine examine_slot_or fun e he hi t ht => ?_
  obtain ⟨f, hf, hrec⟩ := grant_eq e t
  rcases hrec with ⟨rank, boot, -, hrec⟩ | ⟨_, _, hk, -⟩
  · rw [hf, hi, State.modSlot_slot, hrec]
    unfold PoweredFrom
    rcases ht with ht | ht
    · rw [ht, SlotRec.poweredOn_frame]
    · rw [SlotRec.poweredOn_frame, ht]
      split <;> simp
  · rw [h e he hi] at hk; cases hk

theorem hasEntry_of_mem {s : State} {i : Slot} {e : QueueEntry} (he : e ∈ (s.shelf (shelfOf i)).queue) (hi : e.slot = i) :
    hasEntry s i e.kind = true := by
  unfold hasEntry
  exact List.any_eq_true.2 ⟨e, he, by simp [hi]⟩

/-- What a request leaves of everything but slots and the wait queue. -/
structure Asked (k : Shelf) (s t : State) : Prop where
  bins : t.bins = s.bins
  flags : t.flags = s.flags
  shelf_ne : ∀ l, l ≠ k → t.shelf l = s.shelf l
  shelf : t.shelf k = { s.shelf k with queue := (t.shelf k).queue }
  changed : Changed s t

theorem Asked.trans_granted {k : Shelf} {s t u : State} (h : Asked k s t) (h' : Granted k t u) : Asked k s u where
  bins := h'.bins.trans h.bins
  flags := h'.flags.trans h.flags
  shelf_ne l hl := (h'.shelf_ne l hl).trans (h.shelf_ne l hl)
  shelf := by rw [h'.shelf, h.shelf]
  changed := h.changed.trans h'.changed

/-- A POWER request for a slot that is off, on a shelf that is enabled (R32): it waits in the queue with admission QUEUED, in
POWER_WAIT unless it is in BIN_WAIT or SHIPPING, or power has been granted to it. -/
theorem requestPower_settled {i : Slot} {by_ : Requester} {s : State} (hc : (s.slot i).cls = .off)
    (hen : (s.shelf (shelfOf i)).enabled = true) (hr : released (s.slot i) = false)
    (hl : by_ = .ladder → (s.slot i).occ ≠ .binWait) :
    let r := { s.slot i with adm := .queued }
    let r' := if (s.slot i).occ = .binWait ∨ (s.slot i).occ = .shipping then r else r.movedTo .powerWait
    Asked (shelfOf i) s (requestPower i by_ s) ∧
      (((requestPower i by_ s).slot i = r' ∧ hasEntry (requestPower i by_ s) i .power = true) ∨
        PoweredFrom r' ((requestPower i by_ s).slot i)) := by
  intro r r'
  let e : QueueEntry := { slot := i, kind := .power, requester := by_ }
  have hnot : ¬(by_ = .ladder ∧ (s.slot i).occ = .binWait) := fun h => hl h.1 h.2
  let u : State := (setQueue (shelfOf i) (placeRequest e (s.shelf (shelfOf i)).queue) s).modSlot i fun _ => r'
  have hu : requestPower i by_ s = examine (shelfOf i) u := by
    unfold requestPower
    simp only [hc, ne_eq, not_true_eq_false, if_false, hen, hr, Bool.true_eq_false, Bool.false_eq_true, or_self, hnot]
    congr 1
    split
    · next h =>
      refine State.modSlot_congr ?_
      simp [r', r, h]
    · next h =>
      rw [setOcc_of_ne_binWait i _ (o := .powerWait) (by decide), State.modSlot_modSlot]
      refine State.modSlot_congr ?_
      simp [r', r, h]
  have hslot : u.slot i = r' := State.modSlot_slot ..
  have hqueue : (u.shelf (shelfOf i)).queue = placeRequest e (s.shelf (shelfOf i)).queue := by simp [u]
  have hasked : Asked (shelfOf i) s u :=
    ⟨rfl, rfl, fun l hl => setQueue_shelf_ne _ _ s hl, by simp [u], .slots _ (.shelves _ (.refl s))⟩
  rw [hu]
  refine ⟨hasked.trans_granted (examine_granted ..), ?_⟩
  rcases examine_power (i := i) (s := u) (fun x hx hi => by
    rw [hqueue] at hx
    rcases mem_placeRequest hx with rfl | ⟨-, hne⟩
    · rfl
    · exact absurd hi hne) with ⟨hs, hin⟩ | hp
  · refine .inl ⟨hs.trans hslot, ?_⟩
    exact hasEntry_of_mem (e := e) (hin e (by rw [hqueue]; exact self_mem_placeRequest ..) rfl) rfl
  · exact .inr (hslot ▸ hp)

end Sys2Proof.Machine
end

