-- ==== Sys2Proof/Proofs/StopReading.lean ====
section
/-! SUPPORT. What the grading event, a stop that does not wait and a slot's way out of the totes come to, carried out. -/

namespace Sys2Proof.Machine

/-- One tell, then those that it leads to. -/
theorem carryOut_act {x : Tell} {s u : State} {l : List Tell} {n : Nat} {t : State} (hx : act x s = (u, l))
    (h : carryOut n l u = some t) : carryOut (n + 1) [x] s = some t := by
  rw [carryOut_cons, hx]
  simpa using h

theorem carryOut_quiet {x : Tell} {s u : State} (hx : act x s = (u, [])) : carryOut 1 [x] s = some u :=
  carryOut_act (n := 0) hx (carryOut_nil 0 u)

/-- A set flag stays set whatever is told. -/
theorem flagSet_loose (c : Scope) (bit : Nat) : Loose (fun s => flagSet s c bit = true) where
  modSlot _ _ _ h := h
  anySlot _ _ _ h := h
  modShelf _ _ _ h := h
  anyShelf _ _ _ h := h
  holds _ _ h := h
  raiseSlot _ _ h := flagSet_setFlagBit_of h _ _
  raiseShelf _ _ h := flagSet_setFlagBit_of h _ _
  raiseController _ h := flagSet_setFlagBit_of h _ _
  examine _ h := (flagSet_congr (examine_granted ..).flags c bit).trans h
  requestPower i by_ h := by
    have hmod : ∀ (s : State) f, flagSet (s.modSlot i f) c bit = flagSet s c bit := fun _ _ => rfl
    have hocc : ∀ s : State, flagSet (setOcc i .powerWait s) c bit = flagSet s c bit := fun s =>
      flagSet_congr (setOcc_flags i s (by decide)) c bit
    unfold requestPower
    dsimp only
    split
    · split <;> exact h
    · split
      · exact h
      · split
        · exact h
        · refine (flagSet_congr (examine_granted ..).flags c bit).trans ?_
          split
          · exact h
          · rw [hocc]; exact h
  requestSpin i h := by
    unfold requestSpin
    split
    · exact h
    · exact (flagSet_congr (examine_granted ..).flags c bit).trans h
    · exact h
    · exact h
  withdrawEntry _ _ h := (flagSet_congr (withdrawEntry_granted ..).flags c bit).trans h
  spinDown _ h := (flagSet_congr (spinDown_granted ..).flags c bit).trans h
  cutPower _ h := h
  motorReport _ _ h := ite_fst_keeps (P := fun s => flagSet s c bit = true) h h
  windowExpired _ h := ite_fst_keeps (P := fun s => flagSet s c bit = true) h h
  unlockLatch _ h := ite_keeps (P := fun s => flagSet s c bit = true) h h
  lockLatch _ h := h
  insert _ _ _ h := h
  emptySegment _ h := h
  reserve i b _ h := by
    unfold reserve noteFull
    dsimp only
    split
    · exact h
    · split
      · exact flagSet_setFlagBit_of (by exact h) _ _
      · exact h
  releaseReservation i h := by unfold releaseReservation; split <;> exact h
  convertReservation i h := by unfold convertReservation; split <;> exact h

theorem carryOut_flagSet {n : Nat} {l : List Tell} {s t : State} (h : carryOut n l s = some t) {c : Scope} {bit : Nat}
    (hs : flagSet s c bit = true) : flagSet t c bit = true :=
  carryOut_kept (flagSet_loose c bit).kept (P := fun s => flagSet s c bit = true) hs h

/-! ## The grading event (R178) -/

/-- The slot as the grading event leaves it: its result is formed, its run is gone, PLAN_END is set (R178). -/
def graded (i : Slot) (reason : StopReason) (s : State) : State :=
  raiseSlot i .planEnd (dropRun i (s.modSlot i fun r => { r with result := some (formResult s i reason) }))

theorem grade_eq {i : Slot} {s : State} (h : (s.slot i).result = none) (reason : StopReason) :
    grade i reason s = (graded i reason s,
      if leadsToTote reason then
        if (s.slot i).adm = .bound then [.spinDown i, .enterBinWait i] else [.powerOff i, .enterBinWait i]
      else []) := by
  have hadm : ((graded i reason s).slot i).adm = (s.slot i).adm := by simp [graded, dropRun]
  have hnone : (s.slot i).result.isSome = false := by simp [h]
  unfold grade
  simp only [hnone, Bool.false_eq_true, if_false]
  show (if leadsToTote reason then if ((graded i reason s).slot i).adm = .bound then _ else _ else _) = _
  rw [hadm]
  split
  · split <;> rfl
  · rfl

theorem graded_slot (i : Slot) (reason : StopReason) (s : State) : (graded i reason s).slot i = { s.slot i with
    result := some (formResult s i reason), run := none
    attn := ((graded i reason s).slot i).attn, reports := ((graded i reason s).slot i).reports } := by
  simp [graded, dropRun]

@[simp] theorem graded_result (i : Slot) (reason : StopReason) (s : State) :
    ((graded i reason s).slot i).result = some (formResult s i reason) := by rw [graded_slot]

theorem graded_attn (i : Slot) (reason : StopReason) (s : State) :
    ((graded i reason s).slot i).attn.isSome = (s.slot i).attn.isSome := by
  simp [graded, dropRun]

@[simp] theorem graded_shelf (i : Slot) (reason : StopReason) (s : State) (k : Shelf) :
    (graded i reason s).shelf k = s.shelf k := by simp [graded, dropRun]

@[simp] theorem graded_bins (i : Slot) (reason : StopReason) (s : State) : (graded i reason s).bins = s.bins := by
  simp [graded, dropRun]

theorem graded_planEnd (i : Slot) (reason : StopReason) (s : State) :
    flagSet (graded i reason s) (slotScope i) (slotFlagBit .planEnd) = true := flagSet_raiseSlot ..

theorem graded_flagSet {i : Slot} {reason : StopReason} {s : State} {c : Scope} {bit : Nat} (h : flagSet s c bit = true) :
    flagSet (graded i reason s) c bit = true := flagSet_setFlagBit_of (by exact h) _ _

theorem graded_changed (i : Slot) (reason : StopReason) (s : State) : Changed s (graded i reason s) :=
  .raiseSlot _ _ (.slots _ (.slots _ (.refl s)))

/-- Only what the slot's run, segment and attention say makes a result, and the rules that are loaded (R178 to R183). -/
theorem formResult_congr {s t : State} (h : Changed s t) {i : Slot} {reason : StopReason}
    (hg : gradeInputs (t.slot i) reason = gradeInputs (s.slot i) reason) (hrun : (t.slot i).run = (s.slot i).run)
    (hseg : (t.slot i).seg = (s.slot i).seg) : formResult t i reason = formResult s i reason := by
  simp only [formResult, chooseBin, firstMatch, hg, hrun, hseg, h.rules_eq, h.ruleCount_eq, h.defaultBin_eq]

/-- A result for a stop that leads to no tote (R180). -/
theorem formResult_noTote (s : State) (i : Slot) {reason : StopReason} (h : leadsToTote reason = false) :
    (formResult s i reason).inputs.stop = reason ∧ (formResult s i reason).bin = none ∧
      (formResult s i reason).shipped = false := by
  have hstop : (gradeInputs (s.slot i) reason).stop = reason := rfl
  refine ⟨rfl, ?_, rfl⟩
  simp [formResult, chooseBin, hstop, h]

/-! ## A stop that does not wait (R128) -/

/-- What is left of a slot whose run a stop has ended that leads to no tote: the result, and the ladder's stage at 0. -/
structure RunStopped (i : Slot) (reason : StopReason) (s u : State) : Prop where
  slot : u.slot i = { s.slot i with
    run := none, result := (u.slot i).result, ladder := 0, attn := (u.slot i).attn, reports := (u.slot i).reports }
  attn : (u.slot i).attn.isSome = (s.slot i).attn.isSome
  result : ResultWithoutTote u i reason
  planEnd : flagSet u (slotScope i) (slotFlagBit .planEnd) = true
  queue : ∀ k, (u.shelf k).queue = (s.shelf k).queue
  noWork : NoWork s i → NoWork u i
  bins : u.bins = s.bins
  changed : Changed s u

theorem hardStop_none {i : Slot} {s : State} (h : (s.slot i).run = none) (reason : StopReason) :
    carryOut 1 [.hardStop i reason] s = some s := by
  refine carryOut_quiet ?_
  simp [act, hardStop, h]

theorem hardStop_some {i : Slot} {s : State} {run : Run} {reason : StopReason} (hrun : (s.slot i).run = some run)
    (hres : (s.slot i).result = none) (hr : leadsToTote reason = false) :
    ∃ u, RunStopped i reason s u ∧ carryOut 3 [.hardStop i reason] s = some u := by
  -- The stop replaces a pending one, and a STOP_TEST is withdrawn.
  have hbus := renounce_busOnly i .stopTest (s.modRun i fun run => { run with stop := some reason })
  have hwork := renounce_workWithin i .stopTest (s.modRun i fun run => { run with stop := some reason })
  generalize hv : renounce i .stopTest (s.modRun i fun run => { run with stop := some reason }) = v at hbus hwork
  have hvslot : v.slot i = { s.slot i with run := some { run with stop := some reason } } := by
    rw [hbus.slot]; simp [hrun]
  -- The phase is decided and ended.
  let verdict : Verdict := { outcome := .aborted, reason := abortedReason reason, detail := 0 }
  let w := v.modRun i fun run => { run with decided := some (run.decided.getD verdict), state := .ended }
  let ended : Run := { run with stop := some reason, decided := some (run.decided.getD verdict), state := .ended }
  have hwslot : w.slot i = { s.slot i with run := some ended } := by simp [w, hvslot, ended]
  have h1 : act (.hardStop i reason) s = (w, [.phaseEnded i]) := by
    simp only [act, hardStop, hrun, hv]
    rfl
  -- Its entry is written, and the stop leads to the grading event.
  let x := (raiseSlot i .phaseEnd ((w.modRun i (writeOutcome (endedDose w ended))).modSlot i fun r =>
    { r with ladder := 0 })).modRun i fun run => { run with outcomes := run.outcomes.map skipPending }
  have hwrun : (w.slot i).run = some ended := by rw [hwslot]
  have h2 : act (.phaseEnded i) w = (x, [.grade i reason]) := by
    simp only [act, phaseEnded, hwrun]
    rfl
  have hxslot : x.slot i = { s.slot i with run := (x.slot i).run, ladder := 0 } := by simp [x, hwslot]
  have hxres : (x.slot i).result = none := by rw [hxslot]; exact hres
  have h3 : act (.grade i reason) x = (graded i reason x, []) := by
    simp only [act, grade_eq hxres, hr, Bool.false_eq_true, if_false]
  have hshelf : ∀ k, (graded i reason x).shelf k = v.shelf k := fun k => by simp [x, w]
  refine ⟨graded i reason x, ⟨?_, ?_, ?_, graded_planEnd .., ?_, ?_, ?_, ?_⟩,
    carryOut_act h1 (carryOut_act h2 (carryOut_quiet h3))⟩
  · have hg := graded_slot i reason x
    generalize (graded i reason x).slot i = r at hg ⊢
    rw [hg, hxslot]
  · rw [graded_attn, hxslot]
  · refine ⟨formResult x i reason, by rw [graded_slot], ?_⟩
    exact formResult_noTote x i hr
  · intro k; rw [hshelf, hbus.queue]; rfl
  · intro hw it hit
    rw [hshelf] at hit
    exact hw it (hwork it hit)
  · rw [graded_bins]; simp [x, w, hbus.bins]
  · refine Changed.trans ?_ (graded_changed ..)
    exact .slots _ (.raiseSlot _ _ (.slots _ (.slots _ (.slots _ ((Changed.slots _ (.refl s)).trans hbus.changed)))))

/-! ## Out of the totes (R187, R199) -/

/-- What is left of a slot in BIN_WAIT or SHIPPING that leaves its hold queue or its reservation (R199). -/
structure LeftTote (i : Slot) (s u : State) : Prop where
  slot : u.slot i = { s.slot i with
    result := (s.slot i).result.map fun res => { res with bin := none, shipped := false }
    ship := none, diverted := false, reservation := none }
  bins : ∀ b : BinIx, u.bins[b] = { s.bins[b] with
    hold := s.bins[b].hold.filter fun j => decide (j ≠ i)
    reserved := if (s.slot i).reservation = some b then s.bins[b].reserved - 1 else s.bins[b].reserved }
  queue : ∀ k, (u.shelf k).queue = (s.shelf k).queue
  noWork : NoWork s i → NoWork u i
  flags : u.flags = s.flags
  changed : Changed s u

@[simp] theorem State.modBin_bin (s : State) (b : BinIx) (f : Bin → Bin) : (s.modBin b f).bins[b] = f s.bins[b] := by
  simp [State.modBin]

theorem State.modBin_bin_ne (s : State) {b c : BinIx} (h : c ≠ b) (f : Bin → Bin) : (s.modBin b f).bins[c] = s.bins[c] := by
  have h' : b.val ≠ c.val := fun e => h (Fin.ext e.symm)
  simp [State.modBin, Vector.getElem_set_ne, h']

/-- A slot joins the tail of the hold queue of a bin that has no free place, or that others wait for (R185). -/
theorem tryReserve_full {i : Slot} {s : State} {res : Result} {b : BinIx} (hres : (s.slot i).result = some res)
    (hb : res.bin = some b) (hfull : s.bins[b].hold ≠ [] ∨ s.bins[b].capacity ≤ s.bins[b].fill + s.bins[b].reserved) :
    act (.tryReserve i) s = (s.modBin b fun bin => { bin with hold := bin.hold ++ [i] }, []) := by
  have hroom : ((binAt s b).hold.isEmpty && binHasRoom s b) = false :=
    Bool.and_eq_false_iff.2 (hfull.imp List.isEmpty_eq_false_iff.2 fun h => decide_eq_false (Nat.not_lt.2 h))
  simp [act, tryReserve, hres, hb, hroom]

theorem leaveTote_settled {i : Slot} {s : State} (hn : NobodyWaits s i) :
    ∃ u, LeftTote i s u ∧ carryOut 2 [.leaveTote i] s = some u := by
  have hbus := renounceShip_busOnly i ((modResult i (fun res => { res with bin := none, shipped := false })
    (leaveHold i s)).modSlot i fun r => { r with ship := none, diverted := false })
  have hwork := renounceShip_workWithin i ((modResult i (fun res => { res with bin := none, shipped := false })
    (leaveHold i s)).modSlot i fun r => { r with ship := none, diverted := false })
  generalize hv : renounceShip i ((modResult i (fun res => { res with bin := none, shipped := false })
    (leaveHold i s)).modSlot i fun r => { r with ship := none, diverted := false }) = v at hbus hwork
  have hslot : v.slot i = { s.slot i with
      result := (s.slot i).result.map fun res => { res with bin := none, shipped := false }
      ship := none, diverted := false } := by
    rw [hbus.slot]; simp [modResult, leaveHold, State.slot, State.modSlot]
  have hbins : ∀ b : BinIx, v.bins[b] = { s.bins[b] with hold := s.bins[b].hold.filter fun j => decide (j ≠ i) } := by
    intro b; rw [hbus.bins]; simp [modResult, leaveHold]
  have hres : (v.slot i).reservation = (s.slot i).reservation := by rw [hslot]
  have hch : Changed s v := (Changed.slots _ (.slots _ (.bins _ (.refl s)))).trans hbus.changed
  have hact : act (.leaveTote i) s = releaseReservation i v := by simp only [act, leaveTote, hv]
  have hnowork : NoWork s i → NoWork v i := fun hw it hit => hw it (hwork it hit)
  have hqueue : ∀ k, (v.shelf k).queue = (s.shelf k).queue := fun k => (hbus.queue k).trans rfl
  cases hr : (s.slot i).reservation with
  | none =>
    refine ⟨v, ⟨?_, ?_, hqueue, hnowork, hbus.flags, hch⟩, carryOut_mono (by decide) (carryOut_quiet (hact.trans ?_))⟩
    · rw [hslot, ← hr]
    · intro b; rw [hbins b]; simp [hr]
    · simp [releaseReservation, hres, hr]
  | some b =>
    have hempty : (v.bins[b]).hold = [] := by
      rw [hbins]
      simp only [List.filter_eq_nil_iff]
      intro j hj
      simp [hn b hr j hj]
    let u := (v.modBin b fun bin => { bin with reserved := bin.reserved - 1 }).modSlot i fun r => { r with reservation := none }
    have h1 : act (.leaveTote i) s = (u, [.examineHold b]) := by
      rw [hact]; simp only [releaseReservation, hres, hr]; rfl
    have hold : (binAt u b).hold = [] := by
      show (u.bins[b]).hold = []
      simp only [u, State.modSlot_bins, State.modBin_bin, hempty]
    have h2 : act (.examineHold b) u = (u, []) := by simp [act, examineHold, hold]
    refine ⟨u, ⟨?_, ?_, hqueue, hnowork, hbus.flags, .slots _ (.bins _ hch)⟩, carryOut_act h1 (carryOut_quiet h2)⟩
    · simp [u, hslot]
    · intro c
      by_cases hc : c = b
      · subst hc; simp only [u, State.modSlot_bins, State.modBin_bin]; rw [hbins c]; simp [hr]
      · have : ¬some b = some c := fun h => hc (Option.some.inj h).symm
        simp only [u, State.modSlot_bins, State.modBin_bin_ne _ hc]; rw [hbins c]; simp [hr, Ne.symm hc]

end Sys2Proof.Machine
end

