-- ==== Sys2Proof/Proofs/AttachDeadline.lean ====
section
/-! SUPPORT. The end of the attach deadline. -/

namespace Sys2Proof.Machine

/-- A slot whose result names a bin without a free place joins the tail of its hold queue (R185). -/
theorem enterBinWait_waits {i : Slot} {s : State} {res : Result} {b : BinIx}
    (hres : (s.slot i).result = some res) (hb : res.bin = some b)
    (hfull : s.bins[b].hold ≠ [] ∨ s.bins[b].capacity ≤ s.bins[b].fill + s.bins[b].reserved) :
    carryOut 2 [.enterBinWait i] s =
      some ((setOcc i .binWait (withdrawEntry i .power s)).modBin b fun bin => { bin with hold := bin.hold ++ [i] }) := by
  have hbins : (withdrawEntry i .power s).bins = s.bins := (withdrawEntry_granted ..).bins
  have hres' : ((withdrawEntry i .power s).slot i).result = some res := by rw [withdrawEntry_slot]; split <;> exact hres
  have henter : act (.enterBinWait i) s = (setOcc i .binWait (withdrawEntry i .power s), [.tryReserve i]) := rfl
  refine carryOut_act henter (carryOut_quiet (tryReserve_full ?_ hb ?_))
  · simpa using hres'
  · rw [setOcc_bins, hbins]; exact hfull

theorem attachDeadlineExpires (i : Slot) (s : State) (m : Nat) (hdl : (s.slot i).deadline = some (.running m))
    (hrun : (s.slot i).run = none) (hd : (s.slot i).drive = none) (hc : (s.slot i).cls ≠ .off) :
    ((s.slot i).occ ≠ .binWait → (s.slot i).occ ≠ .shipping → (s.slot i).result.isSome →
      ∃ t, exec (.attachDeadlineExpiry i) s = .next t ∧ (t.slot i).occ = .held ∧ (t.slot i).cls = .off ∧
        (t.slot i).adm = .off ∧ (t.slot i).deadline = none ∧ (t.slot i).result = (s.slot i).result ∧
        flagSet t (slotScope i) (slotFlagBit .attachFailed) = true) ∧
    ((s.slot i).occ = .binWait →
      ∃ t, exec (.attachDeadlineExpiry i) s = .next t ∧ (t.slot i).occ = .binWait ∧ (t.slot i).cls = .off ∧
        (t.slot i).adm = .off ∧ (t.slot i).deadline = none ∧
        flagSet t (slotScope i) (slotFlagBit .attachFailed) = true) ∧
    ∀ b : BinIx, (s.slot i).occ = .attaching → (s.slot i).adm = .attaching → (s.slot i).result = none →
      (formResult s i .attachFail).bin = some b →
      (s.bins[b].hold ≠ [] ∨ s.bins[b].capacity ≤ s.bins[b].fill + s.bins[b].reserved) →
      ∃ t, exec (.attachDeadlineExpiry i) s = .next t ∧ (t.slot i).occ = .binWait ∧ (t.slot i).cls = .off ∧
        (t.slot i).adm = .off ∧ (t.slot i).result = some (formResult s i .attachFail) ∧
        t.bins[b] = { s.bins[b] with hold := s.bins[b].hold ++ [i] } ∧
        flagSet t (slotScope i) (slotFlagBit .attachFailed) = true ∧
        flagSet t (slotScope i) (slotFlagBit .planEnd) = true := by
  let v := raiseSlot i .attachFailed (s.modSlot i fun r => { r with deadline := some .expired })
  have hslot : v.slot i = { s.slot i with deadline := some .expired } := by simp [v]
  have hflag : flagSet v (slotScope i) (slotFlagBit .attachFailed) = true := flagSet_raiseSlot ..
  have hch : Changed s v := .raiseSlot _ _ (.slots _ (.refl s))
  -- What the Slot Supervisor's tells come to from `v` is what the command comes to.
  have hexec : ∀ {n : Nat} {tells : List Tell} {t : State}, n + 1 ≤ Config.tellBound →
      attachFailed i v = (v, tells) → carryOut n tells v = some t →
      exec (.attachDeadlineExpiry i) s = .next (startTx t) ∧ flagSet t (slotScope i) (slotFlagBit .attachFailed) = true := by
    intro n tells t hn htell hcarry
    refine ⟨?_, carryOut_flagSet hcarry hflag⟩
    show execAttachDeadlineExpiry i s = _
    unfold execAttachDeadlineExpiry
    rw [hdl]
    exact conclude_of (x := (v, [.attachFailed i])) hn (carryOut_act htell hcarry)
  have hnorun : (v.slot i).run.isSome = false := by rw [hslot]; simp [hrun]
  refine ⟨fun hb hs hres => ?_, fun hocc => ?_, fun b hocc hadm hres hbin hfull => ?_⟩
  · obtain ⟨u, hu, hoff⟩ := powerOff_on (i := i) (s := v) (by rw [hslot]; exact hc) (.inl (by rw [hslot]; exact hd))
    have htells : attachFailed i v = (v, [.powerOff i, .hold i]) := by
      have hocc : (v.slot i).occ = (s.slot i).occ := by rw [hslot]
      have hr : (v.slot i).result.isSome = true := by rw [hslot]; exact hres
      simp only [attachFailed, hnorun, Bool.false_eq_true, if_false]
      split
      · next h => exact absurd (hocc.symm.trans h) hb
      · next h => exact absurd (hocc.symm.trans h) hs
      · exact if_pos hr
    obtain ⟨hnext, hset⟩ := hexec (n := 4) (by decide) htells
      (carryOut_append (l₁ := [.powerOff i]) hoff (carryOut_quiet (s := u) (u := setOcc i .held u) rfl))
    refine ⟨_, hnext, ?_, ?_, ?_, ?_, ?_, by rw [flagSet_startTx]; exact hset⟩
    all_goals simp only [startTx_slot, setOcc_slot, SlotRec.movedTo_occ, SlotRec.movedTo_cls, SlotRec.movedTo_adm,
      SlotRec.movedTo_deadline, SlotRec.movedTo_result]
    all_goals rw [hu.slot]
    all_goals simp [SlotRec.switchedOff, hslot]
  · obtain ⟨u, hu, hoff⟩ := powerOff_on (i := i) (s := v) (by rw [hslot]; exact hc) (.inl (by rw [hslot]; exact hd))
    have htells : attachFailed i v = (v, [.powerOff i]) := by
      have ho : (v.slot i).occ = .binWait := by rw [hslot]; exact hocc
      simp only [attachFailed, hnorun, ho, Bool.false_eq_true, if_false]
    obtain ⟨hnext, hset⟩ := hexec (n := 3) (by decide) htells hoff
    refine ⟨_, hnext, ?_, ?_, ?_, ?_, by rw [flagSet_startTx]; exact hset⟩
    all_goals rw [startTx_slot, hu.slot]
    all_goals simp [SlotRec.switchedOff, hslot, hocc]
  · have htells : attachFailed i v = (v, [.grade i .attachFail]) := by
      have ho : (v.slot i).occ = .attaching := by rw [hslot]; exact hocc
      have hr : (v.slot i).result = none := by rw [hslot]; exact hres
      simp only [attachFailed, hnorun, ho, hr, Option.isSome_none, Bool.false_eq_true, if_false]
    -- The grading event, then the power-off, then the hold queue of the bin.
    let g := graded i .attachFail v
    have hgrade : act (.grade i .attachFail) v = (g, [.powerOff i, .enterBinWait i]) := by
      have hadm' : (v.slot i).adm ≠ .bound := by rw [hslot]; simp [hadm]
      simp only [act, grade_eq (s := v) (by rw [hslot]; exact hres), leadsToTote, if_true, hadm', if_false]
      rfl
    have hgslot := graded_slot i .attachFail v
    have hform : formResult v i .attachFail = formResult s i .attachFail := 
      formResult_congr hch (by rw [hslot]; rfl) (by rw [hslot]) (by rw [hslot])
    obtain ⟨u, hu, hoff⟩ := powerOff_on (i := i) (s := g) (by rw [hgslot, hslot]; exact hc)
      (.inl (by rw [hgslot, hslot]; exact hd))
    have hures : (u.slot i).result = some (formResult s i .attachFail) := by
      rw [hu.slot, ← hform]; exact graded_result ..
    have hubins : u.bins = s.bins := by rw [hu.bins]; simp [g, v]
    have hwait := enterBinWait_waits (s := u) hures hbin (by rw [hubins]; exact hfull)
    rw [withdrawEntry_of_none (hasEntry_of_queued hu.not_queued .power)] at hwait
    have hchain := carryOut_append (l₁ := [.powerOff i]) hoff hwait
    obtain ⟨hnext, hset⟩ := hexec (n := 6) (by decide) htells (carryOut_act hgrade hchain)
    refine ⟨_, hnext, ?_, ?_, ?_, ?_, ?_, by rw [flagSet_startTx]; exact hset, ?_⟩
    · simp [State.modBin_slot]
    · simp only [startTx_slot, State.modBin_slot, setOcc_slot, SlotRec.movedTo_cls]
      rw [hu.slot]; simp [SlotRec.switchedOff]
    · simp only [startTx_slot, State.modBin_slot, setOcc_slot, SlotRec.movedTo_adm]
      rw [hu.slot]; simp [SlotRec.switchedOff]
    · simpa [State.modBin_slot] using hures
    · rw [startTx_bins, State.modBin_bin, setOcc_bins, hubins]
    · rw [flagSet_startTx]
      exact carryOut_flagSet hchain (graded_planEnd ..)

/-- Settles O38: the deadline, the pause and the window each in its lemma. -/
theorem attachTimersExpire : Obligations.AttachTimersExpire :=
  ⟨⟨attachDeadlineExpires, attachPauseExpires⟩, locateWindowCloses⟩

end Sys2Proof.Machine
end

