-- ==== Sys2Proof/Proofs/SlotRelease.lean ====
section
/-! SUPPORT. How a slot leaves its drive: the release to the operator by SLOT_UNLOCK, the loss, the normal removal; and how
it takes one: the insertion. -/

namespace Sys2Proof.Machine

/-! ## What an off slot keeps -/

/-- What makes a power-off bare is kept by whatever keeps the switch, the drive, the attention record and the queue. -/
theorem OffIsBare.congr {s t : State} {i : Slot} (h : OffIsBare s i) (hd : (t.slot i).drive = (s.slot i).drive)
    (ha : (t.slot i).attn.isSome = (s.slot i).attn.isSome) (hc : (t.slot i).cls = (s.slot i).cls)
    (hq : (t.shelf (shelfOf i)).queue = (s.shelf (shelfOf i)).queue) : OffIsBare t i := by
  obtain ⟨hattn, hoff⟩ := h
  refine ⟨fun hn => ?_, fun hn => ?_⟩
  · have := hattn (hd ▸ hn)
    simpa [this] using ha
  · obtain ⟨hnone, hspin⟩ := hoff (hc ▸ hn)
    exact ⟨hd.trans hnone, (hasEntry_congr hq .spin).trans hspin⟩

theorem RunStopped.offIsBare {i : Slot} {reason : StopReason} {s u : State} (h : RunStopped i reason s u)
    (hb : OffIsBare s i) : OffIsBare u i :=
  hb.congr (by rw [h.slot]) h.attn (by rw [h.slot]) (h.queue _)

theorem LeftTote.offIsBare {i : Slot} {s u : State} (h : LeftTote i s u) (hb : OffIsBare s i) : OffIsBare u i :=
  hb.congr (by rw [h.slot]) (by rw [h.slot]) (by rw [h.slot]) (h.queue _)

theorem graded_offIsBare {i : Slot} {s : State} (reason : StopReason) (hb : OffIsBare s i) : OffIsBare (graded i reason s) i :=
  hb.congr (by rw [graded_slot]) (graded_attn ..) (by rw [graded_slot]) (by rw [graded_shelf])

/-! ## The release to the operator (R18 to R20) -/

theorem unlocked_eq {i : Slot} {s : State} (hc : (s.slot i).cls = .off) (hq : queued s i = false) :
    unlocked i s = s.modSlot i fun r =>
      { r.movedTo .removeReady with unlocked := true, unlockTimer := some (s.now + 120000) } := by
  have hc' : ((setOcc i .removeReady s).slot i).cls = .off := by simpa using hc
  have hq' : queued (setOcc i .removeReady s) i = false := (queued_congr (by simp)).trans hq
  refine (if_pos ⟨hc', hq'⟩).trans ?_
  rw [setOcc_of_ne_binWait i s (by decide), State.modSlot_modSlot]
  rfl

/-- What the release of a slot keeps, and that it has taken place (R18 to R20). -/
structure Released (i : Slot) (s t : State) : Prop where
  released : ReleasedWithoutDrive s t i
  run : (t.slot i).run.isSome = (s.slot i).run.isSome
  result : (t.slot i).result = (s.slot i).result
  tote : (t.slot i).reservation = (s.slot i).reservation ∧ (t.slot i).ship = (s.slot i).ship ∧
    (t.slot i).diverted = (s.slot i).diverted
  adm : (s.slot i).cls ≠ .off → (t.slot i).adm = .off
  node : (s.slot i).cls ≠ .off → ∀ d, (s.slot i).drive = some d → (t.shelf (shelfOf i)).nodes[d.node] = .free
  bins : t.bins = s.bins
  flagSet : ∀ c bit, flagSet s c bit = true → flagSet t c bit = true

theorem ReleasedWithoutDrive.of_unlocked {i : Slot} {s : State} (hc : (s.slot i).cls = .off) (hq : queued s i = false)
    (hd : (s.slot i).drive = none) (ha : (s.slot i).attn = none) : ReleasedWithoutDrive s (unlocked i s) i := by
  have hq' : hasEntry (unlocked i s) i .power = false := by
    rw [unlocked_eq hc hq]; exact hasEntry_of_queued hq .power
  refine ⟨?_, ?_, ?_, ?_, ?_, ?_, hq'⟩ <;> rw [unlocked_eq hc hq] <;> simp [hc, hd, ha]

/-- The power-off of a forced pull and what follows it (R20). -/
theorem powerOff_unlocked {i : Slot} {s : State} (hw : NoWork s i) (hb : OffIsBare s i) :
    ∃ t, carryOut 4 [.powerOff i, .unlocked i] s = some t ∧ Released i s t := by
  obtain ⟨u, hu, hoff⟩ := powerOff_bare hw hb
  have hc : (u.slot i).cls = .off := by rw [hu.slot]; rfl
  have heq := unlocked_eq hc hu.not_queued
  have hrel := ReleasedWithoutDrive.of_unlocked hc hu.not_queued (by rw [hu.slot]; rfl) (by rw [hu.slot]; rfl)
  refine ⟨unlocked i u, carryOut_append (l₁ := [.powerOff i]) hoff (carryOut_quiet rfl), ?_⟩
  rw [heq] at hrel ⊢
  refine ⟨?_, ?_, ?_, ⟨?_, ?_, ?_⟩, fun h => ?_, fun h d hd => hu.node h d hd, hu.bins, hu.flagSet⟩
  · unfold ReleasedWithoutDrive at hrel ⊢
    rwa [hu.changed.now_eq] at hrel ⊢
  · simpa using hu.run
  · simp only [State.modSlot_slot, SlotRec.movedTo_result]; rw [hu.slot]; rfl
  · simp only [State.modSlot_slot, SlotRec.movedTo_reservation]; rw [hu.slot]; rfl
  · simp only [State.modSlot_slot, SlotRec.movedTo_ship]; rw [hu.slot]; rfl
  · simp only [State.modSlot_slot, SlotRec.movedTo_diverted]; rw [hu.slot]; rfl
  · simpa using hu.adm h

theorem ResultWithoutTote.congr {s t : State} {i : Slot} {reason : StopReason} (h : ResultWithoutTote s i reason)
    (hr : (t.slot i).result = (s.slot i).result) : ResultWithoutTote t i reason := by
  obtain ⟨res, hres, hrest⟩ := h
  exact ⟨res, hr.trans hres, hrest⟩

/-- A slot in no state of its own is pulled: its result is decided first, then its power goes (R20). -/
theorem unlock_pull {i : Slot} {s : State} (he : (s.slot i).occ ≠ .empty) (hr : (s.slot i).occ ≠ .removeReady)
    (hh : (s.slot i).occ ≠ .held) (hp : (s.slot i).occ ≠ .powerWait) :
    unlock i s = ((pullResult i s).1, (pullResult i s).2 ++ [.powerOff i, .unlocked i]) := by
  unfold unlock
  split <;> first | contradiction | rfl

/-- A slot without run, drive and spin entry is released with its POWER request withdrawn (R19). -/
theorem unlock_waiting {i : Slot} {s : State} (hocc : (s.slot i).occ = .held ∨ (s.slot i).occ = .powerWait)
    (hrun : (s.slot i).run = none) (hc : (s.slot i).cls = .off) (hs : hasEntry s i .spin = false) :
    ∃ t, carryOut 3 (unlock i s).2 (unlock i s).1 = some t ∧
      (t.slot i).occ = .removeReady ∧ (t.slot i).unlocked = true ∧ (t.slot i).unlockTimer = some (s.now + 120000) ∧
      (t.slot i).cls = .off ∧ (t.slot i).result = (s.slot i).result ∧ hasEntry t i .power = false ∧
      (hasEntry s i .power = true → (t.slot i).adm = .off) := by
  let v := withdrawEntry i .power s
  have hv : v.slot i = if hasEntry s i .power = true ∧ EntryKind.power = .power then { s.slot i with adm := .off } else s.slot i :=
    withdrawEntry_slot ..
  have hvc : (v.slot i).cls = .off := by rw [hv]; split <;> exact hc
  have hvrun : (v.slot i).run = none := by rw [hv]; split <;> exact hrun
  have hvq : queued v i = false := withdrawEntry_not_queued hs
  have hnow : v.now = s.now := (withdrawEntry_granted ..).now
  have htells : unlock i s = (s, [.powerOff i, .hardStop i .pulled, .unlocked i]) := by
    unfold unlock
    rcases hocc with h | h <;> rw [h]
  have hchain : carryOut 3 [.powerOff i, .hardStop i .pulled, .unlocked i] s = some (unlocked i v) :=
    carryOut_append (l₁ := [.powerOff i]) (powerOff_off hc)
      (carryOut_append (l₁ := [.hardStop i .pulled]) (hardStop_none hvrun .pulled) (carryOut_quiet rfl))
  refine ⟨unlocked i v, by rw [htells]; exact hchain, ?_⟩
  rw [unlocked_eq hvc hvq]
  refine ⟨by simp, by simp, by simp [hnow], by simpa using hvc, ?_, hasEntry_of_queued hvq .power, fun h => ?_⟩
  · simp only [State.modSlot_slot, SlotRec.movedTo_result]; rw [hv]; split <;> rfl
  · simp [hv, h]

/-- A run that waits for power is stopped with PULLED once its power is gone (R19). -/
theorem unlock_waitingRun {i : Slot} {s : State} (hw : NoWork s i) (hb : OffIsBare s i)
    (hocc : (s.slot i).occ = .held ∨ (s.slot i).occ = .powerWait) (hres : (s.slot i).result = none)
    (hrun : (s.slot i).run.isSome) :
    ∃ t, carryOut 7 (unlock i s).2 (unlock i s).1 = some t ∧ ReleasedWithoutDrive s t i ∧ (t.slot i).run = none ∧
      ResultWithoutTote t i .pulled ∧ flagSet t (slotScope i) (slotFlagBit .planEnd) = true := by
  have htells : unlock i s = (s, [.powerOff i, .hardStop i .pulled, .unlocked i]) := by
    unfold unlock
    rcases hocc with h | h <;> rw [h]
  obtain ⟨u, hu, hoff⟩ := powerOff_bare hw hb
  obtain ⟨run, hurun⟩ := Option.isSome_iff_exists.1 (hu.run.trans hrun)
  obtain ⟨w, hw', hstop⟩ := hardStop_some (i := i) (reason := .pulled) hurun (by rw [hu.slot]; exact hres) rfl
  have hslot := hw'.slot
  have hwc : (w.slot i).cls = .off := by rw [hw'.slot, hu.slot]; rfl
  have hwd : (w.slot i).drive = none := by rw [hw'.slot, hu.slot]; rfl
  have hwa : (w.slot i).attn = none := by
    have hua : (u.slot i).attn = none := by rw [hu.slot]; rfl
    have := hw'.attn
    simpa [hua] using this
  have hwq : queued w i = false := (queued_congr (hw'.queue _)).trans hu.not_queued
  have hnow : w.now = s.now := hw'.changed.now_eq.trans hu.changed.now_eq
  have hrel := ReleasedWithoutDrive.of_unlocked hwc hwq hwd hwa
  refine ⟨unlocked i w, ?_, ?_, ?_, ?_, ?_⟩
  · rw [htells]
    exact carryOut_append (l₁ := [.powerOff i]) hoff (carryOut_append (l₁ := [.hardStop i .pulled]) hstop (carryOut_quiet rfl))
  · unfold ReleasedWithoutDrive at hrel ⊢
    rwa [hnow] at hrel
  · rw [unlocked_eq hwc hwq]; simp only [State.modSlot_slot, SlotRec.movedTo_run]; rw [hslot]
  · refine hw'.result.congr ?_
    rw [unlocked_eq hwc hwq]; simp
  · rw [unlocked_eq hwc hwq]; exact hw'.planEnd

/-- What a pull decides of a slot without a result (R20): a run is stopped, and without one the slot is graded. -/
theorem pullResult_ungraded {i : Slot} {s : State} (hw : NoWork s i) (hb : OffIsBare s i) (hres : (s.slot i).result = none) :
    ∃ v, carryOut 3 (pullResult i s).2 (pullResult i s).1 = some v ∧ (v.slot i).run = none ∧ ResultWithoutTote v i .pulled ∧
      flagSet v (slotScope i) (slotFlagBit .planEnd) = true ∧ NoWork v i ∧ OffIsBare v i ∧ v.now = s.now := by
  cases hrun : (s.slot i).run with
  | some run =>
    obtain ⟨v, hv, hstop⟩ := hardStop_some (i := i) (reason := .pulled) hrun hres rfl
    exact ⟨v, by simp [pullResult, hrun, hstop], by rw [hv.slot], hv.result, hv.planEnd, hv.noWork hw, hv.offIsBare hb,
      hv.changed.now_eq⟩
  | none =>
    have hpull : pullResult i s = (s, [.grade i .pulled]) := by simp [pullResult, hrun, hres]
    have hgrade : act (.grade i .pulled) s = (graded i .pulled s, []) := grade_eq hres .pulled
    refine ⟨graded i .pulled s, ?_, by rw [graded_slot], ⟨_, graded_result .., formResult_noTote s i rfl⟩, graded_planEnd ..,
      fun it hit => hw it (by simpa using hit), graded_offIsBare _ hb, (graded_changed ..).now_eq⟩
    rw [hpull]
    exact carryOut_mono (by decide) (carryOut_quiet hgrade)

theorem ReleasedWithoutDrive.congr {r s t : State} {i : Slot} (h : ReleasedWithoutDrive s t i) (hnow : s.now = r.now) :
    ReleasedWithoutDrive r t i := by
  unfold ReleasedWithoutDrive at h ⊢
  rwa [hnow] at h

/-- A slot that is neither HELD nor waits, without a result (R20). -/
theorem unlock_ungraded {i : Slot} {s : State} (hw : NoWork s i) (hb : OffIsBare s i) (he : (s.slot i).occ ≠ .empty)
    (hr : (s.slot i).occ ≠ .removeReady) (hh : (s.slot i).occ ≠ .held) (hp : (s.slot i).occ ≠ .powerWait)
    (hres : (s.slot i).result = none) :
    ∃ t, carryOut 7 (unlock i s).2 (unlock i s).1 = some t ∧ ReleasedWithoutDrive s t i ∧ (t.slot i).run = none ∧
      ResultWithoutTote t i .pulled ∧ flagSet t (slotScope i) (slotFlagBit .planEnd) = true := by
  obtain ⟨v, hpull, hrun, hresult, hplan, hvw, hvb, hnow⟩ := pullResult_ungraded hw hb hres
  obtain ⟨t, hoff, ht⟩ := powerOff_unlocked hvw hvb
  rw [unlock_pull he hr hh hp]
  refine ⟨t, carryOut_append hpull hoff, ht.released.congr hnow, ?_, hresult.congr ht.result, ht.flagSet _ _ hplan⟩
  simpa [hrun] using ht.run

/-- A slot in READY with a result: the result is kept, without a bin (R20). -/
theorem unlock_ready {i : Slot} {s : State} {res : Result} {d : DrivePart} (hw : NoWork s i) (hb : OffIsBare s i)
    (hocc : (s.slot i).occ = .ready) (hrun : (s.slot i).run = none) (hres : (s.slot i).result = some res)
    (hc : (s.slot i).cls ≠ .off) (hd : (s.slot i).drive = some d) :
    ∃ t, carryOut 4 (unlock i s).2 (unlock i s).1 = some t ∧ ReleasedWithoutDrive s t i ∧ (t.slot i).adm = .off ∧
      (t.slot i).result = some { res with bin := none, shipped := false } ∧
      (t.shelf (shelfOf i)).nodes[d.node] = .free := by
  let v := modResult i (fun res => { res with bin := none, shipped := false }) s
  have hv : v.slot i = { s.slot i with result := some { res with bin := none, shipped := false } } := by
    simp [v, modResult, hres]
  have hpull : pullResult i s = (v, []) := by simp [pullResult, hrun, hres, inTote, hocc, v]
  have hvb : OffIsBare v i := hb.congr (by rw [hv]) (by rw [hv]) (by rw [hv]) rfl
  obtain ⟨t, hoff, ht⟩ := powerOff_unlocked (s := v) hw hvb
  rw [unlock_pull (by simp [hocc]) (by simp [hocc]) (by simp [hocc]) (by simp [hocc]), hpull]
  exact ⟨t, hoff, ht.released.congr rfl, ht.adm (by rw [hv]; exact hc), by rw [ht.result, hv],
    ht.node (by rw [hv]; exact hc) d (by rw [hv]; exact hd)⟩

/-- What leaves the totes and then changes neither its places nor the bins is out of them (R199). -/
theorem LeftTote.outOfTotes {i : Slot} {s v t : State} (h : LeftTote i s v)
    (ht : (t.slot i).reservation = (v.slot i).reservation ∧ (t.slot i).ship = (v.slot i).ship ∧
      (t.slot i).diverted = (v.slot i).diverted) (hbins : t.bins = v.bins) : OutOfTotes s t i := by
  obtain ⟨hr, hs, hd⟩ := ht
  refine ⟨?_, ?_, ?_, fun b => by rw [hbins]; exact h.bins b⟩
  · rw [hr, h.slot]
  · rw [hs, h.slot]
  · rw [hd, h.slot]

/-- A slot in BIN_WAIT or SHIPPING also leaves its hold queue or its reservation (R20, R199). -/
theorem unlock_tote {i : Slot} {s : State} {res : Result} (hw : NoWork s i) (hb : OffIsBare s i)
    (hocc : (s.slot i).occ = .binWait ∨ (s.slot i).occ = .shipping) (hrun : (s.slot i).run = none)
    (hres : (s.slot i).result = some res) (hn : NobodyWaits s i) :
    ∃ t, carryOut 6 (unlock i s).2 (unlock i s).1 = some t ∧ ReleasedWithoutDrive s t i ∧ OutOfTotes s t i ∧
      (t.slot i).result = some { res with bin := none, shipped := false } := by
  have hin : inTote (s.slot i).occ = true := by rcases hocc with h | h <;> rw [h] <;> rfl
  have hpull : pullResult i s = (s, [.leaveTote i]) := by simp [pullResult, hrun, hres, hin]
  obtain ⟨v, hv, hleave⟩ := leaveTote_settled hn
  obtain ⟨t, hoff, ht⟩ := powerOff_unlocked (hv.noWork hw) (hv.offIsBare hb)
  have hne : ∀ o : Occupancy, inTote o = false → (s.slot i).occ ≠ o := fun o ho h => by rw [h, ho] at hin; cases hin
  rw [unlock_pull (hne _ rfl) (hne _ rfl) (hne _ rfl) (hne _ rfl), hpull]
  refine ⟨t, carryOut_append hleave hoff, ht.released.congr hv.changed.now_eq, hv.outOfTotes ht.tote ht.bins, ?_⟩
  rw [ht.result, hv.slot]; simp [hres]

/-- Settles O31, by the slot's occupancy. -/
theorem unlockReleasesTheSlot : Obligations.UnlockReleasesTheSlot := by
  intro tag p s i hlen hi hnext
  let u := serving 0x18#8 tag p s
  have hexec : exec (.slotUnlock tag p) s = answerRequest 0x18#8 tag (handleSlotUnlock p) u := serve_next hnext _
  have hhandle : handleSlotUnlock p u =
      if (u.slot i).occ = .empty then .refuse .badState else .ok (unlock i u).1 (unlock i u).2 := by
    unfold handleSlotUnlock
    rw [withLength_eq hlen, withSlot_val hi] <;> rfl
  have hok : ∀ {n : Nat} {t : State}, n ≤ Config.tellBound → (s.slot i).occ ≠ .empty →
      carryOut n (unlock i u).2 (unlock i u).1 = some t →
      exec (.slotUnlock tag p) s = .next (answered 0x18#8 tag .ok .none t) := fun hn hocc hcarry => by
    rw [hexec]
    exact answerRequest_ok (hhandle.trans (if_neg hocc)) hn hcarry
  refine ⟨fun h => ?_, fun h hc hq => ?_, fun hocc hrun hc hs => ?_, fun hw hb he hr => ⟨fun hres hor => ?_,
    fun res d hocc hrun hres hc hd => ?_, fun res hocc hrun hres hn => ?_⟩⟩
  · rw [hexec]
    exact answerRequest_refuse (hhandle.trans (if_pos h))
  · have hun : unlock i u = (u.modSlot i fun r => { r with unlocked := true, unlockTimer := some (s.now + 120000) }, []) := by
      have hlatch : unlockLatch i u = _ := if_pos ⟨hc, hq⟩
      have hocc : (u.slot i).occ = .removeReady := h
      simp only [unlock, hocc]
      exact congrArg (·, []) hlatch
    refine hok (n := 0) (by decide) (by simp [h]) ?_
    rw [hun]
    exact carryOut_nil ..
  · obtain ⟨t, hcarry, ht⟩ := unlock_waiting (s := u) hocc hrun hc hs
    exact ⟨t, hok (by decide) (by rcases hocc with h | h <;> simp [h]) hcarry, ht⟩
  · by_cases hwait : (s.slot i).occ = .held ∨ (s.slot i).occ = .powerWait
    · have hrun : (s.slot i).run.isSome := hor.resolve_right fun ⟨hh, hp⟩ => hwait.elim hh hp
      obtain ⟨t, hcarry, hrel, hrest⟩ := unlock_waitingRun (s := u) hw hb hwait hres hrun
      exact ⟨t, hok (by decide) he hcarry, hrel.congr rfl, hrest⟩
    · obtain ⟨hh, hp⟩ := not_or.1 hwait
      obtain ⟨t, hcarry, hrel, hrest⟩ := unlock_ungraded (s := u) hw hb he hr hh hp hres
      exact ⟨t, hok (by decide) he hcarry, hrel.congr rfl, hrest⟩
  · obtain ⟨t, hcarry, hrel, hrest⟩ := unlock_ready (s := u) hw hb hocc hrun hres hc hd
    exact ⟨t, hok (by decide) he hcarry, hrel.congr rfl, hrest⟩
  · obtain ⟨t, hcarry, hrel, hrest⟩ := unlock_tote (s := u) hw hb hocc hrun hres hn
    exact ⟨t, hok (by decide) he hcarry, hrel.congr rfl, hrest⟩

end Sys2Proof.Machine
end

