-- ==== Sys2Proof/Proofs/Presence.lean ====
section
/-! SUPPORT. The debounced presence settles: an insertion, a normal removal, a loss. -/

namespace Sys2Proof.Machine

/-! ## The loss (R15) -/

/-- A move to EMPTY takes the ladder's stage back to 0 (R63). -/
theorem SlotRec.movedTo_empty_ladder {r : SlotRec} (h : r.occ ≠ .empty) :
    (r.movedTo .empty).ladder = 0 ∧ (r.movedTo .empty).ladderInReady = false := by
  simp only [movedTo, h, if_false, enterLadder]
  split <;> exact ⟨rfl, rfl⟩

/-- The slot as a loss leaves it, once its power is off. -/
theorem lost_slot (i : Slot) (s : State) :
    (lost i s).slot i = ({ s.slot i with adm := .off, bootTimer := none } : SlotRec).movedTo .empty := by
  simp [lost]

theorem lost_bins (i : Slot) (s : State) : (lost i s).bins = s.bins := by simp [lost]

theorem lost_flags (i : Slot) (s : State) : flagSet (lost i s) (slotScope i) (slotFlagBit .lost) = true ∧
    flagSet (lost i s) (slotScope i) (slotFlagBit .removed) = true :=
  ⟨flagSet_setFlagBit_of (flagSet_raiseSlot ..) _ _, flagSet_raiseSlot ..⟩

/-- What the end of a loss keeps, and that it has taken place (R15). -/
structure Gone (i : Slot) (s t : State) : Prop where
  lost : LostSlot t i
  result : (t.slot i).result = (s.slot i).result
  identity : (t.slot i).identity = (s.slot i).identity
  tote : (t.slot i).reservation = (s.slot i).reservation ∧ (t.slot i).ship = (s.slot i).ship ∧
    (t.slot i).diverted = (s.slot i).diverted
  bins : t.bins = s.bins
  flagSet : ∀ c bit, flagSet s c bit = true → flagSet t c bit = true

/-- The power-off of a loss and the slot's entry to EMPTY (R15). -/
theorem powerOff_lost {i : Slot} {s : State} (hw : NoWork s i) (hb : OffIsBare s i) (hrun : (s.slot i).run = none)
    (hp : (s.slot i).present = false) (ho : (s.slot i).occ ≠ .empty) :
    ∃ t, carryOut 4 [.powerOff i, .lost i] s = some t ∧ Gone i s t := by
  obtain ⟨u, hu, hoff⟩ := powerOff_bare hw hb
  have hchain : carryOut 4 [.powerOff i, .lost i] s = some (lost i u) :=
    carryOut_append (l₁ := [.powerOff i]) hoff (carryOut_quiet rfl)
  have hslot := hu.slot
  have hocc : (u.slot i).occ = (s.slot i).occ := by rw [hslot]; rfl
  have hladder := (SlotRec.movedTo_empty_ladder
    (r := { u.slot i with adm := .off, bootTimer := none }) (by rw [← hocc] at ho; exact ho)).1
  have hurun : (u.slot i).run = none := by simpa [hrun] using hu.run
  have hq : hasEntry (lost i u) i .power = false := by
    refine (hasEntry_congr ?_ .power).trans (hasEntry_of_queued hu.not_queued .power)
    simp [lost]
  obtain ⟨hlost, hremoved⟩ := lost_flags i u
  refine ⟨lost i u, hchain, ⟨⟨?_, ?_, ?_, ?_, ?_, ?_, ?_, hq, hlost, hremoved⟩, ?_, ?_, ⟨?_, ?_, ?_⟩, ?_, ?_⟩⟩
  · simp [lost_slot]
  · simp [lost_slot]
  · simp only [lost_slot, SlotRec.movedTo_present]; rw [hslot]; exact hp
  · simp only [lost_slot, SlotRec.movedTo_cls]; rw [hslot]; rfl
  · simp only [lost_slot, SlotRec.movedTo_drive]; rw [hslot]; rfl
  · simpa [lost_slot] using hurun
  · rw [lost_slot]; exact hladder
  · simp only [lost_slot, SlotRec.movedTo_result]; rw [hslot]; rfl
  · simp only [lost_slot, SlotRec.movedTo_identity]; rw [hslot]; rfl
  · simp only [lost_slot, SlotRec.movedTo_reservation]; rw [hslot]; rfl
  · simp only [lost_slot, SlotRec.movedTo_ship]; rw [hslot]; rfl
  · simp only [lost_slot, SlotRec.movedTo_diverted]; rw [hslot]; rfl
  · rw [lost_bins, hu.bins]
  · exact fun c bit h => carryOut_flagSet hchain h

/-! ## The three cases -/

/-- The slot's record once the debounced presence has taken the raw level (R11). -/
def levelTaken (i : Slot) (s : State) : State := s.modSlot i fun r => { r with presTimer := none, present := r.presRaw }

/-- An insertion in EMPTY (R13). -/
theorem presence_inserted {i : Slot} {s : State} (hraw : (s.slot i).presRaw = true) (hp : (s.slot i).present = false)
    (hocc : (s.slot i).occ = .empty) : presenceSettles i s = insertion i (levelTaken i s) := by
  simp only [presenceSettles, hraw, hp, hocc, Bool.false_eq_true, if_false, if_true]
  rfl

/-- Any other change is a removal (R14, R15). -/
theorem presence_removed {i : Slot} {s : State} (hraw : (s.slot i).presRaw = false) (hp : (s.slot i).present = true) :
    presenceSettles i s = removal i (levelTaken i s) := by
  simp only [presenceSettles, hraw, hp, Bool.true_eq_false, Bool.false_eq_true, if_false]
  rfl

/-- The inserted slot, before power is asked for or it is held. -/
def insertedIn (i : Slot) (s : State) : State :=
  if (s.slot i).result.isNone then emptyConsole i (raiseSlot i .inserted s) else raiseSlot i .inserted s

theorem insertion_eq (i : Slot) (s : State) : insertion i s =
    if (s.shelf (shelfOf i)).enabled = true ∧ (s.slot i).enabled = true ∧ (s.slot i).result = none then
      (insertedIn i s, [.requestPower i .supervisor])
    else (setOcc i .held (insertedIn i s), []) := by
  have hslot : (raiseSlot i .inserted s).slot i = s.slot i := raiseSlot_slot ..
  unfold insertion insertedIn
  simp only [hslot]
  by_cases hr : (s.slot i).result = none
  · simp only [hr, Option.isNone_none, if_true]
    refine if_congr ?_ rfl rfl
    simp [emptyConsole, hr]
  · have hr' : (s.slot i).result.isNone = false := by simpa [Option.isSome_iff_ne_none] using hr
    simp [hr, hr']

theorem insertedIn_slot (i : Slot) (s : State) : ∃ con, (insertedIn i s).slot i = { s.slot i with con := con } := by
  unfold insertedIn
  split
  · exact ⟨_, by simp [emptyConsole]; rfl⟩
  · exact ⟨(s.slot i).con, by simp⟩

@[simp] theorem insertedIn_shelf (i : Slot) (s : State) (k : Shelf) : (insertedIn i s).shelf k = s.shelf k := by
  unfold insertedIn; split <;> simp [emptyConsole]

theorem insertedIn_flag (i : Slot) (s : State) : flagSet (insertedIn i s) (slotScope i) (slotFlagBit .inserted) = true := by
  unfold insertedIn; split <;> exact flagSet_raiseSlot ..

/-- What no request for power changes of a slot. -/
theorem requestPower_keeps {i : Slot} {s : State} :
    ((requestPower i .supervisor s).slot i).present = (s.slot i).present ∧
      ((requestPower i .supervisor s).slot i).presTimer = (s.slot i).presTimer ∧
      ((requestPower i .supervisor s).slot i).armed = (s.slot i).armed ∧
      ((requestPower i .supervisor s).slot i).locateTimer = (s.slot i).locateTimer := by
  by_cases hc : (s.slot i).cls = .off
  · by_cases hno : (s.shelf (shelfOf i)).enabled = false ∨ released (s.slot i) = true
    · have : requestPower i .supervisor s = s := by simp [requestPower, hc, hno]
      simp [this]
    · obtain ⟨hen, hrel⟩ := not_or.1 hno
      obtain ⟨-, hslot⟩ := requestPower_settled (by_ := .supervisor) hc (by simpa using hen) (by simpa using hrel) nofun
      rcases hslot with ⟨hslot, -⟩ | hslot
      · rw [hslot]; split <;> simp
      · unfold PoweredFrom at hslot
        rw [hslot]
        dsimp only
        split <;> simp
  · have : requestPower i .supervisor s = s := by simp [requestPower, hc]
    simp [this]

theorem insertion_settled {i : Slot} {s : State} (hocc : (s.slot i).occ = .empty) :
    ∃ t, carryOut 1 (insertion i s).2 (insertion i s).1 = some t ∧ (t.slot i).present = (s.slot i).present ∧
      (t.slot i).presTimer = (s.slot i).presTimer ∧
      flagSet t (slotScope i) (slotFlagBit .inserted) = true ∧ (t.slot i).armed = (s.slot i).armed ∧
      (t.slot i).locateTimer = (s.slot i).locateTimer ∧
      ((s.shelf (shelfOf i)).enabled = true → (s.slot i).enabled = true → (s.slot i).result = none →
        (s.slot i).cls = .off → (s.slot i).unlocked = false →
        ((t.slot i).occ = .powerWait ∧ (t.slot i).adm = .queued ∧ hasEntry t i .power = true) ∨
          ((t.slot i).occ = .booting ∧ (t.slot i).adm = .booting ∧ (t.slot i).cls = .idle)) ∧
      (((s.shelf (shelfOf i)).enabled = false ∨ (s.slot i).enabled = false ∨ (s.slot i).result ≠ none) →
        (t.slot i).occ = .held) := by
  obtain ⟨con, hslot⟩ := insertedIn_slot i s
  by_cases hask : (s.shelf (shelfOf i)).enabled = true ∧ (s.slot i).enabled = true ∧ (s.slot i).result = none
  · -- Power is asked for.
    have htells : insertion i s = (insertedIn i s, [.requestPower i .supervisor]) := (insertion_eq i s).trans (if_pos hask)
    have hcarry : carryOut 1 [.requestPower i .supervisor] (insertedIn i s) =
        some (requestPower i .supervisor (insertedIn i s)) := carryOut_quiet rfl
    obtain ⟨hpres, htimer, harmed, hlocate⟩ := requestPower_keeps (i := i) (s := insertedIn i s)
    rw [htells]
    refine ⟨_, hcarry, ?_, ?_, carryOut_flagSet hcarry (insertedIn_flag i s), ?_, ?_, fun hen _ _ hc hu => ?_, fun h => ?_⟩
    · rw [hpres, hslot]
    · rw [htimer, hslot]
    · rw [harmed, hslot]
    · rw [hlocate, hslot]
    · have hrel : released ((insertedIn i s).slot i) = false := by rw [hslot]; simp [released, hocc, hu]
      obtain ⟨-, hasked⟩ := requestPower_settled (i := i) (by_ := .supervisor) (s := insertedIn i s) (by rw [hslot]; exact hc)
        (by simpa using hen) hrel nofun
      have ho : ((insertedIn i s).slot i).occ = .empty := by rw [hslot]; exact hocc
      rw [ho] at hasked
      simp only [reduceCtorEq, or_self, if_false] at hasked
      rcases hasked with ⟨hq, hin⟩ | hp
      · exact .inl ⟨by rw [hq]; simp, by rw [hq]; simp, hin⟩
      · unfold PoweredFrom at hp
        exact .inr ⟨by rw [hp]; simp, by rw [hp], by rw [hp]⟩
    · obtain ⟨hen, hsl, hres⟩ := hask
      rcases h with h | h | h
      · rw [hen] at h; cases h
      · rw [hsl] at h; cases h
      · exact absurd hres h
  · -- The slot is held.
    have htells : insertion i s = (setOcc i .held (insertedIn i s), []) := (insertion_eq i s).trans (if_neg hask)
    rw [htells]
    refine ⟨_, carryOut_nil .., ?_, ?_, ?_, ?_, ?_, fun hen hsl hres => absurd ⟨hen, hsl, hres⟩ hask, fun _ => by simp⟩
    · simp [hslot]
    · simp [hslot]
    · rw [flagSet_congr (setOcc_flags i _ (by decide))]; exact insertedIn_flag i s
    · simp [hslot]
    · simp [hslot]

/-- A removal in REMOVE_READY (R14, R187). -/
theorem normalRemoval_settled {i : Slot} {s : State} (hocc : (s.slot i).occ = .removeReady) :
    OtherSlotsSame s (normalRemoval i s) i ∧
      (normalRemoval i s).slot i = { s.slot i with
        occ := .empty, unlocked := false, unlockTimer := none, reservation := none, ladder := 0, ladderInReady := false } ∧
      flagSet (normalRemoval i s) (slotScope i) (slotFlagBit .removed) = true ∧
      ∀ b : BinIx, (normalRemoval i s).bins[b] = if (s.slot i).reservation = some b then
          { s.bins[b] with reserved := s.bins[b].reserved - 1, fill := s.bins[b].fill + 1 }
        else s.bins[b] := by
  have hother : ∀ j, j ≠ i → (convertReservation i s).slot j = s.slot j := fun j hj => by
    unfold convertReservation
    split
    · rfl
    · rw [State.modSlot_slot_ne _ hj]; rfl
  have hslot : (convertReservation i s).slot i = { s.slot i with reservation := none } := by
    unfold convertReservation
    split
    · next h => rw [← h]
    · simp
  refine ⟨fun j hj => ?_, ?_, ?_, fun b => ?_⟩
  · unfold normalRemoval lockLatch
    rw [setOcc_slot_ne _ _ _ hj, raiseSlot_slot, State.modSlot_slot_ne _ hj, hother j hj]
  · unfold normalRemoval lockLatch
    rw [setOcc_slot, raiseSlot_slot, State.modSlot_slot, hslot]
    simp [SlotRec.movedTo, hocc, enterLadder]
  · unfold normalRemoval
    rw [flagSet_congr (setOcc_flags i _ (by decide))]
    exact flagSet_raiseSlot ..
  · unfold normalRemoval lockLatch
    rw [setOcc_bins, raiseSlot_bins, State.modSlot_bins]
    unfold convertReservation
    split
    · next h => simp [h]
    · next c h =>
      by_cases hc : b = c
      · subst hc; rw [State.modSlot_bins, State.modBin_bin]; simp [h]
      · rw [State.modSlot_bins, State.modBin_bin_ne _ hc]; simp [h, Ne.symm hc]

/-- A loss in no state of a tote (R15). -/
theorem loss_plain {i : Slot} {s : State} (ht : inTote (s.slot i).occ = false) :
    loss i s = (s, [.hardStop i .lost, .powerOff i, .lost i]) := by
  simp [loss, ht]

theorem removal_loss {i : Slot} {s : State} (he : (s.slot i).occ ≠ .empty) (hr : (s.slot i).occ ≠ .removeReady) :
    removal i s = loss i s := by
  unfold removal
  split <;> first | contradiction | rfl

/-- A loss of a slot without a run (R15). -/
theorem loss_idle {i : Slot} {s : State} (hw : NoWork s i) (hb : OffIsBare s i) (hrun : (s.slot i).run = none)
    (hp : (s.slot i).present = false) (ho : (s.slot i).occ ≠ .empty) (ht : inTote (s.slot i).occ = false) :
    ∃ t, carryOut 5 (loss i s).2 (loss i s).1 = some t ∧ Gone i s t := by
  obtain ⟨t, hcarry, hgone⟩ := powerOff_lost hw hb hrun hp ho
  rw [loss_plain ht]
  exact ⟨t, carryOut_append (l₁ := [.hardStop i .lost]) (hardStop_none hrun .lost) hcarry, hgone⟩

/-- A loss of a slot in its run: the run is graded LOST (R15, R180). -/
theorem loss_running {i : Slot} {s : State} {run : Run} (hw : NoWork s i) (hb : OffIsBare s i)
    (hrun : (s.slot i).run = some run) (hres : (s.slot i).result = none) (hp : (s.slot i).present = false)
    (ho : (s.slot i).occ ≠ .empty) (ht : inTote (s.slot i).occ = false) :
    ∃ t, carryOut 7 (loss i s).2 (loss i s).1 = some t ∧ LostSlot t i ∧ ResultWithoutTote t i .lost ∧
      (t.slot i).identity = (s.slot i).identity ∧ flagSet t (slotScope i) (slotFlagBit .planEnd) = true := by
  obtain ⟨v, hv, hstop⟩ := hardStop_some hrun hres (reason := .lost) rfl
  obtain ⟨t, hcarry, hgone⟩ := powerOff_lost (hv.noWork hw) (hv.offIsBare hb) (by rw [hv.slot]) (by rw [hv.slot]; exact hp)
    (by rw [hv.slot]; exact ho)
  rw [loss_plain ht]
  refine ⟨t, carryOut_append (l₁ := [.hardStop i .lost]) hstop hcarry, hgone.lost, hv.result.congr hgone.result, ?_,
    hgone.flagSet _ _ hv.planEnd⟩
  rw [hgone.identity, hv.slot]

/-- A loss of a slot in BIN_WAIT or SHIPPING (R15, R199). -/
theorem loss_tote {i : Slot} {s : State} {res : Result} (hw : NoWork s i) (hb : OffIsBare s i)
    (hrun : (s.slot i).run = none) (hres : (s.slot i).result = some res) (hp : (s.slot i).present = false)
    (ho : (s.slot i).occ ≠ .empty) (ht : inTote (s.slot i).occ = true) (hn : NobodyWaits s i) :
    ∃ t, carryOut 7 (loss i s).2 (loss i s).1 = some t ∧ LostSlot t i ∧ OutOfTotes s t i ∧
      (t.slot i).result = some { res with bin := none, shipped := false } := by
  obtain ⟨v, hv, hleave⟩ := leaveTote_settled hn
  obtain ⟨t, hcarry, hgone⟩ := powerOff_lost (hv.noWork hw) (hv.offIsBare hb) (by rw [hv.slot]; exact hrun)
    (by rw [hv.slot]; exact hp) (by rw [hv.slot]; exact ho)
  have htells : loss i s = (s, [.hardStop i .lost, .leaveTote i, .powerOff i, .lost i]) := by simp [loss, ht]
  rw [htells]
  refine ⟨t, carryOut_append (l₁ := [.hardStop i .lost]) (hardStop_none hrun .lost)
    (carryOut_append (l₁ := [.leaveTote i]) hleave hcarry), hgone.lost, hv.outOfTotes hgone.tote hgone.bins, ?_⟩
  rw [hgone.result, hv.slot]; simp [hres]

/-- Settles O35, by the level that settles and the slot's occupancy. -/
theorem presenceSettles_spec : Obligations.PresenceSettles := by
  intro i s htimer
  let v := levelTaken i s
  have hv : v.slot i = { s.slot i with presTimer := none, present := (s.slot i).presRaw } := by simp [v, levelTaken]
  have hexec : ∀ {n : Nat} {t : State}, n ≤ Config.tellBound →
      carryOut n (presenceSettles i s).2 (presenceSettles i s).1 = some t →
      exec (.presenceDebounceExpiry i) s = .next (startTx t) := fun hn hcarry =>
    (if_neg (by simpa [Option.isSome_iff_ne_none] using htimer)).trans (conclude_of hn hcarry)
  refine ⟨fun hraw hp hocc => ?_, fun hraw hp hocc => ?_, fun hraw hp he hr hw hb => ?_⟩
  · obtain ⟨t, hcarry, ht⟩ := insertion_settled (i := i) (s := v) (by rw [hv]; exact hocc)
    rw [presence_inserted hraw hp hocc] at hexec
    refine ⟨startTx t, hexec (by decide) hcarry, ?_⟩
    rw [hv, hraw] at ht
    simpa [hasEntry, v, levelTaken] using ht
  · have hpres : presenceSettles i s = (normalRemoval i v, []) := by
      have hocc' : ((levelTaken i s).slot i).occ = .removeReady := by rw [← hocc, ← show _ = _ from congrArg SlotRec.occ hv]
      rw [presence_removed hraw hp]
      simp only [removal, hocc']
      rfl
    obtain ⟨hother, hslot, hflag, hbins⟩ := normalRemoval_settled (i := i) (s := v) (by rw [hv]; exact hocc)
    refine ⟨startTx (normalRemoval i v), hexec (n := 0) (by decide) (by rw [hpres]; exact carryOut_nil ..), ?_, ?_, ?_, ?_⟩
    · intro j hj
      rw [startTx_slot, hother j hj]
      exact State.modSlot_slot_ne _ hj _
    · rw [startTx_slot, hslot, hv, hraw]
    · rw [flagSet_startTx]; exact hflag
    · intro b
      rw [startTx_bins, hbins, hv]
      rfl
  · have hloss : presenceSettles i s = loss i v :=
      (presence_removed hraw hp).trans (removal_loss (by rw [hv]; exact he) (by rw [hv]; exact hr))
    have hvb : OffIsBare v i := hb.congr (by rw [hv]) (by rw [hv]) (by rw [hv]) rfl
    have hvp : (v.slot i).present = false := by rw [hv]; exact hraw
    have hvo : (v.slot i).occ ≠ .empty := by rw [hv]; exact he
    have hvin : inTote (v.slot i).occ = inTote (s.slot i).occ := by rw [hv]
    have hlost : ∀ {t : State}, LostSlot t i → LostSlot (startTx t) i := fun h => by
      unfold LostSlot at h ⊢
      simpa [hasEntry] using h
    rw [hloss] at hexec
    refine ⟨fun hrun hnb hns => ?_, fun run hrun hres hnb hns => ?_, fun res hocc hrun hres hn => ?_⟩
    · obtain ⟨t, hcarry, ht⟩ := loss_idle (s := v) hw hvb (by rw [hv]; exact hrun) hvp hvo
        (by rw [hvin]; simp [inTote, hnb, hns])
      refine ⟨startTx t, hexec (by decide) hcarry, hlost ht.lost, ?_, ?_⟩
      · rw [startTx_slot, ht.result, hv]
      · rw [startTx_slot, ht.identity, hv]
    · obtain ⟨t, hcarry, hgone, hresult, hident, hplan⟩ := loss_running (s := v) hw hvb (by rw [hv]; exact hrun)
        (by rw [hv]; exact hres) hvp hvo (by rw [hvin]; simp [inTote, hnb, hns])
      refine ⟨startTx t, hexec (by decide) hcarry, hlost hgone, hresult.congr (by simp), ?_, ?_⟩
      · rw [startTx_slot, hident, hv]
      · rw [flagSet_startTx]; exact hplan
    · obtain ⟨t, hcarry, hgone, hout, hresult⟩ := loss_tote (s := v) (res := res) hw hvb (by rw [hv]; exact hrun)
        (by rw [hv]; exact hres) hvp hvo (by rw [hvin]; rcases hocc with h | h <;> simp [inTote, h])
        (by unfold NobodyWaits; rw [hv]; exact hn)
      refine ⟨startTx t, hexec (by decide) hcarry, hlost hgone, ?_, by rw [startTx_slot]; exact hresult⟩
      unfold OutOfTotes at hout ⊢
      rw [hv] at hout
      simpa [v, levelTaken] using hout

end Sys2Proof.Machine
end

