-- ==== Sys2Proof/Proofs/LastPhase.lean ====
section
/-! SUPPORT. A report that the Plan Runner takes, the end of a run's last phase, and the clear of the attention that brought
the report. -/

namespace Sys2Proof.Machine

/-! ## The clear of a record (R103) -/

/-- What the clear of a slot's attention record leaves: the record, its summary and the marks of its reports aside, the slot
is as it was. -/
structure Cleared (i : Slot) (s t : State) : Prop where
  slot : t.slot i = { s.slot i with
    attn := (t.slot i).attn, summary := (t.slot i).summary, reports := (t.slot i).reports, run := (t.slot i).run }
  run : (t.slot i).run.isSome = (s.slot i).run.isSome
  bins : t.bins = s.bins
  flags : t.flags = s.flags

theorem nextNodeClear_busOnly (k : Shelf) (s : State) : BusOnly k s (nextNodeClear k s) := by
  unfold nextNodeClear
  split
  · exact BusOnly.trans (.of_mod rfl) (submitWide_busOnly ..)
  · exact .refl k s

/-- An owner that is told SUPERSEDED of an item of the kind of ATTN_CLEAR does no more than go on to the next node, whoever
it is (R53, R96). -/
theorem superseded_clear {it : Item} (h : it.cmd.kind = .attnClear) (s : State) :
    ∃ u, act (.answered it .superseded) s = (u, []) ∧ BusOnly it.shelf s u := by
  have hstay : ∀ {x : State × List Tell}, x = (s, []) → ∃ u, x = (u, []) ∧ BusOnly it.shelf s u := fun hx =>
    ⟨s, hx, .refl _ s⟩
  have hcmd : it.cmd = .attnClear ∨ ∃ n, it.cmd = .nodeClear n := by
    cases hc : it.cmd <;> first | exact .inl rfl | exact .inr ⟨_, rfl⟩ | (rw [hc] at h; cases h)
  simp only [act, answerOwner]
  split
  · rcases hcmd with hc | ⟨n, hc⟩ <;> exact hstay (by simp [attachAnswered, hc])
  · rcases hcmd with hc | ⟨n, hc⟩
    · exact hstay (by cases hs : it.slot <;> simp [attentionAnswered, hc, hs, clearAnswered])
    · exact ⟨nextNodeClear it.shelf s, by simp [attentionAnswered, hc], nextNodeClear_busOnly ..⟩
  · rcases hcmd with hc | ⟨n, hc⟩ <;> exact hstay (by simp [planAnswered, hc])
  · refine hstay ?_
    unfold shipAnswered
    split
    · rfl
    · split
      · rfl
      · split <;> first | rfl | contradiction
  · refine hstay ?_
    unfold pollAnswered
    split
    · simp_all
    · rfl

theorem Cleared.refl (i : Slot) (s : State) : Cleared i s s := ⟨rfl, rfl, rfl, rfl⟩

theorem Cleared.trans {i : Slot} {s t u : State} (h : Cleared i s t) (h' : Cleared i t u) : Cleared i s u where
  slot := by
    have := h'.slot
    generalize u.slot i = r at this ⊢
    rw [this, h.slot]
  run := h'.run.trans h.run
  bins := h'.bins.trans h.bins
  flags := h'.flags.trans h.flags

theorem Cleared.of_bus {i : Slot} {k : Shelf} {s t : State} (h : BusOnly k s t) : Cleared i s t :=
  ⟨by rw [h.slot], by rw [h.slot], h.bins, h.flags⟩

theorem discardRecord_cleared (i : Slot) (s : State) : Cleared i s (discardRecord i s) := by
  obtain ⟨hslot, hrun⟩ := discardRecord_slot i s
  obtain ⟨f, hf⟩ := discardRecord_modSlot i s
  refine ⟨?_, hrun, by rw [hf]; rfl, by rw [hf]; rfl⟩
  generalize hr : (discardRecord i s).slot i = r at hslot ⊢
  rw [hslot]

/-- What a submission tells its owner, or the owner whose item it takes the place of (R53). -/
theorem submit_tells (i : Slot) (cmd : BusCmd) (owner : Owner) (s : State) :
    (submit i cmd owner s).2 = [] ∨
      (∃ o, isItemOf i cmd.kind o = true ∧ (submit i cmd owner s).2 = [.answered o .superseded]) ∨
      ∃ a, (a = .notBound ∨ a = .noResponse) ∧ (submit i cmd owner s).2 =
        [.answered { shelf := shelfOf i, slot := some i, cmd := cmd, owner := owner } a] := by
  unfold submit submitSlot
  by_cases hd : (s.slot i).drive.isNone
  · exact .inr (.inr ⟨.notBound, .inl rfl, by simp [hd]⟩)
  by_cases hs : (s.slot i).silent
  · exact .inr (.inr ⟨.noResponse, .inr rfl, by simp [hd, hs]⟩)
  cases ho : pendingItem (s.shelf (shelfOf i)).work i cmd.kind with
  | none => exact .inl (by simp [hd, hs, ho])
  | some o => exact .inr (.inl ⟨o, List.find?_some ho, by simp [hd, hs, ho]⟩)

/-- The clear of a record comes to an end at once, as far as its slot is concerned. -/
theorem clearRecord_settled (i : Slot) (s : State) : ∃ t, carryOut 2 [.clearRecord i] s = some t ∧ Cleared i s t := by
  by_cases ha : (s.slot i).attn.isNone
  · exact ⟨s, carryOut_mono (by decide) (carryOut_quiet (if_pos ha)), .refl i s⟩
  have hact : act (.clearRecord i) s =
      submit i .attnClear .attentionUnit (modAttn i (fun a => { a with clearPending := true }) s) := if_neg ha
  have hmod : Cleared i s (modAttn i (fun a => { a with clearPending := true }) s) := by
    refine ⟨?_, ?_, rfl, rfl⟩ <;> simp [modAttn]
  have hcleared := hmod.trans (Cleared.of_bus (submit_busOnly i .attnClear .attentionUnit
    (modAttn i (fun a => { a with clearPending := true }) s)))
  have htells := submit_tells i .attnClear .attentionUnit (modAttn i (fun a => { a with clearPending := true }) s)
  generalize submit i .attnClear .attentionUnit (modAttn i (fun a => { a with clearPending := true }) s) = x at hact hcleared htells
  obtain ⟨u, l⟩ := x
  dsimp only at hcleared htells
  rcases htells with hl | ⟨o, ho, hl⟩ | ⟨a, ha, hl⟩
  · exact ⟨u, carryOut_act (n := 1) hact (by rw [hl]; exact carryOut_nil ..), hcleared⟩
  · obtain ⟨-, hkind⟩ := isItemOf_iff.1 ho
    obtain ⟨w, hw, hbus⟩ := superseded_clear hkind u
    exact ⟨w, carryOut_act (n := 1) hact (by rw [hl]; exact carryOut_quiet hw), hcleared.trans (.of_bus hbus)⟩
  · rcases ha with rfl | rfl
    · exact ⟨u, carryOut_act (n := 1) hact (by rw [hl]; exact carryOut_quiet rfl), hcleared⟩
    · exact ⟨discardRecord i u, carryOut_act (n := 1) hact (by rw [hl]; exact carryOut_quiet rfl),
        hcleared.trans (discardRecord_cleared i u)⟩

/-! ## A report taken now (log 5) -/

/-- What the taking of a report leaves of the slot before the Plan Runner acts on it: the report and the outcome of its
attention's summary. -/
theorem takeReport_now {i : Slot} {s : State} {kind : ReportKind} (h : TakenNow s i kind) :
    ∃ reports summary, ∃ tail : List Tell, (tail = [] ∨ tail = [.clearRecord i]) ∧
      takeReport i kind s =
        ((actOnReport i kind true (s.modSlot i fun r => { r with reports := reports, summary := summary })).1,
          (actOnReport i kind true (s.modSlot i fun r => { r with reports := reports, summary := summary })).2 ++ tail) := by
  rcases h with h | ⟨owes, owns, h⟩
  · refine ⟨(s.slot i).reports, (s.slot i).summary, [], .inl rfl, ?_⟩
    rw [State.modSlot_eq_self rfl]
    simp [takeReport, h, takeKind, toldNow]
  · let v := s.modSlot i fun r => { r with reports := removeReport r.reports (sourceOf kind) }
    have htake : takeReport i kind s =
        takeKind i { kind := kind, live := true, owesClear := owes, ownsSummary := owns } v := by
      simp only [takeReport, h, if_true]
      rfl
    have htail : (if owes = true then [Tell.clearRecord i] else []) = [] ∨
        (if owes = true then [Tell.clearRecord i] else []) = [Tell.clearRecord i] := by cases owes <;> simp
    cases owns with
    | false =>
      refine ⟨removeReport (s.slot i).reports (sourceOf kind), (s.slot i).summary, _, htail, ?_⟩
      have hv : v = s.modSlot i fun r =>
          { r with reports := removeReport (s.slot i).reports (sourceOf kind), summary := (s.slot i).summary } :=
        State.modSlot_congr rfl
      rw [htake, ← hv]
      rfl
    | true =>
      refine ⟨removeReport (s.slot i).reports (sourceOf kind),
        (s.slot i).summary.map fun m => { m with outcome := summaryOutcome v i kind true }, _, htail, ?_⟩
      have hv : setOutcome i (summaryOutcome v i kind true) v = s.modSlot i fun r =>
          { r with
            reports := removeReport (s.slot i).reports (sourceOf kind)
            summary := (s.slot i).summary.map fun m => { m with outcome := summaryOutcome v i kind true } } := by
        simp only [v, setOutcome, State.modSlot_modSlot]
        exact State.modSlot_congr rfl
      rw [htake, ← hv]
      rfl

/-! ## The end of the last phase (R120, R127) -/

/-- What a spin-down leaves of a graded slot. -/
theorem spinDown_keeps {i : Slot} {s : State} {P : SlotRec → Prop} (hP : ∀ e ∈ (s.shelf (shelfOf i)).queue, e.slot = i →
      ∀ t : State, P (t.slot i) → P ((grant e t).slot i))
    (hidle : P (s.slot i) → P { s.slot i with cls := .idle, spinRank := none, spinTimer := none, spinReq := none })
    (h : P (s.slot i)) : P ((spinDown i s).slot i) := by
  have hwith : ∀ u : State, P (u.slot i) → P ((withdrawEntry i .spin u).slot i) := fun u hu => by
    rw [withdrawEntry_slot]; simpa using hu
  have hexam : P ((examine (shelfOf i) (toIdle i s)).slot i) :=
    examine_slot_keeps (s := toIdle i s) hP (by simpa [toIdle] using hidle h)
  unfold spinDown
  refine hwith _ ?_
  split
  · exact hexam
  · exact hexam
  · exact h

/-- What every grant keeps of a slot without a run that does not wait for its first power. -/
theorem grant_keeps_graded {i : Slot} {o : Occupancy} {x : Option Result} (ho : o ≠ .powerWait) (e : QueueEntry) (t : State)
    (h : (t.slot i).occ = o ∧ (t.slot i).result = x ∧ (t.slot i).run = none) :
    ((grant e t).slot i).occ = o ∧ ((grant e t).slot i).result = x ∧ ((grant e t).slot i).run = none := by
  obtain ⟨hocc, hres, hrun⟩ := h
  by_cases hi : i = e.slot
  · subst hi
    have ho' : (t.slot e.slot).occ ≠ .powerWait := by rw [hocc]; exact ho
    obtain ⟨f, hf, hrec⟩ := grant_eq e t
    rw [hf, State.modSlot_slot]
    rcases hrec with ⟨rank, boot, -, hrec⟩ | ⟨rank, window, -, hrec⟩
    · rw [hrec]
      refine ⟨by rw [SlotRec.poweredOn_occ, if_neg ho', hocc], by simp [hres], ?_⟩
      unfold SlotRec.poweredOn
      simp only [ho', if_false]
      split <;> simp [hrun]
    · rw [hrec]; exact ⟨hocc, hres, hrun⟩
  · rw [grant_slot_ne hi]; exact ⟨hocc, hres, hrun⟩

/-- The run as its last phase leaves it at its grading: the phase has passed, with a dose of 0 (R116, R120). -/
def Run.passedLast (run : Run) : Run :=
  writeOutcome 0 { run with decided := some passVerdict, state := .ended }

/-- A slot whose run has no phase left after one that passed is graded (R127): three tells lead to its result. -/
theorem endCause_grades {i : Slot} {s : State} {run : Run} {code : Byte} {scan : ScanTag} {wall : Nat} {onFail : OnFail}
    (hrun : (s.slot i).run = some run) (hstate : run.state = .running) (hdec : run.decided = none)
    (hstop : run.stop = none) (hadm : (s.slot i).adm = .bound) (hres : (s.slot i).result = none)
    (hphase : phaseRec s run = some { body := .driveTest code scan wall, onFail := onFail })
    (hlast : run.phase + 1 = run.outcomes.length) :
    ∃ x, x.slot i = { s.slot i with run := some run.passedLast, ladder := 0 } ∧ Changed s x ∧ x.bins = s.bins ∧
      flagSet x (slotScope i) (slotFlagBit .phaseEnd) = true ∧
      ∀ n t, carryOut n [.spinDown i, .enterBinWait i] (graded i .none x) = some t →
        carryOut (n + 3) [.endCause i passVerdict true] s = some t := by
  let ended : Run := { run with decided := some passVerdict, state := .ended }
  let w := s.modRun i fun run => { run with decided := some (run.decided.getD passVerdict), state := .ended }
  let x := raiseSlot i .phaseEnd ((w.modRun i (writeOutcome (endedDose w ended))).modSlot i fun r => { r with ladder := 0 })
  have hw : (w.slot i).run = some ended := by simp [w, hrun, hdec, ended]
  have hdose : endedDose w ended = 0 := by
    have : phaseRec w ended = phaseRec s run := rfl
    simp [endedDose, this, hphase]
  have hend : act (.endCause i passVerdict true) s = (w, [.phaseEnded i]) := by
    simp only [act, endCause, hrun, hdec, hstate, Option.isSome_none, Bool.false_eq_true, reduceCtorEq, or_self, if_false,
      Bool.not_true, Bool.and_false]
    rfl
  have hended : act (.phaseEnded i) w = (x, [.grade i .none]) := by
    have hfail : ∀ o : OnFail, failStops (ended.decided.getD passVerdict) o = false := fun _ => rfl
    have hmore : ¬ended.phase + 1 < ended.outcomes.length := Nat.not_lt.2 (Nat.le_of_eq hlast.symm)
    have hnostop : ended.stop = none := hstop
    simp only [act, phaseEnded, hw, goOn, hnostop, hfail, Bool.false_eq_true, if_false, if_neg hmore]
    rfl
  have hslot : x.slot i = { s.slot i with run := some run.passedLast, ladder := 0 } := by
    simp [x, w, hrun, hdec, hdose, Run.passedLast]
  have hgrade : act (.grade i .none) x = (graded i .none x, [.spinDown i, .enterBinWait i]) := by
    have hxres : (x.slot i).result = none := by rw [hslot]; exact hres
    have hxadm : (x.slot i).adm = .bound := by rw [hslot]; exact hadm
    simp only [act, grade_eq hxres, leadsToTote, hxadm, if_true]
  refine ⟨x, hslot, .raiseSlot _ _ (.slots _ (.slots _ (.slots _ (.refl s)))), by simp [x, w], flagSet_raiseSlot .., ?_⟩
  exact fun n t h => carryOut_act hend (carryOut_act hended (carryOut_act hgrade h))

/-- With no rules loaded the default bin takes every result (R183). -/
theorem formResult_default {s : State} {i : Slot} (h : s.ruleCount = 0) :
    (formResult s i .none).bin = some s.defaultBin ∧ (formResult s i .none).ruleIndex = 16 := by
  have hmatch : ∀ g, firstMatch s g = none := fun g => by simp [firstMatch, h]
  have hlead : leadsToTote (gradeInputs (s.slot i) .none).stop = true := rfl
  simp [formResult, chooseBin, hmatch, hlead]

/-- The result of a run whose last phase has passed (R178, R179). -/
theorem formResult_passedLast {i : Slot} {s x : State} {run : Run}
    (hx : x.slot i = { s.slot i with run := some run.passedLast, ladder := 0 }) :
    let res := formResult x i .none
    (res.planId = run.planId ∧ res.shipped = false ∧ res.firstGrown = (s.slot i).seg.firstGrown) ∧
      res.inputs.stop = .none ∧ res.inputs.attachOk = true ∧ res.inputs.trips = run.trips ∧
        res.inputs.oobSeconds = run.oobRun ∧ res.inputs.runDose = min 16777215 run.runDose ∧
        res.inputs.failedPhases = failedPhases (setNth run.outcomes run.phase
          (.ended { outcome := .pass, reason := .none, detail := 0 } run.wall 0)) ∧
        res.inputs.worstHead = worstHead (s.slot i).seg.heads ∧
        res.inputs.totalSectors = totalSectors (s.slot i).seg.heads := by
  simp [formResult, gradeInputs, hx, Run.passedLast, writeOutcome, satAdd, passVerdict]

/-- A slot in TESTING whose last phase passes waits for its bin, which has no free place (R127, R178, R185). -/
theorem lastPhase_waits {i : Slot} {s : State} {run : Run} {code : Byte} {scan : ScanTag} {wall : Nat} {onFail : OnFail}
    (hrun : (s.slot i).run = some run) (hstate : run.state = .running) (hdec : run.decided = none)
    (hstop : run.stop = none) (hadm : (s.slot i).adm = .bound) (hocc : (s.slot i).occ = .testing)
    (hres : (s.slot i).result = none)
    (hphase : phaseRec s run = some { body := .driveTest code scan wall, onFail := onFail })
    (hlast : run.phase + 1 = run.outcomes.length) (hrules : s.ruleCount = 0)
    (hfull : s.bins[s.defaultBin].hold ≠ [] ∨
      s.bins[s.defaultBin].capacity ≤ s.bins[s.defaultBin].fill + s.bins[s.defaultBin].reserved) :
    ∃ x y, carryOut 6 [.endCause i passVerdict true] s = some y ∧
      x.slot i = { s.slot i with run := some run.passedLast, ladder := 0 } ∧
      (formResult x i .none).bin = some s.defaultBin ∧ (formResult x i .none).ruleIndex = 16 ∧
      (y.slot i).result = some (formResult x i .none) ∧ (y.slot i).run = none ∧ (y.slot i).occ = .binWait ∧
      y.bins[s.defaultBin].hold = s.bins[s.defaultBin].hold ++ [i] ∧
      flagSet y (slotScope i) (slotFlagBit .phaseEnd) = true ∧
      flagSet y (slotScope i) (slotFlagBit .planEnd) = true ∧
      flagSet y (slotScope i) (slotFlagBit .binWait) = true := by
  obtain ⟨x, hx, hch, hbins, hphaseEnd, hchain⟩ := endCause_grades hrun hstate hdec hstop hadm hres hphase hlast
  let g := graded i .none x
  have hgslot : (g.slot i).occ = .testing ∧ (g.slot i).result = some (formResult x i .none) ∧ (g.slot i).run = none := by
    refine ⟨?_, graded_result .., ?_⟩
    · simp only [g]; rw [graded_slot, hx]; exact hocc
    · simp only [g]; rw [graded_slot]
  -- The spin-down, and the wait for a place.
  obtain ⟨hdocc, hdres, hdrun⟩ := spinDown_keeps (s := g)
    (P := fun r => r.occ = .testing ∧ r.result = some (formResult x i .none) ∧ r.run = none)
    (fun e _ _ t => grant_keeps_graded (by decide) e t) (fun h => h) hgslot
  have hdbins : (spinDown i g).bins = s.bins := (spinDown_granted i g).bins.trans ((graded_bins ..).trans hbins)
  obtain ⟨hbin, hindex⟩ := formResult_default (i := i) (hch.ruleCount_eq.trans hrules)
  rw [hch.defaultBin_eq] at hbin
  have hwait := enterBinWait_waits hdres hbin (by rw [hdbins]; exact hfull)
  have hlater := carryOut_append (l₁ := [.spinDown i]) (carryOut_quiet (s := g) rfl) hwait
  have hwith : ((withdrawEntry i .power (spinDown i g)).slot i).occ = .testing ∧
      ((withdrawEntry i .power (spinDown i g)).slot i).result = some (formResult x i .none) ∧
      ((withdrawEntry i .power (spinDown i g)).slot i).run = none := by
    rw [withdrawEntry_slot]; split <;> exact ⟨hdocc, hdres, hdrun⟩
  obtain ⟨hwocc, hwres, hwrun⟩ := hwith
  have hbw := flagSet_setOcc_binWait (s := withdrawEntry i .power (spinDown i g)) (i := i) (by rw [hwocc]; decide)
  refine ⟨x, _, hchain 3 _ hlater, hx, hbin, hindex, ?_, ?_, ?_, ?_,
    carryOut_flagSet hlater (graded_flagSet hphaseEnd), carryOut_flagSet hlater (graded_planEnd ..),
    (flagSet_congr (State.modBin_flags ..) _ _).trans hbw⟩
  · simpa using hwres
  · simpa using hwrun
  · simp
  · rw [State.modBin_bin, setOcc_bins, (withdrawEntry_granted ..).bins, hdbins]

/-- Settles O52: the report, what it does to the run, and the clear of the attention that brought it. -/
theorem lastPhaseGradesTheRun : Obligations.LastPhaseGradesTheRun := by
  intro i s run code scan wall onFail hrun hstate hdec hstop hadm hocc hres hphase hlast htaken hrules hfull
  obtain ⟨reports, summary, tail, htail, htake⟩ := takeReport_now htaken
  let v := s.modSlot i fun r => { r with reports := reports, summary := summary }
  have hv : v.slot i = { s.slot i with reports := reports, summary := summary } := State.modSlot_slot ..
  have hvrun : (v.slot i).run = some run := by rw [hv]; exact hrun
  have hvphase : phaseRec v run = some { body := .driveTest code scan wall, onFail := onFail } := hphase
  have hact : actOnReport i (.phaseDone run.phase) true v = (v, [.endCause i passVerdict true]) := by
    simp [actOnReport, reportLive, liveDone, hvrun, hvphase, hstate, runsTest]
  obtain ⟨x, y, hcarry, hx, hbin, hindex, hyres, hyrun, hyocc, hyhold, hphaseEnd, hplanEnd, hbinWait⟩ :=
    lastPhase_waits hvrun hstate hdec hstop (by rw [hv]; exact hadm) (by rw [hv]; exact hocc) (by rw [hv]; exact hres)
      hvphase hlast (s := v) hrules hfull
  -- The clear of the attention that brought the report.
  obtain ⟨t, htcarry, ht⟩ : ∃ t, carryOut 2 tail y = some t ∧ Cleared i y t := by
    rcases htail with rfl | rfl
    · exact ⟨y, carryOut_nil .., .refl i y⟩
    · exact clearRecord_settled i y
  have hexec : exec (.phaseDone i run.phase) s = .next (startTx t) := by
    refine conclude_of (x := takeReport i (.phaseDone run.phase) s) (n := 8) (by decide) ?_
    rw [htake, hact]
    exact carryOut_append hcarry htcarry
  have hflag : ∀ {c bit}, flagSet y c bit = true → flagSet (startTx t) c bit = true := fun h => by
    rw [flagSet_startTx, flagSet_congr ht.flags]; exact h
  obtain ⟨⟨hplan, hship, hgrown⟩, hinputs⟩ := formResult_passedLast hx
  have hseg : (v.slot i).seg = (s.slot i).seg := by rw [hv]
  rw [hseg] at hgrown hinputs
  refine ⟨startTx t, formResult x i .none, hexec, ?_, ⟨hbin, hindex, hplan, hship, hgrown⟩, hinputs, ?_, ?_, ?_,
    hflag hphaseEnd, hflag hplanEnd, hflag hbinWait⟩
  · rw [startTx_slot, ht.slot]; exact hyres
  · rw [startTx_slot]
    simpa [hyrun] using ht.run
  · rw [startTx_slot, ht.slot]; exact hyocc
  · rw [startTx_bins, ht.bins]; exact hyhold

end Sys2Proof.Machine
end

