-- ==== Sys2Proof/Proofs/BusReplies.lean ====
section
/-! SUPPORT. The end of a transaction for a slot: the reading of a drive's reply, and the tells in their order. -/

namespace Sys2Proof.Machine

/-! ## The reply's bytes (R49, R50) -/

theorem readBytes_busReply {kind : BusKind} {n : NodeIx} {body : List Byte} {fields : ReplyFields}
    (hlen : body.length ≤ 60) (hok : bodyLengthOk kind body = true) (hf : replyFields kind body = some fields) :
    readBytes kind (some n) (busReply n kind body) = .done fields := by
  have hcount : field8 (busReply n kind body) 2 = body.length := by
    have : byteAt (busReply n kind body) 2 = BitVec.ofNat 8 body.length := rfl
    simp only [field8, this, BitVec.toNat_ofNat]
    omega
  have hsize : (busReply n kind body).length = 4 + body.length := by simp [busReply]; omega
  have hnode : field8 (busReply n kind body) 0 = nodeNumber n := by
    have : byteAt (busReply n kind body) 0 = BitVec.ofNat 8 (nodeNumber n) := rfl
    simp only [field8, this, BitVec.toNat_ofNat, nodeNumber]
    omega
  have hkind : field8 (busReply n kind body) 1 = busKindCode kind := by
    have : byteAt (busReply n kind body) 1 = BitVec.ofNat 8 (busKindCode kind) := rfl
    simp only [field8, this, BitVec.toNat_ofNat]
    cases kind <;> rfl
  have hfirst : firstFrame (busReply n kind body) = busReply n kind body := by
    unfold firstFrame
    rw [hcount, ← hsize, List.take_length]
  have hcomplete : frameComplete (busReply n kind body) = true := by
    simp [frameComplete, hcount, hsize, hlen]
  have hcheck : frameCheckOk (busReply n kind body) = true := by
    have hframe : ∀ l : List Byte, frameCheckOk (l ++ [crc8 l]) = true := fun l => by simp [frameCheckOk, byteAt]
    exact hframe _
  have hbody : ((busReply n kind body).drop 3).dropLast = body := by simp [busReply]
  unfold readBytes
  rw [if_pos hcomplete, hfirst]
  unfold readFrame
  rw [if_pos hcheck, if_pos ⟨by simp [hnode], hkind.symm⟩]
  simp only [hbody, hok, if_true, hf]

/-! ## The end of a transaction (R50, R56) -/

/-- The shelf as a transaction ends: the wire's level as the command brings it, nothing in flight. -/
def closing (k : Shelf) (wire : Bool) (s : State) : State :=
  (setWire k wire s).modShelf k fun sh => { sh with phase := .ending, stuckTimer := none }

theorem closing_busOnly (k : Shelf) (wire : Bool) (s : State) : BusOnly k s (closing k wire s) :=
  BusOnly.trans (.of_mod rfl) (.of_mod rfl)

theorem releaseWire_busOnly (k : Shelf) (s : State) : BusOnly k s (releaseWire k s) := .of_mod rfl

@[simp] theorem closing_phase (k : Shelf) (wire : Bool) (s : State) : ((closing k wire s).shelf k).phase = .ending := by
  simp [closing]

@[simp] theorem closing_work (k : Shelf) (wire : Bool) (s : State) :
    ((closing k wire s).shelf k).work = (s.shelf k).work := by simp [closing, setWire]

@[simp] theorem releaseWire_work (k : Shelf) (s : State) : ((releaseWire k s).shelf k).work = (s.shelf k).work := by
  simp [releaseWire]

theorem slotOfNode_congr {s t : State} (h : ∀ i, t.slot i = s.slot i) (k : Shelf) (n : NodeIx) :
    slotOfNode t k n = slotOfNode s k n := by simp [slotOfNode, h]

/-- A reply in the window of the node it is expected from. -/
theorem exec_reply {k : Shelf} {s : State} {f : Flight} {closes : Nat} {n : NodeIx} {body : List Byte}
    {fields : ReplyFields} (wire : Bool) (hphase : (s.shelf k).phase = .window f closes) (hnode : f.node = some n)
    (hlen : body.length ≤ 60) (hok : bodyLengthOk f.item.cmd.kind body = true)
    (hf : replyFields f.item.cmd.kind body = some fields) :
    exec (.replyFrameReceived k (busReply n f.item.cmd.kind body) wire) s =
      conclude (endTransaction k f (.done fields) (setWire k wire (releaseWire k s))) := by
  show execReplyFrameReceived k _ wire s = _
  unfold execReplyFrameReceived
  rw [hphase]
  simp only [hnode, readBytes_busReply hlen hok hf]

section
variable {s : State} {i : Slot} {n : NodeIx} {d : DrivePart} {cmd : BusCmd} {owner : Owner}

/-- The item of a slot's transaction. -/
def slotItem (i : Slot) (cmd : BusCmd) (owner : Owner) : Item :=
  { shelf := shelfOf i, slot := some i, cmd := cmd, owner := owner }

theorem endTransaction_ship (h : slotOfNode s (shelfOf i) n = some i) (hc : classOf cmd.kind = .ship) (answer : Answer) :
    endTransaction (shelfOf i) { item := slotItem i cmd owner, node := some n, dropped := false, orphan := false } answer s =
      (s.modShelf (shelfOf i) fun sh => { sh with phase := .ending, stuckTimer := none },
        [.answered (slotItem i cmd owner) answer, .counted i answer true, .wireFree (shelfOf i)]) := by
  have hclear : isNodeClear (slotItem i cmd owner) = false := by
    cases cmd <;> first | rfl | cases hc
  have hquery : isQuery (slotItem i cmd owner) = false := by
    cases cmd <;> first | rfl | cases hc
  have hclass : classOf (slotItem i cmd owner).cmd.kind = .ship := hc
  simp [endTransaction, uncounted, hclear, hquery, hclass, h]

/-- A drive's reply to a transaction of the ship unit. -/
theorem SlotWindow.reply (h : SlotWindow s i n d cmd owner) (hc : classOf cmd.kind = .ship) {body : List Byte}
    {fields : ReplyFields} (wire : Bool) (hlen : body.length ≤ 60) (hok : bodyLengthOk cmd.kind body = true)
    (hf : replyFields cmd.kind body = some fields) :
    exec (.replyFrameReceived (shelfOf i) (busReply n cmd.kind body) wire) s =
      conclude (closing (shelfOf i) wire (releaseWire (shelfOf i) s),
        [.answered (slotItem i cmd owner) (.done fields), .counted i (.done fields) true, .wireFree (shelfOf i)]) := by
  obtain ⟨⟨closes, hphase⟩, -, hslot, -, -⟩ := h
  refine (exec_reply (k := shelfOf i) wire hphase rfl hlen hok hf).trans ?_
  refine congrArg conclude (endTransaction_ship ?_ hc (.done fields))
  exact (slotOfNode_congr (fun j => rfl) _ _).trans hslot
end

end Sys2Proof.Machine
end

