-- ==== Sys2Proof/Proofs/EndlessQueue.lean ====
section
/-! SUPPORT. Two statements ask an outcome of every state, where a hold queue may be longer than the bound on the tells of one
event (log 7): such a queue, offered place after place, ends the step in a fault. -/

namespace Sys2Proof.Machine

/-! ## A hold queue without end (R186) -/

/-- A bin whose free place nobody uses up: every slot that waits for it holds a reservation already and is on its way to its
binding. -/
structure Jammed (b : BinIx) (j : Slot) (s : State) : Prop where
  room : s.bins[b].fill + s.bins[b].reserved < s.bins[b].capacity
  waits : ∀ x ∈ s.bins[b].hold, x = j
  adm : (s.slot j).adm = .queued
  placed : (s.slot j).reservation.isSome = true
  ungraded : (s.slot j).result = none

/-- A slot on its way to its binding that has a place waits for the binding, and tells nobody (R192). -/
theorem reserved_queued {j : Slot} {s : State} (ha : (s.slot j).adm = .queued) (hr : (s.slot j).result = none) :
    ∃ t, reserved j s = (t, []) ∧ t.bins = s.bins ∧ (t.slot j).adm = .queued ∧
      (t.slot j).reservation = (s.slot j).reservation ∧ (t.slot j).result = none := by
  let u := setOcc j .shipping (s.modSlot j fun r => { r with
    ship := some { path := shipPath (s.slot j), step := .waitBind, position := 0, selected := [], failures := 0 } })
  have hpath : shipPath (s.slot j) ≠ .noDrive := by unfold shipPath; rw [hr]; dsimp only; split <;> decide
  have hadm : (u.slot j).adm = .queued := by simpa [u] using ha
  refine ⟨u, ?_, by simp [u], hadm, by simp [u], by simpa [u] using hr⟩
  refine (if_neg hpath).trans ?_
  rw [hadm]

/-- The place is offered to the head of the queue, which goes its way, and the next one finds it free (R186). -/
theorem Jammed.offer {b : BinIx} {j : Slot} {s : State} {l : List Slot} (h : Jammed b j s) (hhold : s.bins[b].hold = j :: l) :
    ∃ u t, act (.examineHold b) s = (u, [.reserved j, .examineHold b]) ∧ act (.reserved j) u = (t, []) ∧ Jammed b j t ∧
      t.bins[b].hold = l := by
  let u := s.modBin b fun bin => { bin with hold := l }
  have hoffer : act (.examineHold b) s = (u, [.reserved j, .examineHold b]) := by
    have hroom : binHasRoom s b = true := decide_eq_true h.room
    have hkept : reserve j b u = u := if_pos h.placed
    have hhold' : (binAt s b).hold = j :: l := hhold
    simp only [act, examineHold, hhold', hroom, if_true]
    exact congrArg (·, [Tell.reserved j, Tell.examineHold b]) hkept
  obtain ⟨t, ht, hbins, hadm, hres, hnone⟩ := reserved_queued (s := u) h.adm h.ungraded
  have hbin : t.bins[b] = { s.bins[b] with hold := l } := by rw [hbins, State.modBin_bin]
  refine ⟨u, t, hoffer, ht, ⟨by rw [hbin]; exact h.room, fun y hy => h.waits y ?_, hadm, hres ▸ h.placed, hnone⟩, by rw [hbin]⟩
  rw [hbin] at hy
  rw [hhold]
  exact List.mem_cons_of_mem _ hy

/-- The place is offered to one slot after another, and no bound on the tells that the queue exceeds is enough. -/
theorem Jammed.carryOut_none {b : BinIx} {j : Slot} (n : Nat) {s : State} {rest : List Tell} (h : Jammed b j s)
    (hn : n ≤ s.bins[b].hold.length) : carryOut n (.examineHold b :: rest) s = none := by
  induction n using Nat.twoStepInduction generalizing s with
  | zero => rfl
  | one =>
    obtain ⟨x, l, hhold⟩ := List.exists_cons_of_length_pos (l := s.bins[b].hold) (by omega)
    obtain rfl : x = j := h.waits x (by rw [hhold]; simp)
    obtain ⟨u, t, hoffer, -⟩ := h.offer hhold
    rw [carryOut_cons, hoffer]
    rfl
  | more n ih _ =>
    obtain ⟨x, l, hhold⟩ := List.exists_cons_of_length_pos (l := s.bins[b].hold) (by omega)
    obtain rfl : x = j := h.waits x (by rw [hhold]; simp)
    obtain ⟨u, t, hoffer, hres, ht, hl⟩ := h.offer hhold
    rw [carryOut_cons, hoffer]
    simp only [List.cons_append, List.nil_append]
    rw [carryOut_cons, hres]
    refine ih ht ?_
    rw [hhold, List.length_cons] at hn
    rw [hl]
    omega

theorem conclude_fault {x : State × List Tell} (h : carryOut Config.tellBound x.2 x.1 = none) :
    conclude x = .fault .cascade := by
  simp [conclude, h]

/-! ## The states -/

/-- A bin whose one place is reserved, with slot 1 in its hold queue as often as one event may tell. -/
def jammedBin : Bin := { capacity := 2, fill := 0, reserved := 1, hold := List.replicate Config.tellBound 1 }

/-- After reset, with that bin and slot 1 on its way to its binding, and slot 0 as given. -/
def jammedState (r : SlotRec) (sh : ShelfRec) : State :=
  (((State.reset.modBin 0 fun _ => jammedBin).modSlot 1 fun r => { r with adm := .queued, reservation := some 0 }).modSlot 0
    fun _ => r).modShelf (shelfOf 0) fun _ => sh

section
variable (r : SlotRec) (sh : ShelfRec)
@[simp] theorem jammedState_slot_zero : (jammedState r sh).slot 0 = r := by simp [jammedState]
@[simp] theorem jammedState_shelf : (jammedState r sh).shelf (shelfOf 0) = sh := by simp [jammedState]
@[simp] theorem jammedState_bin : (jammedState r sh).bins[(0 : BinIx)] = jammedBin := by
  unfold jammedState; simp only [State.modShelf_bins, State.modSlot_bins, State.modBin_bin]
theorem jammedState_slot_one : (jammedState r sh).slot 1 = { SlotRec.reset 1 with adm := .queued, reservation := some 0 } := by
  unfold jammedState
  rw [State.modShelf_slot, State.modSlot_slot_ne _ (by decide), State.modSlot_slot, State.modBin_slot, reset_slot]


/-- Whatever has happened to slot 0, to flags and to the shelf, and once its place has been released. -/
theorem jammed_of {s : State} (ha : (s.slot 1).adm = .queued) (hp : (s.slot 1).reservation = some 0)
    (hr : (s.slot 1).result = none) (hbin : s.bins[(0 : BinIx)] = { jammedBin with reserved := 0 }) :
    Jammed 0 1 s ∧ Config.tellBound ≤ s.bins[(0 : BinIx)].hold.length := by
  refine ⟨⟨?_, fun x hx => ?_, ha, by rw [hp]; rfl, hr⟩, ?_⟩
  · rw [hbin]; exact Nat.zero_lt_succ 1
  · rw [hbin] at hx
    exact List.eq_of_mem_replicate hx
  · rw [hbin]
    exact Nat.le_of_eq List.length_replicate.symm
end

/-! ## A second failure whose place such a queue waits for (R197) -/

/-- Any drive, at the node of its place in the map. -/
def anyDrive : DrivePart := { ident := ⟨0, 0⟩, node := 0, maxLba := 0, heads := 1, motor := .stopped, missed := 0 }

/-- Any result, its bin the first. -/
def anyResult : Result := { formResult State.reset 0 .hostAbort with bin := some 0 }

/-- A read-back of the FULL path after one failure. -/
def failedOnce : ShipRec := { path := .full, step := .read, position := 0, selected := [⟨1, 0, 0⟩], failures := 1 }

/-- The window of the read-back. -/
def readBackFlight : Flight :=
  { item := { shelf := shelfOf 0, slot := some 0, cmd := .readItem 1, owner := .shipUnit }
    node := some 0, dropped := false, orphan := false }

/-- Slot 0 at its second failure, its place waited for by the jammed queue. -/
def secondFailure : State :=
  jammedState { SlotRec.reset 0 with
      occ := .shipping, drive := some anyDrive, result := some anyResult, reservation := some 0, ship := some failedOnce }
    { ShelfRec.reset with phase := .window readBackFlight 10 }

theorem secondFailure_window : SlotWindow secondFailure 0 0 anyDrive (.readItem 1) .shipUnit := by
  refine ⟨⟨10, by simp [secondFailure, readBackFlight]⟩, by simp [secondFailure], ?_, by simp [secondFailure, SlotRec.reset],
    fun it hit => ?_⟩
  · have hfirst : slotsOf (shelfOf 0) = 0 :: (slotsOf (shelfOf 0)).tail := by decide
    unfold slotOfNode
    rw [hfirst]
    refine List.find?_cons_of_pos ?_
    simp [secondFailure, anyDrive]
  · simp [secondFailure, ShelfRec.reset] at hit

/-- The value read back is 1, and 0 was written. -/
theorem secondFailure_faults :
    exec (.replyFrameReceived (shelfOf 0) (busReply 0 .readItem [0, 0, 0, 1]) false) secondFailure = .fault .cascade := by
  let u := closing (shelfOf 0) false (releaseWire (shelfOf 0) secondFailure)
  have hbus : BusOnly (shelfOf 0) secondFailure u := (releaseWire_busOnly ..).trans (closing_busOnly ..)
  have hu : u.slot 0 = secondFailure.slot 0 := hbus.slot 0
  have hship : (u.slot 0).ship = some failedOnce := by rw [hu]; simp [secondFailure]
  have hplace : (u.slot 0).reservation = some 0 := by rw [hu]; simp [secondFailure]
  let v := (u.modBin 0 fun bin => { bin with reserved := bin.reserved - 1 }).modSlot 0 fun r => { r with reservation := none }
  have hanswer : act (.answered (slotItem 0 (.readItem 1) .shipUnit) (.done (.value 1))) u = (u, [.shipFail 0 .mismatch]) := by
    have hitem : failedOnce.selected[failedOnce.position]? = some ⟨1, 0, 0⟩ := rfl
    have hstep : failedOnce.step = .read := rfl
    simp [act, answerOwner, slotItem, shipAnswered, hship, hstep, hitem]
  have hfail : act (.shipFail 0 .mismatch) u = (v, [.examineHold 0, .divert 0 .mismatch]) := by
    have hdivert : act (.shipFail 0 .mismatch) u = shipDivert 0 .mismatch u := by
      simp only [act, shipFail, hship]
      rfl
    rw [hdivert]
    simp only [shipDivert, releaseReservation, hplace]
    rfl
  have hone : v.slot 1 = { SlotRec.reset 1 with adm := .queued, reservation := some 0 } :=
    (State.modSlot_slot_ne _ (by decide) _).trans ((hbus.slot 1).trans (jammedState_slot_one ..))
  obtain ⟨hjam, hlen⟩ := jammed_of (s := v) (by rw [hone]) (by rw [hone]) (by rw [hone]; rfl) (by
    rw [State.modSlot_bins, State.modBin_bin, hbus.bins]
    simp only [secondFailure, jammedState_bin]
    rfl)
  refine (secondFailure_window.reply (cmd := .readItem 1) rfl (body := [0, 0, 0, 1]) (fields := .value 1) false (by decide)
    (by decide) (by rfl)).trans (conclude_fault ?_)
  have hbound : Config.tellBound = 65534 + 1 + 1 := rfl
  rw [hbound, carryOut_cons, hanswer]
  simp only [List.cons_append, List.nil_append]
  rw [carryOut_cons, hfail]
  exact hjam.carryOut_none 65534 (Nat.le_trans (by decide) hlen)

/-- Refutes O60: an outcome is asked of a second failure whatever waits for the place that it releases. -/
theorem not_shipFailures : ¬ Obligations.ShipFailures := by
  intro h
  obtain ⟨hread, -⟩ := h 0 secondFailure 0 anyDrive failedOnce anyResult 0 false (by simp [secondFailure])
    (by simp [secondFailure]) rfl (by simp [secondFailure]) (by simp [secondFailure, hasEntry, ShelfRec.reset])
  obtain ⟨t, ht, -⟩ := hread 1 ⟨1, 0, 0⟩ [0, 0, 0, 1] rfl rfl secondFailure_window rfl rfl (by decide)
  rw [secondFailure_faults] at ht
  cases ht

/-! ## A different drive in a slot whose place such a queue waits for (R6, R199) -/

/-- The window of the round's READ_INFO. -/
def readInfoFlight : Flight :=
  { item := { shelf := shelfOf 0, slot := none, cmd := .readInfo 0, owner := .attachUnit }
    node := some 0, dropped := false, orphan := false }

/-- Slot 0 in SHIPPING, its drive about to bind as a different one, its place waited for by the jammed queue. -/
def exchanged : State :=
  jammedState { SlotRec.reset 0 with
      occ := .shipping, cls := .idle, adm := .attaching, identity := some ⟨1, 0⟩, reservation := some 0 }
    { ShelfRec.reset with phase := .window readInfoFlight 10, pass := .round (.readInfo 0 ⟨0, 0⟩ 0 1) }

theorem exchanged_drive (j : Slot) : (exchanged.slot j).drive = none := by
  by_cases h0 : j = 0
  · subst h0; simp [exchanged, SlotRec.reset]
  · by_cases h1 : j = 1
    · subst h1; unfold exchanged; rw [jammedState_slot_one]; rfl
    · unfold exchanged jammedState
      rw [State.modShelf_slot, State.modSlot_slot_ne _ h0, State.modSlot_slot_ne _ h1, State.modBin_slot, reset_slot]
      rfl

theorem slotOfNode_none {s : State} (h : ∀ j, (s.slot j).drive = none) (k : Shelf) (n : NodeIx) : slotOfNode s k n = none := by
  unfold slotOfNode
  rw [List.find?_eq_none]
  intro j _
  simp [h j]

theorem exchanged_window : ReadInfoWindow exchanged 0 0 ⟨0, 0⟩ 1 := by
  refine ⟨⟨10, by simp [exchanged, readInfoFlight]⟩, by simp [exchanged], slotOfNode_none exchanged_drive _ _,
    exchanged_drive 0, by simp [exchanged, SlotRec.reset], by simp [exchanged], by simp [exchanged, hasEntry, ShelfRec.reset],
    fun it hit => ?_⟩
  simp [exchanged, ShelfRec.reset] at hit

/-- What the binding leaves of a slot whose drive answers, and of the others, and whom it tells (R89). -/
theorem bind_settled {i : Slot} {u : State} (n : NodeIx) (ident : Identity) (maxLba heads : Nat)
    (hs : (u.slot i).silent = false) (hw : NoWork u i) :
    ∃ v, bind i n ident maxLba heads u =
        (v, [.bound i (compareIdentity (u.slot i).identity ident), .roundOver (shelfOf i)]) ∧ v.bins = u.bins ∧
      v.slot i = { u.slot i with
        drive := (v.slot i).drive, deadline := (v.slot i).deadline, pollTimer := (v.slot i).pollTimer
        poll := (v.slot i).poll, temp := (v.slot i).temp } ∧
      ∀ j, j ≠ i → v.slot j = { u.slot j with deadline := (v.slot j).deadline } := by
  let formed := u.modSlot i fun r => { r with
    drive := some { ident := ident, node := n, maxLba := maxLba, heads := heads, motor := .stopped, missed := 0 }
    deadline := none, pollTimer := u.after (secs (u.shelf (shelfOf i)).pollSecs), poll := none, temp := TempRec.reset }
  let y := syncKey (shelfOf i) (setPass (shelfOf i) (.round .finishing) (setNode (shelfOf i) n (.bound i) formed))
  have hattach : AttachOnly (shelfOf i) formed y :=
    ((setNode_attachOnly ..).trans (setPass_attachOnly ..)).trans (syncKey_attachOnly ..)
  have hyslot : y.slot i = { formed.slot i with deadline := (y.slot i).deadline } := hattach.slot i
  have hf : formed.slot i = { u.slot i with
      drive := (formed.slot i).drive, deadline := none, pollTimer := (formed.slot i).pollTimer, poll := none
      temp := TempRec.reset } := by simp [formed]
  have hyd : (y.slot i).drive.isSome := by rw [hyslot]; simp [formed]
  have hys : (y.slot i).silent = false := by rw [hyslot, hf]; exact hs
  have hyi : (y.slot i).identity = (u.slot i).identity := by rw [hyslot, hf]
  obtain ⟨v, hsub, hbus, -⟩ := submit_of_bound (i := i) (cmd := .poll) .busController hyd hys
    (NoWork.pendingItem (s := y) (hattach.work.noWork hw) .poll)
  refine ⟨v, ?_, ?_, ?_, fun j hj => ?_⟩
  · show ((submit i .poll .busController y).1, (submit i .poll .busController y).2 ++
      [.bound i (compareIdentity (y.slot i).identity ident), .roundOver (shelfOf i)]) = _
    rw [hsub, hyi]
    rfl
  · rw [hbus.bins, hattach.bins]; rfl
  · rw [hbus.slot]
    generalize y.slot i = r at hyslot ⊢
    rw [hyslot, hf]
  · rw [hbus.slot]
    exact (hattach.slot j).trans (by rw [State.modSlot_slot_ne _ hj])

/-- A slot in BIN_WAIT or SHIPPING whose place is waited for leaves the totes at the binding of a different drive, and the
place is offered (R6, R199). -/
theorem bound_different {i : Slot} {s : State} {b : BinIx} (hrun : (s.slot i).run = none)
    (hin : inTote (s.slot i).occ = true) (hplace : (s.slot i).reservation = some b) :
    ∃ w x, act (.bound i .different) s = (w, [.leaveTote i, .swapped i]) ∧ act (.leaveTote i) w = (x, [.examineHold b]) ∧
      x.bins[b] = { s.bins[b] with
        hold := s.bins[b].hold.filter fun j => decide (j ≠ i), reserved := s.bins[b].reserved - 1 } ∧
      ∀ j, j ≠ i → x.slot j = s.slot j := by
  let w := s.modSlot i fun r => { r with adm := .bound }
  have hw : w.slot i = { s.slot i with adm := .bound } := State.modSlot_slot ..
  let y := (modResult i (fun res => { res with bin := none, shipped := false }) (leaveHold i w)).modSlot i fun r =>
    { r with ship := none, diverted := false }
  have hbus := renounceShip_busOnly i y
  have hyplace : ((renounceShip i y).slot i).reservation = some b := by
    rw [hbus.slot]
    simpa [y, modResult, leaveHold, State.slot, State.modSlot, w] using hplace
  let x := ((renounceShip i y).modBin b fun bin => { bin with reserved := bin.reserved - 1 }).modSlot i fun r =>
    { r with reservation := none }
  refine ⟨w, x, ?_, ?_, ?_, fun j hj => ?_⟩
  · have hnorun : (w.slot i).run.isSome = false := by rw [hw]; simp [hrun]
    have hin' : inTote (w.slot i).occ = true := by rw [hw]; exact hin
    show (if (w.slot i).run.isSome then _ else if inTote (w.slot i).occ then _ else _) = _
    rw [hnorun, hin']
    rfl
  · show releaseReservation i (renounceShip i y) = _
    simp only [releaseReservation, hyplace]
    rfl
  · have hbins : (renounceShip i y).bins[b] = { s.bins[b] with hold := s.bins[b].hold.filter fun j => decide (j ≠ i) } := by
      rw [hbus.bins]
      simp [y, modResult, leaveHold, w]
    rw [State.modSlot_bins, State.modBin_bin, hbins]
  · rw [State.modSlot_slot_ne _ hj, State.modBin_slot, hbus.slot]
    simp [y, modResult, leaveHold, State.slot, State.modSlot, w, Vector.getElem_set_ne, Fin.val_ne_of_ne (Ne.symm hj)]

theorem exchanged_faults :
    exec (.replyFrameReceived (shelfOf 0) (busReply 0 .readInfo [0, 0, 0, 0, 0, 0, 1]) false) exchanged = .fault .cascade := by
  let u := closing (shelfOf 0) false (releaseWire (shelfOf 0) exchanged)
  have hbus : BusOnly (shelfOf 0) exchanged u := (releaseWire_busOnly ..).trans (closing_busOnly ..)
  have hu : u.slot 0 = exchanged.slot 0 := hbus.slot 0
  have hzero : exchanged.slot 0 = { SlotRec.reset 0 with
      occ := .shipping, cls := .idle, adm := .attaching, identity := some ⟨1, 0⟩, reservation := some 0 } := by
    simp [exchanged]
  have hone : u.slot 1 = { SlotRec.reset 1 with adm := .queued, reservation := some 0 } :=
    (hbus.slot 1).trans (jammedState_slot_one ..)
  have hpass : (u.shelf (shelfOf 0)).pass = .round (.readInfo 0 ⟨0, 0⟩ 0 1) := by
    rw [hbus.pass]; simp [exchanged]
  obtain ⟨v, hbind, hvbins, hvslot, hvother⟩ := bind_settled (i := 0) (u := u) 0 ⟨0, 0⟩ 0 1
    (by rw [hu, hzero]; rfl) (fun it hit => by simp [u, exchanged, ShelfRec.reset] at hit)
  have hcmp : compareIdentity (u.slot 0).identity ⟨0, 0⟩ = .different := by rw [hu, hzero]; rfl
  have hanswer : act (.answered readInfoFlight.item (.done (.info 0 1))) u = (v, [.bound 0 .different, .roundOver (shelfOf 0)]) := by
    have hnone : (u.slot 0).drive.isNone = true := by rw [hu, hzero]; rfl
    rw [← hcmp, ← hbind]
    simp [act, answerOwner, readInfoFlight, attachAnswered, hpass, readInfoOutcome, hnone]
  obtain ⟨w, x, hbound, hleave, hxbin, hxother⟩ := bound_different (i := 0) (s := v) (b := 0)
    (by rw [hvslot, hu, hzero]; rfl) (by rw [hvslot, hu, hzero]; rfl) (by rw [hvslot, hu, hzero])
  have hfilter : (jammedBin.hold.filter fun j => decide (j ≠ 0)) = jammedBin.hold :=
    List.filter_eq_self.2 fun j hj => by rw [List.eq_of_mem_replicate hj]; rfl
  have hxslot : x.slot 1 = { u.slot 1 with deadline := (v.slot 1).deadline } :=
    (hxother 1 (by decide)).trans (hvother 1 (by decide))
  obtain ⟨hjam, hlen⟩ := jammed_of (s := x) (by rw [hxslot, hone]) (by rw [hxslot, hone]) (by rw [hxslot, hone]; rfl) (by
    have hbin : v.bins[(0 : BinIx)] = jammedBin := by rw [hvbins, hbus.bins]; simp only [exchanged, jammedState_bin]
    rw [hxbin, hbin, hfilter]
    rfl)
  have hexec : exec (.replyFrameReceived (shelfOf 0) (busReply 0 .readInfo [0, 0, 0, 0, 0, 0, 1]) false) exchanged =
      conclude (u, [.answered readInfoFlight.item (.done (.info 0 1)), .wireFree (shelfOf 0)]) := by
    refine (exec_reply (k := shelfOf 0) (f := readInfoFlight) (closes := 10) (body := [0, 0, 0, 0, 0, 0, 1]) (fields := .info 0 1)
      false (by simp [exchanged]) rfl (by decide) (by decide) (by rfl)).trans ?_
    have hnode : slotOfNode (setWire (shelfOf 0) false (releaseWire (shelfOf 0) exchanged)) (shelfOf 0) 0 = none :=
      (slotOfNode_congr (fun j => rfl) _ _).trans (slotOfNode_none exchanged_drive _ _)
    refine congrArg conclude ?_
    simp [endTransaction, uncounted, readInfoFlight, isNodeClear, isQuery, hnode, BusCmd.kind]
    rfl
  refine hexec.trans (conclude_fault ?_)
  have hbnd : Config.tellBound = 65533 + 1 + 1 + 1 := rfl
  rw [hbnd, carryOut_cons, hanswer]
  simp only [List.cons_append, List.nil_append]
  rw [carryOut_cons, hbound]
  simp only [List.cons_append, List.nil_append]
  rw [carryOut_cons, hleave]
  exact hjam.carryOut_none 65533 (Nat.le_trans (by decide) hlen)

/-- Refutes O39: an outcome is asked of a binding whatever waits for the place that a different drive releases. -/
theorem not_bindingCompletes : ¬ Obligations.BindingCompletes := by
  intro h
  obtain ⟨-, -, hreply⟩ := h 0 exchanged 0 ⟨0, 0⟩ 1 false exchanged_window
  obtain ⟨-, hright⟩ := hreply [0, 0, 0, 0, 0, 0, 1] rfl
  obtain ⟨t, ht, -⟩ := hright (by decide) (by decide)
  rw [exchanged_faults] at ht
  cases ht

end Sys2Proof.Machine
end

