-- ==== Sys2Proof/Proofs/ShipSubmissions.lean ====
section
/-! SUPPORT. What the steps of a ship sequence submit, and how the sequence takes its next step. -/

namespace Sys2Proof.Machine

theorem selectedItems_congr {s t : State} (h : Changed s t) (b : Option BinIx) : selectedItems t b = selectedItems s b := by
  simp only [selectedItems, h.shipItems_eq, h.shipCount_eq]

/-! ## Submissions of a sequence (R193, R194) -/

/-- An item of the slot with these command fields has been submitted in a state whose bus alone changes with it. -/
structure Submitted (i : Slot) (cmd : BusCmd) (s t : State) : Prop where
  bus : BusOnly (shelfOf i) s t
  pending : SolePending t i cmd
  phase : (s.shelf (shelfOf i)).phase ≠ .free → (t.shelf (shelfOf i)).phase = (s.shelf (shelfOf i)).phase

theorem Submitted.congr {i : Slot} {cmd : BusCmd} {s s' t : State} (h : Submitted i cmd s t) (he : s = s') :
    Submitted i cmd s' t := he ▸ h

/-- The STAMP of the slot (R194). -/
theorem startStamp_settled {i : Slot} {s : State} {res : Result} (hres : (s.slot i).result = some res)
    (hd : (s.slot i).drive.isSome) (hs : (s.slot i).silent = false)
    (hp : pendingItem (s.shelf (shelfOf i)).work i .stamp = none) :
    ∃ t, startStamp i s = (t, []) ∧
      Submitted i (.stamp (res.bin.getD 0) res.ruleIndex res.planId res.inputs.runDose res.inputs.stop)
        (modShip i (fun rec => { rec with step := .stamp }) s) t := by
  obtain ⟨t, ht, hbus, hpend, hphase⟩ := submit_of_bound (i := i)
    (cmd := .stamp (res.bin.getD 0) res.ruleIndex res.planId res.inputs.runDose res.inputs.stop) .shipUnit
    (s := modShip i (fun rec => { rec with step := .stamp }) s) (by simpa [modShip] using hd) (by simpa [modShip] using hs) hp
  refine ⟨t, ?_, hbus, hpend, hphase⟩
  unfold startStamp
  rw [hres]
  exact ht

/-- The ship record as step WRITE leaves it with these items: with none of them the sequence goes on to STAMP (R193). -/
def ShipRec.writing (rec : ShipRec) (items : List ShipItem) : ShipRec :=
  { rec with position := 0, selected := items, step := if items = [] then .stamp else .write }

/-- What step WRITE submits for these items and this result (R193, R194). -/
def firstShipCmd (items : List ShipItem) (res : Result) : BusCmd :=
  match items with
  | it :: _ => .writeItem it.id it.value
  | [] => .stamp (res.bin.getD 0) res.ruleIndex res.planId res.inputs.runDose res.inputs.stop

/-- Step WRITE is entered (R193). -/
theorem shipWrite_settled {i : Slot} {s : State} {rec : ShipRec} {res : Result} (hship : (s.slot i).ship = some rec)
    (hres : (s.slot i).result = some res) (hd : (s.slot i).drive.isSome) (hs : (s.slot i).silent = false)
    (hp : ∀ kind, pendingItem (s.shelf (shelfOf i)).work i kind = none) :
    ∃ t, carryOut 2 [.shipWrite i] s = some t ∧
      Submitted i (firstShipCmd (selectedItems s res.bin) res)
        (s.modSlot i fun r => { r with ship := some (rec.writing (selectedItems s res.bin)) }) t := by
  let v := modShip i (fun rec => { rec with step := .write, position := 0, selected := selectedItems s res.bin }) s
  have hact : act (.shipWrite i) s = (v, [.shipNext i]) := by simp [act, shipWrite, hres, v]
  have hvship : (v.slot i).ship = some { rec with step := .write, position := 0, selected := selectedItems s res.bin } := by
    simp [v, modShip, hship]
  have hvd : (v.slot i).drive.isSome := by simpa [v, modShip] using hd
  have hvs : (v.slot i).silent = false := by simpa [v, modShip] using hs
  cases hitems : selectedItems s res.bin with
  | nil =>
    obtain ⟨t, ht, hsub⟩ := startStamp_settled (i := i) (s := v) (res := res) (by simpa [v, modShip] using hres) hvd hvs
      (hp .stamp)
    have hnext : act (.shipNext i) v = (t, []) := by simp [act, shipNext, hvship, hitems, ht]
    refine ⟨t, carryOut_act hact (carryOut_quiet hnext), hsub.congr ?_⟩
    simp only [v, modShip, State.modSlot_modSlot]
    exact State.modSlot_congr (by simp [hship, hitems, ShipRec.writing])
  | cons it rest =>
    obtain ⟨t, ht, hbus, hpend, hphase⟩ := submit_of_bound (i := i) (cmd := .writeItem it.id it.value) .shipUnit (s := v)
      hvd hvs (hp .writeItem)
    have hnext : act (.shipNext i) v = (t, []) := by simp [act, shipNext, hvship, hitems, ht]
    have hv : v = s.modSlot i fun r => { r with ship := some (rec.writing (it :: rest)) } := by
      simp only [v, modShip]
      exact State.modSlot_congr (by simp [hship, hitems, ShipRec.writing])
    exact ⟨t, carryOut_act hact (carryOut_quiet hnext), Submitted.congr ⟨hbus, hpend, hphase⟩ hv⟩

end Sys2Proof.Machine
end

