-- ==== Sys2Proof/Proofs/Places.lean ====
section
/-! SUPPORT. The reservation of a place and the slot's entry to SHIPPING. -/

namespace Sys2Proof.Machine

/-! ## Reservations (R184 to R186) -/

section
variable (b : BinIx) (s : State)
@[simp] theorem noteFull_slot (i : Slot) : (noteFull b s).slot i = s.slot i := by unfold noteFull; split <;> simp
@[simp] theorem noteFull_shelf (k : Shelf) : (noteFull b s).shelf k = s.shelf k := by unfold noteFull; split <;> simp
@[simp] theorem noteFull_bins : (noteFull b s).bins = s.bins := by unfold noteFull; split <;> simp

theorem noteFull_flagSet {c : Scope} {bit : Nat} (h : flagSet s c bit = true) : flagSet (noteFull b s) c bit = true := by
  unfold noteFull
  split
  · exact flagSet_setFlagBit_of h _ _
  · exact h

theorem noteFull_changed : Changed s (noteFull b s) := by
  unfold noteFull
  split
  · exact .raiseController _ (.refl s)
  · exact .refl s
end

/-- The state with a place of the bin reserved for the slot, before the bin's use is looked at (R185). -/
def withPlace (i : Slot) (b : BinIx) (s : State) : State :=
  (s.modBin b fun bin => { bin with reserved := bin.reserved + 1 }).modSlot i fun r => { r with reservation := some b }

theorem reserve_eq {i : Slot} {s : State} (b : BinIx) (h : (s.slot i).reservation = none) :
    reserve i b s = noteFull b (withPlace i b s) := by
  unfold reserve
  rw [h]
  rfl

section
variable (i : Slot) (b : BinIx) (s : State)
@[simp] theorem withPlace_slot : (withPlace i b s).slot i = { s.slot i with reservation := some b } := by simp [withPlace]
theorem withPlace_slot_ne {j : Slot} (h : j ≠ i) : (withPlace i b s).slot j = s.slot j := by
  unfold withPlace; rw [State.modSlot_slot_ne _ h, State.modBin_slot]
@[simp] theorem withPlace_shelf (k : Shelf) : (withPlace i b s).shelf k = s.shelf k := rfl
@[simp] theorem withPlace_bin : (withPlace i b s).bins[b] = { s.bins[b] with reserved := s.bins[b].reserved + 1 } := by
  unfold withPlace; rw [State.modSlot_bins, State.modBin_bin]
theorem withPlace_bin_ne {c : BinIx} (h : c ≠ b) : (withPlace i b s).bins[c] = s.bins[c] := by
  unfold withPlace; rw [State.modSlot_bins, State.modBin_bin_ne _ h]
end

/-- The grant that fills a bin sets BIN_FULL (R184). -/
theorem noteFull_binFull {b : BinIx} {s : State} (h : s.bins[b].fill + s.bins[b].reserved = s.bins[b].capacity) :
    flagSet (noteFull b s) controllerScope (controllerFlagBit .binFull) = true := by
  have huse : (binAt s b).use = (binAt s b).capacity := h
  rw [noteFull, if_pos huse]
  exact flagSet_raiseController ..

/-! ## The entry to SHIPPING (R191, R192) -/

/-- The record of a slot as it enters SHIPPING from BIN_WAIT, its sequence waiting for the binding (R191, R192). -/
def SlotRec.toShip (r : SlotRec) : SlotRec :=
  { r with
    occ := .shipping
    ship := some { path := shipPath r, step := .waitBind, position := 0, selected := [], failures := 0 } }

theorem setOcc_toShip {i : Slot} {s : State} (ho : (s.slot i).occ = .binWait) :
    setOcc i .shipping (s.modSlot i fun r => { r with
      ship := some { path := shipPath (s.slot i), step := .waitBind, position := 0, selected := [], failures := 0 } }) =
      s.modSlot i SlotRec.toShip := by
  rw [setOcc_of_ne_binWait _ _ (by decide), State.modSlot_modSlot]
  refine State.modSlot_congr ((SlotRec.movedTo_plain _ ?_ (by decide)).trans rfl)
  rw [ho]
  decide

/-- A slot graded ATTACH_FAIL ships without its drive (R191, R194). -/
theorem reserved_noDrive {i : Slot} {s : State} (ho : (s.slot i).occ = .binWait) (hp : shipPath (s.slot i) = .noDrive) :
    reserved i s = (s.modSlot i SlotRec.toShip, [.shipPowerOff i true]) := by
  rw [← setOcc_toShip ho]
  exact if_pos hp

/-- A BOUND slot begins its sequence at once (R192). -/
theorem reserved_bound {i : Slot} {s : State} (ho : (s.slot i).occ = .binWait) (hp : shipPath (s.slot i) ≠ .noDrive)
    (ha : (s.slot i).adm = .bound) :
    reserved i s = firstDriveStep i (shipPath (s.slot i)) (s.modSlot i SlotRec.toShip) := by
  have ha' : ((s.modSlot i SlotRec.toShip).slot i).adm = .bound := by simpa [SlotRec.toShip] using ha
  rw [← setOcc_toShip ho] at ha' ⊢
  refine (if_neg hp).trans ?_
  rw [ha']

/-- Power is asked for a slot that is off (R192). -/
theorem reserved_off {i : Slot} {s : State} (ho : (s.slot i).occ = .binWait) (hp : shipPath (s.slot i) ≠ .noDrive)
    (ha : (s.slot i).adm = .off) :
    reserved i s = (s.modSlot i SlotRec.toShip, [.requestPower i .supervisor]) := by
  have ha' : ((s.modSlot i SlotRec.toShip).slot i).adm = .off := by simpa [SlotRec.toShip] using ha
  rw [← setOcc_toShip ho] at ha' ⊢
  refine (if_neg hp).trans ?_
  rw [ha']

/-- Any other slot is on its way to its binding (R192). -/
theorem reserved_waits {i : Slot} {s : State} (ho : (s.slot i).occ = .binWait) (hp : shipPath (s.slot i) ≠ .noDrive)
    (ha : (s.slot i).adm = .queued ∨ (s.slot i).adm = .booting ∨ (s.slot i).adm = .attaching) :
    reserved i s = (s.modSlot i SlotRec.toShip, []) := by
  have hadm : ((s.modSlot i SlotRec.toShip).slot i).adm = (s.slot i).adm := by simp [SlotRec.toShip]
  rw [← setOcc_toShip ho] at hadm ⊢
  refine (if_neg hp).trans ?_
  rcases ha with h | h | h <;> rw [hadm.trans h]

theorem shipPath_of_stop {r : SlotRec} (h : ∀ res, r.result = some res → res.inputs.stop ≠ .attachFail) :
    shipPath r = if r.diverted then .rework else .full := by
  unfold shipPath
  cases hr : r.result with
  | none => rfl
  | some res => exact if_neg (h res hr)

end Sys2Proof.Machine
end

