-- ==== Sys2Proof/Proofs/PlaceTaken.lean ====
section
/-! SUPPORT. The places that BIN_SET and TOTE_SWAP make are offered to the hold queue: what becomes of one slot that takes a
place, by its admission, and of several that wait for their binding. -/

namespace Sys2Proof.Machine

/-! ## One slot that takes a place -/

/-- The slot has taken the place, and its sequence is about to begin (R186). -/
def placed (i : Slot) (b : BinIx) (rest : List Slot) (s : State) : State :=
  noteFull b (withPlace i b (s.modBin b fun bin => { bin with hold := rest }))

section
variable (i : Slot) (b : BinIx) (rest : List Slot) (s : State)
@[simp] theorem placed_slot : (placed i b rest s).slot i = { s.slot i with reservation := some b } := by simp [placed]
theorem placed_slot_ne {j : Slot} (h : j ≠ i) : (placed i b rest s).slot j = s.slot j := by
  unfold placed; rw [noteFull_slot, withPlace_slot_ne _ _ _ h, State.modBin_slot]
@[simp] theorem placed_shelf (k : Shelf) : (placed i b rest s).shelf k = s.shelf k := by simp [placed]
theorem placed_bin : (placed i b rest s).bins[b] =
    { s.bins[b] with hold := rest, reserved := s.bins[b].reserved + 1 } := by
  unfold placed; rw [noteFull_bins, withPlace_bin, State.modBin_bin]
theorem placed_bin_ne {c : BinIx} (h : c ≠ b) : (placed i b rest s).bins[c] = s.bins[c] := by
  unfold placed; rw [noteFull_bins, withPlace_bin_ne _ _ _ h, State.modBin_bin_ne _ h]
theorem placed_changed : Changed s (placed i b rest s) := (Changed.slots _ (.bins _ (.bins _ (.refl s)))).trans (noteFull_changed ..)
theorem placed_flagSet {c : Scope} {bit : Nat} (h : flagSet s c bit = true) : flagSet (placed i b rest s) c bit = true :=
  noteFull_flagSet _ _ h
theorem placed_full (h : s.bins[b].fill + s.bins[b].reserved + 1 = s.bins[b].capacity) :
    flagSet (placed i b rest s) controllerScope (controllerFlagBit .binFull) = true := by
  refine noteFull_binFull ?_
  rw [withPlace_bin, State.modBin_bin]
  exact h
end

/-- The head of a hold queue takes a free place (R186). -/
theorem examineHold_room {i : Slot} {b : BinIx} {rest : List Slot} {s : State} (hold : s.bins[b].hold = i :: rest)
    (hroom : s.bins[b].fill + s.bins[b].reserved < s.bins[b].capacity) (hplace : (s.slot i).reservation = none) :
    act (.examineHold b) s = (placed i b rest s, [.reserved i, .examineHold b]) := by
  have hhold : (binAt s b).hold = i :: rest := hold
  have hfree : binHasRoom s b = true := decide_eq_true hroom
  have hnone : ((s.modBin b fun bin => { bin with hold := rest }).slot i).reservation = none := hplace
  simp only [act, examineHold, hhold, hfree, if_true, reserve_eq b hnone]
  rfl

/-- With nobody in the hold queue, or no free place, nothing is granted (R186). -/
theorem examineHold_done {b : BinIx} {s : State}
    (h : s.bins[b].hold = [] ∨ s.bins[b].capacity ≤ s.bins[b].fill + s.bins[b].reserved) :
    act (.examineHold b) s = (s, []) := by
  cases hold : (binAt s b).hold with
  | nil => simp only [act, examineHold, hold]
  | cons i rest =>
    have hroom : binHasRoom s b = false := by
      refine decide_eq_false (Nat.not_lt.2 (h.resolve_left fun h0 => ?_))
      rw [show (binAt s b).hold = [] from h0] at hold
      cases hold
    simp [act, examineHold, hold, hroom]

/-- One slot waits, and takes the place: what its sequence begins with is all that follows. -/
theorem carryOut_offer {i : Slot} {b : BinIx} {s t : State} {n : Nat} (hold : s.bins[b].hold = [i])
    (hroom : s.bins[b].fill + s.bins[b].reserved < s.bins[b].capacity) (hplace : (s.slot i).reservation = none)
    (ht : carryOut n [.reserved i] (placed i b [] s) = some t) (hbins : t.bins = (placed i b [] s).bins) :
    carryOut (n + 2) [.examineHold b] s = some t := by
  have hempty : act (.examineHold b) t = (t, []) := examineHold_done (.inl (by rw [hbins, placed_bin]))
  exact carryOut_act (examineHold_room hold hroom hplace) (carryOut_append (l₁ := [.reserved i]) ht (carryOut_quiet hempty))

/-! ## What its sequence begins with (R190 to R194) -/

/-- A BOUND slot: its first item, or its STAMP, is submitted (R192 to R194). -/
theorem reserved_starts {i : Slot} {s : State} {res : Result} (ho : (s.slot i).occ = .binWait)
    (hres : (s.slot i).result = some res) (hstop : res.inputs.stop ≠ .attachFail) (ha : (s.slot i).adm = .bound)
    (hd : (s.slot i).drive.isSome) (hs : (s.slot i).silent = false) (hw : NoWork s i) :
    let items := if (s.slot i).diverted then [] else selectedItems s res.bin
    ∃ t, carryOut 3 [.reserved i] s = some t ∧
      Submitted i (firstShipCmd items res) (s.modSlot i fun r => { r with
        occ := .shipping
        ship := some { path := if r.diverted then .rework else .full, step := if items = [] then .stamp else .write
                       position := 0, selected := items, failures := 0 } }) t := by
  intro items
  have hpath : shipPath (s.slot i) = if (s.slot i).diverted then .rework else .full :=
    shipPath_of_stop fun r hr => by rw [hres] at hr; cases hr; exact hstop
  have hdrives : shipPath (s.slot i) ≠ .noDrive := by rw [hpath]; split <;> decide
  have hbound := reserved_bound ho hdrives ha
  let z := s.modSlot i SlotRec.toShip
  have hz : z.slot i = (s.slot i).toShip := State.modSlot_slot ..
  have hzd : (z.slot i).drive.isSome := by rw [hz]; exact hd
  have hzs : (z.slot i).silent = false := by rw [hz]; exact hs
  have hzr : (z.slot i).result = some res := by rw [hz]; exact hres
  cases hdiv : (s.slot i).diverted with
  | true =>
    rw [hdiv, if_pos rfl] at hpath
    have hitems : items = [] := by simp [items, hdiv]
    obtain ⟨t, ht, hsub⟩ := startStamp_settled (i := i) (s := z) hzr hzd hzs (NoWork.pendingItem (s := z) hw .stamp)
    have hact : act (.reserved i) s = (t, []) := by
      rw [hpath] at hbound
      exact hbound.trans ht
    refine ⟨t, carryOut_mono (by decide) (carryOut_quiet hact), ?_⟩
    rw [hitems]
    refine hsub.congr ?_
    simp only [z, modShip, State.modSlot_modSlot]
    exact State.modSlot_congr (by simp [SlotRec.toShip, hpath, hdiv])
  | false =>
    rw [hdiv, if_neg (by decide)] at hpath
    have hitems : items = selectedItems z res.bin := by
      simp only [items, hdiv, Bool.false_eq_true, if_false]
      exact (selectedItems_congr (.slots _ (.refl s)) _).symm
    obtain ⟨t, ht, hsub⟩ := shipWrite_settled (i := i) (s := z)
      (rec := { path := .full, step := .waitBind, position := 0, selected := [], failures := 0 })
      (by rw [hz]; simp [SlotRec.toShip, hpath]) hzr hzd hzs (NoWork.pendingItem (s := z) hw)
    have hact : act (.reserved i) s = (z, [.shipWrite i]) := by
      rw [hpath] at hbound
      exact hbound
    refine ⟨t, carryOut_act hact ht, ?_⟩
    rw [hitems]
    refine hsub.congr ?_
    simp only [z, State.modSlot_modSlot]
    exact State.modSlot_congr (by simp [SlotRec.toShip, ShipRec.writing, hdiv])

/-- A slot graded ATTACH_FAIL, off: its result is shipped, and it is released (R192, R194). -/
theorem reserved_ships {i : Slot} {s : State} {res : Result} (ho : (s.slot i).occ = .binWait)
    (hres : (s.slot i).result = some res) (hstop : res.inputs.stop = .attachFail) (hc : (s.slot i).cls = .off)
    (hq : queued s i = false) :
    ∃ t, carryOut 4 [.reserved i] s = some t ∧
      t.slot i = { s.slot i with
        occ := .removeReady, unlocked := true, unlockTimer := some (s.now + 120000)
        result := some { res with shipped := true }, ship := none, diverted := false } ∧
      (∀ j, j ≠ i → t.slot j = s.slot j) ∧ t.bins = s.bins ∧ Changed s t ∧
      flagSet t (slotScope i) (slotFlagBit .shipped) = true := by
  have hpath : shipPath (s.slot i) = .noDrive := by simp [shipPath, hres, hstop]
  let v := (s.modSlot i SlotRec.toShip).modSlot i fun r => { r with ship := r.ship.map fun rec => { rec with step := .powerOff } }
  have hv : v.slot i = { s.slot i with
      occ := .shipping
      ship := some { path := .noDrive, step := .powerOff, position := 0, selected := [], failures := 0 } } := by
    simp [v, SlotRec.toShip, hpath]
  have hvq : queued v i = false := hq
  have hvc : (v.slot i).cls = .off := by rw [hv]; exact hc
  have hoff : act (.powerOff i) v = (v, []) := by
    refine (if_neg (by simp [hvc])).trans ?_
    rw [withdrawEntry_of_none (hasEntry_of_queued hvq .power)]
  let w := (modResult i (fun res => { res with shipped := true }) v).modSlot i fun r => { r with ship := none, diverted := false }
  have hw : w.slot i = { s.slot i with
      occ := .shipping, result := some { res with shipped := true }, ship := none, diverted := false } := by
    simp [w, modResult, hv, hres]
  have hwc : (w.slot i).cls = .off := by rw [hw]; exact hc
  have hcomplete : act (.shipComplete i true) v = (raiseSlot i .shipped (unlocked i w), []) := by
    have hship : (v.slot i).ship = some { path := .noDrive, step := .powerOff, position := 0, selected := [], failures := 0 } := by
      rw [hv]
    simp only [act, shipComplete, hship, if_true]
    rfl
  have hunlock : unlocked i w = w.modSlot i fun r =>
      { r.movedTo .removeReady with unlocked := true, unlockTimer := some (s.now + 120000) } := unlocked_eq hwc hvq
  refine ⟨raiseSlot i .shipped (unlocked i w), ?_, ?_, fun j hj => ?_, ?_, ?_, flagSet_raiseSlot ..⟩
  · have hact : act (.reserved i) s = (s.modSlot i SlotRec.toShip, [.shipPowerOff i true]) := reserved_noDrive ho hpath
    have hpower : act (.shipPowerOff i true) (s.modSlot i SlotRec.toShip) = (v, [.powerOff i, .shipComplete i true]) := rfl
    exact carryOut_act hact (carryOut_act hpower
      (carryOut_append (l₁ := [.powerOff i]) (carryOut_quiet hoff) (carryOut_quiet hcomplete)))
  · rw [raiseSlot_slot, hunlock, State.modSlot_slot, SlotRec.movedTo_plain _ (by rw [hw]; simp) (by decide), hw]
  · rw [raiseSlot_slot, hunlock, State.modSlot_slot_ne _ hj]
    simp only [w, v, modResult, State.modSlot_slot_ne _ hj]
  · rw [raiseSlot_bins, hunlock]; rfl
  · rw [hunlock]
    exact .raiseSlot _ _ (.slots _ (.slots _ (.slots _ (.slots _ (.slots _ (.refl s))))))

/-! ## Power for a slot of a shelf where nobody waits (R32, R33, R36) -/

theorem committed_congr {s t : State} {k : Shelf} (hc : ∀ i, (t.slot i).cls = (s.slot i).cls)
    (hsh : ∀ c, drawOf (t.shelf k) c = drawOf (s.shelf k) c) : committed t k = committed s k := by
  unfold committed
  refine congrArg List.sum (List.map_congr_left fun i hi => ?_)
  have hk : shelfOf i = k := (mem_slotsOf ..).1 hi
  simp only [commitment, hc, hk, hsh]

/-- What a POWER request of a slot in SHIPPING leaves of it and of its shelf, whose wait queue is empty. -/
def AsksAlone (i : Slot) (s t : State) : Prop :=
  let sh := s.shelf (shelfOf i)
  if sh.enabled = false then t = s
  else if committed s (shelfOf i) + sh.idleDraw ≤ currentLimit sh then
    t.shelf (shelfOf i) = sh ∧ ∃ rank, t.slot i = { s.slot i with
      cls := .idle
      adm := .booting
      powerRank := some rank
      powerReq := .supervisor
      bootTimer := some (s.now + 1000 * sh.bootDelay)
      con := { (s.slot i).con with rx := if (s.slot i).con.line then .watching else .waitHigh } }
  else t.slot i = { s.slot i with adm := .queued } ∧
    t.shelf (shelfOf i) = { sh with queue := [{ slot := i, kind := .power, requester := .supervisor }] }

/-- A POWER request changes no other slot where nobody waits. -/
theorem requestPower_alone {i : Slot} {s : State} (ho : (s.slot i).occ = .shipping) (hc : (s.slot i).cls = .off)
    (hu : (s.slot i).unlocked = false) (hq : (s.shelf (shelfOf i)).queue = []) :
    AsksAlone i s (requestPower i .supervisor s) ∧
      (∀ j, j ≠ i → (requestPower i .supervisor s).slot j = s.slot j) ∧
      (requestPower i .supervisor s).bins = s.bins ∧ (requestPower i .supervisor s).flags = s.flags ∧
      Changed s (requestPower i .supervisor s) := by
  have hrel : released (s.slot i) = false := by simp [released, ho, hu]
  unfold AsksAlone
  by_cases hen : (s.shelf (shelfOf i)).enabled = false
  · have hsame : requestPower i .supervisor s = s := by simp [requestPower, hc, hen]
    rw [hsame]
    exact ⟨by simp [hen], fun _ _ => rfl, rfl, rfl, .refl s⟩
  let e : QueueEntry := { slot := i, kind := .power, requester := .supervisor }
  let u := (setQueue (shelfOf i) [e] s).modSlot i fun r => { r with adm := .queued }
  have hreq : requestPower i .supervisor s = examine (shelfOf i) u := by
    unfold requestPower
    simp only [hc, ne_eq, not_true_eq_false, if_false, hen, hrel, Bool.false_eq_true, or_self, reduceCtorEq, false_and, ho,
      or_true, if_true, hq]
    rfl
  have huslot : u.slot i = { s.slot i with adm := .queued } := State.modSlot_slot ..
  have hother : ∀ j, j ≠ i → u.slot j = s.slot j := fun j hj => State.modSlot_slot_ne _ hj _
  have hushelf : u.shelf (shelfOf i) = { s.shelf (shelfOf i) with queue := [e] } := by simp [u]
  have hcommit : committed u (shelfOf i) = committed s (shelfOf i) := by
    refine committed_congr (fun j => ?_) (fun c => by rw [hushelf]; cases c <;> rfl)
    by_cases hj : j = i
    · subst hj; rw [huslot]
    · rw [hother j hj]
  have hfits : fits u (shelfOf i) e = decide (committed s (shelfOf i) + (s.shelf (shelfOf i)).idleDraw ≤
      currentLimit (s.shelf (shelfOf i))) := by
    simp only [fits, e, hcommit, hushelf]
    rfl
  have hexam : examine (shelfOf i) u =
      if fits u (shelfOf i) e = true then grant e (setQueue (shelfOf i) [] u) else u := by
    have hqueue : (u.shelf (shelfOf i)).queue = [e] := by rw [hushelf]
    unfold examine
    rw [hqueue]
    simp only [List.length_singleton, examineTimes, hqueue]
  rw [if_neg hen, hreq, hexam, hfits]
  by_cases hroom : committed s (shelfOf i) + (s.shelf (shelfOf i)).idleDraw ≤ currentLimit (s.shelf (shelfOf i))
  · simp only [hroom, decide_true, if_true]
    have hgrant : grant e (setQueue (shelfOf i) [] u) = grantPower i .supervisor (setQueue (shelfOf i) [] u) := rfl
    rw [hgrant, grantPower_eq]
    refine ⟨⟨?_, nextRank (setQueue (shelfOf i) [] u) (shelfOf i), ?_⟩, fun j hj => ?_, rfl, rfl, .slots _ (.shelves _ (.slots _ (.shelves _ (.refl s))))⟩
    · rw [State.modSlot_shelf, setQueue_shelf, hushelf]
      show ({ s.shelf (shelfOf i) with queue := [] } : ShelfRec) = _
      rw [← hq]
    · rw [State.modSlot_slot, setQueue_slot, huslot, SlotRec.poweredOn_frame, setQueue_shelf, hushelf]
      have hnot : ¬Occupancy.shipping = .powerWait := by decide
      simp only [ho, hnot, if_false]
      rw [SlotRec.poweredOn_run _ _ _ (by decide)]
      rfl
    · rw [State.modSlot_slot_ne _ hj, setQueue_slot, hother j hj]
  · simp only [hroom, decide_false, Bool.false_eq_true, if_false]
    exact ⟨⟨huslot, hushelf⟩, hother, rfl, rfl, .slots _ (.shelves _ (.refl s))⟩

end Sys2Proof.Machine
end

