-- ==== Sys2Proof/Proofs/BinsAndTotes.lean ====
section
/-! SUPPORT. BIN_SET and TOTE_SWAP: the state in which their places are offered, and what becomes of the hold queue. -/

namespace Sys2Proof.Machine

/-! ## Several slots that wait for their binding (R186) -/

/-- So many slots at the head of the bin's hold queue have taken a place, and wait for their binding (R186, R192). -/
structure PlacesGranted (b : BinIx) (m : Nat) (s t : State) : Prop where
  bin : t.bins[b] = { s.bins[b] with reserved := s.bins[b].reserved + m, hold := s.bins[b].hold.drop m }
  bin_ne : ∀ c, c ≠ b → t.bins[c] = s.bins[c]
  others : ∀ i, i ∉ s.bins[b].hold.take m → t.slot i = s.slot i
  slots : ∀ i ∈ s.bins[b].hold.take m, t.slot i = (s.slot i).shippingTo b .waitBind []
  full : 0 < m → s.bins[b].fill + s.bins[b].reserved + m = s.bins[b].capacity →
    flagSet t controllerScope (controllerFlagBit .binFull) = true
  flagSet : ∀ c bit, flagSet s c bit = true → flagSet t c bit = true

/-- A slot of a hold queue that still comes to its binding, with a drive to ship (R192). -/
def MayWait (s : State) (i : Slot) : Prop :=
  (s.slot i).occ = .binWait ∧ (s.slot i).reservation = none ∧
    ((s.slot i).adm = .queued ∨ (s.slot i).adm = .booting ∨ (s.slot i).adm = .attaching) ∧
    ∀ res, (s.slot i).result = some res → res.inputs.stop ≠ .attachFail

/-- As many places as there are go to the head of the queue, one slot after another (R186). -/
theorem examineHold_grants {b : BinIx} {s : State} {l : List Slot} (hold : s.bins[b].hold = l) (hnodup : l.Nodup)
    (hwait : ∀ i ∈ l, MayWait s i) :
    ∃ t, carryOut (2 * l.length + 1) [.examineHold b] s = some t ∧
      PlacesGranted b (min (s.bins[b].capacity - (s.bins[b].fill + s.bins[b].reserved)) l.length) s t := by
  induction l generalizing s with
  | nil =>
    refine ⟨s, carryOut_quiet (examineHold_done (.inl hold)), ?_⟩
    simp only [List.length_nil, Nat.min_zero]
    exact ⟨rfl, fun _ _ => rfl, fun _ _ => rfl, by simp, by simp, fun _ _ h => h⟩
  | cons i l ih =>
    by_cases hroom : s.bins[b].fill + s.bins[b].reserved < s.bins[b].capacity
    · obtain ⟨hi, hnodup⟩ := List.nodup_cons.1 hnodup
      obtain ⟨hocc, hplace, hadm, hstop⟩ := hwait i (by simp)
      let y := placed i b l s
      let z := y.modSlot i SlotRec.toShip
      have hpath : shipPath (s.slot i) = if (s.slot i).diverted then .rework else .full := shipPath_of_stop hstop
      have hypath : shipPath (y.slot i) = shipPath (s.slot i) := by rw [placed_slot]; rfl
      have hres : act (.reserved i) y = (z, []) :=
        reserved_waits (by rw [placed_slot]; exact hocc) (by rw [hypath, hpath]; split <;> decide)
          (by rw [placed_slot]; exact hadm)
      have hzbin : z.bins[b] = { s.bins[b] with hold := l, reserved := s.bins[b].reserved + 1 } := placed_bin ..
      have hzi : z.slot i = (s.slot i).shippingTo b .waitBind [] := by
        rw [State.modSlot_slot]
        simp only [SlotRec.toShip, hypath, hpath]
        rw [placed_slot]
        rfl
      have hzother : ∀ j, j ≠ i → z.slot j = s.slot j := fun j hj => by
        rw [State.modSlot_slot_ne _ hj, placed_slot_ne _ _ _ _ hj]
      obtain ⟨t, ht, hg⟩ := ih (s := z) (by rw [hzbin]) hnodup fun j hj => by
        have hji : j ≠ i := fun h => hi (h ▸ hj)
        unfold MayWait
        rw [hzother j hji]
        exact hwait j (by simp [hj])
      have hm : min (s.bins[b].capacity - (s.bins[b].fill + s.bins[b].reserved)) (l.length + 1) =
          min (s.bins[b].capacity - (s.bins[b].fill + (s.bins[b].reserved + 1))) l.length + 1 := by omega
      rw [hzbin] at hg
      rw [List.length_cons, hm]
      generalize hk : min (s.bins[b].capacity - (s.bins[b].fill + (s.bins[b].reserved + 1))) l.length = k at hg
      have hclosed : flagSet y controllerScope (controllerFlagBit .binFull) = true →
          flagSet t controllerScope (controllerFlagBit .binFull) = true := fun h => hg.flagSet _ _ h
      refine ⟨t, ?_, ⟨?_, fun c hc => ?_, fun j hj => ?_, fun j hj => ?_, fun _ hfull => ?_, fun c bit h => ?_⟩⟩
      · have := carryOut_act (examineHold_room hold hroom hplace)
          (carryOut_append (l₁ := [.reserved i]) (carryOut_quiet hres) ht)
        exact carryOut_mono (by omega) this
      · rw [hg.bin, hzbin, hold]
        simp only [List.drop_succ_cons, Nat.add_assoc, Nat.add_comm 1]
      · rw [hg.bin_ne c hc]
        exact placed_bin_ne _ _ _ _ hc
      · rw [hold, List.take_succ_cons, List.mem_cons, not_or] at hj
        obtain ⟨hji, hj⟩ := hj
        rw [hg.others j (by rw [hzbin]; exact hj), hzother j hji]
      · rw [hold, List.take_succ_cons, List.mem_cons] at hj
        rcases hj with rfl | hj
        · rw [hg.others j (by rw [hzbin]; exact fun h => hi (List.mem_of_mem_take h)), hzi]
        · have hji : j ≠ i := fun h => hi (h ▸ List.mem_of_mem_take hj)
          rw [hg.slots j (by rw [hzbin]; exact hj), hzother j hji]
      · by_cases hk0 : k = 0
        · subst hk0
          exact hclosed (placed_full _ _ _ _ hfull)
        · refine hg.full (by omega) ?_
          rw [hzbin]
          show s.bins[b].fill + (s.bins[b].reserved + 1) + k = s.bins[b].capacity
          omega
      · exact hg.flagSet c bit (placed_flagSet i b l s h)
    · refine ⟨s, carryOut_mono (by omega) (carryOut_quiet (examineHold_done (.inr (Nat.not_lt.1 hroom)))), ?_⟩
      have hm : min (s.bins[b].capacity - (s.bins[b].fill + s.bins[b].reserved)) (i :: l).length = 0 := by omega
      rw [hm]
      exact ⟨rfl, fun _ _ => rfl, fun _ _ => rfl, by simp, by simp, fun _ _ h => h⟩

/-! ## The state in which places are offered -/

/-- The bin has this capacity and fill, and nothing else that the hold queue's slots see has changed. -/
structure Offered (b : BinIx) (cap fill : Nat) (s v : State) : Prop where
  slot : ∀ i, v.slot i = s.slot i
  shelf : ∀ k, v.shelf k = s.shelf k
  bin : v.bins[b] = { s.bins[b] with capacity := cap, fill := fill }
  bin_ne : ∀ c, c ≠ b → v.bins[c] = s.bins[c]
  now : v.now = s.now
  items : ∀ c, selectedItems v c = selectedItems s c

theorem Offered.of_serving {kind tag : Byte} {p : List Byte} {b : BinIx} {cap fill : Nat} {s : State} {f : Bin → Bin}
    (hf : f s.bins[b] = { s.bins[b] with capacity := cap, fill := fill }) :
    Offered b cap fill s ((serving kind tag p s).modBin b f) where
  slot _ := rfl
  shelf _ := rfl
  bin := (State.modBin_bin ..).trans hf
  bin_ne _ hc := State.modBin_bin_ne _ hc _
  now := rfl
  items _ := rfl

/-- The one slot that waited has the bin's place, and no other slot and bin has changed (R186, R189). -/
def PlaceGiven (s t : State) (b : BinIx) (i : Slot) (cap fill : Nat) : Prop :=
  t.bins[b] = { capacity := cap, fill := fill, reserved := s.bins[b].reserved + 1, hold := [] } ∧
    (∀ c : BinIx, c ≠ b → t.bins[c] = s.bins[c]) ∧ OtherSlotsSame s t i ∧
    (fill + s.bins[b].reserved + 1 = cap → flagSet t controllerScope (controllerFlagBit .binFull) = true)

section
variable {b : BinIx} {cap fill : Nat} {s v : State} {i : Slot} (h : Offered b cap fill s v)
include h

theorem Offered.placed_slot : (placed i b [] v).slot i = { s.slot i with reservation := some b } := by
  rw [Machine.placed_slot, h.slot]

theorem Offered.noWork (hw : NoWork s i) : NoWork (placed i b [] v) i := by
  intro it hit
  rw [placed_shelf, h.shelf] at hit
  exact hw it hit

/-- What follows a slot's taking the only place offered is what its sequence begins with. -/
theorem Offered.given {n : Nat} {t : State} (hold : s.bins[b].hold = [i]) (hroom : fill + s.bins[b].reserved < cap)
    (hplace : (s.slot i).reservation = none) (ht : carryOut n [.reserved i] (placed i b [] v) = some t)
    (hbins : t.bins = (placed i b [] v).bins) (hother : ∀ j, j ≠ i → t.slot j = (placed i b [] v).slot j) :
    carryOut (n + 2) [.examineHold b] v = some t ∧ PlaceGiven s t b i cap fill := by
  refine ⟨carryOut_offer (by rw [h.bin]; exact hold) (by rw [h.bin]; exact hroom) (by rw [h.slot]; exact hplace) ht hbins,
    ?_, fun c hc => ?_, fun j hj => ?_, fun hfull => carryOut_flagSet ht (placed_full _ _ _ _ (by rw [h.bin]; exact hfull))⟩
  · rw [hbins, placed_bin, h.bin]
  · rw [hbins, placed_bin_ne _ _ _ _ hc, h.bin_ne c hc]
  · rw [hother j hj, placed_slot_ne _ _ _ _ hj, h.slot]

theorem Offered.starts {res : Result} (hold : s.bins[b].hold = [i]) (hroom : fill + s.bins[b].reserved < cap)
    (hocc : (s.slot i).occ = .binWait) (hplace : (s.slot i).reservation = none) (hres : (s.slot i).result = some res)
    (hstop : res.inputs.stop ≠ .attachFail) (hadm : (s.slot i).adm = .bound) (hd : (s.slot i).drive.isSome)
    (hs : (s.slot i).silent = false) (hw : NoWork s i) :
    ∃ t, carryOut 5 [.examineHold b] v = some t ∧ PlaceGiven s t b i cap fill ∧ ShipStarts s t i b res := by
  have hy := h.placed_slot (i := i)
  have hitems : (if ((placed i b [] v).slot i).diverted then [] else selectedItems (placed i b [] v) res.bin) =
      if (s.slot i).diverted then [] else selectedItems s res.bin := by
    rw [hy, selectedItems_congr (placed_changed ..), h.items]
  obtain ⟨t, ht, hsub⟩ := reserved_starts (i := i) (s := placed i b [] v) (by rw [hy]; exact hocc) (by rw [hy]; exact hres)
    hstop (by rw [hy]; exact hadm) (by rw [hy]; exact hd) (by rw [hy]; exact hs) (h.noWork hw)
  rw [hitems] at hsub
  obtain ⟨hcarry, hgiven⟩ := h.given hold hroom hplace ht hsub.bus.bins fun j hj => by
    rw [hsub.bus.slot, State.modSlot_slot_ne _ hj]
  refine ⟨t, hcarry, hgiven, ?_⟩
  have hslot := hsub.bus.slot i
  rw [State.modSlot_slot, hy] at hslot
  have hpend := hsub.pending.slotPending
  unfold ShipStarts
  generalize (if (s.slot i).diverted then [] else selectedItems s res.bin) = items at hslot hpend ⊢
  cases items with
  | nil => exact ⟨hslot, hpend⟩
  | cons first rest => exact ⟨hslot, hpend⟩

theorem Offered.asks (hold : s.bins[b].hold = [i]) (hroom : fill + s.bins[b].reserved < cap)
    (hocc : (s.slot i).occ = .binWait) (hplace : (s.slot i).reservation = none)
    (hstop : ∀ res, (s.slot i).result = some res → res.inputs.stop ≠ .attachFail) (hadm : (s.slot i).adm = .off)
    (hc : (s.slot i).cls = .off) (hu : (s.slot i).unlocked = false) (hq : (s.shelf (shelfOf i)).queue = []) :
    ∃ t, carryOut 4 [.examineHold b] v = some t ∧ PlaceGiven s t b i cap fill ∧ ShipAsksForPower s t i b := by
  have hy := h.placed_slot (i := i)
  have hpath : shipPath ((placed i b [] v).slot i) = if (s.slot i).diverted then .rework else .full := by
    rw [hy]; exact shipPath_of_stop hstop
  let z := (placed i b [] v).modSlot i SlotRec.toShip
  have hz : z.slot i = (s.slot i).shippingTo b .waitBind [] := by
    rw [State.modSlot_slot]
    simp only [SlotRec.toShip, hpath]
    rw [hy]
    rfl
  have hzshelf : z.shelf (shelfOf i) = s.shelf (shelfOf i) := by rw [State.modSlot_shelf, placed_shelf, h.shelf]
  have hreserved : act (.reserved i) (placed i b [] v) = (z, [.requestPower i .supervisor]) :=
    reserved_off (by rw [hy]; exact hocc) (by rw [hpath]; split <;> decide) (by rw [hy]; exact hadm)
  obtain ⟨hask, hother, hbins, -, -⟩ := requestPower_alone (i := i) (s := z) (by rw [hz]; rfl) (by rw [hz]; exact hc)
    (by rw [hz]; exact hu) (by rw [hzshelf]; exact hq)
  obtain ⟨hcarry, hgiven⟩ := h.given hold hroom hplace (carryOut_act hreserved (carryOut_quiet rfl)) hbins fun j hj => by
    rw [hother j hj, State.modSlot_slot_ne _ hj]
  refine ⟨_, hcarry, hgiven, ?_⟩
  have hnow : z.now = s.now := by
    rw [← h.now]; exact (placed_changed i b [] v).now_eq
  have hcommit : committed z (shelfOf i) = committed s (shelfOf i) := by
    refine committed_congr (fun j => ?_) fun c => by rw [hzshelf]
    by_cases hj : j = i
    · subst hj; rw [hz]; rfl
    · rw [State.modSlot_slot_ne _ hj, placed_slot_ne _ _ _ _ hj, h.slot]
  unfold AsksAlone at hask
  rw [hzshelf, hcommit, hz, hnow] at hask
  unfold ShipAsksForPower
  dsimp only at hask ⊢
  by_cases hen : (s.shelf (shelfOf i)).enabled = false
  · rw [if_pos hen] at hask ⊢
    rw [hask]
    exact ⟨hz, hzshelf⟩
  · rw [if_neg hen] at hask ⊢
    exact hask

theorem Offered.ships {res : Result} (hold : s.bins[b].hold = [i]) (hroom : fill + s.bins[b].reserved < cap)
    (hocc : (s.slot i).occ = .binWait) (hplace : (s.slot i).reservation = none) (hres : (s.slot i).result = some res)
    (hstop : res.inputs.stop = .attachFail) (hc : (s.slot i).cls = .off) (hq : (s.shelf (shelfOf i)).queue = []) :
    ∃ t, carryOut 6 [.examineHold b] v = some t ∧ PlaceGiven s t b i cap fill ∧ ShippedWithoutDrive s t i b res := by
  have hy := h.placed_slot (i := i)
  obtain ⟨t, ht, hslot, hother, hbins, -, hflag⟩ := reserved_ships (i := i) (s := placed i b [] v) (by rw [hy]; exact hocc)
    (by rw [hy]; exact hres) hstop (by rw [hy]; exact hc) (by simp [queued, h.shelf, hq])
  obtain ⟨hcarry, hgiven⟩ := h.given hold hroom hplace ht hbins hother
  have hnow : (placed i b [] v).now = s.now := by rw [← h.now]; exact (placed_changed i b [] v).now_eq
  refine ⟨t, hcarry, hgiven, ?_, hflag⟩
  rw [hslot, hy, hnow]

theorem Offered.grants (hnodup : s.bins[b].hold.Nodup) (hwait : ∀ i ∈ s.bins[b].hold, MayWait s i) :
    let m := min (cap - (fill + s.bins[b].reserved)) s.bins[b].hold.length
    ∃ t, carryOut 49 [.examineHold b] v = some t ∧
      t.bins[b] = { capacity := cap, fill := fill, reserved := s.bins[b].reserved + m, hold := s.bins[b].hold.drop m } ∧
      (∀ c : BinIx, c ≠ b → t.bins[c] = s.bins[c]) ∧
      (∀ i : Slot, i ∉ s.bins[b].hold.take m → t.slot i = s.slot i) ∧
      (∀ i ∈ s.bins[b].hold.take m, t.slot i = (s.slot i).shippingTo b .waitBind []) ∧
      (0 < m → fill + s.bins[b].reserved + m = cap → flagSet t controllerScope (controllerFlagBit .binFull) = true) := by
  intro m
  have hlen : s.bins[b].hold.length ≤ 24 := by simpa using hnodup.length_le_card
  obtain ⟨t, ht, hg⟩ := examineHold_grants (b := b) (s := v) (l := s.bins[b].hold) (by rw [h.bin]) hnodup fun i hi => by
    unfold MayWait
    rw [h.slot]
    exact hwait i hi
  have hbin := hg.bin
  have hothers := hg.others
  have hslots := hg.slots
  have hfull := hg.full
  rw [h.bin] at hbin hothers hslots hfull
  refine ⟨t, carryOut_mono (by omega) ht, hbin, fun c hc => (hg.bin_ne c hc).trans (h.bin_ne c hc), fun i hi => ?_,
    fun i hi => ?_, hfull⟩
  · rw [hothers i hi, h.slot]
  · rw [hslots i hi, h.slot]
end

/-! ## The requests -/

/-- Settles O25: both requests offer places in a state that `Offered` describes. -/
theorem binsAndTotes : Obligations.BinsAndTotes := by
  intro tag p s b hb
  refine ⟨fun hlen hnext => ?_, fun hlen hnext => ?_⟩
  · -- BIN_SET
    let u := serving 0x11#8 tag p s
    have hexec : exec (.binSet tag p) s = answerRequest 0x11#8 tag (handleBinSet p) u := serve_next hnext _
    have hhandle : handleBinSet p u =
        if field8 p 1 = 0 ∨ field8 p 1 < s.bins[b].fill + s.bins[b].reserved then .refuse .badValue
        else if s.bins[b].capacity < field8 p 1 then
          .ok (u.modBin b fun bin => { bin with capacity := field8 p 1 }) [.examineHold b]
        else if s.bins[b].fill + s.bins[b].reserved < s.bins[b].capacity then
          .ok (noteFull b (u.modBin b fun bin => { bin with capacity := field8 p 1 })) []
        else .ok (u.modBin b fun bin => { bin with capacity := field8 p 1 }) [] := by
      unfold handleBinSet
      rw [withLength_eq hlen, withBin_val hb]
      rfl
    have hoffer : Offered b (field8 p 1) s.bins[b].fill s (u.modBin b fun bin => { bin with capacity := field8 p 1 }) :=
      .of_serving rfl
    have hok : ∀ {n : Nat} {t : State}, n ≤ Config.tellBound → s.bins[b].fill + s.bins[b].reserved ≤ field8 p 1 →
        s.bins[b].capacity < field8 p 1 →
        carryOut n [.examineHold b] (u.modBin b fun bin => { bin with capacity := field8 p 1 }) = some t →
        exec (.binSet tag p) s = .next (answered 0x11#8 tag .ok .none t) := fun hn huse hcap hcarry => by
      rw [hexec]
      exact answerRequest_ok (hhandle.trans ((if_neg (by omega)).trans (if_pos hcap))) hn hcarry
    refine ⟨fun i hcap hal => ?_, fun hbad => ?_, fun hne huse hquiet => ?_, fun huse hcap hwait => ?_⟩
    · obtain ⟨hold, hroom, hocc, hplace⟩ := hal
      refine ⟨fun res hres hships hsend => ?_, fun hships hask => ?_, fun res hres hstop hask => ?_⟩
      · obtain ⟨hadm, hd, hs, hw⟩ := hsend
        obtain ⟨t, ht, hgiven, hstarts⟩ := hoffer.starts hold hroom hocc hplace hres (hships res hres) hadm hd hs hw
        exact ⟨t, hok (by decide) (Nat.le_of_lt hroom) hcap ht, hgiven, hstarts⟩
      · obtain ⟨hadm, hc, hu, hq⟩ := hask
        obtain ⟨t, ht, hgiven, hasks⟩ := hoffer.asks hold hroom hocc hplace hships hadm hc hu hq
        exact ⟨t, hok (by decide) (Nat.le_of_lt hroom) hcap ht, hgiven, hasks⟩
      · obtain ⟨-, hc, -, hq⟩ := hask
        obtain ⟨t, ht, hgiven, hshipped⟩ := hoffer.ships hold hroom hocc hplace hres hstop hc hq
        exact ⟨t, hok (by decide) (Nat.le_of_lt hroom) hcap ht, hgiven, hshipped⟩
    · rw [hexec]
      exact answerRequest_refuse (hhandle.trans (if_pos hbad))
    · intro v
      have hdone : ∀ {w : State}, handleBinSet p u = .ok w [] →
          exec (.binSet tag p) s = .next (answered 0x11#8 tag .ok .none w) := fun h => hexec.trans (answerRequest_done h)
      have hrange : ¬(field8 p 1 = 0 ∨ field8 p 1 < s.bins[b].fill + s.bins[b].reserved) := by omega
      rw [if_neg hrange] at hhandle
      by_cases hcap : s.bins[b].capacity < field8 p 1
      · have hempty : s.bins[b].hold = [] := hquiet.resolve_left (by omega)
        have hnone := examineHold_done (b := b) (s := u.modBin b fun bin => { bin with capacity := field8 p 1 })
          (.inl (by rw [hoffer.bin]; exact hempty))
        rw [if_neg (by omega)]
        exact hok (n := 1) (by decide) huse hcap (carryOut_quiet hnone)
      · rw [if_neg hcap] at hhandle
        by_cases hfree : s.bins[b].fill + s.bins[b].reserved < s.bins[b].capacity
        · rw [if_pos hfree] at hhandle
          have hnote : noteFull b (u.modBin b fun bin => { bin with capacity := field8 p 1 }) =
              if s.bins[b].fill + s.bins[b].reserved = field8 p 1 ∧ field8 p 1 < s.bins[b].capacity then
                raiseController .binFull v else v := by
            unfold noteFull
            refine if_congr ?_ rfl rfl
            have hbin : binAt (u.modBin b fun bin => { bin with capacity := field8 p 1 }) b =
              { s.bins[b] with capacity := field8 p 1, fill := s.bins[b].fill } := hoffer.bin
            rw [hbin]
            show s.bins[b].fill + s.bins[b].reserved = field8 p 1 ↔ _
            omega
          rw [← hnote]
          exact hdone hhandle
        · rw [if_neg hfree] at hhandle
          rw [if_neg (by omega)]
          exact hdone hhandle
    · obtain ⟨hnodup, hall⟩ := hwait
      obtain ⟨t, ht, hgranted⟩ := hoffer.grants hnodup hall
      exact ⟨t, hok (by decide) (by omega) hcap ht, hgranted⟩
  · -- TOTE_SWAP
    let u := serving 0x13#8 tag p s
    have hexec : exec (.toteSwap tag p) s = answerRequest 0x13#8 tag (handleToteSwap p) u := serve_next hnext _
    have hhandle : handleToteSwap p u = .ok (u.modBin b fun bin => { bin with fill := 0 }) [.examineHold b] := by
      unfold handleToteSwap
      rw [withLength_eq hlen, withBin_val hb]
    have hoffer : Offered b s.bins[b].capacity 0 s (u.modBin b fun bin => { bin with fill := 0 }) := .of_serving rfl
    have hok : ∀ {n : Nat} {t : State}, n ≤ Config.tellBound →
        carryOut n [.examineHold b] (u.modBin b fun bin => { bin with fill := 0 }) = some t →
        exec (.toteSwap tag p) s = .next (answered 0x13#8 tag .ok .none t) := fun hn hcarry => by
      rw [hexec]
      exact answerRequest_ok hhandle hn hcarry
    refine ⟨fun i hal => ?_, fun hempty => ?_, fun hwait => ?_⟩
    · obtain ⟨hold, hroom, hocc, hplace⟩ := hal
      refine ⟨fun res hres hships hsend => ?_, fun hships hask => ?_, fun res hres hstop hask => ?_⟩
      · obtain ⟨hadm, hd, hs, hw⟩ := hsend
        obtain ⟨t, ht, hgiven, hstarts⟩ := hoffer.starts hold hroom hocc hplace hres (hships res hres) hadm hd hs hw
        exact ⟨t, hok (by decide) ht, hgiven, hstarts⟩
      · obtain ⟨hadm, hc, hu, hq⟩ := hask
        obtain ⟨t, ht, hgiven, hasks⟩ := hoffer.asks hold hroom hocc hplace hships hadm hc hu hq
        exact ⟨t, hok (by decide) ht, hgiven, hasks⟩
      · obtain ⟨-, hc, -, hq⟩ := hask
        obtain ⟨t, ht, hgiven, hshipped⟩ := hoffer.ships hold hroom hocc hplace hres hstop hc hq
        exact ⟨t, hok (by decide) ht, hgiven, hshipped⟩
    · have hquiet := examineHold_done (b := b) (s := u.modBin b fun bin => { bin with fill := 0 })
        (.inl (by rw [hoffer.bin]; exact hempty))
      exact hok (n := 1) (by decide) (carryOut_quiet hquiet)
    · obtain ⟨hnodup, hall⟩ := hwait
      obtain ⟨t, ht, hgranted⟩ := hoffer.grants hnodup hall
      exact ⟨t, hok (by decide) ht, hgranted⟩

end Sys2Proof.Machine
end

