-- ==== Sys2Proof/Proofs/Budget.lean ====
section
/-! SUPPORT. The committed total of a shelf (R29), and what keeps the budgets sound (R30): the changes of class, the wait queues,
the grants and the requests. -/

namespace Sys2Proof.Machine

/-! ## The committed total (R29) -/

/-- The total is read from the draws of the shelf and the classes of its slots. -/
theorem committed_of_shelf {s t : State} {k : Shelf} (hdraw : drawOf (t.shelf k) = drawOf (s.shelf k))
    (hcls : ∀ i : Slot, shelfOf i = k → (t.slot i).cls = (s.slot i).cls) : committed t k = committed s k := by
  unfold committed commitment
  refine congrArg List.sum (List.map_congr_left fun i hi => ?_)
  have hk := mem_slotsOf.1 hi
  rw [hk, hdraw, hcls i hk]

/-- A change of one slot moves its shelf's total by the difference of its commitments. -/
theorem committed_modSlot_add (s : State) (i : Slot) (f : SlotRec → SlotRec) :
    committed (s.modSlot i f) (shelfOf i) + drawOf (s.shelf (shelfOf i)) (s.slot i).cls =
      committed s (shelfOf i) + drawOf (s.shelf (shelfOf i)) (f (s.slot i)).cls := by
  have hi : i ∈ slotsOf (shelfOf i) := mem_slotsOf.2 rfl
  have hrest : (((slotsOf (shelfOf i)).erase i).map (commitment (s.modSlot i f))).sum =
      (((slotsOf (shelfOf i)).erase i).map (commitment s)).sum := by
    refine congrArg List.sum (List.map_congr_left fun j hj => ?_)
    have hne := ((slotsOf_nodup _).mem_erase_iff.1 hj).1
    simp [commitment, State.modSlot_slot_ne s hne]
  have ht := List.sum_map_erase (commitment (s.modSlot i f)) hi
  have hs := List.sum_map_erase (commitment s) hi
  have hti : commitment (s.modSlot i f) i = drawOf (s.shelf (shelfOf i)) (f (s.slot i)).cls := by simp [commitment]
  have hsi : commitment s i = drawOf (s.shelf (shelfOf i)) (s.slot i).cls := rfl
  unfold committed
  omega

/-- The draw of a slot is part of its shelf's total. -/
theorem drawOf_le_committed (s : State) (i : Slot) :
    drawOf (s.shelf (shelfOf i)) (s.slot i).cls ≤ committed s (shelfOf i) := by
  have := List.sum_map_erase (commitment s) (mem_slotsOf.2 (rfl : shelfOf i = shelfOf i))
  unfold committed commitment at *
  omega

/-- A change of a slot on another shelf leaves the total alone. -/
theorem committed_modSlot_ne {s : State} {i : Slot} {k : Shelf} (h : shelfOf i ≠ k) (f : SlotRec → SlotRec) :
    committed (s.modSlot i f) k = committed s k :=
  committed_of_shelf rfl fun j hj => by rw [State.modSlot_slot_ne s (by rintro rfl; exact h hj)]

/-- A change of a slot that keeps its class leaves every total alone. -/
theorem committed_modSlot_same {s : State} {i : Slot} {f : SlotRec → SlotRec} (h : (f (s.slot i)).cls = (s.slot i).cls)
    (k : Shelf) : committed (s.modSlot i f) k = committed s k :=
  committed_of_shelf rfl fun j _ => by
    rw [State.modSlot_slot_if]
    split
    · next hj => rw [h, hj]
    · rfl

@[simp] theorem committed_setQueue (k l : Shelf) (q : List QueueEntry) (s : State) :
    committed (setQueue k q s) l = committed s l :=
  committed_of_shelf (by
    rw [setQueue, State.modShelf_shelf_if]
    split
    · next hl => subst hl; rfl
    · rfl) fun _ _ => rfl

/-- A shelf whose slots are all off commits nothing. -/
theorem committed_of_all_off {s : State} {k : Shelf} (h : ∀ i : Slot, shelfOf i = k → (s.slot i).cls = .off) :
    committed s k = 0 := by
  refine List.sum_eq_zero fun x hx => ?_
  obtain ⟨i, hi, rfl⟩ := List.mem_map.1 hx
  simp [commitment, h i (mem_slotsOf.1 hi), drawOf]

/-- The draws of the classes of a powered slot lie between the idle draw and the inrush draw (R26, R29). -/
theorem idleDraw_le_drawOf {sh : ShelfRec} (hr : sh.idleDraw ≤ sh.runDraw) (hi : sh.runDraw ≤ sh.inrushDraw)
    {c : PowerClass} (hc : c ≠ .off) : sh.idleDraw ≤ drawOf sh c := by
  cases c
  · exact absurd rfl hc
  · exact le_rfl
  · exact hr.trans hi
  · exact hr

/-! ## Soundness of every shelf but for the limit of one -/

/-- What holds of a shelf's budget apart from its limit: the draws are in order, the entries are the shelf's own and
stand only while it is enabled, a SPIN entry's slot is on, and a disabled shelf's slots are off. -/
def ShelfShaped (s : State) (k : Shelf) : Prop :=
  let sh := s.shelf k
  (sh.idleDraw ≤ sh.runDraw ∧ sh.runDraw ≤ sh.inrushDraw) ∧
    (∀ e ∈ sh.queue, shelfOf e.slot = k ∧ sh.enabled = true ∧ (e.kind = .spin → (s.slot e.slot).cls ≠ .off)) ∧
    (sh.enabled = false → ∀ i : Slot, shelfOf i = k → (s.slot i).cls = .off)

/-- Every shelf is sound, except that one may stand above its limit. -/
def SoundBut (k : Shelf) (s : State) : Prop :=
  ∀ l : Shelf, ShelfShaped s l ∧ (l ≠ k → committed s l ≤ currentLimit (s.shelf l))

theorem shelfBudgetSound_iff {s : State} {k : Shelf} :
    ShelfBudgetSound s k ↔ ShelfShaped s k ∧ committed s k ≤ currentLimit (s.shelf k) :=
  ⟨fun ⟨hd, hq, ho, hc⟩ => ⟨⟨hd, hq, ho⟩, hc⟩, fun ⟨⟨hd, hq, ho⟩, hc⟩ => ⟨hd, hq, ho, hc⟩⟩

theorem budgetSound_iff_soundBut {s : State} (k : Shelf) :
    BudgetSound s ↔ SoundBut k s ∧ committed s k ≤ currentLimit (s.shelf k) := by
  constructor
  · intro h
    have h' := fun l => shelfBudgetSound_iff.1 (h l)
    exact ⟨fun l => ⟨(h' l).1, fun _ => (h' l).2⟩, (h' k).2⟩
  · rintro ⟨h, hk⟩ l
    refine shelfBudgetSound_iff.2 ⟨(h l).1, ?_⟩
    by_cases hl : l = k
    · exact hl ▸ hk
    · exact (h l).2 hl

theorem BudgetSound.but {s : State} (h : BudgetSound s) (k : Shelf) : SoundBut k s := ((budgetSound_iff_soundBut k).1 h).1

theorem BudgetSound.within {s : State} (h : BudgetSound s) (k : Shelf) : committed s k ≤ currentLimit (s.shelf k) :=
  ((budgetSound_iff_soundBut k).1 h).2

theorem BudgetSound.entry {s : State} (h : BudgetSound s) {k : Shelf} {e : QueueEntry} (he : e ∈ (s.shelf k).queue) :
    shelfOf e.slot = k ∧ (s.shelf k).enabled = true ∧ (e.kind = .spin → (s.slot e.slot).cls ≠ .off) := by
  obtain ⟨-, hq, -⟩ := h k
  exact hq e he

theorem BudgetSound.draws {s : State} (h : BudgetSound s) (k : Shelf) :
    (s.shelf k).idleDraw ≤ (s.shelf k).runDraw ∧ (s.shelf k).runDraw ≤ (s.shelf k).inrushDraw := (h k).1

/-- A slot that is on stands on an enabled shelf. -/
theorem BudgetSound.enabled_of_on {s : State} (h : BudgetSound s) {i : Slot} (hc : (s.slot i).cls ≠ .off) :
    (s.shelf (shelfOf i)).enabled = true := by
  obtain ⟨-, -, ho, -⟩ := h (shelfOf i)
  by_contra hne
  exact hc (ho (by simpa using hne) i rfl)

/-- A shelf's soundness is read from its budget and its slots' classes. -/
theorem ShelfShaped.congr {s t : State} {k : Shelf} (h : ShelfShaped s k) (hsh : SameBudget (t.shelf k) (s.shelf k))
    (hcls : ∀ i : Slot, shelfOf i = k → (t.slot i).cls = (s.slot i).cls) : ShelfShaped t k := by
  obtain ⟨hen, -, hi, hr, hu, -, -, hq⟩ := hsh
  obtain ⟨hd, he, ho⟩ := h
  refine ⟨?_, fun e heq => ?_, fun hf i hik => ?_⟩
  · rw [hi, hr, hu]; exact hd
  · obtain ⟨hk, hen', hs⟩ := he e (hq ▸ heq)
    exact ⟨hk, hen ▸ hen', fun hkind => by rw [hcls _ hk]; exact hs hkind⟩
  · rw [hcls i hik]; exact ho (hen ▸ hf) i hik

theorem drawOf_congr {a b : ShelfRec} (h : SameBudget a b) : drawOf a = drawOf b := by
  obtain ⟨-, -, hi, hr, hu, -⟩ := h
  funext c
  cases c <;> simp [drawOf, hi, hr, hu]

theorem currentLimit_congr {a b : ShelfRec} (h : SameBudget a b) : currentLimit a = currentLimit b := by
  obtain ⟨-, hl, -, -, -, hA, hB, -⟩ := h
  simp [currentLimit, supplyStatus, hl, hA, hB]



theorem sameBudget_of_eq {a b : ShelfRec} (h : a = b) : SameBudget a b := by
  subst h; exact ⟨rfl, rfl, rfl, rfl, rfl, rfl, rfl, rfl⟩

/-- A change that leaves the budgets and classes of the other shelves alone. -/
theorem SoundBut.of_shaped {s t : State} {k : Shelf} (h : SoundBut k s)
    (hother : ∀ l, l ≠ k → SameBudget (t.shelf l) (s.shelf l))
    (hcls : ∀ i : Slot, shelfOf i ≠ k → (t.slot i).cls = (s.slot i).cls) (hk : ShelfShaped t k) : SoundBut k t := by
  intro l
  by_cases hl : l = k
  · exact ⟨hl ▸ hk, fun h => absurd hl h⟩
  · have hc : ∀ i : Slot, shelfOf i = l → (t.slot i).cls = (s.slot i).cls := fun i hi => hcls i (hi ▸ hl)
    refine ⟨(h l).1.congr (hother l hl) hc, fun _ => ?_⟩
    rw [committed_of_shelf (drawOf_congr (hother l hl)) hc, currentLimit_congr (hother l hl)]
    exact (h l).2 hl

/-- A change of anything but the budgets and the classes. -/
theorem BudgetSound.congr {s t : State} (h : BudgetSound s) (hsh : ∀ k, SameBudget (t.shelf k) (s.shelf k))
    (hcls : ∀ i, (t.slot i).cls = (s.slot i).cls) : BudgetSound t := by
  intro k
  obtain ⟨hs, hc⟩ := shelfBudgetSound_iff.1 (h k)
  refine shelfBudgetSound_iff.2 ⟨hs.congr (hsh k) fun i _ => hcls i, ?_⟩
  rw [committed_of_shelf (drawOf_congr (hsh k)) fun i _ => hcls i, currentLimit_congr (hsh k)]
  exact hc

theorem BudgetSound.same {s t : State} (h : BudgetSound s) (hs : t.slots = s.slots) (hk : t.shelves = s.shelves) :
    BudgetSound t :=
  h.congr (fun k => sameBudget_of_eq (by simp [State.shelf, hk])) fun i => by simp [State.slot, hs]

theorem BudgetSound.modSlot {s : State} (h : BudgetSound s) (i : Slot) (f : SlotRec → SlotRec)
    (hf : (f (s.slot i)).cls = (s.slot i).cls) : BudgetSound (s.modSlot i f) :=
  h.congr (fun _ => sameBudget_of_eq (by simp)) fun j => by
    rw [State.modSlot_slot_if]
    split
    · next hj => rw [hf, hj]
    · rfl

theorem BudgetSound.modShelf {s : State} (h : BudgetSound s) (k : Shelf) (f : ShelfRec → ShelfRec)
    (hf : SameBudget (f (s.shelf k)) (s.shelf k)) : BudgetSound (s.modShelf k f) :=
  h.congr (fun l => by
    rw [State.modShelf_shelf_if]
    split
    · next hl => rw [hl]; exact hf
    · exact sameBudget_of_eq rfl) fun _ => rfl

theorem setOcc_budgetSound {s : State} (i : Slot) (o : Occupancy) (h : BudgetSound s) : BudgetSound (setOcc i o s) :=
  h.congr (fun _ => sameBudget_of_eq (by simp)) fun j => by
    rw [setOcc_slot_if]
    split
    · next hj => rw [hj]; simp
    · rfl

theorem raise_budgetSound {s : State} (c : Scope) (bit : Nat) (h : BudgetSound s) : BudgetSound (setFlagBit c bit s) :=
  h.same (setFlagBit_slots ..) (setFlagBit_shelves ..)

/-! ## A powered slot changes its class -/

/-- The slot of an enabled shelf changes its class and is on afterwards. -/
theorem SoundBut.modSlot_on {s : State} {i : Slot} (h : SoundBut (shelfOf i) s) (f : SlotRec → SlotRec)
    (hen : (s.shelf (shelfOf i)).enabled = true) (hon : (f (s.slot i)).cls ≠ .off) :
    SoundBut (shelfOf i) (s.modSlot i f) := by
  refine h.of_shaped (fun l _ => sameBudget_of_eq rfl) (fun j hj => ?_) ?_
  · rw [State.modSlot_slot_ne s (by rintro rfl; exact hj rfl)]
  · obtain ⟨⟨hd, hq, -⟩, -⟩ := h (shelfOf i)
    refine ⟨hd, fun e he => ?_, fun hf => absurd hen (by simpa using hf)⟩
    obtain ⟨hk, -, hs⟩ := hq e he
    refine ⟨hk, hen, fun hkind => ?_⟩
    rw [State.modSlot_slot_if]
    split
    · exact hon
    · exact hs hkind

/-- The slot of an enabled shelf changes its class, is on afterwards, and the limit holds its new draw. -/
theorem BudgetSound.modSlot_on {s : State} (h : BudgetSound s) (i : Slot) (f : SlotRec → SlotRec)
    (hen : (s.shelf (shelfOf i)).enabled = true) (hon : (f (s.slot i)).cls ≠ .off)
    (hfit : committed s (shelfOf i) + drawOf (s.shelf (shelfOf i)) (f (s.slot i)).cls ≤
      currentLimit (s.shelf (shelfOf i)) + drawOf (s.shelf (shelfOf i)) (s.slot i).cls) :
    BudgetSound (s.modSlot i f) := by
  refine (budgetSound_iff_soundBut (shelfOf i)).2 ⟨(h.but _).modSlot_on f hen hon, ?_⟩
  have := committed_modSlot_add s i f
  rw [State.modSlot_shelf]
  omega

/-- A powered slot goes to a class that is on and draws no more. -/
theorem BudgetSound.modSlot_less {s : State} (h : BudgetSound s) (i : Slot) (f : SlotRec → SlotRec)
    (hwas : (s.slot i).cls ≠ .off) (hon : (f (s.slot i)).cls ≠ .off)
    (hless : drawOf (s.shelf (shelfOf i)) (f (s.slot i)).cls ≤ drawOf (s.shelf (shelfOf i)) (s.slot i).cls) :
    BudgetSound (s.modSlot i f) := by
  have := h.within (shelfOf i)
  exact h.modSlot_on i f (h.enabled_of_on hwas) hon (by omega)

/-! ## Wait queues -/

/-- A wait queue takes entries of the shelf's slots while it is enabled, SPIN only for a slot that is on. -/
theorem SoundBut.setQueue {s : State} {k : Shelf} (h : SoundBut k s) (q : List QueueEntry)
    (hq : ∀ e ∈ q, e ∈ (s.shelf k).queue ∨
      (shelfOf e.slot = k ∧ (s.shelf k).enabled = true ∧ (e.kind = .spin → (s.slot e.slot).cls ≠ .off))) :
    SoundBut k (setQueue k q s) := by
  refine h.of_shaped (fun l hl => sameBudget_of_eq (setQueue_shelf_ne k q s hl)) (fun _ _ => rfl) ?_
  obtain ⟨⟨hd, hold, ho⟩, -⟩ := h k
  rw [ShelfShaped, setQueue_shelf]
  refine ⟨hd, fun e he => ?_, ho⟩
  rcases hq e he with he | he
  · exact hold e he
  · exact he

theorem BudgetSound.setQueue {s : State} (h : BudgetSound s) (k : Shelf) (q : List QueueEntry)
    (hq : ∀ e ∈ q, e ∈ (s.shelf k).queue ∨
      (shelfOf e.slot = k ∧ (s.shelf k).enabled = true ∧ (e.kind = .spin → (s.slot e.slot).cls ≠ .off))) :
    BudgetSound (setQueue k q s) := by
  refine (budgetSound_iff_soundBut k).2 ⟨(h.but k).setQueue q hq, ?_⟩
  rw [committed_setQueue, setQueue_shelf]
  exact h.within k

theorem BudgetSound.place {s : State} (h : BudgetSound s) (e : QueueEntry) (hen : (s.shelf (shelfOf e.slot)).enabled = true)
    (hs : e.kind = .spin → (s.slot e.slot).cls ≠ .off) :
    BudgetSound (Sys2Proof.Machine.setQueue (shelfOf e.slot) (placeRequest e (s.shelf (shelfOf e.slot)).queue) s) := by
  refine h.setQueue _ _ fun x hx => ?_
  rcases mem_placeRequest hx with rfl | ⟨hx, -⟩
  · exact .inr ⟨rfl, hen, hs⟩
  · exact .inl hx

/-! ## Grants and requests -/

/-- The grant of a waiting entry that fits (R33, R34). -/
theorem grant_budgetSound {s : State} {k : Shelf} {e : QueueEntry} (h : BudgetSound s) (hk : shelfOf e.slot = k)
    (hen : (s.shelf k).enabled = true) (hs : e.kind = .spin → (s.slot e.slot).cls ≠ .off) (hfit : fits s k e = true) :
    BudgetSound (grant e s) := by
  subst hk
  obtain ⟨f, hf, hrec⟩ := grant_eq e s
  rw [hf]
  obtain ⟨hir, hru⟩ := h.draws (shelfOf e.slot)
  rcases hrec with ⟨rank, boot, hkind, hf⟩ | ⟨rank, window, hkind, hf⟩
  · refine h.modSlot_on _ _ hen (by simp [hf]) ?_
    simp only [fits, hkind, decide_eq_true_eq] at hfit
    simp only [hf, SlotRec.poweredOn_cls, drawOf]
    omega
  · refine h.modSlot_on _ _ hen (by simp [hf, SlotRec.spunUp]) ?_
    simp only [fits, hkind, decide_eq_true_eq] at hfit
    have hidle := idleDraw_le_drawOf hir hru (hs hkind)
    have hin := drawOf_le_committed s e.slot
    simp only [hf, SlotRec.spunUp]
    rw [show drawOf (s.shelf (shelfOf e.slot)) .inrush = (s.shelf (shelfOf e.slot)).inrushDraw from rfl]
    omega

/-- The head is taken from the queue and granted. -/
theorem grantHead_budgetSound {s : State} {k : Shelf} {e : QueueEntry} {rest : List QueueEntry} (h : BudgetSound s)
    (hq : (s.shelf k).queue = e :: rest) (hfit : fits s k e = true) :
    BudgetSound (grant e (Sys2Proof.Machine.setQueue k rest s)) := by
  obtain ⟨hk, hen, hs⟩ := h.entry (k := k) (e := e) (by simp [hq])
  have hrest : BudgetSound (Sys2Proof.Machine.setQueue k rest s) :=
    h.setQueue k rest fun x hx => .inl (by rw [hq]; exact List.mem_cons_of_mem _ hx)
  refine grant_budgetSound hrest hk (by simpa using hen) (by simpa using hs) ?_
  unfold fits at hfit ⊢
  simp only [committed_setQueue, setQueue_shelf]
  exact hfit

theorem examineTimes_budgetSound {s : State} (n : Nat) (k : Shelf) (h : BudgetSound s) :
    BudgetSound (examineTimes n k s) := by
  induction n generalizing s with
  | zero => exact h
  | succ n ih =>
    unfold examineTimes
    split
    · next e rest hq =>
      split
      · next hfit => exact ih (grantHead_budgetSound h hq hfit)
      · exact h
    · exact h

theorem examine_budgetSound {s : State} (k : Shelf) (h : BudgetSound s) : BudgetSound (examine k s) :=
  examineTimes_budgetSound _ k h

theorem requestPower_budgetSound {s : State} (i : Slot) (by_ : Requester) (h : BudgetSound s) :
    BudgetSound (requestPower i by_ s) := by
  unfold requestPower
  refine ite_keeps (ite_keeps (h.modSlot i _ rfl) h) ?_
  split
  · exact h
  · next hr =>
    have hen : (s.shelf (shelfOf i)).enabled = true := by simp at hr; exact hr.1
    have hq := (h.place { slot := i, kind := .power, requester := by_ } hen (by simp)).modSlot i
      (fun r => { r with adm := .queued }) rfl
    exact ite_keeps h (examine_budgetSound _ (ite_keeps hq (setOcc_budgetSound _ _ hq)))

theorem requestSpin_budgetSound {s : State} (i : Slot) (h : BudgetSound s) : BudgetSound (requestSpin i s).1 := by
  unfold requestSpin
  split
  · exact h
  · next hc =>
    have hon : (s.slot i).cls ≠ .off := by simp [hc]
    exact examine_budgetSound _ (h.place { slot := i, kind := .spin, requester := .planRunner } (h.enabled_of_on hon)
      fun _ => hon)
  · exact h.modSlot i _ rfl
  · exact h

theorem withdrawEntry_budgetSound {s : State} (i : Slot) (kind : EntryKind) (h : BudgetSound s) :
    BudgetSound (withdrawEntry i kind s) := by
  have hq := h.setQueue (shelfOf i) (withoutSlot i (s.shelf (shelfOf i)).queue) fun _ he => .inl (mem_withoutSlot.1 he).1
  exact ite_keeps (examine_budgetSound _ (ite_keeps (hq.modSlot i _ rfl) hq)) h

/-- A powered slot returns to the idle draw, the least of a powered slot. -/
theorem toIdle_budgetSound {s : State} {i : Slot} (h : BudgetSound s) (hc : (s.slot i).cls ≠ .off) :
    BudgetSound (toIdle i s) := by
  obtain ⟨hir, hru⟩ := h.draws (shelfOf i)
  exact h.modSlot_less i _ hc (by simp) (idleDraw_le_drawOf hir hru hc)

theorem spinDown_budgetSound {s : State} (i : Slot) (h : BudgetSound s) : BudgetSound (spinDown i s) := by
  unfold spinDown
  refine withdrawEntry_budgetSound _ _ ?_
  split
  · next hc => exact examine_budgetSound _ (toIdle_budgetSound h (by simp [hc]))
  · next hc => exact examine_budgetSound _ (toIdle_budgetSound h (by simp [hc]))
  · exact h

theorem motorReport_budgetSound {s : State} (i : Slot) (motor : Motor) (h : BudgetSound s) :
    BudgetSound (motorReport i motor s).1 := by
  unfold motorReport
  dsimp only
  split
  · next hc =>
    obtain ⟨-, hru⟩ := h.draws (shelfOf i)
    exact h.modSlot_less i _ (by simp [hc.1]) (by simp) (by rw [hc.1]; exact hru)
  · exact h

theorem windowExpired_budgetSound {s : State} (i : Slot) (h : BudgetSound s) : BudgetSound (windowExpired i s).1 := by
  unfold windowExpired
  dsimp only
  split
  · next hc => exact toIdle_budgetSound h (by simp [hc])
  · exact h

/-! ## A slot is switched off -/

/-- The class of every slot after one is switched off. -/
theorem cutPower_cls (i j : Slot) (s : State) :
    ((cutPower i s).slot j).cls = if j = i then .off else (s.slot j).cls := by
  unfold cutPower
  rw [setQueue_slot, State.modSlot_slot_if]
  split <;> rfl

theorem cutPower_shelf (i : Slot) (s : State) : (cutPower i s).shelf (shelfOf i) =
    { s.shelf (shelfOf i) with queue := withoutSlot i (s.shelf (shelfOf i)).queue } := by simp [cutPower]

theorem cutPower_shelf_ne {i : Slot} {k : Shelf} (h : k ≠ shelfOf i) (s : State) : (cutPower i s).shelf k = s.shelf k := by
  unfold cutPower
  rw [setQueue_shelf_ne _ _ _ h, State.modSlot_shelf]

/-- A switch-off takes the slot's commitment from its shelf's total. -/
theorem committed_cutPower (i : Slot) (s : State) :
    committed (cutPower i s) (shelfOf i) + drawOf (s.shelf (shelfOf i)) (s.slot i).cls = committed s (shelfOf i) := by
  unfold cutPower
  rw [committed_setQueue]
  exact committed_modSlot_add s i _

theorem cutPower_soundBut {s : State} {i : Slot} (h : SoundBut (shelfOf i) s) : SoundBut (shelfOf i) (cutPower i s) := by
  refine h.of_shaped (fun l hl => sameBudget_of_eq (cutPower_shelf_ne hl s)) (fun j hj => ?_) ?_
  · rw [cutPower_cls, if_neg (by rintro rfl; exact hj rfl)]
  · obtain ⟨⟨hd, hq, ho⟩, -⟩ := h (shelfOf i)
    rw [ShelfShaped, cutPower_shelf]
    refine ⟨hd, fun e he => ?_, fun hf j hj => ?_⟩
    · obtain ⟨he, hne⟩ := mem_withoutSlot.1 he
      obtain ⟨hk, hen, hs⟩ := hq e he
      exact ⟨hk, hen, fun hkind => by rw [cutPower_cls, if_neg hne]; exact hs hkind⟩
    · rw [cutPower_cls]
      split
      · rfl
      · exact ho hf j hj

theorem cutPower_budgetSound {s : State} (i : Slot) (h : BudgetSound s) : BudgetSound (cutPower i s) := by
  refine (budgetSound_iff_soundBut (shelfOf i)).2 ⟨cutPower_soundBut (h.but _), ?_⟩
  have := committed_cutPower i s
  have hl : currentLimit ((cutPower i s).shelf (shelfOf i)) = currentLimit (s.shelf (shelfOf i)) := by
    rw [cutPower_shelf]; rfl
  have := h.within (shelfOf i)
  omega

end Sys2Proof.Machine
end

