-- ==== Sys2Proof/Proofs/Shedding.lean ====
section
/-! SUPPORT. Examinations and shedding end within the limit (R30, R33, R43), and every step keeps the budgets sound: a shelf
that its new draws, its new limit or its supply leaves above the limit is shed. -/

namespace Sys2Proof.Machine

/-! ## Examinations and shedding -/

/-- An examination that may test every entry ends with none left or with a head that does not fit. -/
theorem examineTimes_head_unfit {n : Nat} {k : Shelf} {s : State} (hn : (s.shelf k).queue.length ≤ n) {e : QueueEntry}
    {rest : List QueueEntry} (h : ((examineTimes n k s).shelf k).queue = e :: rest) :
    fits (examineTimes n k s) k e = false := by
  induction n generalizing s with
  | zero =>
    have hnil := List.length_eq_zero_iff.1 (Nat.le_zero.1 hn)
    rw [examineTimes, hnil] at h
    cases h
  | succ n ih =>
    unfold examineTimes at h ⊢
    split at h
    · next e' rest' hq =>
      split at h
      · next hfit =>
        rw [if_pos hfit]
        refine ih ?_ h
        rw [hq] at hn
        simpa using hn
      · next hfit =>
        rw [hq] at h
        cases h
        rw [if_neg hfit]
        simpa using hfit
    · next hq => rw [hq] at h; cases h

theorem Granted.currentLimit {k : Shelf} {s t : State} (h : Granted k s t) :
    currentLimit (t.shelf k) = currentLimit (s.shelf k) := by rw [h.shelf]; rfl

theorem toIdle_granted (k : Shelf) (i : Slot) (s : State) : Granted k s (toIdle i s) := .of_modSlot ..

/-- Where a stage finds no slot, none of the shelf has the property asked for. -/
theorem latest_none {s : State} {k : Shelf} {rank : SlotRec → Option Nat} {p : SlotRec → Bool}
    (h : latest s k rank p = none) {i : Slot} (hi : shelfOf i = k) : p (s.slot i) = false := by
  unfold latest at h
  suffices H : ∀ (l : List Slot) (best : Option Slot),
      l.foldl (fun best i =>
        if p (s.slot i) then
          match best with
          | none => some i
          | some j => if (rank (s.slot j)).getD 0 < (rank (s.slot i)).getD 0 then some i else best
        else best) best = none → best = none ∧ ∀ j ∈ l, p (s.slot j) = false from
    (H _ none h).2 i (mem_slotsOf.2 hi)
  intro l
  induction l with
  | nil => exact fun best hb => ⟨hb, by simp⟩
  | cons a l ih =>
    intro best hb
    obtain ⟨hstep, hrest⟩ := ih _ hb
    by_cases hp : p (s.slot a) = true
    · dsimp only at hstep
      rw [if_pos hp] at hstep
      split at hstep
      · cases hstep
      · split at hstep <;> cases hstep
    · dsimp only at hstep
      rw [if_neg hp] at hstep
      exact ⟨hstep, by simpa [hp] using hrest⟩

/-- The slots of a shelf that are on. -/
def poweredSlots (s : State) (k : Shelf) : Finset Slot := Finset.univ.filter fun i => shelfOf i = k ∧ (s.slot i).cls ≠ .off

theorem mem_poweredSlots {s : State} {k : Shelf} {i : Slot} :
    i ∈ poweredSlots s k ↔ shelfOf i = k ∧ (s.slot i).cls ≠ .off := by simp [poweredSlots]

theorem poweredSlots_card_le (s : State) (k : Shelf) : (poweredSlots s k).card ≤ 8 := by
  have hall : ∀ k : Shelf, (Finset.univ.filter fun i : Slot => shelfOf i = k).card = 8 := by decide
  rw [← hall k]
  refine Finset.card_le_card fun i hi => ?_
  simpa using (mem_poweredSlots.1 hi).1

theorem poweredSlots_cutPower_card {s : State} {k : Shelf} {i : Slot} (hi : i ∈ poweredSlots s k) :
    (poweredSlots (cutPower i s) k).card < (poweredSlots s k).card := by
  refine Finset.card_lt_card ⟨fun j hj => ?_, fun h => ?_⟩
  · obtain ⟨hk, hc⟩ := mem_poweredSlots.1 hj
    rw [cutPower_cls] at hc
    split at hc
    · exact absurd rfl hc
    · exact mem_poweredSlots.2 ⟨hk, hc⟩
  · have := (mem_poweredSlots.1 (h hi)).2
    rw [cutPower_cls, if_pos rfl] at this
    exact this rfl

/-- Stage 3 ends within the limit, since it may switch off every slot that is on. -/
theorem shedPower_within {n : Nat} {k : Shelf} {x : State × List Owed} (hn : (poweredSlots x.1 k).card ≤ n) :
    committed (shedPower n k x).1 k ≤ currentLimit ((shedPower n k x).1.shelf k) := by
  induction n generalizing x with
  | zero =>
    have hempty := Finset.card_eq_zero.1 (Nat.le_zero.1 hn)
    have hz : committed x.1 k = 0 := committed_of_all_off fun i hi => by
      by_contra hc
      simpa [hempty] using mem_poweredSlots.2 ⟨hi, hc⟩
    rw [shedPower, hz]
    exact Nat.zero_le _
  | succ n ih =>
    unfold shedPower
    split
    · assumption
    · split
      · next hnone =>
        have hz : committed x.1 k = 0 := committed_of_all_off fun i hi => by
          simpa using latest_none hnone hi
        rw [hz]
        exact Nat.zero_le _
      · next i hi =>
        obtain ⟨hk, hc⟩ := latest_some hi
        have := poweredSlots_cutPower_card (mem_poweredSlots.2 ⟨hk, of_decide_eq_true hc⟩)
        exact ih (x := (cutPower i x.1, _)) (by dsimp only; omega)

theorem shedMotors_granted (n : Nat) (k : Shelf) (c : PowerClass) (x : State × List Owed) :
    Granted k x.1 (shedMotors n k c x).1 := by
  induction n generalizing x with
  | zero => exact .refl k x.1
  | succ n ih =>
    unfold shedMotors
    split
    · exact .refl k x.1
    · split
      · exact .refl k x.1
      · exact (toIdle_granted k _ x.1).trans (ih (toIdle _ x.1, _))

theorem shedPower_granted (n : Nat) (k : Shelf) (x : State × List Owed) : Granted k x.1 (shedPower n k x).1 := by
  induction n generalizing x with
  | zero => exact .refl k x.1
  | succ n ih =>
    unfold shedPower
    split
    · exact .refl k x.1
    · split
      · exact .refl k x.1
      · next i hi =>
        obtain ⟨rfl, -⟩ := latest_some hi
        exact (cutPower_granted i x.1).trans (ih (cutPower i x.1, _))

/-- The two stages over running motors. -/
def shedSpin (k : Shelf) (s : State) : State × List Owed :=
  let x := if (s.shelf k).idleDraw < (s.shelf k).inrushDraw then shedMotors 8 k .inrush (s, []) else (s, [])
  if (s.shelf k).idleDraw < (s.shelf k).runDraw then shedMotors 8 k .run x else x

theorem shedStages_eq (k : Shelf) (s : State) : shedStages k s = shedPower 8 k (shedSpin k s) := rfl

/-- What the three stages keep of the state and of the owed requests. -/
theorem shedStages_keeps {P : State × List Owed → Prop} {k : Shelf} {s : State} (h : P (s, []))
    (hm : ∀ n c x, c ≠ .off → P x → P (shedMotors n k c x)) (hp : ∀ n x, P x → P (shedPower n k x)) :
    P (shedStages k s) := by
  rw [shedStages_eq]
  refine hp _ _ ?_
  have h1 : P (if (s.shelf k).idleDraw < (s.shelf k).inrushDraw then shedMotors 8 k .inrush (s, []) else (s, [])) := by
    split
    · exact hm _ _ _ (by decide) h
    · exact h
  unfold shedSpin
  dsimp only
  split
  · exact hm _ _ _ (by decide) h1
  · exact h1

theorem shedStages_granted (k : Shelf) (s : State) : Granted k s (shedStages k s).1 :=
  shedStages_keeps (P := fun x => Granted k s x.1) (.refl k s) (fun _ _ _ _ h => h.trans (shedMotors_granted ..))
    fun _ _ h => h.trans (shedPower_granted ..)

theorem shedStages_within (k : Shelf) (s : State) :
    committed (shedStages k s).1 k ≤ currentLimit ((shedStages k s).1.shelf k) :=
  shedPower_within (poweredSlots_card_le _ k)

/-- Settles O18: an examination tests its head until it does not fit, and stage 3 may switch every slot of the shelf off. -/
theorem examinationAndShedding : Obligations.ExaminationAndShedding := by
  unfold Obligations.ExaminationAndShedding
  exact fun k s => ⟨fun e rest h => examineTimes_head_unfit le_rfl h, fun h => (examine_budgetSound k h).within k,
    shedStages_within k s, (shedStages_granted k s).currentLimit⟩

/-- The shelf is enabled and sound but for its limit, and who owes a request stands on it, on if SPIN is owed. -/
def OwedOn (k : Shelf) (x : State × List Owed) : Prop :=
  SoundBut k x.1 ∧ (x.1.shelf k).enabled = true ∧
    ∀ o ∈ x.2, shelfOf o.slot = k ∧ (o.kind = .spin → (x.1.slot o.slot).cls ≠ .off)

theorem toIdle_cls (i j : Slot) (s : State) : ((toIdle i s).slot j).cls = if j = i then .idle else (s.slot j).cls := by
  unfold toIdle
  rw [State.modSlot_slot_if]
  split <;> rfl

theorem shedMotors_owedOn {x : State × List Owed} (n : Nat) {k : Shelf} {c : PowerClass} (h : OwedOn k x) :
    OwedOn k (shedMotors n k c x) := by
  induction n generalizing x with
  | zero => exact h
  | succ n ih =>
    unfold shedMotors
    split
    · exact h
    · split
      · exact h
      · next i hi =>
        obtain ⟨rfl, -⟩ := latest_some hi
        obtain ⟨hs, hen, ho⟩ := h
        refine ih ⟨hs.modSlot_on _ hen (by simp), hen, fun o hmem => ?_⟩
        rw [toIdle_cls]
        rcases List.mem_append.1 hmem with hmem | hmem
        · refine ⟨(ho o hmem).1, fun hkind => ?_⟩
          split
          · decide
          · exact (ho o hmem).2 hkind
        · obtain rfl := List.mem_singleton.1 hmem
          exact ⟨rfl, fun _ => by simp⟩

theorem shedPower_owedOn {x : State × List Owed} (n : Nat) {k : Shelf} (h : OwedOn k x) : OwedOn k (shedPower n k x) := by
  induction n generalizing x with
  | zero => exact h
  | succ n ih =>
    unfold shedPower
    split
    · exact h
    · split
      · exact h
      · next i hi =>
        obtain ⟨rfl, -⟩ := latest_some hi
        obtain ⟨hs, hen, ho⟩ := h
        refine ih ⟨cutPower_soundBut hs, ((cutPower_granted i x.1).enabled _).trans hen, fun o hmem => ?_⟩
        rcases List.mem_append.1 hmem with hmem | hmem
        · obtain ⟨hmem, hne⟩ := List.mem_filter.1 hmem
          refine ⟨(ho o hmem).1, fun hkind => ?_⟩
          rw [cutPower_cls, if_neg (of_decide_eq_true hne)]
          exact (ho o hmem).2 hkind
        · obtain rfl := List.mem_singleton.1 hmem
          exact ⟨rfl, fun hkind => by cases hkind⟩

theorem shedStages_owedOn {s : State} {k : Shelf} (h : SoundBut k s) (hen : (s.shelf k).enabled = true) :
    OwedOn k (shedStages k s) :=
  shedStages_keeps (P := OwedOn k) ⟨h, hen, by simp⟩ (fun n _ _ _ h => shedMotors_owedOn n h) fun n _ h =>
    shedPower_owedOn n h

theorem owePower_budgetSound {s : State} (o : Owed) (h : BudgetSound s) : BudgetSound (owePower o s) := by
  have hq := h.modSlot o.slot (fun r => { r with adm := .queued }) rfl
  exact ite_keeps (ite_keeps hq (setOcc_budgetSound _ _ hq)) h

theorem owedEntry_slot (s : State) (o : Owed) : (owedEntry s o).slot = o.slot := by
  unfold owedEntry; split <;> rfl

theorem owedEntry_kind (s : State) (o : Owed) : (owedEntry s o).kind = o.kind := by
  unfold owedEntry; split <;> simp [*]

theorem placeOwed_budgetSound {k : Shelf} {x : State × List Owed} (h : OwedOn k x)
    (hin : committed x.1 k ≤ currentLimit (x.1.shelf k)) : BudgetSound (placeOwed k x.2 x.1) := by
  obtain ⟨hs, hen, howed⟩ := h
  have hsound : BudgetSound x.1 := (budgetSound_iff_soundBut k).2 ⟨hs, hin⟩
  refine foldl_keeps (fun _ _ h => owePower_budgetSound _ h) _ (hsound.setQueue k _ fun e he => ?_)
  rcases List.mem_append.1 he with he | he
  · obtain ⟨o, ho, rfl⟩ := List.mem_map.1 he
    have ho : o ∈ x.2 := by
      rcases mem_foldl_insertOwed ho with ho | ho
      · exact List.mem_of_mem_filter ho
      · simp at ho
    rw [owedEntry_slot, owedEntry_kind]
    exact .inr ⟨(howed o ho).1, hen, (howed o ho).2⟩
  · exact .inl (List.mem_of_mem_filter he)

/-- A shelf that is disabled commits nothing. -/
theorem SoundBut.sound_of {s : State} {k : Shelf} (h : SoundBut k s)
    (hin : (s.shelf k).enabled = true → committed s k ≤ currentLimit (s.shelf k)) : BudgetSound s := by
  refine (budgetSound_iff_soundBut k).2 ⟨h, ?_⟩
  obtain ⟨⟨-, -, ho⟩, -⟩ := h k
  cases hen : (s.shelf k).enabled
  · rw [committed_of_all_off (ho hen)]; exact Nat.zero_le _
  · exact hin hen

/-- Shedding makes the one shelf sound that may stand above its limit. -/
theorem shed_budgetSound {s : State} {k : Shelf} (h : SoundBut k s) : BudgetSound (shed k s).1 := by
  have howed := shedStages_owedOn h
  have hin := shedStages_within k s
  unfold shed
  generalize shedStages k s = x at howed hin
  split
  · next hover => exact placeOwed_budgetSound (howed (Bool.and_eq_true_iff.1 hover).1) hin
  · next hover =>
    exact h.sound_of fun hen => by simpa [hen] using hover

theorem limitChanged_budgetSound {s : State} {k : Shelf} (h : SoundBut k s) : BudgetSound (limitChanged k s).1 := by
  unfold limitChanged
  split
  · exact shed_budgetSound h
  · next hover => exact examine_budgetSound k (h.sound_of fun hen => by simpa [hen] using hover)

/-! ## The disable of a shelf -/

/-- The classes after several slots are switched off. -/
theorem foldl_cutPower_cls (l : List Slot) (s : State) (j : Slot) :
    ((l.foldl (fun s i => cutPower i s) s).slot j).cls = if j ∈ l then .off else (s.slot j).cls := by
  induction l generalizing s with
  | nil => simp
  | cons a l ih =>
    rw [List.foldl_cons, ih, cutPower_cls]
    by_cases hj : j ∈ l
    · simp [hj]
    · by_cases ha : j = a <;> simp [hj, ha]

theorem foldl_cutPower_granted {k : Shelf} {l : List Slot} (hl : ∀ i ∈ l, shelfOf i = k) (s : State) :
    Granted k s (l.foldl (fun s i => cutPower i s) s) := by
  induction l generalizing s with
  | nil => exact .refl k s
  | cons a l ih =>
    have ha : shelfOf a = k := hl a (by simp)
    exact (ha ▸ cutPower_granted a s).trans (ih (fun i hi => hl i (List.mem_cons_of_mem _ hi)) _)

theorem clearQueue_granted (k : Shelf) (s : State) : Granted k s (clearQueue k s) := by
  refine Granted.trans (t := _) ?_ (.of_setQueue (by simp))
  exact foldl_keeps (P := Granted k s) (fun _ _ h => ite_keeps (h.trans (.of_modSlot ..)) h) _ (.refl k s)

theorem clearQueue_cls (k : Shelf) (s : State) (j : Slot) : ((clearQueue k s).slot j).cls = (s.slot j).cls := by
  refine foldl_keeps (P := fun t => (t.slot j).cls = (s.slot j).cls) (fun t e h => ?_) _ rfl
  split
  · rw [State.modSlot_slot_if]
    split
    · next hj => rw [← h, hj]
    · exact h
  · exact h

@[simp] theorem clearQueue_queue (k : Shelf) (s : State) : ((clearQueue k s).shelf k).queue = [] := by simp [clearQueue]

theorem disableShelf_granted (k : Shelf) (s : State) : Granted k s (disableShelf k s).1 :=
  (foldl_cutPower_granted (fun _ hi => mem_slotsOf.1 (List.mem_of_mem_filter hi)) s).trans (clearQueue_granted k _)

/-- A disable switches every slot of the shelf off and no other (R45). -/
theorem disableShelf_cls (k : Shelf) (s : State) (j : Slot) :
    ((disableShelf k s).1.slot j).cls = if shelfOf j = k then .off else (s.slot j).cls := by
  unfold disableShelf
  rw [clearQueue_cls, foldl_cutPower_cls]
  by_cases hk : shelfOf j = k
  · by_cases hc : (s.slot j).cls = .off <;> simp [mem_slotsOf, hk, hc]
  · simp [mem_slotsOf, hk]

/-- The other shelves are sound, and the disabled one has its draws in order and commits nothing. -/
theorem disableShelf_budgetSound {s : State} {k : Shelf} (hd : (s.shelf k).idleDraw ≤ (s.shelf k).runDraw ∧
    (s.shelf k).runDraw ≤ (s.shelf k).inrushDraw) (hother : ∀ l, l ≠ k → ShelfBudgetSound s l) :
    BudgetSound (disableShelf k s).1 := by
  have hg := disableShelf_granted k s
  have hoff : ∀ i, shelfOf i = k → ((disableShelf k s).1.slot i).cls = .off := fun i hi => by
    rw [disableShelf_cls, if_pos hi]
  intro l
  by_cases hl : l = k
  · subst hl
    refine shelfBudgetSound_iff.2 ⟨⟨by rw [hg.shelf]; exact hd, fun e he => ?_, fun _ => hoff⟩, ?_⟩
    · simp [disableShelf] at he
    · rw [committed_of_all_off hoff]; exact Nat.zero_le _
  · obtain ⟨hs, hc⟩ := shelfBudgetSound_iff.1 (hother l hl)
    have hsame := sameBudget_of_eq (hg.shelf_ne l hl)
    have hcls : ∀ i, shelfOf i = l → ((disableShelf k s).1.slot i).cls = (s.slot i).cls := fun i hi => by
      rw [disableShelf_cls, if_neg (by rw [hi]; exact hl)]
    refine shelfBudgetSound_iff.2 ⟨hs.congr hsame hcls, ?_⟩
    rw [committed_of_shelf (drawOf_congr hsame) hcls, currentLimit_congr hsame]
    exact hc

/-! ## SHELF_SET and the supply lines -/

/-- New draws in order and a new limit for a shelf that stays enabled or disabled. -/
theorem BudgetSound.modShelf_but {s : State} (h : BudgetSound s) (k : Shelf) (f : ShelfRec → ShelfRec)
    (hd : (f (s.shelf k)).idleDraw ≤ (f (s.shelf k)).runDraw ∧ (f (s.shelf k)).runDraw ≤ (f (s.shelf k)).inrushDraw)
    (hq : (f (s.shelf k)).queue = (s.shelf k).queue)
    (hen : ((f (s.shelf k)).enabled = (s.shelf k).enabled) ∨ (s.shelf k).enabled = false) : SoundBut k (s.modShelf k f) := by
  refine (h.but k).of_shaped (fun l hl => sameBudget_of_eq (s.modShelf_shelf_ne hl f)) (fun _ _ => rfl) ?_
  obtain ⟨-, hold, ho, -⟩ := h k
  rw [ShelfShaped, State.modShelf_shelf]
  refine ⟨hd, fun e he => ?_, fun hf => ho ?_⟩
  · obtain ⟨hk, he', hs⟩ := hold e (hq ▸ he)
    rcases hen with hen | hen
    · exact ⟨hk, hen.trans he', hs⟩
    · rw [hen] at he'; cases he'
  · rcases hen with hen | hen
    · exact hen ▸ hf
    · exact hen

theorem shelfFieldsOk_draws {p : List Byte} (h : shelfFieldsOk p = true) :
    field8 p 4 ≤ field8 p 5 ∧ field8 p 5 ≤ field8 p 6 := by
  simp [shelfFieldsOk] at h
  omega

@[simp] theorem replaceShelf_enabled (k : Shelf) (p : List Byte) (s : State) :
    ((replaceShelf k p s).shelf k).enabled = decide (field8 p 1 = 1) := by simp [replaceShelf]

theorem handleShelfSet_budgetSound {s : State} (p : List Byte) (h : BudgetSound s) :
    (handleShelfSet p s).Keeps BudgetSound := by
  refine withLength_stays (withShelf_stays fun k => ?_)
  split
  · next hok =>
    have hd := shelfFieldsOk_draws hok
    have hbut : ((replaceShelf k p s).shelf k).enabled = (s.shelf k).enabled ∨ (s.shelf k).enabled = false →
        SoundBut k (replaceShelf k p s) := fun hen =>
      h.modShelf_but k _ hd rfl (hen.imp_left fun h => by rw [← h, replaceShelf_enabled])
    dsimp only
    split
    · refine disableShelf_budgetSound (by simpa [replaceShelf] using hd) fun l hl => ?_
      refine shelfBudgetSound_iff.2 ⟨?_, ?_⟩
      · exact ((shelfBudgetSound_iff.1 (h l)).1).congr (sameBudget_of_eq (s.modShelf_shelf_ne hl _)) fun _ _ => rfl
      · have hsame : (replaceShelf k p s).shelf l = s.shelf l := s.modShelf_shelf_ne hl _
        rw [committed_of_shelf (s := s) (t := replaceShelf k p s) (by rw [hsame]) fun _ _ => rfl, hsame]
        exact h.within l
    · next hnd =>
      split
      · next hup =>
        have hwas : (s.shelf k).enabled = false := by simp at hup; exact hup.1
        refine (hbut (.inr hwas)).sound_of fun _ => ?_
        obtain ⟨-, -, ho, -⟩ := h k
        rw [committed_of_all_off (s := replaceShelf k p s) (ho hwas)]; exact Nat.zero_le _
      · next hup =>
        refine shed_budgetSound (hbut ?_)
        revert hnd hup
        cases ((replaceShelf k p s).shelf k).enabled <;> cases (s.shelf k).enabled <;> simp
  · trivial

theorem supplyLevel_soundBut {s : State} (k : Shelf) (line : SupplyLine) (h : BudgetSound s) :
    SoundBut k (s.modShelf k (supplyLevel line)) := by
  cases line <;> exact h.modShelf_but k _ (h.draws k) rfl (.inl rfl)

/-- Setting a flag changes no budget. -/
theorem SoundBut.raise {s : State} {k : Shelf} (h : SoundBut k s) (c : Scope) (bit : Nat) : SoundBut k (setFlagBit c bit s) :=
  h.of_shaped (fun l _ => sameBudget_of_eq (by simp)) (fun i _ => by simp)
    ((h k).1.congr (sameBudget_of_eq (by simp)) fun i _ => by simp)

/-- The lines' flags (R28): SUPPLY_ILLEGAL as both lines are high that were not, SUPPLY_CHANGE as the status changes. -/
def supplyFlags (k : Shelf) (old new : ShelfRec) (s : State) : State :=
  let s := if (new.lineA && new.lineB) && !(old.lineA && old.lineB) then raiseShelf k .supplyIllegal s else s
  if supplyStatus new = supplyStatus old then s else raiseShelf k .supplyChange s

theorem supplySettles_eq (k : Shelf) (line : SupplyLine) (s : State) : supplySettles k line s =
    let t := supplyFlags k (s.shelf k) (supplyLevel line (s.shelf k)) (s.modShelf k (supplyLevel line))
    if currentLimit (supplyLevel line (s.shelf k)) = currentLimit (s.shelf k) then (t, []) else limitChanged k t := by
  simp only [supplySettles, supplyFlags, State.modShelf_shelf]

/-- The flags are the only change. -/
theorem supplyFlags_keeps {P : State → Prop} {s : State} {k : Shelf} (hP : ∀ t f, P t → P (raiseShelf k f t))
    (old new : ShelfRec) (h : P s) : P (supplyFlags k old new s) := by
  have hi := ite_keeps (c := ((new.lineA && new.lineB) && !(old.lineA && old.lineB)) = true) (hP _ .supplyIllegal h) h
  exact ite_keeps hi (hP _ .supplyChange hi)

theorem supplySettles_budgetSound {s : State} (k : Shelf) (line : SupplyLine) (h : BudgetSound s) :
    BudgetSound (supplySettles k line s).1 := by
  have hl := supplyLevel_soundBut k line h
  have hf := supplyFlags_keeps (P := SoundBut k) (k := k) (fun _ _ h => h.raise _ _) (s.shelf k) (supplyLevel line (s.shelf k)) hl
  have hc : committed (s.modShelf k (supplyLevel line)) k = committed s k :=
    committed_of_shelf (by rw [State.modShelf_shelf]; cases line <;> rfl) fun _ _ => rfl
  rw [supplySettles_eq]
  dsimp only
  split
  · next hsame =>
    refine supplyFlags_keeps (fun _ _ h => raise_budgetSound _ _ h) _ _ (hl.sound_of fun _ => ?_)
    rw [hc, State.modShelf_shelf, hsame]
    exact h.within k
  · exact limitChanged_budgetSound hf

/-! ## Reset, the passing of time, and every step -/

/-- RESET keeps input pins alone, which are no part of a budget. -/
theorem resetOf_budgetSound (s : State) : BudgetSound (resetOf s) :=
  budgetSound_reset.congr (fun k => by rw [resetOf_shelf, reset_shelf]; exact ⟨rfl, rfl, rfl, rfl, rfl, rfl, rfl, rfl⟩)
    fun i => by rw [resetOf_slot, reset_slot]; rfl

theorem tick_budgetSound {s : State} (h : BudgetSound s) : BudgetSound (tick s) := by
  refine h.congr (fun k => ?_) fun i => by simp [tick, State.slot]
  simp only [tick, State.shelf, Fin.getElem_fin, Vector.getElem_map]
  exact ⟨rfl, rfl, rfl, rfl, rfl, rfl, rfl, rfl⟩

/-- The operations of the blocks keep the budgets sound. -/
theorem budgetSound_loose : Loose BudgetSound where
  modSlot i f hf h := h.modSlot i f (by obtain ⟨⟨hcls, -⟩, -⟩ := hf (State.slot _ i); exact hcls)
  anySlot i f hf h := h.modSlot i f (by obtain ⟨hcls, -⟩ := hf (State.slot _ i); exact hcls)
  modShelf k f hf h := h.modShelf k f (by obtain ⟨hb, -⟩ := hf (State.shelf _ k); exact hb)
  anyShelf k f hf h := h.modShelf k f (hf _)
  holds _ _ h := h.same rfl rfl
  raiseSlot _ _ h := raise_budgetSound _ _ h
  raiseShelf _ _ h := raise_budgetSound _ _ h
  raiseController _ h := raise_budgetSound _ _ h
  examine k h := examine_budgetSound k h
  requestPower i by_ h := requestPower_budgetSound i by_ h
  requestSpin i h := requestSpin_budgetSound i h
  withdrawEntry i kind h := withdrawEntry_budgetSound i kind h
  spinDown i h := spinDown_budgetSound i h
  cutPower i h := cutPower_budgetSound i h
  motorReport i motor h := motorReport_budgetSound i motor h
  windowExpired i h := windowExpired_budgetSound i h
  unlockLatch i h := ite_keeps (h.modSlot i _ rfl) h
  lockLatch i h := h.modSlot i _ rfl
  insert i _ _ h := h.modSlot i _ rfl
  emptySegment i h := h.modSlot i _ rfl
  reserve i b _ h := by
    unfold reserve noteFull
    have hr := (h.same (t := State.modBin _ b fun bin => { bin with reserved := bin.reserved + 1 }) rfl rfl).modSlot i
      (fun r => { r with reservation := some b }) rfl
    exact ite_keeps h (ite_keeps (raise_budgetSound _ _ hr) hr)
  releaseReservation i h := by
    unfold releaseReservation
    split
    · exact h
    · exact (h.same (t := State.modBin _ _ _) rfl rfl).modSlot i _ rfl
  convertReservation i h := by
    unfold convertReservation
    split
    · exact h
    · exact (h.same (t := State.modBin _ _ _) rfl rfl).modSlot i _ rfl

/-- So do the commands. -/
theorem budgetSound_held : Held BudgetSound where
  toKept := budgetSound_loose.kept
  same hs hk _ h := h.same hs hk
  shelfSet p h := handleShelfSet_budgetSound p h
  segmentSet p h := by
    refine withLength_stays (withSlot_stays fun i => ?_)
    dsimp only
    split
    · trivial
    · split
      · trivial
      · exact h.modSlot i _ rfl
  binSet p h := by
    refine withLength_stays (withBin_stays fun b => ?_)
    have hb := h.same (t := State.modBin _ b fun bin => { bin with capacity := field8 p 1 }) rfl rfl
    dsimp only
    split
    · trivial
    · split
      · exact hb
      · split
        · exact ite_keeps (raise_budgetSound _ _ hb) hb
        · exact hb
  toteSwap p h := withLength_stays (withBin_stays fun _ => h.same rfl rfl)
  supplySettles k line h := supplySettles_budgetSound k line h
  joinSet i h := joinSet_keeps budgetSound_loose i h
  keyLoaded k h := keyLoaded_keeps budgetSound_loose k h
  nextRound k h := nextRound_keeps budgetSound_loose k h
  activityEdge i level h := activityEdge_keeps budgetSound_loose i level h
  closeWindow k n ident _ pulsing left _ h := closeWindow_keeps budgetSound_loose k n ident pulsing left h
  reset {s} _ := resetOf_budgetSound s
  tick h := tick_budgetSound h

/-- Settles O17: the budgets are sound in the `Held` sense, so that every command and every duty of the part keeps them. -/
theorem stepsKeepBudgetSound : Obligations.StepsKeepBudgetSound :=
  fun _ _ h ht => step_stays budgetSound_held h ht

end Sys2Proof.Machine
end

