-- ==== Sys2Proof/Proofs/ResetAndGrants.lean ====
section
/-! SUPPORT. What the grants of power and spin write (R34, R36, R37), and what stands after reset (R25, R48, R72, R92, R200). -/

namespace Sys2Proof.Machine

/-! ## Grants (R34, R36, R37) -/

/-- A running maximum is at least what it began with and every value it met. -/
theorem le_foldl_max {α : Type} (f : α → Nat) (l : List α) (b : Nat) :
    b ≤ l.foldl (fun m a => max m (f a)) b ∧ ∀ a ∈ l, f a ≤ l.foldl (fun m a => max m (f a)) b := by
  induction l generalizing b with
  | nil => simp
  | cons a l ih =>
    obtain ⟨hb, hl⟩ := ih (max b (f a))
    rw [List.foldl_cons]
    refine ⟨(le_max_left ..).trans hb, fun x hx => ?_⟩
    rcases List.mem_cons.1 hx with rfl | hx
    · exact (le_max_right ..).trans hb
    · exact hl x hx

/-- The next rank is later than every rank held on the shelf (R34). -/
theorem rank_lt_nextRank (s : State) {j : Slot} {k : Shelf} (hj : shelfOf j = k) :
    (∀ m, (s.slot j).powerRank = some m → m < nextRank s k) ∧ ∀ m, (s.slot j).spinRank = some m → m < nextRank s k := by
  have h := (le_foldl_max (fun i => max ((s.slot i).powerRank.getD 0) ((s.slot i).spinRank.getD 0)) (slotsOf k) 0).2 j
    (mem_slotsOf.2 hj)
  refine ⟨fun m hm => ?_, fun m hm => ?_⟩
  · have : m ≤ max ((s.slot j).powerRank.getD 0) ((s.slot j).spinRank.getD 0) := by simp [hm]
    unfold nextRank
    omega
  · have : m ≤ max ((s.slot j).powerRank.getD 0) ((s.slot j).spinRank.getD 0) := by simp [hm]
    unfold nextRank
    omega

/-- Settles O19: a grant writes its slot's record, with the next rank of the shelf. -/
theorem grantsActOnTheirSlot : Obligations.GrantsActOnTheirSlot := by
  unfold Obligations.GrantsActOnTheirSlot
  intro s i by_
  have hrank : ∀ j : Slot, shelfOf j = shelfOf i →
      (∀ m, (s.slot j).powerRank = some m → m < nextRank s (shelfOf i)) ∧
        ∀ m, (s.slot j).spinRank = some m → m < nextRank s (shelfOf i) := fun j hj => rank_lt_nextRank s hj
  constructor
  · dsimp only
    rw [grantPower_eq, State.modSlot_slot, SlotRec.poweredOn_frame]
    exact ⟨rfl, rfl, rfl, fun h => if_pos h, fun h => if_neg h, _, rfl, hrank⟩
  · have hslot : (grantSpin i by_ s).slot i = (s.slot i).spunUp (nextRank s (shelfOf i)) by_
        (some (s.now + 1000 * (s.shelf (shelfOf i)).spinWindow)) := State.modSlot_slot ..
    dsimp only
    rw [hslot]
    exact ⟨rfl, rfl, rfl, rfl, _, rfl, hrank⟩

/-! ## Reset (R24) -/

/-- Settles O3: the tables and the link are read off the reset state, the shelves off the reset record. -/
theorem resetTablesAndLink : Obligations.ResetTablesAndLink := by
  unfold Obligations.ResetTablesAndLink
  have hoff : ∀ k : Shelf, committed State.reset k = 0 := fun k =>
    committed_of_all_off fun i _ => by rw [reset_slot]; rfl
  refine ⟨fun k => ?_, fun k => ?_, ⟨rfl, rfl, rfl, rfl, rfl⟩, fun n => ?_, fun p => ?_, fun b => ?_,
    ⟨rfl, rfl, rfl, rfl, rfl, rfl⟩, fun c => ?_⟩
  · rw [reset_shelf, hoff]
    exact ⟨rfl, rfl, rfl, rfl, rfl, rfl, rfl, rfl, rfl, rfl⟩
  · rw [reset_shelf]
    exact ⟨rfl, rfl, rfl, rfl, rfl, fun n => by simp [ShelfRec.reset]⟩
  · simp [State.reset]
  · simp [State.reset, Plan.reset]
  · simp [State.reset, Bin.reset]
  · have hlen : c.val < (allScopes.map scopeMask).length := c.isLt
    have hget : ∀ c : Scope, ∀ h : c.val < allScopes.length, allScopes[c.val] = c := by decide
    show (allScopes.map scopeMask)[c.val]'hlen = _
    rw [List.getElem_map, hget]

end Sys2Proof.Machine
end

