-- ==== Sys2Proof/Proofs/Reads.lean ====
section
/-! SUPPORT. The requests that read, and the bytes of their replies: each field takes at most the room it is given. -/

namespace Sys2Proof.Machine

/-! ## Requests that read (R27, R162, R163, R170, R189, R209, R210, R214) -/

/-- A request that reads is answered from the state in which it stands as served. -/
theorem serve_read {kind tag : Byte} {p : List Byte} {s : State} (h : NextServed kind tag p s) {f : State → Handled}
    {b : ReplyBody} (hf : f (serving kind tag p s) = .read (serving kind tag p s) b) :
    serve kind tag p f s = .next (answered kind tag .ok b (serving kind tag p s)) := by
  rw [serve_next h]
  exact answerRequest_read hf

/-- A request that is refused is answered with its status. -/
theorem serve_refuse {kind tag : Byte} {p : List Byte} {s : State} (h : NextServed kind tag p s) {f : State → Handled}
    {status : Status} (hf : f (serving kind tag p s) = .refuse status) :
    serve kind tag p f s = .next (answered kind tag status .none (serving kind tag p s)) := by
  rw [serve_next h]
  exact answerRequest_refuse hf

section
variable {kind tag : Byte} {p : List Byte} {s : State}

theorem handleIdentify_read (hp : p = []) :
    handleIdentify p s = .read s (.identify 24 s.fastLink (decide (s.wakePattern ≠ []))) := by
  subst hp
  rw [handleIdentify, withLength_eq (n := 0) rfl]
  cases s.wakePattern <;> rfl

theorem handleEventsRead_scope {c : Scope} (hp : p.length = 1) (hc : field8 p 0 = c.val) :
    handleEventsRead p s = .read s (.scope s.flags[c] s.enables[c] (decide (c ∈ s.notices))) := by
  have hne : c.val ≠ 255 := by omega
  have hn : noticePending s c = decide (c ∈ s.notices) := by
    rw [Bool.eq_iff_iff]
    simp [noticePending]
  rw [handleEventsRead, withLength_eq hp, hc, if_neg hne, scopeOf_val, ← hn]

theorem handleEventsRead_all (hp : p.length = 1) (hc : field8 p 0 = 255) :
    handleEventsRead p s = .read s (.allFlags s.flags.toList) := by
  rw [handleEventsRead, withLength_eq hp, if_pos hc]

theorem handleShelfRead_shelf {k : Shelf} (hp : p.length = 1) (hk : field8 p 0 = k.val) :
    handleShelfRead p s = .read s (.shelf (shelfReport s k)) := by
  rw [handleShelfRead, withLength_eq hp, withShelf_val hk]

theorem handleBinRead_bin {b : BinIx} (hp : p.length = 1) (hb : field8 p 0 = b.val) :
    handleBinRead p s = .read s (.bin s.bins[b].capacity s.bins[b].fill s.bins[b].reserved s.bins[b].hold) := by
  rw [handleBinRead, withLength_eq hp, withBin_val hb]
  rfl

variable {i : Slot} (hi : field8 p 0 = i.val)
include hi

theorem handleSlotRead_core (hp : p.length = 2) (h : field8 p 1 = 0) :
    handleSlotRead p s = .read s (.core (coreReport s i)) := by
  rw [handleSlotRead, withLength_eq hp, withSlot_val hi]
  simp only [h]

theorem handleSlotRead_run (hp : p.length = 2) (h : field8 p 1 = 1) :
    handleSlotRead p s = .read s (.run (s.slot i).run) := by
  rw [handleSlotRead, withLength_eq hp, withSlot_val hi]
  simp only [h]

theorem handleSlotRead_result (hp : p.length = 2) (h : field8 p 1 = 2) :
    handleSlotRead p s = .read s (.result (s.slot i).result (s.slot i).reservation (holdPlace s i) (s.slot i).ship
      (s.slot i).diverted) := by
  rw [handleSlotRead, withLength_eq hp, withSlot_val hi]
  simp only [h]

theorem handleSlotRead_refuse (hp : p.length = 2) (h : 2 < field8 p 1) : handleSlotRead p s = .refuse .badValue := by
  rw [handleSlotRead, withLength_eq hp, withSlot_val hi]
  dsimp only
  split
  · next h' => omega
  · next h' => omega
  · next h' => omega
  · rfl

theorem handleDefectRead_entries (hp : p.length = 3) (h : field16 p 1 ≤ 6143) :
    handleDefectRead p s = .read s (.defects (s.slot i).seg.base (s.slot i).seg.limit (s.slot i).seg.entries.length
      (s.slot i).seg.revision (s.slot i).seg.overflow (((s.slot i).seg.entries.drop (field16 p 1)).take 12)) := by
  rw [handleDefectRead, withLength_eq hp, withSlot_val hi, if_neg (Nat.not_lt.2 h)]

theorem handleHeadRead_heads (hp : p.length = 2) (h : field8 p 1 ≤ 1) :
    handleHeadRead p s = .read s (.heads (((s.slot i).seg.heads.toList.drop (8 * field8 p 1)).take 8)
      (s.slot i).seg.fullDrops (s.slot i).seg.overflow (s.slot i).seg.early (s.slot i).seg.firstGrown) := by
  rw [handleHeadRead, withLength_eq hp, withSlot_val hi, if_neg (Nat.not_lt.2 h)]

theorem handleConsoleRead_ring (hp : p.length = 4) (ho : field16 p 1 ≤ 511) (hc : field8 p 3 ≤ 200) :
    handleConsoleRead p s =
      let c := (s.slot i).con
      .read s (.console ((c.ring.take (c.ring.length - field16 p 1)).drop (c.ring.length - field16 p 1 - field8 p 3))
        c.received c.framingErrors c.ring.length (s.shelf (shelfOf i)).rate (decide ((s.slot i).occ = .testing))
        c.progress) := by
  have hr : ¬(511 < field16 p 1 ∨ 200 < field8 p 3) := by omega
  rw [handleConsoleRead, withLength_eq hp, withSlot_val hi, if_neg hr]
  simp [ringStretch, matchingActive]
end

/-! ## The bytes of replies (R206, R210, R211) -/

/-- The four bytes of a set, most significant first. -/
theorem setField_bytes (v : BitVec 32) : (setField v).bytes = setBytes v := by
  simp only [setField, ReplyField.bytes, bytesOf, setBytes, List.cons.injEq, and_true]
  refine ⟨?_, ?_, ?_, ?_⟩ <;> · apply BitVec.eq_of_toNat_eq; simp [Nat.shiftRight_eq_div_pow]

theorem yesNo_bytes (b : Bool) : (yesNo b).bytes = [if b then 1 else 0] := by cases b <;> rfl

/-- The most bytes that a field takes. -/
def ReplyField.room : ReplyField → Nat
  | .num size _ => size
  | .free x => x.room

/-- The most bytes that several fields take. -/
def roomOf (l : List ReplyField) : Nat := (l.map ReplyField.room).sum

theorem bytesOf_length (n v : Nat) : (bytesOf n v).length = n := by
  induction n generalizing v with
  | zero => rfl
  | succ n ih => simp [bytesOf, ih]

theorem ReplyField.bytes_length_le (f : ReplyField) : f.bytes.length ≤ f.room := by
  cases f with
  | num size value => exact (bytesOf_length size value).le
  | free x => simp [ReplyField.bytes, ReplyField.room]

theorem bytes_length_le_roomOf (l : List ReplyField) : (l.flatMap ReplyField.bytes).length ≤ roomOf l := by
  induction l with
  | nil => rfl
  | cons f l ih =>
    have := f.bytes_length_le
    simp only [List.flatMap_cons, List.length_append, roomOf, List.map_cons, List.sum_cons] at ih ⊢
    omega

@[simp] theorem roomOf_nil : roomOf [] = 0 := rfl
@[simp] theorem roomOf_cons (f : ReplyField) (l : List ReplyField) : roomOf (f :: l) = f.room + roomOf l := rfl
@[simp] theorem roomOf_append (l m : List ReplyField) : roomOf (l ++ m) = roomOf l + roomOf m := by simp [roomOf]

/-- A part that may be absent takes a byte and, while present, its fields. -/
theorem roomOf_optional {α : Type} {a : Option α} {f : α → List ReplyField} {n : Nat} (h : ∀ x, a = some x → roomOf (f x) ≤ n) :
    roomOf (optional a f) ≤ 1 + n := by
  cases a with
  | none => simp [optional, ReplyField.room, OpenField.room]
  | some x => simpa [optional, ReplyField.room, OpenField.room] using h x rfl

/-- A list takes a byte and the fields of its entries. -/
theorem roomOf_listed {α : Type} {l : List α} {f : α → List ReplyField} {n : Nat} (h : ∀ x, roomOf (f x) ≤ n) :
    roomOf (listed l f) ≤ 1 + l.length * n := by
  have hflat : roomOf (l.flatMap f) ≤ l.length * n := by
    induction l with
    | nil => simp
    | cons a l ih =>
      have := h a
      simp only [List.flatMap_cons, roomOf_append, List.length_cons, Nat.succ_mul]
      omega
  simpa [listed, ReplyField.room, OpenField.room] using hflat

section
@[simp] theorem roomOf_num (size value : Nat) : (ReplyField.num size value).room = size := rfl
@[simp] theorem roomOf_byPosition {α : Type} [DecidableEq α] (l : List α) (a : α) : (byPosition l a).room = 1 := rfl
@[simp] theorem roomOf_yesNo (b : Bool) : (yesNo b).room = 1 := rfl
@[simp] theorem roomOf_stopField (r : StopReason) : (stopField r).room = 1 := rfl
@[simp] theorem roomOf_patternField (p : Pattern) : (patternField p).room = 1 := rfl
@[simp] theorem roomOf_part (b : Bool) : (ReplyField.free (.part b)).room = 1 := rfl
@[simp] theorem roomOf_pollAge (n : Nat) : (ReplyField.free (.pollAge n)).room = 4 := rfl
@[simp] theorem roomOf_items (l : List ShipItem) : (ReplyField.free (.items l)).room = 64 := rfl
end

theorem roomOf_identityFields (d : Identity) : roomOf (identityFields d) = 7 := by simp [identityFields]

theorem roomOf_driveFields (d : DrivePart) : roomOf (driveFields d) = 17 := by simp [driveFields, roomOf_identityFields]

theorem roomOf_pollFields (p : TestState × Nat × Bool × Nat) : roomOf (pollFields p) = 7 := by simp [pollFields]

/-- A number that may be absent. -/
theorem roomOf_optional_byte {α : Type} (a : Option α) (f : α → ReplyField) (h : ∀ x, (f x).room = 1) :
    roomOf (optional a fun x => [f x]) ≤ 2 :=
  roomOf_optional (n := 1) fun x _ => by simp [h]

theorem roomOf_fetchFields (f : FetchProgress) : roomOf (fetchFields f) ≤ 6 := by
  have := roomOf_optional_byte f.remaining (fun n => .num 1 n) fun _ => rfl
  simp only [fetchFields, roomOf_append, roomOf_cons, roomOf_nil, roomOf_num, roomOf_yesNo]
  omega

theorem roomOf_dispositionFields (d : Disposition) : roomOf (dispositionFields d) ≤ 2 := by
  cases d <;> simp [dispositionFields, optional]

theorem roomOf_attnFields (a : AttnRecord) : roomOf (attnFields a) ≤ 16 := by
  have hphase := roomOf_optional_byte a.phase (fun n => .num 1 n) fun _ => rfl
  have hfetch := roomOf_optional (a := a.fetch) fun f _ => roomOf_fetchFields f
  have := roomOf_dispositionFields a.disposition
  simp only [attnFields, roomOf_append, roomOf_cons, roomOf_nil, roomOf_num, roomOf_byPosition]
  omega

theorem roomOf_summaryFields (m : AttnSummary) : roomOf (summaryFields m) ≤ 5 := by
  have := roomOf_optional_byte m.phase (fun n => .num 1 n) fun _ => rfl
  simp only [summaryFields, roomOf_append, roomOf_cons, roomOf_nil, roomOf_num, roomOf_byPosition]
  omega

theorem roomOf_slotFields (r : CoreReport) : roomOf (slotFields r) ≤ 14 := by
  have := roomOf_optional_byte r.armed (fun p => .num 1 p.val) fun _ => rfl
  simp only [slotFields, roomOf_append, roomOf_cons, roomOf_nil, roomOf_num, roomOf_byPosition, roomOf_yesNo,
    roomOf_patternField]
  omega

/-- Section 0 takes at most 80 bytes. -/
theorem roomOf_coreFields (r : CoreReport) : roomOf (coreFields r) ≤ 80 := by
  have hslot := roomOf_slotFields r
  have hdrive := roomOf_optional (a := r.drive) fun d _ => (roomOf_driveFields d).le
  have hident := roomOf_optional (a := r.identity) fun d _ => (roomOf_identityFields d).le
  have hpoll := roomOf_optional (a := r.poll) fun p _ => (roomOf_pollFields p).le
  have hmissed := roomOf_optional_byte (r.drive.map DrivePart.missed) (fun n => .num 1 n) fun _ => rfl
  have hattn := roomOf_optional (a := r.attn) fun a _ => roomOf_attnFields a
  have hsum := roomOf_optional (a := r.summary) fun m _ => roomOf_summaryFields m
  cases ht : r.temperature with
  | none =>
    simp only [coreFields, ht, roomOf_append, roomOf_cons, roomOf_nil, roomOf_num, roomOf_yesNo]
    omega
  | some x =>
    simp only [coreFields, ht, roomOf_append, roomOf_cons, roomOf_nil, roomOf_num, roomOf_yesNo]
    omega

theorem roomOf_verdictFields (v : Verdict) : roomOf (verdictFields v) = 2 := by simp [verdictFields]

theorem roomOf_outcomeFields (e : OutcomeEntry) : roomOf (outcomeFields e) ≤ 10 := by
  cases e <;> simp [outcomeFields, roomOf_verdictFields]

/-- Section 1 takes at most 43 bytes, and ten for each entry of the outcome list. -/
theorem roomOf_runFields (r : Run) : roomOf (runFields r) ≤ 43 + r.outcomes.length * 10 := by
  have hdec := roomOf_optional (a := r.decided) fun v _ => (roomOf_verdictFields v).le
  have hstep := roomOf_optional_byte r.cycleStep
    (fun c => byPosition [.spinDown, .offTime, .awaitPower, .attach, .spin, .onTime] c) fun _ => rfl
  have hlist := roomOf_listed (l := r.outcomes) roomOf_outcomeFields
  have hstop := roomOf_optional_byte r.stop stopField fun _ => rfl
  simp only [runFields, roomOf_append, roomOf_cons, roomOf_nil, roomOf_num, roomOf_byPosition, roomOf_yesNo]
  omega

theorem roomOf_binField (b : Option BinIx) : roomOf (binField b) ≤ 2 := roomOf_optional_byte b _ fun _ => rfl

theorem roomOf_resultFields (r : Result) : roomOf (resultFields r) ≤ 59 := by
  have hin : roomOf (inputFields r.inputs) = 41 := by simp [inputFields]
  have hbin := roomOf_binField r.bin
  have hcap := roomOf_optional (a := r.firstGrown) (f := captureFields) (n := 10) fun c _ => by simp [captureFields]
  simp only [resultFields, roomOf_append, roomOf_cons, roomOf_nil, roomOf_num, roomOf_stopField, roomOf_yesNo]
  omega

/-- Section 2 takes at most 135 bytes. -/
theorem roomOf_gradeFields (result : Option Result) (reservation : Option BinIx) (place : Option Nat)
    (ship : Option ShipRec) (diverted : Bool) : roomOf (gradeFields result reservation place ship diverted) ≤ 135 := by
  have hres := roomOf_optional (a := result) fun r _ => roomOf_resultFields r
  have hbin := roomOf_binField reservation
  have hplace := roomOf_optional_byte place (fun n => .num 1 n) fun _ => rfl
  have hship := roomOf_optional (a := ship) (f := shipFields) (n := 69) fun r _ => by simp [shipFields]
  simp only [gradeFields, roomOf_append, roomOf_cons, roomOf_nil, roomOf_part]
  omega

/-- Settles O10: each read is its handler's answer, and the bytes are the fields' in their order. -/
theorem readsAnswerFromTheState : Obligations.ReadsAnswerFromTheState := by
  unfold Obligations.ReadsAnswerFromTheState
  refine ⟨fun tag p s => ⟨?_, ?_, ?_, ?_, ?_⟩, fun tag p s i hi => ⟨?_, ?_, ?_, ?_⟩, ?_, ?_, ?_, ?_, ?_, ?_⟩
  · exact fun hp hn => serve_read hn (handleIdentify_read hp)
  · exact fun c hp hc hn => serve_read hn (handleEventsRead_scope hp hc)
  · exact fun hp hc hn => serve_read hn (handleEventsRead_all hp hc)
  · exact fun k hp hk hn => serve_read hn (handleShelfRead_shelf hp hk)
  · exact fun b hp hb hn => serve_read hn (handleBinRead_bin hp hb)
  · exact fun hp hn => ⟨fun h => serve_read hn (handleSlotRead_core hi hp h),
      fun h => serve_read hn (handleSlotRead_run hi hp h), fun h => serve_read hn (handleSlotRead_result hi hp h),
      fun h => serve_refuse hn (handleSlotRead_refuse hi hp h)⟩
  · exact fun hp h hn => serve_read hn (handleDefectRead_entries hi hp h)
  · exact fun hp h hn => serve_read hn (handleHeadRead_heads hi hp h)
  · exact fun hp ho hc hn => serve_read hn (handleConsoleRead_ring hi hp ho hc)
  · intro fast wake
    cases fast <;> cases wake <;> rfl
  · intro flags enables pending
    simp [bodyBytes, bodyFields, setField_bytes, yesNo_bytes]
  · intro sets
    simp only [bodyBytes, bodyFields, List.flatMap_map, setField_bytes]
  · exact fun r => (bytes_length_le_roomOf _).trans ((roomOf_coreFields r).trans (by decide))
  · intro run hrun
    refine (bytes_length_le_roomOf _).trans ((roomOf_optional (n := 163) fun r hr => ?_).trans (by decide))
    have := roomOf_runFields r
    have := hrun r hr
    omega
  · exact fun result reservation place ship diverted =>
      (bytes_length_le_roomOf _).trans ((roomOf_gradeFields result reservation place ship diverted).trans (by decide))

end Sys2Proof.Machine
end

