-- ==== Sys2Proof/Proofs/Overruns.lean ====
section
/-! SUPPORT. A shelf above its limit is shed: what the tells of shedding come to where no run and no pending work stands on the
shelf; SHELF_SET and the supply lines. -/

namespace Sys2Proof.Machine

/-! ## A shelf without runs and pending work -/

/-- No slot of the shelf has a run part or pending work, and the shelf's limit is the given one. -/
def CalmShelf (k : Shelf) (limit : Nat) (s : State) : Prop :=
  (∀ i : Slot, shelfOf i = k → (s.slot i).run = none ∧ NoWork s i) ∧ (s.shelf k).limit = limit

section
variable {k : Shelf} {limit : Nat} {s : State} (h : CalmShelf k limit s)
include h

/-- A change of one slot that gives it no run. -/
theorem CalmShelf.modSlot (i : Slot) (f : SlotRec → SlotRec) (hf : (s.slot i).run = none → (f (s.slot i)).run = none) :
    CalmShelf k limit (s.modSlot i f) := by
  refine ⟨fun j hj => ⟨?_, (h.1 j hj).2⟩, h.2⟩
  rw [State.modSlot_slot_if]
  split
  · next hji => subst hji; exact hf (h.1 j hj).1
  · exact (h.1 j hj).1

/-- A change of the shelf that brings no pending work. -/
theorem CalmShelf.modShelf (f : ShelfRec → ShelfRec) (hw : ∀ it ∈ (f (s.shelf k)).work, it ∈ (s.shelf k).work)
    (hl : (f (s.shelf k)).limit = (s.shelf k).limit) : CalmShelf k limit (s.modShelf k f) := by
  refine ⟨fun j hj => ⟨(h.1 j hj).1, fun it hit => ?_⟩, ?_⟩
  · subst hj
    rw [State.modShelf_shelf] at hit
    exact (h.1 j rfl).2 it (hw it hit)
  · rw [State.modShelf_shelf, hl]; exact h.2

theorem CalmShelf.setQueue (q : List QueueEntry) : CalmShelf k limit (setQueue k q s) :=
  h.modShelf _ (fun _ hit => hit) rfl

theorem CalmShelf.setOcc (i : Slot) (o : Occupancy) : CalmShelf k limit (setOcc i o s) := by
  refine ⟨fun j hj => ⟨?_, fun it hit => (h.1 j hj).2 it (by simpa using hit)⟩, by simpa using h.2⟩
  rw [setOcc_slot_if]
  split
  · next hji => subst hji; simpa using (h.1 j hj).1
  · exact (h.1 j hj).1

/-- The Attach Unit's changes touch neither runs nor limits, and bring no work of slots. -/
theorem CalmShelf.attach {t : State} (ht : AttachOnly k s t) : CalmShelf k limit t := by
  refine ⟨fun j hj => ⟨?_, ?_⟩, ?_⟩
  · rw [ht.slot j]; exact (h.1 j hj).1
  · subst hj; exact ht.work.noWork (h.1 j rfl).2
  · rw [ht.shelf]; exact h.2

theorem CalmShelf.toIdle (i : Slot) : CalmShelf k limit (toIdle i s) := h.modSlot i _ id

theorem CalmShelf.cutPower {i : Slot} (hi : shelfOf i = k) : CalmShelf k limit (cutPower i s) := by
  subst hi
  exact CalmShelf.setQueue (h.modSlot i _ id) _

/-- A slot without pending work drops its drive part quietly. -/
theorem CalmShelf.discardDrive {i : Slot} (hi : shelfOf i = k) :
    CalmShelf k limit (discardDrive i s).1 ∧ (discardDrive i s).2 = [] := by
  subst hi
  unfold Sys2Proof.Machine.discardDrive
  split
  · exact ⟨h, rfl⟩
  · next d _ =>
    have hnode := h.attach (setNode_attachOnly (shelfOf i) d.node .free s)
    obtain ⟨f, hf⟩ := discardRecord_modSlot i (setNode (shelfOf i) d.node .free s)
    have hrec : CalmShelf (shelfOf i) limit (discardRecord i (setNode (shelfOf i) d.node .free s)) := by
      have hrun := (discardRecord_slot i (setNode (shelfOf i) d.node .free s)).2
      rw [hf, State.modSlot_slot] at hrun
      rw [hf]
      refine hnode.modSlot i f fun hnone => ?_
      simpa [hnone] using hrun
    have hdrop := hrec.modSlot i (fun r =>
      clearProgress { r with drive := none, pollTimer := none, poll := none, silent := false, temp := TempRec.reset }) id
    exact ⟨hdrop.modShelf _ (fun _ hit => List.mem_of_mem_filter hit) rfl, dropWork_snd (hdrop.1 i rfl).2⟩

/-- The blocks of a switched off slot have nothing to tell. -/
theorem CalmShelf.switchedOff {i : Slot} (hi : shelfOf i = k) :
    CalmShelf k limit (switchedOff i s).1 ∧ (switchedOff i s).2 = [] := by
  subst hi
  exact ((h.attach (leaveSet_attachOnly i s)).attach (freeUnheld_attachOnly (shelfOf i) _)).discardDrive rfl

/-- A slot without a run is not interrupted (R122, R124, R125). -/
theorem CalmShelf.interrupted {i : Slot} (hi : shelfOf i = k) (reason : Interruption) : interrupted i reason s = (s, []) := by
  unfold Sys2Proof.Machine.interrupted
  rw [(h.1 i hi).1]
end

theorem shedMotors_calm {k : Shelf} {limit : Nat} (n : Nat) (c : PowerClass) {x : State × List Owed}
    (h : CalmShelf k limit x.1) : CalmShelf k limit (shedMotors n k c x).1 := by
  induction n generalizing x with
  | zero => exact h
  | succ n ih =>
    unfold shedMotors
    split
    · exact h
    · split
      · exact h
      · next i _ => exact ih (x := (toIdle i x.1, _)) (h.toIdle i)

theorem shedPower_calm {k : Shelf} {limit : Nat} (n : Nat) {x : State × List Owed} (h : CalmShelf k limit x.1) :
    CalmShelf k limit (shedPower n k x).1 := by
  induction n generalizing x with
  | zero => exact h
  | succ n ih =>
    unfold shedPower
    split
    · exact h
    · split
      · exact h
      · next i hi => exact ih (x := (cutPower i x.1, _)) (h.cutPower (latest_some hi).1)

theorem shedStages_calm {k : Shelf} {limit : Nat} {s : State} (h : CalmShelf k limit s) :
    CalmShelf k limit (shedStages k s).1 :=
  shedStages_keeps (P := fun x => CalmShelf k limit x.1) h (fun n c _ _ h => shedMotors_calm n c h) fun n _ h =>
    shedPower_calm n h

theorem placeOwed_calm {k : Shelf} {limit : Nat} {s : State} (owed : List Owed) (h : CalmShelf k limit s) :
    CalmShelf k limit (placeOwed k owed s) := by
  refine foldl_keeps (fun t o h => ?_) _ (h.setQueue _)
  have hq := h.modSlot o.slot (fun r => { r with adm := .queued }) id
  exact ite_keeps (ite_keeps hq (hq.setOcc _ _)) h

/-! ## How much shedding tells -/

theorem shedMotors_length (n : Nat) (k : Shelf) (c : PowerClass) (x : State × List Owed) :
    (shedMotors n k c x).2.length ≤ x.2.length + n := by
  induction n generalizing x with
  | zero => exact le_rfl
  | succ n ih =>
    unfold shedMotors
    split
    · exact Nat.le_add_right ..
    · split
      · exact Nat.le_add_right ..
      · refine (ih _).trans ?_
        simp only [List.length_append, List.length_singleton]
        omega

theorem shedPower_length (n : Nat) (k : Shelf) (x : State × List Owed) :
    (shedPower n k x).2.length ≤ x.2.length + n := by
  induction n generalizing x with
  | zero => exact le_rfl
  | succ n ih =>
    unfold shedPower
    split
    · exact Nat.le_add_right ..
    · split
      · exact Nat.le_add_right ..
      · next i _ =>
        refine (ih _).trans ?_
        have := List.length_filter_le (fun o : Owed => decide (o.slot ≠ i)) x.2
        simp only [List.length_append, List.length_singleton]
        omega

/-- The three stages of eight take at most 24 slots. -/
theorem shedStages_length (k : Shelf) (s : State) : (shedStages k s).2.length ≤ 24 := by
  rw [shedStages_eq]
  have hp := shedPower_length 8 k (shedSpin k s)
  have hs : (shedSpin k s).2.length ≤ 16 := by
    unfold shedSpin
    dsimp only
    have hi := shedMotors_length 8 k .inrush (s, [])
    split
    · refine (shedMotors_length ..).trans ?_
      split
      · simpa using hi
      · simp
    · split
      · simp only [List.length_nil] at hi; omega
      · simp
  omega

/-! ## Shedding is told and carried out -/

/-- Tells that lead to no other are carried out one by one. -/
theorem carryOut_keepingQuiet {P : State → Prop} {l : List Tell} (hq : ∀ x ∈ l, ∀ s, P s → P (act x s).1 ∧ (act x s).2 = [])
    {s : State} (h : P s) : ∃ t, carryOut l.length l s = some t ∧ P t := by
  induction l generalizing s with
  | nil => exact ⟨s, rfl, h⟩
  | cons x l ih =>
    obtain ⟨hx, hnil⟩ := hq x (by simp) s h
    obtain ⟨t, ht, hPt⟩ := ih (fun y hy => hq y (List.mem_cons_of_mem _ hy)) hx
    exact ⟨t, by rw [List.length_cons, carryOut_cons, hnil]; exact ht, hPt⟩

/-- SHED is set, and the queue is examined (R44). -/
theorem shedDone_settled {k : Shelf} {limit : Nat} {s : State} (hs : BudgetSound s) (hl : (s.shelf k).limit = limit) :
    BudgetSound (shedDone k s) ∧ ((shedDone k s).shelf k).limit = limit ∧
      flagSet (shedDone k s) (shelfScope k) (shelfFlagBit .shed) = true := by
  have hg := examine_granted k (raiseShelf k .shed s)
  refine ⟨examine_budgetSound k (raise_budgetSound _ _ hs), ?_, ?_⟩
  · rw [shedDone, hg.shelf]; simpa using hl
  · rw [shedDone, flagSet_congr hg.flags]; exact flagSet_raiseShelf ..

/-- A shelf above its limit, without runs, pending work and shipping, is shed until it is within it, and SHED is set (R42 to
R44). -/
theorem shed_settled {k : Shelf} {s : State} (h : SoundBut k s) (hen : (s.shelf k).enabled = true)
    (hover : currentLimit (s.shelf k) < committed s k)
    (hcalm : ∀ i : Slot, shelfOf i = k → (s.slot i).run = none ∧ NoWork s i ∧ (s.slot i).occ ≠ .shipping) :
    ∃ t, carryOut 49 (shed k s).2 (shed k s).1 = some t ∧ BudgetSound t ∧ (t.shelf k).limit = (s.shelf k).limit ∧
      flagSet t (shelfScope k) (shelfFlagBit .shed) = true := by
  have hsound := shed_budgetSound h
  have howed := (shedStages_owedOn h hen).2.2
  have hstages : CalmShelf k (s.shelf k).limit (shedStages k s).1 :=
    shedStages_calm ⟨fun i hi => ⟨(hcalm i hi).1, (hcalm i hi).2.1⟩, rfl⟩
  have hlen := shedStages_length k s
  unfold shed at hsound ⊢
  rw [if_pos (by simp [hen, hover])] at hsound ⊢
  generalize shedStages k s = x at *
  obtain ⟨s', owed⟩ := x
  dsimp only at hsound howed hstages hlen ⊢
  let off := owed.filter fun o => decide (o.kind = .power)
  have hship : (off.filter fun o => decide ((s.slot o.slot).occ = .shipping)) = [] := by
    refine List.filter_eq_nil_iff.2 fun o ho => ?_
    simpa using (hcalm o.slot (howed o (List.mem_of_mem_filter ho)).1).2.2
  let told := off.map (fun o => Tell.switchedOff o.slot) ++ owed.map fun o => Tell.interrupted o.slot .shed
  have hquiet : ∀ x ∈ told, ∀ u, BudgetSound u ∧ CalmShelf k (s.shelf k).limit u →
      (BudgetSound (act x u).1 ∧ CalmShelf k (s.shelf k).limit (act x u).1) ∧ (act x u).2 = [] := by
    intro x hx u ⟨hu, hc⟩
    have hkeep := act_keeps budgetSound_loose.kept x hu
    rcases List.mem_append.1 hx with hx | hx
    · obtain ⟨o, ho, rfl⟩ := List.mem_map.1 hx
      obtain ⟨hcalm', hnil⟩ := hc.switchedOff (howed o (List.mem_of_mem_filter ho)).1
      exact ⟨⟨hkeep, hcalm'⟩, hnil⟩
    · obtain ⟨o, ho, rfl⟩ := List.mem_map.1 hx
      have hint : act (.interrupted o.slot .shed) u = (u, []) := hc.interrupted (howed o ho).1 .shed
      rw [hint]
      exact ⟨⟨hu, hc⟩, rfl⟩
  obtain ⟨t, ht, hts, htc⟩ := carryOut_keepingQuiet hquiet ⟨hsound, placeOwed_calm owed hstages⟩
  obtain ⟨hbudget, hlimit, hflag⟩ := shedDone_settled hts htc.2
  have htold : told.length ≤ 48 := by
    have := List.length_filter_le (fun o : Owed => decide (o.kind = .power)) owed
    simp only [told, off, List.length_append, List.length_map]
    omega
  refine ⟨shedDone k t, ?_, hbudget, hlimit, hflag⟩
  show carryOut 49 (told ++ (off.filter fun o => decide ((s.slot o.slot).occ = .shipping)).map _ ++ [.shedDone k]) _ = _
  rw [hship, List.map_nil, List.append_nil]
  exact carryOut_mono (by omega) (carryOut_append (m := 1) ht rfl)

/-! ## SHELF_SET (R26) -/

/-- The ranges of the seven fields and the order of the draws. -/
theorem shelfFieldsOk_iff (p : List Byte) : shelfFieldsOk p = true ↔
    field8 p 1 ≤ 1 ∧ field16 p 2 ≤ 2000 ∧ 1 ≤ field8 p 4 ∧ field8 p 4 ≤ field8 p 5 ∧ field8 p 5 ≤ field8 p 6 ∧
      field8 p 6 ≤ 100 ∧ 5 ≤ field8 p 7 ∧ field8 p 7 ≤ 60 ∧ 1 ≤ field8 p 8 ∧ field8 p 8 ≤ 30 := by
  simp only [shelfFieldsOk, Machine.within, Bool.and_eq_true, decide_eq_true_eq]
  omega

/-- The record of a shelf with the limit, draws and times of a SHELF_SET, enabled or disabled as before. -/
def ShelfRec.withFields (p : List Byte) (sh : ShelfRec) : ShelfRec :=
  { sh with
    limit := field16 p 2, idleDraw := field8 p 4, runDraw := field8 p 5, inrushDraw := field8 p 6
    spinWindow := field8 p 7, bootDelay := field8 p 8 }

/-- Where the shelf stays enabled or disabled, its record takes the other six fields. -/
theorem replaceShelf_eq {k : Shelf} {p : List Byte} {s : State}
    (h : field8 p 1 = if (s.shelf k).enabled then 1 else 0) : replaceShelf k p s = s.modShelf k (·.withFields p) := by
  refine State.modShelf_congr ?_
  have hen : decide (field8 p 1 = 1) = (s.shelf k).enabled := by
    rw [h]; cases (s.shelf k).enabled <;> rfl
  rw [hen]
  rfl

theorem handleShelfSet_refuse {k : Shelf} {p : List Byte} {s : State} (hp : p.length = 9) (hk : field8 p 0 = k.val)
    (hok : shelfFieldsOk p = false) : handleShelfSet p s = .refuse .badValue := by
  rw [handleShelfSet, withLength_eq hp, withShelf_val hk, if_neg (by simp [hok])]

/-- A shelf that stays enabled or disabled is shed where it stands above its limit, and its queue is examined. -/
theorem handleShelfSet_stays {k : Shelf} {p : List Byte} {s : State} (hp : p.length = 9) (hk : field8 p 0 = k.val)
    (hok : shelfFieldsOk p = true) (hen : field8 p 1 = if (s.shelf k).enabled then 1 else 0) :
    handleShelfSet p s =
      .ok (shed k (s.modShelf k (·.withFields p))).1 ((shed k (s.modShelf k (·.withFields p))).2 ++ [.examine k]) := by
  have hsame : ((s.modShelf k (·.withFields p)).shelf k).enabled = (s.shelf k).enabled := by
    rw [State.modShelf_shelf]; rfl
  rw [handleShelfSet, withLength_eq hp, withShelf_val hk, if_pos hok]
  simp only [replaceShelf_eq hen, hsame, Bool.and_not_self, Bool.not_and_self, Bool.false_eq_true, if_false]

/-- Settles O15: the fields are examined, replaced with the record, and the overrun is shed before the grants. -/
theorem shelfSetReplacesTheFields : Obligations.ShelfSetReplacesTheFields := by
  unfold Obligations.ShelfSetReplacesTheFields
  intro tag p s k hp hk hn
  dsimp only
  rw [← shelfFieldsOk_iff]
  refine ⟨fun hno => ?_, fun hok hen hin => ?_, fun hok h1 hen hover hsound hcalm => ?_⟩
  · exact serve_refuse hn (handleShelfSet_refuse hp hk (by simpa using hno))
  · have hstays := handleShelfSet_stays (s := serving 0x02#8 tag p s) hp hk hok hen
    refine (serve_next hn _).trans ?_
    generalize hu : (serving 0x02#8 tag p s).modShelf k (·.withFields p) = u at hstays
    have henu : (u.shelf k).enabled = (s.shelf k).enabled := by rw [← hu, State.modShelf_shelf]; rfl
    have hquiet : shed k u = (u, []) := by
      refine if_neg fun h => ?_
      obtain ⟨he, hlt⟩ := Bool.and_eq_true_iff.1 h
      have hin : committed u k ≤ currentLimit (u.shelf k) := by rw [← hu]; exact hin (henu ▸ he)
      exact absurd (of_decide_eq_true hlt) (by omega)
    rw [hquiet] at hstays
    refine (answerRequest_ok (n := 1) hstays (by decide) rfl).trans ?_
    rw [← hu]
    rfl
  · have hstays := handleShelfSet_stays (s := serving 0x02#8 tag p s) hp hk hok (by simp [h1, hen])
    have hd := shelfFieldsOk_draws hok
    have hbut : SoundBut k ((serving 0x02#8 tag p s).modShelf k (·.withFields p)) :=
      (hsound.same (t := serving 0x02#8 tag p s) rfl rfl).modShelf_but k _ hd rfl (.inl rfl)
    obtain ⟨t, ht, hts, htl, htf⟩ := shed_settled hbut (by rw [State.modShelf_shelf]; exact hen) hover fun i hi => by
      obtain ⟨hrun, hwork, hocc⟩ := hcalm i hi
      refine ⟨hrun, fun it hit => hwork it ?_, hocc⟩
      rw [hi, State.modShelf_shelf] at hit
      rw [hi]
      exact hit
    have hg := examine_granted k t
    have hexam : carryOut 1 [.examine k] t = some (examine k t) := rfl
    refine ⟨examine k t, (serve_next hn _).trans (answerRequest_ok hstays (by decide) (carryOut_append ht hexam)), ?_, ?_, ?_⟩
    · exact (examine_budgetSound k hts).within k
    · rw [hg.shelf]
      refine htl.trans ?_
      rw [State.modShelf_shelf]; rfl
    · rw [flagSet_congr hg.flags]; exact htf

/-! ## Supply lines (R28) -/

/-- Flags and notices are all that the lines' flags change. -/
theorem supplyFlags_frame (k : Shelf) (old new : ShelfRec) (s : State) :
    supplyFlags k old new s =
      { s with flags := (supplyFlags k old new s).flags, notices := (supplyFlags k old new s).notices } := by
  refine supplyFlags_keeps (P := fun t => t = { s with flags := t.flags, notices := t.notices }) (fun t f h => ?_) old new rfl
  have hf := setFlagBit_frame (shelfScope k) (shelfFlagBit f) t
  unfold raiseShelf
  rw [hf]
  rw [h]

theorem supplyFlags_illegal {k : Shelf} {old new : ShelfRec} (s : State) (hnew : (new.lineA && new.lineB) = true)
    (hold : (old.lineA && old.lineB) = false) :
    flagSet (supplyFlags k old new s) (shelfScope k) (shelfFlagBit .supplyIllegal) = true := by
  have hi : flagSet (raiseShelf k .supplyIllegal s) (shelfScope k) (shelfFlagBit .supplyIllegal) = true :=
    flagSet_raiseShelf ..
  simp only [supplyFlags, hnew, hold, Bool.not_false, Bool.and_self, if_true]
  exact ite_keeps (P := fun t => flagSet t (shelfScope k) (shelfFlagBit .supplyIllegal) = true) hi
    (flagSet_setFlagBit_of hi _ _)

theorem supplyFlags_change {k : Shelf} {old new : ShelfRec} (s : State) (h : supplyStatus new ≠ supplyStatus old) :
    flagSet (supplyFlags k old new s) (shelfScope k) (shelfFlagBit .supplyChange) = true := by
  simp only [supplyFlags, h, if_false]
  exact flagSet_raiseShelf ..

@[simp] theorem supplyFlags_slot (k : Shelf) (old new : ShelfRec) (s : State) (i : Slot) :
    (supplyFlags k old new s).slot i = s.slot i := by rw [supplyFlags_frame]; rfl

@[simp] theorem supplyFlags_shelf (k : Shelf) (old new : ShelfRec) (s : State) (l : Shelf) :
    (supplyFlags k old new s).shelf l = s.shelf l := by rw [supplyFlags_frame]; rfl

/-- A line that settles moves no commitment. -/
theorem committed_supplySettles (k : Shelf) (line : SupplyLine) (old new : ShelfRec) (s : State) :
    committed (supplyFlags k old new (s.modShelf k (supplyLevel line))) k = committed s k :=
  committed_of_shelf (by rw [supplyFlags_shelf, State.modShelf_shelf]; cases line <;> rfl) fun i _ => by simp

theorem supplyLineChange_a {k : Shelf} {level : Bool} {s : State} (h : (s.shelf k).rawA ≠ level) :
    exec (.supplyLineChange k .ssa level) s = .next (s.modShelf k fun sh =>
      { sh with rawA := level, timerA := if level = sh.lineA then none else some (s.now + 50) }) :=
  congrArg Host.Outcome.next (State.modShelf_congr (if_neg h))

theorem supplyLineChange_b {k : Shelf} {level : Bool} {s : State} (h : (s.shelf k).rawB ≠ level) :
    exec (.supplyLineChange k .ssb level) s = .next (s.modShelf k fun sh =>
      { sh with rawB := level, timerB := if level = sh.lineB then none else some (s.now + 50) }) :=
  congrArg Host.Outcome.next (State.modShelf_congr (if_neg h))

theorem exec_supplyDebounceExpiry {k : Shelf} {line : SupplyLine} {s : State} (h : (supplyTimer line (s.shelf k)).isSome) :
    exec (.supplyDebounceExpiry k line) s = conclude (supplySettles k line s) :=
  if_neg (by simpa [Option.isSome_iff_ne_none] using h)

/-- The level is taken with its flags; within the limit, a changed limit has the queue examined. -/
theorem supplyDebounce_within {k : Shelf} {line : SupplyLine} {s : State} (h : (supplyTimer line (s.shelf k)).isSome)
    (hin : (s.shelf k).enabled = true → committed s k ≤ currentLimit (supplyLevel line (s.shelf k))) :
    let v := supplyFlags k (s.shelf k) (supplyLevel line (s.shelf k)) (s.modShelf k (supplyLevel line))
    exec (.supplyDebounceExpiry k line) s =
      .next (startTx (if currentLimit (supplyLevel line (s.shelf k)) = currentLimit (s.shelf k) then v else examine k v)) := by
  intro v
  have hlimit : limitChanged k v = (examine k v, []) := by
    refine if_neg fun hover => ?_
    obtain ⟨he, hlt⟩ := Bool.and_eq_true_iff.1 hover
    have hc : committed v k = committed s k := committed_supplySettles k line _ _ s
    have hsh : v.shelf k = supplyLevel line (s.shelf k) := by simp [v]
    have hen : (supplyLevel line (s.shelf k)).enabled = (s.shelf k).enabled := by cases line <;> rfl
    have := hin (by rw [← hen, ← hsh]; exact he)
    have hlt := of_decide_eq_true hlt
    rw [hc, hsh] at hlt
    omega
  rw [exec_supplyDebounceExpiry h, supplySettles_eq]
  dsimp only
  rw [hlimit]
  split <;> exact conclude_nil _

/-- Above the new limit the shelf is shed. -/
theorem supplyDebounce_over {k : Shelf} {line : SupplyLine} {s : State} (h : (supplyTimer line (s.shelf k)).isSome)
    (hs : BudgetSound s) (hen : (s.shelf k).enabled = true)
    (hover : currentLimit (supplyLevel line (s.shelf k)) < committed s k)
    (hcalm : ∀ i : Slot, shelfOf i = k → (s.slot i).run = none ∧ NoWork s i ∧ (s.slot i).occ ≠ .shipping) :
    ∃ t, exec (.supplyDebounceExpiry k line) s = .next t ∧ committed t k ≤ currentLimit (t.shelf k) ∧
      flagSet t (shelfScope k) (shelfFlagBit .shed) = true := by
  have hne : currentLimit (supplyLevel line (s.shelf k)) ≠ currentLimit (s.shelf k) := by
    have := hs.within k
    omega
  generalize hv : supplyFlags k (s.shelf k) (supplyLevel line (s.shelf k)) (s.modShelf k (supplyLevel line)) = v
  have hsh : v.shelf k = supplyLevel line (s.shelf k) := by rw [← hv]; simp
  have hslot : ∀ i, v.slot i = s.slot i := fun i => by rw [← hv]; simp
  have henv : (v.shelf k).enabled = true := by rw [hsh]; cases line <;> exact hen
  have hwork : (v.shelf k).work = (s.shelf k).work := by rw [hsh]; cases line <;> rfl
  have hoverv : currentLimit (v.shelf k) < committed v k := by
    rw [hsh, ← hv, committed_supplySettles]; exact hover
  have hbut : SoundBut k v := by
    rw [← hv]
    exact supplyFlags_keeps (P := SoundBut k) (k := k) (fun _ _ h => h.raise _ _) _ _ (supplyLevel_soundBut k line hs)
  obtain ⟨t, ht, hts, -, htf⟩ := shed_settled hbut henv hoverv fun i hi => by
    obtain ⟨hrun, hnw, hocc⟩ := hcalm i hi
    rw [hslot]
    refine ⟨hrun, fun it hit => hnw it ?_, hocc⟩
    rw [hi] at hit ⊢
    rwa [hwork] at hit
  refine ⟨startTx t, ?_, ?_, ?_⟩
  · have hlimit : limitChanged k v = shed k v := if_pos (by simp [henv, hoverv])
    rw [exec_supplyDebounceExpiry h, supplySettles_eq]
    dsimp only
    rw [if_neg hne, hv, hlimit]
    exact conclude_of (by decide) ht
  · rw [startTx_shelf, committed_of_shelf (s := t) (t := startTx t) (by simp) fun i _ => by simp]
    exact hts.within k
  · rw [flagSet_startTx]; exact htf

/-- What a line that settles within the limit leaves, in the words of R28. -/
theorem supplyDebounce_taken {k : Shelf} {line : SupplyLine} {s : State} (h : (supplyTimer line (s.shelf k)).isSome) :
    let u := s.modShelf k (supplyLevel line)
    ((s.shelf k).enabled = true → committed s k ≤ currentLimit (u.shelf k)) →
    ∃ v, exec (.supplyDebounceExpiry k line) s =
        .next (startTx (if currentLimit (u.shelf k) = currentLimit (s.shelf k) then v else examine k v)) ∧
      v = { u with flags := v.flags, notices := v.notices } ∧
      (((u.shelf k).lineA && (u.shelf k).lineB) = true → ((s.shelf k).lineA && (s.shelf k).lineB) = false →
        flagSet v (shelfScope k) (shelfFlagBit .supplyIllegal) = true) ∧
      (supplyStatus (u.shelf k) ≠ supplyStatus (s.shelf k) →
        flagSet v (shelfScope k) (shelfFlagBit .supplyChange) = true) := by
  intro u hin
  have hsh : u.shelf k = supplyLevel line (s.shelf k) := State.modShelf_shelf ..
  rw [hsh] at hin ⊢
  exact ⟨_, supplyDebounce_within h hin, supplyFlags_frame .., fun hnew hold => supplyFlags_illegal _ hnew hold,
    fun hne => supplyFlags_change _ hne⟩

/-- Settles O20: the raw level arms the timer, and its expiry is `supplySettles`. -/
theorem supplyLines : Obligations.SupplyLines := by
  unfold Obligations.SupplyLines
  refine ⟨fun k level s h => supplyLineChange_a h, fun k level s h => supplyLineChange_b h, fun k line s h => ?_,
    fun k line s h hs hen hover hcalm => supplyDebounce_over h hs hen hover hcalm, rfl, rfl, rfl, rfl⟩
  cases line with
  | ssa => exact supplyDebounce_taken h
  | ssb => exact supplyDebounce_taken h

end Sys2Proof.Machine
end

