-- ==== Sys2Proof/Proofs/SpinWindow.lean ====
section
/-! SUPPORT. The end of a phase that a REST follows, and the expiry of the spin window that a phase waits for (R39, R118, R127). -/

namespace Sys2Proof.Machine

/-! ## A phase ends and a REST follows (R122, R127) -/

/-- The run as a REST is entered. -/
def Run.resting (duration now : Nat) (run : Run) : Run :=
  { enteredRun (.rest duration) (some (now + 1000)) run with
    state := .running, wallTimer := some (now + 1000), restTimer := some (now + 1000 * duration) }

/-- On a bound slot a REST is entered with a spin-down asked for (R122). -/
theorem enterPhase_rest {i : Slot} {s : State} {run : Run} {duration : Nat} {onFail : OnFail}
    (hrun : (s.slot i).run = some run) (hadm : (s.slot i).adm = .bound)
    (hphase : phaseRec s run = some { body := .rest duration, onFail := onFail }) (hkept : run.noAttachKept = false) :
    enterPhase i s = (s.modRun i (Run.resting duration s.now), [.spinDown i]) := by
  simp only [enterPhase, hrun, hphase, hkept, State.modRun_slot, hadm, true_or, if_true, beginPhase, reduceCtorEq, decide_false,
    Bool.false_and, Bool.false_eq_true, if_false, List.append_nil]
  refine Prod.ext ?_ rfl
  simp only [State.modRun, State.modSlot_modSlot]
  refine State.modSlot_congr ?_
  simp [hrun, Run.resting, secs, State.after]

/-- A grant tells nothing to a run that waits for no power, and leaves the ladder's stage. -/
theorem grant_keeps_run {i : Slot} {run : Run} (hstep : run.cycleStep = none) (e : QueueEntry) (t : State)
    (h : (t.slot i).run = some run ∧ (t.slot i).ladder = 0) :
    ((grant e t).slot i).run = some run ∧ ((grant e t).slot i).ladder = 0 := by
  obtain ⟨hrun, hladder⟩ := h
  by_cases hi : i = e.slot
  · subst hi
    obtain ⟨f, hf, hrec⟩ := grant_eq e t
    rw [hf, State.modSlot_slot]
    rcases hrec with ⟨rank, boot, -, hrec⟩ | ⟨rank, window, -, hrec⟩
    · rw [hrec]
      refine ⟨?_, by simp [hladder]⟩
      unfold SlotRec.poweredOn
      dsimp only
      split <;> split <;> simp [hrun, hstep]
    · rw [hrec]; exact ⟨hrun, hladder⟩
  · rw [grant_slot_ne hi]; exact ⟨hrun, hladder⟩

/-- The run of a phase that has ended as the REST that follows is entered. -/
def Run.intoRest (dose duration now : Nat) (run : Run) : Run :=
  { writeOutcome dose run with phase := run.phase + 1 }.resting duration now

theorem RestEntered.of_run {s t : State} {i : Slot} {run : Run} {v : Verdict} {duration : Nat}
    (hdec : run.decided = some v)
    (ht : (t.slot i).run = some (run.intoRest (endedDose s run) duration s.now) ∧ (t.slot i).ladder = 0)
    (hflag : flagSet t (slotScope i) (slotFlagBit .phaseEnd) = true) : RestEntered s t i run v duration := by
  refine ⟨_, ht.1, rfl, rfl, rfl, ?_, rfl, rfl, ht.2, hflag⟩
  show setNth run.outcomes run.phase (.ended (run.decided.getD passVerdict) run.wall (endedDose s run)) = _
  rw [hdec]; rfl

/-- The phase of a run has ended with a verdict that stops nothing, and the REST that follows is entered. -/
theorem phaseEnded_rest {i : Slot} {s : State} {run : Run} {v : Verdict} {rec : PhaseRec} {duration : Nat}
    (hrun : (s.slot i).run = some run) (hdec : run.decided = some v) (hadm : (s.slot i).adm = .bound)
    (hphase : phaseRec s run = some rec) (hgo : failStops v rec.onFail = false) (hrest : RestFollows s run duration) :
    ∃ t, carryOut 3 [.phaseEnded i] s = some t ∧
      ((t.slot i).run = some (run.intoRest (endedDose s run) duration s.now) ∧ (t.slot i).ladder = 0) ∧
      flagSet t (slotScope i) (slotFlagBit .phaseEnd) = true := by
  obtain ⟨hstop, hkept, hmore, onFail, hnext⟩ := hrest
  let x := raiseSlot i .phaseEnd ((s.modRun i (writeOutcome (endedDose s run))).modSlot i fun r => { r with ladder := 0 })
  let y := x.modRun i fun run => { run with phase := run.phase + 1 }
  let run' : Run := { writeOutcome (endedDose s run) run with phase := run.phase + 1 }
  have hended : act (.phaseEnded i) s = (y, [.enterPhase i]) := by
    simp only [act, phaseEnded, hrun, goOn, hstop, hphase, hdec, Option.getD_some, hgo, Bool.false_eq_true, if_false,
      if_pos hmore]
    rfl
  have hyslot : y.slot i = { s.slot i with run := some run', ladder := 0 } := by simp [y, x, hrun, run']; rfl
  have hyphase : phaseRec y run' = some { body := .rest duration, onFail := onFail } := by
    have hplans : y.plans = s.plans := setFlagBit_plans ..
    unfold phaseRec planOf
    rw [hplans]
    exact hnext
  have hynow : y.now = s.now := raiseSlot_now ..
  have henter : act (.enterPhase i) y = (y.modRun i (Run.resting duration y.now), [.spinDown i]) :=
    enterPhase_rest (by rw [hyslot]) (by rw [hyslot]; exact hadm) hyphase hkept
  let z := y.modRun i (Run.resting duration y.now)
  have hz : (z.slot i).run = some (run'.resting duration s.now) ∧ (z.slot i).ladder = 0 := by
    simp [z, hyslot, hynow]
  have hdown := spinDown_keeps (P := fun r => r.run = some (run'.resting duration s.now) ∧ r.ladder = 0) (s := z)
    (fun e _ _ t => grant_keeps_run rfl e t) (fun h => h) hz
  refine ⟨spinDown i z, carryOut_act hended (carryOut_act henter (carryOut_quiet rfl)), hdown, ?_⟩
  rw [flagSet_congr (spinDown_granted i z).flags]
  exact flagSet_raiseSlot ..

/-! ## The spin window (R39) -/

/-- The slot as its spin window has run out. -/
def windowClosed (i : Slot) (s : State) : State :=
  s.modSlot i fun r => { r with cls := .idle, spinRank := none, spinTimer := none, spinReq := none }

/-- The window's expiry tells the Plan Runner what it asked for, and the queue is examined. -/
theorem exec_spinWindowExpiry {i : Slot} {s : State} (ht : (s.slot i).spinTimer.isSome) (hc : (s.slot i).cls = .inrush) :
    exec (.spinWindowExpiry i) s = conclude (windowClosed i s,
      (if (s.slot i).spinReq = some .planRunner then [.spinFailed i] else []) ++ [.examine (shelfOf i)]) := by
  have hsome : (s.slot i).spinTimer.isNone = false := by simpa using ht
  have hclosed : toIdle i (s.modSlot i fun r => { r with spinTimer := none }) = windowClosed i s := by
    simp only [toIdle, State.modSlot_modSlot]
    rfl
  simp only [exec, execSpinWindowExpiry, hsome, Bool.false_eq_true, if_false, windowExpired, State.modSlot_slot, hc, if_true,
    hclosed]

/-- Nobody's phase waits for the spin: the slot is idle and the queue is examined. -/
theorem spinWindow_quiet {i : Slot} {s : State} (ht : (s.slot i).spinTimer.isSome) (hc : (s.slot i).cls = .inrush)
    (h : (s.slot i).spinReq ≠ some .planRunner ∨ (s.slot i).run = none) :
    exec (.spinWindowExpiry i) s = .next (startTx (examine (shelfOf i) (windowClosed i s))) := by
  rw [exec_spinWindowExpiry ht hc]
  have hexam : carryOut 1 [.examine (shelfOf i)] (windowClosed i s) = some (examine (shelfOf i) (windowClosed i s)) := rfl
  by_cases hr : (s.slot i).spinReq = some .planRunner
  · have hrun : ((windowClosed i s).slot i).run = none := by
      simpa [windowClosed] using h.resolve_left (fun hne => hne hr)
    have hfailed : act (.spinFailed i) (windowClosed i s) = (windowClosed i s, []) := by
      simp only [act, spinFailed, hrun]
    rw [if_pos hr]
    exact conclude_of (n := 2) (by decide) (carryOut_append (carryOut_quiet hfailed) hexam)
  · rw [if_neg hr]
    exact conclude_of (n := 1) (by decide) hexam

/-- A starting phase for which spin fails ends FAIL SPIN at once (R118, R120). -/
theorem spinFailed_starting {i : Slot} {s : State} {run : Run} (hrun : (s.slot i).run = some run)
    (hstate : run.state = .starting) (hdec : run.decided = none) :
    act (.spinFailed i) s = (s.modRun i fun run =>
      { run with decided := some (run.decided.getD (failVerdict .spin)), state := .ended }, [.phaseEnded i]) := by
  have hgoing : testGoing s i run = false := by simp [testGoing, hstate]
  simp only [act, spinFailed, hrun, hstate, true_or, if_true, endCause, hdec, Option.isSome_none, Bool.false_eq_true, reduceCtorEq,
    or_self, if_false, hgoing, Bool.false_and]
  rfl

/-- The starting phase that waits for the spin fails, and the REST that follows is entered. -/
theorem spinWindow_rest {i : Slot} {s : State} {run : Run} {duration : Nat} {body : PhaseBody}
    (ht : (s.slot i).spinTimer.isSome) (hc : (s.slot i).cls = .inrush) (hrun : (s.slot i).run = some run)
    (hreq : (s.slot i).spinReq = some .planRunner) (hstate : run.state = .starting) (hdec : run.decided = none)
    (hadm : (s.slot i).adm = .bound) (hphase : phaseRec s run = some { body := body, onFail := .continue })
    (hrest : RestFollows s run duration) :
    ∃ t, exec (.spinWindowExpiry i) s = .next t ∧
      RestEntered s t i run { outcome := .fail, reason := .spin, detail := 0 } duration := by
  let u := windowClosed i s
  let ended : Run := { run with decided := some (failVerdict .spin), state := .ended }
  let w := u.modRun i fun run => { run with decided := some (run.decided.getD (failVerdict .spin)), state := .ended }
  have hwrun : (w.slot i).run = some ended := by simp [w, u, windowClosed, hrun, hdec, ended]
  have hwadm : (w.slot i).adm = .bound := by simpa [w, u, windowClosed] using hadm
  have hfailed : act (.spinFailed i) u = (w, [.phaseEnded i]) :=
    spinFailed_starting (by simpa [u, windowClosed] using hrun) hstate hdec
  obtain ⟨t, hcarry, hslot, hflag⟩ := phaseEnded_rest (rec := { body := body, onFail := .continue }) (duration := duration)
    hwrun rfl hwadm hphase rfl hrest
  have hexam : carryOut 1 [.examine (shelfOf i)] t = some (examine (shelfOf i) t) := rfl
  have hslot' := examine_slot_keeps (k := shelfOf i) (s := t)
    (P := fun r => r.run = some (ended.intoRest (endedDose w ended) duration w.now) ∧ r.ladder = 0)
    (fun e _ _ t => grant_keeps_run rfl e t) hslot
  have hentered : RestEntered w (startTx (examine (shelfOf i) t)) i ended (failVerdict .spin) duration :=
    .of_run rfl (by rw [startTx_slot]; exact hslot')
      (by rw [flagSet_startTx, flagSet_congr (examine_granted (shelfOf i) t).flags]; exact hflag)
  refine ⟨_, ?_, hentered⟩
  rw [exec_spinWindowExpiry ht hc, if_pos hreq]
  exact conclude_of (n := 5) (by decide) (carryOut_append (carryOut_act hfailed hcarry) hexam)

/-- Settles O37: the expiry of the window, with the end of the phase that waits for it. -/
theorem spinWindowExpires : Obligations.SpinWindowExpires := by
  unfold Obligations.SpinWindowExpires
  exact fun i s ht hc => ⟨spinWindow_quiet ht hc, fun run duration body hrun hreq hstate hdec hadm hphase hrest =>
    spinWindow_rest ht hc hrun hreq hstate hdec hadm hphase hrest⟩

end Sys2Proof.Machine
end

