-- ==== Sys2Proof/Proofs/Replies.lean ====
section
/-! SUPPORT. The replies of START_TEST, POLL and ATTN_QUERY: what is left once the owner has taken the reply (R38, R60,
R61, R68, R96, R102, R118, R134). -/

namespace Sys2Proof.Machine

/-! ## The end of a transaction that is counted (R50, R56, R61) -/

/-- The shelf of a transaction that ends DONE in its reply window, and the drive that answers: the slot stands on the shelf,
holds the node that is asked, and nothing has dropped the transaction or disowned it. -/
structure Answering (k : Shelf) (s : State) (f : Flight) (i : Slot) (n : NodeIx) (d : DrivePart) : Prop where
  window : ∃ closes, (s.shelf k).phase = .window f closes
  node : f.node = some n
  dropped : f.dropped = false
  orphan : f.orphan = false
  drive : (s.slot i).drive = some d
  slot : slotOfNode s k n = some i

/-- The state in which the owner is told. -/
def replied (k : Shelf) (wire : Bool) (s : State) : State := closing k wire (releaseWire k s)

theorem replied_busOnly (k : Shelf) (wire : Bool) (s : State) : BusOnly k s (replied k wire s) :=
  (releaseWire_busOnly k s).trans (closing_busOnly ..)

section
variable (k : Shelf) (wire : Bool) (s : State)
@[simp] theorem replied_slot (i : Slot) : (replied k wire s).slot i = s.slot i := (replied_busOnly k wire s).slot i
@[simp] theorem replied_now : (replied k wire s).now = s.now := rfl
@[simp] theorem replied_queue : ((replied k wire s).shelf k).queue = (s.shelf k).queue := (replied_busOnly k wire s).queue k
@[simp] theorem replied_phase : ((replied k wire s).shelf k).phase = .ending := closing_phase ..
end

/-- The missed count of the drive that has answered (R61). -/
def answeredDrive (i : Slot) (s : State) : State := s.modDrive i fun d => { d with missed := 0 }

theorem countMissed_done {i : Slot} {s : State} (hd : (s.slot i).drive.isSome) (fields : ReplyFields) (ship : Bool) :
    countMissed i (.done fields) ship s = (answeredDrive i s, []) := by
  unfold countMissed
  cases h : (s.slot i).drive with
  | none => simp [h] at hd
  | some d => rfl

theorem counted_done {i : Slot} {s : State} (hd : (s.slot i).drive.isSome) (fields : ReplyFields) (ship : Bool) :
    carryOut 1 [.counted i (.done fields) ship] s = some (answeredDrive i s) :=
  carryOut_quiet (countMissed_done hd fields ship)

section
variable {k : Shelf} {s : State} {f : Flight} {i : Slot} {n : NodeIx} {d : DrivePart} (h : Answering k s f i n d)
include h

/-- The drive's reply is told to the owner, counted, and the wire is free. -/
theorem Answering.replies {body : List Byte} {fields : ReplyFields} (wire : Bool) (hlen : body.length ≤ 60)
    (hok : bodyLengthOk f.item.cmd.kind body = true) (hf : replyFields f.item.cmd.kind body = some fields) :
    exec (.replyFrameReceived k (busReply n f.item.cmd.kind body) wire) s =
      conclude (replied k wire s, [.answered f.item (.done fields)] ++
        ([.counted i (.done fields) (decide (classOf f.item.cmd.kind = .ship))] ++
          ((if isQuery f.item then [.requery k] else []) ++ [.wireFree k]))) := by
  obtain ⟨closes, hphase⟩ := h.window
  have hslot : slotOfNode (setWire k wire (releaseWire k s)) k n = some i :=
    (slotOfNode_congr (fun _ => rfl) k n).trans h.slot
  have hunc : uncounted f (.done fields) = false := by simp [uncounted, h.dropped]
  rw [exec_reply wire hphase h.node hlen hok hf]
  simp only [endTransaction, hunc, h.node, h.dropped, h.orphan, Option.bind_some, hslot, Bool.false_eq_true, if_false,
    Option.isSome_some, Bool.and_true, List.append_assoc]
  rfl

/-- What is left once the owner has taken a reply that is no attention's: the drive has answered, and the arbiter chooses. -/
theorem Answering.taken {body : List Byte} {fields : ReplyFields} {v : State} {m : Nat} (wire : Bool)
    (hlen : body.length ≤ 60) (hok : bodyLengthOk f.item.cmd.kind body = true)
    (hf : replyFields f.item.cmd.kind body = some fields) (hq : isQuery f.item = false) (hm : m ≤ 8)
    (hv : carryOut m [.answered f.item (.done fields)] (replied k wire s) = some v) (hd : (v.slot i).drive.isSome) :
    ∃ t, exec (.replyFrameReceived k (busReply n f.item.cmd.kind body) wire) s = .next t ∧
      ∀ j, t.slot j = (answeredDrive i v).slot j := by
  refine ⟨startTx (choose k (answeredDrive i v)), ?_, fun j => ?_⟩
  · have hfree : carryOut 1 [.wireFree k] (answeredDrive i v) = some (choose k (answeredDrive i v)) := rfl
    rw [h.replies wire hlen hok hf, hq]
    exact conclude_of (n := m + 2) (by simp only [Config.tellBound]; omega)
      (carryOut_append hv (carryOut_append (counted_done hd ..) hfree))
  · rw [startTx_slot, (choose_busOnly k _).slot]

theorem Answering.drive_replied (wire : Bool) : ((replied k wire s).slot i).drive = some d := by
  rw [replied_slot]; exact h.drive
end

/-- A change of one slot leaves the others as they were. -/
theorem OtherSlotsSame.of_modSlot {s t u : State} {i : Slot} {g : SlotRec → SlotRec} (hu : ∀ j, u.slot j = s.slot j)
    (ht : ∀ j, t.slot j = (answeredDrive i (u.modSlot i g)).slot j) : OtherSlotsSame s t i := fun j hj => by
  rw [ht j, answeredDrive, State.modDrive_slot_ne _ hj, State.modSlot_slot_ne _ hj, hu j]

/-! ## START_TEST (R118) -/

/-- The run whose phase's START_TEST is acknowledged (R118). -/
def Run.started (now : Nat) (run : Run) : Run := { run with state := .running, wallTimer := some (now + 1000) }

/-- The ack of a START_TEST puts its starting phase in RUNNING, the wall timer begun. -/
theorem startTest_taken {k : Shelf} {s : State} {f : Flight} {i : Slot} {n : NodeIx} {d : DrivePart}
    (h : Answering k s f i n d) (wire : Bool) {run : Run} {code : Byte} (hslot : f.item.slot = some i)
    (hcmd : f.item.cmd = .startTest code run.phase) (howner : f.item.owner = .planRunner)
    (hrun : (s.slot i).run = some run) (hstate : run.state = .starting) :
    ∃ t, exec (.replyFrameReceived k (busReply n .startTest []) wire) s = .next t ∧ OtherSlotsSame s t i ∧
      t.slot i = { s.slot i with
        run := some { run with state := .running, wallTimer := some (s.now + 1000) },
        drive := some { d with missed := 0 } } := by
  have hkind : f.item.cmd.kind = .startTest := by rw [hcmd]; rfl
  have hact : act (.answered f.item (.done .ack)) (replied k wire s) =
      ((replied k wire s).modRun i (Run.started s.now), []) := by
    simp only [act, answerOwner, howner, planAnswered, hcmd, hslot, startAnswered, replied_slot, hrun, hstate, true_or,
      and_self, if_true]
    rfl
  obtain ⟨t, ht, hts⟩ := h.taken (body := []) (fields := .ack) wire (by decide) (by rw [hkind]; rfl) (by rw [hkind]; rfl)
    (by simp [isQuery, hkind]) (by decide) (carryOut_quiet hact) (by simp [h.drive])
  rw [hkind] at ht
  refine ⟨t, ht, .of_modSlot (replied_slot k wire s) hts, ?_⟩
  rw [hts i]
  simp [answeredDrive, hrun, h.drive, Run.started]

/-! ## POLL (R38, R60, R134) -/

/-- The record of a slot with what a poll reports stored (R60, R134). -/
def SlotRec.reported (test : TestState) (motor : Motor) (t progress now : Nat) (r : SlotRec) : SlotRec :=
  { r with
    drive := r.drive.map fun d => { d with motor := motor }
    poll := some { test := test, progress := progress, inService := false, moment := now }
    temp := if t ≤ 600 then { valid := true, t := t, moment := now } else r.temp }

/-- The record of a slot without a run as a poll's fields reach it: a motor that is up ends its spin window (R38). -/
def SlotRec.polled (test : TestState) (motor : Motor) (t progress now : Nat) (r : SlotRec) : SlotRec :=
  let up := r.cls = .inrush ∧ motor = .ready
  { r.reported test motor t progress now with
    cls := if up then .run else r.cls
    spinTimer := if up then none else r.spinTimer
    spinReq := if up then none else r.spinReq }

/-- What a poll's motor report is followed by. -/
def motorTells (i : Slot) (motor : Motor) (r : SlotRec) : List Tell :=
  if r.cls = .inrush ∧ motor = .ready then
    (if r.spinReq = some .planRunner then [.spinReady i] else []) ++ [.examine (shelfOf i)]
  else []

section
variable (i : Slot) (s : State) (test : TestState) (motor : Motor) (t progress : Nat)

theorem storeTemperature_polled :
    storeTemperature i t ((s.modDrive i fun d => { d with motor := motor }).modSlot i fun r =>
      { r with poll := some { test := test, progress := progress, inService := false, moment := s.now } }) =
      s.modSlot i (SlotRec.reported test motor t progress s.now) := by
  unfold storeTemperature
  simp only [State.modDrive, State.modSlot_modSlot]
  split
  · next ht => exact State.modSlot_congr (by simp [SlotRec.reported, ht])
  · next ht => exact State.modSlot_congr (by simp [SlotRec.reported, ht])

theorem motorReport_reported :
    motorReport i motor (s.modSlot i (SlotRec.reported test motor t progress s.now)) =
      (s.modSlot i (SlotRec.polled test motor t progress s.now), motorTells i motor (s.slot i)) := by
  unfold motorReport motorTells
  simp only [SlotRec.reported, State.modSlot_slot, State.modSlot_modSlot]
  split
  · next hup => exact congrArg₂ Prod.mk (State.modSlot_congr (by simp [SlotRec.polled, SlotRec.reported, hup])) rfl
  · next hup => exact congrArg₂ Prod.mk (State.modSlot_congr (by simp [SlotRec.polled, SlotRec.reported, hup])) rfl
end

/-- Without a run, a poll that reports no attention in service tells of a motor that is up, if of anything. -/
theorem pollDone_idle {i : Slot} {s : State} (hrun : (s.slot i).run = none) (test : TestState) (motor : Motor)
    (t progress : Nat) :
    pollDone i test motor t progress false s =
      (s.modSlot i (SlotRec.polled test motor t progress s.now), motorTells i motor (s.slot i)) := by
  have hnone : ((s.modSlot i (SlotRec.polled test motor t progress s.now)).slot i).run = none := by
    rw [State.modSlot_slot]; exact hrun
  have htest : pollTestState i test (s.modSlot i (SlotRec.polled test motor t progress s.now)) =
      (s.modSlot i (SlotRec.polled test motor t progress s.now), []) := by simp only [pollTestState, hnone]
  unfold pollDone
  dsimp only [State.modSlot_now, State.modDrive_now]
  rw [storeTemperature_polled, motorReport_reported]
  simp only [htest, pollInService, Bool.false_and, Bool.false_eq_true, if_false, List.append_nil]

/-- Nobody waits: an examination changes nothing. -/
theorem examine_of_empty {k : Shelf} {s : State} (h : (s.shelf k).queue = []) : examine k s = s := by
  simp [examine, h, examineTimes]

/-- A POLL's fields are taken in at most three tells. -/
theorem poll_taken {k : Shelf} {s : State} {it : Item} {i : Slot} (hk : shelfOf i = k) (hslot : it.slot = some i)
    (howner : it.owner = .busController) (hrun : (s.slot i).run = none) (hqueue : (s.shelf k).queue = [])
    (test : TestState) (motor : Motor) (t progress : Nat) :
    carryOut 3 [.answered it (.done (.status test motor t progress false))] s =
      some (s.modSlot i (SlotRec.polled test motor t progress s.now)) := by
  subst hk
  have hact := pollDone_idle hrun test motor t progress
  generalize hv : s.modSlot i (SlotRec.polled test motor t progress s.now) = v at hact
  have hvrun : (v.slot i).run = none := by rw [← hv, State.modSlot_slot]; exact hrun
  have hexam : carryOut 1 [.examine (shelfOf i)] v = some v :=
    carryOut_quiet (Prod.ext (examine_of_empty (by rw [← hv]; exact hqueue)) rfl)
  have hready : carryOut 1 [.spinReady i] v = some v := carryOut_quiet (by simp only [act, spinReady, hvrun])
  have htold : act (.answered it (.done (.status test motor t progress false))) s =
      pollDone i test motor t progress false s := by
    simp only [act, answerOwner, howner, pollAnswered, hslot]
  refine carryOut_act (htold.trans hact) ?_
  unfold motorTells
  split
  · split
    · exact carryOut_append hready hexam
    · exact carryOut_mono (by decide) hexam
  · exact carryOut_nil ..

theorem poll_reply {k : Shelf} {s : State} {f : Flight} {i : Slot} {n : NodeIx} {d : DrivePart} (h : Answering k s f i n d)
    (hk : shelfOf i = k) (wire : Bool) {test : TestState} {motor : Motor} {tb mb th tl progress : Byte}
    (hslot : f.item.slot = some i) (hcmd : f.item.cmd = .poll) (howner : f.item.owner = .busController)
    (hrun : (s.slot i).run = none) (hqueue : (s.shelf k).queue = []) (htest : testStateOf tb.toNat = some test)
    (hmotor : motorOf mb.toNat = some motor) :
    ∃ t, exec (.replyFrameReceived k (busReply n .poll [tb, mb, th, tl, progress, 0]) wire) s = .next t ∧
      OtherSlotsSame s t i ∧ t.slot i =
        { (s.slot i).polled test motor (256 * th.toNat + tl.toNat) (min 100 progress.toNat) s.now with
          drive := some { d with motor := motor, missed := 0 } } := by
  have hkind : f.item.cmd.kind = .poll := by rw [hcmd]; rfl
  let fields : ReplyFields := .status test motor (256 * th.toNat + tl.toNat) (min 100 progress.toNat) false
  have hfields : replyFields .poll [tb, mb, th, tl, progress, 0] = some fields := by
    have h0 : testStateOf (field8 [tb, mb, th, tl, progress, 0] 0) = some test := htest
    have h1 : motorOf (field8 [tb, mb, th, tl, progress, 0] 1) = some motor := hmotor
    simp only [replyFields, h0, h1]
    rfl
  have htaken := poll_taken (s := replied k wire s) hk hslot howner (by simpa using hrun) (by simpa using hqueue) test motor
    (256 * th.toNat + tl.toNat) (min 100 progress.toNat)
  obtain ⟨t, ht, hts⟩ := h.taken (fields := fields) wire (body := [tb, mb, th, tl, progress, 0]) (by simp)
    (by rw [hkind]; rfl) (by rw [hkind]; exact hfields) (by simp [isQuery, hkind]) (by decide) htaken
    (by simp [SlotRec.polled, SlotRec.reported, h.drive])
  rw [hkind] at ht
  refine ⟨t, ht, .of_modSlot (replied_slot k wire s) hts, ?_⟩
  rw [hts i]
  simp [answeredDrive, SlotRec.polled, SlotRec.reported, h.drive]

/-! ## ATTN_QUERY (R68, R96, R102) -/

/-- The record of a slot that holds no attention as one is captured that is held for the host. -/
def SlotRec.holding (code detail : Byte) (pending : Bool) (r : SlotRec) : SlotRec :=
  { r with
    attn := some
      { code := code, detail := detail, phase := r.run.map Run.phase, run := if r.run.isSome then .current else .none,
        disposition := .vector .notifyHold, stage := .host, clearPending := pending, fetch := fetchStart code }
    summary := some { code := code, detail := detail, phase := r.run.map Run.phase, outcome := .held }
    reports := r.reports.map Report.superseded }

/-- The capture of a code whose action is NOTIFY_HOLD: the record is held at stage HOST and ATTN_HELD is set. -/
theorem capture_hold {k : Shelf} {s : State} {i : Slot} {n : NodeIx} {code : Byte} (detail : Byte)
    (hnode : (s.shelf k).nodes[n] = .bound i) (hsilent : (s.slot i).silent = false) (hattn : (s.slot i).attn = none)
    (hcode : 32 ≤ code.toNat) (haction : actionOf s code = .notifyHold) :
    ∃ v, capture k n code detail s = (v, []) ∧
      (∀ j, v.slot j = (s.modSlot i (SlotRec.holding code detail (pendingOrInFlight s i .attnClear))).slot j) ∧
      v.shelf k = s.shelf k ∧ flagSet v (slotScope i) (slotFlagBit .attnHeld) = true := by
  have hdisp : dispositionOf s code = .vector .notifyHold := by
    rw [dispositionOf, if_neg (Nat.not_lt.2 hcode), haction]
  refine ⟨setOutcome i .held (raiseSlot i .attnHeld (modAttn i (fun a => { a with stage := .host })
    (formRecord i code detail s))), ?_, fun j => ?_, ?_, ?_⟩
  · simp only [capture, hnode, hsilent, hattn, hdisp, Option.isSome_none, Bool.false_eq_true, if_false, actVector]
  · by_cases hj : j = i
    · subst hj
      simp [setOutcome, modAttn, formRecord, SlotRec.holding, hdisp]
    · simp only [setOutcome, modAttn, formRecord, raiseSlot_slot, State.modSlot_slot_ne _ hj]
  · simp [setOutcome, modAttn, formRecord]
  · rw [setOutcome, flagSet_congr (State.modSlot_flags ..)]
    exact flagSet_raiseSlot ..

/-- A shelf-wide query that stands is chosen or still stands after the arbiter's choice. -/
theorem choose_queryPending {k : Shelf} {s : State} (h : (s.shelf k).attnWide.any isQuery = true) :
    QueryPending (choose k s) k := by
  rcases choose_cases k s with hc | hc | hc | ⟨c, hc⟩ | hc
  · unfold takeAttach at hc
    split at hc
    · rw [← Option.some.inj hc]; exact .inl (by simpa [launch] using h)
    · cases hc
  · unfold takeWide at hc
    split at hc
    · next it rest hwide =>
      rw [← Option.some.inj hc]
      rw [hwide, List.any_cons, Bool.or_eq_true] at h
      rcases h with hhead | hrest
      · exact .inr (by simpa [launch, flightIs, inFlight] using hhead)
      · exact .inl (by simpa [launch] using hrest)
    · cases hc
  · obtain ⟨it, -, hc⟩ := Option.map_eq_some_iff.1 hc
    rw [← hc]; exact .inl (by simpa [launch] using h)
  · obtain ⟨⟨p, it⟩, -, hc⟩ := Option.map_eq_some_iff.1 hc
    rw [← hc]; exact .inl (by simpa [launch] using h)
  · rw [hc]; exact .inl (by simpa using h)

theorem requery_busOnly (k : Shelf) (s : State) : BusOnly k s (requery k s) := by
  unfold requery addQuery
  split
  · dsimp only
    split
    · exact .refl k s
    · exact submitWide_busOnly ..
  · exact .refl k s

/-- The wire still asserted at the end of a query's transaction, and no hold-off: a query stands (R68). -/
theorem requery_queryPending {k : Shelf} {s : State} (hwire : (s.shelf k).attnWire = true)
    (hhold : (s.shelf k).holdoff = none) (hphase : (s.shelf k).phase = .ending) :
    ((requery k s).shelf k).attnWide.any isQuery = true := by
  cases hany : (s.shelf k).attnWide.any isQuery with
  | true => simp [requery, hwire, addQuery, hany]
  | false =>
    simp [requery, hwire, addQuery, hany, hhold, hphase, flightIs, inFlight, submitWide, kick, isQuery, BusCmd.kind]

/-- The reply of an ATTN_QUERY: the attention is captured and held for the host, the drive has answered, and a query
stands if the wire is still asserted. -/
theorem query_reply {k : Shelf} {s : State} {f : Flight} {i : Slot} {n : NodeIx} {d : DrivePart} (h : Answering k s f i n d)
    (wire : Bool) {code detail : Byte} (hshelf : f.item.shelf = k) (hcmd : f.item.cmd = .attnQuery (some n))
    (howner : f.item.owner = .attentionUnit) (hnode : (s.shelf k).nodes[n] = .bound i) (hsilent : (s.slot i).silent = false)
    (hattn : (s.slot i).attn = none) (hcode : 32 ≤ code.toNat) (haction : actionOf s code = .notifyHold) :
    ∃ t pending, exec (.replyFrameReceived k (busReply n .attnQuery [code, detail]) wire) s = .next t ∧
      OtherSlotsSame s t i ∧
      t.slot i = { (s.slot i).holding code detail pending with drive := some { d with missed := 0 } } ∧
      flagSet t (slotScope i) (slotFlagBit .attnHeld) = true ∧
      (wire = true → (s.shelf k).holdoff = none → QueryPending t k) := by
  have hkind : f.item.cmd.kind = .attnQuery := by rw [hcmd]; rfl
  have hquery : isQuery f.item = true := by simp [isQuery, hkind]
  have hnode' : ((replied k wire s).shelf k).nodes[n] = .bound i := by rw [(replied_busOnly k wire s).nodes]; exact hnode
  obtain ⟨v, hcapture, hslots, hshelves, hflag⟩ := capture_hold (s := replied k wire s) detail hnode'
    (by simpa using hsilent) (by simpa using hattn) hcode haction
  have hact : act (.answered f.item (.done (.attention code detail))) (replied k wire s) = (v, []) := by
    simp only [act, answerOwner, howner, attentionAnswered, hcmd, hshelf, hcapture]
  have hslot : v.slot i = (s.slot i).holding code detail (pendingOrInFlight (replied k wire s) i .attnClear) := by
    rw [hslots i, State.modSlot_slot, replied_slot]
  have hdrive : (v.slot i).drive = some d := by rw [hslot]; exact h.drive
  have hrequery : carryOut 1 [.requery k] (answeredDrive i v) = some (requery k (answeredDrive i v)) := rfl
  have hfree : carryOut 1 [.wireFree k] (requery k (answeredDrive i v)) =
      some (choose k (requery k (answeredDrive i v))) := rfl
  have hbus := (requery_busOnly k (answeredDrive i v)).trans (choose_busOnly k _)
  have hexec := h.replies (body := [code, detail]) (fields := .attention code detail) wire (by simp) (by rw [hkind]; rfl)
    (by rw [hkind]; rfl)
  rw [hkind, hquery] at hexec
  have hnext := hexec.trans (conclude_of (n := 4) (by decide) (carryOut_append (carryOut_quiet hact)
    (carryOut_append (counted_done (by simp [hdrive]) ..) (carryOut_append hrequery hfree))))
  refine ⟨_, pendingOrInFlight (replied k wire s) i .attnClear, hnext, fun j hj => ?_, ?_, ?_,
    fun hwire hhold => ?_⟩
  · rw [startTx_slot, hbus.slot, answeredDrive, State.modDrive_slot_ne _ hj, hslots j,
      State.modSlot_slot_ne _ hj, replied_slot]
  · rw [startTx_slot, hbus.slot, answeredDrive, State.modDrive_slot, hdrive, hslot]
    rfl
  · rw [flagSet_startTx, flagSet_congr hbus.flags, answeredDrive, flagSet_congr (State.modDrive_flags ..)]
    exact hflag
  · have hpending := choose_queryPending (s := requery k (answeredDrive i v)) (k := k)
      (requery_queryPending (by simp [answeredDrive, hshelves, replied, closing, setWire, hwire])
        (by simpa [answeredDrive, hshelves, replied, closing, setWire, releaseWire] using hhold)
        (by simp [answeredDrive, hshelves]))
    simpa only [QueryPending, startTx_shelf] using hpending

/-- Settles O44: each reply is told to its owner, the drive's missed count is cleared, and the arbiter chooses. -/
theorem repliesAreTaken : Obligations.RepliesAreTaken := by
  unfold Obligations.RepliesAreTaken
  intro k s i n d closes wire f hphase hnode hdropped horphan hshelf hdrive hslot hk
  have h : Answering k s f i n d := ⟨⟨closes, hphase⟩, hnode, hdropped, horphan, hdrive, hslot⟩
  refine ⟨fun run code hitem hcmd howner hrun hstate => startTest_taken h wire hitem hcmd howner hrun hstate, ?_, ?_⟩
  · intro test motor tb mb th tl progress hitem hcmd howner hrun hqueue htest hmotor
    obtain ⟨t, hexec, hothers, hrec⟩ := poll_reply h hk wire hitem hcmd howner hrun hqueue htest hmotor
    refine ⟨t, hexec, hothers, ?_, ?_, fun hvalid => ?_, fun hinvalid => ?_, ?_⟩ <;> rw [hrec]
    · rfl
    · exact if_pos hvalid
    · exact if_neg (Nat.not_le.2 hinvalid)
    · rfl
  · intro code detail hcmd howner hbound hsilent hattn hcode haction
    obtain ⟨t, pending, hexec, hothers, hrec, hflag, hpending⟩ :=
      query_reply h wire hshelf hcmd howner hbound hsilent hattn hcode haction
    refine ⟨t, hexec, hothers, ⟨_, by rw [hrec]; rfl, rfl, rfl, rfl, rfl⟩, ?_, ?_, hflag, hpending⟩ <;> rw [hrec]
    rfl

end Sys2Proof.Machine
end

