-- ==== Sys2Proof/Proofs/ArbiterOrder.lean ====
section
/-! SUPPORT. The arbiter's choice among the lists of a shelf: the classes in their order, the positions after the pointer
of a class, and the kinds within a slot (R54, R55). -/

namespace Sys2Proof.Machine

/-! ## The first of a list with a property -/

/-- In a list that runs through all positions, the first that answers is the one before which none does. -/
theorem findSome?_eq_of_first {α β : Type} {l m : List α} {a : α} {f : α → Option β} {b : β} (ha : f a = some b)
    (hl : ∀ x ∈ l, f x = none) : (l ++ a :: m).findSome? f = some b := by
  rw [List.findSome?_append, List.findSome?_eq_none_iff.2 hl]
  simp [ha]

/-- The positions, cut at one of them. -/
theorem allPositions_eq (n : Position) : ∃ l m, allPositions = l ++ n :: m ∧ ∀ x ∈ l, x < n := by
  refine ⟨allPositions.take n.val, allPositions.drop (n.val + 1), ?_, ?_⟩ <;> revert n <;> decide

/-! ## The items of a class (R54) -/

/-- The kinds within a slot are the per-slot kinds of the class, and the arbiter takes them in the order of their
places. -/
theorem mem_slotKinds {c : BusClass} (hc : c ≠ .attach) (kind : BusKind) : kind ∈ slotKinds c ↔ PerSlot c kind := by
  unfold PerSlot
  cases c with
  | attach => exact absurd rfl hc
  | _ => cases kind <;> decide

theorem slotKinds_pairwise (c : BusClass) : (slotKinds c).Pairwise fun a b => kindPlace a < kindPlace b := by
  cases c <;> decide

theorem pendingItem_eq_none {work : List Item} {i : Slot} {kind : BusKind} :
    pendingItem work i kind = none ↔ ∀ x ∈ work, x.slot = some i → x.cmd.kind ≠ kind := by
  simp [pendingItem, isItemOf]

/-- A slot without items of the class gives none. -/
theorem firstItem_eq_none {work : List Item} {i : Slot} {c : BusClass} (hc : c ≠ .attach)
    (h : ∀ x ∈ work, x.slot = some i → ¬PerSlot c x.cmd.kind) : firstItem work i (slotKinds c) = none := by
  refine List.findSome?_eq_none_iff.2 fun kind hkind => pendingItem_eq_none.2 fun x hx hi hk => ?_
  exact h x hx hi (hk ▸ (mem_slotKinds hc kind).1 hkind)

/-- The item of a slot whose kind stands before those of the slot's other items of the class. -/
def FirstOfSlot (work : List Item) (c : BusClass) (it : Item) : Prop :=
  ∀ x ∈ work, x.slot = it.slot → PerSlot c x.cmd.kind → x ≠ it → kindPlace it.cmd.kind < kindPlace x.cmd.kind

/-- It is the slot's only item of its kind. -/
theorem FirstOfSlot.eq {work : List Item} {c : BusClass} {it x : Item} (h : FirstOfSlot work c it)
    (hper : PerSlot c it.cmd.kind) (hx : x ∈ work) (hs : x.slot = it.slot) (hk : x.cmd.kind = it.cmd.kind) : x = it := by
  by_contra hne
  have hlt := h x hx hs (hk ▸ hper) hne
  rw [hk] at hlt
  exact lt_irrefl _ hlt

/-- The first item of a slot in the order of its class (R55). -/
theorem firstItem_eq {work : List Item} {i : Slot} {c : BusClass} {it : Item} (hc : c ≠ .attach) (hmem : it ∈ work)
    (hs : it.slot = some i) (hper : PerSlot c it.cmd.kind) (hfirst : FirstOfSlot work c it) :
    firstItem work i (slotKinds c) = some it := by
  have hit : pendingItem work i it.cmd.kind = some it := by
    cases h : pendingItem work i it.cmd.kind with
    | none => exact absurd rfl (pendingItem_eq_none.1 h it hmem hs)
    | some x =>
      obtain ⟨hxs, hxk⟩ := isItemOf_iff.1 (List.find?_some h)
      rw [hfirst.eq hper (List.mem_of_find?_eq_some h) (hxs.trans hs.symm) hxk]
  obtain ⟨l, m, hl⟩ := List.append_of_mem ((mem_slotKinds hc _).2 hper)
  have hsorted := slotKinds_pairwise c
  have hkinds := mem_slotKinds hc
  unfold firstItem
  rw [hl] at hsorted hkinds ⊢
  refine findSome?_eq_of_first hit fun kind hkind => pendingItem_eq_none.2 fun x hx hxs hxk => ?_
  -- An item of an earlier kind would stand before `it`.
  have hbefore : kindPlace kind < kindPlace it.cmd.kind :=
    (List.pairwise_append.1 hsorted).2.2 kind hkind it.cmd.kind (by simp)
  have hxper : PerSlot c x.cmd.kind := hxk ▸ (hkinds kind).1 (by simp [hkind])
  have := hfirst x hx (hxs.trans hs.symm) hxper fun he => by
    rw [he] at hxk
    exact hbefore.ne (congrArg kindPlace hxk.symm)
  rw [hxk] at this
  omega

/-! ## The position after the pointer (R55) -/

theorem pickSlotItem_eq_none {k : Shelf} {sh : ShelfRec} {c : BusClass} (hc : c ≠ .attach)
    (h : ∀ x ∈ sh.work, ¬PerSlot c x.cmd.kind) : pickSlotItem k sh c = none :=
  List.findSome?_eq_none_iff.2 fun p _ => by rw [firstItem_eq_none hc fun x hx _ => h x hx]; rfl

/-- The first position after the pointer whose slot has an item of the class gives that slot's first item. -/
theorem pickSlotItem_eq {k : Shelf} {sh : ShelfRec} {c : BusClass} {n : Position} {it : Item} (hc : c ≠ .attach)
    (hmem : it ∈ sh.work) (hs : it.slot = some (slotAt k (pointerOf sh.pointers c + 1 + n)))
    (hper : PerSlot c it.cmd.kind)
    (hnone : ∀ m : Position, m < n → ∀ x ∈ sh.work, x.slot = some (slotAt k (pointerOf sh.pointers c + 1 + m)) →
      ¬PerSlot c x.cmd.kind)
    (hfirst : FirstOfSlot sh.work c it) : pickSlotItem k sh c = some (pointerOf sh.pointers c + 1 + n, it) := by
  obtain ⟨l, m, hl, hlt⟩ := allPositions_eq n
  unfold pickSlotItem positionsAfter
  rw [hl, List.map_append, List.map_cons]
  refine findSome?_eq_of_first (by rw [firstItem_eq hc hmem hs hper hfirst]; rfl) fun p hp => ?_
  obtain ⟨q, hq, rfl⟩ := List.mem_map.1 hp
  rw [firstItem_eq_none hc (hnone q (hlt q hq))]
  rfl

/-! ## What the arbiter takes (R55) -/

theorem takeSlotItem_eq_none {k : Shelf} {s : State} {c : BusClass} (hc : c ≠ .attach)
    (h : ∀ x ∈ (s.shelf k).work, ¬PerSlot c x.cmd.kind) : takeSlotItem c k s = none := by
  unfold takeSlotItem
  rw [pickSlotItem_eq_none hc h]
  rfl

/-- An item of the ATTACH list is the arbiter's first choice. -/
theorem choose_attach {k : Shelf} {s : State} {it : Item} {rest : List Item} (h : (s.shelf k).attachList = it :: rest) :
    choose k s = launch k it (s.modShelf k fun sh => { sh with attachList := rest }) := by
  simp [choose, takeAttach, h]

/-- A shelf-wide item of ATTENTION is the next. -/
theorem choose_wide {k : Shelf} {s : State} {it : Item} {rest : List Item} (ha : (s.shelf k).attachList = [])
    (h : (s.shelf k).attnWide = it :: rest) :
    choose k s = launch k it (s.modShelf k fun sh => { sh with attnWide := rest }) := by
  simp [choose, takeAttach, takeWide, ha, h]

section
variable {k : Shelf} {s : State} (ha : (s.shelf k).attachList = []) (hw : (s.shelf k).attnWide = [])
include ha hw

/-- TEST_RESET comes after the per-slot items of ATTENTION. -/
theorem choose_testReset {it : Item} (hr : (s.shelf k).testReset = some it)
    (h : ∀ x ∈ (s.shelf k).work, ¬PerSlot .attention x.cmd.kind) :
    choose k s = launch k it (s.modShelf k fun sh => { sh with testReset := none }) := by
  simp [choose, takeAttach, takeWide, takeTestReset, takeSlotItem_eq_none (by decide) h, ha, hw, hr]

/-- Of the per-slot items those of the first class that holds any are chosen from; a TEST_RESET stands before all but those
of ATTENTION. -/
theorem choose_slotItem {t : State} {c : BusClass} (hc : c ≠ .attach) (hr : c ≠ .attention → (s.shelf k).testReset = none)
    (h : ∀ x ∈ (s.shelf k).work, classPlace c ≤ classPlace (classOf x.cmd.kind)) (ht : takeSlotItem c k s = some t) :
    choose k s = t := by
  have hnone : ∀ b : BusClass, b ≠ .attach → classPlace b < classPlace c → takeSlotItem b k s = none := fun b hb hlt =>
    takeSlotItem_eq_none hb fun x hx hper => by
      have := h x hx
      rw [hper.1] at this
      omega
  have hreset : c ≠ .attention → takeTestReset k s = none := fun hne => by simp [takeTestReset, hr hne]
  have hattach : takeAttach k s = none := by simp [takeAttach, ha]
  have hwide : takeWide k s = none := by simp [takeWide, hw]
  have hatt := hnone .attention (by decide)
  have hcon := hnone .control (by decide)
  have hfet := hnone .fetch (by decide)
  have hshi := hnone .ship (by decide)
  unfold choose
  rw [hattach, hwide]
  cases c with
  | attach => exact absurd rfl hc
  | attention => simp [ht]
  | control => simp [hatt (by decide), hreset (by decide), ht]
  | fetch => simp [hatt (by decide), hreset (by decide), hcon (by decide), ht]
  | ship => simp [hatt (by decide), hreset (by decide), hcon (by decide), hfet (by decide), ht]
  | poll => simp [hatt (by decide), hreset (by decide), hcon (by decide), hfet (by decide), hshi (by decide), ht]

/-- With nothing pending the wire is free. -/
theorem choose_none (hr : (s.shelf k).testReset = none)
    (h : ∀ x ∈ (s.shelf k).work, ∀ c : BusClass, c ≠ .attach → ¬PerSlot c x.cmd.kind) :
    choose k s = s.modShelf k fun sh => { sh with phase := .free } := by
  have hnone : ∀ c : BusClass, c ≠ .attach → takeSlotItem c k s = none := fun c hc =>
    takeSlotItem_eq_none hc fun x hx => h x hx c hc
  simp [choose, takeAttach, takeWide, takeTestReset, ha, hw, hr, hnone]
end

/-- The pointer of a class is moved alone. -/
theorem pointerOf_setPointer (p : Pointers) {c : BusClass} (hc : c ≠ .attach) (q : Position) (b : BusClass) :
    pointerOf (setPointer p c q) b = if b = c then q else pointerOf p b := by
  cases c with
  | attach => exact absurd rfl hc
  | _ => cases b <;> rfl

theorem launch_flight (k : Shelf) (it : Item) (s : State) :
    flightIs (fun x => decide (x = it)) ((launch k it s).shelf k).phase = true := by
  simp [launch, flightIs, inFlight]

/-- The slot's items of a kind, taken out of the pending work, are the chosen item. -/
theorem FirstOfSlot.mem_filter {work : List Item} {c : BusClass} {it : Item} {i : Slot} (h : FirstOfSlot work c it)
    (hs : it.slot = some i) (hper : PerSlot c it.cmd.kind) (x : Item) :
    x ∈ work.filter (fun x => !isItemOf i it.cmd.kind x) ↔ x ∈ work ∧ x ≠ it := by
  rw [List.mem_filter, Bool.not_eq_true', ← Bool.not_eq_true, isItemOf_iff]
  refine and_congr_right fun hx => not_congr ⟨fun ⟨hxs, hxk⟩ => ?_, ?_⟩
  · exact h.eq hper hx (hxs.trans hs.symm) hxk
  · rintro rfl
    exact ⟨hs, rfl⟩

/-- Settles O48: the classes are tried in their order, each pointer's positions in theirs. -/
theorem arbiterServesInOrder : Obligations.ArbiterServesInOrder := by
  unfold Obligations.ArbiterServesInOrder
  intro k s
  dsimp only
  refine ⟨fun it rest h => ?_, fun it rest ha h => ?_, fun ha hw c hc hr n it hmem hs hper hclass hnone hfirst => ?_,
    fun it ha hw hr h => ?_, fun ha hw hr h => ?_, (choose_busOnly k s).slots⟩
  · rw [choose_attach h]
    exact ⟨launch_flight .., by simp [launch], by simp⟩
  · rw [choose_wide ha h]
    exact ⟨launch_flight .., by simp [launch], by simp⟩
  · have hfirst' : FirstOfSlot (s.shelf k).work c it := hfirst
    have hpick := pickSlotItem_eq hc hmem hs hper hnone hfirst'
    have ht : takeSlotItem c k s = some (launch k it (s.modShelf k fun sh =>
        { sh with
          work := sh.work.filter fun x => !isItemOf (slotAt k (pointerOf (s.shelf k).pointers c + 1 + n)) it.cmd.kind x
          pointers := setPointer sh.pointers c (pointerOf (s.shelf k).pointers c + 1 + n) })) := by
      unfold takeSlotItem
      rw [hpick]
      rfl
    rw [choose_slotItem ha hw hc hr hclass ht]
    refine ⟨launch_flight .., ?_, fun b hb => ?_, by simp [launch], fun x => ?_⟩
    · simp [launch, pointerOf_setPointer _ hc]
    · simp [launch, pointerOf_setPointer _ hc, hb]
    · rw [launch_work, State.modShelf_shelf]
      exact hfirst'.mem_filter hs hper x
  · rw [choose_testReset ha hw hr h]
    exact ⟨launch_flight .., by simp [launch], by simp, by simp [launch]⟩
  · rw [choose_none ha hw hr fun x hx c hc => (h x hx c).resolve_right hc]
    simp

end Sys2Proof.Machine
end

