-- ==== Sys2Proof/Proofs/BusWires.lean ====
section
/-! SUPPORT. The data wire and the end of a command frame (R50, R55, R70, R71), and the attention wire with its query and
hold-off (R68, R69). -/

namespace Sys2Proof.Machine

/-! ## The data wire (R50, R71) -/

/-- A release starts the quiet time anew. -/
theorem exec_dataWire_released {k : Shelf} {s : State} (h : (s.shelf k).dataHigh = false) :
    exec (.dataWireLevelChange k true) s = .next (s.modShelf k fun sh =>
      { sh with dataHigh := true, highSince := s.now, stuckTimer := none }) :=
  if_neg (by simp [h])

/-- A low level stops it, ends an episode after 1 ms, and starts the 50 ms while a transaction waits. -/
theorem exec_dataWire_low {k : Shelf} {s : State} (h : (s.shelf k).dataHigh = true) :
    exec (.dataWireLevelChange k false) s = .next (s.modShelf k fun sh =>
      { sh with
        dataHigh := false
        stuckTold := (s.shelf k).stuckTold && decide (s.now - (s.shelf k).highSince < 1)
        stuckTimer := match sh.phase with
          | .waiting _ => some (s.now + 50)
          | _ => none }) :=
  (if_neg (by simp [h])).trans (congrArg Host.Outcome.next (State.modShelf_congr rfl))

theorem exec_quietTimeMet {k : Shelf} {s : State} {f : Flight} (hf : (s.shelf k).phase = .waiting f)
    (hd : (s.shelf k).dataHigh = true) : exec (.quietTimeMet k) s = .next (s.modShelf k fun sh =>
      { sh with phase := .sending f, stuckTimer := none, stuckTold := false }) := by
  simp [exec, execQuietTimeMet, hf, hd]

theorem exec_busWireStuck {k : Shelf} {s : State} (h : (s.shelf k).stuckTimer.isSome) :
    let u := s.modShelf k fun sh => { sh with stuckTimer := none, stuckTold := true }
    exec (.busWireStuck k) s =
      .next (startTx (if (s.shelf k).stuckTold = true then u else raiseShelf k .busFault u)) :=
  (if_neg (by simpa [Option.isSome_iff_ne_none] using h)).trans (conclude_nil _)

/-! ## The end of a command frame (R50, R52) -/

/-- A command of a kind that goes on leaves its transaction at the next stage. -/
theorem exec_commandFrameEnd_goesOn {k : Shelf} {s : State} {f : Flight} (hf : (s.shelf k).phase = .sending f)
    (h : endsWithCommand f.item.cmd.kind = false) : exec (.commandFrameEnd k) s =
      .next (s.modShelf k fun sh => { sh with phase := afterCommand f s.now, highSince := s.now }) := by
  simp only [exec, execCommandFrameEnd, hf, h, Bool.false_eq_true, if_false, setPhase, releaseWire, State.modShelf_modShelf]
  rfl

/-- A command of a kind that ends with its frame, for which its owner has nothing to do, leaves the choice to the
arbiter. -/
theorem exec_commandFrameEnd_ends {k : Shelf} {s : State} {f : Flight} (hf : (s.shelf k).phase = .sending f)
    (hnode : f.node = none) (h : endsWithCommand f.item.cmd.kind = true)
    (howner : ∀ (answer : Answer) (t : State), act (.answered f.item answer) t = (t, [])) :
    exec (.commandFrameEnd k) s = .next (startTx (choose k (s.modShelf k fun sh =>
      { sh with phase := .ending, highSince := s.now, stuckTimer := none }))) := by
  let u := s.modShelf k fun sh => { sh with phase := .ending, highSince := s.now, stuckTimer := none }
  have hu : (releaseWire k s).modShelf k (fun sh => { sh with phase := .ending, stuckTimer := none }) = u :=
    State.modShelf_modShelf ..
  have hfree : carryOut 1 [.wireFree k] u = some (choose k u) := rfl
  have htold : ∀ answer : Answer, carryOut 1 (if f.orphan then [] else [.answered f.item answer]) u = some u :=
    fun answer => by split <;> [exact carryOut_nil ..; exact carryOut_quiet (howner answer u)]
  have hend : exec (.commandFrameEnd k) s = conclude (endTransaction k f (.done .ack) (releaseWire k s)) := by
    simp only [exec, execCommandFrameEnd, hf, h, if_true]
  refine hend.trans (conclude_of (n := 2) (by decide) ?_)
  simp only [endTransaction, hnode, Option.bind_none, ite_self, Option.isSome_none, Bool.and_false, Bool.false_eq_true,
    if_false, List.append_nil, hu]
  exact carryOut_append (htold _) hfree

theorem not_ends_of_expectsReply {kind : BusKind} (h : expectsReply kind = true) : endsWithCommand kind = false := by
  revert h
  cases kind <;> decide

theorem afterCommand_window {f : Flight} (h : expectsReply f.item.cmd.kind = true) (hq : f.item.cmd.kind ≠ .attnQuery)
    (now : Nat) : afterCommand f now = .window f (now + 10) := by
  unfold afterCommand
  split
  · next hk => rw [hk] at h; cases h
  · next hk => exact absurd hk hq
  · rfl

/-- Settles O41: the wire's level, the transaction that waits for it, and each kind's way on from its command frame. -/
theorem dataWireAndCommandFrames : Obligations.DataWireAndCommandFrames := by
  unfold Obligations.DataWireAndCommandFrames
  intro k s
  refine ⟨exec_dataWire_released, fun h => ⟨_, exec_dataWire_low h, fun hlt => ?_, fun hge => ?_⟩,
    fun f hf hd => exec_quietTimeMet hf hd, exec_busWireStuck, fun f hf => ⟨fun hk => ?_, fun hk => ?_, fun h hq => ?_, ?_⟩⟩
  · simp only [hlt, decide_true, Bool.and_true]
  · simp only [Nat.not_lt.2 hge, decide_false, Bool.and_false]
  · rw [exec_commandFrameEnd_goesOn hf (by rw [hk]; rfl), afterCommand, hk]
  · rw [exec_commandFrameEnd_goesOn hf (by rw [hk]; rfl), afterCommand, hk]
  · rw [exec_commandFrameEnd_goesOn hf (not_ends_of_expectsReply h), afterCommand_window h hq]
  · intro hnode _ hslot hcmd
    rcases hcmd with ⟨pattern, hcmd, howner⟩ | ⟨hcmd, howner⟩
    · refine exec_commandFrameEnd_ends hf hnode (by rw [hcmd]; rfl) fun answer t => ?_
      simp only [act, answerOwner, howner, attachAnswered, hcmd]
    · refine exec_commandFrameEnd_ends hf hnode (by rw [hcmd]; rfl) fun answer t => ?_
      simp only [act, answerOwner, howner, planAnswered, hcmd]

/-! ## The attention wire (R68, R69) -/

/-- The arbiter leaves the attention wire and the hold-off alone. -/
theorem choose_attnWire (k : Shelf) (s : State) :
    ((choose k s).shelf k).attnWire = (s.shelf k).attnWire ∧ ((choose k s).shelf k).holdoff = (s.shelf k).holdoff := by
  rcases choose_cases k s with h | h | h | ⟨c, h⟩ | h
  · unfold takeAttach at h
    split at h
    · rw [← Option.some.inj h]; simp [launch]
    · cases h
  · unfold takeWide at h
    split at h
    · rw [← Option.some.inj h]; simp [launch]
    · cases h
  · obtain ⟨_, -, h⟩ := Option.map_eq_some_iff.1 h
    rw [← h]; simp [launch]
  · obtain ⟨⟨p, it⟩, -, h⟩ := Option.map_eq_some_iff.1 h
    rw [← h]; simp [launch]
  · rw [h]; simp

theorem submitWide_attnWire (k : Shelf) (cmd : BusCmd) (s : State) :
    ((submitWide k cmd s).shelf k).attnWire = (s.shelf k).attnWire ∧
      ((submitWide k cmd s).shelf k).holdoff = (s.shelf k).holdoff := by
  unfold submitWide kick
  split
  · obtain ⟨hw, hh⟩ := choose_attnWire k (s.modShelf k fun sh =>
      { sh with attnWide := sh.attnWide ++ [{ shelf := k, slot := none, cmd := cmd, owner := .attentionUnit }] })
    rw [hw, hh]
    simp
  · simp

/-- Where a query stands or the hold-off runs none is added. -/
theorem addQuery_stays {k : Shelf} {s : State} (h : QueryPending s k ∨ (s.shelf k).holdoff.isSome) : addQuery k s = s := by
  refine if_pos ?_
  rw [Bool.or_eq_true, Bool.or_eq_true]
  exact h

/-- Else a query is added, and stands. -/
theorem addQuery_pending {k : Shelf} {s : State} (h : (s.shelf k).holdoff = none) : QueryPending (addQuery k s) k := by
  by_cases hp : QueryPending s k
  · rwa [addQuery_stays (.inl hp)]
  · have hadd : addQuery k s = submitWide k (.attnQuery none) s := by
      refine if_neg fun hq => hp ?_
      rw [h, Option.isSome_none, Bool.or_false, Bool.or_eq_true] at hq
      exact hq
    rw [hadd]
    unfold submitWide
    have hstands : ((s.modShelf k fun sh => { sh with attnWide := sh.attnWide ++
        [{ shelf := k, slot := none, cmd := .attnQuery none, owner := .attentionUnit }] }).shelf k).attnWide.any isQuery =
        true := by simp [isQuery, BusCmd.kind]
    unfold kick
    split
    · exact choose_queryPending hstands
    · exact .inl hstands

theorem addQuery_busOnly (k : Shelf) (s : State) : BusOnly k s (addQuery k s) := by
  unfold addQuery
  dsimp only
  split
  · exact .refl k s
  · exact submitWide_busOnly ..

theorem addQuery_attnWire (k : Shelf) (s : State) :
    ((addQuery k s).shelf k).attnWire = (s.shelf k).attnWire ∧ ((addQuery k s).shelf k).holdoff = (s.shelf k).holdoff := by
  unfold addQuery
  dsimp only
  split
  · exact ⟨rfl, rfl⟩
  · exact submitWide_attnWire ..

@[simp] theorem setWire_shelf (k : Shelf) (wire : Bool) (s : State) :
    (setWire k wire s).shelf k = { s.shelf k with attnWire := wire } := by simp [setWire]

theorem QueryPending.startTx {k : Shelf} {s : State} (h : QueryPending s k) : QueryPending (startTx s) k := by
  simpa only [QueryPending, startTx_shelf] using h

/-- Only the pending queries and the stage of the wire tell whether a query stands. -/
theorem QueryPending.congr {k : Shelf} {s t : State} (h : QueryPending s k)
    (hl : (t.shelf k).attnWide = (s.shelf k).attnWide) (hp : (t.shelf k).phase = (s.shelf k).phase) : QueryPending t k := by
  unfold QueryPending at h ⊢
  rwa [hl, hp]

theorem attentionWire_asserted (k : Shelf) (s : State) :
    ∃ t, exec (.attentionWireAsserted k) s = .next t ∧ t.slots = s.slots ∧ (t.shelf k).attnWire = true ∧
      ((s.shelf k).holdoff = none → QueryPending t k) ∧
      (QueryPending s k ∨ (s.shelf k).holdoff.isSome →
        (t.shelf k).attnWide = (s.shelf k).attnWide ∧ (t.shelf k).phase = (s.shelf k).phase) := by
  refine ⟨startTx (addQuery k (setWire k true s)), conclude_nil _, ?_, ?_, fun h => ?_, fun h => ?_⟩
  · rw [startTx_slots, (addQuery_busOnly ..).slots]; rfl
  · rw [startTx_shelf, (addQuery_attnWire ..).1, setWire_shelf]
  · exact (addQuery_pending (by simpa using h)).startTx
  · rw [addQuery_stays (h.imp (fun h => h.congr (by simp) (by simp)) (by simp))]
    simp

theorem attnHoldoff_expires (k : Shelf) (s : State) (wire : Bool) (h : (s.shelf k).holdoff.isSome) :
    ∃ t, exec (.attnHoldoffExpiry k wire) s = .next t ∧ t.slots = s.slots ∧ (t.shelf k).holdoff = none ∧
      (wire = true → QueryPending t k) := by
  let u := setWire k wire (s.modShelf k fun sh => { sh with holdoff := none })
  have hexec : exec (.attnHoldoffExpiry k wire) s = .next (startTx (if wire then addQuery k u else u)) :=
    (if_neg (by simpa [Option.isSome_iff_ne_none] using h)).trans (conclude_nil _)
  have hhold : (u.shelf k).holdoff = none := by simp [u]
  refine ⟨_, hexec, ?_, ?_, fun hw => ?_⟩
  · rw [startTx_slots]
    split
    · rw [(addQuery_busOnly ..).slots]; rfl
    · rfl
  · rw [startTx_shelf]
    split
    · rw [(addQuery_attnWire ..).2, hhold]
    · exact hhold
  · rw [if_pos hw]
    exact (addQuery_pending hhold).startTx

/-- Four bits that name a node. -/
theorem nodeOfBits_eq_some {v : BitVec 4} {n : NodeIx} (h : v.toNat = n.val + 1) : nodeOfBits v = some n := by
  have hr : 1 ≤ v.toNat ∧ v.toNat ≤ 8 := by omega
  rw [nodeOfBits, dif_pos hr]
  congr 1
  ext
  simp [h]

theorem nodeOfBits_eq_none {v : BitVec 4} (h : v = 0#4 ∨ 8 < v.toNat) : nodeOfBits v = none := by
  refine dif_neg fun hr => ?_
  rcases h with rfl | h
  · simp at hr
  · omega

/-- The item of a query whose winner is not known. -/
def queryItem (k : Shelf) : Item := { shelf := k, slot := none, cmd := .attnQuery none, owner := .attentionUnit }

/-- A query without a winner ends: nobody is told of a drive, and the arbiter chooses. -/
theorem exec_query_lost {k : Shelf} {s : State} {v : BitVec 4} {wire : Bool}
    (hf : (s.shelf k).phase = .nodeBits { item := queryItem k, node := none, dropped := false, orphan := false })
    (hv : nodeOfBits v = none) : exec (.attnQueryNodeRead k v wire) s =
      .next (startTx (choose k ((noWinner k v wire (setWire k wire (releaseWire k s))).modShelf k fun sh =>
        { sh with phase := .ending, stuckTimer := none }))) := by
  have hexec : exec (.attnQueryNodeRead k v wire) s = conclude (endTransaction k
      { item := queryItem k, node := none, dropped := false, orphan := false } .noReply
      (noWinner k v wire (setWire k wire (releaseWire k s)))) := by
    simp only [exec, execAttnQueryNodeRead, hf, hv]
  exact hexec.trans (conclude_of (n := 2) (by decide) rfl)

/-- The flag, and the hold-off while the wire is asserted. -/
theorem noWinner_shelf (k : Shelf) (v : BitVec 4) (wire : Bool) (s : State) : (noWinner k v wire s).shelf k =
    { s.shelf k with holdoff := if wire then some (s.now + 1000) else (s.shelf k).holdoff } := by
  unfold noWinner
  dsimp only
  cases wire with
  | true => simp [State.after]
  | false => simp only [Bool.false_eq_true, if_false]; split <;> simp

theorem noWinner_slots (k : Shelf) (v : BitVec 4) (wire : Bool) (s : State) : (noWinner k v wire s).slots = s.slots := by
  unfold noWinner
  dsimp only
  split <;> split <;> simp

theorem noWinner_busFault {k : Shelf} {v : BitVec 4} {wire : Bool} {s : State} (h : wire = true ∨ v ≠ 0xF#4) :
    flagSet (noWinner k v wire s) (shelfScope k) (shelfFlagBit .busFault) = true := by
  have hones : wire = true ∨ v ≠ BitVec.allOnes 4 := h
  have hflag := flagSet_raiseShelf k .busFault s
  unfold noWinner
  dsimp only
  rw [if_pos hones]
  split
  · exact hflag
  · exact hflag

theorem noWinner_quiet (k : Shelf) (s : State) : noWinner k 0xF#4 false s = s := rfl

/-- The node bits that name none. -/
theorem query_lost {k : Shelf} {s : State} {v : BitVec 4} {wire : Bool}
    (hf : (s.shelf k).phase = .nodeBits { item := queryItem k, node := none, dropped := false, orphan := false })
    (hv : v = 0#4 ∨ 8 < v.toNat) :
    ∃ t, exec (.attnQueryNodeRead k v wire) s = .next t ∧ t.slots = s.slots ∧ (t.shelf k).attnWire = wire ∧
      (t.shelf k).holdoff = (if wire then some (s.now + 1000) else (s.shelf k).holdoff) ∧
      (wire = true ∨ v ≠ 0xF#4 → flagSet t (shelfScope k) (shelfFlagBit .busFault) = true) ∧
      (wire = false → v = 0xF#4 → t.flags = s.flags) := by
  let w := (noWinner k v wire (setWire k wire (releaseWire k s))).modShelf k fun sh =>
    { sh with phase := .ending, stuckTimer := none }
  have hbus := choose_busOnly k w
  obtain ⟨hwire, hhold⟩ := choose_attnWire k w
  refine ⟨_, exec_query_lost hf (nodeOfBits_eq_none hv), ?_, ?_, ?_, fun h => ?_, fun hw hv => ?_⟩
  · rw [startTx_slots, hbus.slots, State.modShelf_slots, noWinner_slots]; rfl
  · rw [startTx_shelf, hwire, State.modShelf_shelf, noWinner_shelf, setWire_shelf]
  · rw [startTx_shelf, hhold, State.modShelf_shelf, noWinner_shelf, setWire_shelf]
    simp [setWire, releaseWire]
  · rw [flagSet_startTx, flagSet_congr hbus.flags]
    exact noWinner_busFault h
  · subst hw hv
    rw [startTx_flags, hbus.flags]
    rfl

/-- Settles O43: the assertion, the hold-off, and the node bits by what they name. -/
theorem attentionWireIsServed : Obligations.AttentionWireIsServed := by
  unfold Obligations.AttentionWireIsServed
  refine ⟨attentionWire_asserted, attnHoldoff_expires, fun k s v wire f hf heq => ?_⟩
  subst heq
  refine ⟨fun n hn => ?_, query_lost hf⟩
  simp only [exec, execAttnQueryNodeRead, hf, nodeOfBits_eq_some hn, setPhase, setWire, releaseWire, State.modShelf_modShelf]
  rfl

end Sys2Proof.Machine
end

