-- ==== Sys2Proof/Proofs/Misses.lean ====
section
/-! SUPPORT. A POLL falls due, and a reply window closes without a reply: what is missed, by whom, and the way on from the
third miss (R50, R58, R61, R62, R96). -/

namespace Sys2Proof.Machine

/-! ## A POLL falls due (R58) -/

/-- A submission that no pending item stands for is answered at once where the drive has gone or is SILENT, and stands
pending where it answers (R53). -/
theorem submit_new (i : Slot) {cmd : BusCmd} (owner : Owner) {s : State}
    (hp : pendingItem (s.shelf (shelfOf i)).work i cmd.kind = none) :
    (∃ a, (a = .notBound ∨ a = .noResponse) ∧ ((s.slot i).drive.isSome → (s.slot i).silent = true) ∧
        submit i cmd owner s = (s, [.answered { shelf := shelfOf i, slot := some i, cmd := cmd, owner := owner } a])) ∨
      ∃ u, submit i cmd owner s = (u, []) ∧ BusOnly (shelfOf i) s u ∧ SlotPending u i cmd := by
  by_cases hd : (s.slot i).drive.isNone
  · refine .inl ⟨.notBound, .inl rfl, fun h => ?_, by simp [submit, submitSlot, hd]⟩
    rw [Option.isNone_iff_eq_none] at hd
    rw [hd] at h
    cases h
  by_cases hs : (s.slot i).silent
  · exact .inl ⟨.noResponse, .inr rfl, fun _ => hs, by simp [submit, submitSlot, hd, hs]⟩
  · obtain ⟨u, hu, hbus, hsole, -⟩ := submit_of_bound owner (by simpa [Option.isSome_iff_ne_none] using hd)
      (by simpa using hs) hp
    exact .inr ⟨u, hu, hbus, hsole.slotPending⟩

theorem SlotPending.startTx {s : State} {i : Slot} {cmd : BusCmd} (h : SlotPending s i cmd) :
    SlotPending (startTx s) i cmd := by
  simpa only [SlotPending, startTx_shelf] using h

theorem pendingOrInFlight_startTx (s : State) (i : Slot) (kind : BusKind) :
    pendingOrInFlight (startTx s) i kind = pendingOrInFlight s i kind := by simp [pendingOrInFlight]

/-- The timer starts again from the full interval, and a POLL stands pending for a drive that answers. -/
theorem pollTimer_expires {i : Slot} {s : State} (h : (s.slot i).pollTimer.isSome) :
    ∃ t, exec (.pollTimerExpiry i) s = .next t ∧ OtherSlotsSame s t i ∧
      t.slot i = { s.slot i with pollTimer := some (s.now + 1000 * (s.shelf (shelfOf i)).pollSecs) } ∧
      ((s.slot i).drive.isSome → (s.slot i).silent = false → pendingOrInFlight t i .poll = true) := by
  let u := s.modSlot i fun r => { r with pollTimer := some (s.now + 1000 * (s.shelf (shelfOf i)).pollSecs) }
  have hexec : exec (.pollTimerExpiry i) s =
      if pendingOrInFlight u i .poll then .next u else conclude (submit i .poll .busController u) :=
    if_neg (by simpa [Option.isSome_iff_ne_none] using h)
  have hothers : OtherSlotsSame s u i := fun j hj => State.modSlot_slot_ne s hj _
  have huslot : u.slot i = { s.slot i with pollTimer := some (s.now + 1000 * (s.shelf (shelfOf i)).pollSecs) } :=
    State.modSlot_slot ..
  cases hpend : pendingOrInFlight u i .poll with
  | true =>
    rw [hpend, if_pos rfl] at hexec
    exact ⟨u, hexec, hothers, huslot, fun _ _ => hpend⟩
  | false =>
    rw [hpend, if_neg (by simp)] at hexec
    have hnone : pendingItem (u.shelf (shelfOf i)).work i .poll = none := by
      simpa using (Bool.or_eq_false_iff.1 hpend).1
    rcases submit_new i .busController (cmd := .poll) hnone with ⟨a, ha, hsilent, hsub⟩ | ⟨v, hsub, hbus, hpending⟩
    · have hquiet : carryOut 1 (submit i .poll .busController u).2 (submit i .poll .busController u).1 = some u := by
        rw [hsub]
        exact carryOut_quiet (by rcases ha with rfl | rfl <;> rfl)
      refine ⟨startTx u, hexec.trans (conclude_of (by decide) hquiet), fun j hj => ?_, ?_, fun hd hs => ?_⟩
      · rw [startTx_slot]; exact hothers j hj
      · rw [startTx_slot]; exact huslot
      · rw [huslot] at hsilent
        rw [hsilent hd] at hs
        cases hs
    · refine ⟨startTx v, hexec.trans (by rw [hsub]; exact conclude_nil v), fun j hj => ?_, ?_, fun _ _ => ?_⟩
      · rw [startTx_slot, hbus.slot]; exact hothers j hj
      · rw [startTx_slot, hbus.slot]; exact huslot
      · exact hpending.startTx.pendingOrInFlight rfl

/-! ## A reply window closes (R50, R61) -/

/-- The miss of a node clear concerns no slot (R96). -/
theorem nodeClear_missed (k : Shelf) (s : State) (n : NodeIx) (closes : Nat) (wire : Bool)
    (h : (s.shelf k).phase = .window
      { item := { shelf := k, slot := none, cmd := .nodeClear n, owner := .attentionUnit },
        node := some n, dropped := false, orphan := false } closes) :
    ∃ t, exec (.replyWindowClose k wire) s = .next t ∧ t.slots = s.slots ∧ t.flags = s.flags := by
  have hexec : exec (.replyWindowClose k wire) s = conclude (closing k wire s,
      [.answered { shelf := k, slot := none, cmd := .nodeClear n, owner := .attentionUnit } .noReply, .wireFree k]) := by
    simp only [exec, execReplyWindowClose, h]
    rfl
  have hbus := ((closing_busOnly k wire s).trans (nextNodeClear_busOnly k _)).trans (choose_busOnly k _)
  exact ⟨startTx (choose k (nextNodeClear k (closing k wire s))), hexec.trans (conclude_of (n := 2) (by decide) rfl),
    by rw [startTx_slots, hbus.slots], by rw [startTx_flags, hbus.flags]⟩

/-- The missed count of the slot's drive (R61). -/
def missedDrive (i : Slot) (m : Nat) (s : State) : State := s.modDrive i fun d => { d with missed := m }

/-- A miss of a drive that is not SILENT; one of the SHIP class counts as three (R61, R195). -/
theorem countMissed_noReply {i : Slot} {s : State} {d : DrivePart} (hd : (s.slot i).drive = some d)
    (hs : (s.slot i).silent = false) (ship : Bool) :
    countMissed i .noReply ship s =
      (missedDrive i (if ship then 3 else min 3 (d.missed + 1)) s,
        if ship = true ∨ 2 ≤ d.missed then [.unresponsive i] else []) := by
  have hthree : (if ship then 3 else min 3 (d.missed + 1)) = 3 ↔ ship = true ∨ 2 ≤ d.missed := by
    cases ship
    · simp only [Bool.false_eq_true, if_false, false_or]; omega
    · simp
  simp only [countMissed, hd, hs, Bool.false_or, and_true, hthree, missedDrive]

section
variable {k : Shelf} {s : State} {f : Flight} {i : Slot} {n : NodeIx} {d : DrivePart} (h : Answering k s f i n d)
include h

/-- The miss is told to the owner, counted, and the wire is free. -/
theorem Answering.misses (wire : Bool) (hc : isNodeClear f.item = false) (hq : isQuery f.item = false) :
    exec (.replyWindowClose k wire) s = conclude (closing k wire s, [.answered f.item .noReply] ++
      ([.counted i .noReply (decide (classOf f.item.cmd.kind = .ship))] ++ [.wireFree k])) := by
  obtain ⟨closes, hphase⟩ := h.window
  have hslot : slotOfNode (setWire k wire s) k n = some i := (slotOfNode_congr (fun _ => rfl) k n).trans h.slot
  have hunc : uncounted f .noReply = false := by simp [uncounted, h.dropped, hc]
  simp only [exec, execReplyWindowClose, hphase, endTransaction, hunc, h.node, h.dropped, h.orphan, hq, Option.bind_some,
    hslot, Bool.false_eq_true, if_false, Option.isSome_some, Bool.false_and, List.append_nil, List.append_assoc]
  rfl

/-- What a miss comes to whose owner has nothing to do: the count, what the third miss leads to, and the arbiter's
choice. -/
theorem Answering.missed {v : State} {m : Nat} (wire : Bool) (hc : isNodeClear f.item = false)
    (hq : isQuery f.item = false) (hs : (s.slot i).silent = false)
    (howner : ∀ t, act (.answered f.item .noReply) t = (t, [])) (hm : m ≤ 64)
    (hv : carryOut m (if classOf f.item.cmd.kind = .ship ∨ 2 ≤ d.missed then [.unresponsive i] else [])
      (missedDrive i (if classOf f.item.cmd.kind = .ship then 3 else min 3 (d.missed + 1)) (closing k wire s)) = some v) :
    exec (.replyWindowClose k wire) s = .next (startTx (choose k v)) := by
  have hbus := closing_busOnly k wire s
  have hcounted := countMissed_noReply (s := closing k wire s) (i := i) ((congrArg SlotRec.drive (hbus.slot i)).trans h.drive)
    ((congrArg SlotRec.silent (hbus.slot i)).trans hs) (decide (classOf f.item.cmd.kind = .ship))
  simp only [decide_eq_true_eq] at hcounted
  have hfree : carryOut 1 [.wireFree k] v = some (choose k v) := rfl
  rw [h.misses wire hc hq]
  exact conclude_of (n := 1 + (m + 1 + 1)) (by simp only [Config.tellBound]; omega)
    (carryOut_append (carryOut_quiet (howner _)) (carryOut_append (carryOut_act hcounted hv) hfree))
end

/-- The Bus Controller has nothing to do for a POLL that is missed. -/
theorem act_poll_missed {it : Item} (howner : it.owner = .busController) (t : State) :
    act (.answered it .noReply) t = (t, []) := by
  simp only [act, answerOwner, howner]
  cases hs : it.slot <;> simp only [pollAnswered, hs]

@[simp] theorem missedDrive_closing_slot (i : Slot) (m : Nat) (k : Shelf) (wire : Bool) (s : State) :
    (missedDrive i m (closing k wire s)).slot i =
      { s.slot i with drive := (s.slot i).drive.map fun d => { d with missed := m } } := by
  rw [missedDrive, State.modDrive_slot, (closing_busOnly ..).slot]

theorem missedDrive_closing_slot_ne {i j : Slot} (h : j ≠ i) (m : Nat) (k : Shelf) (wire : Bool) (s : State) :
    (missedDrive i m (closing k wire s)).slot j = s.slot j := by
  rw [missedDrive, State.modDrive_slot_ne _ h, (closing_busOnly ..).slot]

/-! ## The third stage of the ladder (R63, R67) -/

/-- A READY slot whose ladder has used two stages loses its drive to silence. -/
theorem unresponsive_silent {i : Slot} {s : State} (hl : (s.slot i).ladder = 2) (ho : (s.slot i).occ = .ready) :
    ∃ v, act (.unresponsive i) s = (v, []) ∧ OtherSlotsSame s v i ∧
      v.slot i = { s.slot i with ladder := 3, silent := true, pollTimer := none } ∧
      flagSet v (slotScope i) (slotFlagBit .unresponsive) = true := by
  refine ⟨raiseSlot i .unresponsive ((raiseSlot i .unresponsive (s.modSlot i fun r => { r with ladder := 3 })).modSlot i
    fun r => { r with silent := true, pollTimer := none }), ?_, fun j hj => ?_, ?_, flagSet_raiseSlot ..⟩
  · simp [act, unresponsive, hl, ladderSilent, ho]
  · rw [raiseSlot_slot, State.modSlot_slot_ne _ hj, raiseSlot_slot, State.modSlot_slot_ne _ hj]
  · simp

/-- The miss of a POLL, and the third one of a drive with two ladder stages used. -/
theorem poll_missed (k : Shelf) (s : State) (i : Slot) (n : NodeIx) (d : DrivePart) (closes : Nat) (wire : Bool)
    (hphase : (s.shelf k).phase = .window
      { item := { shelf := k, slot := some i, cmd := .poll, owner := .busController },
        node := some n, dropped := false, orphan := false } closes)
    (hd : (s.slot i).drive = some d) (hn : slotOfNode s k n = some i) (hs : (s.slot i).silent = false) :
    (d.missed < 2 →
      ∃ t, exec (.replyWindowClose k wire) s = .next t ∧ OtherSlotsSame s t i ∧
        t.slot i = { s.slot i with drive := some { d with missed := d.missed + 1 } } ∧ t.flags = s.flags) ∧
    (d.missed = 2 → (s.slot i).ladder = 2 → (s.slot i).occ = .ready →
      ∃ t, exec (.replyWindowClose k wire) s = .next t ∧ OtherSlotsSame s t i ∧
        t.slot i = { s.slot i with
          drive := some { d with missed := 3 }, ladder := 3, silent := true, pollTimer := none } ∧
        flagSet t (slotScope i) (slotFlagBit .unresponsive) = true) := by
  have h : Answering k s _ i n d := ⟨⟨closes, hphase⟩, rfl, rfl, rfl, hd, hn⟩
  refine ⟨fun hlt => ?_, fun heq hl ho => ?_⟩
  · let u := missedDrive i (d.missed + 1) (closing k wire s)
    have hbus := choose_busOnly k u
    refine ⟨_, h.missed (m := 0) (v := u) wire rfl rfl hs (act_poll_missed rfl) (by decide) ?_, fun j hj => ?_, ?_, ?_⟩
    · have hcount : min 3 (d.missed + 1) = d.missed + 1 := by omega
      simp only [BusCmd.kind, classOf, reduceCtorEq, if_false, hcount, false_or, Nat.not_le.2 hlt]
      exact carryOut_nil ..
    · rw [startTx_slot, hbus.slot, missedDrive_closing_slot_ne hj]
    · rw [startTx_slot, hbus.slot, missedDrive_closing_slot, hd]; rfl
    · rw [startTx_flags, hbus.flags]; rfl
  · obtain ⟨v, hact, hothers, hslot, hflag⟩ := unresponsive_silent (s := missedDrive i 3 (closing k wire s)) (i := i)
      (by simpa using hl) (by simpa using ho)
    have hbus := choose_busOnly k v
    refine ⟨_, h.missed (m := 1) (v := v) wire rfl rfl hs (act_poll_missed rfl) (by decide) ?_, fun j hj => ?_, ?_, ?_⟩
    · simp only [BusCmd.kind, classOf, reduceCtorEq, if_false, heq, le_refl, or_true, if_true]
      exact carryOut_quiet hact
    · rw [startTx_slot, hbus.slot, hothers j hj, missedDrive_closing_slot_ne hj]
    · rw [startTx_slot, hbus.slot, hslot, missedDrive_closing_slot, hd]; rfl
    · rw [flagSet_startTx, flagSet_congr hbus.flags, hflag]

/-- Settles O45: the timer, the miss that is counted for no one, and the misses that are. -/
theorem pollsAndMisses : Obligations.PollsAndMisses := by
  unfold Obligations.PollsAndMisses
  exact ⟨fun i s h => pollTimer_expires h, nodeClear_missed, poll_missed⟩

end Sys2Proof.Machine
end

