-- ==== Sys2Proof/Proofs/Interruptions.lean ====
section
/-! SUPPORT. What INTERRUPTED does to the current phase: a test is suspended or ends, a POWER_CYCLE goes back in its
steps (R124, R125). -/

namespace Sys2Proof.Machine

/-! ## The suspension of a test (R125) -/

/-- The body of a phase whose test an interruption suspends: a SOAK, or a DRIVE_TEST that has been interrupted at most
twice. -/
def Suspends (run : Run) (body : PhaseBody) : Prop :=
  (∃ code wall target low high limit, body = .soak code wall target low high limit) ∨
    ((∃ code scan wall, body = .driveTest code scan wall) ∧ run.interruptions ≤ 2)

/-- The run as its test is suspended. -/
def Run.suspendedBy (reason : Interruption) (run : Run) : Run :=
  addReason reason { countInterruption run with state := .suspended, wallTimer := none }

theorem Run.suspendedBy_eq (reason : Interruption) (run : Run) : run.suspendedBy reason =
    { run with
      interruptions := min 255 (run.interruptions + 1), state := .suspended, wallTimer := none
      suspShed := run.suspShed || decide (reason = .shed)
      suspRecovery := run.suspRecovery || decide (reason = .recovery) } := by
  cases reason <;> simp [suspendedBy, addReason, countInterruption, satAdd]

/-- The slot with its test suspended, before a STOP_TEST is submitted. -/
def suspending (i : Slot) (reason : Interruption) (s : State) : State :=
  raiseSlot i .suspended (withdrawItem i .startTest (s.modRun i (Run.suspendedBy reason)))

theorem suspending_slot (i : Slot) (reason : Interruption) (s : State) : (suspending i reason s).slot i =
    { s.slot i with run := (s.slot i).run.map (Run.suspendedBy reason) } := by
  rw [suspending, raiseSlot_slot, (withdrawItem_busOnly ..).slot, State.modRun_slot]

theorem suspending_workWithin (i : Slot) (reason : Interruption) (s : State) :
    WorkWithin (shelfOf i) s (suspending i reason s) := by
  intro it hit
  simp only [suspending, raiseSlot_shelf, withdrawItem, State.modShelf_shelf, State.modRun_shelf] at hit
  exact List.mem_of_mem_filter hit

theorem suspending_shelf (i : Slot) (reason : Interruption) (s : State) : (suspending i reason s).shelf (shelfOf i) =
    { s.shelf (shelfOf i) with work := ((suspending i reason s).shelf (shelfOf i)).work } := by
  simp [suspending, withdrawItem]

theorem flagSet_suspending (i : Slot) (reason : Interruption) (s : State) :
    flagSet (suspending i reason s) (slotScope i) (slotFlagBit .suspended) = true := flagSet_raiseSlot ..

theorem suspending_flagSet {i : Slot} {reason : Interruption} {s : State} {c : Scope} {bit : Nat}
    (h : flagSet s c bit = true) : flagSet (suspending i reason s) c bit = true := flagSet_setFlagBit_of (by exact h) _ _

section
variable {i : Slot} {s : State} {run : Run} {body : PhaseBody} {onFail : OnFail} (hrun : (s.slot i).run = some run)
  (hphase : phaseRec s run = some { body := body, onFail := onFail })
include hrun hphase

/-- A test that is starting or running is suspended; where it runs on a bound drive it is stopped. -/
theorem interrupted_suspends (reason : Interruption) (hstate : run.state = .starting ∨ run.state = .running)
    (hbody : Suspends run body) :
    act (.interrupted i reason) s =
      if testGoing s i run then submit i (.stopTest true) .planRunner (suspending i reason s)
      else (suspending i reason s, []) := by
  have hgoing : testGoing (s.modRun i countInterruption) i run = testGoing s i run := by
    simp only [testGoing, State.modRun_slot]; rfl
  have hsuspend : suspend i reason run (s.modRun i countInterruption) =
      if testGoing s i run then submit i (.stopTest true) .planRunner (suspending i reason s)
      else (suspending i reason s, []) := by
    have hmod : (s.modRun i countInterruption).modRun i (fun run =>
        addReason reason { run with state := .suspended, wallTimer := none }) = s.modRun i (Run.suspendedBy reason) := by
      simp only [State.modRun, State.modSlot_modSlot]
      exact State.modSlot_congr (by simp only [Function.comp_apply, Option.map_map]; rfl)
    simp only [suspend, hgoing, hmod]
    rfl
  have hact : act (.interrupted i reason) s = suspend i reason run (s.modRun i countInterruption) := by
    rcases hbody with ⟨code, wall, target, low, high, limit, rfl⟩ | ⟨⟨code, scan, wall, rfl⟩, hle⟩
    · rcases hstate with hstate | hstate <;> simp only [act, interrupted, hrun, hphase, hstate]
    · have hfew : ¬4 ≤ run.interruptions + 1 := by omega
      rcases hstate with hstate | hstate <;> simp only [act, interrupted, hrun, hphase, hstate, hfew, if_false]
  exact hact.trans hsuspend

/-- The fourth interruption of a DRIVE_TEST whose drive has gone ends its phase at once (R120, R125). -/
theorem interrupted_ends (reason : Interruption) (hstate : run.state = .starting ∨ run.state = .running)
    (hbody : ∃ code scan wall, body = .driveTest code scan wall) (hmany : 3 ≤ run.interruptions)
    (hdec : run.decided = none) (hdrive : (s.slot i).drive = none) :
    act (.interrupted i reason) s = (s.modRun i fun run =>
      { countInterruption run with
        decided := some (run.decided.getD (failVerdict .interrupted)), state := .ended }, [.phaseEnded i]) := by
  obtain ⟨code, scan, wall, rfl⟩ := hbody
  have hfour : 4 ≤ run.interruptions + 1 := by omega
  let u := s.modRun i countInterruption
  have hurun : (u.slot i).run = some (countInterruption run) := by simp [u, hrun]
  have hgoing : testGoing u i (countInterruption run) = false := by
    have hud : (u.slot i).drive = none := by simpa [u] using hdrive
    simp [testGoing, hud]
  have hundecided : ¬((countInterruption run).decided.isSome = true ∨ (countInterruption run).state = .ended) := by
    have hd : (countInterruption run).decided = none := hdec
    have hs : (countInterruption run).state = run.state := rfl
    rw [hd, hs]
    rcases hstate with h | h <;> simp [h]
  have hend : endCause i (failVerdict .interrupted) false u = endAtOnce i (failVerdict .interrupted) u := by
    simp only [endCause, hurun, if_neg hundecided, hgoing, Bool.false_and, Bool.false_eq_true, if_false]
  have hact : act (.interrupted i reason) s = endCause i (failVerdict .interrupted) false u := by
    rcases hstate with h | h <;> simp only [act, interrupted, hrun, hphase, h, hfour, if_true, u]
  rw [hact, hend]
  simp only [endAtOnce, u, State.modRun, State.modSlot_modSlot]
  refine congrArg₂ Prod.mk (State.modSlot_congr ?_) rfl
  simp only [Function.comp_apply, Option.map_map]
  rfl

/-! ## The interruption of a POWER_CYCLE (R124) -/

/-- In its on time, and while it waits for spin, a POWER_CYCLE goes back to SPIN where the drive is bound, and to ATTACH
where it has gone. -/
theorem interrupted_cycle (reason : Interruption) (hbody : ∃ cycles off on, body = .powerCycle cycles off on)
    (hstate : run.state = .running) (hstep : run.cycleStep = some .onTime ∨ run.cycleStep = some .spin) :
    act (.interrupted i reason) s =
      let back := fun (step : CycleStep) => s.modRun i fun run =>
        { countInterruption run with cycleStep := some step, offTimer := none, onTimer := none }
      if (s.slot i).drive.isSome then (back .spin, [.requestSpin i]) else (back .attach, []) := by
  obtain ⟨cycles, off, on, rfl⟩ := hbody
  have hmod : ∀ step : CycleStep, toStep i step (s.modRun i countInterruption) = s.modRun i fun run =>
      { countInterruption run with cycleStep := some step, offTimer := none, onTimer := none } := fun step => by
    simp only [toStep, State.modRun, State.modSlot_modSlot]
    refine State.modSlot_congr ?_
    simp only [Function.comp_apply, Option.map_map]
    rfl
  have hcycle : act (.interrupted i reason) s = interruptCycle i run (s.modRun i countInterruption) := by
    simp only [act, interrupted, hrun, hphase, hstate]
  rw [hcycle]
  rcases hstep with h | h <;> simp only [interruptCycle, h, hmod, State.modRun_slot]
end

end Sys2Proof.Machine
end

