-- ==== Sys2Proof/Proofs/LadderPulse.lean ====
section
/-! SUPPORT. The stages of the recovery ladder that bring a slot's drive back: the reset pulse and the power cycle
(R64 to R66), and what a miss that counts as the third leads to (R61, R62, R195). -/

namespace Sys2Proof.Machine

/-! ## Spin-down without a power request (R40) -/

/-- The record with the draw and the spin window of another. -/
def SlotRec.withSpin (r b : SlotRec) : SlotRec :=
  { r with cls := b.cls, spinRank := b.spinRank, spinTimer := b.spinTimer, spinReq := b.spinReq }

/-- A slot that waits for no power keeps all but its draw and its spin window at a spin-down. -/
theorem spinDown_slot {i : Slot} {s : State} (hp : hasEntry s i .power = false) :
    (spinDown i s).slot i = (s.slot i).withSpin ((spinDown i s).slot i) := by
  refine spinDown_keeps (P := fun r => r = (s.slot i).withSpin r) (fun e he hi t ht => ?_) (fun _ => rfl) rfl
  obtain ⟨f, hf, ⟨_, _, hk, -⟩ | ⟨rank, window, -, hrec⟩⟩ := grant_eq e t
  · exact absurd hk (hasEntry_eq_false.1 hp e he hi)
  · rw [hf, hi, State.modSlot_slot, hrec, ht]
    rfl

theorem spinDown_no_spin (i : Slot) (s : State) : hasEntry (spinDown i s) i .spin = false := withdrawEntry_hasEntry ..

/-- A powered slot that waits for nothing, or is idle already, draws its idle draw after a spin-down. -/
theorem spinDown_idle {i : Slot} {s : State} (hc : (s.slot i).cls ≠ .off) (hp : hasEntry s i .power = false)
    (hs : hasEntry s i .spin = true → (s.slot i).cls = .idle) : ((spinDown i s).slot i).cls = .idle := by
  have hcls : ∀ u : State, ((withdrawEntry i .spin u).slot i).cls = (u.slot i).cls := fun u => by
    rw [withdrawEntry_slot]; split <;> rfl
  have hexam : (s.slot i).cls ≠ .idle → ((examine (shelfOf i) (toIdle i s)).slot i).cls = .idle := fun hne => by
    have hspin : hasEntry s i .spin = false := by simpa using fun h => hne (hs h)
    rw [examine_slot (by exact queued_of_hasEntry hp hspin), toIdle, State.modSlot_slot]
  unfold spinDown
  rw [hcls]
  split
  · next h => exact hexam (by simp [h])
  · next h => exact hexam (by simp [h])
  · next hi hr => cases h : (s.slot i).cls <;> simp_all

/-- A drive part whose slot holds no attention record goes without a mark on the run (R105). -/
theorem discardDrive_run {i : Slot} {s : State} (ha : (s.slot i).attn = none) :
    ((discardDrive i s).1.slot i).run = (s.slot i).run := by
  unfold discardDrive
  split
  · rfl
  · next d _ =>
    have hkept : discardRecord i (setNode (shelfOf i) d.node .free s) = setNode (shelfOf i) d.node .free s :=
      if_pos (by show (s.slot i).attn.isNone = true; simp [ha])
    rw [hkept, (dropWork_busOnly ..).slot, State.modSlot_slot]
    rfl

/-! ## Stage 1: the reset pulse (R64, R65) -/

theorem SlotRec.movedTo_booting (r : SlotRec) :
    r.movedTo .booting = { r with occ := .booting, con := (r.movedTo .booting).con } := by
  rw [SlotRec.movedTo_frame]
  unfold SlotRec.movedTo
  split
  · rfl
  · split <;> rfl

/-- The slot with its reset pulse running, its drive part still to be discarded. -/
def pulsing (i : Slot) (s : State) : State :=
  let u := (spinDown i s).modSlot i fun r =>
    { r with
      pulseTimer := (spinDown i s).after 200, adm := .booting
      ladderInReady := r.ladderInReady || decide ((s.slot i).occ = .ready) }
  if (s.slot i).occ = .ready ∨ (s.slot i).occ = .testing then setOcc i .booting u else u

theorem ladderPulse_eq (i : Slot) (s : State) : ladderPulse i s =
    ((discardDrive i (pulsing i s)).1, (discardDrive i (pulsing i s)).2 ++
      (if (s.slot i).occ = .testing then [.interrupted i .recovery] else []) ++
      (if (s.slot i).occ = .shipping then [.shipFail i .resetPulse] else [])) := rfl

/-- The record of a slot as its reset pulse starts. -/
def SlotRec.pulsing (r b : SlotRec) (ends : Nat) : SlotRec :=
  { r.withSpin b with
    occ := if r.occ = .ready ∨ r.occ = .testing then .booting else r.occ
    adm := .booting, ladderInReady := r.ladderInReady || decide (r.occ = .ready), pulseTimer := some ends
    con := b.con }

theorem pulsing_slot {i : Slot} {s : State} (hp : hasEntry s i .power = false) :
    (pulsing i s).slot i = (s.slot i).pulsing ((pulsing i s).slot i) (s.now + 200) ∧
      ((pulsing i s).slot i).cls = ((spinDown i s).slot i).cls := by
  have hdown := spinDown_slot hp
  unfold pulsing
  simp only [State.after, (spinDown_granted i s).now]
  split
  · next h =>
    simp only [setOcc_slot, State.modSlot_slot, SlotRec.movedTo_cls, and_true]
    rw [SlotRec.movedTo_booting, hdown, SlotRec.pulsing, if_pos h]
    rfl
  · next h =>
    simp only [State.modSlot_slot, and_true]
    rw [hdown, SlotRec.pulsing, if_neg h]
    rfl

section
variable (i : Slot) (s : State)

theorem pulsing_shelf (l : Shelf) : (pulsing i s).shelf l = (spinDown i s).shelf l := by
  unfold pulsing; dsimp only; split <;> simp

theorem pulsing_flags : (pulsing i s).flags = s.flags := by
  refine Eq.trans ?_ (spinDown_granted i s).flags
  unfold pulsing
  dsimp only
  split
  · exact setOcc_flags _ _ (by decide)
  · rfl

theorem pulsing_changed : Changed s (pulsing i s) := by
  refine (spinDown_granted i s).changed.trans ?_
  unfold pulsing
  dsimp only
  split
  · exact setOcc_changed _ _ (.slots _ (.refl _))
  · exact .slots _ (.refl _)

theorem pulsing_noWork (hw : NoWork s i) : NoWork (pulsing i s) i := fun it hit => by
  rw [pulsing_shelf] at hit
  exact (spinDown_granted i s).noWork hw it hit

theorem pulsing_hasEntry (kind : EntryKind) : hasEntry (pulsing i s) i kind = hasEntry (spinDown i s) i kind :=
  hasEntry_congr (by rw [pulsing_shelf]) kind
end

/-- What stage 1 of the ladder leaves of a slot whose drive is bound. -/
structure Pulsed (i : Slot) (d : DrivePart) (s u : State) : Prop where
  slot : u.slot i = { (s.slot i).pulsing (u.slot i) (s.now + 200) with
    drive := none, silent := false, pollTimer := none, poll := none, temp := TempRec.reset, attn := none
    summary := (u.slot i).summary, reports := (u.slot i).reports, run := (u.slot i).run }
  run : (s.slot i).attn = none → (u.slot i).run = (s.slot i).run
  idle : (s.slot i).cls ≠ .off → (hasEntry s i .spin = true → (s.slot i).cls = .idle) → (u.slot i).cls = .idle
  node : (u.shelf (shelfOf i)).nodes[d.node] = .free
  noWork : NoWork u i
  no_power : hasEntry u i .power = false
  no_spin : hasEntry u i .spin = false
  flags : u.flags = s.flags
  changed : Changed s u

theorem discard_pulses {i : Slot} {d : DrivePart} {s : State} (hd : (s.slot i).drive = some d) (hw : NoWork s i)
    (hp : hasEntry s i .power = false) : ∃ u, Pulsed i d s u ∧ discardDrive i (pulsing i s) = (u, []) := by
  obtain ⟨hslot, hcls⟩ := pulsing_slot hp
  have hdrive : ((pulsing i s).slot i).drive = some d := by rw [hslot]; exact hd
  obtain ⟨u, hdis, huslot, -, hnode, hnw, hqueue, -, -, hflags, hch⟩ := discardDrive_some hdrive (pulsing_noWork i s hw)
  have hentry : ∀ kind, hasEntry u i kind = hasEntry (spinDown i s) i kind := fun kind =>
    (hasEntry_congr (hqueue _) kind).trans (pulsing_hasEntry i s kind)
  have hrec : (s.slot i).pulsing (u.slot i) (s.now + 200) =
      { (s.slot i).pulsing ((pulsing i s).slot i) (s.now + 200) with con := (u.slot i).con } := by
    rw [huslot, hslot]; rfl
  refine ⟨u, ⟨?_, fun ha => ?_, fun hc hs => ?_, hnode, hnw, ?_, ?_, ?_, ?_⟩, hdis⟩
  · rw [hrec]
    conv_lhs => rw [huslot, hslot]
  · have hrun := discardDrive_run (i := i) (s := pulsing i s) (by rw [hslot]; exact ha)
    rw [hdis] at hrun
    rw [hrun, hslot]
    rfl
  · rw [huslot]
    exact hcls.trans (spinDown_idle hc hp hs)
  · rw [hentry]; exact (spinDown_granted i s).hasEntry hp
  · rw [hentry]; exact spinDown_no_spin i s
  · rw [hflags, pulsing_flags]
  · exact (pulsing_changed i s).trans hch

/-- The slot as its ladder goes to a stage: UNRESPONSIVE is set. -/
def staged (i : Slot) (stage : Nat) (s : State) : State :=
  raiseSlot i .unresponsive (s.modSlot i fun r => { r with ladder := stage })

/-- The first stage of the ladder. -/
theorem unresponsive_pulses {i : Slot} {d : DrivePart} {s : State} (hl : (s.slot i).ladder = 0)
    (hd : (s.slot i).drive = some d) (hw : NoWork s i) (hp : hasEntry s i .power = false) :
    ∃ u, Pulsed i d (staged i 1 s) u ∧ act (.unresponsive i) s = (u,
      (if (s.slot i).occ = .testing then [.interrupted i .recovery] else []) ++
        (if (s.slot i).occ = .shipping then [.shipFail i .resetPulse] else [])) := by
  have hslot : (staged i 1 s).slot i = { s.slot i with ladder := 1 } := by simp [staged]
  have hshelf : ∀ l, (staged i 1 s).shelf l = s.shelf l := fun l => by simp [staged]
  obtain ⟨u, hu, hdis⟩ := discard_pulses (i := i) (d := d) (s := staged i 1 s) (by rw [hslot]; exact hd)
    (fun it hit => hw it (by rwa [hshelf] at hit)) ((hasEntry_congr (by rw [hshelf]) _).trans hp)
  refine ⟨u, hu, ?_⟩
  have hact : act (.unresponsive i) s = ladderPulse i (staged i 1 s) := by
    simp only [act, unresponsive, hl]
    rfl
  rw [hact, ladderPulse_eq, hdis, hslot]
  rfl

/-! ## The miss that counts as the third (R61, R195) -/

section
variable (k : Shelf) (v : State)
theorem chosen_slot (j : Slot) : (startTx (choose k v)).slot j = v.slot j := by rw [startTx_slot, (choose_busOnly k v).slot]
theorem chosen_nodes : ((startTx (choose k v)).shelf k).nodes = (v.shelf k).nodes := by
  rw [startTx_shelf, (choose_busOnly k v).nodes]
theorem chosen_flagSet (c : Scope) (bit : Nat) : flagSet (startTx (choose k v)) c bit = flagSet v c bit := by
  rw [flagSet_startTx, flagSet_congr (choose_busOnly k v).flags]
theorem chosen_hasEntry (j : Slot) (kind : EntryKind) : hasEntry (startTx (choose k v)) j kind = hasEntry v j kind :=
  hasEntry_congr (by rw [startTx_shelf, (choose_busOnly k v).queue]) kind
end

/-- The state in which a slot's third miss is told. -/
def thrice (i : Slot) (wire : Bool) (s : State) : State := missedDrive i 3 (closing (shelfOf i) wire s)

section
variable (i : Slot) (wire : Bool) (s : State)
theorem thrice_slot : (thrice i wire s).slot i =
    { s.slot i with drive := (s.slot i).drive.map fun d => { d with missed := 3 } } := missedDrive_closing_slot ..
theorem thrice_shelf (l : Shelf) : (thrice i wire s).shelf l = (closing (shelfOf i) wire s).shelf l := rfl
theorem thrice_hasEntry (j : Slot) (kind : EntryKind) : hasEntry (thrice i wire s) j kind = hasEntry s j kind :=
  hasEntry_congr ((closing_busOnly (shelfOf i) wire s).queue _) kind
theorem thrice_changed : Changed s (thrice i wire s) :=
  (closing_busOnly (shelfOf i) wire s).changed.trans (.slots _ (.refl _))
theorem thrice_enabled (l : Shelf) : ((thrice i wire s).shelf l).enabled = (s.shelf l).enabled :=
  (closing_busOnly (shelfOf i) wire s).enabled l
end

section
variable {s : State} {i : Slot} {n : NodeIx} {d : DrivePart} {cmd : BusCmd} {owner : Owner}
  (h : SlotWindow s i n d cmd owner)
include h

theorem SlotWindow.answering : Answering (shelfOf i) s
    { item := slotItem i cmd owner, node := some n, dropped := false, orphan := false } i n d := by
  obtain ⟨hwindow, hdrive, hslot, -, -⟩ := h
  exact ⟨hwindow, rfl, rfl, rfl, hdrive, hslot⟩

theorem SlotWindow.node : d.node = n := by
  obtain ⟨-, hdrive, hslot, -, -⟩ := h
  have hfound := List.find?_some hslot
  rw [hdrive] at hfound
  exact of_decide_eq_true hfound

theorem SlotWindow.noWork_thrice (wire : Bool) : NoWork (thrice i wire s) i := by
  obtain ⟨-, -, -, -, hw⟩ := h
  exact fun it hit => hw it (by simpa [thrice_shelf] using hit)

/-- What is left of a third miss whose owner has nothing to do. -/
theorem SlotWindow.third {v : State} {m : Nat} (wire : Bool) (hc : isNodeClear (slotItem i cmd owner) = false)
    (hq : isQuery (slotItem i cmd owner) = false)
    (howner : ∀ t, act (.answered (slotItem i cmd owner) .noReply) t = (t, []))
    (hcount : classOf cmd.kind = .ship ∨ d.missed = 2) (hm : m ≤ 64)
    (hv : carryOut m [.unresponsive i] (thrice i wire s) = some v) :
    exec (.replyWindowClose (shelfOf i) wire) s = .next (startTx (choose (shelfOf i) v)) := by
  obtain ⟨-, -, -, hsilent, -⟩ := id h
  refine h.answering.missed wire hc hq hsilent howner hm ?_
  have hthird : classOf (slotItem i cmd owner).cmd.kind = .ship ∨ 2 ≤ d.missed := hcount.imp id fun h => by omega
  have hthree : (if classOf (slotItem i cmd owner).cmd.kind = .ship then 3 else min 3 (d.missed + 1)) = 3 := by
    split
    · rfl
    · next hne => have := hthird.resolve_left hne; omega
  rw [if_pos hthird, hthree]
  exact hv

/-- The first stage of the ladder at a third miss. -/
theorem SlotWindow.pulses (wire : Bool) (hl : (s.slot i).ladder = 0) (hp : hasEntry s i .power = false) :
    ∃ u, Pulsed i { d with missed := 3 } (staged i 1 (thrice i wire s)) u ∧ act (.unresponsive i) (thrice i wire s) = (u,
      (if (s.slot i).occ = .testing then [.interrupted i .recovery] else []) ++
        (if (s.slot i).occ = .shipping then [.shipFail i .resetPulse] else [])) := by
  obtain ⟨-, hdrive, -, -, -⟩ := id h
  have hslot := thrice_slot i wire s
  have hpulse := unresponsive_pulses (d := { d with missed := 3 }) (by rw [hslot]; exact hl)
    (by rw [hslot, hdrive]; rfl) (h.noWork_thrice wire) ((thrice_hasEntry ..).trans hp)
  rwa [hslot] at hpulse
end

/-- A reset pulse runs on a slot without its drive, whose node is free. -/
def PulseRuns (i : Slot) (n : NodeIx) (ends : Nat) (t : State) : Prop :=
  (t.slot i).ladder = 1 ∧ (t.slot i).pulseTimer = some ends ∧ (t.slot i).adm = .booting ∧ (t.slot i).cls = .idle ∧
    (t.slot i).drive = none ∧ (t.slot i).silent = false ∧ (t.shelf (shelfOf i)).nodes[n] = .free ∧
    flagSet t (slotScope i) (slotFlagBit .unresponsive) = true

theorem PulseRuns.of_same {i : Slot} {n : NodeIx} {ends : Nat} {u t : State} (h : PulseRuns i n ends u)
    (hslot : t.slot i = { u.slot i with run := (t.slot i).run, ship := (t.slot i).ship })
    (hnodes : (t.shelf (shelfOf i)).nodes = (u.shelf (shelfOf i)).nodes)
    (hflag : flagSet u (slotScope i) (slotFlagBit .unresponsive) = true →
      flagSet t (slotScope i) (slotFlagBit .unresponsive) = true) : PulseRuns i n ends t := by
  obtain ⟨hladder, hpulse, hadm, hcls, hdrive, hsilent, hnode, hset⟩ := h
  unfold PulseRuns
  rw [hslot, hnodes]
  exact ⟨hladder, hpulse, hadm, hcls, hdrive, hsilent, hnode, hflag hset⟩

section
variable {s u : State} {i : Slot} {d : DrivePart} {wire : Bool} (h : Pulsed i d (staged i 1 (thrice i wire s)) u)
include h

/-- The slot's record, read off the state in which the window closed. -/
theorem Pulsed.of_thrice : (u.slot i).occ = (if (s.slot i).occ = .ready ∨ (s.slot i).occ = .testing then .booting
      else (s.slot i).occ) ∧
    (u.slot i).ladderInReady = ((s.slot i).ladderInReady || decide ((s.slot i).occ = .ready)) ∧
    (u.slot i).reservation = (s.slot i).reservation ∧ (u.slot i).ship = (s.slot i).ship ∧
    ((s.slot i).attn = none → (u.slot i).run = (s.slot i).run) := by
  have hslot : (staged i 1 (thrice i wire s)).slot i =
      { s.slot i with ladder := 1, drive := (s.slot i).drive.map fun d => { d with missed := 3 } } := by
    simp [staged, thrice_slot]
  have hu := h.slot
  have hrun := h.run
  rw [hslot] at hu hrun
  rw [hu]
  exact ⟨rfl, rfl, rfl, rfl, hrun⟩

theorem Pulsed.runs (hc : (s.slot i).cls ≠ .off) (hs : hasEntry s i .spin = true → (s.slot i).cls = .idle) :
    PulseRuns i d.node (s.now + 200) u := by
  have hslot : (staged i 1 (thrice i wire s)).slot i =
      { s.slot i with ladder := 1, drive := (s.slot i).drive.map fun d => { d with missed := 3 } } := by
    simp [staged, thrice_slot]
  have hnow : (staged i 1 (thrice i wire s)).now = s.now := (raiseSlot_now ..).trans (thrice_changed i wire s).now_eq
  have hentry : hasEntry (staged i 1 (thrice i wire s)) i .spin = hasEntry s i .spin :=
    (hasEntry_congr (by simp [staged]) _).trans (thrice_hasEntry i wire s i .spin)
  have hidle := h.idle
  have hu := h.slot
  rw [hslot, hentry] at hidle
  rw [hslot, hnow] at hu
  have hflag : flagSet u (slotScope i) (slotFlagBit .unresponsive) = true := by
    rw [flagSet_congr h.flags]
    exact flagSet_raiseSlot ..
  exact ⟨congrArg SlotRec.ladder hu, congrArg SlotRec.pulseTimer hu, congrArg SlotRec.adm hu, hidle hc hs,
    congrArg SlotRec.drive hu, congrArg SlotRec.silent hu, h.node, hflag⟩
end

/-! ## Stage 2: the power cycle (R66) -/

/-- The ladder's request for power, of a slot that a power-off has just left in READY or BIN_WAIT: BIN_WAIT stays off, and
READY waits for its power or has it. -/
theorem ladder_requests {i : Slot} {u : State} (hc : (u.slot i).cls = .off)
    (ho : (u.slot i).occ = .ready ∨ (u.slot i).occ = .binWait) :
    let t := requestPower i .ladder u
    (t.slot i).ladder = (u.slot i).ladder ∧ (t.slot i).drive = (u.slot i).drive ∧ t.flags = u.flags ∧
      ((u.slot i).occ = .binWait → t = u) ∧
      ((u.slot i).occ = .ready → (u.shelf (shelfOf i)).enabled = true → (u.slot i).unlocked = false →
        ((t.slot i).occ = .powerWait ∧ (t.slot i).adm = .queued ∧ (t.slot i).cls = .off ∧ hasEntry t i .power = true) ∨
          ((t.slot i).occ = .booting ∧ (t.slot i).adm = .booting ∧ (t.slot i).cls = .idle)) := by
  intro t
  have hreleased : released (u.slot i) = (u.slot i).unlocked := by
    rcases ho with h | h <;> simp [released, h]
  by_cases hstays : (u.shelf (shelfOf i)).enabled = false ∨ released (u.slot i) = true ∨ (u.slot i).occ = .binWait
  · have ht : t = u := by
      simp only [t, requestPower, hc, ne_eq, not_true_eq_false, if_false, true_and]
      split
      · rfl
      · next hne => exact if_pos (by tauto)
    rw [ht]
    refine ⟨rfl, rfl, rfl, fun _ => rfl, fun hready hen hun => ?_⟩
    rw [hreleased, hen, hun, hready] at hstays
    simp at hstays
  · obtain ⟨hen, hrel, hbin⟩ : (u.shelf (shelfOf i)).enabled = true ∧ released (u.slot i) = false ∧
        (u.slot i).occ ≠ .binWait := by simpa using hstays
    have hready := ho.resolve_right hbin
    obtain ⟨hasked, hslot⟩ := requestPower_settled (by_ := .ladder) hc hen hrel fun _ => hbin
    have hwaits : ({ u.slot i with adm := Admission.queued } : SlotRec).movedTo .powerWait =
        { u.slot i with adm := .queued, occ := .powerWait } :=
      SlotRec.movedTo_plain _ (by simp [hready]) (by decide)
    have hmoves : ¬((u.slot i).occ = .binWait ∨ (u.slot i).occ = .shipping) := by simp [hready]
    rw [if_neg hmoves, hwaits] at hslot
    rcases hslot with ⟨hslot, hentry⟩ | hslot
    · exact ⟨(congrArg SlotRec.ladder hslot :), (congrArg SlotRec.drive hslot :), hasked.flags, fun h => absurd h hbin,
        fun _ _ _ => .inl ⟨congrArg SlotRec.occ hslot, congrArg SlotRec.adm hslot,
          (congrArg SlotRec.cls hslot).trans hc, hentry⟩⟩
    · unfold PoweredFrom at hslot
      exact ⟨(congrArg SlotRec.ladder hslot :), (congrArg SlotRec.drive hslot :), hasked.flags, fun h => absurd h hbin,
        fun _ _ _ => .inr ⟨congrArg SlotRec.occ hslot, congrArg SlotRec.adm hslot, congrArg SlotRec.cls hslot⟩⟩

/-- The slot as stage 2 of its ladder begins. -/
def cycling (i : Slot) (s : State) : State :=
  (staged i 2 s).modSlot i fun r => { r with ladderInReady := r.ladderInReady || decide ((s.slot i).occ = .ready) }

theorem cycling_slot (i : Slot) (s : State) : (cycling i s).slot i = { s.slot i with
    ladder := 2, ladderInReady := (s.slot i).ladderInReady || decide ((s.slot i).occ = .ready) } := by
  simp [cycling, staged]

theorem cycling_shelf (i : Slot) (s : State) (l : Shelf) : (cycling i s).shelf l = s.shelf l := by simp [cycling, staged]

/-- The second stage of the ladder, in READY or BIN_WAIT. -/
theorem unresponsive_cycles {i : Slot} {s : State} (hl : (s.slot i).ladder = 1)
    (ho : (s.slot i).occ = .ready ∨ (s.slot i).occ = .binWait) :
    act (.unresponsive i) s = (cycling i s, [.powerOff i, .requestPower i .ladder]) := by
  have hslot : (staged i 2 s).slot i = { s.slot i with ladder := 2 } := by simp [staged]
  have hcycle : ladderCycle i (staged i 2 s) = (cycling i s, [.powerOff i, .requestPower i .ladder]) := by
    unfold ladderCycle
    rw [hslot]
    rcases ho with h | h <;> simp only [h, reduceCtorEq, if_false, List.append_nil, cycling] <;> rfl
  simp only [act, unresponsive, hl]
  exact hcycle

theorem SlotWindow.cycles {s : State} {i : Slot} {n : NodeIx} {d : DrivePart} (h : SlotWindow s i n d .poll .busController)
    (wire : Bool) (hc : (s.slot i).cls ≠ .off) (hmissed : d.missed = 2) (hl : (s.slot i).ladder = 1)
    (ho : (s.slot i).occ = .ready ∨ (s.slot i).occ = .binWait) :
    ∃ t, exec (.replyWindowClose (shelfOf i) wire) s = .next t ∧ (t.slot i).ladder = 2 ∧ (t.slot i).drive = none ∧
      flagSet t (slotScope i) (slotFlagBit .unresponsive) = true ∧
      ((s.slot i).occ = .binWait → (t.slot i).occ = .binWait ∧ (t.slot i).cls = .off ∧ (t.slot i).adm = .off ∧
        hasEntry t i .power = false) ∧
      ((s.slot i).occ = .ready → (s.shelf (shelfOf i)).enabled = true → (s.slot i).unlocked = false →
        ((t.slot i).occ = .powerWait ∧ (t.slot i).adm = .queued ∧ (t.slot i).cls = .off ∧ hasEntry t i .power = true) ∨
          ((t.slot i).occ = .booting ∧ (t.slot i).adm = .booting ∧ (t.slot i).cls = .idle)) := by
  let v := thrice i wire s
  have hvslot : (cycling i v).slot i = { v.slot i with
      ladder := 2, ladderInReady := (v.slot i).ladderInReady || decide ((v.slot i).occ = .ready) } := cycling_slot i v
  have hslot : v.slot i = { s.slot i with drive := (s.slot i).drive.map fun d => { d with missed := 3 } } := thrice_slot ..
  rw [hslot] at hvslot
  have hwork : NoWork (cycling i v) i := fun it hit => h.noWork_thrice wire it (by rwa [cycling_shelf] at hit)
  obtain ⟨u, hu, hoff⟩ := powerOff_on (i := i) (s := cycling i v) (by rw [hvslot]; exact hc) (.inr hwork)
  have huslot := hu.slot
  rw [hvslot] at huslot
  have hocc : (u.slot i).occ = (s.slot i).occ := by rw [huslot]; rfl
  have hcls : (u.slot i).cls = .off := by rw [huslot]; rfl
  have hunlocked : (u.slot i).unlocked = (s.slot i).unlocked := by rw [huslot]; rfl
  have hen : (u.shelf (shelfOf i)).enabled = (s.shelf (shelfOf i)).enabled := by
    rw [hu.enabled, cycling_shelf, thrice_enabled]
  have hflag : flagSet u (slotScope i) (slotFlagBit .unresponsive) = true := hu.flagSet _ _ (flagSet_raiseSlot ..)
  obtain ⟨hladder, hdrive, hflags, hbin, hready⟩ := ladder_requests hcls (by rwa [hocc])
  rw [hocc, hen, hunlocked] at hready
  rw [hocc] at hbin
  have hask : carryOut 1 [.requestPower i .ladder] u = some (requestPower i .ladder u) := carryOut_quiet rfl
  have hcarry := carryOut_act (unresponsive_cycles (i := i) (s := v) (by rw [hslot]; exact hl) (by rw [hslot]; exact ho))
    (carryOut_append hoff hask)
  refine ⟨_, h.third wire rfl rfl (act_poll_missed rfl) (.inr hmissed) (by decide) hcarry, ?_, ?_, ?_, fun hb => ?_,
    fun hr he hun => ?_⟩
  · rw [chosen_slot, hladder, huslot]; rfl
  · rw [chosen_slot, hdrive, huslot]; rfl
  · rw [chosen_flagSet, flagSet_congr hflags, hflag]
  · rw [chosen_slot, chosen_hasEntry, hbin hb]
    exact ⟨hocc.trans hb, hcls, by rw [huslot]; rfl, hasEntry_of_queued hu.not_queued _⟩
  · rw [chosen_slot, chosen_hasEntry]
    exact hready hr he hun

/-! ## Stage 1 of a slot that ships, and of one that tests (R125, R195, R196) -/

/-- The Grade and Ship Unit has nothing to do for a WRITE_ITEM that is missed: its miss counts as three. -/
theorem act_writeItem_missed (i : Slot) (id : Nat) (value : BitVec 32) (t : State) :
    act (.answered (slotItem i (.writeItem id value) .shipUnit) .noReply) t = (t, []) := by
  simp only [act, answerOwner, slotItem, shipAnswered]
  split <;> rfl

/-- A first failure at a reset pulse restarts the sequence, which waits for the binding (R196). -/
theorem shipFail_restarts {i : Slot} {u : State} {rec : ShipRec} (hship : (u.slot i).ship = some rec)
    (hpath : rec.path = .full) (hstep : rec.step = .write) (hfail : rec.failures = 0) (hd : (u.slot i).drive = none) :
    act (.shipFail i .resetPulse) u = (modShip i (fun rec =>
      { rec with failures := 1, position := 0, step := .waitBind, selected := [] }) u, []) := by
  have hrestart : ((modShip i (fun rec =>
      { rec with failures := 1, position := 0, step := .waitBind, selected := [] }) u).slot i).drive = none := by
    simp [modShip, hd]
  simp only [act, shipFail, hship, hstep, causeCounts, if_true, hpath, hfail, reduceCtorEq, ne_eq, not_true_eq_false, or_self,
    if_false, shipRestart, hrestart, Option.isSome_none, Bool.false_eq_true]

section
variable {s : State} {i : Slot} {n : NodeIx} {d : DrivePart} (wire : Bool) (hc : (s.slot i).cls ≠ .off)
  (hp : hasEntry s i .power = false) (hs : hasEntry s i .spin = true → (s.slot i).cls = .idle) (hl : (s.slot i).ladder = 0)
include hc hp hs hl

/-- The third miss of a READY slot: its pulse runs, and the slot boots. -/
theorem SlotWindow.pulses_ready (h : SlotWindow s i n d .poll .busController) (hmissed : d.missed = 2)
    (ho : (s.slot i).occ = .ready) :
    ∃ t, exec (.replyWindowClose (shelfOf i) wire) s = .next t ∧ PulseRuns i n (s.now + 200) t ∧
      (t.slot i).occ = .booting ∧ (t.slot i).ladderInReady = true ∧ hasEntry t i .spin = false := by
  obtain ⟨u, hu, hact⟩ := h.pulses wire hl hp
  obtain ⟨hocc, hin, -, -, -⟩ := hu.of_thrice
  have hruns := hu.runs hc hs
  simp only [ho, true_or, if_true, decide_true, Bool.or_true, reduceCtorEq, if_false, List.append_nil] at hocc hin hact
  refine ⟨_, h.third wire rfl rfl (act_poll_missed rfl) (.inr hmissed) (by decide) (carryOut_quiet hact), ?_, ?_, ?_, ?_⟩
  · rw [← h.node]
    exact hruns.of_same (by rw [chosen_slot]) (chosen_nodes ..) (by rw [chosen_flagSet]; exact id)
  · rw [chosen_slot]; exact hocc
  · rw [chosen_slot]; exact hin
  · rw [chosen_hasEntry]; exact hu.no_spin

/-- The miss of a WRITE_ITEM: the pulse runs, and the sequence waits for the binding with its reservation kept. -/
theorem SlotWindow.pulses_ship {item : Nat} {value : BitVec 32} (h : SlotWindow s i n d (.writeItem item value) .shipUnit)
    {rec : ShipRec} (hship : (s.slot i).ship = some rec) (hpath : rec.path = .full) (hstep : rec.step = .write)
    (hfail : rec.failures = 0) (ho : (s.slot i).occ = .shipping) :
    ∃ t, exec (.replyWindowClose (shelfOf i) wire) s = .next t ∧ PulseRuns i n (s.now + 200) t ∧
      (t.slot i).occ = .shipping ∧ (t.slot i).reservation = (s.slot i).reservation ∧
      ∃ rec', (t.slot i).ship = some rec' ∧ rec'.path = .full ∧ rec'.step = .waitBind ∧ rec'.position = 0 ∧
        rec'.failures = 1 := by
  obtain ⟨u, hu, hact⟩ := h.pulses wire hl hp
  obtain ⟨hocc, -, hres, hushipped, -⟩ := hu.of_thrice
  have hruns := hu.runs hc hs
  obtain ⟨-, -, -, -, hdrive, -, -, -⟩ := id hruns
  simp only [ho, reduceCtorEq, or_self, if_true, if_false, List.nil_append] at hocc hact
  have hrestart := shipFail_restarts (hushipped.trans hship) hpath hstep hfail hdrive
  refine ⟨_, h.third wire rfl rfl (act_writeItem_missed i item value) (.inl rfl) (by decide)
    (carryOut_act hact (carryOut_quiet hrestart)), ?_, ?_, ?_, ?_⟩
  · rw [← h.node]
    exact hruns.of_same (by rw [chosen_slot, modShip, State.modSlot_slot]) (chosen_nodes ..)
      (by rw [chosen_flagSet]; exact id)
  · rw [chosen_slot, modShip, State.modSlot_slot]; exact hocc
  · rw [chosen_slot, modShip, State.modSlot_slot]; exact hres
  · refine ⟨{ rec with failures := 1, position := 0, step := .waitBind, selected := [] }, ?_, hpath, rfl, rfl, rfl⟩
    rw [chosen_slot, modShip, State.modSlot_slot, hushipped, hship]
    rfl

/-- The third missed poll of a test: the pulse runs, and the test is suspended. -/
theorem SlotWindow.pulses_test (h : SlotWindow s i n d .poll .busController) (hmissed : d.missed = 2) {run : Run}
    {body : PhaseBody} {onFail : OnFail} (ho : (s.slot i).occ = .testing) (ha : (s.slot i).attn = none)
    (hrun : (s.slot i).run = some run) (hstate : run.state = .starting ∨ run.state = .running)
    (hphase : phaseRec s run = some { body := body, onFail := onFail }) (hbody : Suspends run body) :
    ∃ t, exec (.replyWindowClose (shelfOf i) wire) s = .next t ∧ PulseRuns i n (s.now + 200) t ∧
      (t.slot i).occ = .booting ∧ (t.slot i).run = some { run with
        state := .suspended, wallTimer := none, suspRecovery := true
        interruptions := min 255 (run.interruptions + 1) } ∧
      flagSet t (slotScope i) (slotFlagBit .suspended) = true := by
  obtain ⟨u, hu, hact⟩ := h.pulses wire hl hp
  obtain ⟨hocc, -, -, -, hkept⟩ := hu.of_thrice
  have hruns := hu.runs hc hs
  obtain ⟨-, -, -, -, hdrive, -, -, -⟩ := id hruns
  simp only [ho, reduceCtorEq, or_true, if_true, if_false, List.append_nil] at hocc hact
  have hurun : (u.slot i).run = some run := (hkept ha).trans hrun
  have hplans : u.plans = s.plans := hu.changed.plans_eq.trans
    ((Changed.raiseSlot _ _ (.slots _ (thrice_changed i wire s)) : Changed s (staged i 1 (thrice i wire s))).plans_eq)
  have huphase : phaseRec u run = some { body := body, onFail := onFail } := by
    rw [← hphase, phaseRec, phaseRec, planOf, planOf, hplans]
  have hsuspends := interrupted_suspends hurun huphase .recovery hstate hbody
  have hgoing : testGoing u i run = false := by simp [testGoing, hdrive]
  rw [hgoing, if_neg (by decide)] at hsuspends
  have hslot := suspending_slot i .recovery u
  refine ⟨_, h.third wire rfl rfl (act_poll_missed rfl) (.inr hmissed) (by decide)
    (carryOut_act hact (carryOut_quiet hsuspends)), ?_, ?_, ?_, ?_⟩
  · rw [← h.node]
    refine hruns.of_same (by rw [chosen_slot, hslot]) ?_ fun hf => ?_
    · rw [chosen_nodes, suspending_shelf]
    · rw [chosen_flagSet]; exact suspending_flagSet hf
  · rw [chosen_slot, hslot]; exact hocc
  · rw [chosen_slot, hslot, hurun]
    simp [Run.suspendedBy_eq]
  · rw [chosen_flagSet]; exact flagSet_suspending ..
end

/-- Settles O46: the pulse and the power cycle of a slot that is READY, and the pulse of one that ships and of one that
tests. -/
theorem ladderStages : Obligations.LadderStages := by
  unfold Obligations.LadderStages
  intro i s n d wire k pulsed hc hp hs
  refine ⟨fun h hmissed _ => ⟨fun hl ho => h.pulses_ready wire hc hp hs hl hmissed ho,
      fun hl ho => h.cycles wire hc hmissed hl ho⟩, ?_, ?_⟩
  · intro id value rec h hship hpath hstep hfail hl ho
    exact h.pulses_ship wire hc hp hs hl hship hpath hstep hfail ho
  · intro run body onFail h hmissed hl ho ha hrun hstate hphase hbody
    exact h.pulses_test wire hc hp hs hl hmissed ho ha hrun hstate hphase hbody

end Sys2Proof.Machine
end

