-- ==== Sys2Proof/Proofs/SuspensionAndResume.lean ====
section
/-! SUPPORT. A test's way through an interruption: its suspension and stop, the end of a phase whose drive has gone, the
resume at a ready motor, and the report that has outlived its phase (R98, R99, R124 to R127). -/

namespace Sys2Proof.Machine

/-! ## The suspension of a test on a bound drive (R125) -/

/-- A running test is a SOAK or a DRIVE_TEST. -/
theorem runsTest_body {s : State} {run : Run} {body : PhaseBody} {onFail : OnFail} (ht : runsTest s run = true)
    (hphase : phaseRec s run = some { body := body, onFail := onFail }) :
    (∃ code wall target low high limit, body = .soak code wall target low high limit) ∨
      ∃ code scan wall, body = .driveTest code scan wall := by
  simp only [runsTest, hphase] at ht
  cases body with
  | soak code wall target low high limit => exact .inl ⟨_, _, _, _, _, _, rfl⟩
  | driveTest code scan wall => exact .inr ⟨_, _, _, rfl⟩
  | rest duration => cases ht
  | powerCycle cycles off on => cases ht

/-- A test that is going is suspended, and its STOP_TEST is submitted. -/
theorem interrupted_stops {i : Slot} {s : State} {run : Run} {body : PhaseBody} {onFail : OnFail}
    (hphase : phaseRec s run = some { body := body, onFail := onFail }) (reason : Interruption) (hgoing : TestGoing s i run)
    (hw : NoWork s i) (hbody : (∃ code wall target low high limit, body = .soak code wall target low high limit) ∨
      run.interruptions ≤ 2) :
    let t := (act (.interrupted i reason) s).1
    (t.slot i).run = some (run.suspendedBy reason) ∧ SlotPending t i (.stopTest true) ∧
      flagSet t (slotScope i) (slotFlagBit .suspended) = true ∧ (act (.interrupted i reason) s).2 = [] := by
  obtain ⟨hrun, hstate, htest, -, -, -, hdrive, hsilent, -⟩ := hgoing
  have hsuspends : Suspends run body := hbody.elim .inl fun hfew =>
    (runsTest_body htest hphase).imp id fun hbody => ⟨hbody, hfew⟩
  have hslot := suspending_slot i reason s
  obtain ⟨u, hsubmit, hbus, hsole, -⟩ := submit_of_bound (i := i) (cmd := .stopTest true) .planRunner
    (s := suspending i reason s) (by rw [hslot]; exact hdrive) (by rw [hslot]; exact hsilent)
    (((suspending_workWithin i reason s).noWork hw).pendingItem _)
  have hact := interrupted_suspends hrun hphase reason (.inr hstate) hsuspends
  rw [if_pos (by simp [testGoing, hstate, htest, hdrive]), hsubmit] at hact
  rw [hact]
  refine ⟨?_, hsole.slotPending, ?_, rfl⟩
  · rw [hbus.slot, hslot, hrun]
    rfl
  · rw [flagSet_congr hbus.flags]
    exact flagSet_suspending ..

/-- The outcome of a suspension's STOP_TEST changes nothing of the run (R125). -/
theorem SlotWindow.suspension_stopped {s : State} {i : Slot} {n : NodeIx} {d : DrivePart}
    (h : SlotWindow s i n d (.stopTest true) .planRunner) (wire : Bool) :
    ∃ t, exec (.replyFrameReceived (shelfOf i) (busReply n .stopTest []) wire) s = .next t ∧ OtherSlotsSame s t i ∧
      t.slot i = { s.slot i with drive := some { d with missed := 0 } } := by
  obtain ⟨-, hdrive, -, -, -⟩ := id h
  let u := replied (shelfOf i) wire s
  have hact : act (.answered (slotItem i (.stopTest true) .planRunner) (.done .ack)) u = (u, []) := by
    simp only [act, answerOwner, slotItem, planAnswered, stopAnswered, Bool.true_eq_false, false_and, if_false]
    split <;> rfl
  obtain ⟨t, ht, hts⟩ := h.answering.taken (body := []) (fields := .ack) wire (by decide) rfl rfl rfl (by decide)
    (carryOut_quiet hact) (by rw [h.answering.drive_replied]; rfl)
  refine ⟨t, ht, fun j hj => ?_, ?_⟩
  · rw [hts j, answeredDrive, State.modDrive_slot_ne _ hj, replied_slot]
  · rw [hts i, answeredDrive, State.modDrive_slot, replied_slot, hdrive]
    rfl

/-! ## The end of a phase whose drive is being reset (R122, R127) -/

/-- A REST is entered on a slot that is on or waits for its power, without a request for it (R122). -/
theorem enterPhase_rest_on {i : Slot} {s : State} {run : Run} {duration : Nat} {onFail : OnFail}
    (hrun : (s.slot i).run = some run) (hadm : (s.slot i).adm ≠ .off)
    (hphase : phaseRec s run = some { body := .rest duration, onFail := onFail }) (hkept : run.noAttachKept = false) :
    enterPhase i s = (s.modRun i (Run.resting duration s.now), [.spinDown i]) := by
  simp only [enterPhase, hrun, hphase, hkept, State.modRun_slot, hadm, isRest, or_true, if_true, beginPhase, decide_false,
    Bool.false_and, Bool.false_eq_true, if_false, List.append_nil]
  refine Prod.ext ?_ rfl
  simp only [State.modRun, State.modSlot_modSlot]
  refine State.modSlot_congr ?_
  simp [hrun, Run.resting, secs, State.after]

/-- The slot as its phase's entry is written and the next phase is at hand (R117, R127). -/
def advanced (i : Slot) (dose : Nat) (s : State) : State :=
  (raiseSlot i .phaseEnd ((s.modRun i (writeOutcome dose)).modSlot i fun r => { r with ladder := 0 })).modRun i
    fun run => { run with phase := run.phase + 1 }

/-- A phase that ends with a verdict that stops nothing is followed by the next. -/
theorem phaseEnded_advances {i : Slot} {s : State} {run : Run} {v : Verdict} {rec : PhaseRec}
    (hrun : (s.slot i).run = some run) (hdec : run.decided = some v) (hphase : phaseRec s run = some rec)
    (hgo : failStops v rec.onFail = false) (hstop : run.stop = none) (hmore : run.phase + 1 < run.outcomes.length) :
    act (.phaseEnded i) s = (advanced i (endedDose s run) s, [.enterPhase i]) := by
  simp only [act, phaseEnded, hrun, goOn, hstop, hphase, hdec, Option.getD_some, hgo, Bool.false_eq_true, if_false,
    if_pos hmore]
  rfl

/-- The REST that follows is entered also where the drive part has gone and the slot is on. -/
theorem phaseEnded_rest_on {i : Slot} {s : State} {run : Run} {v : Verdict} {rec : PhaseRec} {duration : Nat}
    (hrun : (s.slot i).run = some run) (hdec : run.decided = some v) (hadm : (s.slot i).adm ≠ .off)
    (hphase : phaseRec s run = some rec) (hgo : failStops v rec.onFail = false) (hrest : RestFollows s run duration) :
    ∃ t, carryOut 3 [.phaseEnded i] s = some t ∧
      ((t.slot i).run = some (run.intoRest (endedDose s run) duration s.now) ∧ (t.slot i).ladder = 0) ∧
      flagSet t (slotScope i) (slotFlagBit .phaseEnd) = true := by
  obtain ⟨hstop, hkept, hmore, onFail, hnext⟩ := hrest
  let y := advanced i (endedDose s run) s
  let run' : Run := { writeOutcome (endedDose s run) run with phase := run.phase + 1 }
  have hyslot : y.slot i = { s.slot i with run := some run', ladder := 0 } := by simp [y, advanced, hrun, run']; rfl
  have hyphase : phaseRec y run' = some { body := .rest duration, onFail := onFail } := by
    have hplans : y.plans = s.plans := setFlagBit_plans ..
    rw [phaseRec, planOf, hplans]
    exact hnext
  have hynow : y.now = s.now := raiseSlot_now ..
  have henter : act (.enterPhase i) y = (y.modRun i (Run.resting duration s.now), [.spinDown i]) := by
    rw [← hynow]
    exact enterPhase_rest_on (by rw [hyslot]) (by rw [hyslot]; exact hadm) hyphase hkept
  let z := y.modRun i (Run.resting duration s.now)
  have hz : (z.slot i).run = some (run'.resting duration s.now) ∧ (z.slot i).ladder = 0 := by simp [z, hyslot]
  have hdown := spinDown_keeps (P := fun r => r.run = some (run'.resting duration s.now) ∧ r.ladder = 0) (s := z)
    (fun e _ _ t => grant_keeps_run rfl e t) (fun h => h) hz
  refine ⟨spinDown i z, ?_, hdown, ?_⟩
  · exact carryOut_act (phaseEnded_advances hrun hdec hphase hgo hstop hmore)
      (carryOut_act henter (carryOut_quiet rfl))
  · rw [flagSet_congr (spinDown_granted i z).flags]
    exact flagSet_raiseSlot ..

/-! ## The third missed poll of a slot that tests (R124, R125) -/

theorem phaseRec_congr {s t : State} (h : t.plans = s.plans) (run : Run) : phaseRec t run = phaseRec s run := by
  rw [phaseRec, phaseRec, planOf, planOf, h]

theorem endedDose_congr {s t : State} (h : t.plans = s.plans) (run : Run) : endedDose t run = endedDose s run := by
  simp only [endedDose, phaseRec_congr h]

section
variable {s : State} {i : Slot} {n : NodeIx} {d : DrivePart} (h : SlotWindow s i n d .poll .busController) (wire : Bool)
  (hmissed : d.missed = 2) (hl : (s.slot i).ladder = 0) (ho : (s.slot i).occ = .testing) (ha : (s.slot i).attn = none)
  (hp : hasEntry s i .power = false) {run : Run} (hrun : (s.slot i).run = some run) {body : PhaseBody} {onFail : OnFail}
  (hphase : phaseRec s run = some { body := body, onFail := onFail })
include h hmissed hl ho ha hp hrun hphase

/-- A pulse takes the drive part, and the run is told of the interruption. -/
theorem SlotWindow.interrupts : ∃ u, act (.unresponsive i) (thrice i wire s) = (u, [.interrupted i .recovery]) ∧
    (u.slot i).run = some run ∧ (u.slot i).drive = none ∧ (u.slot i).adm = .booting ∧ u.plans = s.plans ∧ u.now = s.now ∧
    phaseRec u run = some { body := body, onFail := onFail } ∧
    ∀ m v, m ≤ 63 → carryOut m [.interrupted i .recovery] u = some v →
      exec (.replyWindowClose (shelfOf i) wire) s = .next (startTx (choose (shelfOf i) v)) := by
  obtain ⟨u, hu, hact⟩ := h.pulses wire hl hp
  obtain ⟨-, -, -, -, hkept⟩ := hu.of_thrice
  simp only [ho, reduceCtorEq, if_true, if_false, List.append_nil] at hact
  have hchanged : Changed s u :=
    Changed.trans (.raiseSlot _ _ (.slots _ (thrice_changed i wire s)) : Changed s (staged i 1 (thrice i wire s))) hu.changed
  refine ⟨u, hact, (hkept ha).trans hrun, by rw [hu.slot], by rw [hu.slot]; rfl, hchanged.plans_eq, hchanged.now_eq,
    (phaseRec_congr hchanged.plans_eq run).trans hphase, fun m v hm hv => ?_⟩
  exact h.third wire rfl rfl (act_poll_missed rfl) (.inr hmissed) (m := m + 1) (by omega) (carryOut_act hact hv)

/-- The fourth interruption ends a DRIVE_TEST, and the REST that follows is entered. -/
theorem SlotWindow.ends_test (hdec : run.decided = none) (hstate : run.state = .starting ∨ run.state = .running)
    {duration : Nat} (hbody : ∃ code scan wall, body = .driveTest code scan wall) (hfail : onFail = .continue)
    (hmany : 3 ≤ run.interruptions) (hrest : RestFollows s run duration) :
    ∃ t, exec (.replyWindowClose (shelfOf i) wire) s = .next t ∧
      RestEntered s t i run { outcome := .fail, reason := .interrupted, detail := 0 } duration := by
  obtain ⟨u, -, hurun, hdrive, hadm, hplans, hnow, huphase, hexec⟩ :=
    h.interrupts wire hmissed hl ho ha hp hrun hphase
  let ended : Run := { countInterruption run with decided := some (failVerdict .interrupted), state := .ended }
  let w := u.modRun i fun run =>
    { countInterruption run with decided := some (run.decided.getD (failVerdict .interrupted)), state := .ended }
  have hact : act (.interrupted i .recovery) u = (w, [.phaseEnded i]) :=
    interrupted_ends hurun huphase .recovery hstate hbody hmany hdec hdrive
  have hwrun : (w.slot i).run = some ended := by simp [w, hurun, hdec, ended]
  have hwrest : RestFollows w ended duration := by
    obtain ⟨hstop, hkept, hmore, onFail, hnext⟩ := hrest
    refine ⟨hstop, hkept, hmore, onFail, ?_⟩
    have hwplan : planOf w ended = planOf s run := by
      show u.plans[run.plan] = s.plans[run.plan]
      rw [hplans]
    rw [hwplan]
    exact hnext
  obtain ⟨v, hcarry, hslot, hflag⟩ := phaseEnded_rest_on (i := i) (s := w) hwrun rfl
    (by simp [w, hadm]) (huphase : phaseRec w ended = _) (by subst hfail; rfl) hwrest
  have hdose : endedDose w ended = endedDose s ended := endedDose_congr hplans ended
  have hwnow : w.now = s.now := hnow
  rw [hdose, hwnow] at hslot
  have hentered : RestEntered s (startTx (choose (shelfOf i) v)) i ended (failVerdict .interrupted) duration :=
    .of_run rfl (by rw [chosen_slot]; exact hslot) (by rw [chosen_flagSet]; exact hflag)
  exact ⟨_, hexec 4 v (by decide) (carryOut_act hact hcarry), hentered⟩

/-- An interruption takes a POWER_CYCLE without its drive back to ATTACH. -/
theorem SlotWindow.cycle_attaches (hbody : ∃ cycles off on, body = .powerCycle cycles off on)
    (hstate : run.state = .running) (hstep : run.cycleStep = some .onTime ∨ run.cycleStep = some .spin) :
    ∃ t, exec (.replyWindowClose (shelfOf i) wire) s = .next t ∧ (t.slot i).run = some { run with
      interruptions := min 255 (run.interruptions + 1), cycleStep := some .attach, offTimer := none, onTimer := none } := by
  obtain ⟨u, -, hurun, hdrive, -, -, -, huphase, hexec⟩ := h.interrupts wire hmissed hl ho ha hp hrun hphase
  have hact := interrupted_cycle hurun huphase .recovery hbody hstate hstep
  simp only [hdrive, Option.isSome_none, Bool.false_eq_true, if_false] at hact
  refine ⟨_, hexec 1 _ (by decide) (carryOut_quiet hact), ?_⟩
  rw [chosen_slot, State.modRun_slot, hurun]
  rfl
end

/-! ## A report that has outlived its phase (R98, R99, R103) -/

/-- The slot as a stale report is taken: the report has gone, and the summary is STALE where it is its attention's. -/
def staleTaken (i : Slot) (rep : Report) (s : State) : State :=
  s.modSlot i fun r =>
    { r with
      reports := removeReport r.reports .attention
      summary := r.summary.map fun m => if rep.ownsSummary then { m with outcome := .stale } else m }

/-- A stale phase-end report is taken without the Plan Runner's doing. -/
theorem takeReport_stale {i : Slot} {s : State} {kind : ReportKind} {rep : Report}
    (hkind : (∃ phase, kind = .phaseDone phase) ∨ ∃ phase reason, kind = .phaseFailed phase reason)
    (hold : oldestReport (s.slot i).reports .attention = some rep) (hrep : rep.kind = kind) (hlive : rep.live = false) :
    takeReport i kind s = (staleTaken i rep s, if rep.owesClear then [.clearRecord i] else []) := by
  let u := s.modSlot i fun r => { r with reports := removeReport r.reports .attention }
  have hstale : ∀ (t : State) phase, reportLive t i rep.live phase = false := fun t phase => by
    unfold reportLive
    split <;> simp [hlive]
  have hsource : sourceOf kind = .attention := by
    rcases hkind with ⟨_, rfl⟩ | ⟨_, _, rfl⟩ <;> rfl
  have hquiet : ∀ t, actOnReport i kind rep.live t = (t, []) := fun t => by
    rcases hkind with ⟨_, rfl⟩ | ⟨_, _, rfl⟩ <;> simp [actOnReport, hstale]
  have houtcome : summaryOutcome u i kind rep.live = .stale := by
    rcases hkind with ⟨_, rfl⟩ | ⟨_, _, rfl⟩ <;> simp [summaryOutcome, hstale]
  have hsummary : (if rep.ownsSummary then setOutcome i .stale u else u) = staleTaken i rep s := by
    cases howns : rep.ownsSummary <;>
      simp only [Bool.false_eq_true, if_false, if_true, u, setOutcome, State.modSlot_modSlot, staleTaken, howns]
    · exact State.modSlot_congr (by simp)
    · rfl
  have htake : takeReport i kind s = takeKind i rep u := by
    simp only [takeReport, hsource, hold, hrep, if_true]
    rfl
  rw [htake]
  simp only [takeKind, hrep, houtcome, hquiet, hsummary, List.nil_append]

/-- The clear of an attention record that is owed one is submitted (R103). -/
theorem clearRecord_of_bound {i : Slot} {s : State} (hd : (s.slot i).drive.isSome = true) (hs : (s.slot i).silent = false)
    (hw : NoWork s i) :
    ∃ t, clearRecord i s = (t, []) ∧ OtherSlotsSame s t i ∧
      t.slot i = { s.slot i with attn := (s.slot i).attn.map fun a => { a with clearPending := true } } ∧
      ((s.slot i).attn.isSome → SlotPending t i .attnClear) := by
  cases ha : (s.slot i).attn with
  | none =>
    refine ⟨s, by simp [clearRecord, ha], fun _ _ => rfl, ?_, nofun⟩
    conv_lhs => rw [← State.modSlot_eq_self (s := s) (i := i) (f := fun r => { r with attn := none }) (by rw [← ha])]
    rw [State.modSlot_slot]
    rfl
  | some a =>
    let u := modAttn i (fun a => { a with clearPending := true }) s
    have hclear : clearRecord i s = submit i .attnClear .attentionUnit u := by simp [clearRecord, ha, u]
    have huslot : u.slot i = { s.slot i with attn := some { a with clearPending := true } } := by simp [u, modAttn, ha]
    obtain ⟨t, hsubmit, hbus, hsole, -⟩ := submit_of_bound (i := i) (s := u) (cmd := .attnClear) .attentionUnit
      (by rw [huslot]; exact hd) (by rw [huslot]; exact hs) (NoWork.pendingItem (s := u) hw _)
    refine ⟨t, hclear.trans hsubmit, fun j hj => ?_, ?_, fun _ => hsole.slotPending⟩
    · rw [hbus.slot]; exact State.modSlot_slot_ne s hj _
    · rw [hbus.slot, huslot]; rfl

/-- A stale phase-end report of a slot whose drive answers. -/
theorem staleReport_taken {i : Slot} {s : State} {kind : ReportKind} {rep : Report}
    (hkind : (∃ phase, kind = .phaseDone phase) ∨ ∃ phase reason, kind = .phaseFailed phase reason)
    (hold : oldestReport (s.slot i).reports .attention = some rep) (hrep : rep.kind = kind) (hlive : rep.live = false)
    (hd : (s.slot i).drive.isSome = true) (hs : (s.slot i).silent = false) (hw : NoWork s i) :
    ∃ t, exec (reportInstr i kind) s = .next t ∧ OtherSlotsSame s t i ∧
      t.slot i = { s.slot i with
        reports := removeReport (s.slot i).reports .attention
        summary := (s.slot i).summary.map fun m => if rep.ownsSummary then { m with outcome := .stale } else m
        attn := (s.slot i).attn.map fun a => if rep.owesClear then { a with clearPending := true } else a } ∧
      (rep.owesClear = true → (s.slot i).attn.isSome → SlotPending t i .attnClear) := by
  have hexec : exec (reportInstr i kind) s = conclude (takeReport i kind s) := by
    rcases hkind with ⟨_, rfl⟩ | ⟨_, _, rfl⟩ <;> rfl
  rw [hexec, takeReport_stale hkind hold hrep hlive]
  let u := staleTaken i rep s
  have hothers : OtherSlotsSame s u i := fun j hj => State.modSlot_slot_ne s hj _
  have hslot : u.slot i = { s.slot i with
      reports := removeReport (s.slot i).reports .attention
      summary := (s.slot i).summary.map fun m => if rep.ownsSummary then { m with outcome := .stale } else m } :=
    State.modSlot_slot ..
  cases howes : rep.owesClear with
  | false =>
    refine ⟨startTx u, conclude_nil u, fun j hj => (startTx_slot u j).trans (hothers j hj), ?_, nofun⟩
    rw [startTx_slot, hslot]
    simp
  | true =>
    obtain ⟨t, hclear, hsame, htslot, hpending⟩ := clearRecord_of_bound (i := i) (s := u) (by rw [hslot]; exact hd)
      (by rw [hslot]; exact hs) hw
    refine ⟨startTx t, conclude_of (n := 1) (by decide) (carryOut_quiet hclear), fun j hj => ?_, ?_, fun _ ha => ?_⟩
    · rw [startTx_slot, hsame j hj, hothers j hj]
    · rw [startTx_slot, htslot, hslot]
      simp
    · exact (hpending (by rw [hslot]; exact ha)).startTx

/-! ## The resume at a ready motor (R126) -/

/-- A poll of a suspended phase that reports no attention in service tells of a motor that is up, if of anything. -/
theorem pollDone_suspended {i : Slot} {s : State} {run : Run} (hrun : (s.slot i).run = some run)
    (hstate : run.state = .suspended) (test : TestState) (motor : Motor) (t progress : Nat) :
    pollDone i test motor t progress false s =
      (s.modSlot i (SlotRec.polled test motor t progress s.now), motorTells i motor (s.slot i)) := by
  have hkept : ((s.modSlot i (SlotRec.polled test motor t progress s.now)).slot i).run = some run := by
    rw [State.modSlot_slot]; exact hrun
  have htest : pollTestState i test (s.modSlot i (SlotRec.polled test motor t progress s.now)) =
      (s.modSlot i (SlotRec.polled test motor t progress s.now), []) := by
    simp only [pollTestState, hkept, hstate, reduceCtorEq, false_and, and_false, if_false]
  unfold pollDone
  dsimp only [State.modSlot_now, State.modDrive_now]
  rw [storeTemperature_polled, motorReport_reported]
  simp only [htest, pollInService, Bool.false_and, Bool.false_eq_true, if_false, List.append_nil]

/-- The slot as its phase resumes: every phase-end report that waits is stale. -/
def resuming (i : Slot) (rec : PhaseRec) (s : State) : State := staleAtResume i (s.modRun i (resumed rec))

theorem resuming_slot (i : Slot) (rec : PhaseRec) (s : State) : (resuming i rec s).slot i = { s.slot i with
    run := (s.slot i).run.map (resumed rec), reports := (s.slot i).reports.map Report.outlived } := by
  simp [resuming, staleAtResume]

/-- A ready motor resumes a suspended phase: its START_TEST is submitted. -/
theorem spinReady_resumes {i : Slot} {s : State} {run : Run} {body : PhaseBody} {onFail : OnFail} {code : Byte}
    (hrun : (s.slot i).run = some run) (hphase : phaseRec s run = some { body := body, onFail := onFail })
    (hstate : run.state = .suspended) (hbody : (∃ wall target low high limit, body = .soak code wall target low high limit) ∨
      ∃ scan wall, body = .driveTest code scan wall)
    (hd : (s.slot i).drive.isSome = true) (hs : (s.slot i).silent = false) (hw : NoWork s i) :
    ∃ u, act (.spinReady i) s = (u, []) ∧ BusOnly (shelfOf i) (resuming i { body := body, onFail := onFail } s) u ∧
      SolePending u i (.startTest code run.phase) ∧
      ((s.shelf (shelfOf i)).phase ≠ .free → (u.shelf (shelfOf i)).phase = (s.shelf (shelfOf i)).phase) := by
  let w := resuming i { body := body, onFail := onFail } s
  have hslot : w.slot i = { s.slot i with
      run := some (resumed { body := body, onFail := onFail } run), reports := (s.slot i).reports.map Report.outlived } := by
    rw [resuming_slot, hrun]
    rfl
  have hcode : testCodeOf w (resumed { body := body, onFail := onFail } run) = some code := by
    have hsame : phaseRec w (resumed { body := body, onFail := onFail } run) = some { body := body, onFail := onFail } := hphase
    rw [testCodeOf, hsame]
    rcases hbody with ⟨_, _, _, _, _, rfl⟩ | ⟨_, _, rfl⟩ <;> rfl
  have hstart : submitStart i w = submit i (.startTest code run.phase) .planRunner w := by
    simp only [submitStart, hslot, hcode]
    rfl
  obtain ⟨u, hsubmit, hbus, hsole, hkept⟩ := submit_of_bound (i := i) (s := w) (cmd := .startTest code run.phase) .planRunner
    (by rw [hslot]; exact hd) (by rw [hslot]; exact hs) (NoWork.pendingItem (s := w) hw _)
  refine ⟨u, ?_, hbus, hsole, hkept⟩
  simp only [act, spinReady, hrun, hphase, hstate, hd, if_true]
  exact hstart.trans hsubmit

theorem SolePending.startTx {s : State} {i : Slot} {cmd : BusCmd} (h : SolePending s i cmd) :
    SolePending (startTx s) i cmd := h.congr (by rw [startTx_shelf]) (by rw [startTx_shelf])

/-- A phase-end report that waits at a resume is stale from then on. -/
theorem Report.outlived_eq (rep : Report) : rep.outlived =
    match rep.kind with
    | .phaseDone _ | .phaseFailed _ _ => { rep with live := false }
    | _ => rep := by
  unfold Report.outlived ReportKind.endsPhase
  obtain ⟨kind, live, owes, owns⟩ := rep
  cases kind <;> simp

theorem SlotWindow.resumes {s : State} {i : Slot} {n : NodeIx} {d : DrivePart} (h : SlotWindow s i n d .poll .busController)
    (wire : Bool) {run : Run} {body : PhaseBody} {onFail : OnFail} {code tb : Byte} (th tl progress : Byte)
    {test : TestState} (hrun : (s.slot i).run = some run)
    (hphase : phaseRec s run = some { body := body, onFail := onFail }) (htest : testStateOf tb.toNat = some test)
    (hstate : run.state = .suspended) (hcls : (s.slot i).cls = .inrush) (hreq : (s.slot i).spinReq = some .planRunner)
    (hqueue : (s.shelf (shelfOf i)).queue = [])
    (hbody : (∃ wall target low high limit, body = .soak code wall target low high limit) ∨
      ∃ scan wall, body = .driveTest code scan wall) :
    ∃ t, exec (.replyFrameReceived (shelfOf i) (busReply n .poll [tb, 2, th, tl, progress, 0]) wire) s = .next t ∧
      OtherSlotsSame s t i ∧ (t.slot i).cls = .run ∧ (t.slot i).spinTimer = none ∧
      SlotPending t i (.startTest code run.phase) ∧
      (t.slot i).reports = (s.slot i).reports.map Report.outlived ∧
      (t.slot i).run = some (resumed { body := body, onFail := onFail } run) := by
  obtain ⟨-, hdrive, -, hsilent, hw⟩ := id h
  let v := replied (shelfOf i) wire s
  let temperature := 256 * th.toNat + tl.toNat
  let share := min 100 progress.toNat
  have hvslot : v.slot i = s.slot i := replied_slot ..
  -- The fields of the reply.
  have hfields : replyFields .poll [tb, 2, th, tl, progress, 0] = some (.status test .ready temperature share false) := by
    have h0 : testStateOf (field8 [tb, 2, th, tl, progress, 0] 0) = some test := htest
    simp only [replyFields, h0]
    rfl
  -- The poll is taken: the motor is up.
  let p := v.modSlot i (SlotRec.polled test .ready temperature share v.now)
  have hpslot : p.slot i = (s.slot i).polled test .ready temperature share v.now := by
    rw [State.modSlot_slot, hvslot]
  have hprun : (p.slot i).run = some run := by rw [hpslot]; exact hrun
  have hpoll : act (.answered (slotItem i .poll .busController) (.done (.status test .ready temperature share false))) v =
      (p, [.spinReady i, .examine (shelfOf i)]) := by
    have hdone := pollDone_suspended (s := v) (i := i) (by rw [hvslot]; exact hrun) hstate test .ready temperature share
    rw [motorTells, hvslot, if_pos ⟨hcls, rfl⟩, if_pos hreq] at hdone
    exact hdone
  -- The phase resumes.
  have hwork : NoWork p i := fun it hit => hw it (by simpa [p, v, replied] using hit)
  obtain ⟨u, hready, hbus, hsole, hkept⟩ := spinReady_resumes (code := code) hprun
    (hphase : phaseRec p run = _) hstate hbody (by rw [hpslot]; simp [SlotRec.polled, SlotRec.reported, hdrive])
    (by rw [hpslot]; exact hsilent) hwork
  have huslot : u.slot i = { (s.slot i).polled test .ready temperature share v.now with
      run := some (resumed { body := body, onFail := onFail } run), reports := (s.slot i).reports.map Report.outlived } := by
    rw [hbus.slot, resuming_slot, hpslot]
    exact congrArg₂ (fun run reports => ({ (s.slot i).polled test .ready temperature share v.now with
      run := run, reports := reports } : SlotRec)) (by show (s.slot i).run.map _ = _; rw [hrun]; rfl) rfl
  have huqueue : (u.shelf (shelfOf i)).queue = [] := by
    rw [hbus.queue]
    exact (replied_queue ..).trans hqueue
  have hexam : act (.examine (shelfOf i)) u = (u, []) := Prod.ext (examine_of_empty huqueue) rfl
  have hphase' : (u.shelf (shelfOf i)).phase = .ending := by
    have hending : (p.shelf (shelfOf i)).phase = .ending := replied_phase ..
    rw [hkept (by rw [hending]; simp), hending]
  -- The drive has answered, and the arbiter chooses.
  have hudrive : (u.slot i).drive.isSome := by
    rw [huslot]; simp [SlotRec.polled, SlotRec.reported, hdrive]
  let a := answeredDrive i u
  have haslot : a.slot i = { u.slot i with drive := (u.slot i).drive.map fun d => { d with missed := 0 } } :=
    State.modDrive_slot ..
  have haslot_ne : ∀ j, j ≠ i → a.slot j = u.slot j := fun j hj => State.modDrive_slot_ne _ hj _
  have hasole : SolePending a i (.startTest code run.phase) := hsole.congr rfl rfl
  have hchosen := choose_solePending hasole (by show inFlight (u.shelf (shelfOf i)).phase = none; rw [hphase']; rfl)
  have hfree : carryOut 1 [.wireFree (shelfOf i)] a = some (choose (shelfOf i) a) := rfl
  refine ⟨startTx (choose (shelfOf i) a), ?_, fun j hj => ?_, ?_, ?_, hchosen.startTx.slotPending, ?_, ?_⟩
  · have hreplies := h.answering.replies (body := [tb, 2, th, tl, progress, 0])
      (fields := .status test .ready temperature share false) wire (by simp) rfl hfields
    refine hreplies.trans (conclude_of (n := 5) (by decide) ?_)
    exact carryOut_append (carryOut_act hpoll (carryOut_append (carryOut_quiet hready) (carryOut_quiet hexam)))
      (carryOut_append (counted_done hudrive ..) hfree)
  · rw [chosen_slot, haslot_ne j hj, hbus.slot]
    simp only [resuming, staleAtResume, p, State.modRun, State.modSlot_modSlot, State.modSlot_slot_ne _ hj]
    exact replied_slot ..
  all_goals rw [chosen_slot, haslot, huslot]
  · simp [SlotRec.polled, hcls]
  · simp [SlotRec.polled, hcls]

/-- Settles O51: the suspension and its stop, the phase whose drive has gone, the stale report, and the resume. -/
theorem suspensionAndResume : Obligations.SuspensionAndResume := by
  unfold Obligations.SuspensionAndResume
  intro i s run body onFail hrun hphase counted k
  refine ⟨fun reason hgoing hw hbody => ?_, fun n d wire h => h.suspension_stopped wire, ?_, ?_, ?_, ?_⟩
  · obtain ⟨hsuspended, hpending, hflag, hquiet⟩ := interrupted_stops hphase reason hgoing hw hbody
    exact ⟨hsuspended.trans (congrArg some (Run.suspendedBy_eq reason run)), hpending, hflag, hquiet⟩
  · intro n d wire h hmissed hl ho ha _ hp hdec hstate
    refine ⟨fun duration code scan wall hbody hfail hmany hrest => ?_, fun cycles off on hbody hrunning hstep => ?_⟩
    · exact h.ends_test wire hmissed hl ho ha hp hrun hphase hdec hstate ⟨_, _, _, hbody⟩ hfail hmany hrest
    · exact h.cycle_attaches wire hmissed hl ho ha hp hrun hphase ⟨_, _, _, hbody⟩ hrunning hstep
  · intro reason cycles off on hbody hrunning hstep hd
    rw [interrupted_cycle hrun hphase reason ⟨_, _, _, hbody⟩ hrunning hstep]
    have hback : s.modRun i (fun run =>
        { countInterruption run with cycleStep := some .spin, offTimer := none, onTimer := none }) =
        s.modSlot i fun r => { r with run := some { counted with
          cycleStep := some .spin, offTimer := none, onTimer := none } } :=
      State.modSlot_congr (by rw [hrun]; rfl)
    exact (if_pos hd).trans (congrArg₂ Prod.mk hback rfl)
  · intro kind rep hkind hold hrep hlive hd hs hw
    exact staleReport_taken (hkind.imp (fun h => ⟨_, h⟩) fun ⟨reason, h⟩ => ⟨_, reason, h⟩) hold hrep hlive hd hs hw
  · intro n d wire code tb th tl progress test h htest hstate hcls hreq hqueue hbody
    obtain ⟨t, ht, hothers, htcls, htimer, hpending, hreports, htrun⟩ :=
      h.resumes wire th tl progress hrun hphase htest hstate hcls hreq hqueue hbody
    refine ⟨t, ht, hothers, htcls, htimer, hpending, ?_, htrun⟩
    rw [hreports]
    exact List.map_congr_left fun rep _ => rep.outlived_eq

end Sys2Proof.Machine
end

