-- ==== Sys2Proof/Proofs/ShelfTables.lean ====
section
/-! SUPPORT. The requests that set a shelf's poll interval and console rate, the wake pattern and the vector table (R59,
R75, R76, R79, R101, R167). -/

namespace Sys2Proof.Machine

/-! ## BUS_SET and CONSOLE_SET (R59, R167) -/

/-- A poll timer with more time left than the new interval is cut to it (R59). -/
def SlotRec.pollCut (ends : Nat) (r : SlotRec) : SlotRec := { r with pollTimer := cutTimer ends r.pollTimer }

/-- The shelf's poll timers cut to an interval. -/
def pollsCut (k : Shelf) (interval : Nat) (s : State) : State :=
  (slotsOf k).foldl (fun s i => s.modSlot i (SlotRec.pollCut (s.now + secs interval))) s

theorem pollsCut_eq (k : Shelf) (interval : Nat) (s : State) :
    pollsCut k interval s = (slotsOf k).foldl (fun u i => u.modSlot i (SlotRec.pollCut (s.now + secs interval))) s := by
  unfold pollsCut
  have hmoment : ∀ (l : List Slot) (u : State), u.now = s.now →
      l.foldl (fun u i => u.modSlot i (SlotRec.pollCut (u.now + secs interval))) u =
        l.foldl (fun u i => u.modSlot i (SlotRec.pollCut (s.now + secs interval))) u := by
    intro l
    induction l with
    | nil => exact fun _ _ => rfl
    | cons i l ih =>
      intro u hu
      rw [List.foldl_cons, List.foldl_cons, hu]
      exact ih _ hu
  exact hmoment _ s rfl

theorem pollsCut_shelves (k : Shelf) (interval : Nat) (s : State) : (pollsCut k interval s).shelves = s.shelves := by
  unfold pollsCut
  induction slotsOf k generalizing s with
  | nil => rfl
  | cons i l ih => exact ih _

theorem pollsCut_slot (k : Shelf) (interval : Nat) (s : State) (i : Slot) : (pollsCut k interval s).slot i =
    if shelfOf i = k then (s.slot i).pollCut (s.now + secs interval) else s.slot i := by
  rw [pollsCut_eq, foldl_modSlot_slot _ _ (slotsOf_nodup k)]
  simp only [mem_slotsOf]

section
variable {p : List Byte} {k : Shelf} (hp : p.length = 2) (hk : field8 p 0 = k.val) (s : State)
include hp hk

theorem handleBusSet_ok (hlow : 1 ≤ field8 p 1) (hhigh : field8 p 1 ≤ 30) : handleBusSet p s =
    .ok (pollsCut k (field8 p 1) (s.modShelf k fun sh => { sh with pollSecs := field8 p 1 })) [] := by
  have hin : within 1 30 (field8 p 1) = true := by simp [within, hlow, hhigh]
  rw [handleBusSet, withLength_eq hp, withShelf_val hk, hin]
  rfl

theorem handleConsoleSet_ok {rate : ConsoleRate} (hrate : consoleRateOf (field8 p 1) = some rate) :
    handleConsoleSet p s = .ok (s.modShelf k fun sh => { sh with rate := rate }) [] := by
  rw [handleConsoleSet, withLength_eq hp, withShelf_val hk, hrate]

theorem handleConsoleSet_refuse (hrate : 3 < field8 p 1) : handleConsoleSet p s = .refuse .badValue := by
  have hnone : consoleRateOf (field8 p 1) = none := by
    obtain ⟨m, hm⟩ : ∃ m, field8 p 1 = m + 4 := ⟨field8 p 1 - 4, by omega⟩
    rw [hm]
    rfl
  rw [handleConsoleSet, withLength_eq hp, withShelf_val hk, hnone]
end

/-- A poll interval in its range is set, and the poll timers of the shelf are cut to it. -/
theorem busSet_cuts {tag : Byte} {p : List Byte} {s : State} {k : Shelf} (hp : p.length = 2) (hk : field8 p 0 = k.val)
    (hlow : 1 ≤ field8 p 1) (hhigh : field8 p 1 ≤ 30) (h : NextServed 0x05#8 tag p s) :
    ∃ t, exec (.busSet tag p) s = .next (answered 0x05#8 tag .ok .none t) ∧
      (t.shelf k).pollSecs = field8 p 1 ∧ (∀ l : Shelf, l ≠ k → t.shelf l = s.shelf l) ∧
      ∀ i : Slot, t.slot i = if shelfOf i = k then
          { s.slot i with
            pollTimer := match (s.slot i).pollTimer with
              | some m => some (min m (s.now + 1000 * field8 p 1))
              | none => none }
        else s.slot i := by
  let u := (serving 0x05#8 tag p s).modShelf k fun sh => { sh with pollSecs := field8 p 1 }
  have hshelf : ∀ l, (pollsCut k (field8 p 1) u).shelf l = u.shelf l := fun l => by
    simp only [State.shelf, pollsCut_shelves]
  refine ⟨pollsCut k (field8 p 1) u, ?_, ?_, fun l hl => ?_, fun i => ?_⟩
  · exact (serve_next h _).trans (answerRequest_done (handleBusSet_ok hp hk _ hlow hhigh))
  · rw [hshelf, State.modShelf_shelf]
  · rw [hshelf]; exact State.modShelf_shelf_ne _ hl _
  · have htimer : ∀ (m : Nat) (t : Option Nat), cutTimer m t = match t with | some x => some (min x m) | none => none :=
      fun m t => by cases t <;> rfl
    rw [pollsCut_slot, SlotRec.pollCut, htimer]
    rfl

/-! ## KEY_LOAD (R75, R76, R79) -/

/-- Without a slot in the attaching set no deadline stands or runs. -/
theorem mapDeadlines_of_empty {k : Shelf} {s : State} (h : attachSet s k = []) (f : Deadline → Deadline) :
    mapDeadlines k f s = s := by
  have hnone : ∀ i ∈ slotsOf k, (s.slot i).deadline = none := fun i hi => by
    by_contra hd
    have : i ∈ attachSet s k := mem_attachSet.2 ⟨mem_slotsOf.1 hi, by simpa [Option.isSome_iff_ne_none] using hd⟩
    rw [h] at this
    cases this
  unfold mapDeadlines
  revert hnone
  induction slotsOf k with
  | nil => exact fun _ => rfl
  | cons i l ih =>
    intro hnone
    have hsame : (s.modSlot i fun r => { r with deadline := r.deadline.map f }) = s := by
      refine State.modSlot_eq_self ?_
      have hd := hnone i (by simp)
      generalize s.slot i = r at hd
      cases r
      simp_all
    rw [List.foldl_cons, hsame]
    exact ih fun j hj => hnone j (by simp [hj])

/-- A shelf where nothing attaches or waits for the pattern is left as it is by its replacement. -/
theorem keyLoaded_of_empty {k : Shelf} {s : State} (h : attachSet s k = []) (hpass : (s.shelf k).pass ≠ .keyWait) :
    keyLoaded k s = s := by
  have hkey : syncKey k s = s := by simp [syncKey, keyMissing, h, mapDeadlines_of_empty h]
  simp [keyLoaded, hkey, hpass]

section
variable (k : Shelf) (s : State)

theorem keyLoaded_attachOnly : AttachOnly k s (keyLoaded k s) := by
  unfold keyLoaded
  dsimp only
  split
  · exact (syncKey_attachOnly k s).trans (nextRound_attachOnly ..)
  · exact syncKey_attachOnly k s

theorem syncKey_attachSet (l : Shelf) : attachSet (syncKey k s) l = attachSet s l := by
  refine List.filter_congr fun i _ => ?_
  unfold syncKey
  split <;> simp only [raiseShelf_slot, mapDeadlines_slot] <;> split <;> simp

theorem keyLoaded_attachSet (l : Shelf) : attachSet (keyLoaded k s) l = attachSet s l := by
  rw [← syncKey_attachSet k s l]
  unfold keyLoaded
  dsimp only
  split
  · exact List.filter_congr fun i _ => by rw [nextRound_slot]
  · rfl
end

/-- A shelf that waits for the pattern with slots attaching opens its round (R79). -/
theorem keyLoaded_opens {k : Shelf} {s : State} (hpass : (s.shelf k).pass = .keyWait) (hset : attachSet s k ≠ [])
    (hwake : s.wakePattern ≠ []) : ((keyLoaded k s).shelf k).pass = .round .contest := by
  have hsame : (syncKey k s).wakePattern = s.wakePattern := (syncKey_attachOnly k s).changed.wakePattern_eq
  have hopens : ((syncKey k s).shelf k).pass = .keyWait ∧ (syncKey k s).wakePattern.isEmpty = false := by
    rw [syncKey_shelf, hsame]
    exact ⟨hpass, by simpa using hwake⟩
  have hloaded : keyLoaded k s = nextRound k (syncKey k s) := if_pos hopens
  rw [hloaded, nextRound_pass, passNext, syncKey_attachSet, hsame, if_neg hset, if_neg hwake]

/-- The shelves of a list told of the pattern, one after the other. -/
def keysLoaded (l : List Shelf) (s : State) : State := l.foldl (fun s k => keyLoaded k s) s

theorem keysLoaded_cons (k : Shelf) (l : List Shelf) (s : State) :
    keysLoaded (k :: l) s = keysLoaded l (keyLoaded k s) := rfl

theorem keysLoaded_wakePattern (l : List Shelf) (s : State) : (keysLoaded l s).wakePattern = s.wakePattern := by
  induction l generalizing s with
  | nil => rfl
  | cons k l ih => rw [keysLoaded_cons, ih, (keyLoaded_attachOnly k s).changed.wakePattern_eq]

theorem keysLoaded_shelf {k : Shelf} {l : List Shelf} (h : k ∉ l) (s : State) : (keysLoaded l s).shelf k = s.shelf k := by
  induction l generalizing s with
  | nil => rfl
  | cons a l ih =>
    obtain ⟨hne, hl⟩ : k ≠ a ∧ k ∉ l := by simpa using h
    rw [keysLoaded_cons, ih hl, (keyLoaded_attachOnly a s).shelf_ne k hne]

theorem keysLoaded_opens {k : Shelf} {l : List Shelf} (hl : l.Nodup) (hk : k ∈ l) {s : State}
    (hpass : (s.shelf k).pass = .keyWait) (hset : attachSet s k ≠ []) (hwake : s.wakePattern ≠ []) :
    ((keysLoaded l s).shelf k).pass = .round .contest := by
  induction l generalizing s with
  | nil => cases hk
  | cons a l ih =>
    obtain ⟨ha, hl⟩ := List.nodup_cons.1 hl
    rw [keysLoaded_cons]
    by_cases hka : k = a
    · subst hka
      rw [keysLoaded_shelf ha]
      exact keyLoaded_opens hpass hset hwake
    · refine ih hl ((List.mem_cons.1 hk).resolve_left hka) ?_ ?_ ?_
      · rw [(keyLoaded_attachOnly a s).shelf_ne k hka]; exact hpass
      · rw [keyLoaded_attachSet]; exact hset
      · rw [(keyLoaded_attachOnly a s).changed.wakePattern_eq]; exact hwake

theorem keysLoaded_of_empty {s : State} (h : ∀ k, attachSet s k = [] ∧ (s.shelf k).pass ≠ .keyWait) (l : List Shelf) :
    keysLoaded l s = s := by
  induction l with
  | nil => rfl
  | cons k l ih => rw [keysLoaded_cons, keyLoaded_of_empty (h k).1 (h k).2, ih]

/-- A payload that holds the stated number of bytes replaces the pattern (R75, R206). -/
theorem handleKeyLoad_ok {p : List Byte} (hlen : p.length = 1 + field8 p 0) (hn : field8 p 0 ≤ 32) (s : State) :
    handleKeyLoad p s = .ok (keysLoaded allShelves { s with wakePattern := p.drop 1 }) [] := by
  rw [handleKeyLoad, if_neg (by omega), if_neg (by omega), if_neg (by omega)]
  rfl

section
variable {tag : Byte} {p : List Byte} {s : State} (h : NextServed 0x07#8 tag p s)
include h

theorem keyLoad_refused : (p = [] →
      exec (.keyLoad tag p) s = .next (answered 0x07#8 tag .badLength .none (serving 0x07#8 tag p s))) ∧
    (p ≠ [] → 32 < field8 p 0 →
      exec (.keyLoad tag p) s = .next (answered 0x07#8 tag .badValue .none (serving 0x07#8 tag p s))) ∧
    (p ≠ [] → field8 p 0 ≤ 32 → p.length ≠ 1 + field8 p 0 →
      exec (.keyLoad tag p) s = .next (answered 0x07#8 tag .badLength .none (serving 0x07#8 tag p s))) := by
  have hsome : p ≠ [] → ¬p.length < 1 := fun hp => by have := List.length_pos_of_ne_nil hp; omega
  refine ⟨fun hp => serve_refuse h ?_, fun hp hn => serve_refuse h ?_, fun hp hn hlen => serve_refuse h ?_⟩
  · rw [handleKeyLoad, if_pos (by simp [hp])]
  · rw [handleKeyLoad, if_neg (hsome hp), if_pos hn]
  · rw [handleKeyLoad, if_neg (hsome hp), if_neg (Nat.not_lt.2 hn), if_pos hlen]

theorem keyLoad_loads (hlen : p.length = 1 + field8 p 0) (hn : field8 p 0 ≤ 32) : exec (.keyLoad tag p) s =
    .next (answered 0x07#8 tag .ok .none (keysLoaded allShelves { serving 0x07#8 tag p s with wakePattern := p.drop 1 })) :=
  (serve_next h _).trans (answerRequest_done (handleKeyLoad_ok hlen hn _))
end

/-! ## VECTOR_SET (R101) -/

theorem setVectors_getElem (first last : Nat) (a : VectorAction) (v : Vector VectorAction 224) (n : Fin 224) :
    (setVectors first last a v)[n] = if first ≤ n.val + 32 ∧ n.val + 32 ≤ last then a else v[n] := by
  simp [setVectors]

theorem vectorActionOf_eq_none {n : Nat} (h : 4 < n) : vectorActionOf n = none := by
  obtain ⟨m, rfl⟩ : ∃ m, n = m + 5 := ⟨n - 5, by omega⟩
  rfl

section
variable {p : List Byte} (hp : p.length = 3) (s : State)
include hp

theorem handleVectorSet_refuse (h : field8 p 0 < 32 ∨ field8 p 1 < field8 p 0 ∨ 4 < field8 p 2) :
    handleVectorSet p s = .refuse .badValue := by
  rw [handleVectorSet, withLength_eq hp]
  split
  · rfl
  · next hrange =>
    rw [not_or] at hrange
    rw [vectorActionOf_eq_none ((h.resolve_left hrange.1).resolve_left hrange.2)]

theorem handleVectorSet_ok {a : VectorAction} (hlow : 32 ≤ field8 p 0) (hrange : field8 p 0 ≤ field8 p 1)
    (ha : vectorActionOf (field8 p 2) = some a) :
    handleVectorSet p s = .ok { s with vectors := setVectors (field8 p 0) (field8 p 1) a s.vectors } [] := by
  rw [handleVectorSet, withLength_eq hp, if_neg (by omega), ha]
end

/-- Settles O21: the four requests, each by what its handling sets. -/
theorem shelfTablesAreSet : Obligations.ShelfTablesAreSet := by
  unfold Obligations.ShelfTablesAreSet
  refine ⟨fun tag p s k hp hk => ⟨fun hlow hhigh h => busSet_cuts hp hk hlow hhigh h, fun rate hrate h => ?_,
    fun hrate h => serve_refuse h (handleConsoleSet_refuse hp hk _ hrate)⟩, fun tag p s h => ?_, fun tag p s hp h => ?_⟩
  · exact (serve_next h _).trans (answerRequest_done (handleConsoleSet_ok hp hk _ hrate))
  · obtain ⟨hempty, hlong, hcount⟩ := keyLoad_refused h
    refine ⟨hempty, hlong, hcount, fun hlen hn => ⟨fun hquiet => ?_, ?_⟩⟩
    · have hsame := keysLoaded_of_empty (s := { serving 0x07#8 tag p s with wakePattern := p.drop 1 }) hquiet allShelves
      rw [keyLoad_loads h hlen hn, hsame]
    · have hall : ∀ k : Shelf, k ∈ allShelves := by decide
      refine ⟨_, keyLoad_loads h hlen hn, keysLoaded_wakePattern .., fun k hsome hpass hset => ?_⟩
      refine keysLoaded_opens (by decide) (hall k) hpass hset ?_
      show p.drop 1 ≠ []
      rw [ne_eq, List.drop_eq_nil_iff]
      omega
  · refine ⟨fun hbad => serve_refuse h (handleVectorSet_refuse hp _ hbad), fun a hlow hrange ha => ?_⟩
    exact ⟨_, (serve_next h _).trans (answerRequest_done (handleVectorSet_ok hp _ hlow hrange ha)),
      fun n => setVectors_getElem _ _ a s.vectors n⟩

end Sys2Proof.Machine
end

