-- ==== Sys2Proof/Proofs/ShelfRestart.lean ====
section
/-! SUPPORT. SHELF_RESTART: what is kept of a shelf's slots while one after the other loses its run, and while one after the
other is placed (R70, R131). -/

namespace Sys2Proof.Machine

/-! ## What a restart keeps of one slot -/

/-- The second record stands for the first in a restart: its run and identity memory have gone, its segment is emptied, and
it is placed if it was bound, each where it is said to be; its result and its segment's place are kept. -/
structure Restarted (r₀ r : SlotRec) (gone emptied placed : Prop) : Prop where
  result : r.result = r₀.result
  base : r.seg.base = r₀.seg.base
  limit : r.seg.limit = r₀.seg.limit
  bound : r₀.adm = .bound → r.adm = .bound
  runs : ¬gone → r₀.run.isSome → r.run.isSome
  gone : gone → r.run = none ∧ r.identity = none
  emptied : emptied → r.seg = Segment.empty r₀.seg.base r₀.seg.limit
  placed : placed → r₀.adm = .bound → r.occ = .ready ∧ r.ladder = 0

section
variable {r₀ r r' : SlotRec} {gone emptied placed : Prop} (h : Restarted r₀ r gone emptied placed)
include h

theorem Restarted.of_fields (hresult : r'.result = r.result) (hseg : r'.seg = r.seg) (hadm : r'.adm = r.adm)
    (hrun : r'.run = r.run) (hident : r'.identity = r.identity) (hocc : r'.occ = r.occ) (hladder : r'.ladder = r.ladder) :
    Restarted r₀ r' gone emptied placed where
  result := hresult.trans h.result
  base := by rw [hseg, h.base]
  limit := by rw [hseg, h.limit]
  bound hb := hadm.trans (h.bound hb)
  runs hg hs := by rw [hrun]; exact h.runs hg hs
  gone hg := by rw [hrun, hident]; exact h.gone hg
  emptied he := hseg.trans (h.emptied he)
  placed hp hb := by rw [hocc, hladder]; exact h.placed hp hb

/-- Of a slot that was not bound, nothing is said of admission, occupancy and ladder. -/
theorem Restarted.of_unbound (hne : r₀.adm ≠ .bound) (hresult : r'.result = r.result) (hseg : r'.seg = r.seg)
    (hrun : r'.run.isSome = r.run.isSome) (hident : r'.identity = r.identity) (placed' : Prop) :
    Restarted r₀ r' gone emptied placed' where
  result := hresult.trans h.result
  base := by rw [hseg, h.base]
  limit := by rw [hseg, h.limit]
  bound hb := absurd hb hne
  runs hg hs := by rw [hrun]; exact h.runs hg hs
  gone hg := by
    obtain ⟨hnone, hid⟩ := h.gone hg
    rw [hnone] at hrun
    exact ⟨by simpa using hrun, hident.trans hid⟩
  emptied he := hseg.trans (h.emptied he)
  placed _ hb := absurd hb hne
end

theorem SlotRec.poweredOn_seg (r : SlotRec) (rank : Nat) (by_ : Requester) (boot : Option Nat) :
    (r.poweredOn rank by_ boot).seg = r.seg := by rw [poweredOn_frame]

theorem SlotRec.poweredOn_run_isSome (r : SlotRec) (rank : Nat) (by_ : Requester) (boot : Option Nat) :
    (r.poweredOn rank by_ boot).run.isSome = r.run.isSome := by
  unfold SlotRec.poweredOn
  dsimp only
  split <;> split <;> simp

/-! ## What a restart keeps of the cell -/

/-- The second state stands for the first in a restart of a shelf, with the slots of three lists without their runs, emptied
and placed: the other shelves' slots stand as they did, and no slot that was bound waits for power. -/
structure Restarting (k : Shelf) (s : State) (gone emptied placed : List Slot) (u : State) : Prop where
  others : ∀ j, shelfOf j ≠ k → u.slot j = s.slot j
  queue : ∀ e ∈ (u.shelf k).queue, shelfOf e.slot = k ∧ (e.kind = .power → (s.slot e.slot).adm ≠ .bound)
  slots : ∀ i, shelfOf i = k → Restarted (s.slot i) (u.slot i) (i ∈ gone) (i ∈ emptied) (i ∈ placed)

section
variable {k : Shelf} {s u v : State} {gone emptied placed : List Slot} (h : Restarting k s gone emptied placed u)
include h

/-- A change of one slot of the shelf, which may have joined a list by it. -/
theorem Restarting.modSlot {i : Slot} (hi : shelfOf i = k) {f : SlotRec → SlotRec} {gone' emptied' placed' : List Slot}
    (hf : Restarted (s.slot i) (f (u.slot i)) (i ∈ gone') (i ∈ emptied') (i ∈ placed'))
    (hlists : ∀ j, j ≠ i → (j ∈ gone' ↔ j ∈ gone) ∧ (j ∈ emptied' ↔ j ∈ emptied) ∧ (j ∈ placed' ↔ j ∈ placed)) :
    Restarting k s gone' emptied' placed' (u.modSlot i f) where
  others j hj := by
    rw [State.modSlot_slot_ne _ (by rintro rfl; exact hj hi)]
    exact h.others j hj
  queue := h.queue
  slots j hj := by
    by_cases hji : j = i
    · subst hji
      rw [State.modSlot_slot]
      exact hf
    · obtain ⟨hg, he, hp⟩ := hlists j hji
      rw [State.modSlot_slot_ne _ hji, hg, he, hp]
      exact h.slots j hj

theorem Restarting.modSlot_same {i : Slot} (hi : shelfOf i = k) {f : SlotRec → SlotRec}
    (hf : Restarted (s.slot i) (u.slot i) (i ∈ gone) (i ∈ emptied) (i ∈ placed) →
      Restarted (s.slot i) (f (u.slot i)) (i ∈ gone) (i ∈ emptied) (i ∈ placed)) :
    Restarting k s gone emptied placed (u.modSlot i f) :=
  h.modSlot hi (hf (h.slots i hi)) fun _ _ => ⟨.rfl, .rfl, .rfl⟩

theorem Restarting.setQueue {q : List QueueEntry}
    (hq : ∀ e ∈ q, shelfOf e.slot = k ∧ (e.kind = .power → (s.slot e.slot).adm ≠ .bound)) :
    Restarting k s gone emptied placed (setQueue k q u) where
  others := h.others
  queue := by rw [setQueue_shelf]; exact hq
  slots := h.slots

theorem Restarting.of_busOnly (hbus : BusOnly k u v) : Restarting k s gone emptied placed v where
  others j hj := (hbus.slot j).trans (h.others j hj)
  queue := by rw [hbus.queue]; exact h.queue
  slots i hi := by rw [hbus.slot]; exact h.slots i hi

theorem Restarting.grant {e : QueueEntry} (he : shelfOf e.slot = k)
    (hpower : e.kind = .power → (s.slot e.slot).adm ≠ .bound) : Restarting k s gone emptied placed (grant e u) := by
  obtain ⟨f, hf, hrec⟩ := grant_eq e u
  rw [hf]
  refine h.modSlot_same he fun hr => ?_
  rcases hrec with ⟨rank, boot, hk, hrec⟩ | ⟨rank, window, -, hrec⟩
  · rw [hrec]
    exact hr.of_unbound (hpower hk) (SlotRec.poweredOn_result ..) (SlotRec.poweredOn_seg ..)
      (SlotRec.poweredOn_run_isSome ..) (SlotRec.poweredOn_identity ..) _
  · rw [hrec]
    exact hr.of_fields rfl rfl rfl rfl rfl rfl rfl
end

section
variable {k : Shelf} {s u : State} {gone emptied placed : List Slot}

theorem Restarting.examineTimes (n : Nat) (h : Restarting k s gone emptied placed u) :
    Restarting k s gone emptied placed (examineTimes n k u) := by
  induction n generalizing u with
  | zero => exact h
  | succ n ih =>
    unfold Machine.examineTimes
    split
    · next e rest hq =>
      split
      · obtain ⟨he, hpower⟩ := h.queue e (by rw [hq]; exact List.mem_cons_self)
        refine ih (Restarting.grant (h.setQueue fun x hx => ?_) he hpower)
        exact h.queue x (by rw [hq]; exact List.mem_cons_of_mem _ hx)
      · exact h
    · exact h

theorem Restarting.examine (h : Restarting k s gone emptied placed u) : Restarting k s gone emptied placed (examine k u) :=
  h.examineTimes _

theorem Restarting.spinDown {i : Slot} (h : Restarting k s gone emptied placed u) (hi : shelfOf i = k) :
    Restarting k s gone emptied placed (spinDown i u) := by
  subst hi
  have hidle : Restarting (shelfOf i) s gone emptied placed (Machine.examine (shelfOf i) (toIdle i u)) :=
    (h.modSlot_same rfl fun hr => hr.of_fields rfl rfl rfl rfl rfl rfl rfl).examine
  have hwithdraw : ∀ v, Restarting (shelfOf i) s gone emptied placed v →
      Restarting (shelfOf i) s gone emptied placed (withdrawEntry i .spin v) := fun v hv => by
    unfold withdrawEntry
    split
    · exact (hv.setQueue fun e he => hv.queue e (mem_withoutSlot.1 he).1).examine
    · exact hv
  refine hwithdraw _ ?_
  split
  · exact hidle
  · exact hidle
  · exact h

/-- A slot that is not bound was not at the start. -/
theorem Restarting.unbound {i : Slot} (h : Restarting k s gone emptied placed u) (hi : shelfOf i = k)
    (hne : (u.slot i).adm ≠ .bound) : (s.slot i).adm ≠ .bound := fun hb => hne ((h.slots i hi).bound hb)

/-- A slot that was not bound has nothing to be placed for. -/
theorem Restarting.placed_unbound {i : Slot} (h : Restarting k s gone emptied placed u) (hne : (s.slot i).adm ≠ .bound) :
    Restarting k s gone emptied (i :: placed) u where
  others := h.others
  queue := h.queue
  slots j hj := by
    have hr := h.slots j hj
    refine ⟨hr.result, hr.base, hr.limit, hr.bound, hr.runs, hr.gone, hr.emptied, fun hp hb => ?_⟩
    rcases List.mem_cons.1 hp with rfl | hp
    · exact absurd hb hne
    · exact hr.placed hp hb

/-! ## The runs go (R131, steps 1 to 4) -/

theorem Restarting.restartSlot {i : Slot} (h : Restarting k s gone gone [] u) (hi : shelfOf i = k)
    (hrun : (s.slot i).run.isSome) (hnew : i ∉ gone) :
    Restarting k s (i :: gone) (i :: gone) [] (restartSlot i u) := by
  have hsome : (u.slot i).run.isSome := (h.slots i hi).runs hnew hrun
  have hlists : ∀ j, j ≠ i → (j ∈ i :: gone ↔ j ∈ gone) := fun j hj => by simp [hj]
  have hdropped : Restarting k s (i :: gone) gone [] ((dropRun i u).modSlot i fun r => { r with identity := none }) := by
    rw [dropRun, State.modSlot_modSlot]
    refine h.modSlot hi ?_ fun j hj => ⟨hlists j hj, .rfl, .rfl⟩
    have hr := h.slots i hi
    exact ⟨hr.result, hr.base, hr.limit, hr.bound, fun hg => absurd List.mem_cons_self hg, fun _ => ⟨rfl, rfl⟩,
      hr.emptied, hr.placed⟩
  have hrenounced : ∀ kind v, Restarting k s (i :: gone) gone [] v → Restarting k s (i :: gone) gone [] (renounce i kind v) :=
    fun kind v hv => hv.of_busOnly (hi ▸ renounce_busOnly i kind v)
  have hdown := (hrenounced .stopTest _ (hrenounced .startTest _ hdropped)).spinDown hi
  have hempty := hdown.modSlot (f := fun r => { r with seg := Segment.empty r.seg.base r.seg.limit })
    (gone' := i :: gone) (emptied' := i :: gone) (placed' := []) hi ?_ fun j hj => ⟨.rfl, hlists j hj, .rfl⟩
  · have hrestart : Machine.restartSlot i u = emptySegment i (Machine.spinDown i (renounce i .stopTest (renounce i .startTest
        ((dropRun i u).modSlot i fun r => { r with identity := none })))) := if_neg (by simpa [Option.isSome_iff_ne_none] using hsome)
    rw [hrestart]
    exact hempty
  · have hr := hdown.slots i hi
    refine ⟨hr.result, hr.base, hr.limit, hr.bound, hr.runs, hr.gone, fun _ => ?_, hr.placed⟩
    show Segment.empty _ _ = _
    rw [hr.base, hr.limit]

theorem Restarting.restartSlots {l : List Slot} (hl : l.Nodup) (hruns : ∀ i ∈ l, shelfOf i = k ∧ (s.slot i).run.isSome)
    (hnew : ∀ i ∈ l, i ∉ gone) (h : Restarting k s gone gone [] u) :
    Restarting k s (l.reverse ++ gone) (l.reverse ++ gone) [] (l.foldl (fun s i => Machine.restartSlot i s) u) := by
  induction l generalizing gone u with
  | nil => exact h
  | cons i l ih =>
    obtain ⟨hi, hl⟩ := List.nodup_cons.1 hl
    obtain ⟨hshelf, hrun⟩ := hruns i List.mem_cons_self
    have hnext := ih hl (fun j hj => hruns j (List.mem_cons_of_mem _ hj)) (gone := i :: gone) (fun j hj => ?_)
      (h.restartSlot hshelf hrun (hnew i List.mem_cons_self))
    · rw [List.reverse_cons, List.append_assoc]
      exact hnext
    · rw [List.mem_cons, not_or]
      exact ⟨fun hji => hi (hji ▸ hj), hnew j (List.mem_cons_of_mem _ hj)⟩

/-! ## The slots are placed (R131, step 5) -/

/-- A slot that was not bound moves. -/
theorem Restarting.setOcc {i : Slot} (h : Restarting k s gone emptied placed u) (hi : shelfOf i = k)
    (hne : (s.slot i).adm ≠ .bound) {o : Occupancy} (ho : o ≠ .binWait) :
    Restarting k s gone emptied placed (setOcc i o u) := by
  rw [setOcc_of_ne_binWait i u ho]
  refine h.modSlot_same hi fun hr => hr.of_unbound hne ?_ ?_ ?_ ?_ _ <;> rw [SlotRec.movedTo_frame]

/-- A slot that was not bound asks for its power. -/
theorem Restarting.requestPower {i : Slot} (h : Restarting k s gone emptied placed u) (hi : shelfOf i = k)
    (hne : (s.slot i).adm ≠ .bound) : Restarting k s gone emptied placed (requestPower i .supervisor u) := by
  subst hi
  unfold Machine.requestPower
  simp only [reduceCtorEq, if_false, false_and]
  split
  · exact h
  · split
    · exact h
    · have hqueued := (h.setQueue (q := placeRequest { slot := i, kind := .power, requester := .supervisor }
          (u.shelf (shelfOf i)).queue) fun e he => ?_).modSlot_same (i := i) (f := fun r => { r with adm := .queued }) rfl
        fun hr => by refine hr.of_unbound hne ?_ ?_ ?_ ?_ _ <;> rfl
      · refine Restarting.examine ?_
        split
        · exact hqueued
        · exact hqueued.setOcc rfl hne (by decide)
      · rcases mem_placeRequest he with rfl | ⟨he, -⟩
        · exact ⟨rfl, fun _ => hne⟩
        · exact h.queue e he

theorem Restarting.placeRestarted {i : Slot} (h : Restarting k s gone emptied placed u) (hi : shelfOf i = k) :
    ∃ v, carryOut 2 [.placeRestarted i] u = some v ∧ Restarting k s gone emptied (i :: placed) v := by
  have hquiet : ∀ v, act (.placeRestarted i) u = (v, []) → carryOut 2 [.placeRestarted i] u = some v := fun v hv =>
    carryOut_mono (by decide) (carryOut_quiet hv)
  have hmoved : ∀ {o : Occupancy}, (u.slot i).adm ≠ .bound → o ≠ .binWait →
      Restarting k s gone emptied (i :: placed) (Machine.setOcc i o u) := fun hadm ho =>
    (h.setOcc hi (h.unbound hi hadm) ho).placed_unbound (h.unbound hi hadm)
  cases hadm : (u.slot i).adm with
  | bound =>
    refine ⟨_, hquiet ((Machine.setOcc i .ready u).modSlot i fun r => { r with ladder := 0 })
      (by simp only [act, Machine.placeRestarted, hadm]), ?_⟩
    rw [setOcc_of_ne_binWait i u (by decide), State.modSlot_modSlot]
    refine h.modSlot hi ?_ fun j hj => ⟨.rfl, .rfl, by simp [hj]⟩
    have hr := h.slots i hi
    have hframe := SlotRec.movedTo_frame (u.slot i) .ready
    simp only [Function.comp_apply]
    rw [hframe]
    exact ⟨hr.result, hr.base, hr.limit, hr.bound, hr.runs, hr.gone, hr.emptied, fun _ _ => ⟨rfl, rfl⟩⟩
  | booting =>
    exact ⟨_, hquiet _ (by simp only [act, Machine.placeRestarted, hadm]; rfl), hmoved (by simp [hadm]) (by decide)⟩
  | attaching =>
    exact ⟨_, hquiet _ (by simp only [act, Machine.placeRestarted, hadm]; rfl), hmoved (by simp [hadm]) (by decide)⟩
  | queued =>
    exact ⟨_, hquiet _ (by simp only [act, Machine.placeRestarted, hadm]; rfl), hmoved (by simp [hadm]) (by decide)⟩
  | off =>
    have hne : (s.slot i).adm ≠ .bound := h.unbound hi (by simp [hadm])
    by_cases hheld : (u.slot i).occ = .held
    · exact ⟨u, hquiet u (by simp only [act, Machine.placeRestarted, hadm, hheld, if_true]), h.placed_unbound hne⟩
    · cases hcause : heldCause u i with
      | true =>
        refine ⟨_, hquiet (Machine.setOcc i .held u) ?_, hmoved (by simp [hadm]) (by decide)⟩
        simp only [act, Machine.placeRestarted, hadm, hheld, hcause, if_true, if_false]
      | false =>
        have hasks : act (.placeRestarted i) u = (u, [.requestPower i .supervisor]) := by
          simp only [act, Machine.placeRestarted, hadm, hheld, hcause, Bool.false_eq_true, if_false]
        exact ⟨Machine.requestPower i .supervisor u, carryOut_act hasks (carryOut_quiet rfl),
          (h.requestPower hi hne).placed_unbound hne⟩

theorem Restarting.placeAll {l : List Slot} (hl : ∀ i ∈ l, shelfOf i = k) (h : Restarting k s gone emptied placed u) :
    ∃ v, carryOut (2 * l.length) (l.map .placeRestarted) u = some v ∧
      Restarting k s gone emptied (l.reverse ++ placed) v := by
  induction l generalizing placed u with
  | nil => exact ⟨u, carryOut_nil .., h⟩
  | cons i l ih =>
    obtain ⟨v, hv, hplaced⟩ := h.placeRestarted (hl i List.mem_cons_self)
    obtain ⟨w, hw, hall⟩ := ih (fun j hj => hl j (List.mem_cons_of_mem _ hj)) hplaced
    refine ⟨w, ?_, ?_⟩
    · have hcount : 2 + 2 * l.length = 2 * (i :: l).length := by rw [List.length_cons]; omega
      rw [← hcount]
      exact carryOut_append hv hw
    · rw [List.reverse_cons, List.append_assoc]
      exact hall
end

/-! ## TEST_RESET (R70, R131) -/

/-- What is submitted for the shelf is pending or in flight, whatever the arbiter chooses. -/
theorem submitReset_pending (k : Shelf) (s : State) : ((submitReset k s).shelf k).testReset.isSome ∨
    flightIs (fun it => decide (it.cmd = .testReset)) ((submitReset k s).shelf k).phase = true := by
  let u := s.modShelf k fun sh =>
    { sh with testReset := some { shelf := k, slot := none, cmd := .testReset, owner := .planRunner } }
  have hu : (u.shelf k).testReset = some { shelf := k, slot := none, cmd := .testReset, owner := .planRunner } := by simp [u]
  have hkick : submitReset k s = kick k u := rfl
  rw [hkick, kick]
  split
  · rcases choose_cases k u with ht | ht | ht | ⟨c, ht⟩ | ht
    · unfold takeAttach at ht
      split at ht
      · rw [← Option.some.inj ht]; exact .inl (by simp [launch, hu])
      · cases ht
    · unfold takeWide at ht
      split at ht
      · rw [← Option.some.inj ht]; exact .inl (by simp [launch, hu])
      · cases ht
    · rw [takeTestReset, hu] at ht
      rw [← Option.some.inj ht]; exact .inr (by simp [launch, flightIs, inFlight])
    · obtain ⟨_, -, ht⟩ := Option.map_eq_some_iff.1 ht
      rw [← ht]; exact .inl (by simp [launch, hu])
    · rw [ht]; exact .inl (by simp [hu])
  · exact .inl (by simp [hu])

theorem submitReset_busOnly (k : Shelf) (s : State) : BusOnly k s (submitReset k s) := by
  unfold submitReset
  refine BusOnly.trans (.of_mod ?_) (kick_busOnly _ _)
  rfl

theorem mem_runSlots {s : State} {k : Shelf} {i : Slot} : i ∈ runSlots s k ↔ shelfOf i = k ∧ (s.slot i).run.isSome := by
  simp [runSlots, mem_slotsOf]

theorem runSlots_length_le (s : State) (k : Shelf) : (runSlots s k).length ≤ 8 := by
  have hslots : (slotsOf k).length = 8 := rfl
  exact hslots ▸ List.length_filter_le ..

/-- Settles O22: the runs go one after the other, the slots are placed one after the other, and TEST_RESET is submitted. -/
theorem shelfRestartDropsTheRuns : Obligations.ShelfRestartDropsTheRuns := by
  unfold Obligations.ShelfRestartDropsTheRuns
  intro tag p s k hp hk h hqueue
  let u := serving 0x04#8 tag p s
  let l := runSlots s k
  have hl : l.Nodup := (slotsOf_nodup k).filter _
  have hruns : ∀ i ∈ l, shelfOf i = k ∧ (s.slot i).run.isSome := fun i hi => mem_runSlots.1 hi
  have hstart : Restarting k s [] [] [] u :=
    ⟨fun _ _ => rfl, hqueue, fun i _ => ⟨rfl, rfl, rfl, id, fun _ => id, nofun, nofun, nofun⟩⟩
  have hdropped := hstart.restartSlots hl hruns (by simp)
  obtain ⟨v, hv, hplaced⟩ := hdropped.placeAll fun i hi => (hruns i hi).1
  have hdone := hplaced.of_busOnly (submitReset_busOnly k v)
  have hhandled : handleShelfRestart p u =
      .ok (l.foldl (fun s i => restartSlot i s) u) (l.map .placeRestarted ++ [.submitTestReset k]) := by
    rw [handleShelfRestart, withLength_eq hp, withShelf_val hk]
    rfl
  have hcarry := carryOut_append hv (carryOut_quiet (x := .submitTestReset k) (s := v) (u := submitReset k v) rfl)
  have hbound : 2 * l.length + 1 ≤ Config.tellBound := by
    have : l.length ≤ 8 := runSlots_length_le s k
    simp only [Config.tellBound]
    omega
  refine ⟨submitReset k v, (serve_next h _).trans (answerRequest_ok hhandled hbound hcarry), fun i hi hrun => ?_,
    fun i hi => hdone.others i hi, submitReset_pending k v⟩
  have hmem : i ∈ l.reverse ++ [] := by simpa [l] using mem_runSlots.2 ⟨hi, hrun⟩
  have hr := hdone.slots i hi
  obtain ⟨hnone, hident⟩ := hr.gone hmem
  exact ⟨hnone, hident, hr.result, hr.emptied hmem, hr.placed hmem⟩

end Sys2Proof.Machine
end

