-- ==== Sys2Proof/Proofs/NodeHolders.lean ====
section
/-! SUPPORT. The node maps agree with the drive parts (R90): what leaves every node with its holder, and the operations of the
Power Manager, which do. -/

namespace Sys2Proof.Machine

/-! ## What a pass names -/

/-- The node a pass works on has the property, and the slots it names are the shelf's. -/
def Pass.SoundFor (k : Shelf) (unbound : NodeIx → Prop) : Pass → Prop
  | .round (.assign n _) => unbound n
  | .round (.locate n _) => unbound n
  | .round (.window n _ _ pulsing _) => unbound n ∧ ∀ i ∈ pulsing, shelfOf i = k
  | .round (.readInfo n _ i _) => unbound n ∧ shelfOf i = k
  | _ => True

theorem passSound_iff {s : State} {k : Shelf} : PassSound s k ↔ (s.shelf k).pass.SoundFor k (NodeUnbound s k) := by
  unfold PassSound
  generalize (s.shelf k).pass = p
  cases p with
  | round step => cases step <;> exact .rfl
  | _ => exact .rfl

theorem Pass.SoundFor.mono {k : Shelf} {u v : NodeIx → Prop} (huv : ∀ n, u n → v n) {p : Pass} (h : p.SoundFor k u) :
    p.SoundFor k v := by
  cases p with
  | round step =>
    cases step with
    | assign n ident => exact huv n h
    | locate n ident => exact huv n h
    | window n ident opened pulsing left => exact ⟨huv n h.1, h.2⟩
    | readInfo n ident i attempt => exact ⟨huv n h.1, h.2⟩
    | _ => trivial
  | _ => trivial

/-- A window notes who has left; its node and its slots stay (R86). -/
theorem Pass.SoundFor.noteLeft {k : Shelf} {u : NodeIx → Prop} (i : Slot) {p : Pass} (h : p.SoundFor k u) :
    (noteLeft i p).SoundFor k u := by
  unfold Machine.noteLeft
  split <;> exact h

/-- A window notes the slots of its own shelf as pulsing (R85). -/
theorem Pass.SoundFor.edgeInWindow {u : NodeIx → Prop} (i : Slot) (level : Bool) (now : Nat) {p : Pass}
    (h : p.SoundFor (shelfOf i) u) : (edgeInWindow i level now p).SoundFor (shelfOf i) u := by
  unfold Machine.edgeInWindow
  split
  · next n ident opened pulsing left =>
    obtain ⟨hn, hpulse⟩ := h
    dsimp only
    split
    · split
      · refine ⟨hn, fun j hj => ?_⟩
        rcases List.mem_append.1 hj with hj | hj
        · exact hpulse j hj
        · rw [List.mem_singleton.1 hj]
      · exact ⟨hn, hpulse⟩
    · split
      · exact ⟨hn, fun j hj => hpulse j (List.mem_of_mem_filter hj)⟩
      · exact ⟨hn, hpulse⟩
  · exact h

/-- What follows a round's end names no node (R79). -/
theorem passNext_soundFor (s : State) (k : Shelf) (u : NodeIx → Prop) : (passNext s k).SoundFor k u := by
  unfold passNext
  split_ifs <;> trivial

/-! ## Every node with its holder -/

/-- Between two states every drive part has its node and every node its holder; a pass that was sound still is. -/
structure HoldersKept (s t : State) : Prop where
  node : ∀ i, nodeOf (t.slot i) = nodeOf (s.slot i)
  bound : ∀ (k : Shelf) (n : NodeIx) (i : Slot), (t.shelf k).nodes[n] = .bound i ↔ (s.shelf k).nodes[n] = .bound i
  pass : ∀ k, PassSound s k → PassSound t k

theorem HoldersKept.sound {s t : State} (h : HoldersKept s t) (hs : NodeMapSound s) : NodeMapSound t := by
  intro k
  obtain ⟨hpass, hmap⟩ := hs k
  refine ⟨h.pass k hpass, fun n i => ?_⟩
  have hnode : (t.slot i).drive.map DrivePart.node = (s.slot i).drive.map DrivePart.node := h.node i
  rw [h.bound, hnode]
  exact hmap n i

theorem HoldersKept.unbound {s t : State} (h : HoldersKept s t) {k : Shelf} {n : NodeIx} (hn : NodeUnbound s k n) :
    NodeUnbound t k n :=
  fun i hi => hn i ((h.bound k n i).1 hi)

theorem HoldersKept.refl (s : State) : HoldersKept s s := ⟨fun _ => rfl, fun _ _ _ => .rfl, fun _ => id⟩

theorem HoldersKept.trans {s t u : State} (h : HoldersKept s t) (h' : HoldersKept t u) : HoldersKept s u where
  node i := (h'.node i).trans (h.node i)
  bound k n i := (h'.bound k n i).trans (h.bound k n i)
  pass k hk := h'.pass k (h.pass k hk)

/-- A pass is sound where the nodes that no slot holds are so still. -/
theorem PassSound.of_pass {s t : State} {k : Shelf} (h : (t.shelf k).pass.SoundFor k (NodeUnbound s k))
    (hbound : ∀ (n : NodeIx) (i : Slot), (t.shelf k).nodes[n] = .bound i → (s.shelf k).nodes[n] = .bound i) :
    PassSound t k :=
  passSound_iff.2 (h.mono fun n hn i hi => hn i (hbound n i hi))

theorem HoldersKept.of_eq {s t : State} (hslot : ∀ i, nodeOf (t.slot i) = nodeOf (s.slot i))
    (hshelf : ∀ k, (t.shelf k).nodes = (s.shelf k).nodes ∧ (t.shelf k).pass = (s.shelf k).pass) : HoldersKept s t where
  node := hslot
  bound k n i := by rw [(hshelf k).1]
  pass k hk := .of_pass ((hshelf k).2 ▸ passSound_iff.1 hk) fun n i hi => by rwa [(hshelf k).1] at hi

/-- A change of anything but slots and shelves. -/
theorem HoldersKept.of_parts {s t : State} (hs : t.slots = s.slots) (hk : t.shelves = s.shelves) : HoldersKept s t :=
  .of_eq (fun i => by simp [State.slot, hs]) fun k => by simp [State.shelf, hk]

theorem HoldersKept.modSlot (s : State) (i : Slot) {f : SlotRec → SlotRec} (hf : nodeOf (f (s.slot i)) = nodeOf (s.slot i)) :
    HoldersKept s (s.modSlot i f) := by
  refine .of_eq (fun j => ?_) fun _ => ⟨rfl, rfl⟩
  rw [State.modSlot_slot_if]
  split
  · next h => rw [h, hf]
  · rfl

theorem HoldersKept.andSlot {s t : State} (h : HoldersKept s t) (i : Slot) {f : SlotRec → SlotRec}
    (hf : nodeOf (f (t.slot i)) = nodeOf (t.slot i)) : HoldersKept s (t.modSlot i f) :=
  h.trans (.modSlot t i hf)

/-- A change of a shelf that binds no node to a slot and frees none from one, and leaves the pass sound. -/
theorem HoldersKept.modShelf (s : State) (k : Shelf) {f : ShelfRec → ShelfRec}
    (hb : ∀ (n : NodeIx) (i : Slot), (f (s.shelf k)).nodes[n] = .bound i ↔ (s.shelf k).nodes[n] = .bound i)
    (hp : (s.shelf k).pass.SoundFor k (NodeUnbound s k) → (f (s.shelf k)).pass.SoundFor k (NodeUnbound s k)) :
    HoldersKept s (s.modShelf k f) where
  node _ := rfl
  bound l n i := by
    by_cases h : l = k
    · subst h; rw [State.modShelf_shelf]; exact hb n i
    · rw [s.modShelf_shelf_ne h]
  pass l hl := by
    rw [passSound_iff] at hl
    by_cases h : l = k
    · subst h
      exact .of_pass (by rw [State.modShelf_shelf]; exact hp hl) fun n i hi => (hb n i).1 (by rwa [State.modShelf_shelf] at hi)
    · have hsame := s.modShelf_shelf_ne h f
      exact .of_pass (by rwa [hsame]) fun n i hi => by rwa [hsame] at hi

/-- A change of a shelf that leaves its node map and its pass alone. -/
theorem HoldersKept.modShelf_other (s : State) (k : Shelf) {f : ShelfRec → ShelfRec}
    (hnodes : (f (s.shelf k)).nodes = (s.shelf k).nodes) (hpass : (f (s.shelf k)).pass = (s.shelf k).pass) :
    HoldersKept s (s.modShelf k f) :=
  .modShelf s k (fun n i => by rw [hnodes]) fun h => by rwa [hpass]

theorem HoldersKept.raise (c : Scope) (bit : Nat) (s : State) : HoldersKept s (setFlagBit c bit s) :=
  .of_parts (setFlagBit_slots c bit s) (setFlagBit_shelves c bit s)

theorem HoldersKept.foldl {α : Type} {f : State → α → State} (hf : ∀ s a, HoldersKept s (f s a)) (l : List α) (s : State) :
    HoldersKept s (l.foldl f s) :=
  foldl_keeps (P := HoldersKept s) (fun t a h => h.trans (hf t a)) l (.refl s)

theorem BusOnly.holdersKept {k : Shelf} {s t : State} (h : BusOnly k s t) : HoldersKept s t := by
  obtain ⟨b, rfl⟩ := h
  exact .modShelf_other s k rfl rfl

/-! ## The Power Manager (chapter 02) -/

theorem setOcc_holdersKept (i : Slot) (o : Occupancy) (s : State) : HoldersKept s (setOcc i o s) := by
  refine .of_eq (fun j => ?_) fun k => by simp
  rw [setOcc_slot_if]
  split
  · next h => simp [nodeOf, h]
  · rfl

theorem setQueue_holdersKept (k : Shelf) (q : List QueueEntry) (s : State) : HoldersKept s (setQueue k q s) :=
  .modShelf_other s k rfl rfl

theorem grant_holdersKept (e : QueueEntry) (s : State) : HoldersKept s (grant e s) := by
  obtain ⟨f, hf, hrec⟩ := grant_eq e s
  rw [hf]
  refine .modSlot s _ ?_
  rcases hrec with ⟨rank, boot, -, hrec⟩ | ⟨rank, window, -, hrec⟩
  · rw [hrec, nodeOf, SlotRec.poweredOn_drive]
  · rw [hrec]; rfl

theorem examineTimes_holdersKept (n : Nat) (k : Shelf) (s : State) : HoldersKept s (examineTimes n k s) := by
  induction n generalizing s with
  | zero => exact .refl s
  | succ n ih =>
    unfold examineTimes
    split
    · split
      · exact ((setQueue_holdersKept ..).trans (grant_holdersKept ..)).trans (ih _)
      · exact .refl s
    · exact .refl s

theorem examine_holdersKept (k : Shelf) (s : State) : HoldersKept s (examine k s) := examineTimes_holdersKept _ k s

theorem cyclePowered_holdersKept (i : Slot) (s : State) : HoldersKept s (cyclePowered i s) := by
  unfold cyclePowered State.modRun
  exact .modSlot s i rfl

theorem requestPower_holdersKept (i : Slot) (by_ : Requester) (s : State) : HoldersKept s (requestPower i by_ s) := by
  have hqueued : ∀ q, HoldersKept s ((setQueue (shelfOf i) q s).modSlot i fun r => { r with adm := .queued }) := fun q =>
    (setQueue_holdersKept ..).andSlot i rfl
  unfold requestPower
  refine ite_keeps (ite_keeps (cyclePowered_holdersKept i s) (.refl s)) (ite_keeps (.refl s) (ite_keeps (.refl s) ?_))
  exact (ite_keeps (hqueued _) ((hqueued _).trans (setOcc_holdersKept ..))).trans (examine_holdersKept ..)

theorem requestSpin_holdersKept (i : Slot) (s : State) : HoldersKept s (requestSpin i s).1 := by
  unfold requestSpin
  split
  · exact .refl s
  · exact (setQueue_holdersKept ..).trans (examine_holdersKept ..)
  · dsimp only
    exact .modSlot s i rfl
  · exact .refl s

theorem withdrawEntry_holdersKept (i : Slot) (kind : EntryKind) (s : State) : HoldersKept s (withdrawEntry i kind s) := by
  have hqueue := setQueue_holdersKept (shelfOf i) (withoutSlot i (s.shelf (shelfOf i)).queue) s
  exact ite_keeps ((ite_keeps (hqueue.andSlot i rfl) hqueue).trans (examine_holdersKept ..)) (.refl s)

theorem toIdle_holdersKept (i : Slot) (s : State) : HoldersKept s (toIdle i s) := .modSlot s i rfl

theorem spinDown_holdersKept (i : Slot) (s : State) : HoldersKept s (spinDown i s) := by
  unfold spinDown
  refine HoldersKept.trans ?_ (withdrawEntry_holdersKept ..)
  split
  · exact (toIdle_holdersKept ..).trans (examine_holdersKept ..)
  · exact (toIdle_holdersKept ..).trans (examine_holdersKept ..)
  · exact .refl s

theorem cutPower_holdersKept (i : Slot) (s : State) : HoldersKept s (cutPower i s) :=
  (HoldersKept.modSlot s i rfl).trans (setQueue_holdersKept ..)

theorem motorReport_holdersKept (i : Slot) (motor : Motor) (s : State) : HoldersKept s (motorReport i motor s).1 := by
  unfold motorReport
  dsimp only
  split
  · dsimp only
    exact .modSlot s i rfl
  · exact .refl s

theorem windowExpired_holdersKept (i : Slot) (s : State) : HoldersKept s (windowExpired i s).1 :=
  ite_fst_keeps (toIdle_holdersKept i s) (.refl s)

/-! ## Shedding and the disable of a shelf (R42 to R45) -/

theorem shedMotors_holdersKept (n : Nat) (k : Shelf) (c : PowerClass) (x : State × List Owed) :
    HoldersKept x.1 (shedMotors n k c x).1 := by
  induction n generalizing x with
  | zero => exact .refl x.1
  | succ n ih =>
    unfold shedMotors
    split
    · exact .refl _
    · split
      · exact .refl _
      · exact (toIdle_holdersKept _ x.1).trans (ih (_, _))

theorem shedPower_holdersKept (n : Nat) (k : Shelf) (x : State × List Owed) : HoldersKept x.1 (shedPower n k x).1 := by
  induction n generalizing x with
  | zero => exact .refl x.1
  | succ n ih =>
    unfold shedPower
    split
    · exact .refl _
    · split
      · exact .refl _
      · exact (cutPower_holdersKept _ x.1).trans (ih (_, _))

theorem shedStages_holdersKept (k : Shelf) (s : State) : HoldersKept s (shedStages k s).1 := by
  have hinrush : HoldersKept s (if (s.shelf k).idleDraw < (s.shelf k).inrushDraw then
      shedMotors 8 k .inrush (s, []) else (s, [])).1 := ite_fst_keeps (shedMotors_holdersKept 8 k .inrush (s, [])) (.refl s)
  exact (ite_fst_keeps (hinrush.trans (shedMotors_holdersKept 8 k .run _)) hinrush).trans (shedPower_holdersKept 8 k _)

theorem owePower_holdersKept (o : Owed) (s : State) : HoldersKept s (owePower o s) := by
  have hq : HoldersKept s (s.modSlot o.slot fun r => { r with adm := .queued }) := .modSlot s _ rfl
  exact ite_keeps (ite_keeps hq (hq.trans (setOcc_holdersKept ..))) (.refl s)

theorem placeOwed_holdersKept (k : Shelf) (owed : List Owed) (s : State) : HoldersKept s (placeOwed k owed s) :=
  (setQueue_holdersKept ..).trans (.foldl (fun s o => owePower_holdersKept o s) _ _)

theorem shed_holdersKept (k : Shelf) (s : State) : HoldersKept s (shed k s).1 := by
  have hstages := shedStages_holdersKept k s
  unfold shed
  generalize shedStages k s = x at hstages ⊢
  split
  · exact hstages.trans (placeOwed_holdersKept ..)
  · exact .refl s

theorem limitChanged_holdersKept (k : Shelf) (s : State) : HoldersKept s (limitChanged k s).1 :=
  ite_fst_keeps (shed_holdersKept k s) (examine_holdersKept k s)

theorem disableShelf_holdersKept (k : Shelf) (s : State) : HoldersKept s (disableShelf k s).1 :=
  (HoldersKept.foldl (fun s i => cutPower_holdersKept i s) _ s).trans
    ((HoldersKept.foldl (fun s _ => ite_keeps (.modSlot s _ rfl) (.refl s)) _ _).trans (setQueue_holdersKept ..))

end Sys2Proof.Machine
end

