-- ==== Sys2Proof/Proofs/NodeMaps.lean ====
section
/-! SUPPORT. The Attach Unit keeps the node maps in agreement with the drive parts (R90): rounds, bindings, nodes given up and
freed, drive parts discarded; and so does every step. -/

namespace Sys2Proof.Machine

/-! ## Nodes, passes and rounds -/

/-- An unbound node takes an entry that binds it to no slot. -/
theorem setNode_holdersKept {s : State} {k : Shelf} {n : NodeIx} {e : NodeEntry} (hn : NodeUnbound s k n)
    (he : ∀ i : Slot, e ≠ .bound i) : HoldersKept s (setNode k n e s) := by
  refine .modShelf s k (fun m i => ?_) id
  by_cases hm : m = n
  · subst hm
    have hold : (s.shelf k).nodes[m.val] ≠ .bound i := hn i
    simp [he i, hold]
  · have hne : n.val ≠ m.val := fun h => hm (Fin.ext h.symm)
    simp [Vector.getElem_set_ne, hne]

theorem setPass_holdersKept {s : State} {k : Shelf} {p : Pass} (hp : p.SoundFor k (NodeUnbound s k)) :
    HoldersKept s (setPass k p s) :=
  .modShelf s k (fun _ _ => .rfl) fun _ => hp

theorem nextRound_holdersKept (k : Shelf) (s : State) : HoldersKept s (nextRound k s) :=
  (setPass_holdersKept (passNext_soundFor ..)).trans (nextRound_busOnly k s).holdersKept

theorem openRound_holdersKept (k : Shelf) (s : State) : HoldersKept s (openRound k s) :=
  (setPass_holdersKept (p := .round .contest) trivial).trans (openRound_busOnly k s).holdersKept

theorem pausePass_holdersKept (k : Shelf) (reason : PauseReason) (s : State) : HoldersKept s (pausePass k reason s) :=
  setPass_holdersKept trivial

theorem submitAttach_holdersKept (k : Shelf) (cmd : BusCmd) (s : State) : HoldersKept s (submitAttach k cmd s) :=
  (submitAttach_busOnly k cmd s).holdersKept

theorem setMismatches_holdersKept (k : Shelf) (n : Nat) (s : State) : HoldersKept s (setMismatches k n s) :=
  .modShelf_other s k rfl rfl

theorem syncKey_holdersKept (k : Shelf) (s : State) : HoldersKept s (syncKey k s) := by
  have hmap : ∀ f, HoldersKept s (mapDeadlines k f s) := fun f => .foldl (fun s i => .modSlot s i rfl) _ s
  exact ite_keeps ((hmap _).trans (.raise ..)) (hmap _)

theorem giveUp_holdersKept {s : State} {k : Shelf} {n : NodeIx} (hn : NodeUnbound s k n) : HoldersKept s (giveUp k n s) :=
  ite_keeps (setNode_holdersKept hn (by simp)) ((setNode_holdersKept hn (by simp)).trans (submitAttach_holdersKept ..))

/-- A round that ends without a binding gives its node up, and the pass goes on. -/
theorem nextRound_giveUp_holdersKept {s : State} {k : Shelf} {n : NodeIx} (hn : NodeUnbound s k n) :
    HoldersKept s (nextRound k (giveUp k n s)) :=
  (giveUp_holdersKept hn).trans (nextRound_holdersKept ..)

/-! ## The attaching set (R77, R79, R91) -/

/-- The pass stops, and gives up the node it was at. -/
theorem stopPass_holdersKept {s : State} {k : Shelf} (hp : PassSound s k) : HoldersKept s (stopPass k s) := by
  have hs : HoldersKept s (setPass k .idle (orphan k isPassItem (s.modShelf k fun sh =>
      { sh with attachList := sh.attachList.filter fun it => !isPassItem it }))) :=
    ((HoldersKept.modShelf_other s k rfl rfl).trans (orphan_busOnly ..).holdersKept).trans (setPass_holdersKept trivial)
  have hgive : ∀ {n}, NodeUnbound s k n → HoldersKept s (giveUp k n _) := fun hn => hs.trans (giveUp_holdersKept (hs.unbound hn))
  rw [passSound_iff] at hp
  unfold stopPass
  dsimp only
  split
  · next h => rw [h] at hp; exact hgive hp
  · next h => rw [h] at hp; exact hgive hp
  · next h => rw [h] at hp; exact hgive hp.1
  · exact hs

theorem joinSet_holdersKept (i : Slot) (s : State) : HoldersKept s (joinSet i s) := by
  have hjoined : HoldersKept s (joined i s) := (HoldersKept.modSlot s i rfl).trans (syncKey_holdersKept ..)
  have hcount := hjoined.trans (setMismatches_holdersKept (shelfOf i) 0 _)
  rw [joinSet_eq]
  split
  · exact ite_keeps (hcount.trans (setPass_holdersKept trivial)) (hcount.trans (openRound_holdersKept ..))
  · exact hjoined.trans (nextRound_holdersKept ..)
  · exact hjoined

/-- The node that was binding to a slot is held by none. -/
theorem Pass.SoundFor.bindingNode {k : Shelf} {u : NodeIx → Prop} {i : Slot} {n : NodeIx} {p : Pass} (h : p.SoundFor k u)
    (hb : bindingNode i p = some n) : u n := by
  unfold Machine.bindingNode at hb
  split at hb
  · split at hb
    · cases hb; exact h.1
    · cases hb
  · cases hb

/-- The slot's deadline goes, a window notes it, and the node that was binding to it is free; the pass stops, goes on, or
stays as it is. -/
theorem leaveSet_nodeMapSound {s : State} (i : Slot) (h : NodeMapSound s) : NodeMapSound (leaveSet i s) := by
  unfold leaveSet
  refine ite_keeps h ?_
  have hkey := ((HoldersKept.modSlot s i (f := fun r => { r with deadline := none }) rfl).trans
    (syncKey_holdersKept (shelfOf i) _)).sound h
  dsimp only
  generalize syncKey (shelfOf i) _ = u at hkey ⊢
  have hnote : HoldersKept u (u.modShelf (shelfOf i) fun sh => { sh with pass := noteLeft i sh.pass }) :=
    .modShelf u _ (fun _ _ => .rfl) fun hp => hp.noteLeft i
  have hpass := passSound_iff.1 (hkey (shelfOf i)).1
  cases hb : bindingNode i (u.shelf (shelfOf i)).pass with
  | none =>
    have hs := hnote.sound hkey
    exact ite_keeps ((stopPass_holdersKept (hs _).1).sound hs) hs
  | some n =>
    have hfree := hnote.trans (setNode_holdersKept (e := .free) (hnote.unbound (hpass.bindingNode hb)) (by simp))
    have hs := hfree.sound hkey
    exact ite_keeps ((stopPass_holdersKept (hs _).1).sound hs)
      ((((HoldersKept.modShelf_other _ _ rfl rfl).trans (orphan_busOnly ..).holdersKept).trans
        (nextRound_holdersKept ..)).sound hs)

/-- The nodes that are freed were held by no slot. -/
theorem freeUnheld_holdersKept (k : Shelf) (s : State) : HoldersKept s (freeUnheld k s) := by
  refine ite_keeps (.modShelf s k (fun n i => ?_) id) (.refl s)
  simp only [Fin.getElem_fin, Vector.getElem_map]
  split <;> simp [*]

theorem roundOver_holdersKept (k : Shelf) (s : State) : HoldersKept s (roundOver k s) :=
  ite_keeps (nextRound_holdersKept k s) (.refl s)

theorem keyLoaded_holdersKept (k : Shelf) (s : State) : HoldersKept s (keyLoaded k s) :=
  ite_keeps ((syncKey_holdersKept k s).trans (nextRound_holdersKept ..)) (syncKey_holdersKept k s)

theorem activityEdge_holdersKept (i : Slot) (level : Bool) (s : State) : HoldersKept s (activityEdge i level s) :=
  .modShelf s _ (fun _ _ => .rfl) fun hp => hp.edgeInWindow i level s.now

/-! ## A slot takes a node, and gives it back (R89, R90) -/

theorem setNode_nodes_if (k l : Shelf) (n m : NodeIx) (e : NodeEntry) (s : State) :
    ((setNode k n e s).shelf l).nodes[m] = if l = k ∧ m = n then e else (s.shelf l).nodes[m] := by
  by_cases hl : l = k
  · subst hl
    by_cases hm : m = n
    · subst hm; simp
    · have hne : n.val ≠ m.val := fun h => hm (Fin.ext h.symm)
      simp [Vector.getElem_set_ne, hne, hm]
  · have hsame : (setNode k n e s).shelf l = s.shelf l := s.modShelf_shelf_ne hl _
    simp [hsame, hl]

/-- The maps stay sound where one slot takes or gives back one node of its shelf, which no other slot holds. -/
theorem NodeMapSound.of_handover {s t : State} {i : Slot} {n : NodeIx} {e : NodeEntry} {o : Option NodeIx}
    (h : NodeMapSound s) (hpass : ∀ l, PassSound t l)
    (hnodes : ∀ (l : Shelf) (m : NodeIx), (t.shelf l).nodes[m] =
      if l = shelfOf i ∧ m = n then e else (s.shelf l).nodes[m])
    (hslot : ∀ j, nodeOf (t.slot j) = if j = i then o else nodeOf (s.slot j))
    (hother : ∀ j, j ≠ i → (s.shelf (shelfOf i)).nodes[n] ≠ .bound j)
    (hwas : ∀ m, nodeOf (s.slot i) = some m → m = n) (hnow : ∀ m, o = some m → m = n)
    (hentry : ∀ j, e = .bound j ↔ j = i ∧ o = some n) : NodeMapSound t := by
  refine fun l => ⟨hpass l, fun m j => ?_⟩
  have hold : (s.shelf l).nodes[m] = .bound j ↔ shelfOf j = l ∧ nodeOf (s.slot j) = some m := (h l).2 m j
  change _ ↔ shelfOf j = l ∧ nodeOf (t.slot j) = some m
  rw [hnodes, hslot]
  by_cases hat : l = shelfOf i ∧ m = n
  · obtain ⟨rfl, rfl⟩ := hat
    rw [if_pos ⟨rfl, rfl⟩, hentry]
    by_cases hj : j = i
    · simp [hj]
    · rw [if_neg hj, ← hold]
      simp only [hj, hother j hj, false_and]
  · rw [if_neg hat, hold]
    by_cases hj : j = i
    · subst hj
      have hnot : ∀ p : Option NodeIx, (∀ m, p = some m → m = n) → ¬(shelfOf j = l ∧ p = some m) :=
        fun p hp ⟨hl, hm⟩ => hat ⟨hl.symm, hp m hm⟩
      rw [if_pos rfl]
      exact iff_of_false (hnot _ hwas) (hnot _ hnow)
    · rw [if_neg hj]

/-- An unbound node is bound to a slot whose new drive part stands at it. -/
theorem bound_nodeMapSound {s : State} {i : Slot} {n : NodeIx} {f : SlotRec → SlotRec} (h : NodeMapSound s)
    (hn : NodeUnbound s (shelfOf i) n) (hd : (s.slot i).drive = none) (hf : nodeOf (f (s.slot i)) = some n) :
    NodeMapSound (setPass (shelfOf i) (.round .finishing) (setNode (shelfOf i) n (.bound i) (s.modSlot i f))) := by
  let u := setNode (shelfOf i) n (.bound i) (s.modSlot i f)
  have hkept : ∀ l, ((setPass (shelfOf i) (.round .finishing) u).shelf l).nodes = (u.shelf l).nodes := fun l => by
    rw [setPass, State.modShelf_shelf_if]
    split <;> simp [*]
  refine h.of_handover (i := i) (n := n) (e := .bound i) (o := some n) (fun l => ?_) (fun l m => ?_) (fun j => ?_)
    (fun j _ => hn j) (fun m hm => by simp [nodeOf, hd] at hm) (fun m hm => (Option.some.inj hm).symm) (by simp [eq_comm])
  · by_cases hl : l = shelfOf i
    · subst hl
      rw [passSound_iff, setPass_shelf]
      trivial
    · have hsame : (setPass (shelfOf i) (.round .finishing) u).shelf l = s.shelf l :=
        (State.modShelf_shelf_ne _ hl _).trans (State.modShelf_shelf_ne _ hl _)
      exact .of_pass (s := s) (by rw [hsame]; exact passSound_iff.1 (h l).1) fun m j hj => by rwa [hsame] at hj
  · rw [hkept]
    exact setNode_nodes_if ..
  · change nodeOf ((s.modSlot i f).slot j) = _
    rw [State.modSlot_slot_if]
    split <;> [exact hf; rfl]

/-- A drive part goes, and its node is free. -/
theorem freed_nodeMapSound {s : State} {i : Slot} {d : DrivePart} {f : SlotRec → SlotRec} (h : NodeMapSound s)
    (hd : (s.slot i).drive = some d) (hf : nodeOf (f (s.slot i)) = none) :
    NodeMapSound ((setNode (shelfOf i) d.node .free s).modSlot i f) := by
  let u := (setNode (shelfOf i) d.node .free s).modSlot i f
  have hown : (s.shelf (shelfOf i)).nodes[d.node] = .bound i := ((h (shelfOf i)).2 d.node i).2 ⟨rfl, by simp [hd]⟩
  have hnodes : ∀ (l : Shelf) (m : NodeIx), (u.shelf l).nodes[m] =
      if l = shelfOf i ∧ m = d.node then .free else (s.shelf l).nodes[m] := fun l m => setNode_nodes_if ..
  have hpass : ∀ l, (u.shelf l).pass = (s.shelf l).pass := fun l => by
    change ((setNode (shelfOf i) d.node .free s).shelf l).pass = _
    rw [setNode, State.modShelf_shelf_if]
    split <;> simp [*]
  refine h.of_handover (i := i) (n := d.node) (e := .free) (o := none) (fun l => ?_) hnodes (fun j => ?_)
    (fun j hj hb => hj (NodeEntry.bound.inj (hown.symm.trans hb)).symm) (fun m hm => ?_) nofun (by simp)
  · refine .of_pass (s := s) (by rw [hpass]; exact passSound_iff.1 (h l).1) fun m j hj => ?_
    rw [hnodes] at hj
    split at hj
    · cases hj
    · exact hj
  · change nodeOf ((s.modSlot i f).slot j) = _
    rw [State.modSlot_slot_if]
    split <;> [exact hf; rfl]
  · rw [nodeOf, hd] at hm
    exact (Option.some.inj hm).symm

theorem discardDrive_nodeMapSound {s : State} (i : Slot) (h : NodeMapSound s) : NodeMapSound (discardDrive i s).1 := by
  unfold discardDrive
  split
  · exact h
  · next d hd =>
    obtain ⟨f, hf⟩ := discardRecord_modSlot i (setNode (shelfOf i) d.node .free s)
    refine (dropWork_busOnly i _).holdersKept.sound ?_
    rw [hf, State.modSlot_modSlot]
    exact freed_nodeMapSound h hd rfl

theorem bind_nodeMapSound {s : State} {i : Slot} {n : NodeIx} (ident : Identity) (maxLba heads : Nat) (h : NodeMapSound s)
    (hn : NodeUnbound s (shelfOf i) n) (hd : (s.slot i).drive = none) : NodeMapSound (bind i n ident maxLba heads s).1 :=
  ((syncKey_holdersKept ..).trans (submit_busOnly i .poll .busController _).holdersKept).sound
    (bound_nodeMapSound h hn hd rfl)

/-! ## The outcomes of a round (R80 to R88) -/

theorem releaseOutcome_holdersKept (k : Shelf) (n : NodeIx) (answered : Bool) (s : State) :
    HoldersKept s (releaseOutcome k n answered s) := by
  have hunbound : ∀ e, nodeEntry s k n = e → (∀ i : Slot, e ≠ .bound i) → NodeUnbound s k n :=
    fun e he hne i hi => hne i (he.symm.trans hi)
  unfold releaseOutcome
  split
  · next h => exact setNode_holdersKept (hunbound _ h (by simp)) (by split <;> simp)
  · next h => exact setNode_holdersKept (hunbound _ h (by simp)) (by split <;> simp)
  · exact .refl s

/-- The node that a contest's winner is given is free. -/
theorem lowestFree_unbound {s : State} {k : Shelf} {n : NodeIx} (h : lowestFree s k = some n) : NodeUnbound s k n := by
  have hfree : (s.shelf k).nodes[n] = .free := by
    have hfound := List.find?_some (show allPositions.find? (fun m => decide (nodeEntry s k m = .free)) = some n from h)
    exact of_decide_eq_true hfound
  intro i hi
  cases hfree.symm.trans hi

theorem readContest_holdersKept (k : Shelf) (v : BitVec 64) (s : State) : HoldersKept s (readContest k v s) := by
  have hcount := fun m => setMismatches_holdersKept k m s
  have hraise : ∀ t : State, HoldersKept t (raiseShelf k .busFault t) := fun t => .raise ..
  unfold readContest
  refine ite_keeps ((hcount 0).trans (pausePass_holdersKept ..)) (ite_keeps ?_ (ite_keeps ?_ ?_))
  · dsimp only
    split
    · next n hn =>
      have hunbound := lowestFree_unbound hn
      have hunbound' : NodeUnbound s k n := fun i hi => hunbound i (by simpa [setMismatches] using hi)
      have hnode := (hcount 0).trans (setNode_holdersKept (e := .candidate) hunbound (by simp))
      have hround := hnode.trans (setPass_holdersKept (p := .round (.assign n (contestIdentity v))) (hnode.unbound hunbound'))
      exact hround.trans (submitAttach_holdersKept ..)
    · exact ((hcount 0).trans (hraise _)).trans (pausePass_holdersKept ..)
  · exact (hcount _).trans (nextRound_holdersKept ..)
  · exact ((hraise s).trans (setMismatches_holdersKept ..)).trans (pausePass_holdersKept ..)

theorem readInfoOutcome_nodeMapSound {s : State} {i : Slot} {n : NodeIx} (ident : Identity) (attempt : Nat)
    (answer : Answer) (h : NodeMapSound s) (hn : NodeUnbound s (shelfOf i) n) :
    NodeMapSound (readInfoOutcome (shelfOf i) n ident i attempt answer s).1 := by
  have hgive := (nextRound_giveUp_holdersKept hn).sound h
  unfold readInfoOutcome
  split
  · split
    · next hd => exact bind_nodeMapSound ident _ _ h hn (by simpa using hd)
    · exact hgive
  · split
    · have hagain : HoldersKept s (setPass (shelfOf i) (.round (.readInfo n ident i (attempt + 1))) s) :=
        setPass_holdersKept (And.intro hn rfl)
      exact (hagain.trans (submitAttach_holdersKept ..)).sound h
    · exact hgive
  · exact hgive

theorem attachAnswered_nodeMapSound {s : State} (k : Shelf) (cmd : BusCmd) (answer : Answer) (h : NodeMapSound s) :
    NodeMapSound (attachAnswered k cmd answer s).1 := by
  have hpass := passSound_iff.1 (h k).1
  unfold attachAnswered
  split
  · exact ite_keeps (((releaseOutcome_holdersKept ..).trans (pausePass_holdersKept ..)).sound h)
      ((releaseOutcome_holdersKept ..).sound h)
  · split
    · exact (readContest_holdersKept ..).sound h
    · exact h
  · next m ident hp =>
    rw [hp] at hpass
    have hlocate : HoldersKept s (setPass k (.round (.locate m ident)) s) := setPass_holdersKept hpass
    split
    · next hnm =>
      subst hnm
      split
      · exact (hlocate.trans (submitAttach_holdersKept ..)).sound h
      · exact (nextRound_giveUp_holdersKept hpass).sound h
    · exact h
  · next m ident hp =>
    rw [hp] at hpass
    have hwindow : HoldersKept s (setPass k (.round (.window m ident s.now [] [])) s) :=
      setPass_holdersKept (And.intro hpass nofun)
    split
    · next hnm =>
      subst hnm
      split
      · exact hwindow.sound h
      · exact (nextRound_giveUp_holdersKept hpass).sound h
    · exact h
  · next hp =>
    rw [hp] at hpass
    obtain ⟨hn, hi⟩ := hpass
    split
    · next hnm =>
      subst hnm hi
      exact readInfoOutcome_nodeMapSound _ _ answer h hn
    · exact h
  · exact h

/-- The window's one slot takes the node to binding, and a node that no one slot has pulsed for is given up (R86). -/
theorem closeWindow_nodeMapSound {s : State} {k : Shelf} {n : NodeIx} {ident : Identity} {opened : Nat}
    {pulsing left : List Slot} (hp : (s.shelf k).pass = .round (.window n ident opened pulsing left)) (h : NodeMapSound s) :
    NodeMapSound (closeWindow k n ident pulsing left s) := by
  have hpass := passSound_iff.1 (h k).1
  rw [hp] at hpass
  obtain ⟨hn, hpulse⟩ := hpass
  have hraised : HoldersKept s (raiseShelf k .busFault s) := .raise ..
  have hfault := (hraised.trans (nextRound_giveUp_holdersKept (hraised.unbound hn))).sound h
  unfold closeWindow
  split
  · have hwait : HoldersKept s (setPass k (.round (.release n)) s) := setPass_holdersKept trivial
    exact (hwait.trans (giveUp_holdersKept (hwait.unbound hn))).sound h
  · next i =>
    have hbinding : HoldersKept s (setNode k n (.binding i) s) := setNode_holdersKept hn (by simp)
    have hfree : HoldersKept s (setNode k n .free s) := setNode_holdersKept hn (by simp)
    have hread := hbinding.trans (setPass_holdersKept (p := .round (.readInfo n ident i 1))
      (And.intro (hbinding.unbound hn) (hpulse i (by simp))))
    exact ite_keeps ((hread.trans (submitAttach_holdersKept ..)).sound h) (ite_keeps ((hfree.trans (nextRound_holdersKept ..)).sound h) hfault)
  · exact hfault

/-! ## What the handling of requests leaves -/

/-- A handling that keeps every node with its holder. -/
theorem Handled.Keeps.of_holdersKept {f : Handled} {s : State} (h : NodeMapSound s) (hf : f.Keeps (HoldersKept s)) :
    f.Keeps NodeMapSound := by
  cases f with
  | refuse _ => trivial
  | take t tells body => exact HoldersKept.sound hf h

/-! ## Bins, segments and requests (R26, R147, R184, R188, R189) -/

theorem reserve_holdersKept (i : Slot) (b : BinIx) (s : State) : HoldersKept s (reserve i b s) := by
  unfold reserve noteFull
  have hr : HoldersKept s ((s.modBin b fun bin => { bin with reserved := bin.reserved + 1 }).modSlot i fun r =>
      { r with reservation := some b }) := (HoldersKept.of_parts (s := s) (t := s.modBin b _) rfl rfl).andSlot i rfl
  exact ite_keeps (.refl s) (ite_keeps (hr.trans (.raise ..)) hr)

theorem releaseReservation_holdersKept (i : Slot) (s : State) : HoldersKept s (releaseReservation i s).1 := by
  unfold releaseReservation
  split
  · exact .refl s
  · dsimp only
    exact (HoldersKept.of_parts (s := s) (t := s.modBin _ _) rfl rfl).andSlot i rfl

theorem convertReservation_holdersKept (i : Slot) (s : State) : HoldersKept s (convertReservation i s) := by
  unfold convertReservation
  split
  · exact .refl s
  · exact (HoldersKept.of_parts (s := s) (t := s.modBin _ _) rfl rfl).andSlot i rfl

theorem handleSegmentSet_holdersKept (p : List Byte) (s : State) : (handleSegmentSet p s).Keeps (HoldersKept s) := by
  refine withLength_stays (withSlot_stays fun i => ?_)
  dsimp only
  split
  · trivial
  · split
    · trivial
    · exact .modSlot s i rfl

theorem handleBinSet_holdersKept (p : List Byte) (s : State) : (handleBinSet p s).Keeps (HoldersKept s) := by
  refine withLength_stays (withBin_stays fun b => ?_)
  have hb : HoldersKept s (s.modBin b fun bin => { bin with capacity := field8 p 1 }) := .of_parts rfl rfl
  dsimp only
  split
  · trivial
  · split
    · exact hb
    · split
      · exact ite_keeps (hb.trans (.raise ..)) hb
      · exact hb

theorem handleShelfSet_holdersKept (p : List Byte) (s : State) : (handleShelfSet p s).Keeps (HoldersKept s) := by
  refine withLength_stays (withShelf_stays fun k => ?_)
  have hr : HoldersKept s (replaceShelf k p s) := .modShelf_other s k rfl rfl
  split
  · dsimp only
    split
    · exact hr.trans (disableShelf_holdersKept k _)
    · split
      · exact hr
      · exact hr.trans (shed_holdersKept k _)
  · trivial

theorem supplySettles_holdersKept (k : Shelf) (line : SupplyLine) (s : State) :
    HoldersKept s (supplySettles k line s).1 := by
  have hline : HoldersKept s (s.modShelf k (supplyLevel line)) :=
    .modShelf_other s k (by cases line <;> rfl) (by cases line <;> rfl)
  have hflags := supplyFlags_keeps (P := HoldersKept s) (k := k) (fun _ _ h => h.trans (.raise ..)) (s.shelf k)
    (supplyLevel line (s.shelf k)) hline
  rw [supplySettles_eq]
  exact ite_fst_keeps hflags (hflags.trans (limitChanged_holdersKept ..))

/-! ## Reset, the passing of time, and every step -/

/-- RESET keeps input pins alone, which are no part of a node map. -/
theorem resetOf_nodeMapSound (s : State) : NodeMapSound (resetOf s) := by
  refine HoldersKept.sound (.of_eq (fun i => ?_) fun k => ?_) nodeMapSound_reset
  · rw [resetOf_slot, reset_slot]; rfl
  · rw [resetOf_shelf, reset_shelf]; exact ⟨rfl, rfl⟩

theorem tick_holdersKept (s : State) : HoldersKept s (tick s) :=
  .of_eq (fun i => by simp [tick, State.slot]) fun k => by simp [tick, State.shelf]

/-- The operations of the blocks keep the node maps sound. -/
theorem nodeMapSound_plain : Plain NodeMapSound where
  modSlot i f hf h := by
    obtain ⟨-, hnode⟩ := hf (State.slot _ i)
    exact (HoldersKept.modSlot _ i hnode).sound h
  modShelf k f hf h := by
    obtain ⟨-, hnodes, hpass⟩ := hf (State.shelf _ k)
    exact (HoldersKept.modShelf_other _ k hnodes hpass).sound h
  holds _ _ h := (HoldersKept.of_parts rfl rfl).sound h
  raiseSlot _ _ h := (HoldersKept.raise ..).sound h
  raiseShelf _ _ h := (HoldersKept.raise ..).sound h
  raiseController _ h := (HoldersKept.raise ..).sound h
  examine k h := (examine_holdersKept k _).sound h
  requestPower i by_ h := (requestPower_holdersKept i by_ _).sound h
  requestSpin i h := (requestSpin_holdersKept i _).sound h
  withdrawEntry i kind h := (withdrawEntry_holdersKept i kind _).sound h
  spinDown i h := (spinDown_holdersKept i _).sound h
  cutPower i h := (cutPower_holdersKept i _).sound h
  motorReport i motor h := (motorReport_holdersKept i motor _).sound h
  windowExpired i h := (windowExpired_holdersKept i _).sound h
  unlockLatch i h := ite_keeps ((HoldersKept.modSlot _ i rfl).sound h) h
  lockLatch i h := (HoldersKept.modSlot _ i rfl).sound h
  insert i _ _ h := (HoldersKept.modSlot _ i rfl).sound h
  emptySegment i h := (HoldersKept.modSlot _ i rfl).sound h
  reserve i b _ h := (reserve_holdersKept i b _).sound h
  releaseReservation i h := (releaseReservation_holdersKept i _).sound h
  convertReservation i h := (convertReservation_holdersKept i _).sound h

/-- So do the Attach Unit's, and the commands. -/
theorem nodeMapSound_held : Held NodeMapSound where
  toPlain := nodeMapSound_plain
  leaveSet i h := leaveSet_nodeMapSound i h
  freeUnheld k h := (freeUnheld_holdersKept k _).sound h
  discardDrive i h := discardDrive_nodeMapSound i h
  attachAnswered k cmd answer h := attachAnswered_nodeMapSound k cmd answer h
  roundOver k h := (roundOver_holdersKept k _).sound h
  same hs hk _ h := (HoldersKept.of_parts hs hk).sound h
  shelfSet p h := .of_holdersKept h (handleShelfSet_holdersKept p _)
  segmentSet p h := .of_holdersKept h (handleSegmentSet_holdersKept p _)
  binSet p h := .of_holdersKept h (handleBinSet_holdersKept p _)
  toteSwap _ h := .of_holdersKept h (withLength_stays (withBin_stays fun _ => .of_parts rfl rfl))
  supplySettles k line h := (supplySettles_holdersKept k line _).sound h
  joinSet i h := (joinSet_holdersKept i _).sound h
  keyLoaded k h := (keyLoaded_holdersKept k _).sound h
  nextRound k h := (nextRound_holdersKept k _).sound h
  activityEdge i level h := (activityEdge_holdersKept i level _).sound h
  closeWindow _ _ _ _ _ _ hp h := closeWindow_nodeMapSound hp h
  reset {s} _ := resetOf_nodeMapSound s
  tick h := (tick_holdersKept _).sound h

/-- Settles O40: the node maps are sound in the `Held` sense, so that every command and every duty of the part keeps them. -/
theorem stepsKeepNodeMapSound : Obligations.StepsKeepNodeMapSound :=
  fun _ _ h ht => step_stays nodeMapSound_held h ht

end Sys2Proof.Machine
end

