-- ==== Sys2Proof/Proofs/Contest.lean ====
section
/-! SUPPORT. The reading of a contest (R81 to R84): no contender, a winner that is given the lowest free node, and a check byte
that is wrong. -/

namespace Sys2Proof.Machine

/-! ## The contest's value (R81) -/

/-- The fields of a contest's value are those it is put together from. -/
theorem contestIdentity_append (ident : Identity) (check : Byte) :
    contestIdentity (ident.serial ++ ident.model ++ check) = ident := by
  have hserial : (ident.serial ++ ident.model ++ check).extractLsb' 16 48 = ident.serial :=
    (BitVec.extractLsb'_append_eq_of_le (by decide)).trans BitVec.extractLsb'_append_eq_left
  have hmodel : (ident.serial ++ ident.model ++ check).extractLsb' 8 8 = ident.model :=
    (BitVec.extractLsb'_append_eq_of_le (by decide)).trans BitVec.extractLsb'_append_eq_right
  exact congrArg₂ Identity.mk hserial hmodel

theorem contestCheck_append (ident : Identity) (check : Byte) :
    contestCheck (ident.serial ++ ident.model ++ check) = check :=
  BitVec.extractLsb'_append_eq_right

/-! ## The pass and its count -/

@[simp] theorem setMismatches_shelf (k : Shelf) (m : Nat) (s : State) :
    (setMismatches k m s).shelf k = { s.shelf k with mismatches := m } := by simp [setMismatches]

@[simp] theorem pausePass_shelf (k : Shelf) (reason : PauseReason) (s : State) :
    (pausePass k reason s).shelf k = { s.shelf k with pass := .paused reason (s.now + 1000) } := by simp [pausePass]

@[simp] theorem setMismatches_now (k : Shelf) (m : Nat) (s : State) : (setMismatches k m s).now = s.now := rfl

/-! ## The lowest free node (R84) -/

theorem lowestFree_congr {s t : State} {k : Shelf} (h : (t.shelf k).nodes = (s.shelf k).nodes) :
    lowestFree t k = lowestFree s k := by
  unfold lowestFree nodeEntry
  rw [h]

/-- The lowest free node is the free one below which none is. -/
theorem lowestFree_eq_some {s : State} {k : Shelf} {n : NodeIx} (hn : (s.shelf k).nodes[n] = .free)
    (hlow : ∀ m : NodeIx, m < n → (s.shelf k).nodes[m] ≠ .free) : lowestFree s k = some n := by
  obtain ⟨l, m, hl, hlt⟩ := allPositions_eq n
  unfold lowestFree nodeEntry
  rw [hl, List.find?_append, List.find?_eq_none.2 fun x hx => by simpa using hlow x (hlt x hx)]
  rw [Option.none_or, List.find?_cons_of_pos (by simpa using hn)]

theorem lowestFree_eq_none {s : State} {k : Shelf} (h : ∀ n : NodeIx, (s.shelf k).nodes[n] ≠ .free) :
    lowestFree s k = none :=
  List.find?_eq_none.2 fun n _ hn => h n (of_decide_eq_true hn)

/-! ## The reading by its cases (R82 to R84) -/

section
variable {k : Shelf} {v : BitVec 64} {s : State}

theorem readContest_noContender (h : v = BitVec.allOnes 64) :
    readContest k v s = pausePass k .noContender (setMismatches k 0 s) := if_pos h

theorem readContest_winner {n : NodeIx} (h : v ≠ BitVec.allOnes 64)
    (hcheck : identityCheck (contestIdentity v) = contestCheck v) (hn : lowestFree s k = some n) :
    readContest k v s = submitAttach k (.assign n) (setPass k (.round (.assign n (contestIdentity v)))
      (setNode k n .candidate (setMismatches k 0 s))) := by
  have hn' : lowestFree (setMismatches k 0 s) k = some n := (lowestFree_congr (by simp)).trans hn
  simp only [readContest, h, hcheck, if_true, if_false, hn']

theorem readContest_noNode (h : v ≠ BitVec.allOnes 64)
    (hcheck : identityCheck (contestIdentity v) = contestCheck v) (hn : lowestFree s k = none) :
    readContest k v s = pausePass k .fault (raiseShelf k .busFault (setMismatches k 0 s)) := by
  have hn' : lowestFree (setMismatches k 0 s) k = none := (lowestFree_congr (by simp)).trans hn
  simp only [readContest, h, hcheck, if_true, if_false, hn']

/-- A value whose check byte is right ends a row of mismatches (R83). -/
theorem readContest_right_mismatches (h : v ≠ BitVec.allOnes 64)
    (hcheck : identityCheck (contestIdentity v) = contestCheck v) : ((readContest k v s).shelf k).mismatches = 0 := by
  cases hn : lowestFree s k with
  | none => simp [readContest_noNode h hcheck hn]
  | some n =>
    rw [readContest_winner h hcheck hn, (submitAttach_busOnly ..).mismatches]
    simp

theorem readContest_mismatch (h : v ≠ BitVec.allOnes 64)
    (hcheck : identityCheck (contestIdentity v) ≠ contestCheck v) (hm : (s.shelf k).mismatches < 2) :
    readContest k v s = nextRound k (setMismatches k ((s.shelf k).mismatches + 1) s) := by
  simp only [readContest, h, hcheck, if_false]
  exact if_pos (by omega)

theorem readContest_thirdMismatch (h : v ≠ BitVec.allOnes 64)
    (hcheck : identityCheck (contestIdentity v) ≠ contestCheck v) (hm : 2 ≤ (s.shelf k).mismatches) :
    readContest k v s = pausePass k .fault (setMismatches k 0 (raiseShelf k .busFault s)) := by
  simp only [readContest, h, hcheck, if_false]
  exact if_neg (by omega)
end

theorem readContest_slots (k : Shelf) (v : BitVec 64) (s : State) : (readContest k v s).slots = s.slots := by
  unfold readContest
  split
  · rfl
  · split
    · dsimp only
      split
      · exact (submitAttach_busOnly ..).slots
      · exact raiseShelf_slots ..
    · dsimp only
      split
      · exact nextRound_slots ..
      · exact raiseShelf_slots ..

/-! ## The end of the contest (R52) -/

/-- The item of a contest. -/
def contestItem (k : Shelf) : Item := { shelf := k, slot := none, cmd := .contest, owner := .attachUnit }

/-- The shelf as its contest is read. -/
def contestRead (k : Shelf) (s : State) : State :=
  (releaseWire k s).modShelf k fun sh => { sh with phase := .ending, stuckTimer := none }

theorem contestRead_busOnly (k : Shelf) (s : State) : BusOnly k s (contestRead k s) :=
  (releaseWire_busOnly k s).trans (.of_mod rfl)

/-- The Attach Unit reads the contest of its round, and the arbiter chooses. -/
theorem exec_contestEnd {k : Shelf} {s : State} (v : BitVec 64)
    (hf : (s.shelf k).phase = .contending { item := contestItem k, node := none, dropped := false, orphan := false })
    (hpass : (s.shelf k).pass = .round .contest) :
    exec (.contestEnd k v) s = .next (startTx (choose k (readContest k v (contestRead k s)))) := by
  have hact : act (.answered (contestItem k) (.done (.contest v))) (contestRead k s) =
      (readContest k v (contestRead k s), []) := by
    have hp := (contestRead_busOnly k s).pass.trans hpass
    simp only [act, answerOwner, contestItem, attachAnswered, hp]
  have hexec : exec (.contestEnd k v) s = conclude (contestRead k s,
      [.answered (contestItem k) (.done (.contest v))] ++ [.wireFree k]) := by
    simp only [exec, execContestEnd, hf]
    rfl
  have hfree : ∀ u, carryOut 1 [.wireFree k] u = some (choose k u) := fun _ => rfl
  exact hexec.trans (conclude_of (n := 2) (by decide) (carryOut_append (carryOut_quiet hact) (hfree _)))

/-- What is pending in the ATTACH list is so still, or in flight, once the arbiter has chosen. -/
theorem choose_attachPending {k : Shelf} {s : State} {cmd : BusCmd} (h : ∃ it ∈ (s.shelf k).attachList, it.cmd = cmd) :
    AttachPending (choose k s) k cmd := by
  obtain ⟨it, hit, hc⟩ := h
  cases hl : (s.shelf k).attachList with
  | nil => simp [hl] at hit
  | cons x rest =>
    rw [choose_attach hl]
    rcases List.mem_cons.1 (hl ▸ hit) with rfl | hit
    · exact .inr (by simp [launch, flightIs, inFlight, hc])
    · exact .inl ⟨it, by simpa [launch] using hit, hc⟩

/-- While a transaction stands an item submitted waits in the list. -/
theorem submitAttach_mem {k : Shelf} {cmd : BusCmd} {s : State} (h : (s.shelf k).phase ≠ .free) :
    ∃ it ∈ ((submitAttach k cmd s).shelf k).attachList, it.cmd = cmd := by
  refine ⟨{ shelf := k, slot := none, cmd := cmd, owner := .attachUnit }, ?_, rfl⟩
  unfold submitAttach kick
  rw [if_neg (by simpa using h)]
  simp

theorem AttachPending.startTx {k : Shelf} {s : State} {cmd : BusCmd} (h : AttachPending s k cmd) :
    AttachPending (startTx s) k cmd :=
  h.congr (by simp) (by simp)

/-- Settles O42: the value's fields, the manual's two check bytes, and the reading by value, check byte, free node and count. -/
theorem contestIsRead : Obligations.ContestIsRead := by
  unfold Obligations.ContestIsRead
  refine ⟨fun ident check => ⟨contestIdentity_append .., contestCheck_append ..⟩, by decide +kernel,
    fun k s v hf hpass => ?_⟩
  let u := contestRead k s
  have hbus : BusOnly k s u := contestRead_busOnly k s
  have hphase : (u.shelf k).phase = .ending := by simp [u, contestRead]
  have hfree : lowestFree u k = lowestFree s k := lowestFree_congr hbus.nodes
  have hnow : u.now = s.now := rfl
  have hchoose := choose_busOnly k (readContest k v u)
  refine ⟨_, exec_contestEnd v hf hpass, ?_, ?_⟩
  · rw [startTx_slots, hchoose.slots, readContest_slots, hbus.slots]
  rw [startTx_shelf, flagSet_startTx, hchoose.pass, hchoose.mismatches, hchoose.nodes, flagSet_congr hchoose.flags]
  refine ⟨fun h => ?_, fun h hcheck => ⟨readContest_right_mismatches h hcheck, fun n hn hlow => ?_, fun hnone => ?_⟩,
    fun h hcheck => ⟨fun hm => ?_, fun hm => ?_⟩⟩
  · rw [readContest_noContender h]
    simp [hnow]
  · have hread := readContest_winner h hcheck (hfree.trans (lowestFree_eq_some hn hlow))
    have hsubmit := submitAttach_busOnly k (.assign n) (setPass k (.round (.assign n (contestIdentity v)))
      (setNode k n .candidate (setMismatches k 0 u)))
    refine ⟨?_, ?_, (choose_attachPending ?_).startTx⟩
    · rw [hread, hsubmit.pass]; simp
    · rw [hread, hsubmit.nodes]; simp
    · rw [hread]; exact submitAttach_mem (by simp [hphase])
  · rw [readContest_noNode h hcheck (hfree.trans (lowestFree_eq_none hnone))]
    exact ⟨by simp [hnow], flagSet_raiseShelf k .busFault _⟩
  · rw [readContest_mismatch (s := u) h hcheck (by rwa [hbus.mismatches]), nextRound_pass, (nextRound_busOnly ..).mismatches]
    refine ⟨by simp [hbus.mismatches], fun hset hwake => ?_⟩
    have hset' : attachSet (setMismatches k ((u.shelf k).mismatches + 1) u) k ≠ [] := hset
    exact (if_neg hset').trans (if_neg hwake)
  · rw [readContest_thirdMismatch (s := u) h hcheck (by rwa [hbus.mismatches])]
    exact ⟨by simp, by simp [hnow], flagSet_raiseShelf k .busFault u⟩

end Sys2Proof.Machine
end

section
/-! SUPPORT. What the clear of an attention record leaves of its slot: the run, and the items of other kinds (R53, R103, R107). -/

namespace Sys2Proof.Machine

/-! ## The clear that a report owes (R53, R103) -/

/-- An owner that is told SUPERSEDED of an item of the kind of ATTN_CLEAR leaves the state as it is, or goes on to the next
node clear of the item's shelf (R53, R96). -/
theorem act_superseded_clear {it : Item} (h : it.cmd.kind = .attnClear) (s : State) :
    act (.answered it .superseded) s = (s, []) ∨ act (.answered it .superseded) s = (nextNodeClear it.shelf s, []) := by
  obtain ⟨k, slot, cmd, owner⟩ := it
  have hcmd : cmd = .attnClear ∨ ∃ n, cmd = .nodeClear n := by cases cmd <;> simp [BusCmd.kind] at h ⊢
  cases owner with
  | attachUnit => rcases hcmd with rfl | ⟨n, rfl⟩ <;> exact .inl rfl
  | attentionUnit =>
    rcases hcmd with rfl | ⟨n, rfl⟩
    · cases slot <;> exact .inl rfl
    · exact .inr rfl
  | planRunner => rcases hcmd with rfl | ⟨n, rfl⟩ <;> cases slot <;> exact .inl rfl
  | shipUnit =>
    left
    simp only [act, answerOwner, shipAnswered]
    split
    · rfl
    · split
      · rfl
      · rcases hcmd with rfl | ⟨n, rfl⟩ <;> rfl
  | busController => cases slot <;> exact .inl rfl

/-- Only a SILENT drive's item is answered NO_RESPONSE as it is submitted (R53). -/
theorem silent_of_submit_noResponse {i : Slot} {cmd : BusCmd} {owner : Owner} {s : State} {it : Item}
    (h : (submit i cmd owner s).2 = [.answered it .noResponse]) : (s.slot i).silent = true := by
  by_contra hs
  rw [Bool.not_eq_true] at hs
  unfold submit submitSlot at h
  cases hd : (s.slot i).drive with
  | none => simp [hd] at h
  | some d => cases hp : pendingItem (s.shelf (shelfOf i)).work i cmd.kind <;> simp [hd, hs, hp] at h

/-- The slot's record with its clear marked pending. -/
def clearMarked (i : Slot) (s : State) : State := modAttn i (fun a => { a with clearPending := true }) s

/-- What the clear of a record comes to: nothing without a record; else its ATTN_CLEAR is submitted, the owner of an item whose
place it takes may go on to the next node clear, and the record of a SILENT drive is discarded (R53, R103, R107). -/
theorem clearRecord_outcome {i : Slot} {s t : State} (h : carryOut 2 [.clearRecord i] s = some t) :
    t = s ∨
      let u := (submit i .attnClear .attentionUnit (clearMarked i s)).1
      t = u ∨ (∃ k, t = nextNodeClear k u) ∨ ((s.slot i).silent = true ∧ t = discardRecord i u) := by
  by_cases ha : (s.slot i).attn.isNone
  · have hact : act (.clearRecord i) s = (s, []) := if_pos ha
    exact .inl (Option.some.inj (h.symm.trans (carryOut_mono (by decide) (carryOut_quiet hact))))
  have hact : act (.clearRecord i) s = submit i .attnClear .attentionUnit (clearMarked i s) := if_neg ha
  have hsilent : ((clearMarked i s).slot i).silent = (s.slot i).silent := by simp [clearMarked, modAttn]
  rw [carryOut_cons, hact, List.append_nil] at h
  right
  rcases submit_tells i .attnClear .attentionUnit (clearMarked i s) with hl | ⟨o, ho, hl⟩ | ⟨a, ha | ha, hl⟩
  · rw [hl, carryOut_nil] at h
    exact .inl (Option.some.inj h).symm
  · obtain ⟨-, hkind⟩ := isItemOf_iff.1 ho
    rw [hl] at h
    rcases act_superseded_clear hkind (submit i .attnClear .attentionUnit (clearMarked i s)).1 with hw | hw
    · exact .inl (Option.some.inj (h.symm.trans (carryOut_quiet hw)))
    · exact .inr (.inl ⟨_, Option.some.inj (h.symm.trans (carryOut_quiet hw))⟩)
  · subst ha
    rw [hl] at h
    exact .inl (Option.some.inj (h.symm.trans (carryOut_quiet rfl)))
  · subst ha
    rw [← hsilent]
    refine .inr (.inr ⟨silent_of_submit_noResponse hl, ?_⟩)
    rw [hl] at h
    exact Option.some.inj (h.symm.trans (carryOut_quiet rfl))

/-- The run of a slot whose record is discarded may be marked defects-incomplete (R105). -/
theorem discardRecord_run (i : Slot) (s : State) : ((discardRecord i s).slot i).run = (s.slot i).run ∨
    ((discardRecord i s).slot i).run = (s.slot i).run.map fun run => { run with incomplete := true } := by
  unfold discardRecord
  split
  · exact .inl rfl
  · dsimp only
    split
    · exact .inr (by simp [setOutcome, markIncomplete])
    · exact .inl (by simp [setOutcome])

theorem submit_clearMarked_run (i : Slot) (s : State) :
    (((submit i .attnClear .attentionUnit (clearMarked i s)).1).slot i).run = (s.slot i).run := by
  rw [(submit_busOnly ..).slot]
  simp [clearMarked, modAttn]

/-- The clear of a record leaves the run but for its defects-incomplete mark. -/
theorem clearRecord_run {i : Slot} {s t : State} (h : carryOut 2 [.clearRecord i] s = some t) :
    (t.slot i).run = (s.slot i).run ∨ (t.slot i).run = (s.slot i).run.map fun run => { run with incomplete := true } := by
  rcases clearRecord_outcome h with rfl | rfl | ⟨k, rfl⟩ | ⟨-, rfl⟩
  · exact .inl rfl
  · exact .inl (submit_clearMarked_run i s)
  · exact .inl (by rw [(nextNodeClear_busOnly ..).slot, submit_clearMarked_run])
  · rw [← submit_clearMarked_run i s]
    exact discardRecord_run ..

/-- A shelf-wide submission leaves a slot's item pending or in flight (R53). -/
theorem submitWide_solePending {i : Slot} {cmd : BusCmd} {s : State} (h : SolePending s i cmd) (k : Shelf) (c : BusCmd) :
    SolePending (submitWide k c s) i cmd := by
  by_cases hk : k = shelfOf i
  · subst hk
    exact kick_solePending (h.congr (by simp) (by simp))
  · have hsame := (submitWide_busOnly k c s).shelf_ne (Ne.symm hk)
    exact h.congr (by rw [hsame]) (by rw [hsame])

theorem nextNodeClear_solePending {i : Slot} {cmd : BusCmd} {s : State} (h : SolePending s i cmd) (k : Shelf) :
    SolePending (nextNodeClear k s) i cmd := by
  unfold nextNodeClear
  split
  · next n rest hwait =>
    refine submitWide_solePending (h.congr ?_ ?_) k _ <;> rw [State.modShelf_shelf_if] <;> split <;> simp_all
  · exact h

/-- A submission of another kind leaves the slot's item pending or in flight (R53). -/
theorem submit_solePending {i : Slot} {cmd c : BusCmd} {s : State} (h : SolePending s i cmd) (hne : c.kind ≠ cmd.kind)
    (owner : Owner) : SolePending (submit i c owner s).1 i cmd := by
  rw [submit_fst]
  unfold submitSlot
  dsimp only
  split
  · exact h
  split
  · exact h
  have hother : ∀ {x : Item}, isItemOf i c.kind x = true → isItemOf i cmd.kind x = false := fun hx => by
    obtain ⟨hslot, hkind⟩ := isItemOf_iff.1 hx
    simp [isItemOf, hkind, hne]
  let it : Item := { shelf := shelfOf i, slot := some i, cmd := c, owner := owner }
  have hit : isItemOf i cmd.kind it = false := hother (isItemOf_iff.2 ⟨rfl, rfl⟩)
  split
  · -- The pending item of the other kind takes the new fields.
    refine h.imp (fun ⟨⟨x, hx, hslot, hcmd⟩, hall⟩ => ⟨⟨x, ?_, hslot, hcmd⟩, fun y hy hof => ?_⟩) (by simp)
    · have hxkeep : isItemOf i c.kind x = false := by simp [isItemOf, hcmd, hne.symm]
      simp only [State.modShelf_shelf]
      exact List.mem_map.2 ⟨x, hx, if_neg (by simp [hxkeep])⟩
    · simp only [State.modShelf_shelf] at hy
      obtain ⟨z, hz, rfl⟩ := List.mem_map.1 hy
      by_cases hzc : isItemOf i c.kind z = true
      · rw [if_pos hzc, show isItemOf i cmd.kind _ = false from hit] at hof
        cases hof
      · rw [if_neg hzc] at hof ⊢
        exact hall z hz hof
  · -- A new item joins the list.
    refine kick_solePending (h.imp (fun ⟨⟨x, hx, hslot, hcmd⟩, hall⟩ => ⟨⟨x, ?_, hslot, hcmd⟩, fun y hy hof => ?_⟩) (by simp))
    · simp [hx]
    · simp only [State.modShelf_shelf, List.mem_append, List.mem_singleton] at hy
      rcases hy with hy | rfl
      · exact hall y hy hof
      · rw [show isItemOf i cmd.kind _ = false from hit] at hof
        cases hof

/-- The clear of the record of a drive that is not SILENT leaves the run, and the slot's item of any other kind (R103). -/
theorem clearRecord_leaves {i : Slot} {s t : State} {cmd : BusCmd} (h : carryOut 2 [.clearRecord i] s = some t)
    (hs : (s.slot i).silent = false) (hkind : cmd.kind ≠ .attnClear) (hp : SolePending s i cmd) :
    (t.slot i).run = (s.slot i).run ∧ SolePending t i cmd := by
  have hsubmit : SolePending (submit i .attnClear .attentionUnit (clearMarked i s)).1 i cmd :=
    submit_solePending (s := clearMarked i s) (hp.congr rfl rfl) (c := .attnClear) (Ne.symm hkind) _
  rcases clearRecord_outcome h with rfl | rfl | ⟨k, rfl⟩ | ⟨hsilent, -⟩
  · exact ⟨rfl, hp⟩
  · exact ⟨submit_clearMarked_run i s, hsubmit⟩
  · exact ⟨by rw [(nextNodeClear_busOnly ..).slot, submit_clearMarked_run], nextNodeClear_solePending hsubmit k⟩
  · rw [hs] at hsilent
    cases hsilent

end Sys2Proof.Machine
end

section
/-! SUPPORT. The reports that stop a running test, and a stop that finds its phase STOPPING (R102, R119, R120, R128, R129, R176). -/

namespace Sys2Proof.Machine

/-! ## A test is stopped (R120, R128) -/

/-- The slot's phase has been decided, and the STOP_TEST of its test stands, of a drive that answers. -/
structure Stops (u : State) (i : Slot) (run : Run) : Prop where
  run : (u.slot i).run = some run
  silent : (u.slot i).silent = false
  stop : SolePending u i (.stopTest false)

/-- The run as its phase is decided and its test is being stopped (R120). -/
def Run.stoppingWith (run : Run) (v : Verdict) (stop : Option StopReason) : Run :=
  { run with decided := some v, state := .stopping, wallTimer := none, stop := stop }

/-- The verdict is written and STOP_TEST submitted, for a drive that answers. -/
theorem beginStopping_stops {i : Slot} {s : State} {run : Run} (hrun : (s.slot i).run = some run)
    (hd : (s.slot i).drive.isSome = true) (hs : (s.slot i).silent = false)
    (hp : pendingItem (s.shelf (shelfOf i)).work i .stopTest = none) (v : Verdict) :
    ∃ u, beginStopping i v s = (u, []) ∧ Stops u i (run.stoppingWith v run.stop) := by
  let w := s.modRun i fun run => { run with decided := some v, state := .stopping, wallTimer := none }
  have hw : w.slot i = { s.slot i with run := some (run.stoppingWith v run.stop) } := by
    simp [w, hrun, Run.stoppingWith]
  obtain ⟨u, hsubmit, hbus, hsole, -⟩ := submit_of_bound (i := i) (s := w) (cmd := .stopTest false) .planRunner
    (by rw [hw]; exact hd) (by rw [hw]; exact hs) hp
  exact ⟨u, hsubmit, ⟨by rw [hbus.slot, hw], by rw [hbus.slot, hw]; exact hs, hsole⟩⟩

/-- A grant keeps the drive, and tells nothing to a run that waits for no power. -/
theorem grant_keeps_test {i : Slot} {run : Run} (hstep : run.cycleStep = none) (e : QueueEntry) (t : State)
    (h : (t.slot i).run = some run ∧ (t.slot i).drive.isSome = true ∧ (t.slot i).silent = false) :
    ((grant e t).slot i).run = some run ∧ ((grant e t).slot i).drive.isSome = true ∧
      ((grant e t).slot i).silent = false := by
  obtain ⟨hrun, hdrive, hsilent⟩ := h
  by_cases hi : i = e.slot
  · subst hi
    obtain ⟨f, hf, hrec⟩ := grant_eq e t
    rw [hf, State.modSlot_slot]
    rcases hrec with ⟨rank, boot, -, hrec⟩ | ⟨rank, window, -, hrec⟩
    · rw [hrec]
      refine ⟨?_, by simp [hdrive], by simp [hsilent]⟩
      unfold SlotRec.poweredOn
      dsimp only
      split <;> split <;> simp [hrun, hstep]
    · rw [hrec]
      exact ⟨hrun, hdrive, hsilent⟩
  · rw [grant_slot_ne hi]
    exact ⟨hrun, hdrive, hsilent⟩

section
variable {i : Slot} {s : State} {run : Run} (h : TestGoing s i run)
include h

theorem TestGoing.testGoing : testGoing s i run = true := by
  obtain ⟨-, hstate, htest, -, -, -, hdrive, -, -⟩ := h
  simp [Sys2Proof.Machine.testGoing, hstate, htest, hdrive]

/-- An ending cause that the drive does not bring of itself stops the test (R120). -/
theorem endCause_stops (v : Verdict) :
    ∃ u, act (.endCause i v false) s = (u, []) ∧ Stops u i (run.stoppingWith v none) := by
  obtain ⟨hrun, hstate, -, hdec, hstop, -, hdrive, hsilent, hpending⟩ := id h
  obtain ⟨u, hu, hstops⟩ := beginStopping_stops hrun hdrive hsilent hpending v
  rw [hstop] at hstops
  refine ⟨u, ?_, hstops⟩
  simp only [act, endCause, hrun, hdec, hstate, h.testGoing, Option.isSome_none, Bool.false_eq_true, reduceCtorEq, or_self,
    if_false, Bool.not_false, Bool.and_self, if_true]
  exact hu

/-- A stop that waits stops the test, and is held pending (R128). -/
theorem waitStop_stops (reason : StopReason) (v : Verdict) :
    ∃ u, act (.waitStop i reason v) s = (u, []) ∧ Stops u i (run.stoppingWith v (some reason)) := by
  obtain ⟨hrun, hstate, -, -, hstop, -, hdrive, hsilent, hpending⟩ := id h
  let w := s.modRun i fun run => { run with stop := some reason }
  have hw : w.slot i = { s.slot i with run := some { run with stop := some reason } } := by simp [w, hrun]
  have hgoing : testGoing w i run = true := by
    have hsame : testGoing w i run = testGoing s i run := by
      simp only [testGoing, hw]
      rfl
    rw [hsame, h.testGoing]
  have hkept : stopDropped s run = false := by simp [stopDropped, completing, hstop, hstate]
  obtain ⟨u, hu, hstops⟩ := beginStopping_stops (s := w) (i := i) (by rw [hw]) (by rw [hw]; exact hdrive)
    (by rw [hw]; exact hsilent) hpending v
  refine ⟨u, ?_, hstops⟩
  simp only [act, waitStop, hrun, hkept, hstate, hgoing, Bool.false_eq_true, reduceCtorEq, if_false, if_true, w] at hu ⊢
  exact hu

/-- A spin-down leaves a test going. -/
theorem TestGoing.spinDown : TestGoing (spinDown i s) i run := by
  obtain ⟨hrun, hstate, htest, hdec, hstop, hstep, hdrive, hsilent, hpending⟩ := h
  have hgranted := spinDown_granted i s
  obtain ⟨hrun', hdrive', hsilent'⟩ := spinDown_keeps (i := i) (s := s)
    (P := fun r => r.run = some run ∧ r.drive.isSome = true ∧ r.silent = false)
    (fun e _ _ t => grant_keeps_test hstep e t) (fun h => h) ⟨hrun, hdrive, hsilent⟩
  refine ⟨hrun', hstate, ?_, hdec, hstop, hstep, hdrive', hsilent', ?_⟩
  · rw [← htest, runsTest, runsTest, phaseRec_congr hgranted.changed.plans_eq]
  · rw [hgranted.shelf]
    exact hpending
end
/-! ## A report that stops the test (R102, R119, R128, R176) -/

/-- The report's own marks and the summary are no part of a test that is going. -/
theorem TestGoing.reported {i : Slot} {s : State} {run : Run} (h : TestGoing s i run) (reports : List Report)
    (summary : Option AttnSummary) :
    TestGoing (s.modSlot i fun r => { r with reports := reports, summary := summary }) i run := by
  obtain ⟨hrun, hstate, htest, hdec, hstop, hstep, hdrive, hsilent, hpending⟩ := h
  exact ⟨by simpa using hrun, hstate, htest, hdec, hstop, hstep, by simpa using hdrive, by simpa using hsilent, hpending⟩

/-- A report that has the Plan Runner stop the test: its attention is cleared and the phase is left STOPPING. -/
theorem conclude_report_stops {i : Slot} {s : State} {run : Run} {kind : ReportKind} {v : Verdict} {stop : Option StopReason}
    (h : TestGoing s i run) (htaken : TakenNow s i kind)
    (hacts : ∀ w, TestGoing w i run → ∃ u, carryOut 2 (actOnReport i kind true w).2 (actOnReport i kind true w).1 = some u ∧
      Stops u i (run.stoppingWith v stop)) :
    ∃ t, conclude (takeReport i kind s) = .next t ∧ StoppingWith t i run v stop := by
  obtain ⟨reports, summary, tail, htail, htake⟩ := takeReport_now htaken
  obtain ⟨u, hcarry, hu⟩ := hacts _ (h.reported reports summary)
  -- The clear of the attention that brought the report.
  obtain ⟨t, htcarry, hrun, hsole⟩ : ∃ t, carryOut 2 tail u = some t ∧ (t.slot i).run = (u.slot i).run ∧
      SolePending t i (.stopTest false) := by
    rcases htail with rfl | rfl
    · exact ⟨u, carryOut_nil .., rfl, hu.stop⟩
    · obtain ⟨t, ht, -⟩ := clearRecord_settled i u
      exact ⟨t, ht, clearRecord_leaves ht hu.silent (by decide) hu.stop⟩
  refine ⟨startTx t, conclude_of (n := 4) (by decide) ?_, ?_, ?_⟩
  · rw [htake]
    exact carryOut_append hcarry htcarry
  · rw [startTx_slot, hrun, hu.run]
    rfl
  · exact hsole.startTx.slotPending.pendingOrInFlight rfl

section
variable {i : Slot} {run : Run} {kind : ReportKind} {v : Verdict}

/-- A report whose effect is an ending cause. -/
theorem report_ends (hact : ∀ w, actOnReport i kind true w = (w, [.endCause i v false])) (w : State)
    (h : TestGoing w i run) : ∃ u, carryOut 2 (actOnReport i kind true w).2 (actOnReport i kind true w).1 = some u ∧
      Stops u i (run.stoppingWith v none) := by
  obtain ⟨u, hu, hstops⟩ := endCause_stops h v
  exact ⟨u, by rw [hact]; exact carryOut_mono (by decide) (carryOut_quiet hu), hstops⟩

/-- A report whose effect is a stop that waits. -/
theorem report_stops {reason : StopReason} (hact : ∀ w, actOnReport i kind true w = (w, [.waitStop i reason v])) (w : State)
    (h : TestGoing w i run) : ∃ u, carryOut 2 (actOnReport i kind true w).2 (actOnReport i kind true w).1 = some u ∧
      Stops u i (run.stoppingWith v (some reason)) := by
  obtain ⟨u, hu, hstops⟩ := waitStop_stops h reason v
  exact ⟨u, by rw [hact]; exact carryOut_mono (by decide) (carryOut_quiet hu), hstops⟩

/-- OVER_TEMP spins the slot down before it ends the phase (R119). -/
theorem overTemp_ends (w : State) (h : TestGoing w i run) :
    ∃ u, carryOut 2 (actOnReport i .overTemp true w).2 (actOnReport i .overTemp true w).1 = some u ∧
      Stops u i (run.stoppingWith (failVerdict .thermal) none) := by
  obtain ⟨hrun, hstate, -, hdec, -, -, -, -, -⟩ := id h
  have hact : actOnReport i .overTemp true w = (w, [.spinDown i] ++ [.endCause i (failVerdict .thermal) false]) := by
    simp [actOnReport, takeOverTemp, hrun, hstate, hdec]
  obtain ⟨u, hu, hstops⟩ := endCause_stops h.spinDown (failVerdict .thermal)
  exact ⟨u, by rw [hact]; exact carryOut_append (carryOut_quiet (s := w) rfl) (carryOut_quiet hu), hstops⟩
end

/-! ## A stop that finds the phase STOPPING (R128, R129) -/

/-- The last phase is STOPPING toward completion if its verdict is PASS, or a FAIL that stops nothing (R127, R129). -/
theorem completing_iff {s : State} {run : Run} (hstate : run.state = .stopping) : completing s run = true ↔
    run.phase + 1 = run.outcomes.length ∧ ∃ w rec, run.decided = some w ∧ phaseRec s run = some rec ∧
      (w.outcome = .pass ∨ (w.outcome = .fail ∧ rec.onFail = .continue ∧ w.reason ≠ .noAttach)) := by
  have hgoes : ∀ (w : Verdict) (rec : PhaseRec),
      ((decide (w.outcome = .pass) || decide (w.outcome = .fail)) && !failStops w rec.onFail) = true ↔
        (w.outcome = .pass ∨ (w.outcome = .fail ∧ rec.onFail = .continue ∧ w.reason ≠ .noAttach)) := fun w rec => by
    cases ho : w.outcome <;> cases hf : rec.onFail <;> simp [failStops, ho]
  cases hdec : run.decided with
  | none => simp [completing, hdec]
  | some w =>
    cases hphase : phaseRec s run with
    | none => simp [completing, hdec, hphase]
    | some rec => simp only [completing, hstate, hdec, hphase, hgoes, Bool.and_eq_true, decide_eq_true_eq, true_and,
        Option.some.injEq, exists_eq_left', exists_and_left]

/-- A stop that waits is dropped where another is pending, or where the plan completes (R129). -/
theorem waitStop_dropped {i : Slot} {s : State} {run : Run} (hrun : (s.slot i).run = some run)
    (h : stopDropped s run = true) (reason : StopReason) (v : Verdict) : act (.waitStop i reason v) s = (s, []) := by
  simp only [act, waitStop, hrun, h, if_true]

/-- In STOPPING it is held pending, and the decided outcome stands (R128). -/
theorem waitStop_held {i : Slot} {s : State} {run : Run} (hrun : (s.slot i).run = some run) (hstate : run.state = .stopping)
    (h : stopDropped s run = false) (reason : StopReason) (v : Verdict) : act (.waitStop i reason v) s =
      (s.modSlot i fun r => { r with run := some { run with stop := some reason } }, []) := by
  have hheld : act (.waitStop i reason v) s = (s.modRun i fun run => { run with stop := some reason }, []) := by
    simp only [act, waitStop, hrun, h, Bool.false_eq_true, if_false]
    exact if_pos hstate
  rw [hheld]
  exact congrArg₂ Prod.mk (State.modSlot_congr (by rw [hrun]; rfl)) rfl

/-- Settles O49: the stop that waits by what is pending and decided, and each report by the cause or the stop it brings. -/
theorem reportsStopTheTest : Obligations.ReportsStopTheTest := by
  unfold Obligations.ReportsStopTheTest
  refine ⟨fun i s run reason v hrun hstate => ?_, fun i s run code h => ?_⟩
  · intro completes
    have hdropped : stopDropped s run = true ↔ run.stop.isSome ∨ completes := by
      rw [stopDropped, Bool.or_eq_true, completing_iff hstate]
    refine ⟨fun hdrop => waitStop_dropped hrun (hdropped.2 hdrop) reason v, fun hnone hgoes => ?_⟩
    refine waitStop_held hrun hstate (Bool.not_eq_true _ ▸ fun hdrop => ?_) reason v
    rcases hdropped.1 hdrop with hsome | hcompletes
    · simp [hnone] at hsome
    · exact hgoes hcompletes
  · exact ⟨fun ht => conclude_report_stops h ht (report_ends fun _ => rfl),
      fun ht => conclude_report_stops h ht (report_ends fun _ => rfl),
      fun ht => conclude_report_stops h ht (report_stops fun _ => rfl),
      fun ht => conclude_report_stops h ht (report_stops fun _ => rfl),
      fun ht => conclude_report_stops h ht overTemp_ends,
      fun ht => conclude_report_stops h ht (report_stops fun _ => rfl),
      fun ht => conclude_report_stops h ht (report_stops fun _ => rfl)⟩

end Sys2Proof.Machine
end

section
/-! SUPPORT. The phases that end of themselves and the REST that follows (R99, R119, R120, R122, R123, R127). -/

namespace Sys2Proof.Machine

/-! ## A phase ends, and its REST is entered (R120, R122, R127) -/

/-- The clear of a record leaves the REST entered. -/
theorem RestEntered.of_cleared {s t u : State} {i : Slot} {run : Run} {v : Verdict} {duration : Nat}
    (h : RestEntered s t i run v duration) (hc : Cleared i t u) (hrun : (u.slot i).run = (t.slot i).run ∨
      (u.slot i).run = (t.slot i).run.map fun run => { run with incomplete := true }) :
    RestEntered s u i run v duration := by
  obtain ⟨run', htrun, hphase, hstate, hdec, hout, hdose, hrest, hladder, hflag⟩ := h
  have hladder' : (u.slot i).ladder = 0 := by rw [hc.slot]; exact hladder
  have hflag' : flagSet u (slotScope i) (slotFlagBit .phaseEnd) = true := by rw [flagSet_congr hc.flags]; exact hflag
  rw [htrun] at hrun
  rcases hrun with hrun | hrun
  · exact ⟨run', hrun, hphase, hstate, hdec, hout, hdose, hrest, hladder', hflag'⟩
  · exact ⟨_, hrun, hphase, hstate, hdec, hout, hdose, hrest, hladder', hflag'⟩

theorem RestEntered.startTx {s t : State} {i : Slot} {run : Run} {v : Verdict} {duration : Nat}
    (h : RestEntered s t i run v duration) : RestEntered s (startTx t) i run v duration := by
  simpa only [RestEntered, startTx_slot, flagSet_startTx] using h

section
variable {i : Slot} {s : State} {run : Run} {duration : Nat}

/-- A cause that stops no test ends its phase at once, and the REST that follows is entered (R120, R122, R127). -/
theorem endCause_rest {rec : PhaseRec} {v : Verdict} {byDrive : Bool} (hrun : (s.slot i).run = some run)
    (hstate : run.state = .running) (hdec : run.decided = none) (hadm : (s.slot i).adm = .bound)
    (hphase : phaseRec s run = some rec) (hgo : failStops v rec.onFail = false) (hrest : RestFollows s run duration)
    (hends : runsTest s run = false ∨ byDrive = true) :
    ∃ t, carryOut 4 [.endCause i v byDrive] s = some t ∧ RestEntered s t i run v duration := by
  let ended : Run := { run with decided := some v, state := .ended }
  let w := s.modRun i fun run => { run with decided := some (run.decided.getD v), state := .ended }
  have hwslot : w.slot i = { s.slot i with run := some ended } := by simp [w, hrun, hdec, ended]
  have hgoing : (testGoing s i run && !byDrive) = false := by
    rcases hends with h | h <;> simp [testGoing, h]
  have hact : act (.endCause i v byDrive) s = (w, [.phaseEnded i]) := by
    simp only [act, endCause, hrun, hdec, hstate, hgoing, Option.isSome_none, Bool.false_eq_true, reduceCtorEq, or_self,
      if_false]
    rfl
  obtain ⟨t, hcarry, hslot, hflag⟩ := phaseEnded_rest (s := w) (i := i) (run := ended) (v := v) (rec := rec)
    (duration := duration) (by rw [hwslot]) rfl (by rw [hwslot]; exact hadm) hphase hgo hrest
  have hentered : RestEntered w t i ended v duration := .of_run rfl hslot hflag
  exact ⟨t, carryOut_act hact hcarry, hentered⟩

/-- A live phase-end report that ends its phase, and the clear of the attention that brought it (R99, R103). -/
theorem conclude_report_rest {rec : PhaseRec} {v : Verdict} {kind : ReportKind} (hrun : (s.slot i).run = some run)
    (hstate : run.state = .running) (hdec : run.decided = none) (hadm : (s.slot i).adm = .bound)
    (hphase : phaseRec s run = some rec) (hgo : failStops v rec.onFail = false) (hrest : RestFollows s run duration)
    (htaken : TakenNow s i kind) (hact : ∀ w, (w.slot i).run = some run → w.plans = s.plans →
      actOnReport i kind true w = (w, [.endCause i v true])) :
    ∃ t, conclude (takeReport i kind s) = .next t ∧ RestEntered s t i run v duration := by
  obtain ⟨reports, summary, tail, htail, htake⟩ := takeReport_now htaken
  let w := s.modSlot i fun r => { r with reports := reports, summary := summary }
  have hwslot : w.slot i = { s.slot i with reports := reports, summary := summary } := State.modSlot_slot ..
  have hwrun : (w.slot i).run = some run := by rw [hwslot]; exact hrun
  obtain ⟨u, hcarry, hu⟩ := endCause_rest (s := w) (i := i) (v := v) (byDrive := true) hwrun hstate hdec
    (by rw [hwslot]; exact hadm) hphase hgo hrest (.inr rfl)
  have hentered : RestEntered s u i run v duration := hu
  obtain ⟨t, htcarry, ht⟩ : ∃ t, carryOut 2 tail u = some t ∧ RestEntered s t i run v duration := by
    rcases htail with rfl | rfl
    · exact ⟨u, carryOut_nil .., hentered⟩
    · obtain ⟨t, ht, hc⟩ := clearRecord_settled i u
      exact ⟨t, ht, hentered.of_cleared hc (clearRecord_run ht)⟩
  refine ⟨startTx t, conclude_of (n := 6) (by decide) ?_, ht.startTx⟩
  rw [htake, hact w hwrun rfl]
  exact carryOut_append hcarry htcarry

/-- A phase-end report of the current phase of a running test is live (R99). -/
theorem reportLive_current (hrun : (s.slot i).run = some run) (hstate : run.state = .running)
    (htest : runsTest s run = true) : reportLive s i true run.phase = true := by
  simp [reportLive, hrun, hstate, htest]

/-- PHASE_DONE passes a DRIVE_TEST (R119). -/
theorem actOnReport_phaseDone {code : Byte} {scan : ScanTag} {wall : Nat} {onFail : OnFail}
    (hrun : (s.slot i).run = some run) (hstate : run.state = .running)
    (hphase : phaseRec s run = some { body := .driveTest code scan wall, onFail := onFail }) :
    actOnReport i (.phaseDone run.phase) true s = (s, [.endCause i passVerdict true]) := by
  have hlive := reportLive_current hrun hstate (by simp [runsTest, hphase])
  simp only [actOnReport, hlive, if_true, liveDone, hrun, hphase]

/-- PHASE_FAILED fails a test with the drive's reason (R119). -/
theorem actOnReport_phaseFailed (hrun : (s.slot i).run = some run) (hstate : run.state = .running)
    (htest : runsTest s run = true) (reason : Byte) :
    actOnReport i (.phaseFailed run.phase reason) true s = (s, [.endCause i (failDetail .drive reason) true]) := by
  simp only [actOnReport, reportLive_current hrun hstate htest, if_true]

/-- A REST and a POWER_CYCLE run no test in the drive. -/
theorem runsTest_eq_false {rec : PhaseRec} (hphase : phaseRec s run = some rec)
    (hbody : isRest rec.body = true ∨ isCycle rec.body = true) : runsTest s run = false := by
  obtain ⟨body, onFail⟩ := rec
  cases body with
  | soak _ _ _ _ _ _ => rcases hbody with h | h <;> cases h
  | driveTest _ _ _ => rcases hbody with h | h <;> cases h
  | rest _ => simp [runsTest, hphase]
  | powerCycle _ _ _ => simp [runsTest, hphase]

/-- The rest timer of a REST runs out, and the phase passes (R122). -/
theorem restExpiry_rest {seconds : Nat} {onFail : OnFail} (hrun : (s.slot i).run = some run)
    (hstate : run.state = .running) (hdec : run.decided = none) (hadm : (s.slot i).adm = .bound)
    (hphase : phaseRec s run = some { body := .rest seconds, onFail := onFail }) (hrest : RestFollows s run duration)
    (htimer : run.restTimer.isSome) :
    ∃ t, exec (.restExpiry i) s = .next t ∧ RestEntered s t i run passVerdict duration := by
  let w := s.modRun i fun run => { run with restTimer := none }
  have hwslot : w.slot i = { s.slot i with run := some { run with restTimer := none } } := by simp [w, hrun]
  have hexec : exec (.restExpiry i) s = conclude (w, [.endCause i passVerdict false]) := by
    simp only [exec, execRestExpiry, hrun]
    exact if_pos htimer
  obtain ⟨t, hcarry, ht⟩ := endCause_rest (s := w) (i := i) (run := { run with restTimer := none }) (v := passVerdict)
    (byDrive := false) (by rw [hwslot]) hstate hdec (by rw [hwslot]; exact hadm) hphase rfl hrest
    (.inl (runsTest_eq_false (rec := { body := .rest seconds, onFail := onFail }) hphase (.inl rfl)))
  have hentered : RestEntered s t i run passVerdict duration := ht
  exact ⟨_, hexec.trans (conclude_of (n := 4) (by decide) hcarry), hentered.startTx⟩

/-- The run of a POWER_CYCLE as a cycle is done (R123). -/
def Run.cycled (run : Run) : Run := { run with cyclesDone := run.cyclesDone + 1, onTimer := none }

/-- The last cycle done ends the phase PASS (R123). -/
theorem cycleDone_last {cycles off on : Nat} {onFail : OnFail} (hrun : (s.slot i).run = some run)
    (hstate : run.state = .running)
    (hphase : phaseRec s run = some { body := .powerCycle cycles off on, onFail := onFail })
    (hstep : run.cycleStep = some .onTime) (hlast : cycles ≤ run.cyclesDone + 1) :
    act (.cycleDone i) s = act (.endCause i passVerdict false) (s.modRun i Run.cycled) := by
  simp only [act, cycleDone, hrun, hphase, hstate, hstep, and_self, if_true, hlast]
  rfl

/-- The last on time of a POWER_CYCLE runs out, and the phase passes (R123). -/
theorem onTimeExpiry_rest {cycles off on : Nat} {onFail : OnFail} (hrun : (s.slot i).run = some run)
    (hstate : run.state = .running) (hdec : run.decided = none) (hadm : (s.slot i).adm = .bound)
    (hphase : phaseRec s run = some { body := .powerCycle cycles off on, onFail := onFail })
    (hrest : RestFollows s run duration) (htimer : run.onTimer.isSome) (hstep : run.cycleStep = some .onTime)
    (hlast : cycles ≤ run.cyclesDone + 1) :
    ∃ t, exec (.onTimeExpiry i) s = .next t ∧ RestEntered s t i run passVerdict duration := by
  let w := s.modRun i fun run => { run with onTimer := none }
  have hwslot : w.slot i = { s.slot i with run := some { run with onTimer := none } } := by simp [w, hrun]
  have hexec : exec (.onTimeExpiry i) s = conclude (w, [.cycleDone i]) := by
    simp only [exec, execOnTimeExpiry, hrun]
    exact if_pos htimer
  -- The cycle is counted, and it was the last.
  let run' : Run := { run with onTimer := none }
  let x := w.modRun i Run.cycled
  have hdone : act (.cycleDone i) w = act (.endCause i passVerdict false) x :=
    cycleDone_last (run := run') (by rw [hwslot]) hstate (hphase : phaseRec w run' = _) hstep hlast
  have hxslot : x.slot i = { s.slot i with run := some run'.cycled } := by simp [x, hwslot, run']
  have hxphase : phaseRec x run'.cycled = some { body := .powerCycle cycles off on, onFail := onFail } := hphase
  obtain ⟨t, hcarry, ht⟩ := endCause_rest (s := x) (i := i) (run := run'.cycled) (v := passVerdict)
    (byDrive := false) (by rw [hxslot]) hstate hdec (by rw [hxslot]; exact hadm) hxphase rfl hrest
    (.inl (runsTest_eq_false hxphase (.inr rfl)))
  have hentered : RestEntered s t i run passVerdict duration := ht
  refine ⟨_, hexec.trans (conclude_of (n := 4) (by decide) ?_), hentered.startTx⟩
  rw [carryOut_cons] at hcarry ⊢
  rw [hdone]
  exact hcarry
end

/-- Settles O50: the two reports, and the expiries of a REST and of a POWER_CYCLE's last on time. -/
theorem phasesEndAndTheRunGoesOn : Obligations.PhasesEndAndTheRunGoesOn := by
  unfold Obligations.PhasesEndAndTheRunGoesOn
  intro i s run duration hrun hstate hdec hadm hrest
  refine ⟨fun code scan wall onFail hphase htaken => ?_, fun body reason hphase htest htaken => ?_,
    fun seconds onFail hphase htimer => restExpiry_rest hrun hstate hdec hadm hphase hrest htimer,
    fun cycles off on onFail hphase htimer hstep hlast =>
      onTimeExpiry_rest hrun hstate hdec hadm hphase hrest htimer hstep hlast⟩
  · refine conclude_report_rest hrun hstate hdec hadm hphase rfl hrest htaken fun w hwrun hplans => ?_
    exact actOnReport_phaseDone hwrun hstate ((phaseRec_congr hplans run).trans hphase)
  · refine conclude_report_rest (v := failDetail .drive reason) hrun hstate hdec hadm hphase rfl hrest htaken
      fun w hwrun hplans => ?_
    exact actOnReport_phaseFailed hwrun hstate (by rw [← htest, runsTest, runsTest, phaseRec_congr hplans]) reason

end Sys2Proof.Machine
end

section
/-! SUPPORT. The outcomes of a FETCH and the end of its loop (R100, R103). -/

namespace Sys2Proof.Machine

/-! ## A reply with a field out of range (R50) -/

section
variable (n : NodeIx) (kind : BusKind) (body : List Byte)

theorem busReply_length : (busReply n kind body).length = 4 + body.length := by
  simp [busReply]
  omega

theorem busReply_node : field8 (busReply n kind body) 0 = nodeNumber n := by
  have : byteAt (busReply n kind body) 0 = BitVec.ofNat 8 (nodeNumber n) := rfl
  simp only [field8, this, BitVec.toNat_ofNat, nodeNumber]
  omega

theorem busReply_kind : field8 (busReply n kind body) 1 = busKindCode kind := by
  cases kind <;> rfl

theorem busReply_count {body : List Byte} (hlen : body.length ≤ 60) : field8 (busReply n kind body) 2 = body.length := by
  have : byteAt (busReply n kind body) 2 = BitVec.ofNat 8 body.length := rfl
  simp only [field8, this, BitVec.toNat_ofNat]
  omega

theorem busReply_check : frameCheckOk (busReply n kind body) = true := by
  have hframe : ∀ l : List Byte, frameCheckOk (l ++ [crc8 l]) = true := fun l => by simp [frameCheckOk, byteAt]
  exact hframe _
end

/-- A frame from the node that is asked whose body has the right length and a field out of range (R50). -/
theorem readBytes_badReply {kind : BusKind} {n : NodeIx} {body : List Byte} (hlen : body.length ≤ 60)
    (hok : bodyLengthOk kind body = true) (hf : replyFields kind body = none) :
    readBytes kind (some n) (busReply n kind body) = .badReply := by
  have hcomplete : frameComplete (busReply n kind body) = true := by
    simp [frameComplete, busReply_count n kind hlen, busReply_length, hlen]
  have hfirst : firstFrame (busReply n kind body) = busReply n kind body := by
    rw [firstFrame, busReply_count n kind hlen, ← busReply_length n kind body, List.take_length]
  have hbody : ((busReply n kind body).drop 3).dropLast = body := by simp [busReply]
  rw [readBytes, if_pos hcomplete, hfirst, readFrame, if_pos (busReply_check n kind body),
    if_pos ⟨by simp [busReply_node], (busReply_kind n kind body).symm⟩]
  simp only [hbody, hok, if_true, hf]

/-! ## The state in which a FETCH's outcome is taken (R56, R100) -/

/-- Within the end of a transaction of the slot: the slot's record, the others as they were, nothing of the slot pending, and
no transaction in flight. -/
structure Ending (i : Slot) (s u : State) (r : SlotRec) : Prop where
  slot : u.slot i = r
  others : OtherSlotsSame s u i
  noWork : NoWork u i
  phase : (u.shelf (shelfOf i)).phase = .ending

/-- The owner of the transaction has submitted an item of the slot. -/
structure FetchSubmitted (i : Slot) (s u : State) (r : SlotRec) (cmd : BusCmd) : Prop where
  slot : u.slot i = r
  others : OtherSlotsSame s u i
  sole : SolePending u i cmd
  phase : (u.shelf (shelfOf i)).phase = .ending

section
variable {i : Slot} {s u : State} {r : SlotRec} (h : Ending i s u r)
include h

theorem Ending.changed (f : SlotRec → SlotRec) : Ending i s (u.modSlot i f) (f r) :=
  ⟨by rw [State.modSlot_slot, h.slot], fun j hj => (State.modSlot_slot_ne u hj f).trans (h.others j hj), h.noWork, h.phase⟩

theorem Ending.raised (f : SlotFlag) : Ending i s (raiseSlot i f u) r :=
  ⟨by rw [raiseSlot_slot, h.slot], fun j hj => (raiseSlot_slot ..).trans (h.others j hj),
    fun it hit => h.noWork it (by simpa using hit), by rw [raiseSlot_shelf, h.phase]⟩

/-- A submission for a drive that answers. -/
theorem Ending.submits (hd : r.drive.isSome = true) (hs : r.silent = false) (cmd : BusCmd) (owner : Owner) :
    ∃ w, submit i cmd owner u = (w, []) ∧ FetchSubmitted i s w r cmd ∧ w.flags = u.flags := by
  obtain ⟨w, hw, hbus, hsole, hphase⟩ := submit_of_bound (i := i) (s := u) (cmd := cmd) owner (by rw [h.slot]; exact hd)
    (by rw [h.slot]; exact hs) (h.noWork.pendingItem _)
  refine ⟨w, hw, ⟨(hbus.slot i).trans h.slot, fun j hj => (hbus.slot j).trans (h.others j hj), hsole, ?_⟩, hbus.flags⟩
  rw [hphase (by rw [h.phase]; simp), h.phase]

/-- The loop is finished, and the record's clear is submitted (R100, R103). -/
theorem Ending.finishes {a : AttnRecord} {p : FetchProgress} (ha : r.attn = some a) (hp : a.fetch = some p)
    (hd : r.drive.isSome = true) (hs : r.silent = false) :
    ∃ w, carryOut 1 (finishLoop i u).2 (finishLoop i u).1 = some w ∧
      FetchSubmitted i s w { r with attn := some { a with fetch := some { p with finished := true }, clearPending := true } }
        .attnClear ∧ w.flags = u.flags := by
  let x := (finishLoop i u).1
  have hx : Ending i s x { r with attn := some { a with fetch := some { p with finished := true } } } := by
    have hfinished : ({ r with attn := some { a with fetch := some { p with finished := true } } } : SlotRec) =
        { r with attn := r.attn.map fun a => { a with fetch := a.fetch.map fun f => { f with finished := true } } } := by
      simp [ha, hp]
    rw [hfinished]
    exact h.changed fun r =>
      { r with attn := r.attn.map fun a => { a with fetch := a.fetch.map fun f => { f with finished := true } } }
  have hmarked : Ending i s (clearMarked i x)
      { r with attn := some { a with fetch := some { p with finished := true }, clearPending := true } } :=
    hx.changed fun r => { r with attn := r.attn.map fun a => { a with clearPending := true } }
  obtain ⟨w, hw, hsub, hflags⟩ := hmarked.submits hd hs .attnClear .attentionUnit
  have hsome : (x.slot i).attn.isNone = false := by rw [hx.slot]; rfl
  have hact : act (.clearRecord i) x = (w, []) := by
    rw [← hw]
    simp only [act, clearRecord, hsome, Bool.false_eq_true, if_false]
    rfl
  exact ⟨w, carryOut_quiet hact, hsub, hflags⟩
end

/-! ## What the Attention Unit does with the outcome (R100) -/

/-- The record of a slot whose run, if it has one, misses defects (R100). -/
def SlotRec.missesDefects (r : SlotRec) : SlotRec :=
  { r with run := r.run.map fun run => { run with incomplete := true } }

/-- The record of a slot with the progress of its fetch loop. -/
def SlotRec.fetching (r : SlotRec) (a : AttnRecord) (p : FetchProgress) : SlotRec :=
  { r with attn := some { a with fetch := some p } }

/-- The record of a slot as its fetch loop is finished and its clear is submitted (R100, R103). -/
def SlotRec.fetched (r : SlotRec) (a : AttnRecord) (p : FetchProgress) : SlotRec :=
  { r with attn := some { a with fetch := some { p with finished := true }, clearPending := true } }

/-- The progress of the loop with a reply counted (R100). -/
def FetchProgress.counted (p : FetchProgress) (l m empties : Nat) : FetchProgress :=
  { p with received := min 65535 (p.received + l), remaining := some m, empties := empties }

/-- Reports that reach no segment: there are none, or the slot has no run (R150). -/
theorem fetchDone_undelivered {i : Slot} {v : State} {l : List DefectReport} (hl : l = [] ∨ (v.slot i).run = none)
    (a : AttnRecord) {p : FetchProgress} (hfin : p.finished = false) (m : Nat) :
    let empties := if m = 0 then p.empties else if 0 < l.length then 0 else p.empties + 1
    let u := modAttn i (fun a => { a with fetch := some (p.counted l.length m empties) }) v
    fetchDone i a p l m v =
      if m = 0 then finishLoop i u
      else if empties < 3 then submit i .fetch .attentionUnit u
      else finishLoop i (markIncomplete i (raiseSlot i .protocol u)) := by
  have hnone : (if ((v.slot i).run.isSome && decide (a.run = .current)) = true then deliver i (a.phase.getD 0) l v else v) =
      v := by
    rcases hl with rfl | hrun
    · exact ite_id _
    · simp [hrun]
  simp only [fetchDone, hnone, FetchProgress.counted, hfin, satAdd]

/-- The slot with a reply counted. -/
theorem Ending.counts {i : Slot} {s v : State} {r : SlotRec} {a : AttnRecord} (h : Ending i s v r) (ha : r.attn = some a)
    (p : FetchProgress) (l m empties : Nat) :
    Ending i s (modAttn i (fun a => { a with fetch := some (p.counted l m empties) }) v)
      (r.fetching a (p.counted l m empties)) := by
  have hcounted : r.fetching a (p.counted l m empties) =
      { r with attn := r.attn.map fun a => { a with fetch := some (p.counted l m empties) } } := by
    simp [SlotRec.fetching, ha]
  rw [hcounted]
  exact h.changed fun r => { r with attn := r.attn.map fun a => { a with fetch := some (p.counted l m empties) } }

section
variable {i : Slot} {s v : State} {r : SlotRec} {a : AttnRecord} {p : FetchProgress} (h : Ending i s v r)
  (ha : r.attn = some a) (hp : a.fetch = some p) (hfin : p.finished = false)
include h ha hp hfin

theorem Ending.act_reports (l : List DefectReport) (m : Nat) :
    act (.answered (slotItem i .fetch .attentionUnit) (.done (.reports l m))) v = fetchDone i a p l m v := by
  have hattn : (v.slot i).attn = some a := by rw [h.slot, ha]
  simp only [act, answerOwner, slotItem, attentionAnswered, fetchAnswered, hattn, hp, hfin, Bool.false_eq_true, if_false]

theorem Ending.act_badReply : act (.answered (slotItem i .fetch .attentionUnit) .badReply) v =
    finishLoop i (markIncomplete i v) := by
  have hattn : (v.slot i).attn = some a := by rw [h.slot, ha]
  simp only [act, answerOwner, slotItem, attentionAnswered, fetchAnswered, hattn, hp, hfin, Bool.false_eq_true, if_false]

theorem Ending.act_noReply : act (.answered (slotItem i .fetch .attentionUnit) .noReply) v =
    submit i .fetch .attentionUnit (markIncomplete i v) := by
  have hattn : (v.slot i).attn = some a := by rw [h.slot, ha]
  simp only [act, answerOwner, slotItem, attentionAnswered, fetchAnswered, hattn, hp, hfin, Bool.false_eq_true, if_false]

variable (hd : r.drive.isSome = true) (hs : r.silent = false)
include hd hs

/-- A miss: the run misses defects, and a FETCH follows. -/
theorem Ending.fetch_missed : ∃ w, carryOut 2 [.answered (slotItem i .fetch .attentionUnit) .noReply] v = some w ∧
    FetchSubmitted i s w r.missesDefects .fetch := by
  obtain ⟨w, hw, hsub, -⟩ := (h.changed SlotRec.missesDefects).submits hd hs .fetch .attentionUnit
  exact ⟨w, carryOut_mono (by decide) (carryOut_quiet ((h.act_noReply ha hp hfin).trans hw)), hsub⟩

/-- A reply with a field out of range: the run misses defects, and the loop is finished. -/
theorem Ending.fetch_bad : ∃ w, carryOut 2 [.answered (slotItem i .fetch .attentionUnit) .badReply] v = some w ∧
    FetchSubmitted i s w (r.missesDefects.fetched a p) .attnClear ∧ w.flags = v.flags := by
  obtain ⟨w, hw, hsub, hflags⟩ := (h.changed SlotRec.missesDefects).finishes ha hp hd hs
  exact ⟨w, carryOut_act (h.act_badReply ha hp hfin) hw, hsub, hflags⟩

section
variable {l : List DefectReport} (hl : l = [] ∨ r.run = none)
include hl

/-- Nothing remains: the loop is finished. -/
theorem Ending.fetch_last : ∃ w, carryOut 2 [.answered (slotItem i .fetch .attentionUnit) (.done (.reports l 0))] v = some w ∧
    FetchSubmitted i s w (r.fetched a (p.counted l.length 0 p.empties)) .attnClear := by
  have hact := (h.act_reports ha hp hfin l 0).trans (fetchDone_undelivered (by rwa [h.slot]) a hfin 0)
  obtain ⟨w, hw, hsub, -⟩ := (h.counts ha p l.length 0 p.empties).finishes rfl rfl hd hs
  exact ⟨w, carryOut_act hact hw, hsub⟩

/-- More remains and the empty fetches stay below three: a FETCH follows. -/
theorem Ending.fetch_more {m empties : Nat} (hm : 0 < m) (he : (if 0 < l.length then 0 else p.empties + 1) = empties)
    (hfew : empties < 3) :
    ∃ w, carryOut 2 [.answered (slotItem i .fetch .attentionUnit) (.done (.reports l m))] v = some w ∧
      FetchSubmitted i s w (r.fetching a (p.counted l.length m empties)) .fetch := by
  have hact := (h.act_reports ha hp hfin l m).trans (fetchDone_undelivered (by rwa [h.slot]) a hfin m)
  simp only [hm.ne', if_false, he, hfew, if_true] at hact
  obtain ⟨w, hw, hsub, -⟩ := (h.counts ha p l.length m empties).submits hd hs .fetch .attentionUnit
  exact ⟨w, carryOut_mono (by decide) (carryOut_quiet (hact.trans hw)), hsub⟩

/-- The third empty fetch finishes the loop with PROTOCOL set. -/
theorem Ending.fetch_empty {m empties : Nat} (hm : 0 < m) (he : (if 0 < l.length then 0 else p.empties + 1) = empties)
    (hmany : ¬empties < 3) :
    ∃ w, carryOut 2 [.answered (slotItem i .fetch .attentionUnit) (.done (.reports l m))] v = some w ∧
      FetchSubmitted i s w (r.missesDefects.fetched a (p.counted l.length m empties)) .attnClear ∧
      flagSet w (slotScope i) (slotFlagBit .protocol) = true := by
  have hact := (h.act_reports ha hp hfin l m).trans (fetchDone_undelivered (by rwa [h.slot]) a hfin m)
  simp only [hm.ne', if_false, he, hmany] at hact
  obtain ⟨w, hw, hsub, hflags⟩ :=
    ((h.counts ha p l.length m empties).raised .protocol |>.changed SlotRec.missesDefects).finishes rfl rfl hd hs
  refine ⟨w, carryOut_act hact hw, hsub, ?_⟩
  rw [flagSet_congr hflags]
  exact flagSet_raiseSlot ..
end
end

/-! ## The end of the transaction (R50, R56, R61) -/

/-- The count and the arbiter's choice, once the owner has taken the outcome. -/
theorem conclude_counted {v w : State} {it : Item} {answer : Answer} {i : Slot} {ship : Bool} {k : Shelf} {m : Nat}
    (hw : carryOut 2 [.answered it answer] v = some w)
    (hcount : act (.counted i answer ship) w = (missedDrive i m w, [])) :
    conclude (v, [.answered it answer] ++ ([.counted i answer ship] ++ [.wireFree k])) =
      .next (startTx (choose k (missedDrive i m w))) := by
  have hfree : carryOut 1 [.wireFree k] (missedDrive i m w) = some (choose k (missedDrive i m w)) := rfl
  exact conclude_of (n := 4) (by decide) (carryOut_append hw (carryOut_append (carryOut_quiet hcount) hfree))

/-- What stands once the drive's count has moved and the arbiter has chosen. -/
theorem FetchSubmitted.chosen {i : Slot} {s w : State} {r : SlotRec} {cmd : BusCmd} (h : FetchSubmitted i s w r cmd)
    {d : DrivePart} (hd : r.drive = some d) (m : Nat) :
    let t := startTx (choose (shelfOf i) (missedDrive i m w))
    OtherSlotsSame s t i ∧ t.slot i = { r with drive := some { d with missed := m } } ∧ SlotPending t i cmd ∧
      ∀ c bit, flagSet t c bit = flagSet w c bit := by
  intro t
  have hending : inFlight ((missedDrive i m w).shelf (shelfOf i)).phase = none := by
    rw [missedDrive, State.modDrive_shelf, h.phase]
    rfl
  have hsole : SolePending (missedDrive i m w) i cmd := h.sole.congr rfl rfl
  refine ⟨fun j hj => ?_, ?_, (choose_solePending hsole hending).startTx.slotPending, fun c bit => ?_⟩
  · rw [chosen_slot, missedDrive, State.modDrive_slot_ne _ hj, h.others j hj]
  · rw [chosen_slot, missedDrive, State.modDrive_slot, h.slot, hd]
    rfl
  · rw [chosen_flagSet]
    rfl

/-- A reply counts as an answer also where a field of it is out of range (R61). -/
theorem counted_badReply {i : Slot} {w : State} (hd : (w.slot i).drive.isSome) (ship : Bool) :
    act (.counted i .badReply ship) w = (missedDrive i 0 w, []) := by
  cases h : (w.slot i).drive with
  | none => simp [h] at hd
  | some d =>
    simp only [act, countMissed, h]
    rfl

/-- The state in which the owner is told of a reply with a field out of range: PROTOCOL is set for the slot (R50). -/
def badReplied (k : Shelf) (i : Slot) (wire : Bool) (s : State) : State :=
  (raiseSlot i .protocol (setWire k wire (releaseWire k s))).modShelf k fun sh =>
    { sh with phase := .ending, stuckTimer := none }

section
variable (k : Shelf) (i : Slot) (wire : Bool) (s : State)
@[simp] theorem badReplied_slot (j : Slot) : (badReplied k i wire s).slot j = s.slot j := by
  rw [badReplied, State.modShelf_slot, raiseSlot_slot]
  rfl
@[simp] theorem badReplied_work : ((badReplied k i wire s).shelf k).work = (s.shelf k).work := by
  simp [badReplied, setWire, releaseWire]
@[simp] theorem badReplied_phase : ((badReplied k i wire s).shelf k).phase = .ending := by simp [badReplied]
theorem flagSet_badReplied : flagSet (badReplied k i wire s) (slotScope i) (slotFlagBit .protocol) = true :=
  flagSet_raiseSlot ..
end

/-- A reply with a field out of range is told to the owner and counted as an answer, and the wire is free (R50, R61). -/
theorem Answering.badReplies {k : Shelf} {s : State} {f : Flight} {i : Slot} {n : NodeIx} {d : DrivePart}
    (h : Answering k s f i n d) {body : List Byte} (wire : Bool) (hlen : body.length ≤ 60)
    (hok : bodyLengthOk f.item.cmd.kind body = true) (hf : replyFields f.item.cmd.kind body = none)
    (hq : isQuery f.item = false) :
    exec (.replyFrameReceived k (busReply n f.item.cmd.kind body) wire) s =
      conclude (badReplied k i wire s, [.answered f.item .badReply] ++
        ([.counted i .badReply (decide (classOf f.item.cmd.kind = .ship))] ++ [.wireFree k])) := by
  obtain ⟨closes, hphase⟩ := h.window
  let u := setWire k wire (releaseWire k s)
  have hunc : uncounted f .badReply = false := by simp [uncounted, h.dropped]
  have huslot : slotOfNode u k n = some i := (slotOfNode_congr (fun _ => rfl) k n).trans h.slot
  have hflag : badReplyFlag k f u = raiseSlot i .protocol u := by
    simp only [badReplyFlag, h.node, Option.bind_some, huslot]
  have hxslot : slotOfNode (raiseSlot i .protocol u) k n = some i :=
    (slotOfNode_congr (fun _ => raiseSlot_slot ..) k n).trans huslot
  have hexec : exec (.replyFrameReceived k (busReply n f.item.cmd.kind body) wire) s =
      conclude (endTransaction k f .badReply (badReplyFlag k f u)) := by
    simp only [exec, execReplyFrameReceived, hphase, h.node, readBytes_badReply hlen hok hf]
    rfl
  rw [hexec, hflag]
  simp only [endTransaction, hunc, hq, h.node, h.dropped, h.orphan, hxslot, Option.bind_some, Bool.false_eq_true, if_false,
    Bool.false_and, List.append_nil, List.append_assoc]
  rfl

section
variable {s : State} {i : Slot} {n : NodeIx} {d : DrivePart} {cmd : BusCmd} {owner : Owner}
  (h : SlotWindow s i n d cmd owner) (wire : Bool)
include h

theorem SlotWindow.noWork : NoWork s i := by
  obtain ⟨-, -, -, -, hw⟩ := h
  exact hw

theorem SlotWindow.ending_replied : Ending i s (replied (shelfOf i) wire s) (s.slot i) :=
  ⟨replied_slot .., fun j _ => replied_slot .., fun it hit => h.noWork it (by simpa [replied] using hit), replied_phase ..⟩

theorem SlotWindow.ending_closing : Ending i s (closing (shelfOf i) wire s) (s.slot i) :=
  ⟨(closing_busOnly ..).slot i, fun j _ => (closing_busOnly ..).slot j,
    fun it hit => h.noWork it (by simpa using hit), closing_phase ..⟩

theorem SlotWindow.ending_badReplied : Ending i s (badReplied (shelfOf i) i wire s) (s.slot i) :=
  ⟨badReplied_slot .., fun j _ => badReplied_slot .., fun it hit => h.noWork it (by simpa using hit), badReplied_phase ..⟩
end

/-! ## The three outcomes of a FETCH (R100) -/

section
variable {s : State} {i : Slot} {n : NodeIx} {d : DrivePart} (h : SlotWindow s i n d .fetch .attentionUnit) (wire : Bool)
include h

theorem SlotWindow.drive_eq : (s.slot i).drive = some d := by
  obtain ⟨-, hd, -, -, -⟩ := h
  exact hd

theorem SlotWindow.not_silent : (s.slot i).silent = false := by
  obtain ⟨-, -, -, hs, -⟩ := h
  exact hs

/-- A reply that the owner has taken: the drive has answered, and the arbiter has chosen. -/
theorem SlotWindow.fetch_replied {body : List Byte} {l : List DefectReport} {m : Nat} (hlen : body.length = 10 * l.length + 1)
    (hf : replyFields .fetch body = some (.reports l m)) {w : State} {r : SlotRec} {cmd : BusCmd}
    (hw : carryOut 2 [.answered (slotItem i .fetch .attentionUnit) (.done (.reports l m))] (replied (shelfOf i) wire s) =
      some w) (hsub : FetchSubmitted i s w r cmd) (hr : r.drive = some d) :
    exec (.replyFrameReceived (shelfOf i) (busReply n .fetch body) wire) s =
      .next (startTx (choose (shelfOf i) (missedDrive i 0 w))) := by
  have hfew : body.length ≤ 60 := by
    by_contra hlong
    have hmany : ¬body.length / 10 ≤ 4 := by omega
    simp [replyFields, hmany] at hf
  have hok : bodyLengthOk .fetch body = true := by
    simp only [bodyLengthOk, decide_eq_true_eq]
    omega
  have hcount : ∀ ship, act (.counted i (.done (.reports l m)) ship) w = (missedDrive i 0 w, []) := fun ship =>
    countMissed_done (by rw [hsub.slot, hr]; rfl) (.reports l m) ship
  exact (h.answering.replies wire hfew hok hf).trans (conclude_counted hw (hcount _))

/-- The window closes: the run misses defects, and a FETCH follows. -/
theorem SlotWindow.fetch_closes {a : AttnRecord} {p : FetchProgress} (ha : (s.slot i).attn = some a) (hp : a.fetch = some p)
    (hfin : p.finished = false) (hmissed : d.missed < 2) :
    ∃ t, exec (.replyWindowClose (shelfOf i) wire) s = .next t ∧ OtherSlotsSame s t i ∧
      t.slot i = { (s.slot i).missesDefects with drive := some { d with missed := d.missed + 1 } } ∧ SlotPending t i .fetch := by
  have hd := h.drive_eq
  obtain ⟨w, hw, hsub⟩ := (h.ending_closing wire).fetch_missed ha hp hfin (by rw [hd]; rfl) h.not_silent
  have hwslot : w.slot i = (s.slot i).missesDefects := hsub.slot
  have hcount : act (.counted i .noReply false) w = (missedDrive i (d.missed + 1) w, []) := by
    have hthree : min 3 (d.missed + 1) = d.missed + 1 := by omega
    have hcounted := countMissed_noReply (i := i) (s := w) (d := d) (by rw [hwslot]; exact hd)
      (by rw [hwslot]; exact h.not_silent) false
    show countMissed i .noReply false w = _
    simpa only [Bool.false_eq_true, if_false, false_or, Nat.not_le.2 hmissed, hthree] using hcounted
  obtain ⟨hothers, hslot, hpending, -⟩ := hsub.chosen hd (d.missed + 1)
  exact ⟨_, (h.answering.misses wire rfl rfl).trans (conclude_counted hw hcount), hothers, hslot, hpending⟩

/-- A field out of range: PROTOCOL is set, the run misses defects, and the loop is finished. -/
theorem SlotWindow.fetch_outOfRange {a : AttnRecord} {p : FetchProgress} (ha : (s.slot i).attn = some a)
    (hp : a.fetch = some p) (hfin : p.finished = false) {body : List Byte} (hmod : body.length % 10 = 1)
    (hlen : body.length ≤ 60) (hf : replyFields .fetch body = none) :
    ∃ t, exec (.replyFrameReceived (shelfOf i) (busReply n .fetch body) wire) s = .next t ∧ OtherSlotsSame s t i ∧
      t.slot i = { (s.slot i).missesDefects.fetched a p with drive := some { d with missed := 0 } } ∧
      SlotPending t i .attnClear ∧ flagSet t (slotScope i) (slotFlagBit .protocol) = true := by
  have hd := h.drive_eq
  obtain ⟨w, hw, hsub, hflags⟩ := (h.ending_badReplied wire).fetch_bad ha hp hfin (by rw [hd]; rfl) h.not_silent
  have hcount : ∀ ship, act (.counted i .badReply ship) w = (missedDrive i 0 w, []) :=
    counted_badReply (by rw [hsub.slot]; exact hd ▸ rfl)
  obtain ⟨hothers, hslot, hpending, hflag⟩ := hsub.chosen hd 0
  have hok : bodyLengthOk .fetch body = true := by simpa [bodyLengthOk] using hmod
  refine ⟨_, (h.answering.badReplies wire hlen hok hf rfl).trans (conclude_counted hw (hcount _)), hothers, hslot, hpending, ?_⟩
  rw [hflag, flagSet_congr hflags]
  exact flagSet_badReplied ..

section
variable {a : AttnRecord} {p : FetchProgress} (ha : (s.slot i).attn = some a) (hp : a.fetch = some p)
  (hfin : p.finished = false) {body : List Byte} {l : List DefectReport} {m : Nat} (hlen : body.length = 10 * l.length + 1)
  (hf : replyFields .fetch body = some (.reports l m)) (hl : l = [] ∨ (s.slot i).run = none)
include ha hp hfin hlen hf hl

/-- Nothing remains: the loop is finished. -/
theorem SlotWindow.fetch_finishes (hm : m = 0) :
    ∃ t, exec (.replyFrameReceived (shelfOf i) (busReply n .fetch body) wire) s = .next t ∧ OtherSlotsSame s t i ∧
      t.slot i = { (s.slot i).fetched a (p.counted l.length 0 p.empties) with drive := some { d with missed := 0 } } ∧
      SlotPending t i .attnClear := by
  subst hm
  have hd := h.drive_eq
  obtain ⟨w, hw, hsub⟩ := (h.ending_replied wire).fetch_last ha hp hfin (by rw [hd]; rfl) h.not_silent hl
  obtain ⟨hothers, hslot, hpending, -⟩ := hsub.chosen hd 0
  exact ⟨_, h.fetch_replied wire hlen hf hw hsub hd, hothers, hslot, hpending⟩

/-- More remains: the empty fetches are counted, and a FETCH follows. -/
theorem SlotWindow.fetch_goesOn (hm : 0 < m) {empties : Nat}
    (he : (if 0 < l.length then 0 else p.empties + 1) = empties) (hfew : empties < 3) :
    ∃ t, exec (.replyFrameReceived (shelfOf i) (busReply n .fetch body) wire) s = .next t ∧ OtherSlotsSame s t i ∧
      t.slot i = { (s.slot i).fetching a (p.counted l.length m empties) with drive := some { d with missed := 0 } } ∧
      SlotPending t i .fetch := by
  have hd := h.drive_eq
  obtain ⟨w, hw, hsub⟩ := (h.ending_replied wire).fetch_more ha hp hfin (by rw [hd]; rfl) h.not_silent hl hm he hfew
  obtain ⟨hothers, hslot, hpending, -⟩ := hsub.chosen hd 0
  exact ⟨_, h.fetch_replied wire hlen hf hw hsub hd, hothers, hslot, hpending⟩

/-- The third empty fetch: PROTOCOL is set, the run misses defects, and the loop is finished. -/
theorem SlotWindow.fetch_givesUp (hm : 0 < m) {empties : Nat}
    (he : (if 0 < l.length then 0 else p.empties + 1) = empties) (hmany : ¬empties < 3) :
    ∃ t, exec (.replyFrameReceived (shelfOf i) (busReply n .fetch body) wire) s = .next t ∧ OtherSlotsSame s t i ∧
      t.slot i = { (s.slot i).missesDefects.fetched a (p.counted l.length m empties) with
        drive := some { d with missed := 0 } } ∧
      SlotPending t i .attnClear ∧ flagSet t (slotScope i) (slotFlagBit .protocol) = true := by
  have hd := h.drive_eq
  obtain ⟨w, hw, hsub, hset⟩ :=
    (h.ending_replied wire).fetch_empty ha hp hfin (by rw [hd]; rfl) h.not_silent hl hm he hmany
  obtain ⟨hothers, hslot, hpending, hflag⟩ := hsub.chosen hd 0
  exact ⟨_, h.fetch_replied wire hlen hf hw hsub hd, hothers, hslot, hpending, by rw [hflag, hset]⟩
end
end

/-- Settles O47: the reply by what remains and what it brings, the miss, and the reply with a field out of range. -/
theorem fetchLoopRuns : Obligations.FetchLoopRuns := by
  unfold Obligations.FetchLoopRuns
  intro i s n d a p wire h ha hp hfin k incomplete answers finished
  refine ⟨?_, fun hmissed => h.fetch_closes wire ha hp hfin hmissed,
    fun body hmod hlen hf => h.fetch_outOfRange wire ha hp hfin hmod hlen hf⟩
  intro body l m hlen hf hl p'
  rcases Nat.eq_zero_or_pos m with hm | hm
  · obtain ⟨t, ht, hothers, hslot, hpending⟩ := h.fetch_finishes wire ha hp hfin hlen hf hl hm
    subst hm
    exact ⟨t, ht, hothers, fun _ => ⟨hslot, hpending⟩, nofun, nofun, nofun⟩
  have hmore : m ≠ 0 := hm.ne'
  by_cases hempty : l = []
  · subst hempty
    by_cases hfew : p.empties < 2
    · obtain ⟨t, ht, hothers, hslot, hpending⟩ :=
        h.fetch_goesOn wire ha hp hfin hlen hf hl hm rfl (Nat.succ_lt_succ hfew)
      exact ⟨t, ht, hothers, fun h => absurd h hmore, fun _ h => absurd rfl h, fun _ _ _ => ⟨hslot, hpending⟩,
        fun _ _ h => absurd hfew (Nat.not_lt.2 h)⟩
    · obtain ⟨t, ht, hothers, hslot, hpending, hflag⟩ :=
        h.fetch_givesUp wire ha hp hfin hlen hf hl hm rfl (fun h => hfew (Nat.lt_of_succ_lt_succ h))
      exact ⟨t, ht, hothers, fun h => absurd h hmore, fun _ h => absurd rfl h, fun _ _ h => absurd h hfew,
        fun _ _ _ => ⟨hslot, hpending, hflag⟩⟩
  · obtain ⟨t, ht, hothers, hslot, hpending⟩ :=
      h.fetch_goesOn wire ha hp hfin hlen hf hl hm (if_pos (List.length_pos_iff.2 hempty)) (by decide)
    exact ⟨t, ht, hothers, fun h => absurd h hmore, fun _ _ => ⟨hslot, hpending⟩, fun _ h => absurd h hempty,
      fun _ h => absurd h hempty⟩

end Sys2Proof.Machine
end

section
/-! SUPPORT. A plan in use is changed by no command but RESET (R112): nothing but the three loads of the plan table writes it,
and they refuse a plan in use. -/

namespace Sys2Proof.Machine

/-! ## What any tells leave of a plan -/

/-- A property that any change of slots, shelves, bins and flags keeps is kept by every operation of the blocks. -/
theorem Loose.of_changed {P : State → Prop} (hP : ∀ {s t : State}, Changed s t → P s → P t) : Loose P where
  modSlot i f _ h := hP (modSlot_changed i f (.refl _)) h
  anySlot i f _ h := hP (modSlot_changed i f (.refl _)) h
  modShelf k f _ h := hP (modShelf_changed k f (.refl _)) h
  anyShelf k f _ h := hP (modShelf_changed k f (.refl _)) h
  holds v _ h := hP (.bins v (.refl _)) h
  raiseSlot i f h := hP (.raiseSlot i f (.refl _)) h
  raiseShelf k f h := hP (.raiseShelf k f (.refl _)) h
  raiseController f h := hP (.raiseController f (.refl _)) h
  examine k h := hP (examine_changed k (.refl _)) h
  requestPower i r h := hP (requestPower_changed i r (.refl _)) h
  requestSpin i h := hP (requestSpin_changed i (.refl _)) h
  withdrawEntry i kind h := hP (withdrawEntry_changed i kind (.refl _)) h
  spinDown i h := hP (spinDown_changed i (.refl _)) h
  cutPower i h := hP (cutPower_changed i (.refl _)) h
  motorReport i m h := hP (motorReport_changed i m (.refl _)) h
  windowExpired i h := hP (windowExpired_changed i (.refl _)) h
  unlockLatch _ h := hP (ite_changed (.slots _ (.refl _)) (.refl _)) h
  lockLatch _ h := hP (.slots _ (.refl _)) h
  insert i _ _ h := hP (modSlot_changed i _ (.refl _)) h
  emptySegment i h := hP (modSlot_changed i _ (.refl _)) h
  reserve i b _ h := hP (reserve_changed i b (.refl _)) h
  releaseReservation i h := hP (releaseReservation_changed i (.refl _)) h
  convertReservation i h := hP (convertReservation_changed i (.refl _)) h

/-- A place of the plan table holds this plan. -/
def PlanIs (n : PlanIx) (q : Plan) (s : State) : Prop := s.plans[n] = q

theorem PlanIs.of_plans {n : PlanIx} {q : Plan} {s t : State} (h : PlanIs n q s) (ht : t.plans = s.plans) : PlanIs n q t := by
  unfold PlanIs
  rw [ht]
  exact h

theorem planIs_loose (n : PlanIx) (q : Plan) : Loose (PlanIs n q) := .of_changed fun hc h => h.of_plans hc.plans_eq

/-! ## What a command leaves -/

/-- Whatever state an outcome leads to has a property. -/
def Leaves (P : State → Prop) (out : Out) : Prop := ∀ t, out = .next t → P t

theorem leaves_next {P : State → Prop} {s : State} (h : P s) : Leaves P (.next s) := fun t ht => by cases ht; exact h

theorem leaves_ite {P : State → Prop} {c : Prop} [Decidable c] {a b : Out} (ha : Leaves P a) (hb : Leaves P b) :
    Leaves P (if c then a else b) := by
  split <;> assumption

section
variable {n : PlanIx} {q : Plan}

theorem PlanIs.startTx {s : State} (h : PlanIs n q s) : PlanIs n q (startTx s) := h.of_plans (startTx_plans s)

theorem conclude_planIs {x : State × List Tell} (h : PlanIs n q x.1) : Leaves (PlanIs n q) (conclude x) := by
  intro t ht
  unfold conclude at ht
  split at ht
  · next u hu =>
    cases ht
    exact PlanIs.startTx (carryOut_kept (planIs_loose n q).kept h hu)
  · cases ht

theorem answerRequest_planIs {kind tag : Byte} {f : State → Handled} {s : State} (hf : (f s).Keeps (PlanIs n q))
    (h : PlanIs n q s) : Leaves (PlanIs n q) (answerRequest kind tag f s) := by
  intro t ht
  unfold answerRequest at ht
  revert hf ht
  cases f s with
  | refuse status =>
    intro _ ht
    cases ht
    exact PlanIs.startTx (s := addReply _ s) h
  | take s' tells body =>
    intro hf ht
    dsimp only at ht
    split at ht
    · next u hu =>
      cases ht
      have hu' : PlanIs n q u := carryOut_kept (planIs_loose n q).kept hf hu
      exact PlanIs.startTx (s := addReply _ u) hu'
    · cases ht

/-! ## The link (chapter 11) -/

theorem raiseController_planIs {s : State} (f : ControllerFlag) (h : PlanIs n q s) : PlanIs n q (raiseController f s) :=
  (planIs_loose n q).raiseController f h

theorem arrive_planIs {s : State} (kind tag : Byte) (p : List Byte) (h : PlanIs n q s) : PlanIs n q (arrive kind tag p s) := by
  unfold arrive
  split
  · exact h
  · split
    · exact h
    · exact raiseController_planIs _ h

theorem takeByte_planIs {s : State} (b : Byte) (h : PlanIs n q s) : PlanIs n q (takeByte b s).1 := by
  have habandon : PlanIs n q (abandon s) := raiseController_planIs (s := { s with held := [] }) _ h
  unfold takeByte
  split
  · exact ite_keeps (P := PlanIs n q) h h
  · exact ite_keeps (P := PlanIs n q) h habandon
  · dsimp only
    split
    · exact h
    · split
      · exact arrive_planIs (s := { s with held := [] }) _ _ _ h
      · exact habandon

theorem takeBytes_planIs (m : Nat) (l : List Byte) {s : State} (h : PlanIs n q s) : PlanIs n q (takeBytes m l s) := by
  induction m generalizing l s with
  | zero => exact h
  | succ m ih =>
    cases l with
    | nil => exact h
    | cons b l => exact ih _ (takeByte_planIs b h)

theorem receiveByte_planIs {s : State} (b : Byte) (h : PlanIs n q s) : PlanIs n q (receiveByte b s) :=
  takeBytes_planIs (s := { s with lastHostByte := s.now }) _ _ h

theorem receiveBroken_planIs {s : State} (h : PlanIs n q s) : PlanIs n q (receiveBroken s) :=
  ite_keeps (P := PlanIs n q) h
    (raiseController_planIs (s := { s with lastHostByte := s.now, held := [] }) _ h)

theorem setEnables_planIs {s : State} (c : Scope) (set : BitVec 32) (h : PlanIs n q s) : PlanIs n q (setEnables c set s) := by
  unfold setEnables
  refine ite_keeps (P := PlanIs n q) h ?_
  rw [makePending_frame]
  exact h

/-- A request is handled in a state with the same slots and plans, and what that leaves is what the request leaves. -/
theorem serve_planIs {kind tag : Byte} {p : List Byte} {f : State → Handled} {s : State}
    (hf : ∀ u : State, u.slots = s.slots → u.plans = s.plans → PlanIs n q u → (f u).Keeps (PlanIs n q))
    (h : PlanIs n q s) : Leaves (PlanIs n q) (serve kind tag p f s) := by
  unfold serve
  split
  · split
    · exact answerRequest_planIs (hf _ rfl rfl h) h
    · exact leaves_next h
  · split
    · exact answerRequest_planIs (hf _ rfl rfl h) h
    · exact leaves_next (PlanIs.startTx (arrive_planIs _ _ _ h))
end

/-! ## The three loads of the plan table (R111, R112, R171) -/

theorem planInUse_congr {s t : State} (h : t.slots = s.slots) (n : PlanIx) : planInUse t n = planInUse s n := by
  unfold planInUse State.slot
  rw [h]

/-- A place of the table that is replaced, and another that is read. -/
theorem setPlan_planIs {n m : PlanIx} {q : Plan} {s : State} (hne : m ≠ n) (f : Plan → Plan) (h : PlanIs n q s) :
    PlanIs n q (setPlan m f s) := by
  have hval : m.val ≠ n.val := fun e => hne (Fin.ext e)
  have hread : (s.plans.set m (f s.plans[m]))[n] = s.plans[n] := Vector.getElem_set_ne _ _ hval
  exact hread.trans h

section
variable {n : PlanIx} {q : Plan} {u : State} (huse : planInUse u n = true) (h : PlanIs n q u)
include huse h

/-- A load that refuses a plan in use leaves the one that is in use as it is. -/
theorem load_keeps (m : PlanIx) (f : Plan → Plan) :
    (if planInUse u m then Handled.refuse .inUse else .ok (setPlan m f u) []).Keeps (PlanIs n q) := by
  split
  · trivial
  · next hfree => exact setPlan_planIs (fun e => hfree (by rw [e]; exact huse)) f h

theorem planLoad_keeps (p : List Byte) : (handlePlanLoad p u).Keeps (PlanIs n q) := by
  apply withLength_stays
  apply withPlan_stays
  intro m
  split
  · trivial
  · exact load_keeps huse h m _

theorem phaseLoad_keeps (p : List Byte) : (handlePhaseLoad p u).Keeps (PlanIs n q) := by
  apply withLength_stays
  apply withPlan_stays
  intro m
  split
  · trivial
  · split
    · trivial
    · exact load_keeps huse h m _

theorem signatureLoad_keeps (p : List Byte) : (handleSignatureLoad p u).Keeps (PlanIs n q) := by
  unfold handleSignatureLoad
  split
  · trivial
  · apply withPlan_stays
    intro m
    split
    · trivial
    · split
      · trivial
      · split
        · trivial
        · exact load_keeps huse h m _
end

/-! ## The other requests -/

section
variable {n : PlanIx} {q : Plan} {u : State} (h : PlanIs n q u)
include h

theorem shelfSet_planIs (p : List Byte) : (handleShelfSet p u).Keeps (PlanIs n q) := by
  apply withLength_stays
  apply withShelf_stays
  intro k
  have hr : PlanIs n q (replaceShelf k p u) := h
  split
  · dsimp only
    split
    · exact hr.of_plans (disableShelf_changed k (.refl _)).plans_eq
    · split
      · exact hr
      · exact hr.of_plans (shed_changed k (.refl _)).plans_eq
  · trivial

theorem shelfRestart_planIs (p : List Byte) : (handleShelfRestart p u).Keeps (PlanIs n q) := by
  apply withLength_stays
  apply withShelf_stays
  intro k
  exact foldl_keeps (fun _ _ h => restartSlot_keeps (planIs_loose n q).toPlain _ h) _ h

theorem busSet_planIs (p : List Byte) : (handleBusSet p u).Keeps (PlanIs n q) := by
  apply withLength_stays
  apply withShelf_stays
  intro k
  split
  · show PlanIs n q (List.foldl _ _ _)
    exact foldl_keeps (fun t i ht => (planIs_loose n q).anySlot i _ (by
      intro; exact ⟨rfl, rfl, rfl, rfl, rfl, rfl, rfl⟩) ht) _ h
  · trivial

theorem consoleSet_planIs (p : List Byte) : (handleConsoleSet p u).Keeps (PlanIs n q) := by
  apply withLength_stays
  apply withShelf_stays
  intro k
  split
  · exact h
  · trivial

theorem keyLoad_planIs (p : List Byte) : (handleKeyLoad p u).Keeps (PlanIs n q) := by
  have hkeys : PlanIs n q (allShelves.foldl (fun s k => keyLoaded k s) { u with wakePattern := p.drop 1 }) :=
    foldl_keeps (fun _ k h => keyLoaded_keeps (planIs_loose n q) k h) _ h
  unfold handleKeyLoad
  split
  · trivial
  · split
    · trivial
    · split
      · trivial
      · exact hkeys

theorem vectorSet_planIs (p : List Byte) : (handleVectorSet p u).Keeps (PlanIs n q) := by
  apply withLength_stays
  split
  · trivial
  · split
    · exact h
    · trivial

theorem ruleLoad_planIs (p : List Byte) : (handleRuleLoad p u).Keeps (PlanIs n q) := by
  apply withLength_stays
  apply withBin_stays
  intro b
  split
  · trivial
  · split
    · trivial
    · exact h

theorem rulesSet_planIs (p : List Byte) : (handleRulesSet p u).Keeps (PlanIs n q) := by
  apply withLength_stays
  apply withBin_stays
  intro d
  apply withBin_stays
  intro w
  split
  · trivial
  · exact h

theorem shipItemLoad_planIs (p : List Byte) : (handleShipItemLoad p u).Keeps (PlanIs n q) := by
  apply withLength_stays
  split
  · trivial
  · split
    · trivial
    · exact h

theorem shipListSet_planIs (p : List Byte) : (handleShipListSet p u).Keeps (PlanIs n q) := by
  apply withLength_stays
  split
  · trivial
  · split
    · trivial
    · split
      · trivial
      · exact h

theorem segmentSet_planIs (p : List Byte) : (handleSegmentSet p u).Keeps (PlanIs n q) := by
  apply withLength_stays
  apply withSlot_stays
  intro i
  dsimp only
  split
  · trivial
  · split
    · trivial
    · exact h

theorem binSet_planIs (p : List Byte) : (handleBinSet p u).Keeps (PlanIs n q) := by
  apply withLength_stays
  apply withBin_stays
  intro b
  dsimp only
  split
  · trivial
  · split
    · exact h
    · split
      · exact ite_keeps (P := PlanIs n q) (raiseController_planIs (s := u.modBin b _) _ h) h
      · exact h

theorem slotEnable_planIs (p : List Byte) : (handleSlotEnable p u).Keeps (PlanIs n q) := by
  apply withLength_stays
  apply withSlot_stays
  intro i
  split
  · trivial
  · next on _ =>
    split
    · exact h
    · dsimp only
      split
      · exact h
      · have hP := (planIs_loose n q).toPlain
        have hon : PlanIs n q (u.modSlot i fun r => { r with enabled := on }) := h
        exact ite_keeps (P := PlanIs n q) (setOcc_keeps hP i _ (hP.withdrawEntry i .power hon)) hon

theorem slotArm_planIs (p : List Byte) : (handleSlotArm p u).Keeps (PlanIs n q) := by
  apply withLength_stays
  apply withSlot_stays
  intro i
  split
  · trivial
  · split
    · exact h
    · apply withPlan_stays
      intro m
      split
      · trivial
      · exact h

theorem slotUnlock_planIs (p : List Byte) : (handleSlotUnlock p u).Keeps (PlanIs n q) := by
  apply withLength_stays
  apply withSlot_stays
  intro i
  split
  · trivial
  · exact unlock_keeps (planIs_loose n q).toPlain i h

theorem slotRetire_planIs (p : List Byte) : (handleSlotRetire p u).Keeps (PlanIs n q) := by
  apply withLength_stays
  apply withSlot_stays
  intro i
  dsimp only
  split
  · exact h
  · trivial

theorem slotRead_planIs (p : List Byte) : (handleSlotRead p u).Keeps (PlanIs n q) := by
  apply withLength_stays
  apply withSlot_stays
  intro i
  dsimp only
  split
  · exact h
  · exact h
  · exact h
  · trivial

theorem attnAck_planIs (p : List Byte) : (handleAttnAck p u).Keeps (PlanIs n q) := by
  apply withLength_stays
  apply withSlot_stays
  intro i
  split
  · split
    · exact h
    · trivial
  · trivial

/-- A read of a slot with a test of its field. -/
theorem readIf_planIs {c : Prop} [Decidable c] (body : ReplyBody) :
    (if c then Handled.refuse .badValue else .read u body).Keeps (PlanIs n q) := by
  split
  · trivial
  · exact h

theorem eventsRead_planIs (p : List Byte) : (handleEventsRead p u).Keeps (PlanIs n q) := by
  apply withLength_stays
  split
  · exact h
  · split
    · exact h
    · trivial
end

/-! ## The lines, the buses and the timers -/

section
variable {n : PlanIx} {q : Plan} {s : State} (h : PlanIs n q s)
include h

theorem presenceSettles_planIs (i : Slot) : PlanIs n q (presenceSettles i s).1 := by
  have hP := (planIs_loose n q).toPlain
  have hs : PlanIs n q (s.modSlot i fun r => { r with presTimer := none, present := r.presRaw }) := h
  exact ite_fst_keeps (P := PlanIs n q) hs
    (ite_fst_keeps (ite_fst_keeps (insertion_keeps hP i hs) hs) (removal_keeps hP i hs))

theorem activitySettles_planIs (i : Slot) : PlanIs n q (activitySettles i s) := by
  have hs : PlanIs n q (s.modSlot i fun r => { r with actTimer := none, active := r.actRaw }) := h
  exact ite_keeps (P := PlanIs n q) hs (activityEdge_keeps (planIs_loose n q) i _ hs)

theorem supplySettles_planIs (k : Shelf) (line : SupplyLine) : PlanIs n q (supplySettles k line s).1 := by
  have hs : PlanIs n q (s.modShelf k (supplyLevel line)) := h
  have hflags := supplyFlags_keeps (fun _ f hu => (planIs_loose n q).raiseShelf k f hu) (s.shelf k)
    (supplyLevel line (s.shelf k)) hs
  rw [supplySettles_eq]
  exact ite_fst_keeps (P := PlanIs n q) hflags (hflags.of_plans (limitChanged_changed k (.refl _)).plans_eq)

theorem bootDone_planIs (i : Slot) : PlanIs n q (bootDone i s) := by
  have hP := planIs_loose n q
  have hs : PlanIs n q (s.modSlot i fun r => { r with bootTimer := none, adm := .attaching }) := h
  exact joinSet_keeps hP i (ite_keeps (P := PlanIs n q) (setOcc_keeps hP.toPlain i _ hs) hs)

/-- The end of a transaction on the data wire. -/
theorem endTransaction_planIs (k : Shelf) (f : Flight) (a : Answer) :
    Leaves (PlanIs n q) (conclude (endTransaction k f a s)) :=
  conclude_planIs (endTransaction_keeps (planIs_loose n q).toPlain k f a h)

end

/-- No command but RESET changes a plan in use (R112). -/
theorem exec_planIs {n : PlanIx} {q : Plan} {s : State} (huse : planInUse s n = true) (h : PlanIs n q s) (c : Instr)
    (hc : c ≠ .reset) : Leaves (PlanIs n q) (exec c s) := by
  have hloose := planIs_loose n q
  have hP := hloose.toPlain
  have hnext : ∀ u : State, u.plans = s.plans → Leaves (PlanIs n q) (.next u) := fun u hu => leaves_next (h.of_plans hu)
  have hdone : ∀ (u : State) (l : List Tell), u.plans = s.plans → Leaves (PlanIs n q) (conclude (u, l)) :=
    fun u l hu => conclude_planIs (x := (u, l)) (h.of_plans hu)
  have htaken : ∀ i kind, Leaves (PlanIs n q) (conclude (takeReport i kind s)) :=
    fun i kind => conclude_planIs (takeReport_keeps hP i kind h)
  cases c with
  | reset => exact absurd rfl hc
  | planLoad tag p => exact serve_planIs (fun u hs _ hu => planLoad_keeps ((planInUse_congr hs n).trans huse) hu p) h
  | phaseLoad tag p => exact serve_planIs (fun u hs _ hu => phaseLoad_keeps ((planInUse_congr hs n).trans huse) hu p) h
  | signatureLoad tag p =>
    exact serve_planIs (fun u hs _ hu => signatureLoad_keeps ((planInUse_congr hs n).trans huse) hu p) h
  -- The host link.
  | hostFrameReceived b => exact conclude_planIs (x := (receiveByte b s, [])) (receiveByte_planIs b h)
  | hostByteReceived b => exact conclude_planIs (x := (receiveByte b s, [])) (receiveByte_planIs b h)
  | hostFrameAbandoned b framing =>
    exact conclude_planIs (x := (if framing then receiveBroken s else receiveByte b s, []))
      (ite_keeps (receiveBroken_planIs h) (receiveByte_planIs b h))
  | hostByteGapExpiry =>
    exact leaves_ite (hnext s rfl) (conclude_planIs (x := (abandon s, []))
      (raiseController_planIs (s := { s with held := [] }) _ h))
  | txFrameEnd =>
    dsimp only [exec, execTxFrameEnd]
    split
    · exact hnext s rfl
    · next f _ => exact hnext _ (by rw [startTx_plans]; cases f <;> rfl)
  -- The requests.
  | unknownKind kind tag p => exact leaves_ite (hnext s rfl) (serve_planIs (fun _ _ _ _ => trivial) h)
  | identify tag p => exact serve_planIs (f := handleIdentify p) (fun _ _ _ hu => withLength_stays hu) h
  | shelfSet tag p => exact serve_planIs (fun _ _ _ hu => shelfSet_planIs hu p) h
  | shelfRead tag p =>
    exact serve_planIs (f := handleShelfRead p) (fun _ _ _ hu => withLength_stays (withShelf_stays fun _ => hu)) h
  | shelfRestart tag p => exact serve_planIs (fun _ _ _ hu => shelfRestart_planIs hu p) h
  | busSet tag p => exact serve_planIs (fun _ _ _ hu => busSet_planIs hu p) h
  | consoleSet tag p => exact serve_planIs (fun _ _ _ hu => consoleSet_planIs hu p) h
  | keyLoad tag p => exact serve_planIs (fun _ _ _ hu => keyLoad_planIs hu p) h
  | vectorSet tag p => exact serve_planIs (fun _ _ _ hu => vectorSet_planIs hu p) h
  | ruleLoad tag p => exact serve_planIs (fun _ _ _ hu => ruleLoad_planIs hu p) h
  | rulesSet tag p => exact serve_planIs (fun _ _ _ hu => rulesSet_planIs hu p) h
  | shipItemLoad tag p => exact serve_planIs (fun _ _ _ hu => shipItemLoad_planIs hu p) h
  | shipListSet tag p => exact serve_planIs (fun _ _ _ hu => shipListSet_planIs hu p) h
  | segmentSet tag p => exact serve_planIs (fun _ _ _ hu => segmentSet_planIs hu p) h
  | binSet tag p => exact serve_planIs (fun _ _ _ hu => binSet_planIs hu p) h
  | binRead tag p =>
    exact serve_planIs (f := handleBinRead p) (fun _ _ _ hu => withLength_stays (withBin_stays fun _ => hu)) h
  | toteSwap tag p =>
    exact serve_planIs (f := handleToteSwap p) (fun _ _ _ hu => withLength_stays (withBin_stays fun _ => hu)) h
  | slotEnable tag p => exact serve_planIs (fun _ _ _ hu => slotEnable_planIs hu p) h
  | slotArm tag p => exact serve_planIs (fun _ _ _ hu => slotArm_planIs hu p) h
  | slotStart tag p => exact serve_planIs (fun _ _ _ hu => slotStart_stays hu p) h
  | slotAbort tag p => exact serve_planIs (fun _ _ _ hu => slotAbort_stays hu p) h
  | slotUnlock tag p => exact serve_planIs (fun _ _ _ hu => slotUnlock_planIs hu p) h
  | slotLocate tag p =>
    exact serve_planIs (f := handleSlotLocate p) (fun _ _ _ hu => withLength_stays (withSlot_stays fun _ => hu)) h
  | slotRetire tag p => exact serve_planIs (fun _ _ _ hu => slotRetire_planIs hu p) h
  | slotRead tag p => exact serve_planIs (fun _ _ _ hu => slotRead_planIs hu p) h
  | attnAck tag p => exact serve_planIs (fun _ _ _ hu => attnAck_planIs hu p) h
  | defectRead tag p =>
    exact serve_planIs (fun _ _ _ hu => withLength_stays (withSlot_stays fun _ => readIf_planIs hu _)) h
  | headRead tag p =>
    exact serve_planIs (fun _ _ _ hu => withLength_stays (withSlot_stays fun _ => readIf_planIs hu _)) h
  | consoleRead tag p =>
    exact serve_planIs (fun _ _ _ hu => withLength_stays (withSlot_stays fun _ => readIf_planIs hu _)) h
  | eventsRead tag p => exact serve_planIs (fun _ _ _ hu => eventsRead_planIs hu p) h
  | eventsClear tag p =>
    exact serve_planIs (f := handleEventsClear p) (fun _ _ _ hu => withLength_stays (withFlagSet_stays fun _ _ => hu)) h
  | eventsEnable tag p =>
    exact serve_planIs (f := handleEventsEnable p)
      (fun _ _ _ hu => withLength_stays (withFlagSet_stays fun c set => setEnables_planIs c set hu)) h
  -- The lines and the timers of the slots and shelves.
  | presenceLineChange i level => exact leaves_ite (hnext s rfl) (hnext _ rfl)
  | presenceDebounceExpiry i => exact leaves_ite (hnext s rfl) (conclude_planIs (presenceSettles_planIs h i))
  | activityLineChange i level => exact leaves_ite (hnext s rfl) (hnext _ rfl)
  | activityDebounceExpiry i => exact leaves_ite (hnext s rfl) (leaves_next (activitySettles_planIs h i))
  | supplyLineChange k line level => exact hnext _ rfl
  | supplyDebounceExpiry k line => exact leaves_ite (hnext s rfl) (conclude_planIs (supplySettles_planIs h k line))
  | spinWindowExpiry i =>
    have hs : PlanIs n q (s.modSlot i fun r => { r with spinTimer := none }) := h
    exact leaves_ite (hnext s rfl) (conclude_planIs (hP.windowExpired i hs))
  | bootDelayExpiry i => exact leaves_ite (hnext s rfl) (conclude_planIs (x := (_, [])) (bootDone_planIs h i))
  | attachDeadlineExpiry i =>
    have hs : PlanIs n q (s.modSlot i fun r => { r with deadline := some .expired }) := h
    dsimp only [exec, execAttachDeadlineExpiry]
    split
    · exact conclude_planIs (hP.raiseSlot i .attachFailed hs)
    · exact hnext s rfl
  | attachPauseExpiry k =>
    dsimp only [exec, execAttachPauseExpiry]
    split
    · exact conclude_planIs (nextRound_keeps hloose k h)
    · exact hnext s rfl
  | unlockHoldExpiry i => exact leaves_ite (hnext s rfl) (hnext _ rfl)
  | locateOverrideExpiry i => exact hnext _ rfl
  | resetPulseEnd i => exact leaves_ite (hnext s rfl) (hnext _ rfl)
  | consoleByteArrival i b =>
    exact leaves_ite (conclude_planIs (x := (_, [])) (byteArrived_keeps hP i b h)) (hnext s rfl)
  | consoleFramingError i => exact leaves_ite (leaves_next (framingError_keeps hP i h)) (hnext s rfl)
  | consoleStartGlitch i => exact leaves_ite (hnext _ rfl) (hnext s rfl)
  | consoleLineChange i level => exact hnext _ rfl
  -- The factory buses and the attention wires.
  | quietTimeMet k =>
    dsimp only [exec, execQuietTimeMet]
    split
    · exact leaves_ite (hnext _ rfl) (hnext s rfl)
    · exact hnext s rfl
  | commandFrameEnd k =>
    have hs : PlanIs n q (releaseWire k s) := h
    dsimp only [exec, execCommandFrameEnd]
    split
    · exact leaves_ite (endTransaction_planIs hs k _ _) (hnext _ rfl)
    · exact hnext s rfl
  | contestEnd k v =>
    have hs : PlanIs n q (releaseWire k s) := h
    dsimp only [exec, execContestEnd]
    split
    · exact endTransaction_planIs hs k _ _
    · exact hnext s rfl
  | attnQueryNodeRead k v wire =>
    have hs : PlanIs n q (setWire k wire (releaseWire k s)) := h
    dsimp only [exec, execAttnQueryNodeRead]
    split
    · split
      · exact hnext _ rfl
      · refine endTransaction_planIs ?_ k _ _
        have hflag := ite_keeps (c := wire = true ∨ v ≠ BitVec.allOnes 4) (hP.raiseShelf k .busFault hs) hs
        exact ite_keeps (P := PlanIs n q) hflag hflag
    · exact hnext s rfl
  | replyFrameReceived k frame wire =>
    have hs : PlanIs n q (setWire k wire (releaseWire k s)) := h
    dsimp only [exec, execReplyFrameReceived]
    split
    · split
      · exact hnext _ rfl
      · exact endTransaction_planIs hs k _ _
      · refine endTransaction_planIs ?_ k _ _
        unfold badReplyFlag
        split
        · exact hP.raiseSlot _ _ hs
        · exact hP.raiseShelf _ _ hs
      · exact endTransaction_planIs (hP.raiseShelf k .protocol hs) k _ _
      · exact endTransaction_planIs hs k _ _
    · exact hnext s rfl
  | replyWindowClose k wire =>
    have hs : PlanIs n q (setWire k wire s) := h
    dsimp only [exec, execReplyWindowClose]
    split
    · exact endTransaction_planIs hs k _ _
    · exact hnext s rfl
  | dataWireLevelChange k level => exact leaves_ite (hnext s rfl) (hnext _ rfl)
  | busWireStuck k =>
    have hs : PlanIs n q (s.modShelf k fun sh => { sh with stuckTimer := none, stuckTold := true }) := h
    exact leaves_ite (hnext s rfl) (conclude_planIs (x := (_, [])) (ite_keeps hs (hP.raiseShelf k .busFault hs)))
  | attentionWireAsserted k =>
    exact conclude_planIs (x := (addQuery k (setWire k true s), [])) (addQuery_keeps hP k h)
  | attnHoldoffExpiry k wire =>
    have hs : PlanIs n q (setWire k wire (s.modShelf k fun sh => { sh with holdoff := none })) := h
    exact leaves_ite (hnext s rfl) (conclude_planIs (x := (_, [])) (ite_keeps (addQuery_keeps hP k hs) hs))
  | pollTimerExpiry i =>
    have hs : PlanIs n q (s.modSlot i fun r =>
      { r with pollTimer := s.after (secs (s.shelf (shelfOf i)).pollSecs) }) := h
    exact leaves_ite (hnext s rfl) (leaves_ite (hnext _ rfl) (conclude_planIs (submit_keeps hP i _ _ hs)))
  | locateWindowClose k =>
    dsimp only [exec, execLocateWindowClose]
    split
    · exact conclude_planIs (x := (_, [])) (closeWindow_keeps hloose k _ _ _ _ h)
    · exact hnext s rfl
  -- The runs.
  | phaseDone i phase => exact htaken _ _
  | phaseFailed i phase reason => exact htaken _ _
  | overTemp i => exact htaken _ _
  | driveFault i => exact htaken _ _
  | stopPhase i source code => exact htaken _ _
  | abortPlan i source code => exact htaken _ _
  | earlyStop i => exact htaken _ _
  | phaseWallSecond i => exact conclude_planIs (wallSecond_keeps hP i h)
  | wallTimeReached i => exact conclude_planIs (wallTest_keeps hP i h)
  | restExpiry i =>
    dsimp only [exec, execRestExpiry]
    split
    · exact leaves_ite (hdone _ _ rfl) (hnext s rfl)
    · exact hnext s rfl
  | offTimeExpiry i =>
    dsimp only [exec, execOffTimeExpiry]
    split
    · exact leaves_ite (hdone _ _ rfl) (hnext s rfl)
    · exact hnext s rfl
  | onTimeExpiry i =>
    dsimp only [exec, execOnTimeExpiry]
    split
    · exact leaves_ite (hdone _ _ rfl) (hnext s rfl)
    · exact hnext s rfl

/-- Settles O27: the table's loads refuse a plan in use, and no other command but RESET writes the table. -/
theorem planInUseIsFixed : Obligations.PlanInUseIsFixed :=
  fun c _ t _ hc huse ht => exec_planIs huse rfl c hc t ht

end Sys2Proof.Machine
end

section
/-! SUPPORT. The three loads of the plan table: what each refuses, and the plan, the phase record or the signature place that it
replaces (R109 to R112, R171, R206, R208). -/

namespace Sys2Proof.Machine

/-! ## The ranges of the fields (R109, R110) -/

theorem within_iff {low high n : Nat} : within low high n = true ↔ low ≤ n ∧ n ≤ high := by simp [within]

/-- The header fields that can lie out of their ranges (R109). -/
theorem planFieldsOk_iff (p : List Byte) : planFieldsOk p = true ↔
    1 ≤ field8 p 3 ∧ field8 p 3 ≤ 12 ∧ field16 p 4 ≤ 600 ∧ 4 ≤ field8 p 6 ∧ field8 p 6 ≤ 80 ∧
      2 ≤ field8 p 25 ∧ field8 p 25 ≤ 120 ∧ 10 ≤ field16 p 34 ∧ field16 p 34 ≤ 60000 := by
  simp only [planFieldsOk, Bool.and_eq_true, within_iff, Nat.zero_le, true_and, and_assoc]

section
variable {p : List Byte}

theorem phaseBodyFrom_soak (hkind : field8 p 2 = 0) (hwall : 1 ≤ field32 p 6) (hwall' : field32 p 6 ≤ 262143)
    (hdose : 1 ≤ field32 p 10) (hdose' : field32 p 10 ≤ 16777215) (hband : field16 p 14 ≤ field16 p 16)
    (hhigh : field16 p 16 ≤ 600) (hlimit : field16 p 18 ≤ 3600) : phaseBodyFrom p =
      some (.soak (byteAt p 4) (field32 p 6) (field32 p 10) (field16 p 14) (field16 p 16) (field16 p 18)) := by
  have hlow := hband.trans hhigh
  simp only [phaseBodyFrom, hkind]
  simp [within, *]

theorem phaseBodyFrom_driveTest {scan : ScanTag} (hkind : field8 p 2 = 1) (hwall : 1 ≤ field32 p 6)
    (hwall' : field32 p 6 ≤ 262143) (hscan : scanTagOf (field8 p 5) = some scan) :
    phaseBodyFrom p = some (.driveTest (byteAt p 4) scan (field32 p 6)) := by
  simp only [phaseBodyFrom, hkind, hscan]
  simp [within, *]

theorem phaseBodyFrom_rest (hkind : field8 p 2 = 2) (hdur : 1 ≤ field32 p 20) (hdur' : field32 p 20 ≤ 86400) :
    phaseBodyFrom p = some (.rest (field32 p 20)) := by
  simp only [phaseBodyFrom, hkind]
  simp [within, *]

theorem phaseBodyFrom_powerCycle (hkind : field8 p 2 = 3) (hcycles : 1 ≤ field8 p 24) (hoff : 1 ≤ field16 p 25)
    (hoff' : field16 p 25 ≤ 600) (hon : field16 p 27 ≤ 3600) :
    phaseBodyFrom p = some (.powerCycle (field8 p 24) (field16 p 25) (field16 p 27)) := by
  have hbyte : field8 p 24 ≤ 255 := Nat.le_of_lt_succ (byteAt p 24).isLt
  simp only [phaseBodyFrom, hkind]
  simp [within, *]

/-- The action of a signature place is read only where its length is not 0 (R171). -/
theorem signatureFrom_isSome (h : field8 p 2 = 0 ∨ (tripActionOf (field8 p 3)).isSome) : (signatureFrom p).isSome := by
  unfold signatureFrom
  split
  · rfl
  · next hlen => simpa using h.resolve_left hlen

theorem signatureFrom_eq {sig : Option Signature} (h : (field8 p 2 = 0 ∧ sig = none) ∨
    (1 ≤ field8 p 2 ∧ ∃ a, tripActionOf (field8 p 3) = some a ∧ sig = some { bytes := p.drop 4, action := a })) :
    signatureFrom p = some sig := by
  rcases h with ⟨hlen, rfl⟩ | ⟨hlen, a, ha, rfl⟩
  · simp [signatureFrom, hlen]
  · simp [signatureFrom, Nat.ne_of_gt hlen, ha]
end

/-! ## PLAN_LOAD, PHASE_LOAD and SIGNATURE_LOAD (R111, R112, R171) -/

section
variable {kind tag : Byte} {p : List Byte} {s : State} {n : PlanIx}

/-- A load whose fields are in range is refused where the plan is in use, and else replaces the plan (R112). -/
theorem load_answered {f : Plan → Plan} {h : State → Handled} (hserved : NextServed kind tag p s)
    (hload : h (serving kind tag p s) = if planInUse (serving kind tag p s) n then .refuse .inUse
      else .ok (setPlan n f (serving kind tag p s)) []) :
    (planInUse s n = true →
      serve kind tag p h s = .next (answered kind tag .inUse .none (serving kind tag p s))) ∧
    (planInUse s n = false →
      serve kind tag p h s = .next (answered kind tag .ok .none (setPlan n f (serving kind tag p s)))) := by
  rw [planInUse_congr (s := s) (t := serving kind tag p s) rfl] at hload
  refine ⟨fun huse => serve_refuse hserved ?_, fun huse => ?_⟩
  · rw [hload, huse]
    rfl
  · rw [huse] at hload
    exact (serve_next hserved _).trans (answerRequest_done hload)

theorem handlePlanLoad_refuse (hp : p.length = 36) (hn : field8 p 0 = n.val) (hok : planFieldsOk p = false) :
    handlePlanLoad p s = .refuse .badValue := by
  rw [handlePlanLoad, withLength_eq hp, withPlan_val hn, if_pos hok]

theorem handlePlanLoad_eq (hp : p.length = 36) (hn : field8 p 0 = n.val) (hok : planFieldsOk p = true) :
    handlePlanLoad p s = if planInUse s n then .refuse .inUse else .ok (setPlan n (fun _ => planFrom p) s) [] := by
  rw [handlePlanLoad, withLength_eq hp, withPlan_val hn, if_neg (by simp [hok])]

theorem handlePhaseLoad_refuse (hp : p.length = 29) (hn : field8 p 0 = n.val) (hindex : s.plans[n].count ≤ field8 p 1) :
    handlePhaseLoad p s = .refuse .badValue := by
  rw [handlePhaseLoad, withLength_eq hp, withPlan_val hn, if_pos hindex]

theorem handlePhaseLoad_eq {body : PhaseBody} {onFail : OnFail} (hp : p.length = 29) (hn : field8 p 0 = n.val)
    (hindex : field8 p 1 < s.plans[n].count) (hfail : onFailOf (field8 p 3) = some onFail)
    (hbody : phaseBodyFrom p = some body) :
    handlePhaseLoad p s = if planInUse s n then .refuse .inUse
      else .ok (setPlan n (fun plan => { plan with
        phases := plan.phases.setIfInBounds (field8 p 1) (some { body := body, onFail := onFail }) }) s) [] := by
  have hphase : phaseFrom p = some { body := body, onFail := onFail } := by simp only [phaseFrom, hbody, hfail]
  rw [handlePhaseLoad, withLength_eq hp, withPlan_val hn, if_neg (Nat.not_le.2 hindex), hphase]

theorem handleSignatureLoad_short (hp : p.length < 4) : handleSignatureLoad p s = .refuse .badLength := by
  rw [handleSignatureLoad, if_pos hp]

theorem handleSignatureLoad_outOfRange (hp : 4 ≤ p.length) (hn : field8 p 0 = n.val)
    (hrange : 3 < field8 p 1 ∨ 24 < field8 p 2) : handleSignatureLoad p s = .refuse .badValue := by
  rw [handleSignatureLoad, if_neg (Nat.not_lt.2 hp), withPlan_val hn, if_pos hrange]

theorem handleSignatureLoad_otherLength (hp : 4 ≤ p.length) (hn : field8 p 0 = n.val) (hplace : field8 p 1 ≤ 3)
    (hlen : field8 p 2 ≤ 24) (haction : field8 p 2 = 0 ∨ (tripActionOf (field8 p 3)).isSome)
    (hother : p.length ≠ 4 + field8 p 2) : handleSignatureLoad p s = .refuse .badLength := by
  obtain ⟨sig, hsig⟩ := Option.isSome_iff_exists.1 (signatureFrom_isSome haction)
  rw [handleSignatureLoad, if_neg (Nat.not_lt.2 hp), withPlan_val hn, if_neg (by omega), hsig]
  exact if_pos hother

theorem handleSignatureLoad_eq {sig : Option Signature} (hp : p.length = 4 + field8 p 2) (hn : field8 p 0 = n.val)
    (hplace : field8 p 1 ≤ 3) (hlen : field8 p 2 ≤ 24) (hsig : signatureFrom p = some sig) :
    handleSignatureLoad p s = if planInUse s n then .refuse .inUse
      else .ok (setPlan n (fun plan => { plan with sigs := plan.sigs.setIfInBounds (field8 p 1) sig }) s) [] := by
  rw [handleSignatureLoad, if_neg (by omega), withPlan_val hn, if_neg (by omega), hsig]
  exact if_neg (not_not.2 hp)
end

/-- Settles O23: the ranges of each load, and what it replaces where the plan is not in use. -/
theorem plansAreLoaded : Obligations.PlansAreLoaded := by
  unfold Obligations.PlansAreLoaded
  refine ⟨fun tag p s n hp hn h => ?_, fun tag p s n hn => ⟨fun body onFail hp h hindex hfail hbody => ?_,
    fun hp h hindex => serve_refuse h (handlePhaseLoad_refuse hp hn hindex), fun h => ⟨?_, ?_⟩,
    fun sig hp h hplace hlen hsig => ?_⟩, fun tag p s hp h => serve_refuse h (handleSignatureLoad_short hp)⟩
  · intro ok
    have hok : planFieldsOk p = true ↔ ok := planFieldsOk_iff p
    refine ⟨fun hout => serve_refuse h (handlePlanLoad_refuse hp hn ?_), fun hin => ?_, fun hin => ?_⟩
    · rw [← Bool.not_eq_true, hok]
      exact hout
    · exact (load_answered h (handlePlanLoad_eq hp hn (hok.2 hin))).1
    · exact (load_answered h (handlePlanLoad_eq hp hn (hok.2 hin))).2
  · have hfrom : phaseBodyFrom p = some body := by
      rcases hbody with ⟨hk, h1, h2, h3, h4, h5, h6, h7, rfl⟩ | ⟨hk, h1, h2, scan, hscan, rfl⟩ | ⟨hk, h1, h2, rfl⟩ |
        ⟨hk, h1, h2, h3, h4, rfl⟩
      · exact phaseBodyFrom_soak hk h1 h2 h3 h4 h5 h6 h7
      · exact phaseBodyFrom_driveTest hk h1 h2 hscan
      · exact phaseBodyFrom_rest hk h1 h2
      · exact phaseBodyFrom_powerCycle hk h1 h2 h3 h4
    exact load_answered h (handlePhaseLoad_eq hp hn hindex hfail hfrom)
  · exact fun hp hrange => serve_refuse h (handleSignatureLoad_outOfRange hp hn hrange)
  · exact fun hp hplace hlen haction hother =>
      serve_refuse h (handleSignatureLoad_otherLength hp hn hplace hlen haction hother)
  · exact load_answered h (handleSignatureLoad_eq hp hn hplace hlen (signatureFrom_eq hsig))

end Sys2Proof.Machine
end

section
/-! SUPPORT. A wall second of each kind of phase, the dose tick of a SOAK, the wall time's maximum and the off time of a
POWER_CYCLE (R118, R122, R123, R136, R139 to R143). -/

namespace Sys2Proof.Machine

/-! ## A test that is stopped leaves the other slots (R120, R128) -/

/-- The state in which a slot holds this run. -/
abbrev State.withRun (s : State) (i : Slot) (run : Run) : State := s.modSlot i fun r => { r with run := some run }

/-- An update of a slot's run part, where it holds one. -/
theorem State.modRun_of_run {s : State} {i : Slot} {run : Run} (h : (s.slot i).run = some run) (f : Run → Run) :
    s.modRun i f = s.withRun i (f run) :=
  State.modSlot_congr (by rw [h]; rfl)

theorem modSlot_others (s : State) (i : Slot) (f : SlotRec → SlotRec) : OtherSlotsSame s (s.modSlot i f) i :=
  fun _ hj => s.modSlot_slot_ne hj f

theorem OtherSlotsSame.trans {s t u : State} {i : Slot} (h : OtherSlotsSame s t i) (h' : OtherSlotsSame t u i) :
    OtherSlotsSame s u i :=
  fun j hj => (h' j hj).trans (h j hj)

theorem OtherSlotsSame.startTx {s t : State} {i : Slot} (h : OtherSlotsSame s t i) : OtherSlotsSame s (startTx t) i :=
  fun j hj => (startTx_slot t j).trans (h j hj)

theorem beginStopping_others (i : Slot) (v : Verdict) (s : State) : OtherSlotsSame s (beginStopping i v s).1 i := fun j hj => by
  rw [beginStopping, (submit_busOnly ..).slot]
  exact s.modRun_slot_ne hj _

/-- A phase whose test is being stopped is STOPPING once the transmitter has taken its frame. -/
theorem Stops.stoppingWith {u : State} {i : Slot} {run : Run} {v : Verdict} {stop : Option StopReason}
    (h : Stops u i (run.stoppingWith v stop)) : StoppingWith (startTx u) i run v stop :=
  ⟨by rw [startTx_slot, h.run]; rfl, h.stop.startTx.slotPending.pendingOrInFlight rfl⟩

/-- Two runs that differ in counts and timers alone. -/
structure SameTest (run run' : Run) : Prop where
  plan : run'.plan = run.plan
  phase : run'.phase = run.phase
  state : run'.state = run.state
  decided : run'.decided = run.decided
  stop : run'.stop = run.stop
  cycleStep : run'.cycleStep = run.cycleStep

theorem SameTest.phaseRec {run run' : Run} (h : SameTest run run') (s : State) : phaseRec s run' = phaseRec s run := by
  simp only [Sys2Proof.Machine.phaseRec, planOf, h.plan, h.phase]

section
variable {i : Slot} {s : State} {run : Run} (h : TestGoing s i run)
include h

/-- An ending cause of a running test decides its phase and sends STOP_TEST (R120). -/
theorem TestGoing.endCause_eq (v : Verdict) : endCause i v false s = beginStopping i v s := by
  obtain ⟨hrun, hstate, -, hdec, -⟩ := id h
  simp only [endCause, hrun, hdec, hstate, h.testGoing, Option.isSome_none, Bool.false_eq_true, reduceCtorEq, or_self,
    if_false, Bool.not_false, Bool.and_self, if_true]

/-- What an ending cause of a running test leaves: the phase is STOPPING, and the other slots are as they were. -/
theorem TestGoing.ended (v : Verdict) :
    ∃ u, endCause i v false s = (u, []) ∧ OtherSlotsSame s u i ∧ Stops u i (run.stoppingWith v none) := by
  obtain ⟨u, hu, hstops⟩ := endCause_stops h v
  have hu' : endCause i v false s = (u, []) := hu
  refine ⟨u, hu', ?_, hstops⟩
  have hother := beginStopping_others i v s
  rwa [← h.endCause_eq v, hu'] at hother

/-- The counts and timers of a run are no part of a test that is going. -/
theorem TestGoing.counted {run' : Run} (hsame : SameTest run run') :
    TestGoing (s.withRun i run') i run' := by
  obtain ⟨-, hs, htest, hd, hst, hc, hdrive, hsilent, hpending⟩ := h
  refine ⟨by simp, hsame.state.trans hs, ?_, hsame.decided.trans hd, hsame.stop.trans hst, hsame.cycleStep.trans hc,
    by simpa using hdrive, by simpa using hsilent, hpending⟩
  rw [← htest, runsTest, runsTest, hsame.phaseRec]
  rfl
end

/-! ## The wall time's maximum (R118, R139) -/

section
variable {i : Slot} {u : State} {run : Run} {maxWall : Nat}

/-- The wall time test ends a running test at its maximum (R118). -/
theorem wallTest_reached (h : TestGoing u i run) (hmax : maxWallOf u run = some maxWall) (hwall : maxWall ≤ run.wall) :
    wallTest i u = endCause i (failVerdict .timeout) false u := by
  obtain ⟨hrun, hstate, -⟩ := h
  simp only [wallTest, hrun, hmax, hstate, hwall, and_self, if_true]

theorem wallTest_below (hrun : (u.slot i).run = some run) (hmax : maxWallOf u run = some maxWall)
    (hwall : run.wall < maxWall) : wallTest i u = (u, []) := by
  simp only [wallTest, hrun, hmax, Nat.not_le.2 hwall, and_false, if_false]

/-- A phase that runs no test in the drive has no maximum. -/
theorem wallTest_noMaximum (hrun : (u.slot i).run = some run) (hmax : maxWallOf u run = none) : wallTest i u = (u, []) := by
  simp only [wallTest, hrun, hmax]

/-- A phase that is no longer RUNNING is not tested. -/
theorem wallTest_stopped (hrun : (u.slot i).run = some run) (hstate : run.state ≠ .running) : wallTest i u = (u, []) := by
  simp only [wallTest, hrun]
  split
  · exact if_neg fun h => hstate h.1
  · rfl

/-- A wall time below the maximum leads to nothing. -/
theorem conclude_belowMaximum (hrun : (u.slot i).run = some run) (hmax : maxWallOf u run = some maxWall)
    (hwall : run.wall < maxWall) : conclude (u, [.wallTest i]) = .next (startTx u) :=
  conclude_of (n := 1) (by decide) (carryOut_quiet (wallTest_below hrun hmax hwall))

/-- A wall time at its maximum ends the phase FAIL TIMEOUT (R118). -/
theorem conclude_atMaximum (h : TestGoing u i run) (hmax : maxWallOf u run = some maxWall) (hwall : maxWall ≤ run.wall) :
    ∃ t, conclude (u, [.wallTest i]) = .next t ∧ OtherSlotsSame u t i ∧
      StoppingWith t i run (failVerdict .timeout) none := by
  obtain ⟨w, hw, hother, hstops⟩ := h.ended (failVerdict .timeout)
  have hact : act (.wallTest i) u = (w, []) := (wallTest_reached h hmax hwall).trans hw
  exact ⟨_, conclude_of (n := 1) (by decide) (carryOut_quiet hact), hother.startTx, hstops.stoppingWith⟩

/-- A cause that the second itself brings ends the phase before its wall time is tested (R120, R139). -/
theorem conclude_causeOfSecond (h : TestGoing u i run) (v : Verdict) :
    ∃ t, conclude (u, [.endCause i v false, .wallTest i]) = .next t ∧ OtherSlotsSame u t i ∧ StoppingWith t i run v none := by
  obtain ⟨w, hw, hother, hstops⟩ := h.ended v
  have hact : act (.wallTest i) w = (w, []) := wallTest_stopped hstops.run nofun
  exact ⟨_, conclude_of (n := 1 + 1) (by decide) (carryOut_append (l₁ := [.endCause i v false]) (carryOut_quiet hw)
    (carryOut_quiet hact)), hother.startTx, hstops.stoppingWith⟩
end

/-! ## A wall second (R118, R122, R123, R139) -/

/-- The run after a wall second, whose timer runs on to the next (R118; log 39). -/
def Run.second (m : Nat) (run : Run) : Run := { run with wall := min 262143 (run.wall + 1), wallTimer := some (m + 1000) }

section
variable {i : Slot} {s : State} {run : Run} {m : Nat} {onFail : OnFail} (hrun : (s.slot i).run = some run)
  (htimer : run.wallTimer = some m)
include hrun htimer

/-- The second of a phase other than a SOAK is counted and tested. -/
theorem wallSecond_plain {rec : PhaseRec} (hphase : phaseRec s run = some rec) (hcounts : wallCounts s run = true)
    (hbody : ∀ code wall target low high limit, rec.body ≠ .soak code wall target low high limit) :
    wallSecond i s = (s.withRun i (run.second m), [.wallTest i]) := by
  obtain ⟨body, onFail⟩ := rec
  have hkept : ∀ f : Run → Run, phaseRec (s.modRun i f) run = phaseRec s run := fun _ => rfl
  have hsecond : s.modRun i (Run.second m) = s.withRun i (run.second m) :=
    State.modRun_of_run hrun _
  rw [← hsecond]
  simp only [wallSecond, hrun, htimer, hcounts, if_true, hkept, hphase]
  cases body with
  | soak code wall target low high limit => exact absurd rfl (hbody code wall target low high limit)
  | driveTest code scan wall => rfl
  | rest duration => rfl
  | powerCycle cycles off on => rfl

/-- The second of a running SOAK is counted, then it takes its dose tick, then its wall time is tested (R139). -/
theorem wallSecond_soak {code : Byte} {maxWall target low high limit : Nat} (hstate : run.state = .running)
    (hphase : phaseRec s run = some { body := .soak code maxWall target low high limit, onFail := onFail }) :
    let u := s.withRun i (run.second m)
    wallSecond i s = ((doseTick i run target low high limit u).1,
      (doseTick i run target low high limit u).2 ++ [.wallTest i]) := by
  intro u
  have hkept : ∀ f : Run → Run, phaseRec (s.modRun i f) run = phaseRec s run := fun _ => rfl
  have hcounts : wallCounts s run = true := by simp [wallCounts, hphase, hstate]
  have hsecond : s.modRun i (Run.second m) = u := State.modRun_of_run hrun _
  simp only [wallSecond, hrun, htimer, hcounts, if_true, hkept, hphase]
  rw [← hsecond]
  rfl
end

/-! ## The dose tick (R140 to R142) -/

theorem motorReady_iff {r : SlotRec} : motorReady r = true ↔ ∃ d, r.drive = some d ∧ d.motor = .ready := by
  unfold motorReady
  cases r.drive <;> simp

section
variable {i : Slot} {s : State} {run counted : Run} {target low high limit : Nat}

theorem doseTick_stale (hstale : fresh (s.slot i).temp (planOf s run).stale s.now = false) :
    doseTick i run target low high limit (s.withRun i counted) = ((s.withRun i counted).modRun i tickStale, []) := by
  have hplan : planOf (s.withRun i counted) run = planOf s run := rfl
  simp only [doseTick, State.modSlot_slot, hplan, State.modSlot_now, hstale, Bool.false_eq_true, if_false]

theorem doseTick_out (hfresh : fresh (s.slot i).temp (planOf s run).stale s.now = true)
    (hout : (s.slot i).temp.t < low ∨ high < (s.slot i).temp.t) :
    doseTick i run target low high limit (s.withRun i counted) = ((s.withRun i counted).modRun i tickOut,
      if limit ≠ 0 ∧ limit < (tickOut run).excursion then [.endCause i (failVerdict .excursion) false] else []) := by
  have hplan : planOf (s.withRun i counted) run = planOf s run := rfl
  simp only [doseTick, State.modSlot_slot, hplan, State.modSlot_now, hfresh, hout, if_true]

theorem doseTick_in {ready : Bool} (hfresh : fresh (s.slot i).temp (planOf s run).stale s.now = true)
    (hin : ¬((s.slot i).temp.t < low ∨ high < (s.slot i).temp.t)) (hready : motorReady (s.slot i) = ready) :
    let f := factor (planOf s run) (s.slot i).temp.t
    doseTick i run target low high limit (s.withRun i counted) = ((s.withRun i counted).modRun i (tickIn ready f),
      if ready = true ∧ target * 256 ≤ (tickIn ready f run).dose then [.endCause i passVerdict false] else []) := by
  have hplan : planOf (s.withRun i counted) run = planOf s run := rfl
  have hmotor : motorReady { s.slot i with run := some counted } = ready := hready
  simp only [doseTick, State.modSlot_slot, hplan, State.modSlot_now, hfresh, hin, hmotor, if_true, if_false]
end

/-! ## What a second comes to (R118, R120, R139) -/

/-- The second ends the phase with a verdict, its run standing so: its test is stopped, and the other slots are as they were. -/
def SecondStops (s : State) (i : Slot) (run : Run) (v : Verdict) : Prop :=
  ∃ t, exec (.phaseWallSecond i) s = .next t ∧ OtherSlotsSame s t i ∧ StoppingWith t i run v none

/-- The second leaves the run standing so while its wall time is below the maximum, and ends the phase FAIL TIMEOUT at it. -/
def SecondCounts (s : State) (i : Slot) (run : Run) (maxWall : Nat) : Prop :=
  (run.wall < maxWall → exec (.phaseWallSecond i) s = .next (startTx (s.withRun i run))) ∧
    (maxWall ≤ run.wall → SecondStops s i run (failVerdict .timeout))

section
variable {i : Slot} {s : State} {run run' : Run} {maxWall : Nat} (h : TestGoing s i run) (hsame : SameTest run run')
include h hsame

/-- A second that tells nothing but the wall time test. -/
theorem secondCounts_of (hmax : maxWallOf s run = some maxWall)
    (hsecond : wallSecond i s = (s.withRun i run', [.wallTest i])) :
    SecondCounts s i run' maxWall := by
  have hgoing := h.counted hsame
  have hmax' : maxWallOf (s.withRun i run') run' = some maxWall := by
    rw [← hmax, maxWallOf, maxWallOf, hsame.phaseRec]
    rfl
  have hexec : exec (.phaseWallSecond i) s = conclude (_, [.wallTest i]) := congrArg conclude hsecond
  refine ⟨fun hwall => hexec.trans (conclude_belowMaximum hgoing.1 hmax' hwall), fun hwall => ?_⟩
  obtain ⟨t, ht, hother, hstops⟩ := conclude_atMaximum hgoing hmax' hwall
  exact ⟨t, hexec.trans ht, (modSlot_others s i _).trans hother, hstops⟩

/-- A second that brings an ending cause of its own. -/
theorem secondStops_of {v : Verdict} (hsecond : wallSecond i s =
      (s.withRun i run', [.endCause i v false, .wallTest i])) :
    SecondStops s i run' v := by
  obtain ⟨t, ht, hother, hstops⟩ := conclude_causeOfSecond (h.counted hsame) v
  exact ⟨t, (congrArg conclude hsecond).trans ht, (modSlot_others s i _).trans hother, hstops⟩
end

/-! ## A second of a running SOAK (R139 to R143) -/

/-- The run of a SOAK after a second in its band with a ready motor, with another motor, out of its band, and without a
fresh temperature (R140 to R142). -/
def Run.credited (m f : Nat) (run : Run) : Run := { run.second m with excursion := 0, dose := min 4294967295 (run.dose + f) }
def Run.uncredited (m : Nat) (run : Run) : Run := { run.second m with excursion := 0 }
def Run.outside (m : Nat) (run : Run) : Run :=
  { run.second m with
    oobPhase := min 4294967295 (run.oobPhase + 1)
    oobRun := min 4294967295 (run.oobRun + 1)
    excursion := min 3601 (run.excursion + 1) }
def Run.unfresh (m : Nat) (run : Run) : Run := { run.second m with stale := min 4294967295 (run.stale + 1) }

theorem maxWallOf_soak {s : State} {run : Run} {code : Byte} {maxWall target low high limit : Nat} {onFail : OnFail}
    (hphase : phaseRec s run = some { body := .soak code maxWall target low high limit, onFail := onFail }) :
    maxWallOf s run = some maxWall := by
  simp only [maxWallOf, hphase]

section
variable {i : Slot} {s : State} {run : Run} {m : Nat} {code : Byte} {maxWall target low high limit : Nat} {onFail : OnFail}
  (h : TestGoing s i run) (htimer : run.wallTimer = some m)
  (hphase : phaseRec s run = some { body := .soak code maxWall target low high limit, onFail := onFail })
include h htimer hphase

/-- A second of a SOAK by what its dose tick does to the run and what it tells. -/
theorem wallSecond_of_tick {f : Run → Run} {l : List Tell}
    (htick : doseTick i run target low high limit (s.withRun i (run.second m)) =
      ((s.withRun i (run.second m)).modRun i f, l)) :
    wallSecond i s = (s.withRun i (f (run.second m)), l ++ [.wallTest i]) := by
  obtain ⟨hrun, hstate, -⟩ := h
  have hsecond := wallSecond_soak hrun htimer hstate hphase
  dsimp only at hsecond
  rw [hsecond, htick, State.modRun, State.modSlot_modSlot]
  rfl

/-- Not fresh: the stale count alone rises (R140). -/
theorem soakSecond_unfresh (hfresh : fresh (s.slot i).temp (planOf s run).stale s.now = false) :
    SecondCounts s i (run.unfresh m) maxWall :=
  secondCounts_of h ⟨rfl, rfl, rfl, rfl, rfl, rfl⟩ (maxWallOf_soak hphase)
    (wallSecond_of_tick h htimer hphase (doseTick_stale hfresh))

/-- Out of band: the out-of-band and excursion counts rise, and an excursion beyond its limit ends the phase (R141). -/
theorem soakSecond_outside (hfresh : fresh (s.slot i).temp (planOf s run).stale s.now = true)
    (hout : (s.slot i).temp.t < low ∨ high < (s.slot i).temp.t) :
    ((limit = 0 ∨ (run.outside m).excursion ≤ limit) → SecondCounts s i (run.outside m) maxWall) ∧
    (limit ≠ 0 → limit < (run.outside m).excursion → SecondStops s i (run.outside m) (failVerdict .excursion)) := by
  have hsame : SameTest run (run.outside m) := ⟨rfl, rfl, rfl, rfl, rfl, rfl⟩
  have hsecond := wallSecond_of_tick h htimer hphase (doseTick_out hfresh hout)
  have hexcursion : (tickOut run).excursion = (run.outside m).excursion := rfl
  rw [hexcursion] at hsecond
  refine ⟨fun hwithin => ?_, fun hlimit hbeyond => ?_⟩
  · rw [if_neg (by omega)] at hsecond
    exact secondCounts_of h hsame (maxWallOf_soak hphase) hsecond
  · rw [if_pos ⟨hlimit, hbeyond⟩] at hsecond
    exact secondStops_of h hsame hsecond

/-- In band with a ready motor: the factor of the temperature is credited, and a dose at the target passes (R142, R143). -/
theorem soakSecond_credited (hfresh : fresh (s.slot i).temp (planOf s run).stale s.now = true)
    (hin : ¬((s.slot i).temp.t < low ∨ high < (s.slot i).temp.t)) (hready : motorReady (s.slot i) = true) :
    let credited := run.credited m (factor (planOf s run) (s.slot i).temp.t)
    (credited.dose < 256 * target → SecondCounts s i credited maxWall) ∧
    (256 * target ≤ credited.dose → SecondStops s i credited passVerdict) := by
  intro credited
  have hsame : SameTest run credited := ⟨rfl, rfl, rfl, rfl, rfl, rfl⟩
  have hsecond := wallSecond_of_tick h htimer hphase (doseTick_in hfresh hin hready)
  have hdose : (tickIn true (factor (planOf s run) (s.slot i).temp.t) run).dose = credited.dose := rfl
  rw [hdose] at hsecond
  refine ⟨fun hbelow => ?_, fun hreached => ?_⟩
  · rw [if_neg (by omega)] at hsecond
    exact secondCounts_of h hsame (maxWallOf_soak hphase) hsecond
  · rw [if_pos ⟨rfl, by omega⟩] at hsecond
    exact secondStops_of h hsame hsecond

/-- In band with a motor that is not ready: nothing is credited (R142). -/
theorem soakSecond_uncredited (hfresh : fresh (s.slot i).temp (planOf s run).stale s.now = true)
    (hin : ¬((s.slot i).temp.t < low ∨ high < (s.slot i).temp.t)) (hready : motorReady (s.slot i) = false) :
    SecondCounts s i (run.uncredited m) maxWall := by
  have hsecond := wallSecond_of_tick h htimer hphase (doseTick_in hfresh hin hready)
  rw [if_neg (by simp)] at hsecond
  exact secondCounts_of h ⟨rfl, rfl, rfl, rfl, rfl, rfl⟩ (maxWallOf_soak hphase) hsecond
end

/-- What makes a temperature fresh (R136). -/
theorem fresh_iff {rec : TempRec} {stale now : Nat} :
    fresh rec stale now = true ↔ rec.valid = true ∧ min 65535 ((now - rec.moment) / 1000) ≤ stale := by
  rw [fresh, Bool.and_eq_true, decide_eq_true_eq]
  rfl

/-! ## The phases without a test (R122, R123) -/

/-- A second of a phase that runs no test is counted, and nothing follows. -/
theorem phaseWallSecond_counts {i : Slot} {s : State} {run : Run} {m : Nat} {rec : PhaseRec}
    (hrun : (s.slot i).run = some run) (htimer : run.wallTimer = some m) (hphase : phaseRec s run = some rec)
    (hcounts : wallCounts s run = true) (hbody : isRest rec.body = true ∨ isCycle rec.body = true) :
    exec (.phaseWallSecond i) s = .next (startTx (s.withRun i (run.second m))) := by
  have hsecond := wallSecond_plain hrun htimer hphase hcounts fun _ _ _ _ _ _ hb => by simp [hb, isRest, isCycle] at hbody
  have hmax : maxWallOf (s.withRun i (run.second m)) (run.second m) = none := by
    have hrec : phaseRec (s.withRun i (run.second m)) (run.second m) = some rec := hphase
    obtain ⟨body, onFail⟩ := rec
    cases body <;> simp_all [maxWallOf, isRest, isCycle]
  exact (congrArg conclude hsecond).trans
    (conclude_of (n := 1) (by decide) (carryOut_quiet (wallTest_noMaximum (by simp) hmax)))

/-- The off time's end asks for the slot's power (R123). -/
theorem offTimeExpiry_asks {i : Slot} {s : State} {run : Run} (hrun : (s.slot i).run = some run) (htimer : run.offTimer.isSome) :
    exec (.offTimeExpiry i) s = .next (startTx (requestPower i .planRunner (s.modSlot i fun r =>
      { r with run := some { run with cycleStep := some .awaitPower, offTimer := none, onTimer := none } }))) := by
  have hstep : toStep i .awaitPower s = s.modSlot i fun r =>
      { r with run := some { run with cycleStep := some .awaitPower, offTimer := none, onTimer := none } } :=
    State.modRun_of_run hrun _
  have hexec : exec (.offTimeExpiry i) s = conclude (toStep i .awaitPower s, [.requestPower i .planRunner]) := by
    simp only [exec, execOffTimeExpiry, hrun]
    exact if_pos htimer
  rw [hexec, hstep]
  exact conclude_of (n := 1) (by decide) (carryOut_quiet rfl)

/-- Settles O53: the four ticks of a SOAK's second, the second of each other kind, the wall time test alone, and the off
time. -/
theorem secondsOfAPhase : Obligations.SecondsOfAPhase := by
  unfold Obligations.SecondsOfAPhase
  refine ⟨?_, ?_, ?_, ?_, ?_, fun i s run hrun htimer => offTimeExpiry_asks hrun htimer⟩
  · intro i s run m code maxWall target low high limit onFail h htimer hphase r isFresh inBand ready second credited outside
      unfresh stops
    have hfresh : fresh r.temp (planOf s run).stale s.now = true ↔ isFresh := fresh_iff
    have hin : inBand → ¬(r.temp.t < low ∨ high < r.temp.t) := fun hb => by have := hb.1; have := hb.2; omega
    have hout : ¬inBand → r.temp.t < low ∨ high < r.temp.t := fun hb => by
      by_contra hc
      exact hb ⟨by omega, by omega⟩
    have hready : motorReady r = true ↔ ready := motorReady_iff
    have hnotReady : ¬ready → motorReady r = false := fun hr => by rw [← Bool.not_eq_true, hready]; exact hr
    have hcredited := fun hf hb hr => soakSecond_credited h htimer hphase (hfresh.2 hf) (hin hb) (hready.2 hr)
    have huncredited := fun hf hb hr => soakSecond_uncredited h htimer hphase (hfresh.2 hf) (hin hb) (hnotReady hr)
    have houtside := fun hf hb => soakSecond_outside h htimer hphase (hfresh.2 hf) (hout hb)
    have hunfresh : ¬isFresh → SecondCounts s i unfresh maxWall := fun hf =>
      soakSecond_unfresh h htimer hphase (by rw [← Bool.not_eq_true, hfresh]; exact hf)
    refine ⟨fun hwall => ⟨fun hf hb hr hd => ?_, fun hf hb hr => ?_, fun hf hb hl => ?_, fun hf => ?_⟩, fun hf hb hr hd => ?_,
      fun hf hb hl he => ?_, fun hwall => ⟨fun hf hb hr hd => ?_, fun hf hb hr => ?_, fun hf hb hl => ?_, fun hf => ?_⟩⟩
    · exact ((hcredited hf hb hr).1 hd).1 hwall
    · exact (huncredited hf hb hr).1 hwall
    · exact ((houtside hf hb).1 hl).1 hwall
    · exact (hunfresh hf).1 hwall
    · exact (hcredited hf hb hr).2 hd
    · exact (houtside hf hb).2 hl he
    · exact ((hcredited hf hb hr).1 hd).2 hwall
    · exact (huncredited hf hb hr).2 hwall
    · exact ((houtside hf hb).1 hl).2 hwall
    · exact (hunfresh hf).2 hwall
  · intro i s run m code scan maxWall onFail h htimer hphase second
    obtain ⟨hrun, hstate, -⟩ := id h
    exact secondCounts_of h ⟨rfl, rfl, rfl, rfl, rfl, rfl⟩ (by simp only [maxWallOf, hphase])
      (wallSecond_plain hrun htimer hphase (by simp [wallCounts, hphase, hstate]) nofun)
  · intro i s run m cycles off on onFail hrun hstate htimer hphase
    exact phaseWallSecond_counts hrun htimer hphase (by simp [wallCounts, hphase, isCycle, hstate]) (.inr rfl)
  · intro i s run m duration onFail hrun hstate htimer hphase
    exact phaseWallSecond_counts hrun htimer hphase (by simp [wallCounts, hphase, hstate]) (.inl rfl)
  · intro i s run maxWall h hmax hwall
    obtain ⟨u, hu, hother, hstops⟩ := h.ended (failVerdict .timeout)
    have hexec : exec (.wallTimeReached i) s = conclude (u, []) := congrArg conclude ((wallTest_reached h hmax hwall).trans hu)
    exact ⟨startTx u, hexec.trans (conclude_nil u), hother.startTx, hstops.stoppingWith⟩

end Sys2Proof.Machine
end

section
/-! SUPPORT. SLOT_ABORT: the stop of a running test, the stop that a STOPPING phase takes, the grading of a READY slot, and what
it refuses (R128, R130, R178, R185). -/

namespace Sys2Proof.Machine

/-! ## The stop of a running test (R128) -/

/-- A stop that waits, of a running test, decides the phase beside being held pending (R128). -/
theorem waitStop_others {i : Slot} {s u : State} {run : Run} {reason : StopReason} {v : Verdict} {l : List Tell}
    (h : TestGoing s i run) (hu : act (.waitStop i reason v) s = (u, l)) : OtherSlotsSame s u i := by
  obtain ⟨hrun, hstate, htest, -, hstop, -, hdrive, -, -⟩ := h
  let w := s.modRun i fun run => { run with stop := some reason }
  have hwdrive : (w.slot i).drive.isSome = true := by simpa [w] using hdrive
  have hgoing : testGoing w i run = true := by
    have hwtest : runsTest w run = true := htest
    simp [testGoing, hstate, hwtest, hwdrive]
  have hkept : stopDropped s run = false := by simp [stopDropped, completing, hstop, hstate]
  have hact : act (.waitStop i reason v) s = beginStopping i v w := by
    simp only [act, waitStop, hrun, hkept, hstate, Bool.false_eq_true, reduceCtorEq, if_false]
    exact if_pos hgoing
  rw [hact] at hu
  have hother := beginStopping_others i v w
  rw [hu] at hother
  exact (modSlot_others s i _).trans hother

/-! ## A slot that is graded waits for its bin (R178, R185) -/

/-- A bound slot that is graded into a bin with no free place, or that others wait for, stands in BIN_WAIT at the tail of the
bin's hold queue. -/
theorem grade_waits {i : Slot} {s : State} {reason : StopReason} {b : BinIx} (hres : (s.slot i).result = none)
    (hadm : (s.slot i).adm = .bound) (hpower : (s.slot i).occ ≠ .powerWait) (hwait : (s.slot i).occ ≠ .binWait)
    (hlead : leadsToTote reason = true) (hbin : (formResult s i reason).bin = some b)
    (hfull : s.bins[b].hold ≠ [] ∨ s.bins[b].capacity ≤ s.bins[b].fill + s.bins[b].reserved) :
    ∃ t, carryOut 4 [.grade i reason] s = some t ∧ (t.slot i).result = some (formResult s i reason) ∧
      (t.slot i).occ = .binWait ∧ t.bins[b] = { s.bins[b] with hold := s.bins[b].hold ++ [i] } ∧
      flagSet t (slotScope i) (slotFlagBit .planEnd) = true ∧ flagSet t (slotScope i) (slotFlagBit .binWait) = true := by
  let g := graded i reason s
  have hgrade : act (.grade i reason) s = (g, [.spinDown i] ++ [.enterBinWait i]) := by
    simp only [act, grade_eq hres, hlead, hadm, if_true]
    rfl
  -- The spin-down keeps the slot as it was graded.
  obtain ⟨hocc, hdres, hrun⟩ := spinDown_keeps (i := i) (s := g)
    (P := fun r => r.occ = (s.slot i).occ ∧ r.result = some (formResult s i reason) ∧ r.run = none)
    (fun e _ _ t => grant_keeps_graded hpower e t) (fun h => h)
    ⟨by simp only [g]; rw [graded_slot], graded_result .., by simp only [g]; rw [graded_slot]⟩
  have hbins : (spinDown i g).bins = s.bins := (spinDown_granted i g).bins.trans (graded_bins ..)
  -- It enters BIN_WAIT and joins the hold queue.
  let w := withdrawEntry i .power (spinDown i g)
  have hw : (w.slot i).occ = (s.slot i).occ ∧ (w.slot i).result = some (formResult s i reason) := by
    simp only [w]
    rw [withdrawEntry_slot]
    split <;> exact ⟨hocc, hdres⟩
  obtain ⟨hwocc, hwres⟩ := hw
  have henter := enterBinWait_waits hdres hbin (by rw [hbins]; exact hfull)
  have hlater := carryOut_append (l₁ := [.spinDown i]) (carryOut_quiet (s := g) rfl) henter
  refine ⟨_, carryOut_act (n := 3) hgrade hlater, ?_, ?_, ?_, carryOut_flagSet hlater (graded_planEnd ..),
    (flagSet_congr (State.modBin_flags ..) _ _).trans (flagSet_setOcc_binWait (by rw [hwocc]; exact hwait))⟩
  · simpa using hwres
  · simp
  · rw [State.modBin_bin, setOcc_bins, (withdrawEntry_granted ..).bins, hbins]

/-! ## The handling of SLOT_ABORT (R130) -/

section
variable {p : List Byte} {s : State} {i : Slot} (hp : p.length = 1) (hi : field8 p 0 = i.val)
include hp hi

theorem handleSlotAbort_stops {run : Run} (hrun : (s.slot i).run = some run) (hstop : run.stop = none)
    (hocc : (s.slot i).occ = .testing ∨ (s.slot i).occ = .held) :
    handleSlotAbort p s = .ok s [.waitStop i .hostAbort abortVerdict] := by
  simp only [handleSlotAbort, withLength_eq hp, withSlot_val hi, hrun, hstop, hocc, Option.isSome_none, Bool.false_eq_true,
    if_false, if_true]

theorem handleSlotAbort_stopPending {run : Run} (hrun : (s.slot i).run = some run) (hstop : run.stop.isSome) :
    handleSlotAbort p s = if (s.slot i).occ = .testing then .ok s [] else .refuse .badState := by
  simp only [handleSlotAbort, withLength_eq hp, withSlot_val hi, hrun, hstop, if_true]

theorem handleSlotAbort_grades (hrun : (s.slot i).run = none) (hocc : (s.slot i).occ = .ready)
    (hres : (s.slot i).result = none) : handleSlotAbort p s = .ok s [.grade i .hostAbort] := by
  simp only [handleSlotAbort, withLength_eq hp, withSlot_val hi, hrun, hocc, hres, Option.isNone_none, and_self, if_true]

theorem handleSlotAbort_refuse (h : ((s.slot i).run = none ∧ ¬((s.slot i).occ = .ready ∧ (s.slot i).result = none)) ∨
    ((s.slot i).run.isSome ∧ (s.slot i).occ ≠ .testing ∧ (s.slot i).occ ≠ .held)) :
    handleSlotAbort p s = .refuse .badState := by
  rcases h with ⟨hrun, hready⟩ | ⟨hrun, htesting, hheld⟩
  · simp only [handleSlotAbort, withLength_eq hp, withSlot_val hi, hrun, Option.isNone_iff_eq_none, hready, if_false]
  · obtain ⟨run, hrun⟩ := Option.isSome_iff_exists.1 hrun
    simp only [handleSlotAbort, withLength_eq hp, withSlot_val hi, hrun, htesting, hheld, or_self, if_false, ite_self]
end

/-- Settles O30: the run by its phase and its pending stop, the READY slot's grading, and the refusals. -/
theorem abortStopsTheRun : Obligations.AbortStopsTheRun := by
  unfold Obligations.AbortStopsTheRun
  intro tag p s i hp hi h
  let u := serving 0x17#8 tag p s
  refine ⟨fun run hgoing hocc => ?_, fun run hrun hocc hstop hstate hmore => ?_, fun run hrun hstop => ⟨fun hocc => ?_,
    fun hocc => ?_⟩, fun b hrun hocc hres hadm hbin hfull => ?_, fun hrefused => serve_refuse h (handleSlotAbort_refuse hp hi hrefused)⟩
  · -- A running test.
    have hu : TestGoing u i run := hgoing
    obtain ⟨hrun, -, -, -, hstop, -⟩ := id hu
    obtain ⟨t, ht, hstops⟩ := waitStop_stops hu .hostAbort abortVerdict
    have hothers : OtherSlotsSame s t i := waitStop_others (s := u) hu ht
    exact ⟨t, (serve_next h _).trans (answerRequest_ok (handleSlotAbort_stops hp hi hrun hstop hocc)
      (n := 1) (by decide) (carryOut_quiet ht)), hothers, hstops.run, hstops.stop.slotPending.pendingOrInFlight rfl⟩
  · -- A phase already STOPPING.
    have hkept : stopDropped u run = false := by
      simp [stopDropped, completing, hstop, Nat.ne_of_lt hmore]
    exact (serve_next h _).trans (answerRequest_ok (handleSlotAbort_stops hp hi hrun hstop hocc) (n := 1) (by decide)
      (carryOut_quiet (waitStop_held (s := u) hrun hstate hkept .hostAbort abortVerdict)))
  · exact (serve_next h _).trans (answerRequest_done
      ((handleSlotAbort_stopPending (s := u) hp hi hrun hstop).trans (if_pos hocc)))
  · exact serve_refuse h ((handleSlotAbort_stopPending (s := u) hp hi hrun hstop).trans (if_neg hocc))
  · -- A READY slot.
    obtain ⟨t, ht, hparts⟩ := grade_waits (s := u) (i := i) hres hadm (by rw [show (u.slot i).occ = _ from hocc]; decide)
      (by rw [show (u.slot i).occ = _ from hocc]; decide) rfl hbin hfull
    exact ⟨t, (serve_next h _).trans (answerRequest_ok (handleSlotAbort_grades hp hi hrun hocc hres) (by decide) ht), hparts⟩

end Sys2Proof.Machine
end

section
/-! SUPPORT. SLOT_START (R114) and the entry of a run's first phase on a slot that is bound and idle: a SPIN request, a REST
that starts its timer, or a power cycle that switches the slot off (R117, R118, R122, R123). -/

namespace Sys2Proof.Machine

/-! ## SPIN requested and power switched off on an idle slot (R32, R40, R41) -/

/-- A SPIN request for an idle slot (R32): spin has been granted to it, or it waits in the queue as it was. -/
theorem requestSpin_settled {i : Slot} {s : State} (hc : (s.slot i).cls = .idle) :
    ∃ t, act (.requestSpin i) s = (t, []) ∧ t.slot i = (s.slot i).withSpin (t.slot i) ∧
      ((t.slot i).cls = .inrush ∨ ((t.slot i).cls = .idle ∧ hasEntry t i .spin = true)) := by
  let e : QueueEntry := { slot := i, kind := .spin, requester := .planRunner }
  let u := setQueue (shelfOf i) (placeRequest e (s.shelf (shelfOf i)).queue) s
  have hact : act (.requestSpin i) s = (examine (shelfOf i) u, []) := by
    simp only [act, requestSpin, hc]
    rfl
  have hslot : u.slot i = s.slot i := setQueue_slot ..
  have hqueue : (u.shelf (shelfOf i)).queue = placeRequest e (s.shelf (shelfOf i)).queue := by simp [u]
  have hgrant : ∀ x ∈ (u.shelf (shelfOf i)).queue, x.slot = i → ∀ t : State,
      t.slot i = u.slot i ∨ (t.slot i = (s.slot i).withSpin (t.slot i) ∧ (t.slot i).cls = .inrush) →
      (grant x t).slot i = (s.slot i).withSpin ((grant x t).slot i) ∧ ((grant x t).slot i).cls = .inrush := by
    intro x hx hi t ht
    have hxe : x = e := (mem_placeRequest (hqueue ▸ hx)).resolve_right fun h => h.2 hi
    have hold : t.slot i = (s.slot i).withSpin (t.slot i) := by
      rcases ht with ht | ⟨ht, -⟩
      · rw [ht, hslot]; rfl
      · exact ht
    obtain ⟨f, hf, ⟨-, -, hk, -⟩ | ⟨rank, window, -, hrec⟩⟩ := grant_eq x t
    · rw [hxe] at hk; cases hk
    · rw [hf, hi, State.modSlot_slot, hrec, hold]
      exact ⟨rfl, rfl⟩
  refine ⟨_, hact, ?_⟩
  rcases examine_slot_or (Q := fun r => r = (s.slot i).withSpin r ∧ r.cls = .inrush) hgrant with ⟨hsame, hwaits⟩ | ⟨hspun, hcls⟩
  · rw [hsame, hslot]
    refine ⟨rfl, .inr ⟨hc, ?_⟩⟩
    exact hasEntry_of_mem (e := e) (hwaits e (hqueue ▸ self_mem_placeRequest ..) rfl) rfl
  · exact ⟨hspun, .inl hcls⟩

/-- An idle slot keeps its record at a spin-down: only a SPIN request that waits is withdrawn (R40). -/
theorem spinDown_slot_of_idle {i : Slot} {s : State} (hc : (s.slot i).cls = .idle) : (spinDown i s).slot i = s.slot i := by
  simp [spinDown, hc, withdrawEntry_slot]

/-- A power-off leaves the run as it is where no attention record goes with the drive part (R41, R105). -/
theorem powerOff_run {i : Slot} {s u : State} {d : DrivePart} (hc : (s.slot i).cls ≠ .off) (hd : (s.slot i).drive = some d)
    (hw : NoWork s i) (ha : (s.slot i).attn = none) (hu : carryOut 3 [.powerOff i] s = some u) :
    (u.slot i).run = (s.slot i).run := by
  have hcut := cutPower_granted i s
  have hattach := (leaveSet_attachOnly i (cutPower i s)).trans (freeUnheld_attachOnly (shelfOf i) _)
  generalize hv : freeUnheld (shelfOf i) (leaveSet i (cutPower i s)) = v at hattach
  have hvslot : v.slot i = { (cutPower i s).slot i with deadline := (v.slot i).deadline } := hattach.slot i
  have hvdrive : (v.slot i).drive = some d := by rw [hvslot]; simpa [cutPower] using hd
  have hvattn : (v.slot i).attn = none := by rw [hvslot]; simpa [cutPower] using ha
  obtain ⟨w, hdis, -, -, -, -, hqueue, -⟩ := discardDrive_some hvdrive (hattach.work.noWork (hcut.noWork hw))
  have hrun : (w.slot i).run = (s.slot i).run := calc
    (w.slot i).run = (v.slot i).run := by rw [← discardDrive_run hvattn, hdis]
    _ = (s.slot i).run := by rw [hvslot]; simp [cutPower]
  have hwq : queued w i = false :=
    (queued_congr (hqueue _)).trans ((queued_congr (hattach.queue _)).trans (queued_withoutSlot i _))
  have hoff : act (.powerOff i) s = (cutPower i s, [.switchedOff i, .examine (shelfOf i)]) := if_pos hc
  have hsw : act (.switchedOff i) (cutPower i s) = (w, []) := by
    simp only [act, switchedOff, hv]
    exact hdis
  have hend : carryOut 3 [.powerOff i] s = some (examine (shelfOf i) w) := by
    rw [carryOut_cons, hoff, List.append_nil, carryOut_cons, hsw]
    rfl
  obtain rfl : examine (shelfOf i) w = u := Option.some.inj (hend.symm.trans hu)
  rw [examine_slot hwq, hrun]

/-- An update of a run part that has just been set. -/
theorem State.withRun_modRun (s : State) (i : Slot) (run : Run) (f : Run → Run) :
    (s.withRun i run).modRun i f = s.withRun i (f run) :=
  State.modSlot_modSlot ..

/-! ## The entry of a phase on a bound slot (R117) -/

/-- A slot that is bound asks for no power as a phase is entered: the phase begins. -/
theorem enterPhase_bound {i : Slot} {s : State} {run : Run} {rec : PhaseRec} (hrun : (s.slot i).run = some run)
    (hadm : (s.slot i).adm = .bound) (hphase : phaseRec s run = some rec) (hkept : run.noAttachKept = false) :
    act (.enterPhase i) s = beginPhase i rec.body (s.withRun i (enteredRun rec.body (some (s.now + 1000)) run)) := by
  simp [act, enterPhase, hrun, hphase, hkept, hadm, secs, State.after, State.modRun_of_run hrun]

/-- The slots that an entry speaks of: bound and idle, with a run whose current phase stands in its plan. -/
structure AtEntry (s : State) (i : Slot) (run : Run) (rec : PhaseRec) : Prop where
  hasRun : (s.slot i).run = some run
  adm : (s.slot i).adm = .bound
  cls : (s.slot i).cls = .idle
  phase : phaseRec s run = some rec
  notKept : run.noAttachKept = false

/-- The run as a POWER_CYCLE that has been entered has its slot switched off (R123). -/
def Run.cyclingOff (body : PhaseBody) (off now : Nat) (run : Run) : Run :=
  { enteredRun body (some (now + 1000)) run with
    state := .running, cycleStep := some .offTime, offTimer := some (now + 1000 * off) }

section
variable {s : State} {i : Slot} {run : Run} {rec : PhaseRec} (h : AtEntry s i run rec)
include h

/-- A SOAK or a DRIVE_TEST is entered with SPIN asked for (R118). -/
theorem AtEntry.asksSpin
    (hbegin : ∀ u, beginPhase i rec.body u = (u.modRun i fun run => { run with state := .starting }, [.requestSpin i])) :
    ∃ t, carryOut 2 [.enterPhase i] s = some t ∧
      t.slot i = { s.slot i with
        run := some { enteredRun rec.body (some (s.now + 1000)) run with state := .starting } }.withSpin (t.slot i) ∧
      ((t.slot i).cls = .inrush ∨ ((t.slot i).cls = .idle ∧ hasEntry t i .spin = true)) := by
  have henter := (enterPhase_bound h.hasRun h.adm h.phase h.notKept).trans (hbegin _)
  rw [State.withRun_modRun] at henter
  generalize { enteredRun rec.body (some (s.now + 1000)) run with state := .starting } = run' at henter ⊢
  have hslot : (s.withRun i run').slot i = { s.slot i with run := some run' } := State.modSlot_slot ..
  obtain ⟨t, hspin, hrec, hcls⟩ := requestSpin_settled (i := i) (s := s.withRun i run') (by rw [hslot]; exact h.cls)
  exact ⟨t, carryOut_act henter (carryOut_quiet hspin), hslot ▸ hrec, hcls⟩

/-- A REST is entered with its timer started (R122). -/
theorem AtEntry.rests {duration : Nat} (hbody : rec.body = .rest duration) :
    ∃ t, carryOut 2 [.enterPhase i] s = some t ∧
      t.slot i = { s.slot i with run := some (run.resting duration s.now) } := by
  have hphase : phaseRec s run = some { body := .rest duration, onFail := rec.onFail } := by rw [h.phase, ← hbody]
  have henter : act (.enterPhase i) s = (s.modRun i (Run.resting duration s.now), [.spinDown i]) :=
    enterPhase_rest h.hasRun h.adm hphase h.notKept
  refine ⟨_, carryOut_act henter (carryOut_quiet (u := spinDown i _) rfl), ?_⟩
  rw [spinDown_slot_of_idle (by simpa using h.cls)]
  simp [h.hasRun]

/-- A POWER_CYCLE is entered with the slot spun down and switched off, its wall time and its off time counting (R123). -/
theorem AtEntry.cycles {d : DrivePart} {cycles off on : Nat} (hd : (s.slot i).drive = some d) (hw : NoWork s i)
    (ha : (s.slot i).attn = none) (hbody : rec.body = .powerCycle cycles off on) :
    ∃ t, carryOut 7 [.enterPhase i] s = some t ∧ t.slot i = (s.slot i).switchedOff (t.slot i) ∧
      (t.slot i).run = some (run.cyclingOff rec.body off s.now) := by
  -- The run is written, and the slot is spun down.
  have henter := enterPhase_bound h.hasRun h.adm h.phase h.notKept
  rw [hbody, beginPhase, State.withRun_modRun, ← hbody] at henter
  let run' : Run := { enteredRun rec.body (some (s.now + 1000)) run with state := .running, cycleStep := some .spinDown }
  let y := s.withRun i run'
  have hdown : act (.cycleDown i)
      (s.withRun i { enteredRun rec.body (some (s.now + 1000)) run with state := .running }) =
      (y, [.spinDown i, .powerOff i, .cycleOff i]) := by
    rw [act, cycleDown, State.withRun_modRun]
  have hyslot : y.slot i = { s.slot i with run := some run' } := State.modSlot_slot ..
  have hspun := spinDown_granted i y
  have hvslot : (spinDown i y).slot i = y.slot i := spinDown_slot_of_idle (by rw [hyslot]; exact h.cls)
  have hvwork : NoWork (spinDown i y) i := hspun.noWork hw
  generalize hv : spinDown i y = v at hspun hvslot hvwork
  rw [hyslot] at hvslot
  -- The slot is switched off.
  have hvon : (v.slot i).cls ≠ .off := by rw [hvslot]; simp [h.cls]
  obtain ⟨w, hoff, hcarry⟩ := powerOff_on hvon (.inr hvwork)
  have hwrun : (w.slot i).run = some run' := by
    rw [powerOff_run hvon (by rw [hvslot]; exact hd) hvwork (by rw [hvslot]; exact ha) hcarry, hvslot]
  have hchanged : Changed y w := hspun.changed.trans hoff.changed
  have hwphase : phaseRec w run' = some { body := .powerCycle cycles off on, onFail := rec.onFail } := by
    rw [phaseRec_congr hchanged.plans_eq, ← hbody]
    exact h.phase
  -- The off timer starts.
  have hlast : act (.cycleOff i) w =
      (w.withRun i (run.cyclingOff rec.body off s.now), []) := by
    have hnow : w.now = s.now := hchanged.now_eq
    simp only [act, cycleOff, hwrun, hwphase, run', and_self, if_true, State.modRun_of_run hwrun, State.after, hnow, secs]
    rfl
  refine ⟨_, carryOut_act henter (carryOut_act hdown (carryOut_append (n := 1) (l₁ := [.spinDown i])
    (carryOut_quiet (u := v) (by rw [← hv]; rfl)) (carryOut_append hcarry (carryOut_quiet hlast)))), ?_, ?_⟩
  · rw [State.modSlot_slot, hoff.slot, hvslot]; rfl
  · rw [State.modSlot_slot]
end

/-! ## SLOT_START (R114) -/

theorem startWith_refuse {i : Slot} {n : PlanIx} {s : State}
    (h : (s.slot i).occ ≠ .ready ∨ (s.slot i).result ≠ none ∨ (s.slot i).silent = true ∨ s.plans[n].complete = false) :
    startWith i n s = .refuse .badState := by
  unfold startWith mayStart
  refine if_neg ?_
  simp only [Bool.and_eq_true, decide_eq_true_eq, Option.isNone_iff_eq_none, Bool.not_eq_true', not_and, Bool.not_eq_true]
  intro ⟨⟨hready, hnone⟩, hloud⟩
  exact ((h.resolve_left (· hready)).resolve_left (· hnone)).resolve_left (by simp [hloud])

theorem startWith_ok {i : Slot} {n : PlanIx} {s : State} (ho : (s.slot i).occ = .ready) (hr : (s.slot i).result = none)
    (hs : (s.slot i).silent = false) (hc : s.plans[n].complete = true) : startWith i n s = .ok s [.startRun i n] := by
  rw [startWith, hc]
  simp [mayStart, ho, hr, hs]

/-- A plan given by its number. -/
theorem handleSlotStart_number {p : List Byte} {i : Slot} {n : PlanIx} (hp : p.length = 2) (hi : field8 p 0 = i.val)
    (hn : field8 p 1 = n.val) (s : State) : handleSlotStart p s = startWith i n s := by
  have hne : field8 p 1 ≠ 254 := by omega
  rw [handleSlotStart, withLength_eq hp, withSlot_val hi, if_neg hne, withPlan_val hn]

/-- The armed plan. -/
theorem handleSlotStart_armed {p : List Byte} {i : Slot} {n : PlanIx} {s : State} (hp : p.length = 2)
    (hi : field8 p 0 = i.val) (h254 : field8 p 1 = 254) (harmed : (s.slot i).armed = some n) :
    handleSlotStart p s = startWith i n s := by
  rw [handleSlotStart, withLength_eq hp, withSlot_val hi, if_pos h254, harmed]

theorem handleSlotStart_unarmed {p : List Byte} {i : Slot} {s : State} (hp : p.length = 2)
    (hi : field8 p 0 = i.val) (h254 : field8 p 1 = 254) (harmed : (s.slot i).armed = none) :
    handleSlotStart p s = .refuse .badState := by
  rw [handleSlotStart, withLength_eq hp, withSlot_val hi, if_pos h254, harmed]

/-- The record of a slot in TESTING with a new run of the plan (R114). -/
def SlotRec.started (n : PlanIx) (plan : Plan) (d : DrivePart) (r : SlotRec) : SlotRec :=
  { r with run := some (newRun n plan), identity := some d.ident }.movedTo .testing

/-- The state as the run of a plan has started. -/
def runStarted (i : Slot) (n : PlanIx) (s : State) : State := (startRun i n s).1

theorem act_startRun (i : Slot) (n : PlanIx) (s : State) :
    act (.startRun i n) s = (runStarted i n s, [.enterPhase i]) := rfl

theorem runStarted_slot {i : Slot} {n : PlanIx} {s : State} {d : DrivePart} (hd : (s.slot i).drive = some d) :
    (runStarted i n s).slot i = (s.slot i).started n s.plans[n] d := by
  simp [runStarted, startRun, SlotRec.started, hd]

theorem runStarted_shelf (i : Slot) (n : PlanIx) (s : State) (k : Shelf) : (runStarted i n s).shelf k = s.shelf k := by
  simp [runStarted, startRun]

theorem runStarted_changed (i : Slot) (n : PlanIx) (s : State) : Changed s (runStarted i n s) :=
  setOcc_changed i .testing (.slots _ (.refl s))

/-- The slot whose run has started stands at the entry of phase 0. -/
theorem runStarted_atEntry {i : Slot} {n : PlanIx} {s : State} {d : DrivePart} {rec : PhaseRec}
    (hd : (s.slot i).drive = some d) (ha : (s.slot i).adm = .bound) (hc : (s.slot i).cls = .idle)
    (hphase : s.plans[n].phases[0] = some rec) :
    AtEntry (runStarted i n s) i (newRun n s.plans[n]) rec where
  hasRun := by simp [runStarted_slot hd, SlotRec.started]
  adm := by simp [runStarted_slot hd, SlotRec.started, ha]
  cls := by simp [runStarted_slot hd, SlotRec.started, hc]
  phase := (phaseRec_congr (runStarted_changed i n s).plans_eq _).trans hphase
  notKept := rfl

/-! A new run has its per-phase fields as an entry resets them (R115). -/

theorem newRun_entered {body : PhaseBody} (h : isCycle body = false) (n : PlanIx) (plan : Plan) (second : Option Nat) :
    enteredRun body second (newRun n plan) = newRun n plan := by
  rw [enteredRun, h]
  rfl

theorem newRun_resting (n : PlanIx) (plan : Plan) (duration now : Nat) : (newRun n plan).resting duration now =
    { newRun n plan with
      state := .running, wallTimer := some (now + 1000), restTimer := some (now + 1000 * duration) } := rfl

theorem newRun_cyclingOff (n : PlanIx) (plan : Plan) (cycles off on now : Nat) :
    (newRun n plan).cyclingOff (.powerCycle cycles off on) off now = { newRun n plan with
      state := .running, wallTimer := some (now + 1000), cycleStep := some .offTime,
      offTimer := some (now + 1000 * off) } := rfl

/-- Settles O29: the run record is formed and the slot stands at the entry of phase 0, whose kind says what follows. -/
theorem startRunsThePlan : Obligations.StartRunsThePlan := by
  unfold Obligations.StartRunsThePlan
  intro tag p s i n hp hi hnext
  let u := serving 0x16#8 tag p s
  have hserve : exec (.slotStart tag p) s = serve 0x16#8 tag p (handleSlotStart p) s := rfl
  refine ⟨fun d rec hplan hcomplete hocc hresult hsilent hdrive hadm hcls hphase hcycle => ?_, fun hno => ?_⟩
  · have hhandle : handleSlotStart p u = .ok u [.startRun i n] := by
      have hok : startWith i n u = .ok u [.startRun i n] := startWith_ok hocc hresult hsilent hcomplete
      rcases hplan with hn | ⟨h254, harmed⟩
      · rw [handleSlotStart_number hp hi hn, hok]
      · rw [handleSlotStart_armed (s := u) hp hi h254 harmed, hok]
    have hentry : AtEntry (runStarted i n u) i (newRun n s.plans[n]) rec := runStarted_atEntry hdrive hadm hcls hphase
    have hslot : (runStarted i n u).slot i = (s.slot i).started n s.plans[n] d := runStarted_slot hdrive
    have hnow : (runStarted i n u).now = s.now := (runStarted_changed i n u).now_eq
    have hanswer : ∀ {m : Nat} {t : State}, m + 1 ≤ Config.tellBound → carryOut m [.enterPhase i] (runStarted i n u) = some t →
        exec (.slotStart tag p) s = .next (answered 0x16#8 tag .ok .none t) := fun hm ht =>
      (hserve.trans (serve_next hnext _)).trans (answerRequest_ok hhandle hm (carryOut_act (act_startRun i n u) ht))
    cases hbody : rec.body with
    | rest duration =>
      obtain ⟨t, hcarry, hrec⟩ := hentry.rests hbody
      rw [hslot, hnow, newRun_resting] at hrec
      refine ⟨t, hanswer (by decide) hcarry, ?_⟩
      rw [hrec]
      simp [SlotRec.started]
    | powerCycle cycles off on =>
      obtain ⟨hwork, hattn⟩ := hcycle cycles off on hbody
      obtain ⟨t, hcarry, hrec, hrun⟩ := hentry.cycles (d := d) (by simp [hslot, SlotRec.started, hdrive])
        (fun it hit => hwork it (by rw [runStarted_shelf] at hit; exact hit))
        (by simpa [hslot, SlotRec.started] using hattn) hbody
      rw [hslot] at hrec
      rw [hnow, hbody, newRun_cyclingOff] at hrun
      refine ⟨t, hanswer (by decide) hcarry, ?_⟩
      rw [hrun, hrec]
      simp [SlotRec.started, SlotRec.switchedOff]
    | _ =>
      obtain ⟨t, hcarry, hrec, hspin⟩ := hentry.asksSpin fun _ => by rw [hbody]; rfl
      rw [hslot, newRun_entered (by rw [hbody]; rfl)] at hrec
      have hrun : (t.slot i).run = some { newRun n s.plans[n] with state := .starting } := by rw [hrec]; rfl
      refine ⟨t, hanswer (by decide) hcarry, ?_, ?_, ?_, ?_, hrun, hspin⟩ <;>
        · rw [hrec]; simp [SlotRec.started, SlotRec.withSpin]
  · have hhandle : handleSlotStart p u = .refuse .badState := by
      rcases hno with ⟨hn, hwhy⟩ | ⟨h254, harmed⟩
      · rw [handleSlotStart_number hp hi hn]
        exact startWith_refuse hwhy
      · exact handleSlotStart_unarmed hp hi h254 harmed
    exact hserve.trans (serve_refuse hnext hhandle)

end Sys2Proof.Machine
end

section
/-! SUPPORT. The acceleration factor of a plan (R137, R138): the clamps, the segment a temperature lies in, and the bounds
that the truncation toward zero gives the interpolation. -/

namespace Sys2Proof.Machine

/-! ## A share of a difference, truncated toward zero (R138) -/

/-- The truncated share `r / s` of a rise lies between nothing and the whole rise. -/
theorem tdiv_share_of_rise {δ : Int} {r s : Nat} (hδ : 0 ≤ δ) (hr : r < s) :
    0 ≤ (δ * r).tdiv s ∧ (δ * r).tdiv s ≤ δ := by
  have hprod : 0 ≤ δ * r := Int.mul_nonneg hδ (Int.natCast_nonneg r)
  have hshare : δ * r ≤ δ * s := Int.mul_le_mul_of_nonneg_left (by omega) hδ
  rw [Int.tdiv_eq_ediv_of_nonneg hprod]
  exact ⟨Int.ediv_nonneg hprod (Int.natCast_nonneg s), Int.ediv_le_of_le_mul (by omega) hshare⟩

/-- The truncated share `r / s` of a fall lies between the whole fall and nothing: truncation toward zero mirrors the rise. -/
theorem tdiv_share_of_fall {δ : Int} {r s : Nat} (hδ : δ ≤ 0) (hr : r < s) :
    δ ≤ (δ * r).tdiv s ∧ (δ * r).tdiv s ≤ 0 := by
  have hmirror : (-δ * r).tdiv s = -(δ * r).tdiv s := by rw [Int.neg_mul, Int.neg_tdiv]
  have hrise := tdiv_share_of_rise (δ := -δ) (by omega) hr
  omega

/-- Step 4 of R138: the value at offset `r` of a segment of width `s` from `lo` to `hi`. -/
def interpolated (lo hi r s : Nat) : Int := lo + (((hi : Int) - lo) * r).tdiv s

theorem interpolated_between {lo hi r s : Nat} (hr : r < s) :
    min lo hi ≤ interpolated lo hi r s ∧ interpolated lo hi r s ≤ max lo hi := by
  unfold interpolated
  rcases Nat.le_total lo hi with hrises | hfalls
  · have := tdiv_share_of_rise (δ := (hi : Int) - lo) (by omega) hr
    omega
  · have := tdiv_share_of_fall (δ := (hi : Int) - lo) (by omega) hr
    omega

theorem interpolated_nonneg {lo hi r s : Nat} (hr : r < s) : 0 ≤ interpolated lo hi r s := by
  have := (interpolated_between (lo := lo) (hi := hi) hr).1
  omega

theorem interpolated_at_breakpoint (lo hi s : Nat) : interpolated lo hi 0 s = lo := by simp [interpolated]

/-- The product of R138 is bounded by the widest difference and the largest offset. -/
theorem natAbs_product_le {lo hi r f m : Nat} (hlo : lo ≤ f) (hhi : hi ≤ f) (hr : r ≤ m) :
    (((hi : Int) - lo) * r).natAbs ≤ f * m := by
  rw [Int.natAbs_mul, Int.natAbs_natCast]
  exact Nat.mul_le_mul (by omega) hr

/-! ## The factors of a plan (R137) -/

/-- Every Fk is one of the nine factors of the table. -/
theorem factorAt_mem (p : Plan) (k : Nat) : ∃ m : Fin 9, factorAt p k = p.factors[m] := by
  rcases Nat.lt_or_ge k 9 with hk | hk
  · exact ⟨⟨k, hk⟩, by simp [factorAt, hk]⟩
  · exact ⟨8, by simp [factorAt, hk]⟩

/-- Bounds of the table's nine entries are bounds of every Fk. -/
theorem factorAt_bounded {p : Plan} {a b : Nat} (h : ∀ m : Fin 9, a ≤ p.factors[m] ∧ p.factors[m] ≤ b) (k : Nat) :
    a ≤ factorAt p k ∧ factorAt p k ≤ b := by
  obtain ⟨m, hm⟩ := factorAt_mem p k
  exact hm ▸ h m

theorem factor_below {p : Plan} {t : Nat} (h : t ≤ p.t0) : factor p t = factorAt p 0 := if_pos h

/-- At or above T8 the factor is F8; the step is positive, so that T8 lies above T0. -/
theorem factor_above {p : Plan} {t : Nat} (hstep : 0 < p.step) (h : p.t0 + 8 * p.step ≤ t) :
    factor p t = factorAt p 8 := by
  rw [factor, if_neg (by omega), if_pos (show breakpoint p 8 ≤ t from h)]

/-- The index k of the segment that holds a temperature (step 2 of R138). -/
def segmentOf (p : Plan) (t : Nat) : Nat := (t - p.t0) / p.step

/-- The offset r of a temperature in its segment (step 3 of R138). -/
def offsetOf (p : Plan) (t : Nat) : Nat := t - p.t0 - segmentOf p t * p.step

theorem offsetOf_lt {p : Plan} (hstep : 0 < p.step) (t : Nat) : offsetOf p t < p.step := by
  have hmod : offsetOf p t = (t - p.t0) % p.step := by rw [offsetOf, segmentOf, Nat.mod_eq_sub_div_mul]
  exact hmod ▸ Nat.mod_lt _ hstep

section
variable {p : Plan} {t : Nat} (h0 : p.t0 < t) (h8 : t < p.t0 + 8 * p.step)
include h0 h8

theorem segmentOf_le : segmentOf p t ≤ 7 :=
  Nat.le_of_lt_succ (Nat.div_lt_of_lt_mul (by omega))

/-- Between T0 and T8 the factor is the interpolation; it is never negative, so the model's `toNat` loses nothing. -/
theorem factor_inside :
    (factor p t : Int) =
      interpolated (factorAt p (segmentOf p t)) (factorAt p (segmentOf p t + 1)) (offsetOf p t) p.step := by
  rw [← Int.toNat_of_nonneg (interpolated_nonneg (offsetOf_lt (by omega) t)), factor, if_neg (by omega),
    if_neg (by rw [breakpoint]; omega)]
  rfl

/-- The factor lies between the two factors of its segment, whichever of them is the larger. -/
theorem factor_between :
    min (factorAt p (segmentOf p t)) (factorAt p (segmentOf p t + 1)) ≤ factor p t ∧
      factor p t ≤ max (factorAt p (segmentOf p t)) (factorAt p (segmentOf p t + 1)) := by
  have hbetween := interpolated_between (lo := factorAt p (segmentOf p t)) (hi := factorAt p (segmentOf p t + 1))
    (offsetOf_lt (p := p) (by omega) t)
  rw [← factor_inside h0 h8] at hbetween
  omega

theorem factor_at_breakpoint (hr : offsetOf p t = 0) : factor p t = factorAt p (segmentOf p t) := by
  have hinside := factor_inside h0 h8
  rw [hr, interpolated_at_breakpoint] at hinside
  exact Int.ofNat.inj hinside
end

/-- Bounds that hold of the nine factors hold of the factor of every temperature. -/
theorem factor_bounded {p : Plan} {a b : Nat} (hstep : 0 < p.step)
    (h : ∀ m : Fin 9, a ≤ p.factors[m] ∧ p.factors[m] ≤ b) (t : Nat) : a ≤ factor p t ∧ factor p t ≤ b := by
  have hat := factorAt_bounded h
  rcases Nat.lt_or_ge p.t0 t with h0 | h0
  · rcases Nat.lt_or_ge t (p.t0 + 8 * p.step) with h8 | h8
    · have hbetween := factor_between h0 h8
      have hlo := hat (segmentOf p t)
      have hhi := hat (segmentOf p t + 1)
      omega
    · exact factor_above hstep h8 ▸ hat 8
  · exact factor_below h0 ▸ hat 0

/-- The reset table is flat, so its factor is that of its breakpoints at every temperature (R137). -/
theorem factor_reset (t : Nat) : factor Plan.reset t = 256 := by
  have hflat : ∀ m : Fin 9, 256 ≤ Plan.reset.factors[m] ∧ Plan.reset.factors[m] ≤ 256 := by decide
  obtain ⟨hlow, hhigh⟩ := factor_bounded (by decide) hflat t
  exact Nat.le_antisymm hhigh hlow

/-- Settles O54: the clamps, the reset table, and between T0 and T8 the interpolation and the bounds it keeps. -/
theorem factorIsInterpolated : Obligations.FactorIsInterpolated := by
  unfold Obligations.FactorIsInterpolated
  refine ⟨fun p t hstep => ⟨factor_below, factor_above hstep⟩, factor_reset, fun p t hstep h0 h8 => ?_⟩
  have hoffset : offsetOf p t ≤ p.step - 1 := Nat.le_sub_one_of_lt (offsetOf_lt hstep t)
  obtain ⟨hmin, hmax⟩ := factor_between h0 h8
  have hrange (hfactors : ∀ m : Fin 9, p.factors[m] ≤ 65535) (m : Fin 9) : 0 ≤ p.factors[m] ∧ p.factors[m] ≤ 65535 :=
    ⟨Nat.zero_le _, hfactors m⟩
  refine ⟨by omega, segmentOf_le h0 h8, hoffset, factor_inside h0 h8, fun hrises => ?_, fun hfalls => ?_,
    factor_at_breakpoint h0 h8, fun hwidth hfactors => ⟨?_, ?_⟩⟩
  · exact ⟨min_eq_left hrises ▸ hmin, max_eq_right hrises ▸ hmax⟩
  · exact ⟨min_eq_right hfalls ▸ hmin, max_eq_left hfalls ▸ hmax⟩
  · have hat (k : Nat) : factorAt p k ≤ 65535 := (factorAt_bounded (hrange hfactors) k).2
    exact natAbs_product_le (m := 79) (hat _) (hat _) (hoffset.trans (by omega))
  · exact (factor_bounded hstep (hrange hfactors) t).2

end Sys2Proof.Machine
end

section
/-! SUPPORT. What the insertion of a report makes of a segment: its entries stay in order and apart (R156), the merged entry
covers what the report and the entries it absorbs cover (R154), and the counters follow (R153, R157). -/

namespace Sys2Proof.Machine

/-! ## Ranges and keys (R149) -/

theorem touches_eq_false_iff {a b : DefectEntry} :
    touches a.start a.length b.start b.length = false ↔ a.stop < b.start ∨ b.stop < a.start := by
  simp only [touches, DefectEntry.stop, Bool.and_eq_false_iff, decide_eq_false_iff_not]
  omega

theorem touches_iff {a b : DefectEntry} :
    touches a.start a.length b.start b.length = true ↔ a.start ≤ b.stop ∧ b.start ≤ a.stop := by
  simp [touches, DefectEntry.stop]

theorem touches_comm (a b : DefectEntry) :
    touches a.start a.length b.start b.length = touches b.start b.length a.start a.length := by
  simp [touches, Bool.and_comm]

theorem sameKey_iff {a b : DefectEntry} :
    sameKey a b = true ↔ a.head = b.head ∧ a.cls = b.cls ∧ a.origin = b.origin := by
  simp [sameKey, and_assoc]

theorem sameKey_comm (a b : DefectEntry) : sameKey a b = sameKey b a := by
  simp only [sameKey, eq_comm]

/-- Entries of one key with a third are of one key. -/
theorem sameKey_trans {a b c : DefectEntry} (h : sameKey a b = true) (h' : sameKey b c = true) : sameKey a c = true := by
  rw [sameKey_iff] at *
  obtain ⟨hhead, hcls, horigin⟩ := h
  obtain ⟨hhead', hcls', horigin'⟩ := h'
  exact ⟨hhead.trans hhead', hcls.trans hcls', horigin.trans horigin'⟩

/-- That two entries lie apart if they are of one key does not depend on which is named first. -/
theorem apart_comm {a b : DefectEntry} (h : sameKey a b = true → touches a.start a.length b.start b.length = false)
    (hkey : sameKey b a = true) : touches b.start b.length a.start a.length = false := by
  rw [touches_comm]
  exact h (by rwa [sameKey_comm])

/-! ## The order of a segment (R156) -/

theorem classRank_inj {a b : DefectClass} : classRank a = classRank b ↔ a = b := by cases a <;> cases b <;> decide

theorem originRank_inj {a b : Origin} : originRank a = originRank b ↔ a = b := by cases a <;> cases b <;> decide

/-- The order of entries is that of their heads, starts, classes and origins, in this sequence. -/
theorem entryBefore_iff {a b : DefectEntry} : entryBefore a b = true ↔
    a.head < b.head ∨ a.head = b.head ∧ (a.start < b.start ∨ a.start = b.start ∧
      (classRank a.cls < classRank b.cls ∨ classRank a.cls = classRank b.cls ∧
        originRank a.origin < originRank b.origin)) := by
  simp only [entryBefore, Bool.or_eq_true, Bool.and_eq_true, decide_eq_true_eq, classRank_inj]

theorem entryBefore_trans {a b c : DefectEntry} (h : entryBefore a b = true) (h' : entryBefore b c = true) :
    entryBefore a c = true := by
  rw [entryBefore_iff] at *
  omega

/-- Of two entries that differ in key or start, one stands before the other. -/
theorem entryBefore_or {a b : DefectEntry} (h : sameKey a b = true → a.start ≠ b.start) :
    entryBefore a b = true ∨ entryBefore b a = true := by
  rw [sameKey_iff, ← classRank_inj, ← originRank_inj] at h
  rw [entryBefore_iff, entryBefore_iff]
  omega

theorem placeEntry_perm (e : DefectEntry) (l : List DefectEntry) : (placeEntry e l).Perm (e :: l) := by
  induction l with
  | nil => exact .refl _
  | cons x l ih =>
    unfold placeEntry
    split
    · exact .refl _
    · exact (ih.cons x).trans (.swap e x l)

theorem mem_placeEntry {e x : DefectEntry} {l : List DefectEntry} : x ∈ placeEntry e l ↔ x = e ∨ x ∈ l := by
  rw [(placeEntry_perm e l).mem_iff, List.mem_cons]

/-- An entry that is comparable with those of an ordered list is placed in their order. -/
theorem placeEntry_ordered {e : DefectEntry} {l : List DefectEntry} (h : l.Pairwise fun a b => entryBefore a b = true)
    (hcmp : ∀ x ∈ l, entryBefore e x = true ∨ entryBefore x e = true) :
    (placeEntry e l).Pairwise fun a b => entryBefore a b = true := by
  induction l with
  | nil => exact List.pairwise_singleton ..
  | cons x l ih =>
    obtain ⟨hx, hl⟩ := List.pairwise_cons.1 h
    unfold placeEntry
    split
    · next hex =>
      refine List.pairwise_cons.2 ⟨fun y hy => ?_, h⟩
      rcases List.mem_cons.1 hy with rfl | hy
      · exact hex
      · exact entryBefore_trans hex (hx y hy)
    · next hex =>
      have hxe := (hcmp x (List.mem_cons_self ..)).resolve_left hex
      refine List.pairwise_cons.2 ⟨fun y hy => ?_, ih hl fun y hy => hcmp y (List.mem_cons_of_mem _ hy)⟩
      rcases mem_placeEntry.1 hy with rfl | hy
      · exact hxe
      · exact hx y hy

/-! ## The merged entry (R154) -/

/-- The merged entry of a report and one entry. -/
def DefectEntry.hull (e x : DefectEntry) : DefectEntry :=
  { e with start := min e.start x.start, length := max e.stop x.stop - min e.start x.start, phase := min e.phase x.phase }

theorem DefectEntry.hull_stop (e x : DefectEntry) : (e.hull x).stop = max e.stop x.stop := by
  simp only [hull, stop]
  omega

theorem mergedEntry_nil (e : DefectEntry) : mergedEntry e [] = e := by
  simp [mergedEntry, DefectEntry.stop]

/-- Entries are absorbed one after another. -/
theorem mergedEntry_cons (e x : DefectEntry) (l : List DefectEntry) :
    mergedEntry e (x :: l) = mergedEntry (e.hull x) l := by
  simp only [mergedEntry, List.foldl_cons, DefectEntry.hull_stop]
  rfl

theorem mergedEntry_sameKey (e : DefectEntry) (l : List DefectEntry) : sameKey (mergedEntry e l) e = true :=
  sameKey_iff.2 ⟨rfl, rfl, rfl⟩

section
variable {e x : DefectEntry} {l : List DefectEntry}

/-- What touches a report touches what becomes of it as it absorbs an entry. -/
theorem DefectEntry.touches_hull (h : touches x.start x.length e.start e.length = true) (y : DefectEntry) :
    touches x.start x.length (e.hull y).start (e.hull y).length = true := by
  rw [touches_iff] at *
  have hstart : (e.hull y).start ≤ e.start := Nat.min_le_left ..
  have hstop := e.hull_stop y
  omega

/-- What lies apart from a report and from the entries it absorbs lies apart from the merged entry. -/
theorem mergedEntry_apart {y : DefectEntry} (he : touches y.start y.length e.start e.length = false)
    (habs : ∀ x ∈ l, touches x.start x.length e.start e.length = true)
    (hl : ∀ x ∈ l, touches y.start y.length x.start x.length = false) :
    touches y.start y.length (mergedEntry e l).start (mergedEntry e l).length = false := by
  induction l generalizing e with
  | nil => rwa [mergedEntry_nil]
  | cons x l ih =>
    obtain ⟨hx, habs⟩ := List.forall_mem_cons.1 habs
    obtain ⟨hyx, hl⟩ := List.forall_mem_cons.1 hl
    rw [mergedEntry_cons]
    refine ih ?_ (fun z hz => DefectEntry.touches_hull (habs z hz) x) hl
    rw [touches_iff] at hx
    rw [touches_eq_false_iff] at *
    have hstart : (e.hull x).start = min e.start x.start := rfl
    have hstop := e.hull_stop x
    have hwide : ∀ z : DefectEntry, z.start ≤ z.stop := fun z => Nat.le_add_right ..
    have := hwide y
    have := hwide e
    omega

theorem DefectEntry.hull_has (h : touches x.start x.length e.start e.length = true) (n : Nat) :
    (e.hull x).has n ↔ e.has n ∨ x.has n := by
  rw [touches_iff] at h
  have hstart : (e.hull x).start = min e.start x.start := rfl
  have hstop := e.hull_stop x
  simp only [DefectEntry.has, DefectEntry.stop] at *
  omega

/-- The merged entry covers what the report and the entries it absorbs cover. -/
theorem mergedEntry_has (habs : ∀ x ∈ l, touches x.start x.length e.start e.length = true) (n : Nat) :
    (mergedEntry e l).has n ↔ e.has n ∨ ∃ x ∈ l, x.has n := by
  induction l generalizing e with
  | nil => simp [mergedEntry_nil]
  | cons x l ih =>
    obtain ⟨hx, habs⟩ := List.forall_mem_cons.1 habs
    rw [mergedEntry_cons, ih fun z hz => DefectEntry.touches_hull (habs z hz) x, DefectEntry.hull_has hx,
      List.exists_mem_cons_iff, or_assoc]

theorem mergedEntry_length_pos (he : 1 ≤ e.length) : 1 ≤ (mergedEntry e l).length := by
  induction l generalizing e with
  | nil => rwa [mergedEntry_nil]
  | cons x l ih =>
    rw [mergedEntry_cons]
    refine ih ?_
    simp only [DefectEntry.hull, DefectEntry.stop]
    omega
end

/-! ## The sectors that no entry covers -/

/-- Whether an entry of a list covers a sector. -/
def covers (l : List DefectEntry) (n : Nat) : Bool := l.any fun x => decide (x.start ≤ n) && decide (n < x.stop)

/-- How many sectors from one up to another have a property. -/
def countBetween (q : Nat → Bool) (a b : Nat) : Nat := ((Finset.Ico a b).filter fun n => q n = true).card

/-- How many sectors of a report no entry of a list covers. -/
def freeSectors (l : List DefectEntry) (e : DefectEntry) : Nat := countBetween (fun n => !covers l n) e.start e.stop

theorem covers_iff {l : List DefectEntry} {n : Nat} : covers l n = true ↔ ∃ x ∈ l, x.has n := by
  simp only [covers, List.any_eq_true, Bool.and_eq_true, decide_eq_true_eq]
  rfl

theorem countBetween_empty (q : Nat → Bool) {a b : Nat} (h : b ≤ a) : countBetween q a b = 0 := by
  simp [countBetween, Finset.Ico_eq_empty (Nat.not_lt.2 h)]

theorem countBetween_true (a b : Nat) : countBetween (fun _ => true) a b = b - a := by simp [countBetween]

theorem countBetween_mono {q r : Nat → Bool} {a b : Nat} (h : ∀ n, a ≤ n → n < b → q n = true → r n = true) :
    countBetween q a b ≤ countBetween r a b := by
  refine Finset.card_le_card fun n hn => ?_
  simp only [Finset.mem_filter, Finset.mem_Ico] at hn ⊢
  obtain ⟨⟨ha, hb⟩, hq⟩ := hn
  exact ⟨⟨ha, hb⟩, h n ha hb hq⟩

/-- A count over two ranges whose sectors do not meet, by the property that says where a sector is counted. -/
theorem countBetween_add {q q' r : Nat → Bool} {a b a' b' c d : Nat}
    (h : ∀ n, ((c ≤ n ∧ n < d) ∧ r n = true) ↔
      ((a ≤ n ∧ n < b) ∧ q n = true) ∨ ((a' ≤ n ∧ n < b') ∧ q' n = true))
    (hd : ∀ n, a ≤ n ∧ n < b → q n = true → a' ≤ n ∧ n < b' → q' n = true → False) :
    countBetween r c d = countBetween q a b + countBetween q' a' b' := by
  simp only [countBetween]
  rw [← Finset.card_union_of_disjoint]
  · congr 1
    ext n
    simpa only [Finset.mem_union, Finset.mem_filter, Finset.mem_Ico] using h n
  · refine Finset.disjoint_left.2 fun n hn hn' => ?_
    simp only [Finset.mem_filter, Finset.mem_Ico] at hn hn'
    obtain ⟨hin, hq⟩ := hn
    obtain ⟨hin', hq'⟩ := hn'
    exact hd n hin hq hin' hq'

theorem countBetween_range (q : Nat → Bool) (a len : Nat) :
    countBetween q a (a + len) = (List.range len).countP fun n => q (a + n) := by
  simp only [countBetween, Finset.card_filter, Finset.sum_Ico_eq_sum_range, Nat.add_sub_cancel_left]
  induction len with
  | zero => rfl
  | succ n ih => rw [Finset.sum_range_succ, ih, List.range_succ, List.countP_append, List.countP_singleton]

/-- The statements' count of the sectors of a report that no stored entry of some property covers. -/
theorem sectorsOutside_eq (entries : List DefectEntry) (p : DefectEntry → Bool) (e : DefectEntry) :
    sectorsOutside entries p e = freeSectors (entries.filter p) e := by
  rw [freeSectors, DefectEntry.stop, countBetween_range, sectorsOutside]
  refine List.countP_congr fun n _ => ?_
  simp only [covers, List.any_filter, List.not_any_eq_all_not, DefectEntry.stop, Bool.and_assoc]
  rfl

/-- A list that covers no less leaves no more. -/
theorem freeSectors_le {l l' : List DefectEntry} {e : DefectEntry}
    (h : ∀ n, e.has n → covers l n = true → covers l' n = true) : freeSectors l' e ≤ freeSectors l e := by
  refine countBetween_mono fun n ha hb hn => ?_
  rw [Bool.not_eq_true', ← Bool.not_eq_true] at hn ⊢
  exact fun hl => hn (h n ⟨ha, hb⟩ hl)

theorem freeSectors_congr {l l' : List DefectEntry} {e : DefectEntry}
    (h : ∀ n, e.has n → (covers l n = true ↔ covers l' n = true)) : freeSectors l' e = freeSectors l e :=
  Nat.le_antisymm (freeSectors_le fun n hn => (h n hn).1) (freeSectors_le fun n hn => (h n hn).2)

theorem length_eq_count (e : DefectEntry) : e.length = countBetween (fun _ => true) e.start e.stop :=
  ((countBetween_true _ _).trans (Nat.add_sub_cancel_left ..)).symm

theorem freeSectors_nil (e : DefectEntry) : freeSectors [] e = e.length := (length_eq_count e).symm

/-- What lies of a range outside another. -/
theorem cutRange_count (q : Nat → Bool) {start stop : Nat} (h : start ≤ stop) (p : Nat × Nat) :
    ((cutRange start stop p).map fun r => countBetween q r.1 r.2).sum =
      countBetween (fun n => q n && !(decide (start ≤ n) && decide (n < stop))) p.1 p.2 := by
  have hpart : ∀ a b : Nat, ((if a < b then [(a, b)] else []).map fun r : Nat × Nat => countBetween q r.1 r.2).sum =
      countBetween q a b := fun a b => by
    split
    · simp
    · next hab => exact (countBetween_empty q (Nat.not_lt.1 hab)).symm
  rw [cutRange, List.map_append, List.sum_append, hpart, hpart]
  refine (countBetween_add (fun n => ?_) fun n hlow _ hhigh _ => by omega).symm
  cases q n <;> simp
  omega

/-- What the entries of a list leave of some ranges, one entry after another. -/
theorem uncovered_count (q : Nat → Bool) (l : List DefectEntry) (parts : List (Nat × Nat)) :
    ((l.foldl (fun parts e => parts.flatMap (cutRange e.start e.stop)) parts).map fun r => countBetween q r.1 r.2).sum =
      (parts.map fun r => countBetween (fun n => q n && !covers l n) r.1 r.2).sum := by
  induction l generalizing parts with
  | nil => simp [covers]
  | cons e l ih =>
    have hcons : (fun n => q n && !covers (e :: l) n) =
        fun n => (q n && !covers l n) && !(decide (e.start ≤ n) && decide (n < e.stop)) := by
      funext n
      simp only [covers, List.any_cons, Bool.not_or, Bool.and_assoc]
      rw [Bool.and_comm (!(decide (e.start ≤ n) && decide (n < e.stop)))]
    rw [List.foldl_cons, ih, List.map_flatMap, List.flatMap_def, List.sum_flatten, List.map_map, hcons]
    congr 1
    exact List.map_congr_left fun p _ => cutRange_count _ (Nat.le_add_right e.start e.length) p

theorem uncoveredCount_eq (l : List DefectEntry) (e : DefectEntry) : uncoveredCount l e.start e.length = freeSectors l e := by
  have h := uncovered_count (fun _ => true) l [(e.start, e.stop)]
  have hfull : ∀ p : Nat × Nat, countBetween (fun _ => true) p.1 p.2 = p.2 - p.1 := fun p => countBetween_true _ _
  simp only [hfull, Bool.true_and, List.map_singleton, List.sum_singleton] at h
  exact h

/-- What a merged entry covers beyond the entries it absorbs, which lie apart, the report has brought (R154). -/
theorem mergedEntry_length {e : DefectEntry} {l : List DefectEntry}
    (habs : ∀ x ∈ l, touches x.start x.length e.start e.length = true)
    (hapart : l.Pairwise fun a b => touches a.start a.length b.start b.length = false) :
    (mergedEntry e l).length = freeSectors l e + (l.map DefectEntry.length).sum := by
  induction l generalizing e with
  | nil => simp [mergedEntry_nil, freeSectors_nil]
  | cons x l ih =>
    obtain ⟨hx, habs⟩ := List.forall_mem_cons.1 habs
    obtain ⟨hxl, hl⟩ := List.pairwise_cons.1 hapart
    have hnot : ∀ n, x.has n → covers l n = false := fun n hn => by
      rw [← Bool.not_eq_true, covers_iff]
      rintro ⟨y, hy, hyn⟩
      have := touches_eq_false_iff.1 (hxl y hy)
      simp only [DefectEntry.has, DefectEntry.stop] at *
      omega
    have hcons : ∀ n, covers (x :: l) n = false ↔ ¬x.has n ∧ covers l n = false := fun n => by
      rw [← Bool.not_eq_true, ← Bool.not_eq_true, covers_iff, covers_iff, List.exists_mem_cons_iff, not_or]
    have hnew : freeSectors l (e.hull x) = freeSectors (x :: l) e + x.length := by
      rw [length_eq_count]
      refine countBetween_add (fun n => ?_) fun n _ hn hxn _ => ?_
      · simp only [Bool.not_eq_true', hcons]
        show (e.hull x).has n ∧ _ ↔ (e.has n ∧ _) ∨ (x.has n ∧ _)
        rw [DefectEntry.hull_has hx]
        by_cases hxn : x.has n
        · simp [hxn, hnot n hxn]
        · simp [hxn]
      · rw [Bool.not_eq_true', hcons] at hn
        exact hn.1 hxn
    rw [mergedEntry_cons, ih (fun z hz => DefectEntry.touches_hull (habs z hz) x) hl, hnew, List.map_cons, List.sum_cons]
    omega

end Sys2Proof.Machine
end

section
/-! SUPPORT. The insertion of a report: what it stores, counts, drops and captures (R153 to R158), and that it keeps a segment
sound. -/

namespace Sys2Proof.Machine

/-! ## The entries (R154 to R156) -/

section
variable {g : Segment} {e : DefectEntry}

theorem mem_absorbed {l : List DefectEntry} {x : DefectEntry} :
    x ∈ absorbed l e ↔ x ∈ l ∧ sameKey x e = true ∧ touches x.start x.length e.start e.length = true := by
  simp [absorbed]

theorem touches_of_mem_absorbed {l : List DefectEntry} :
    ∀ x ∈ absorbed l e, touches x.start x.length e.start e.length = true := fun x hx => by
  obtain ⟨-, -, htouch⟩ := mem_absorbed.1 hx
  exact htouch

/-- A stored entry after a merge: the merged one, or one of another key or apart from the report. -/
theorem mem_mergedEntries {l : List DefectEntry} {x : DefectEntry} : x ∈ mergedEntries l e ↔
    x = mergedEntry e (absorbed l e) ∨
      x ∈ l ∧ (sameKey x e = true → touches x.start x.length e.start e.length = false) := by
  simp [mergedEntries, mem_placeEntry, imp_iff_not_or]

theorem isFullFor_iff : g.isFullFor e = true ↔ g.limit ≤ g.entries.length ∧
    ∀ x ∈ g.entries, sameKey x e = true → touches x.start x.length e.start e.length = false := by
  simp [Segment.isFullFor, absorbed, List.filter_eq_nil_iff, and_comm]

theorem absorbed_of_full (h : g.isFullFor e = true) : absorbed g.entries e = [] := by
  simp only [Segment.isFullFor, Bool.and_eq_true, List.isEmpty_iff] at h
  exact h.1

theorem insert_entries_full (h : g.isFullFor e = true) : (g.insert e).entries = g.entries := if_pos h

theorem insert_entries_room (h : g.isFullFor e = false) : (g.insert e).entries = mergedEntries g.entries e :=
  if_neg (by simp [h])

/-- What stays beside the merged entry lies apart from it where it is of its key. -/
theorem rest_apart_merged (hg : SegmentOrdered g) {x : DefectEntry} (hx : x ∈ g.entries) (hkey : sameKey x e = true)
    (hout : touches x.start x.length e.start e.length = false) :
    let m := mergedEntry e (absorbed g.entries e)
    touches x.start x.length m.start m.length = false := by
  refine mergedEntry_apart hout touches_of_mem_absorbed fun y hy => ?_
  obtain ⟨hy, hykey, hyin⟩ := mem_absorbed.1 hy
  have hne : x ≠ y := by
    rintro rfl
    rw [hout] at hyin
    cases hyin
  have hxy : sameKey x y = true := sameKey_trans hkey (by rw [sameKey_comm]; exact hykey)
  have hsymm : Std.Symm fun a b : DefectEntry =>
      sameKey a b = true → touches a.start a.length b.start b.length = false := ⟨fun _ _ => apart_comm⟩
  obtain ⟨-, hapart⟩ := hg
  exact hapart.forall hx hy hne hxy

/-- The entries stay in order, and those of one key apart (R156). -/
theorem mergedEntries_ordered (hg : SegmentOrdered g) :
    (mergedEntries g.entries e).Pairwise (fun a b => entryBefore a b = true) ∧
      (mergedEntries g.entries e).Pairwise fun a b =>
        sameKey a b = true → touches a.start a.length b.start b.length = false := by
  have ⟨hord, hapart⟩ := hg
  let m := mergedEntry e (absorbed g.entries e)
  let rest := g.entries.filter fun x => !(sameKey x e && touches x.start x.length e.start e.length)
  have happart : ∀ x ∈ rest, sameKey x m = true → touches x.start x.length m.start m.length = false := fun x hx hkey => by
    simp only [rest, List.mem_filter, Bool.not_eq_true', Bool.and_eq_false_imp] at hx
    obtain ⟨hx, hout⟩ := hx
    exact rest_apart_merged hg hx hkey (hout hkey)
  constructor
  · refine placeEntry_ordered (hord.filter _) fun x hx => ?_
    have hcmp : sameKey x m = true → x.start ≠ m.start := fun hkey heq => by
      have hxm := touches_eq_false_iff.1 (happart x hx hkey)
      simp only [DefectEntry.stop] at hxm
      omega
    exact (entryBefore_or hcmp).symm
  · refine ((placeEntry_perm m rest).pairwise_iff apart_comm).2 (List.pairwise_cons.2 ⟨fun x hx => ?_, hapart.filter _⟩)
    exact apart_comm (happart x hx)

theorem insert_ordered (hg : SegmentOrdered g) : SegmentOrdered (g.insert e) := by
  unfold SegmentOrdered
  cases h : g.isFullFor e with
  | true => rw [insert_entries_full h]; exact hg
  | false => rw [insert_entries_room h]; exact mergedEntries_ordered hg

theorem insert_lengths (hg : ∀ x ∈ g.entries, 1 ≤ x.length) (he : 1 ≤ e.length) :
    ∀ x ∈ (g.insert e).entries, 1 ≤ x.length := by
  cases h : g.isFullFor e with
  | true => rw [insert_entries_full h]; exact hg
  | false =>
    rw [insert_entries_room h]
    intro x hx
    rcases mem_mergedEntries.1 hx with rfl | ⟨hx, -⟩
    · exact mergedEntry_length_pos he
    · exact hg x hx

/-- The entries of the report's key cover what they covered and the report (R154). -/
theorem mergedEntries_has (n : Nat) : (∃ x ∈ mergedEntries g.entries e, sameKey x e = true ∧ x.has n) ↔
    (∃ x ∈ g.entries, sameKey x e = true ∧ x.has n) ∨ e.has n := by
  have hmerged := mergedEntry_has (e := e) (l := absorbed g.entries e) touches_of_mem_absorbed n
  constructor
  · rintro ⟨x, hx, hkey, hn⟩
    rcases mem_mergedEntries.1 hx with rfl | ⟨hx, -⟩
    · rcases hmerged.1 hn with hn | ⟨y, hy, hn⟩
      · exact .inr hn
      · obtain ⟨hy, hkey, -⟩ := mem_absorbed.1 hy
        exact .inl ⟨y, hy, hkey, hn⟩
    · exact .inl ⟨x, hx, hkey, hn⟩
  · have hself := mergedEntry_sameKey e (absorbed g.entries e)
    rintro (⟨x, hx, hkey, hn⟩ | hn)
    · cases ht : touches x.start x.length e.start e.length with
      | true =>
        have habs : x ∈ absorbed g.entries e := mem_absorbed.2 ⟨hx, hkey, ht⟩
        exact ⟨_, mem_mergedEntries.2 (.inl rfl), hself, hmerged.2 (.inr ⟨x, habs, hn⟩)⟩
      | false => exact ⟨x, mem_mergedEntries.2 (.inr ⟨hx, fun _ => ht⟩), hkey, hn⟩
    · exact ⟨_, mem_mergedEntries.2 (.inl rfl), hself, hmerged.2 (.inl hn)⟩

/-- The entries of other keys stand as they were (R154). -/
theorem mem_mergedEntries_otherKey {x : DefectEntry} (hkey : sameKey x e = false) :
    x ∈ mergedEntries g.entries e ↔ x ∈ g.entries := by
  rw [mem_mergedEntries]
  constructor
  · rintro (rfl | ⟨hx, -⟩)
    · rw [mergedEntry_sameKey] at hkey
      cases hkey
    · exact hx
  · exact fun hx => .inr ⟨hx, fun h => by rw [hkey] at h; cases h⟩

/-! ## The counters (R153, R157) -/

/-- A sector of the report that an entry of its key covers is covered by one that touches it. -/
theorem freeSectors_absorbed (l : List DefectEntry) :
    freeSectors (absorbed l e) e = freeSectors (l.filter fun x => sameKey x e) e := by
  refine freeSectors_congr fun n hn => ?_
  simp only [covers_iff, mem_absorbed, List.mem_filter]
  constructor
  · rintro ⟨x, ⟨hx, hkey⟩, hxn⟩
    refine ⟨x, ⟨hx, hkey, touches_iff.2 ?_⟩, hxn⟩
    simp only [DefectEntry.has, DefectEntry.stop] at *
    omega
  · rintro ⟨x, ⟨hx, hkey, -⟩, hxn⟩
    exact ⟨x, ⟨hx, hkey⟩, hxn⟩

/-- A stored report counts the sectors that no entry of its key covers (R154). -/
theorem coveredDelta_eq (hg : SegmentOrdered g) :
    coveredDelta g.entries e = sectorsOutside g.entries (fun x => sameKey x e) e := by
  obtain ⟨-, hpairs⟩ := hg
  have hapart : (absorbed g.entries e).Pairwise fun a b => touches a.start a.length b.start b.length = false := by
    refine (hpairs.filter _).imp_of_mem fun {a b} ha hb h => h ?_
    obtain ⟨-, ha, -⟩ := mem_absorbed.1 ha
    obtain ⟨-, hb, -⟩ := mem_absorbed.1 hb
    exact sameKey_trans ha (by rwa [sameKey_comm])
  rw [sectorsOutside_eq, ← freeSectors_absorbed, coveredDelta,
    mergedEntry_length touches_of_mem_absorbed hapart, Nat.add_sub_cancel]

/-- A dropped report counts all its sectors, none of which an entry of its key covers (R155, R157). -/
theorem delta_full (h : g.isFullFor e = true) :
    e.length = sectorsOutside g.entries (fun x => sameKey x e) e := by
  rw [sectorsOutside_eq, ← freeSectors_absorbed, absorbed_of_full h, freeSectors_nil]

/-- A FINAL report counts as grown the sectors that no BASELINE or FINAL entry of its head covers (R153). -/
theorem grownDelta_eq (l : List DefectEntry) : grownDelta l e = if e.origin = .final then
    sectorsOutside l (fun x => decide (x.head = e.head) && decide (x.origin ≠ .other)) e else 0 := by
  rw [grownDelta, uncoveredCount_eq, sectorsOutside_eq]

/-- Nothing grows that is not counted (R157). -/
theorem grownDelta_le (l : List DefectEntry) : grownDelta l e ≤ sectorsOutside l (fun x => sameKey x e) e := by
  rw [grownDelta_eq]
  split
  · next hfinal =>
    rw [sectorsOutside_eq, sectorsOutside_eq]
    refine freeSectors_le fun n _ hn => ?_
    obtain ⟨x, hx, hxn⟩ := covers_iff.1 hn
    obtain ⟨hx, hkey⟩ := List.mem_filter.1 hx
    obtain ⟨hhead, -, horigin⟩ := sameKey_iff.1 hkey
    exact covers_iff.2 ⟨x, List.mem_filter.2 ⟨hx, by simp [hhead, horigin, hfinal]⟩, hxn⟩
  · exact Nat.zero_le _

/-- The counters after a report: those of its head have counted it, the others stand. -/
theorem insert_heads (hg : SegmentOrdered g) (h : Fin 16) : (g.insert e).heads[h] =
    if h.val = e.head then
      countHead (sectorsOutside g.entries (fun x => sameKey x e) e) (grownDelta g.entries e) g.heads[h]
    else g.heads[h] := by
  have hdelta : (if g.isFullFor e = true then e.length else coveredDelta g.entries e) =
      sectorsOutside g.entries (fun x => sameKey x e) e := by
    split
    · next hfull => exact delta_full hfull
    · exact coveredDelta_eq hg
  simp only [Segment.insert, hdelta, Fin.getElem_fin, Vector.getElem_setIfInBounds]
  by_cases hh : h.val = e.head
  · simp [← hh]
  · simp [hh, Ne.symm hh]

theorem insert_grown (hg : SegmentOrdered g) (h : GrownWithinSectors g) : GrownWithinSectors (g.insert e) := by
  intro n
  have hn := h n
  have hle := grownDelta_le (e := e) g.entries
  rw [insert_heads hg]
  split
  · simp only [countHead, satAdd]
    omega
  · exact hn
end

end Sys2Proof.Machine
end

section
/-! SUPPORT. The Power Manager leaves a slot's segment and reservation alone (chapter 02): a property that speaks of nothing
else of slots, and of no wait queue, is kept by all it does. -/

namespace Sys2Proof.Machine

@[simp] theorem SlotRec.movedTo_seg (r : SlotRec) (o : Occupancy) : (r.movedTo o).seg = r.seg := by rw [movedTo_frame]

/-- A property that does not speak of what the Power Manager writes: it is kept where a slot keeps its segment and its
reservation, where a wait queue is replaced, and where a slot's flag is set. -/
structure Unpowered (P : State → Prop) : Prop where
  modSlot : ∀ {s : State} (i : Slot) (f : SlotRec → SlotRec),
    (∀ r, (f r).seg = r.seg ∧ (f r).reservation = r.reservation) → P s → P (s.modSlot i f)
  setQueue : ∀ {s : State} (k : Shelf) (q : List QueueEntry), P s → P (setQueue k q s)
  raiseSlot : ∀ {s : State} (i : Slot) (f : SlotFlag), P s → P (raiseSlot i f s)

namespace Unpowered

variable {P : State → Prop} (hP : Unpowered P) {s : State}
include hP

theorem setOcc (i : Slot) (o : Occupancy) (h : P s) : P (setOcc i o s) := by
  have hmoved : P (s.modSlot i (·.movedTo o)) :=
    hP.modSlot i _ (fun r => ⟨r.movedTo_seg o, r.movedTo_reservation o⟩) h
  rw [setOcc_eq]
  exact ite_keeps (hP.raiseSlot _ _ hmoved) hmoved

/-! ## Grants, requests and withdrawals (R31 to R41) -/

theorem grant (e : QueueEntry) (h : P s) : P (grant e s) := by
  obtain ⟨f, hf, ⟨rank, boot, -, hrec⟩ | ⟨rank, window, -, hrec⟩⟩ := grant_eq e s
  · rw [hf]
    exact hP.modSlot _ f (fun r => by rw [hrec]; exact ⟨r.poweredOn_seg .., r.poweredOn_reservation ..⟩) h
  · rw [hf]
    exact hP.modSlot _ f (fun r => by rw [hrec]; exact ⟨rfl, rfl⟩) h

theorem examineTimes (n : Nat) (k : Shelf) (h : P s) : P (examineTimes n k s) := by
  induction n generalizing s with
  | zero => exact h
  | succ n ih =>
    unfold Machine.examineTimes
    split
    · exact ite_keeps (ih (hP.grant _ (hP.setQueue _ _ h))) h
    · exact h

theorem examine (k : Shelf) (h : P s) : P (examine k s) := hP.examineTimes _ k h

theorem cyclePowered (i : Slot) (h : P s) : P (cyclePowered i s) := by
  unfold Machine.cyclePowered State.modRun
  exact hP.modSlot _ _ (fun _ => ⟨rfl, rfl⟩) h

theorem requestPower (i : Slot) (by_ : Requester) (h : P s) : P (requestPower i by_ s) := by
  have hqueued (q : List QueueEntry) : P ((Machine.setQueue (shelfOf i) q s).modSlot i fun r => { r with adm := .queued }) :=
    hP.modSlot _ _ (fun _ => ⟨rfl, rfl⟩) (hP.setQueue _ _ h)
  unfold Machine.requestPower
  refine ite_keeps (ite_keeps (hP.cyclePowered i h) h) (ite_keeps h (ite_keeps h ?_))
  exact hP.examine _ (ite_keeps (hqueued _) (hP.setOcc _ _ (hqueued _)))

theorem requestSpin (i : Slot) (h : P s) : P (requestSpin i s).1 := by
  unfold Machine.requestSpin
  split
  · exact h
  · exact hP.examine _ (hP.setQueue _ _ h)
  · dsimp only
    exact hP.modSlot _ _ (fun _ => ⟨rfl, rfl⟩) h
  · exact h

theorem withdrawEntry (i : Slot) (kind : EntryKind) (h : P s) : P (withdrawEntry i kind s) := by
  have hqueue := hP.setQueue (shelfOf i) (withoutSlot i (s.shelf (shelfOf i)).queue) h
  exact ite_keeps (hP.examine _ (ite_keeps (hP.modSlot _ _ (fun _ => ⟨rfl, rfl⟩) hqueue) hqueue)) h

theorem toIdle (i : Slot) (h : P s) : P (toIdle i s) := hP.modSlot _ _ (fun _ => ⟨rfl, rfl⟩) h

theorem spinDown (i : Slot) (h : P s) : P (spinDown i s) := by
  unfold Machine.spinDown
  refine hP.withdrawEntry i .spin ?_
  split
  · exact hP.examine _ (hP.toIdle i h)
  · exact hP.examine _ (hP.toIdle i h)
  · exact h

theorem cutPower (i : Slot) (h : P s) : P (cutPower i s) :=
  hP.setQueue _ _ (hP.modSlot _ _ (fun _ => ⟨rfl, rfl⟩) h)

theorem motorReport (i : Slot) (motor : Motor) (h : P s) : P (motorReport i motor s).1 := by
  refine ite_fst_keeps ?_ h
  dsimp only
  exact hP.modSlot _ _ (fun _ => ⟨rfl, rfl⟩) h

theorem windowExpired (i : Slot) (h : P s) : P (windowExpired i s).1 := ite_fst_keeps (hP.toIdle i h) h

/-! ## Shedding and the disable of a shelf (R42 to R45) -/

theorem shedMotors (n : Nat) (k : Shelf) (c : PowerClass) {x : State × List Owed} (h : P x.1) :
    P (shedMotors n k c x).1 := by
  induction n generalizing x with
  | zero => exact h
  | succ n ih =>
    unfold Machine.shedMotors
    split
    · exact h
    · split
      · exact h
      · exact ih (hP.toIdle _ h)

theorem shedPower (n : Nat) (k : Shelf) {x : State × List Owed} (h : P x.1) : P (shedPower n k x).1 := by
  induction n generalizing x with
  | zero => exact h
  | succ n ih =>
    unfold Machine.shedPower
    split
    · exact h
    · split
      · exact h
      · exact ih (hP.cutPower _ h)

theorem shedStages (k : Shelf) (h : P s) : P (shedStages k s).1 := by
  have hinrush : P (if (s.shelf k).idleDraw < (s.shelf k).inrushDraw then Machine.shedMotors 8 k .inrush (s, [])
      else (s, [])).1 := ite_fst_keeps (hP.shedMotors 8 k .inrush h) h
  exact hP.shedPower 8 k (ite_fst_keeps (hP.shedMotors 8 k .run hinrush) hinrush)

theorem owePower (o : Owed) (h : P s) : P (owePower o s) := by
  have hqueued : P (s.modSlot o.slot fun r => { r with adm := .queued }) := hP.modSlot _ _ (fun _ => ⟨rfl, rfl⟩) h
  exact ite_keeps (ite_keeps hqueued (hP.setOcc _ _ hqueued)) h

theorem shed (k : Shelf) (h : P s) : P (shed k s).1 := by
  have hstages := hP.shedStages k h
  unfold Machine.shed
  generalize Machine.shedStages k s = x at hstages ⊢
  exact ite_fst_keeps (foldl_keeps (fun _ o h => hP.owePower o h) _ (hP.setQueue _ _ hstages)) h

theorem limitChanged (k : Shelf) (h : P s) : P (limitChanged k s).1 := ite_fst_keeps (hP.shed k h) (hP.examine k h)

theorem disableShelf (k : Shelf) (h : P s) : P (disableShelf k s).1 := by
  refine hP.setQueue k [] (foldl_keeps (fun _ _ h => ?_) _ (foldl_keeps (fun _ i h => hP.cutPower i h) _ h))
  exact ite_keeps (hP.modSlot _ _ (fun _ => ⟨rfl, rfl⟩) h) h

end Unpowered

/-! ## The requests and lines that the Power Manager follows (R26, R28) -/

section
variable {P : State → Prop} (hP : Unpowered P)
  (hshelf : ∀ {s : State} (k : Shelf) (f : ShelfRec → ShelfRec), P s → P (s.modShelf k f)) {s : State}
include hP hshelf

theorem handleShelfSet_unpowered (p : List Byte) (h : P s) : (handleShelfSet p s).Keeps P := by
  refine withLength_stays (withShelf_stays fun k => ?_)
  have hr : P (replaceShelf k p s) := hshelf k _ h
  split
  · dsimp only
    split
    · exact hP.disableShelf k hr
    · split
      · exact hr
      · exact hP.shed k hr
  · trivial

theorem supplySettles_unpowered (hraise : ∀ (t : State) (k : Shelf) (f : ShelfFlag), P t → P (raiseShelf k f t)) (k : Shelf)
    (line : SupplyLine) (h : P s) : P (supplySettles k line s).1 := by
  have hflags := supplyFlags_keeps (k := k) (fun t f => hraise t k f) (s.shelf k) (supplyLevel line (s.shelf k))
    (hshelf k (supplyLevel line) h)
  rw [supplySettles_eq]
  exact ite_fst_keeps hflags (hP.limitChanged k hflags)
end

end Sys2Proof.Machine
end

section
/-! SUPPORT. Every step keeps the segments sound (R146, R156, R157): only an insertion, an emptying and SEGMENT_SET change what
a segment holds. -/

namespace Sys2Proof.Machine

/-! ## Changes that leave the segments sound -/

/-- The segment keeps its place in the pool, and its entries and counters stay sound. -/
structure SegmentKept (a b : Segment) : Prop where
  base : b.base = a.base
  limit : b.limit = a.limit
  ordered : SegmentOrdered a → SegmentOrdered b
  lengths : (∀ x ∈ a.entries, 1 ≤ x.length) → ∀ x ∈ b.entries, 1 ≤ x.length
  grown : SegmentOrdered a → GrownWithinSectors a → GrownWithinSectors b

theorem SegmentKept.of_eq {a b : Segment} (hbase : b.base = a.base) (hlimit : b.limit = a.limit)
    (hentries : b.entries = a.entries) (hheads : b.heads = a.heads) : SegmentKept a b where
  base := hbase
  limit := hlimit
  ordered h := by rwa [SegmentOrdered, hentries]
  lengths h := by rwa [hentries]
  grown _ h := by rwa [GrownWithinSectors, hheads]

theorem SegmentKept.insert (g : Segment) {e : DefectEntry} (he : 1 ≤ e.length) : SegmentKept g (g.insert e) :=
  ⟨rfl, rfl, insert_ordered, fun h => insert_lengths h he, insert_grown⟩

theorem SegmentKept.empty (g : Segment) : SegmentKept g (Segment.empty g.base g.limit) :=
  ⟨rfl, rfl, fun _ => ⟨.nil, .nil⟩, fun _ => nofun, fun _ _ h => by simp [Segment.empty, HeadCount.zero]⟩

theorem SegmentsSound.of_kept {s t : State} (h : SegmentsSound s)
    (hkept : ∀ i, SegmentKept (s.slot i).seg (t.slot i).seg) : SegmentsSound t := by
  obtain ⟨hslots, happart⟩ := h
  refine ⟨fun i => ?_, fun i j hij place => ?_⟩
  · obtain ⟨hord, hlen, hgrown, hpool⟩ := hslots i
    have hk := hkept i
    exact ⟨hk.ordered hord, hk.lengths hlen, hk.grown hord hgrown, by rwa [hk.base, hk.limit]⟩
  · simp only [Segment.has, (hkept _).base, (hkept _).limit]
    exact happart i j hij place

theorem SegmentsSound.of_segs {s t : State} (h : SegmentsSound s) (hseg : ∀ i, (t.slot i).seg = (s.slot i).seg) :
    SegmentsSound t :=
  h.of_kept fun i => by rw [hseg]; exact .of_eq rfl rfl rfl rfl

theorem SegmentsSound.modSlot {s : State} (h : SegmentsSound s) (i : Slot) {f : SlotRec → SlotRec}
    (hf : SegmentKept (s.slot i).seg (f (s.slot i)).seg) : SegmentsSound (s.modSlot i f) := by
  refine h.of_kept fun j => ?_
  rw [State.modSlot_slot_if]
  split
  · next hj => rw [hj]; exact hf
  · exact .of_eq rfl rfl rfl rfl

/-- A change of a slot's record that leaves its segment alone. -/
theorem SegmentsSound.sameSeg {s : State} (h : SegmentsSound s) (i : Slot) {f : SlotRec → SlotRec}
    (hf : (f (s.slot i)).seg = (s.slot i).seg) : SegmentsSound (s.modSlot i f) :=
  h.modSlot i (by rw [hf]; exact .of_eq rfl rfl rfl rfl)

theorem SegmentsSound.same {s t : State} (h : SegmentsSound s) (hs : t.slots = s.slots) : SegmentsSound t :=
  h.of_segs fun i => by simp [State.slot, hs]

theorem SegmentsSound.raise {s : State} (h : SegmentsSound s) (c : Scope) (bit : Nat) : SegmentsSound (setFlagBit c bit s) :=
  h.same (setFlagBit_slots c bit s)

/-! ## SEGMENT_SET (R147) -/

/-- Whether segments share a place (R146). -/
theorem segmentsOverlap_iff {base limit base' limit' : Nat} : segmentsOverlap base limit base' limit' = true ↔
    ∃ place, (base ≤ place ∧ place < base + limit) ∧ (base' ≤ place ∧ place < base' + limit') := by
  simp only [segmentsOverlap, decide_eq_true_eq]
  exact ⟨fun h => ⟨max base base', by omega⟩, fun ⟨place, h⟩ => by omega⟩

theorem mem_allSlots (i : Slot) : i ∈ allSlots := by revert i; decide

/-- A segment clashes with no other slot's if it shares no place with any (R147). -/
theorem segmentClash_eq_false_iff {s : State} {i : Slot} {base limit : Nat} : segmentClash s i base limit = false ↔
    ∀ (j : Slot) (x : Nat), j ≠ i → ¬((base ≤ x ∧ x < base + limit) ∧
      ((s.slot j).seg.base ≤ x ∧ x < (s.slot j).seg.base + (s.slot j).seg.limit)) := by
  simp only [segmentClash, List.any_eq_false, mem_allSlots, forall_const, Bool.and_eq_true, decide_eq_true_eq,
    segmentsOverlap_iff, not_and, not_exists]
  exact ⟨fun h j x hj => h j hj x, fun h j hj x => h j x hj⟩

/-- The segment that SEGMENT_SET gives a slot lies in the pool and apart from the others'. -/
theorem SegmentsSound.replaced {s : State} (h : SegmentsSound s) {i : Slot} {base limit : Nat} (hpool : base + limit ≤ 6144)
    (hclash : segmentClash s i base limit = false) :
    SegmentsSound (s.modSlot i fun r => { r with seg := { r.seg with base := base, limit := limit } }) := by
  obtain ⟨hslots, happart⟩ := h
  have hfree := segmentClash_eq_false_iff.1 hclash
  refine ⟨fun j => ?_, fun j l hjl place => ?_⟩
  · rw [State.modSlot_slot_if]
    split
    · obtain ⟨hord, hlen, hgrown, -⟩ := hslots i
      exact ⟨hord, hlen, hgrown, hpool⟩
    · exact hslots j
  · rw [State.modSlot_slot_if, State.modSlot_slot_if]
    split
    · next hj =>
      rw [if_neg (fun hl => hjl (hj.trans hl.symm))]
      exact hfree l place fun hl => hjl (hj.trans hl.symm)
    · next hj =>
      split
      · exact fun ⟨hother, hown⟩ => hfree j place hj ⟨hown, hother⟩
      · exact happart j l hjl place

theorem handleSegmentSet_segmentsSound {s : State} (p : List Byte) (h : SegmentsSound s) :
    (handleSegmentSet p s).Keeps SegmentsSound := by
  refine withLength_stays (withSlot_stays fun i => ?_)
  dsimp only
  split
  · trivial
  · next hfits =>
    split
    · trivial
    · simp only [not_or, Nat.not_lt, Bool.not_eq_true] at hfits
      obtain ⟨-, -, hpool, hclash⟩ := hfits
      exact h.replaced hpool hclash

/-! ## The operations of the blocks, and every step -/

theorem segmentsSound_unpowered : Unpowered SegmentsSound where
  modSlot i _ hf h := h.sameSeg i (hf _).1
  setQueue _ _ h := h.same rfl
  raiseSlot _ _ h := h.raise _ _

theorem segmentsSound_loose : Loose SegmentsSound where
  modSlot i f hf h := by
    obtain ⟨⟨-, -, -, hbase, hlimit, hentries, hheads⟩, -⟩ := hf (State.slot _ i)
    exact h.modSlot i (.of_eq hbase hlimit hentries hheads)
  anySlot i f hf h := by
    obtain ⟨-, -, -, hbase, hlimit, hentries, hheads⟩ := hf (State.slot _ i)
    exact h.modSlot i (.of_eq hbase hlimit hentries hheads)
  modShelf _ _ _ h := h.same rfl
  anyShelf _ _ _ h := h.same rfl
  holds _ _ h := h.same rfl
  raiseSlot _ _ h := h.raise _ _
  raiseShelf _ _ h := h.raise _ _
  raiseController _ h := h.raise _ _
  examine k h := segmentsSound_unpowered.examine k h
  requestPower i by_ h := segmentsSound_unpowered.requestPower i by_ h
  requestSpin i h := segmentsSound_unpowered.requestSpin i h
  withdrawEntry i kind h := segmentsSound_unpowered.withdrawEntry i kind h
  spinDown i h := segmentsSound_unpowered.spinDown i h
  cutPower i h := segmentsSound_unpowered.cutPower i h
  motorReport i motor h := segmentsSound_unpowered.motorReport i motor h
  windowExpired i h := segmentsSound_unpowered.windowExpired i h
  unlockLatch i h := ite_keeps (h.sameSeg i rfl) h
  lockLatch i h := h.sameSeg i rfl
  insert i e he h := h.modSlot i (.insert _ he)
  emptySegment i h := h.modSlot i (.empty _)
  reserve i b _ h := by
    have hr := (h.same (t := State.modBin _ b fun bin => { bin with reserved := bin.reserved + 1 }) rfl).sameSeg i
      (f := fun r => { r with reservation := some b }) rfl
    exact ite_keeps h (ite_keeps (hr.raise _ _) hr)
  releaseReservation i h := by
    unfold releaseReservation
    split
    · exact h
    · exact (h.same (t := State.modBin _ _ _) rfl).sameSeg i rfl
  convertReservation i h := by
    unfold convertReservation
    split
    · exact h
    · exact (h.same (t := State.modBin _ _ _) rfl).sameSeg i rfl

/-- So do the commands. -/
theorem segmentsSound_held : Held SegmentsSound where
  toKept := segmentsSound_loose.kept
  same hs _ _ h := h.same hs
  shelfSet p h := handleShelfSet_unpowered segmentsSound_unpowered (fun _ _ h => h.same rfl) p h
  segmentSet p h := handleSegmentSet_segmentsSound p h
  binSet p h := by
    refine withLength_stays (withBin_stays fun b => ?_)
    have hb := h.same (t := State.modBin _ b fun bin => { bin with capacity := field8 p 1 }) rfl
    dsimp only
    split
    · trivial
    · split
      · exact hb
      · split
        · exact ite_keeps (hb.raise _ _) hb
        · exact hb
  toteSwap _ h := withLength_stays (withBin_stays fun _ => h.same rfl)
  supplySettles k line h :=
    supplySettles_unpowered segmentsSound_unpowered (fun _ _ h => h.same rfl) (fun _ _ _ h => h.raise _ _) k line h
  joinSet i h := joinSet_keeps segmentsSound_loose i h
  keyLoaded k h := keyLoaded_keeps segmentsSound_loose k h
  nextRound k h := nextRound_keeps segmentsSound_loose k h
  activityEdge i level h := activityEdge_keeps segmentsSound_loose i level h
  closeWindow k n ident _ pulsing left _ h := closeWindow_keeps segmentsSound_loose k n ident pulsing left h
  reset _ := segmentsSound_reset.of_segs fun i => by rw [resetOf_slot, reset_slot]; rfl
  tick h := h.of_segs fun i => by simp [tick, State.slot]

/-- Settles O57: the segments are sound in the `Held` sense, so that every command and every duty of the part keeps them. -/
theorem stepsKeepSegmentsSound : Obligations.StepsKeepSegmentsSound :=
  fun _ _ h ht => step_stays segmentsSound_held h ht

end Sys2Proof.Machine
end

section
/-! SUPPORT. The loads of the rule table, of the ship item list and of the segment table: what each refuses, and what it
replaces (R147, R181, R182, R190, R206, R208). -/

namespace Sys2Proof.Machine

section
variable {kind tag : Byte} {p : List Byte} {s : State}

/-- A request that leads to no tell is answered OK from the state it leaves. -/
theorem serve_done (h : NextServed kind tag p s) {f : State → Handled} {t : State}
    (hf : f (serving kind tag p s) = .ok t []) : serve kind tag p f s = .next (answered kind tag .ok .none t) := by
  rw [serve_next h]
  exact answerRequest_done hf

/-! ## Rules (R181, R182) -/

theorem handleRuleLoad_eq {complete : Bool} {b : BinIx} (hp : p.length = 33) (hplace : field8 p 0 ≤ 15)
    (hcomplete : yesNoOf (field8 p 31) = some complete) (hb : field8 p 32 = b.val) :
    handleRuleLoad p s = .ok { s with
      rules := s.rules.setIfInBounds (field8 p 0)
        { maxWorst := field32 p 1, maxTotal := field32 p 5, maxGrown := field32 p 9, maxReports := field32 p 13,
          maxFailed := field32 p 17, maxTrips := field32 p 21, maxOob := field32 p 25,
          allowed := BitVec.ofNat 9 (field16 p 29), requireComplete := complete, bin := b } } [] := by
  rw [handleRuleLoad, withLength_eq hp, withBin_val hb, hcomplete]
  exact if_neg (Nat.not_lt.2 hplace)

theorem handleRulesSet_eq {d w : BinIx} (hp : p.length = 3) (hcount : field8 p 0 ≤ 16) (hd : field8 p 1 = d.val)
    (hw : field8 p 2 = w.val) :
    handleRulesSet p s = .ok { s with ruleCount := field8 p 0, defaultBin := d, reworkBin := w } [] := by
  rw [handleRulesSet, withLength_eq hp, withBin_val hd, withBin_val hw, if_neg (Nat.not_lt.2 hcount)]

/-! ## The ship item list (R190) -/

theorem handleShipItemLoad_refuse (hp : p.length = 9) (hout : 31 < field8 p 0 ∨ field16 p 1 = 0) :
    handleShipItemLoad p s = .refuse .badValue := by
  rw [handleShipItemLoad, withLength_eq hp, if_pos hout]

theorem handleShipItemLoad_eq (hp : p.length = 9) (hplace : field8 p 0 ≤ 31) (hid : field16 p 1 ≠ 0) :
    handleShipItemLoad p s = if shipListInUse s then .refuse .inUse
      else .ok { s with
        shipItems := s.shipItems.setIfInBounds (field8 p 0)
          (some { id := field16 p 1, value := BitVec.ofNat 32 (field32 p 3),
                  bins := BitVec.ofNat 16 (field16 p 7) }) } [] := by
  rw [handleShipItemLoad, withLength_eq hp, if_neg (by simp [hplace, hid])]

/-- A count is within the loaded places if every place below it is loaded. -/
theorem placesLoaded_iff {n : Nat} (hn : n ≤ 32) :
    placesLoaded s n = true ↔ ∀ m : Fin 32, m.val < n → s.shipItems[m] ≠ none := by
  simp only [placesLoaded, List.all_eq_true, List.mem_range]
  constructor
  · intro h m hm hnone
    have hloaded := h m.val hm
    rw [Vector.getElem?_eq_getElem m.isLt] at hloaded
    rw [Fin.getElem_fin] at hnone
    simp [hnone] at hloaded
  · intro h m hm
    have hm32 : m < 32 := Nat.lt_of_lt_of_le hm hn
    have hloaded := h ⟨m, hm32⟩ hm
    rw [Vector.getElem?_eq_getElem hm32, Option.getD_some]
    exact Option.isSome_iff_ne_none.2 hloaded

theorem handleShipListSet_tooMany (hp : p.length = 1) (hout : 32 < field8 p 0) :
    handleShipListSet p s = .refuse .badValue := by
  rw [handleShipListSet, withLength_eq hp, if_pos hout]

theorem handleShipListSet_unloaded (hp : p.length = 1) (hcount : field8 p 0 ≤ 32)
    (hplaces : placesLoaded s (field8 p 0) = false) : handleShipListSet p s = .refuse .badState := by
  rw [handleShipListSet, withLength_eq hp, if_neg (Nat.not_lt.2 hcount), if_pos hplaces]

theorem handleShipListSet_eq (hp : p.length = 1) (hcount : field8 p 0 ≤ 32)
    (hplaces : placesLoaded s (field8 p 0) = true) :
    handleShipListSet p s = if shipListInUse s then .refuse .inUse
      else .ok { s with shipCount := field8 p 0 } [] := by
  rw [handleShipListSet, withLength_eq hp, if_neg (Nat.not_lt.2 hcount), if_neg (by simp [hplaces])]

/-- A change of the list is refused while a sequence writes or reads its items (R190). -/
theorem shipList_answered {f : State → Handled} {t : State} (h : NextServed kind tag p s)
    (hf : f (serving kind tag p s) = if shipListInUse (serving kind tag p s) then .refuse .inUse else .ok t []) :
    (shipListInUse s = true →
      serve kind tag p f s = .next (answered kind tag .inUse .none (serving kind tag p s))) ∧
    (shipListInUse s = false → serve kind tag p f s = .next (answered kind tag .ok .none t)) := by
  have huse : shipListInUse (serving kind tag p s) = shipListInUse s := rfl
  rw [huse] at hf
  refine ⟨fun hin => serve_refuse h ?_, fun hfree => serve_done h ?_⟩
  · rw [hf, hin]
    rfl
  · rw [hf, hfree]
    rfl

/-! ## Segments (R147) -/

variable {i : Slot} (hp : p.length = 5) (hi : field8 p 0 = i.val)
include hp hi

/-- A segment beyond the pool or over another slot's. -/
theorem handleSegmentSet_misplaced
    (hout : ¬(field16 p 1 + field16 p 3 ≤ 6144 ∧ segmentClash s i (field16 p 1) (field16 p 3) = false)) :
    handleSegmentSet p s = .refuse .badValue := by
  rw [handleSegmentSet, withLength_eq hp, withSlot_val hi]
  refine if_pos ?_
  by_contra hin
  simp only [not_or, Nat.not_lt, Bool.not_eq_true] at hin
  obtain ⟨-, -, hpool, hclash⟩ := hin
  exact hout ⟨hpool, hclash⟩

/-- A segment that fits is given to a slot without run and result part. -/
theorem handleSegmentSet_eq (hpool : field16 p 1 + field16 p 3 ≤ 6144)
    (hclash : segmentClash s i (field16 p 1) (field16 p 3) = false) :
    handleSegmentSet p s = if (s.slot i).run.isSome ∨ (s.slot i).result.isSome then .refuse .badState
      else .ok (s.modSlot i fun r => { r with seg := { r.seg with base := field16 p 1, limit := field16 p 3 } }) [] := by
  rw [handleSegmentSet, withLength_eq hp, withSlot_val hi]
  refine if_neg ?_
  rw [hclash]
  simp only [Bool.false_eq_true, or_false]
  omega
end

/-- Settles O24: the loads of the rules and of the ship item list, and the segment table. -/
theorem rulesItemsAndSegments : Obligations.RulesItemsAndSegments := by
  unfold Obligations.RulesItemsAndSegments
  refine ⟨fun tag p s => ⟨fun complete b hp h hplace hcomplete hb => ?_, fun d w hp h hcount hd hw => ?_,
    fun hp h => ?_, fun hp h => ?_⟩, fun tag p s i hp hi h => ?_⟩
  · exact serve_done h (handleRuleLoad_eq hp hplace hcomplete hb)
  · exact serve_done h (handleRulesSet_eq hp hcount hd hw)
  · refine ⟨fun hout => serve_refuse h (handleShipItemLoad_refuse hp hout), fun hplace hid => ?_, fun hplace hid => ?_⟩
    · exact (shipList_answered h (handleShipItemLoad_eq hp hplace hid)).1
    · exact (shipList_answered h (handleShipItemLoad_eq hp hplace hid)).2
  · refine ⟨fun hout => serve_refuse h (handleShipListSet_tooMany hp hout), fun hcount ⟨m, hm, hnone⟩ => ?_,
      fun hcount hloaded => ?_⟩
    · refine serve_refuse h (handleShipListSet_unloaded hp hcount ?_)
      rw [← Bool.not_eq_true, placesLoaded_iff hcount]
      exact fun hall => hall m hm hnone
    · exact shipList_answered h (handleShipListSet_eq hp hcount ((placesLoaded_iff hcount).2 hloaded))
  · intro base limit inPool apart
    have hclash : segmentClash (serving 0x10#8 tag p s) i base limit = false ↔ apart := segmentClash_eq_false_iff
    refine ⟨fun hout => serve_refuse h (handleSegmentSet_misplaced hp hi ?_), fun hpool hapart hparts => ?_,
      fun hpool hapart hrun hres => ?_⟩
    · rwa [hclash]
    · refine serve_refuse h ((handleSegmentSet_eq hp hi hpool (hclash.2 hapart)).trans (if_pos ?_))
      exact hparts
    · refine serve_done h ((handleSegmentSet_eq hp hi hpool (hclash.2 hapart)).trans (if_neg ?_))
      simp [hrun, hres]

end Sys2Proof.Machine
end

section
/-! SUPPORT. A report that a FETCH brings under its run: its insertion with the origin of its capture phase, the full segment,
the early-stop test, and the end of the transaction (R150 to R152, R155, R159). -/

namespace Sys2Proof.Machine

/-! ## The origin and the range of a report (R149, R151) -/

/-- A report that a reply carries has at least one sector (R149). -/
theorem fetchReports_length {body : List Byte} {c n : Nat} {l : List DefectReport} (h : fetchReports body c n = some l) :
    ∀ rep ∈ l, 1 ≤ rep.length := by
  induction c generalizing n l with
  | zero =>
    cases h
    exact nofun
  | succ c ih =>
    unfold fetchReports at h
    split at h
    · next rep rest hrep hrest =>
      cases h
      refine List.forall_mem_cons.2 ⟨?_, ih hrest⟩
      unfold fetchReportAt at hrep
      split at hrep
      · split at hrep
        · cases hrep
        · next hlen =>
          cases hrep
          exact Nat.pos_of_ne_zero hlen
      · cases hrep
    · cases h

theorem replyFields_fetch_length {body : List Byte} {l : List DefectReport} {m : Nat}
    (h : replyFields .fetch body = some (.reports l m)) : ∀ rep ∈ l, 1 ≤ rep.length := by
  simp only [replyFields] at h
  split at h
  · obtain ⟨l', hl, heq⟩ := Option.map_eq_some_iff.1 h
    cases heq
    exact fetchReports_length hl
  · cases h

/-- The origin that a phase record gives the reports captured in its phase (R151). -/
theorem originOf_eq {s : State} {run : Run} {phase : Nat} {rec : PhaseRec}
    (h : (planOf s run).phases[phase]? = some (some rec)) : originOf s run phase =
      match rec.body with
      | .driveTest _ .baseline _ => .baseline
      | .driveTest _ .final _ => .final
      | _ => .other := by
  obtain ⟨body, onFail⟩ := rec
  simp only [originOf, h, Option.getD_some]
  cases body with
  | driveTest testCode tag maxWall => cases tag <;> rfl
  | _ => rfl

/-! ## The early-stop limits (R159) -/

theorem lt_foldl_max_iff {l : List HeadCount} {a n : Nat} :
    n < l.foldl (fun m c => max m c.sectors) a ↔ n < a ∨ ∃ c ∈ l, n < c.sectors := by
  induction l generalizing a with
  | nil => simp
  | cons c l ih => rw [List.foldl_cons, ih, lt_max_iff, List.exists_mem_cons_iff, or_assoc]

theorem lt_worstHead_iff {heads : Vector HeadCount 16} {n : Nat} :
    n < worstHead heads ↔ ∃ h : Fin 16, n < heads[h].sectors := by
  rw [worstHead, ← Vector.foldl_toList, lt_foldl_max_iff]
  simp only [Nat.not_lt_zero, false_or, Vector.mem_toList_iff, Vector.mem_iff_getElem]
  constructor
  · rintro ⟨c, ⟨h, hlt, rfl⟩, hn⟩
    exact ⟨⟨h, hlt⟩, hn⟩
  · rintro ⟨h, hn⟩
    exact ⟨_, ⟨h.val, h.isLt, rfl⟩, hn⟩

theorem earlyStopDue_iff {p : Plan} {heads : Vector HeadCount 16} : earlyStopDue p heads = true ↔
    (p.perHead ≠ 0 ∧ ∃ h : Fin 16, p.perHead < heads[h].sectors) ∨
      (p.total ≠ 0 ∧ p.total < totalSectors heads) := by
  simp only [earlyStopDue, exceeds, Bool.or_eq_true, Bool.and_eq_true, decide_eq_true_eq, lt_worstHead_iff]

/-! ## The insertion of a delivered report (R152 to R159) -/

/-- The record of a slot with a report stored or dropped, the run's and the early-stop marks as they follow (R155, R159). -/
def SlotRec.withReport (r : SlotRec) (plan : Plan) (e : DefectEntry) (reports : List Report) : SlotRec :=
  { r with
    seg := { r.seg.insert e with early := r.seg.early || earlyStopDue plan (r.seg.insert e).heads }
    run := if r.seg.isFullFor e then r.run.map fun run => { run with incomplete := true } else r.run
    reports := reports }

section
variable {i : Slot} {s u : State} {r : SlotRec} (h : Ending i s u r)
include h

/-- The early-stop test that follows a counted report (R159). -/
theorem Ending.earlyStops (plan : Plan) :
    let w := earlyStopTest i plan u
    (∃ reports, Ending i s w
      { r with seg := { r.seg with early := r.seg.early || earlyStopDue plan r.seg.heads }, reports := reports }) ∧
      (r.seg.early = false → earlyStopDue plan r.seg.heads = true →
        flagSet w (slotScope i) (slotFlagBit .earlyStop) = true) ∧
      ∀ c bit, flagSet u c bit = true → flagSet w c bit = true := by
  intro w
  by_cases hstop : r.seg.early = false ∧ earlyStopDue plan r.seg.heads = true
  · have hw : w = raiseSlot i .earlyStop (tellRunner i .earlyStop false
        (u.modSlot i fun r => { r with seg := { r.seg with early := true } })) := by
      simp only [w, earlyStopTest, h.slot]
      exact if_pos hstop
    have hearly := ((h.changed fun r => { r with seg := { r.seg with early := true } }).changed fun r =>
      { r with reports := r.reports ++
        [{ kind := .earlyStop, live := true, owesClear := false, ownsSummary := false }] }).raised .earlyStop
    rw [hw]
    refine ⟨⟨r.reports ++ [{ kind := .earlyStop, live := true, owesClear := false, ownsSummary := false }], ?_⟩,
      fun _ _ => flagSet_raiseSlot .., fun c bit hset => flagSet_setFlagBit_of ?_ _ _⟩
    · rw [hstop.1, hstop.2]
      exact hearly
    · exact hset
  · have hw : w = u := by
      simp only [w, earlyStopTest, h.slot]
      exact if_neg hstop
    have hsame : (r.seg.early || earlyStopDue plan r.seg.heads) = r.seg.early := by
      cases hearly : r.seg.early
      · simpa [hearly] using hstop
      · rfl
    rw [hw, hsame]
    exact ⟨⟨r.reports, h⟩, fun hearly hdue => absurd ⟨hearly, hdue⟩ hstop, fun _ _ => id⟩

variable {d : DrivePart} {run : Run} (hd : r.drive = some d) (hrun : r.run = some run)
  {phase : Nat} {rep : DefectReport}
include hd hrun

/-- A report outside the drive sets PROTOCOL and is dropped (R152). -/
theorem Ending.reportOutside (hout : d.heads ≤ rep.head ∨ d.maxLba < rep.start) :
    insertReport i phase rep u = raiseSlot i .protocol u := by
  simp only [insertReport, h.slot, hd, hrun]
  exact if_pos (hout.elim .inl fun hstart => .inr (.inl hstart))

/-- A report of the drive is inserted, cut to the drive's end (R152 to R159). -/
theorem Ending.reportInserted (hhead : rep.head < d.heads) (hstart : rep.start ≤ d.maxLba) (hlen : 1 ≤ rep.length)
    {e : DefectEntry} (he : e = { head := rep.head, cls := rep.cls, origin := originOf u run phase, phase := phase,
                                  start := rep.start, length := min rep.length (d.maxLba - rep.start + 1) }) :
    let w := insertReport i phase rep u
    (∃ reports, Ending i s w (r.withReport (planOf u run) e reports)) ∧
      (r.seg.early = false → earlyStopDue (planOf u run) (r.seg.insert e).heads = true →
        flagSet w (slotScope i) (slotFlagBit .earlyStop) = true) ∧
      (r.seg.isFullFor e = true → flagSet w (slotScope i) (slotFlagBit .segmentFull) = true) := by
  intro w
  let x := u.modSlot i fun r => { r with seg := r.seg.insert e }
  let v := if r.seg.isFullFor e = true then raiseSlot i .segmentFull (markIncomplete i x) else x
  have hw : w = earlyStopTest i (planOf u run) v := by
    have hmod : (u.modSlot i fun r' => { r' with seg := r.seg.insert e }) = x :=
      State.modSlot_congr (by rw [h.slot])
    have hplan : ∀ t : State, t.plans = u.plans → planOf t run = planOf u run := fun t ht => by simp [planOf, ht]
    have hxplans : v.plans = u.plans := by
      simp only [v]
      split
      · exact setFlagBit_plans ..
      · rfl
    simp only [w, insertReport, h.slot, hd, hrun]
    rw [if_neg (by omega), ← he, hmod]
    exact congrArg (fun p => earlyStopTest i p v) (hplan v hxplans)
  have hx : Ending i s x { r with seg := r.seg.insert e } := h.changed fun r => { r with seg := r.seg.insert e }
  have hv : Ending i s v { r with
      seg := r.seg.insert e
      run := if r.seg.isFullFor e then r.run.map fun run => { run with incomplete := true } else r.run } := by
    simp only [v]
    split
    · exact (hx.changed fun r => { r with run := r.run.map fun run => { run with incomplete := true } }).raised .segmentFull
    · exact hx
  obtain ⟨⟨reports, hend⟩, hearly, hkeeps⟩ := hv.earlyStops (planOf u run)
  rw [hw]
  refine ⟨⟨reports, hend⟩, hearly, fun hfull => hkeeps _ _ ?_⟩
  simp only [v, hfull, if_true]
  exact flagSet_raiseSlot ..
end

/-! ## The delivery of a FETCH (R100, R150) -/

/-- A reply with a report under the run: the report is inserted, and the loop goes on or is finished. -/
theorem fetchDone_delivered {i : Slot} {v : State} {a : AttnRecord} {p : FetchProgress} {phase : Nat} {rep : DefectReport}
    (hrun : (v.slot i).run.isSome = true) (ha : a.run = .current) (hphase : a.phase = some phase)
    (hfin : p.finished = false) (m : Nat) :
    let u := modAttn i (fun a => { a with fetch := some (p.counted 1 m (if m = 0 then p.empties else 0)) })
      (insertReport i phase rep v)
    fetchDone i a p [rep] m v = if m = 0 then finishLoop i u else submit i .fetch .attentionUnit u := by
  have hdeliver : (if ((v.slot i).run.isSome && decide (a.run = .current)) = true then deliver i (a.phase.getD 0) [rep] v
      else v) = insertReport i phase rep v := by
    rw [hrun, ha, hphase]
    rfl
  have hone : 0 < [rep].length := Nat.one_pos
  simp only [fetchDone, hdeliver, FetchProgress.counted, hfin, satAdd, hone, if_true]
  by_cases hm : m = 0
  · simp [hm]
  · simp [hm]

/-- The Attention Unit takes such a reply: but for the attention record the slot stands as the insertion leaves it. -/
theorem Ending.fetch_delivers {i : Slot} {s v : State} {r r' : SlotRec} {a : AttnRecord} {p : FetchProgress} {phase : Nat}
    {rep : DefectReport} (h : Ending i s v r) (hr : r.attn = some a) (hrun : r.run.isSome = true) (hp : a.fetch = some p)
    (hfin : p.finished = false) (ha : a.run = .current) (hphase : a.phase = some phase)
    (h' : Ending i s (insertReport i phase rep v) r') (hr' : r'.attn = some a) (hd : r'.drive.isSome = true)
    (hs : r'.silent = false) (m : Nat) :
    ∃ w attn cmd, carryOut 2 [.answered (slotItem i .fetch .attentionUnit) (.done (.reports [rep] m))] v = some w ∧
      FetchSubmitted i s w { r' with attn := attn } cmd ∧ w.flags = (insertReport i phase rep v).flags := by
  have hact := (h.act_reports hr hp hfin [rep] m).trans
    (fetchDone_delivered (by rw [h.slot]; exact hrun) ha hphase hfin m)
  have hcounted := h'.counts hr' p 1 m (if m = 0 then p.empties else 0)
  by_cases hm : m = 0
  · rw [if_pos hm] at hact
    obtain ⟨w, hw, hsub, hflags⟩ := hcounted.finishes rfl rfl hd hs
    exact ⟨w, _, _, carryOut_act hact hw, hsub, hflags⟩
  · rw [if_neg hm] at hact
    obtain ⟨w, hw, hsub, hflags⟩ := hcounted.submits hd hs .fetch .attentionUnit
    exact ⟨w, _, _, carryOut_mono (by decide) (carryOut_quiet (hact.trans hw)), hsub, hflags⟩

section
variable {s : State} {i : Slot} {n : NodeIx} {d : DrivePart} (h : SlotWindow s i n d .fetch .attentionUnit) (wire : Bool)
  {a : AttnRecord} {p : FetchProgress} {run : Run} {phase m : Nat} {rep : DefectReport} {body : List Byte}
  (hattn : (s.slot i).attn = some a) (hp : a.fetch = some p) (hfin : p.finished = false) (hrun : (s.slot i).run = some run)
  (ha : a.run = .current) (hphase : a.phase = some phase) (hlen : body.length = 11)
  (hf : replyFields .fetch body = some (.reports [rep] m))
include h hattn hp hfin hrun ha hphase hlen hf

/-- The reply of a FETCH with a report under its run: segment, run and flags are those that the insertion leaves. -/
theorem SlotWindow.fetch_delivers {r' : SlotRec} (h' : Ending i s (insertReport i phase rep (replied (shelfOf i) wire s)) r')
    (hr' : r'.attn = some a) (hd : r'.drive = some d) (hs : r'.silent = false) :
    ∃ t, exec (.replyFrameReceived (shelfOf i) (busReply n .fetch body) wire) s = .next t ∧ OtherSlotsSame s t i ∧
      (t.slot i).seg = r'.seg ∧ (t.slot i).run = r'.run ∧
      ∀ c bit, flagSet t c bit = flagSet (insertReport i phase rep (replied (shelfOf i) wire s)) c bit := by
  obtain ⟨w, attn, cmd, hw, hsub, hflags⟩ := (h.ending_replied wire).fetch_delivers hattn (by rw [hrun]; rfl) hp hfin ha
    hphase h' hr' (by rw [hd]; rfl) hs m
  obtain ⟨hothers, hslot, -, hflag⟩ := hsub.chosen hd 0
  refine ⟨_, h.fetch_replied wire (l := [rep]) hlen hf hw hsub hd, hothers, ?_, ?_, fun c bit => ?_⟩
  · rw [hslot]
  · rw [hslot]
  · rw [hflag, flagSet_congr hflags]

/-- A report outside the drive sets PROTOCOL and reaches no segment (R152). -/
theorem SlotWindow.fetch_reportOutside (hout : d.heads ≤ rep.head ∨ d.maxLba < rep.start) :
    ∃ t, exec (.replyFrameReceived (shelfOf i) (busReply n .fetch body) wire) s = .next t ∧ OtherSlotsSame s t i ∧
      (t.slot i).seg = (s.slot i).seg ∧ flagSet t (slotScope i) (slotFlagBit .protocol) = true := by
  have hv := h.ending_replied wire
  have hdropped := hv.reportOutside h.drive_eq hrun (phase := phase) hout
  have hend : Ending i s (insertReport i phase rep (replied (shelfOf i) wire s)) (s.slot i) := by
    rw [hdropped]
    exact hv.raised .protocol
  obtain ⟨t, ht, hothers, hseg, -, hflag⟩ :=
    h.fetch_delivers wire hattn hp hfin hrun ha hphase hlen hf hend hattn h.drive_eq h.not_silent
  refine ⟨t, ht, hothers, hseg, ?_⟩
  rw [hflag, hdropped]
  exact flagSet_raiseSlot ..

/-- A report of the drive is inserted under its run (R150 to R159). -/
theorem SlotWindow.fetch_reportInserted (hhead : rep.head < d.heads) (hstart : rep.start ≤ d.maxLba) {e : DefectEntry}
    (he : e = { head := rep.head, cls := rep.cls, origin := originOf s run phase, phase := phase, start := rep.start,
                length := min rep.length (d.maxLba - rep.start + 1) }) :
    let g := (s.slot i).seg
    let due := earlyStopDue (planOf s run) (g.insert e).heads
    ∃ t, exec (.replyFrameReceived (shelfOf i) (busReply n .fetch body) wire) s = .next t ∧ OtherSlotsSame s t i ∧
      (t.slot i).seg = { g.insert e with early := g.early || due } ∧
      (t.slot i).run = (if g.isFullFor e = true then some { run with incomplete := true } else some run) ∧
      (g.early = false → due = true → flagSet t (slotScope i) (slotFlagBit .earlyStop) = true) ∧
      (g.isFullFor e = true → flagSet t (slotScope i) (slotFlagBit .segmentFull) = true) := by
  intro g due
  have hpos : 1 ≤ rep.length := replyFields_fetch_length hf rep (List.mem_singleton_self _)
  obtain ⟨⟨reports, hend⟩, hearly, hfull⟩ :=
    (h.ending_replied wire).reportInserted h.drive_eq hrun (phase := phase) hhead hstart hpos he
  obtain ⟨t, ht, hothers, hseg, htrun, hflag⟩ :=
    h.fetch_delivers wire hattn hp hfin hrun ha hphase hlen hf hend hattn h.drive_eq h.not_silent
  refine ⟨t, ht, hothers, hseg, ?_, fun hclear hdue => ?_, fun hdrop => ?_⟩
  · rw [htrun, SlotRec.withReport, hrun]
    rfl
  · rw [hflag]
    exact hearly hclear hdue
  · rw [hflag]
    exact hfull hdrop
end

/-! ## The statement -/

/-- The insertion of a report, with the counts of sectors as the statement takes them (R153 to R158). -/
theorem insert_counts {g : Segment} {e : DefectEntry} (hg : SegmentOrdered g) (h : Fin 16) (hh : h.val = e.head) :
    (g.insert e).heads[h].reports = min 4294967295 (g.heads[h].reports + 1) ∧
      (g.insert e).heads[h].sectors =
        min 18446744073709551615 (g.heads[h].sectors + sectorsOutside g.entries (fun x => sameKey x e) e) ∧
      (g.insert e).heads[h].grown = min 18446744073709551615 (g.heads[h].grown + grownDelta g.entries e) := by
  rw [insert_heads hg, if_pos hh]
  exact ⟨rfl, rfl, rfl⟩

theorem insert_stored {g : Segment} {e : DefectEntry} (h : g.isFullFor e = false) :
    (∀ sector, (∃ x ∈ (g.insert e).entries, sameKey x e = true ∧ x.has sector) ↔
      (∃ x ∈ g.entries, sameKey x e = true ∧ x.has sector) ∨ e.has sector) ∧
      (∀ x, sameKey x e = false → (x ∈ (g.insert e).entries ↔ x ∈ g.entries)) ∧
      (g.insert e).overflow = g.overflow ∧ (g.insert e).fullDrops = g.fullDrops := by
  rw [insert_entries_room h]
  exact ⟨mergedEntries_has, fun _ => mem_mergedEntries_otherKey, by simp [Segment.insert, h], by simp [Segment.insert, h]⟩

theorem insert_dropped {g : Segment} {e : DefectEntry} (h : g.isFullFor e = true) :
    (g.insert e).entries = g.entries ∧ (g.insert e).revision = g.revision ∧ (g.insert e).overflow = true ∧
      (g.insert e).fullDrops = min 65535 (g.fullDrops + 1) := by
  simp [Segment.insert, h, satAdd]

theorem insert_firstGrown (g : Segment) (e : DefectEntry) : (g.insert e).firstGrown =
    if g.firstGrown = none ∧ 0 < grownDelta g.entries e then
      some { head := e.head, start := e.start, length := e.length, phase := e.phase } else g.firstGrown := by
  simp only [Segment.insert, Bool.and_eq_true, Option.isNone_iff_eq_none, decide_eq_true_eq]

/-- Settles O56: the insertion by its entries, counters and capture, and the delivery by the report's place in the drive. -/
theorem reportsAreMergedAndDelivered : Obligations.ReportsAreMergedAndDelivered := by
  unfold Obligations.ReportsAreMergedAndDelivered
  refine ⟨fun g e hg hlen he => ?_,
    fun i s n d a p wire run phase rec body rep m h hattn hp hfin hrun ha hphase hrec hlen hf => ?_⟩
  · intro g' full fresh grown
    have hfull : g.isFullFor e = true ↔ full := isFullFor_iff
    have hgrown : grownDelta g.entries e = grown := grownDelta_eq _
    refine ⟨insert_ordered hg, insert_lengths hlen he, insert_grown hg, ⟨rfl, rfl, rfl⟩, fun hroom => ?_, fun hdrop => ?_,
      fun n hn => ?_, fun n hn => ?_, rfl, ?_⟩
    · exact insert_stored (by rw [← Bool.not_eq_true, hfull]; exact hroom)
    · exact insert_dropped (hfull.2 hdrop)
    · rw [← hgrown]
      exact insert_counts hg n hn
    · exact (insert_heads hg n).trans (if_neg hn)
    · rw [← hgrown]
      exact insert_firstGrown g e
  · intro origin e g due
    have hdue : earlyStopDue (planOf s run) (g.insert e).heads = true ↔ due := earlyStopDue_iff
    have horigin : originOf s run phase = origin := originOf_eq hrec
    by_cases hin : rep.head < d.heads ∧ rep.start ≤ d.maxLba
    · obtain ⟨hhead, hstart⟩ := hin
      obtain ⟨t, ht, hothers, hseg, htrun, hearly, hfull⟩ :=
        h.fetch_reportInserted wire hattn hp hfin hrun ha hphase hlen hf hhead hstart (e := e) (by rw [horigin])
      refine ⟨t, ht, hothers, fun hout => absurd hout (by omega), fun _ _ => ⟨?_, ?_, fun hclear hd => ?_,
        fun hdrop => ⟨hfull hdrop, ?_⟩, fun hroom => ?_⟩⟩
      · rw [hseg]
      · rw [hseg, ← hdue]
        exact .of_eq (Bool.or_eq_true ..)
      · exact hearly hclear (hdue.2 hd)
      · exact htrun.trans (if_pos hdrop)
      · exact htrun.trans (if_neg (by rw [hroom]; exact Bool.false_ne_true))
    · obtain ⟨t, ht, hothers, hkept⟩ := h.fetch_reportOutside wire hattn hp hfin hrun ha hphase hlen hf (by omega)
      exact ⟨t, ht, hothers, fun _ => hkept, fun hhead hstart => absurd ⟨hhead, hstart⟩ hin⟩

end Sys2Proof.Machine
end

section
/-! SUPPORT. The console receiver: the ring, the signatures that a byte completes with what they tell the Plan Runner, and
the arrival of a byte in a slot that is TESTING and in one that is not (R166 to R168, R172, R173, R175). -/

namespace Sys2Proof.Machine

/-! ## The ring and the receiver (R166, R168) -/

/-- The bytes of a ring that the reception of one more keeps: the newest 512 (R168). -/
theorem joinRing_ring {c : ConsoleRec} (b : Byte) (h : c.ring.length ≤ 512) :
    (joinRing b c).ring = (c.ring ++ [b]).drop ((c.ring ++ [b]).length - 512) := by
  rw [List.length_append, List.length_singleton]
  by_cases hroom : c.ring.length < 512
  · have hall : c.ring.length + 1 - 512 = 0 := by omega
    rw [hall, List.drop_zero]
    exact if_pos hroom
  · have hone : c.ring.length + 1 - 512 = c.ring.length - 511 := by omega
    rw [hone, List.drop_append_of_le_length (by omega)]
    exact if_neg hroom

/-- What Console Watch holds with the matcher at this progress. -/
def ConsoleRec.withProgress (progress : Vector Nat 4) (c : ConsoleRec) : ConsoleRec := { c with progress := progress }

/-- The receiver once a byte has been received (R166). -/
def ConsoleRec.receivedAt (now : Nat) (c : ConsoleRec) : ConsoleRec :=
  { c with rx := .watching, line := true, lastByte := some now }

/-- The receiver moves with a falling edge while it watches, and with a high level while it waits for one (R166). -/
theorem rxAfter_eq (level : Bool) (rate : ConsoleRate) (rx : ConsoleRx) : rxAfter level rate rx =
    match rx, level with
    | .watching, false => .receiving rate
    | .waitHigh, true => .watching
    | rx, _ => rx := by
  cases rx <;> cases level <;> rfl

/-! ## The signatures that complete (R173) -/

/-- The signature at a place, where its progress has reached its length. -/
def completedAt (plan : Plan) (progress : Vector Nat 4) (m : Fin 4) : Option Signature :=
  match plan.sigs[m] with
  | some sig => if progress[m] = sig.bytes.length then some sig else none
  | none => none

theorem zip_toList_finRange {α β : Type} {n : Nat} (v : Vector α n) (w : Vector β n) :
    v.toList.zip w.toList = (List.finRange n).map fun m => (v[m], w[m]) := by
  apply List.ext_getElem <;> simp

/-- The completed signatures stand in the ascending order of their places. -/
theorem completedSigs_eq (plan : Plan) (progress : Vector Nat 4) :
    completedSigs plan progress = (List.finRange 4).filterMap (completedAt plan progress) := by
  rw [completedSigs, zip_toList_finRange, List.filterMap_filter, List.filterMap_map]
  refine List.filterMap_congr fun m _ => ?_
  simp only [Function.comp_apply, completedAt]
  cases plan.sigs[m] with
  | none => rfl
  | some sig => simp [sigComplete]

/-! ## The trip (R175) -/

/-- What an action has the Plan Runner told. -/
def TripAction.report : TripAction → Option ReportKind
  | .count => none
  | .stopPhase => some (.stopPhase .signature 0)
  | .abortPlan => some (.abortPlan .signature 0)

/-- The reports that the actions of signatures lead to, in their order. -/
def tripReports (done : List Signature) : List Report :=
  (done.filterMap fun sig => sig.action.report).map fun kind =>
    { kind := kind, live := true, owesClear := false, ownsSummary := false }

theorem tripReports_cons (sig : Signature) (done : List Signature) :
    tripReports (sig :: done) = tripReports [sig] ++ tripReports done := by
  simp only [tripReports, ← List.map_append, ← List.filterMap_append, List.singleton_append]

/-- The record of a slot whose Plan Runner is told reports. -/
def SlotRec.told (l : List Report) (r : SlotRec) : SlotRec := { r with reports := r.reports ++ l }

theorem tellAction_eq (i : Slot) (sig : Signature) (s : State) :
    tellAction i sig s = s.modSlot i (SlotRec.told (tripReports [sig])) := by
  obtain ⟨bytes, action⟩ := sig
  cases action with
  | count => exact (State.modSlot_eq_self (by simp [SlotRec.told, tripReports, TripAction.report])).symm
  | stopPhase | abortPlan => rfl

/-- The actions of the completed signatures are told one after the other. -/
theorem foldl_tellAction (i : Slot) (done : List Signature) (s : State) :
    done.foldl (fun s sig => tellAction i sig s) s = s.modSlot i (SlotRec.told (tripReports done)) := by
  induction done generalizing s with
  | nil => exact (State.modSlot_eq_self (by simp [SlotRec.told, tripReports])).symm
  | cons sig done ih =>
    rw [List.foldl_cons, ih, tellAction_eq, State.modSlot_modSlot, tripReports_cons sig done]
    exact State.modSlot_congr (by simp [SlotRec.told])

/-- The run with the signatures that completed counted as trips, up to the counter's maximum. -/
def Run.tripped (n : Nat) (run : Run) : Run := { run with trips := min 65535 (run.trips + n) }

/-- What a trip leaves: the slot's run and reports, every other slot, and TRIP set. -/
theorem trip_leaves (i : Slot) (done : List Signature) (s : State) :
    OtherSlotsSame s (trip i done s) i ∧
      (trip i done s).slot i =
        SlotRec.told (tripReports done) { s.slot i with run := (s.slot i).run.map (Run.tripped done.length) } ∧
      flagSet (trip i done s) (slotScope i) (slotFlagBit .trip) = true := by
  rw [trip, foldl_tellAction]
  refine ⟨fun j hj => ?_, ?_, flagSet_raiseSlot i .trip _⟩
  · rw [State.modSlot_slot_ne _ hj, raiseSlot_slot, State.modRun_slot_ne _ hj]
  · rw [State.modSlot_slot, raiseSlot_slot, State.modRun_slot]
    rfl

/-! ## A byte in a slot (R172, R173) -/

theorem modCon_modCon (i : Slot) (f g : ConsoleRec → ConsoleRec) (s : State) :
    modCon i g (modCon i f s) = modCon i (g ∘ f) s := by
  simp only [modCon, State.modSlot_modSlot]
  rfl

@[simp] theorem modCon_slot (i : Slot) (f : ConsoleRec → ConsoleRec) (s : State) :
    (modCon i f s).slot i = { s.slot i with con := f (s.slot i).con } := s.modSlot_slot i _

theorem modCon_flags (i : Slot) (f : ConsoleRec → ConsoleRec) (s : State) : (modCon i f s).flags = s.flags := rfl

theorem modCon_others (i : Slot) (f : ConsoleRec → ConsoleRec) (s : State) : OtherSlotsSame s (modCon i f s) i :=
  modSlot_others s i _

/-- A slot that is not TESTING gives the matcher no byte. -/
theorem byteArrived_notTesting {i : Slot} {s : State} (b : Byte) (h : (s.slot i).occ ≠ .testing) :
    byteArrived i b s = modCon i (fun c => (joinRing b c).receivedAt s.now) s := by
  have hocc : ((modCon i (joinRing b) s).slot i).occ ≠ .testing := by simpa using h
  have hkept : byteArrived i b s = modCon i (ConsoleRec.receivedAt s.now) (modCon i (joinRing b) s) := by
    simp only [byteArrived, if_neg hocc]
    split <;> rfl
  rw [hkept, modCon_modCon]
  rfl

/-- The progress of the matcher after a byte under the slot's plan (R173). -/
abbrev progressAfter (s : State) (i : Slot) (run : Run) (b : Byte) : Vector Nat 4 :=
  let c := (s.slot i).con
  advanceAll (planOf s run) (gapExceeded c.lastByte s.now (planOf s run).gap) c.progress b

section
variable {i : Slot} {s : State} {run : Run}

/-- The ring is no part of the matcher's progress. -/
theorem progressAfter_joinRing (b : Byte) : progressAfter (modCon i (joinRing b) s) i run b = progressAfter s i run b := by
  simp only [progressAfter, modCon_slot]
  rfl

/-- A byte that completes no signature changes what Console Watch holds alone. -/
theorem matchByte_quiet {b : Byte} (h : completedSigs (planOf s run) (progressAfter s i run b) = []) :
    matchByte i run b s = modCon i (ConsoleRec.withProgress (progressAfter s i run b)) s := by
  simp only [progressAfter] at h
  simp only [matchByte, h]
  rfl

/-- A byte that completes signatures leads to their trip, the matcher begun afresh. -/
theorem matchByte_trips {b : Byte} {done : List Signature}
    (hdone : completedSigs (planOf s run) (progressAfter s i run b) = done) (h : done ≠ []) :
    matchByte i run b s = trip i done (modCon i (ConsoleRec.withProgress (Vector.replicate 4 0)) s) := by
  simp only [progressAfter] at hdone
  simp only [matchByte, hdone]
  rfl

variable (hocc : (s.slot i).occ = .testing) (hrun : (s.slot i).run = some run)
include hocc hrun

/-- A TESTING slot gives the matcher each byte, once it has joined the ring. -/
theorem byteArrived_testing (b : Byte) : byteArrived i b s =
    modCon i (ConsoleRec.receivedAt (matchByte i run b (modCon i (joinRing b) s)).now)
      (matchByte i run b (modCon i (joinRing b) s)) := by
  have hrun' : ((modCon i (joinRing b) s).slot i).run = some run := by simpa using hrun
  have hocc' : ((modCon i (joinRing b) s).slot i).occ = .testing := by simpa using hocc
  simp only [byteArrived, hrun', hocc', if_true]
  rfl

/-- A byte that completes no signature. -/
theorem byteArrived_quiet {b : Byte} (h : completedSigs (planOf s run) (progressAfter s i run b) = []) :
    byteArrived i b s =
      modCon i (fun c => ((joinRing b c).withProgress (progressAfter s i run b)).receivedAt s.now) s := by
  rw [byteArrived_testing hocc hrun, matchByte_quiet (by rwa [progressAfter_joinRing]), progressAfter_joinRing]
  simp only [modCon_modCon]
  rfl

/-- A byte that completes signatures. -/
theorem byteArrived_trips {b : Byte} {done : List Signature}
    (hdone : completedSigs (planOf s run) (progressAfter s i run b) = done) (h : done ≠ []) :
    OtherSlotsSame s (byteArrived i b s) i ∧
      (∃ now, (byteArrived i b s).slot i = SlotRec.told (tripReports done) { s.slot i with
        run := some (run.tripped done.length)
        con := ((joinRing b (s.slot i).con).withProgress (Vector.replicate 4 0)).receivedAt now }) ∧
      flagSet (byteArrived i b s) (slotScope i) (slotFlagBit .trip) = true := by
  obtain ⟨hothers, hslot, hflag⟩ :=
    trip_leaves i done (modCon i (ConsoleRec.withProgress (Vector.replicate 4 0)) (modCon i (joinRing b) s))
  rw [byteArrived_testing hocc hrun, matchByte_trips (by rwa [progressAfter_joinRing]) h]
  generalize trip i done _ = u at hothers hslot hflag ⊢
  refine ⟨?_, ⟨u.now, ?_⟩, (flagSet_congr (modCon_flags ..) ..).trans hflag⟩
  · exact ((modCon_others i _ s).trans (modCon_others i _ _)).trans (hothers.trans (modCon_others i _ u))
  · simp only [modCon_slot, hslot, SlotRec.told, hrun, Option.map_some]
end

/-! ## The statement -/

theorem receiverActive_of {rx : ConsoleRx} (h : rx = .watching ∨ ∃ rate, rx = .receiving rate) :
    receiverActive rx = true := by
  obtain rfl | ⟨rate, rfl⟩ := h <;> rfl

theorem exec_consoleByteArrival {i : Slot} {s : State} (b : Byte) (h : receiverActive (s.slot i).con.rx = true) :
    exec (.consoleByteArrival i b) s = .next (startTx (byteArrived i b s)) :=
  (if_pos h).trans (conclude_nil _)

theorem exec_consoleLineChange (i : Slot) (level : Bool) (s : State) : exec (.consoleLineChange i level) s =
    .next (modCon i (fun c => { c with line := level, rx := rxAfter level (s.shelf (shelfOf i)).rate c.rx }) s) := rfl

/-- Settles O55: a byte by the slot's occupancy and by whether it completes a signature; the line's other events by what
they set. -/
theorem consoleReceiver : Obligations.ConsoleReceiver := by
  unfold Obligations.ConsoleReceiver
  refine fun i s => ⟨fun b hrx hlen => ?_, fun hrx => ?_, fun level => ?_⟩
  · intro ring newest
    have hring : (joinRing b (s.slot i).con).ring = newest := joinRing_ring b hlen
    rw [exec_consoleByteArrival b (receiverActive_of hrx)]
    refine ⟨fun hocc => ?_, fun run hocc hrun => ?_⟩
    · rw [byteArrived_notTesting b hocc]
      refine congrArg (fun u => Host.Outcome.next (startTx u)) (State.modSlot_congr ?_)
      rw [← hring]
      rfl
    · intro plan after done told
      have hdone : completedSigs (planOf s run) (progressAfter s i run b) = done := by
        rw [completedSigs_eq]
        refine List.filterMap_congr fun m _ => ?_
        simp only [completedAt]
        cases plan.sigs[m] <;> rfl
      have htold : tripReports done = told.map fun kind =>
          { kind := kind, live := true, owesClear := false, ownsSummary := false } := by
        refine congrArg (List.map _) (List.filterMap_congr fun sig _ => ?_)
        cases sig.action <;> rfl
      refine ⟨_, rfl, ?_⟩
      by_cases hnone : done = []
      · have hsilent : told = [] := congrArg (List.filterMap _) hnone
        rw [byteArrived_quiet hocc hrun (hdone.trans hnone), hsilent]
        refine ⟨(modCon_others i _ s).startTx, ?_⟩
        simp only [startTx_slot, startTx_flags, modCon_slot, List.map_nil, List.append_nil]
        exact ⟨hring, trivial, fun _ => ⟨rfl, hrun, rfl⟩, fun h => absurd hnone h⟩
      · obtain ⟨hothers, ⟨now, hslot⟩, hflag⟩ := byteArrived_trips hocc hrun hdone hnone
        simp only [startTx_slot, hslot, flagSet_startTx, ← htold]
        exact ⟨hothers.startTx, hring, rfl, fun h => absurd h hnone, fun _ => ⟨rfl, rfl, hflag⟩⟩
  · exact ⟨if_pos (receiverActive_of hrx), if_pos (receiverActive_of hrx)⟩
  · rw [exec_consoleLineChange]
    refine congrArg Host.Outcome.next (State.modSlot_congr ?_)
    exact congrArg (fun rx => { s.slot i with con := { (s.slot i).con with line := level, rx := rx } }) (rxAfter_eq ..)

end Sys2Proof.Machine
end

section
/-! SUPPORT. Every step keeps the bins sound (R184): a slot's reservation and its bin's reserved count move together, and
a place is reserved only where one is free. -/

namespace Sys2Proof.Machine

/-! ## The slots that hold a reservation -/

/-- The number of slots that hold a reservation in the bin. -/
def holders (s : State) (b : BinIx) : Nat := allSlots.countP fun i => decide ((s.slot i).reservation = some b)

theorem allSlots_nodup : allSlots.Nodup := by decide

/-- Where two tests differ at one element of a list without repetitions only, the counts differ by what they say of it. -/
theorem countP_replace {α : Type} [DecidableEq α] {l : List α} (hl : l.Nodup) {a : α} (ha : a ∈ l) {p q : α → Bool}
    (h : ∀ x, x ≠ a → p x = q x) :
    l.countP q + (if p a then 1 else 0) = l.countP p + (if q a then 1 else 0) := by
  have hrest : (l.erase a).countP q = (l.erase a).countP p :=
    List.countP_congr fun x hx => by rw [h x ((hl.mem_erase_iff).1 hx).1]
  have hperm := List.perm_cons_erase ha
  rw [hperm.countP_eq, hperm.countP_eq, List.countP_cons, List.countP_cons, hrest]
  omega

theorem holders_congr {s t : State} (h : ∀ i, (t.slot i).reservation = (s.slot i).reservation) (b : BinIx) :
    holders t b = holders s b := by simp only [holders, h]

/-- A change of one slot moves the count by that slot's reservation. -/
theorem holders_modSlot (s : State) (i : Slot) (f : SlotRec → SlotRec) (b : BinIx) :
    holders (s.modSlot i f) b + (if (s.slot i).reservation = some b then 1 else 0) =
      holders s b + (if (f (s.slot i)).reservation = some b then 1 else 0) := by
  have hcount := countP_replace allSlots_nodup (mem_allSlots i) (p := fun j => decide ((s.slot j).reservation = some b))
    (q := fun j => decide (((s.modSlot i f).slot j).reservation = some b))
    fun j hj => by rw [State.modSlot_slot_ne _ hj]
  simpa only [holders, State.modSlot_slot, decide_eq_true_eq] using hcount

theorem holders_modBin (s : State) (b : BinIx) (f : Bin → Bin) (c : BinIx) : holders (s.modBin b f) c = holders s c := rfl

theorem binsSound_iff {s : State} : BinsSound s ↔
    ∀ b : BinIx, s.bins[b].fill + s.bins[b].reserved ≤ s.bins[b].capacity ∧ s.bins[b].reserved = holders s b := by
  simp only [BinsSound, holders, List.countP_eq_length_filter]

/-! ## Changes that leave the bins sound -/

/-- A change of hold queues, and of slots but for their reservations. -/
theorem BinsSound.of_places {s t : State} (h : BinsSound s) (hslot : ∀ i, (t.slot i).reservation = (s.slot i).reservation)
    (hbin : ∀ b : BinIx, t.bins[b].capacity = s.bins[b].capacity ∧ t.bins[b].fill = s.bins[b].fill ∧
      t.bins[b].reserved = s.bins[b].reserved) : BinsSound t := by
  rw [binsSound_iff] at h ⊢
  intro b
  obtain ⟨hcap, hfill, hres⟩ := hbin b
  rw [hcap, hfill, hres, holders_congr hslot]
  exact h b

/-- A change of anything but slots and bins. -/
theorem BinsSound.same {s t : State} (h : BinsSound s) (hs : t.slots = s.slots) (hb : t.bins = s.bins) : BinsSound t :=
  h.of_places (fun i => by simp [State.slot, hs]) fun b => by simp [hb]

theorem BinsSound.raise {s : State} (h : BinsSound s) (c : Scope) (bit : Nat) : BinsSound (setFlagBit c bit s) :=
  h.same (setFlagBit_slots c bit s) (setFlagBit_bins c bit s)

/-- A change of a slot's record that leaves its reservation alone. -/
theorem BinsSound.modSlot {s : State} (h : BinsSound s) (i : Slot) {f : SlotRec → SlotRec}
    (hf : (f (s.slot i)).reservation = (s.slot i).reservation) : BinsSound (s.modSlot i f) := by
  refine h.of_places (fun j => ?_) fun _ => ⟨rfl, rfl, rfl⟩
  rw [State.modSlot_slot_if]
  split
  · next hj => rw [hj, hf]
  · rfl

/-- A change of one bin's capacity or fill that its use still fits. -/
theorem BinsSound.modBin {s : State} (h : BinsSound s) (b : BinIx) {f : Bin → Bin}
    (hres : (f s.bins[b]).reserved = s.bins[b].reserved)
    (hfits : (f s.bins[b]).fill + s.bins[b].reserved ≤ (f s.bins[b]).capacity) : BinsSound (s.modBin b f) := by
  rw [binsSound_iff] at h ⊢
  intro c
  rw [holders_modBin]
  by_cases hc : c = b
  · subst hc
    rw [State.modBin_bin, hres]
    exact ⟨hfits, (h c).2⟩
  · rw [State.modBin_bin_ne _ hc]
    exact h c

/-! ## Reservations (R185, R187) -/

/-- A free place is reserved for a slot that holds none. -/
theorem BinsSound.placeTaken {s : State} (h : BinsSound s) {i : Slot} {b : BinIx} (hnone : (s.slot i).reservation = none)
    (hroom : s.bins[b].fill + s.bins[b].reserved < s.bins[b].capacity) : BinsSound (withPlace i b s) := by
  rw [binsSound_iff] at h ⊢
  intro c
  have hcount : holders (withPlace i b s) c = holders s c + if some b = some c then 1 else 0 := by
    have hmod := holders_modSlot (s.modBin b fun bin => { bin with reserved := bin.reserved + 1 }) i
      (fun r => { r with reservation := some b }) c
    simpa only [withPlace, holders_modBin, State.modBin_slot, hnone, reduceCtorEq, if_false, Nat.add_zero] using hmod
  obtain ⟨hfits, hres⟩ := h c
  rw [hcount]
  by_cases hc : c = b
  · subst hc
    rw [withPlace_bin, if_pos rfl]
    exact ⟨by dsimp only; omega, by dsimp only; omega⟩
  · rw [withPlace_bin_ne _ _ _ hc, if_neg (by simpa using Ne.symm hc)]
    exact ⟨hfits, hres⟩

/-- The state in which the slot has given up its reservation in the bin, the bin's places changed with it. -/
def withoutPlace (i : Slot) (b : BinIx) (f : Bin → Bin) (s : State) : State :=
  (s.modBin b f).modSlot i fun r => { r with reservation := none }

section
variable (i : Slot) {b : BinIx} (f : Bin → Bin) (s : State)
theorem withoutPlace_bin : (withoutPlace i b f s).bins[b] = f s.bins[b] := by
  rw [withoutPlace, State.modSlot_bins, State.modBin_bin]
theorem withoutPlace_bin_ne {c : BinIx} (h : c ≠ b) : (withoutPlace i b f s).bins[c] = s.bins[c] := by
  rw [withoutPlace, State.modSlot_bins, State.modBin_bin_ne _ h]
end

/-- A reservation is given up, its place being free again or filled. -/
theorem BinsSound.placeLeft {s : State} (h : BinsSound s) {i : Slot} {b : BinIx} {f : Bin → Bin}
    (hplace : (s.slot i).reservation = some b) (hres : (f s.bins[b]).reserved = s.bins[b].reserved - 1)
    (hcap : (f s.bins[b]).capacity = s.bins[b].capacity) (hfill : (f s.bins[b]).fill ≤ s.bins[b].fill + 1) :
    BinsSound (withoutPlace i b f s) := by
  rw [binsSound_iff] at h ⊢
  intro c
  have hcount : holders (withoutPlace i b f s) c + (if some b = some c then 1 else 0) = holders s c := by
    have hmod := holders_modSlot (s.modBin b f) i (fun r => { r with reservation := none }) c
    simpa only [withoutPlace, holders_modBin, State.modBin_slot, hplace, reduceCtorEq, if_false, Nat.add_zero] using hmod
  obtain ⟨hfits, hreserved⟩ := h c
  by_cases hc : c = b
  · subst hc
    rw [if_pos rfl] at hcount
    rw [withoutPlace_bin, hres, hcap]
    omega
  · rw [if_neg (by simpa using Ne.symm hc)] at hcount
    rw [withoutPlace_bin_ne _ _ _ hc]
    exact ⟨hfits, by omega⟩

theorem reserve_binsSound {s : State} (i : Slot) (b : BinIx) (hroom : binHasRoom s b = true) (h : BinsSound s) :
    BinsSound (reserve i b s) := by
  cases hplace : (s.slot i).reservation with
  | some c =>
    have hkept : reserve i b s = s := if_pos (by simp [hplace])
    rwa [hkept]
  | none =>
    rw [reserve_eq b hplace]
    have hplaced := h.placeTaken hplace (of_decide_eq_true hroom)
    exact ite_keeps (hplaced.raise _ _) hplaced

theorem releaseReservation_binsSound {s : State} (i : Slot) (h : BinsSound s) : BinsSound (releaseReservation i s).1 := by
  unfold releaseReservation
  split
  · exact h
  · next b hplace =>
    exact h.placeLeft (f := fun bin => { bin with reserved := bin.reserved - 1 }) hplace rfl rfl (by simp)

theorem convertReservation_binsSound {s : State} (i : Slot) (h : BinsSound s) : BinsSound (convertReservation i s) := by
  unfold convertReservation
  split
  · exact h
  · next b hplace =>
    exact h.placeLeft (f := fun bin => { bin with reserved := bin.reserved - 1, fill := bin.fill + 1 }) hplace rfl rfl
      (by simp)

/-! ## BIN_SET and TOTE_SWAP (R188, R189) -/

/-- BIN_SET refuses a capacity below the bin's use. -/
theorem handleBinSet_binsSound {s : State} (p : List Byte) (h : BinsSound s) : (handleBinSet p s).Keeps BinsSound := by
  refine withLength_stays (withBin_stays fun b => ?_)
  dsimp only
  split
  · trivial
  · next hcap =>
    obtain ⟨-, huse⟩ := not_or.1 hcap
    have hb : BinsSound (s.modBin b fun bin => { bin with capacity := field8 p 1 }) :=
      h.modBin b rfl (Nat.not_lt.1 huse)
    split
    · exact hb
    · split
      · exact ite_keeps (hb.raise _ _) hb
      · exact hb

theorem handleToteSwap_binsSound {s : State} (p : List Byte) (h : BinsSound s) :
    (handleToteSwap p s).Keeps BinsSound := by
  refine withLength_stays (withBin_stays fun b => h.modBin b rfl ?_)
  obtain ⟨hfits, -⟩ := h b
  dsimp only
  omega

/-! ## The operations of the blocks, and every step -/

theorem binsSound_unpowered : Unpowered BinsSound where
  modSlot i _ hf h := h.modSlot i (hf _).2
  setQueue _ _ h := h.same rfl rfl
  raiseSlot _ _ h := h.raise _ _

theorem binsSound_loose : Loose BinsSound where
  modSlot i f hf h := by
    obtain ⟨⟨-, -, hplace, -⟩, -⟩ := hf (State.slot _ i)
    exact h.modSlot i hplace
  anySlot i f hf h := by
    obtain ⟨-, -, hplace, -⟩ := hf (State.slot _ i)
    exact h.modSlot i hplace
  modShelf _ _ _ h := h.same rfl rfl
  anyShelf _ _ _ h := h.same rfl rfl
  holds _ hv h := h.of_places (fun _ => rfl) hv
  raiseSlot _ _ h := h.raise _ _
  raiseShelf _ _ h := h.raise _ _
  raiseController _ h := h.raise _ _
  examine k h := binsSound_unpowered.examine k h
  requestPower i by_ h := binsSound_unpowered.requestPower i by_ h
  requestSpin i h := binsSound_unpowered.requestSpin i h
  withdrawEntry i kind h := binsSound_unpowered.withdrawEntry i kind h
  spinDown i h := binsSound_unpowered.spinDown i h
  cutPower i h := binsSound_unpowered.cutPower i h
  motorReport i motor h := binsSound_unpowered.motorReport i motor h
  windowExpired i h := binsSound_unpowered.windowExpired i h
  unlockLatch i h := ite_keeps (h.modSlot i rfl) h
  lockLatch i h := h.modSlot i rfl
  insert i _ _ h := h.modSlot i rfl
  emptySegment i h := h.modSlot i rfl
  reserve i b hroom h := reserve_binsSound i b hroom h
  releaseReservation i h := releaseReservation_binsSound i h
  convertReservation i h := convertReservation_binsSound i h

/-- So do the commands. -/
theorem binsSound_held : Held BinsSound where
  toKept := binsSound_loose.kept
  same hs _ hb h := h.same hs hb
  shelfSet p h := handleShelfSet_unpowered binsSound_unpowered (fun _ _ h => h.same rfl rfl) p h
  segmentSet p h := by
    refine withLength_stays (withSlot_stays fun i => ?_)
    dsimp only
    split
    · trivial
    · split
      · trivial
      · exact h.modSlot i rfl
  binSet p h := handleBinSet_binsSound p h
  toteSwap p h := handleToteSwap_binsSound p h
  supplySettles k line h :=
    supplySettles_unpowered binsSound_unpowered (fun _ _ h => h.same rfl rfl) (fun _ _ _ h => h.raise _ _) k line h
  joinSet i h := joinSet_keeps binsSound_loose i h
  keyLoaded k h := keyLoaded_keeps binsSound_loose k h
  nextRound k h := nextRound_keeps binsSound_loose k h
  activityEdge i level h := activityEdge_keeps binsSound_loose i level h
  closeWindow k n ident _ pulsing left _ h := closeWindow_keeps binsSound_loose k n ident pulsing left h
  reset _ := binsSound_reset.of_places (fun i => by rw [resetOf_slot, reset_slot]; rfl) fun _ => ⟨rfl, rfl, rfl⟩
  tick h := h.of_places (fun i => by simp [tick, State.slot]) fun _ => ⟨rfl, rfl, rfl⟩

/-- Settles O26: the bins are sound in the `Held` sense, so that every command and every duty of the part keeps them. -/
theorem stepsKeepBinsSound : Obligations.StepsKeepBinsSound :=
  fun _ _ h ht => step_stays binsSound_held h ht

end Sys2Proof.Machine
end

section
/-! SUPPORT. A request that names nothing that exists is refused before its handling looks at the state (R209, R214). -/

namespace Sys2Proof.Machine

/-! ## A first field that names nothing (R209) -/

/-- A request of the right length whose first field is not below a bound is answered BAD_VALUE and changes nothing. -/
def NameRefused (row : Byte × Nat × Nat × (Byte → List Byte → Instr)) : Prop :=
  ∀ (tag : Byte) (p : List Byte) (s : State), p.length = row.2.1 → row.2.2.1 ≤ field8 p 0 → NextServed row.1 tag p s →
    exec (row.2.2.2 tag p) s = .next (answered row.1 tag .badValue .none (serving row.1 tag p s))

/-- A handler that tests the length and then the name, by one of the four tests of R209, refuses such a request. -/
theorem nameRefused_of {kind : Byte} {n bound : Nat} {mk : Byte → List Byte → Instr} {α : Type}
    {withName : Nat → (α → Handled) → Handled} {f : List Byte → State → α → Handled}
    (hge : ∀ {m : Nat}, bound ≤ m → ∀ g, withName m g = .refuse .badValue)
    (h : ∀ tag p s, exec (mk tag p) s = serve kind tag p (fun s => withLength n p (withName (field8 p 0) (f p s))) s) :
    NameRefused (kind, n, bound, mk) := fun tag p s hlen hname hnext =>
  (h tag p s).trans (serve_refuse hnext ((withLength_eq hlen _).trans (hge hname _)))

/-! ## The requests whose names stand elsewhere, or have exceptions (R113, R114, R171, R181, R182, R214) -/

/-- A test that refuses whatever a field names refuses with it. -/
theorem withSlot_refuse {n : Nat} {f : Slot → Handled} (h : ∀ i, f i = .refuse .badValue) :
    withSlot n f = .refuse .badValue := by
  unfold withSlot
  split
  · exact h _
  · rfl

theorem withBin_refuse {n : Nat} {f : BinIx → Handled} (h : ∀ b, f b = .refuse .badValue) :
    withBin n f = .refuse .badValue := by
  unfold withBin
  split
  · exact h _
  · rfl

section
variable {p : List Byte} (s : State)

theorem handleSignatureLoad_noPlan (hp : 4 ≤ p.length) (hplan : 4 ≤ field8 p 0) :
    handleSignatureLoad p s = .refuse .badValue := by
  rw [handleSignatureLoad, if_neg (Nat.not_lt.2 hp), withPlan_ge hplan]

theorem handleSlotArm_noPlan (hp : p.length = 3) (hplan : 4 ≤ field8 p 1) (hsome : field8 p 1 ≠ 255) :
    handleSlotArm p s = .refuse .badValue := by
  rw [handleSlotArm, withLength_eq hp]
  refine withSlot_refuse fun i => ?_
  cases yesNoOf (field8 p 2) with
  | none => rfl
  | some auto => exact (if_neg hsome).trans (withPlan_ge hplan _)

theorem handleSlotStart_noPlan (hp : p.length = 2) (hplan : 4 ≤ field8 p 1) (hnamed : field8 p 1 ≠ 254) :
    handleSlotStart p s = .refuse .badValue := by
  rw [handleSlotStart, withLength_eq hp]
  exact withSlot_refuse fun i => (if_neg hnamed).trans (withPlan_ge hplan _)

theorem handleRuleLoad_noBin (hp : p.length = 33) (hbin : 16 ≤ field8 p 32) : handleRuleLoad p s = .refuse .badValue := by
  rw [handleRuleLoad, withLength_eq hp, withBin_ge hbin]

theorem handleRulesSet_noBin (hp : p.length = 3) (hbin : 16 ≤ field8 p 1 ∨ 16 ≤ field8 p 2) :
    handleRulesSet p s = .refuse .badValue := by
  rw [handleRulesSet, withLength_eq hp]
  obtain hdefault | hrework := hbin
  · exact withBin_ge hdefault _
  · exact withBin_refuse fun _ => withBin_ge hrework _

theorem scopeOf_ge {n : Nat} (h : 28 ≤ n) : scopeOf n = none := dif_neg (Nat.not_lt.2 h)

theorem handleEventsRead_noScope (hp : p.length = 1) (hscope : 28 ≤ field8 p 0) (hone : field8 p 0 ≠ 255) :
    handleEventsRead p s = .refuse .badValue := by
  rw [handleEventsRead, withLength_eq hp, if_neg hone, scopeOf_ge hscope]
end

/-- Settles O9: the first field names nothing, request by request, and then the names that stand elsewhere. -/
theorem nameOfNothingIsRefused : Obligations.NameOfNothingIsRefused := by
  unfold Obligations.NameOfNothingIsRefused
  refine ⟨fun tag p s row hrow => ?_, fun tag p s => ⟨fun hp hplan hn => ?_, fun hp hplan hsome hn => ?_,
    fun hp hplan hnamed hn => ?_, fun hp hbin hn => ?_, fun hp hbin hn => ?_, fun hp hscope hone hn => ?_⟩⟩
  · refine (?_ : NameRefused row) tag p s
    revert row
    simp only [List.forall_mem_cons, List.not_mem_nil, false_imp_iff, implies_true, and_true]
    exact ⟨nameRefused_of withPlan_ge fun _ _ _ => rfl, nameRefused_of withPlan_ge fun _ _ _ => rfl,
      nameRefused_of withShelf_ge fun _ _ _ => rfl, nameRefused_of withShelf_ge fun _ _ _ => rfl,
      nameRefused_of withShelf_ge fun _ _ _ => rfl, nameRefused_of withShelf_ge fun _ _ _ => rfl,
      nameRefused_of withShelf_ge fun _ _ _ => rfl, nameRefused_of withSlot_ge fun _ _ _ => rfl,
      nameRefused_of withBin_ge fun _ _ _ => rfl, nameRefused_of withBin_ge fun _ _ _ => rfl,
      nameRefused_of withBin_ge fun _ _ _ => rfl, nameRefused_of withSlot_ge fun _ _ _ => rfl,
      nameRefused_of withSlot_ge fun _ _ _ => rfl, nameRefused_of withSlot_ge fun _ _ _ => rfl,
      nameRefused_of withSlot_ge fun _ _ _ => rfl, nameRefused_of withSlot_ge fun _ _ _ => rfl,
      nameRefused_of withSlot_ge fun _ _ _ => rfl, nameRefused_of withSlot_ge fun _ _ _ => rfl,
      nameRefused_of withSlot_ge fun _ _ _ => rfl, nameRefused_of withSlot_ge fun _ _ _ => rfl,
      nameRefused_of withSlot_ge fun _ _ _ => rfl, nameRefused_of withSlot_ge fun _ _ _ => rfl,
      nameRefused_of withSlot_ge fun _ _ _ => rfl⟩
  · exact serve_refuse hn (handleSignatureLoad_noPlan _ hp hplan)
  · exact serve_refuse hn (handleSlotArm_noPlan _ hp hplan hsome)
  · exact serve_refuse hn (handleSlotStart_noPlan _ hp hplan hnamed)
  · exact serve_refuse hn (handleRuleLoad_noBin _ hp hbin)
  · exact serve_refuse hn (handleRulesSet_noBin _ hp hbin)
  · exact serve_refuse hn (handleEventsRead_noScope _ hp hscope hone)

end Sys2Proof.Machine
end

section
/-! SUPPORT. The grading rules (R183): what a rule's match says of each limit, and that the first one that matches below
the rule count decides. -/

namespace Sys2Proof.Machine

/-- An input meets a limit that is "no limit" or not below it (R183). -/
theorem meets_iff {limit input : Nat} : meets limit input = true ↔ limit = 0xFFFFFFFF ∨ input ≤ limit := by
  simp only [meets, Bool.or_eq_true, decide_eq_true_eq]
  exact Iff.rfl

/-- The allowed set is read at the stop reason's code, for the reasons that lead to a tote (R180, R181). -/
theorem allows_eq {reason : StopReason} (h : leadsToTote reason = true) (set : BitVec 9) :
    allows set reason = set.getLsbD (stopCode reason) := by
  cases reason with
  | swap => cases h
  | lost => cases h
  | pulled => cases h
  | _ => rfl

theorem leadsToTote_iff {reason : StopReason} :
    leadsToTote reason = true ↔ reason ≠ .lost ∧ reason ≠ .pulled ∧ reason ≠ .swap := by
  cases reason <;> simp [leadsToTote]

/-- A rule matches if all its conditions hold (R183). -/
theorem Rule.matches_iff {rule : Rule} {g : GradeInputs} (h : leadsToTote g.stop = true) : rule.matches g = true ↔
    (rule.maxWorst = 0xFFFFFFFF ∨ g.worstHead ≤ rule.maxWorst) ∧
    (rule.maxTotal = 0xFFFFFFFF ∨ g.totalSectors ≤ rule.maxTotal) ∧
    (rule.maxGrown = 0xFFFFFFFF ∨ g.grownSectors ≤ rule.maxGrown) ∧
    (rule.maxReports = 0xFFFFFFFF ∨ g.reports ≤ rule.maxReports) ∧
    (rule.maxFailed = 0xFFFFFFFF ∨ g.failedPhases ≤ rule.maxFailed) ∧
    (rule.maxTrips = 0xFFFFFFFF ∨ g.trips ≤ rule.maxTrips) ∧
    (rule.maxOob = 0xFFFFFFFF ∨ g.oobSeconds ≤ rule.maxOob) ∧ rule.allowed.getLsbD (stopCode g.stop) = true ∧
    (rule.requireComplete = true → g.incomplete = false) := by
  simp only [Rule.matches, Bool.and_eq_true, meets_iff, allows_eq h, Bool.not_eq_true', Bool.and_eq_false_imp, and_assoc]

/-- The first number below a bound at which a function has a value is the one that the search finds. -/
theorem findSome?_range_of_first {α : Type} {f : Nat → Option α} {a : α} {n c : Nat} (hn : n < c) (hf : f n = some a)
    (hfirst : ∀ m, m < n → f m = none) : (List.range c).findSome? f = some a := by
  induction c with
  | zero => omega
  | succ c ih =>
    rw [List.range_succ, List.findSome?_append]
    obtain hlt | rfl := Nat.lt_succ_iff_lt_or_eq.1 hn
    · rw [ih hlt, Option.some_or]
    · have hnone : (List.range n).findSome? f = none :=
        List.findSome?_eq_none_iff.2 fun m hm => hfirst m (List.mem_range.1 hm)
      rw [hnone, Option.none_or, List.findSome?_singleton, hf]

/-- What the search asks of a number: its rule, if that matches. -/
def ruleAt (s : State) (g : GradeInputs) (n : Nat) : Option (Rule × Nat) :=
  match s.rules[n]? with
  | some rule => if rule.matches g then some (rule, n) else none
  | none => none

section
variable {s : State} {g : GradeInputs}

theorem ruleAt_of_lt {n : Nat} (h : n < 16) :
    ruleAt s g n = if s.rules[n].matches g then some (s.rules[n], n) else none := by
  simp only [ruleAt, Vector.getElem?_eq_getElem h]

theorem firstMatch_eq : firstMatch s g = (List.range s.ruleCount).findSome? (ruleAt s g) := rfl

/-- The first rule below the count that matches is found (R183). -/
theorem firstMatch_eq_some {n : Fin 16} (hn : n.val < s.ruleCount) (hmatch : s.rules[n].matches g = true)
    (hfirst : ∀ m : Fin 16, m < n → s.rules[m].matches g = false) : firstMatch s g = some (s.rules[n], n.val) := by
  refine findSome?_range_of_first hn ((ruleAt_of_lt n.isLt).trans (if_pos hmatch)) fun m hm => ?_
  have hm16 : m < 16 := hm.trans n.isLt
  exact (ruleAt_of_lt hm16).trans (if_neg (Bool.eq_false_iff.1 (hfirst ⟨m, hm16⟩ hm)))

/-- None is found where none below the count matches. -/
theorem firstMatch_eq_none (hcount : s.ruleCount ≤ 16)
    (hnone : ∀ n : Fin 16, n.val < s.ruleCount → s.rules[n].matches g = false) : firstMatch s g = none := by
  refine List.findSome?_eq_none_iff.2 fun n hn => ?_
  have hlt : n < s.ruleCount := List.mem_range.1 hn
  have hn16 : n < 16 := hlt.trans_le hcount
  exact (ruleAt_of_lt hn16).trans (if_neg (Bool.eq_false_iff.1 (hnone ⟨n, hn16⟩ hlt)))
end

/-- Settles O58: the model's search finds the first rule that matches. -/
theorem firstMatchingRuleDecides : Obligations.FirstMatchingRuleDecides := by
  unfold Obligations.FirstMatchingRuleDecides
  intro s g hcount hlost hpulled hswap within holds
  have htote : leadsToTote g.stop = true := leadsToTote_iff.2 ⟨hlost, hpulled, hswap⟩
  have hmatches (n : Fin 16) : s.rules[n].matches g = true ↔ holds n := Rule.matches_iff htote
  have hfails (n : Fin 16) (h : ¬holds n) : s.rules[n].matches g = false := by
    rwa [← hmatches, Bool.not_eq_true] at h
  refine ⟨fun n hn hholds hfirst => ?_, fun hnone => ?_⟩
  · have hfound := firstMatch_eq_some hn ((hmatches n).2 hholds) fun m hm => hfails m (hfirst m hm)
    simp only [chooseBin, htote, hfound, if_true]
  · have hfound := firstMatch_eq_none hcount fun n hn => hfails n (hnone n hn)
    simp only [chooseBin, htote, hfound, if_true]

end Sys2Proof.Machine
end

section
/-! SUPPORT. The outcomes DONE of a ship sequence (R193, R194): what it goes on to after each item written and read back,
STAMP and PARK. -/

namespace Sys2Proof.Machine

/-! ## The next item of a sequence (R193) -/

/-- The sequence at its next position. -/
def ShipRec.advanced (rec : ShipRec) : ShipRec := { rec with position := rec.position + 1 }

/-- The STAMP of a result (R194). -/
def Result.stamp (res : Result) : BusCmd :=
  .stamp (res.bin.getD 0) res.ruleIndex res.planId res.inputs.runDose res.inputs.stop

/-- What a sequence at WRITE or READ goes on to at its position, and the item it submits: the next item, the first one to
read back after the last one written, or the STAMP (R193). -/
def ShipRec.onward (rec : ShipRec) (res : Result) : ShipRec × BusCmd :=
  match rec.selected[rec.position]? with
  | some it => (rec, if rec.step = .write then .writeItem it.id it.value else .readItem it.id)
  | none =>
    match rec.step, rec.selected with
    | .write, first :: _ => ({ rec with step := .read, position := 0 }, .readItem first.id)
    | _, _ => ({ rec with step := .stamp }, res.stamp)

theorem ShipRec.onward_write {rec : ShipRec} {it : ShipItem} (hstep : rec.step = .write)
    (hit : rec.selected[rec.position]? = some it) (res : Result) :
    rec.onward res = (rec, .writeItem it.id it.value) := by simp only [onward, hit, hstep, if_true]

theorem ShipRec.onward_read {rec : ShipRec} {it : ShipItem} (hstep : rec.step = .read)
    (hit : rec.selected[rec.position]? = some it) (res : Result) : rec.onward res = (rec, .readItem it.id) := by
  simp only [onward, hit, hstep, reduceCtorEq, if_false]

theorem ShipRec.onward_written {rec : ShipRec} {first : ShipItem} {rest : List ShipItem} (hstep : rec.step = .write)
    (hsel : rec.selected = first :: rest) (hend : rec.selected.length ≤ rec.position) (res : Result) :
    rec.onward res = ({ rec with step := .read, position := 0 }, .readItem first.id) := by
  simp only [onward, List.getElem?_eq_none hend]
  simp only [hstep, hsel]

theorem ShipRec.onward_nothing {rec : ShipRec} (hstep : rec.step = .write) (hsel : rec.selected = []) (res : Result) :
    rec.onward res = ({ rec with step := .stamp }, res.stamp) := by
  simp only [onward, hstep, hsel, List.getElem?_nil]

theorem ShipRec.onward_readBack {rec : ShipRec} (hstep : rec.step = .read) (hend : rec.selected.length ≤ rec.position)
    (res : Result) : rec.onward res = ({ rec with step := .stamp }, res.stamp) := by
  simp only [onward, List.getElem?_eq_none hend, hstep]

section
variable {i : Slot} {s : State}

/-- A submission for a drive that answers. -/
theorem submit_submitted {cmd : BusCmd} (owner : Owner) (hd : (s.slot i).drive.isSome) (hs : (s.slot i).silent = false)
    (hw : NoWork s i) : ∃ t, submit i cmd owner s = (t, []) ∧ Submitted i cmd s t := by
  obtain ⟨t, ht, hbus, hpending, hphase⟩ := submit_of_bound (cmd := cmd) owner hd hs (hw.pendingItem _)
  exact ⟨t, ht, hbus, hpending, hphase⟩

theorem modShip_eq {rec : ShipRec} (hship : (s.slot i).ship = some rec) (f : ShipRec → ShipRec) :
    modShip i f s = s.modSlot i fun r => { r with ship := some (f rec) } :=
  State.modSlot_congr (by rw [hship]; rfl)

theorem modSlot_ship_self {rec : ShipRec} (hship : (s.slot i).ship = some rec) :
    (s.modSlot i fun r => { r with ship := some rec }) = s :=
  State.modSlot_eq_self (by rw [← hship])

/-- The sequence goes on at its position (R193). -/
theorem shipNext_submitted {rec : ShipRec} {res : Result} (hship : (s.slot i).ship = some rec)
    (hres : (s.slot i).result = some res) (hstep : rec.step = .write ∨ rec.step = .read)
    (hd : (s.slot i).drive.isSome) (hs : (s.slot i).silent = false) (hw : NoWork s i) :
    ∃ t, act (.shipNext i) s = (t, []) ∧
      Submitted i (rec.onward res).2 (s.modSlot i fun r => { r with ship := some (rec.onward res).1 }) t := by
  have hstamp : ∃ t, startStamp i s = (t, []) ∧
      Submitted i res.stamp (s.modSlot i fun r => { r with ship := some { rec with step := .stamp } }) t := by
    obtain ⟨t, ht, hsub⟩ := startStamp_settled hres hd hs (hw.pendingItem _)
    exact ⟨t, ht, hsub.congr (modShip_eq hship _)⟩
  have hitem (cmd : BusCmd) : ∃ t, submit i cmd .shipUnit s = (t, []) ∧
      Submitted i cmd (s.modSlot i fun r => { r with ship := some rec }) t := by
    rw [modSlot_ship_self hship]
    exact submit_submitted .shipUnit hd hs hw
  simp only [act, shipNext, hship]
  cases hsel : rec.selected[rec.position]? with
  | some it =>
    obtain hwrite | hread := hstep
    · rw [ShipRec.onward_write hwrite hsel, hwrite]
      exact hitem _
    · rw [ShipRec.onward_read hread hsel, hread]
      exact hitem _
  | none =>
    have hend : rec.selected.length ≤ rec.position := List.getElem?_eq_none_iff.1 hsel
    obtain hwrite | hread := hstep
    · rw [hwrite]
      cases hitems : rec.selected with
      | nil =>
        rw [ShipRec.onward_nothing hwrite hitems]
        exact hstamp
      | cons first rest =>
        rw [ShipRec.onward_written hwrite hitems hend]
        dsimp only
        rw [modShip_eq hship]
        exact submit_submitted .shipUnit (by simpa using hd) (by simpa using hs) hw
    · rw [ShipRec.onward_readBack hread hend, hread]
      exact hstamp
end

/-! ## A step that submits the next (R193, R194) -/

theorem SlotWindow.noWork_replied {s : State} {i : Slot} {n : NodeIx} {d : DrivePart} {cmd : BusCmd} {owner : Owner}
    (h : SlotWindow s i n d cmd owner) (wire : Bool) : NoWork (replied (shelfOf i) wire s) i := by
  obtain ⟨-, -, -, -, hwork⟩ := h
  intro it hit
  rw [replied, closing_work, releaseWire_work] at hit
  exact hwork it hit

section
variable {s : State} {i : Slot} {n : NodeIx} {d : DrivePart} {cmd : BusCmd} (h : SlotWindow s i n d cmd .shipUnit)
include h

/-- What is left once the sequence has taken a reply and submitted its next item: the drive has answered, and the arbiter
chooses. -/
theorem SlotWindow.goesOn {next : BusCmd} {rec : ShipRec} {body : List Byte} {fields : ReplyFields} {v : State} {m : Nat}
    (wire : Bool) (hc : classOf cmd.kind = .ship) (hlen : body.length ≤ 60) (hok : bodyLengthOk cmd.kind body = true)
    (hf : replyFields cmd.kind body = some fields) (hm : m ≤ 8)
    (hv : carryOut m [.answered (slotItem i cmd .shipUnit) (.done fields)] (replied (shelfOf i) wire s) = some v)
    (hsub : Submitted i next ((replied (shelfOf i) wire s).modSlot i fun r => { r with ship := some rec }) v) :
    ∃ t, exec (.replyFrameReceived (shelfOf i) (busReply n cmd.kind body) wire) s = .next t ∧ OtherSlotsSame s t i ∧
      t.slot i = { s.slot i with drive := some { d with missed := 0 }, ship := some rec } ∧ SlotPending t i next := by
  obtain ⟨-, hdrive, -, -, -⟩ := id h
  have hslot (j : Slot) : v.slot j =
      ((replied (shelfOf i) wire s).modSlot i fun r => { r with ship := some rec }).slot j := hsub.bus.slot j
  have hvi : v.slot i = { s.slot i with ship := some rec } := by
    rw [hslot, State.modSlot_slot, replied_slot]
  have hvd : (v.slot i).drive = some d := by rw [hvi]; exact hdrive
  have hts (j : Slot) : (startTx (choose (shelfOf i) (answeredDrive i v))).slot j = (answeredDrive i v).slot j := by
    rw [startTx_slot, (choose_busOnly _ _).slot]
  have hending : (v.shelf (shelfOf i)).phase = .ending := by
    have hreplied := replied_phase (shelfOf i) wire s
    rw [hsub.phase (by rw [State.modSlot_shelf, hreplied]; exact nofun), State.modSlot_shelf, hreplied]
  have hsole : SolePending (answeredDrive i v) i next := hsub.pending.congr rfl rfl
  refine ⟨startTx (choose (shelfOf i) (answeredDrive i v)), ?_, fun j hj => ?_, ?_, ?_⟩
  · have hfree : carryOut 1 [.wireFree (shelfOf i)] (answeredDrive i v) =
        some (choose (shelfOf i) (answeredDrive i v)) := rfl
    refine (h.reply hc wire hlen hok hf).trans (conclude_of (n := m + 2) (by simp only [Config.tellBound]; omega) ?_)
    exact carryOut_append (l₁ := [.answered (slotItem i cmd .shipUnit) (.done fields)]) hv
      (carryOut_append (l₁ := [.counted i (.done fields) true]) (counted_done (by rw [hvd]; rfl) ..) hfree)
  · rw [hts, answeredDrive, State.modDrive_slot_ne _ hj, hslot, State.modSlot_slot_ne _ hj, replied_slot]
  · rw [hts, answeredDrive, State.modDrive_slot, hvd, hvi]
    rfl
  · refine SlotPending.startTx (SolePending.slotPending (choose_solePending hsole ?_))
    have hphase : ((answeredDrive i v).shelf (shelfOf i)).phase = .ending := hending
    rw [hphase]
    rfl

/-- An item that has been taken is followed by what the sequence goes on to at the next position. -/
theorem SlotWindow.advances {rec : ShipRec} {res : Result} {body : List Byte} {fields : ReplyFields} (wire : Bool)
    (hship : (s.slot i).ship = some rec) (hres : (s.slot i).result = some res)
    (hstep : rec.step = .write ∨ rec.step = .read) (hc : classOf cmd.kind = .ship) (hlen : body.length ≤ 60)
    (hok : bodyLengthOk cmd.kind body = true) (hf : replyFields cmd.kind body = some fields)
    (hact : ∀ u, (u.slot i).ship = some rec →
      act (.answered (slotItem i cmd .shipUnit) (.done fields)) u = (advance i u, [.shipNext i])) :
    let out := rec.advanced.onward res
    ∃ t, exec (.replyFrameReceived (shelfOf i) (busReply n cmd.kind body) wire) s = .next t ∧ OtherSlotsSame s t i ∧
      t.slot i = { s.slot i with drive := some { d with missed := 0 }, ship := some out.1 } ∧ SlotPending t i out.2 := by
  obtain ⟨-, hdrive, -, hsilent, -⟩ := id h
  have hship' : ((replied (shelfOf i) wire s).slot i).ship = some rec := by rw [replied_slot]; exact hship
  let z := (replied (shelfOf i) wire s).modSlot i fun r => { r with ship := some rec.advanced }
  have hz : advance i (replied (shelfOf i) wire s) = z := modShip_eq hship' _
  have hzslot : z.slot i = { s.slot i with ship := some rec.advanced } := by
    rw [State.modSlot_slot, replied_slot]
  have hzwork : NoWork z i := h.noWork_replied wire
  obtain ⟨v, hv, hsub⟩ := shipNext_submitted (s := z) (rec := rec.advanced) (res := res) (by rw [hzslot])
    (by rw [hzslot]; exact hres) hstep (by rw [hzslot]; simp [hdrive]) (by rw [hzslot]; exact hsilent) hzwork
  refine h.goesOn wire hc hlen hok hf (m := 2) (by decide) (carryOut_act (hact _ hship') ?_) (hsub.congr ?_)
  · rw [hz]
    exact carryOut_quiet hv
  · simp only [z, State.modSlot_modSlot]
    rfl
end

/-- The drive has taken the STAMP: PARK is submitted (R194). -/
theorem SlotWindow.stamped {s : State} {i : Slot} {n : NodeIx} {d : DrivePart} {rec : ShipRec} {bin : BinIx}
    {rule planId dose : Nat} {stop : StopReason} (h : SlotWindow s i n d (.stamp bin rule planId dose stop) .shipUnit)
    (wire : Bool) (hship : (s.slot i).ship = some rec) (hstep : rec.step = .stamp) :
    ∃ t, exec (.replyFrameReceived (shelfOf i) (busReply n .stamp []) wire) s = .next t ∧ OtherSlotsSame s t i ∧
      t.slot i = { s.slot i with drive := some { d with missed := 0 }, ship := some { rec with step := .park } } ∧
      SlotPending t i .park := by
  obtain ⟨-, hdrive, -, hsilent, -⟩ := id h
  let u := replied (shelfOf i) wire s
  have hu : u.slot i = s.slot i := replied_slot ..
  have hship' : (u.slot i).ship = some rec := by rw [hu]; exact hship
  obtain ⟨v, hv, hsub⟩ := submit_submitted (i := i) (cmd := .park) .shipUnit
    (s := u.modSlot i fun r => { r with ship := some { rec with step := .park } }) (by simp [hu, hdrive]) (by simpa [hu] using hsilent) (h.noWork_replied wire)
  have hact : act (.answered (slotItem i (.stamp bin rule planId dose stop) .shipUnit) (.done .ack)) u = (v, []) := by
    rw [← hv]
    simp only [act, answerOwner, slotItem, shipAnswered, hship', hstep, modShip_eq hship']
  exact h.goesOn (body := []) (fields := .ack) wire rfl (by decide) rfl rfl (by decide) (carryOut_quiet hact) hsub

/-! ## PARK (R194) -/

/-- The sequence at POWER_OFF is complete once its slot is off: the result is shipped, and the slot released to the
operator (R194, R10, R18). -/
theorem shipComplete_released {i : Slot} {s : State} {rec : ShipRec} (hship : (s.slot i).ship = some rec)
    (hstep : rec.step = .powerOff) :
    act (.shipComplete i true) s =
      (raiseSlot i .shipped (unlocked i ((modResult i (fun res => { res with shipped := true }) s).modSlot i fun r =>
        { r with ship := none, diverted := false })), []) := by
  simp only [act, shipComplete, hship, hstep, if_true]
  rfl

/-- A slot released as another state shows it too. -/
theorem ReleasedWithoutDrive.of_slot {r s t : State} {i : Slot} (h : ReleasedWithoutDrive r s i)
    (hslot : t.slot i = s.slot i) (hqueue : (t.shelf (shelfOf i)).queue = (s.shelf (shelfOf i)).queue) :
    ReleasedWithoutDrive r t i := by
  unfold ReleasedWithoutDrive at h ⊢
  rwa [hslot, hasEntry_congr hqueue]

/-- What the end of a sequence leaves of its slot: off and released, its result shipped and its place kept (R194). -/
structure Shipped (i : Slot) (res : Result) (s t : State) : Prop where
  released : ReleasedWithoutDrive s t i
  adm : (t.slot i).adm = .off
  result : (t.slot i).result = some { res with shipped := true }
  ship : (t.slot i).ship = none
  diverted : (t.slot i).diverted = false
  place : (t.slot i).reservation = (s.slot i).reservation
  node : ∀ d, (s.slot i).drive = some d → (t.shelf (shelfOf i)).nodes[d.node] = .free
  flag : flagSet t (slotScope i) (slotFlagBit .shipped) = true

/-- The power-off that ends a sequence, and what follows its answer (R194). -/
theorem shipPowerOff_shipped {i : Slot} {s : State} {rec : ShipRec} {res : Result} (hship : (s.slot i).ship = some rec)
    (hres : (s.slot i).result = some res) (hd : (s.slot i).drive.isSome) (hc : (s.slot i).cls ≠ .off) (hw : NoWork s i) :
    ∃ t, carryOut 5 [.shipPowerOff i true] s = some t ∧ Shipped i res s t := by
  let v := modShip i (fun rec => { rec with step := .powerOff }) s
  have hv : v.slot i = { s.slot i with ship := some { rec with step := .powerOff } } := by
    simp only [v, modShip_eq hship, State.modSlot_slot]
  obtain ⟨u, hu, hoff⟩ := powerOff_on (i := i) (s := v) (by rw [hv]; exact hc) (.inr hw)
  have hcls : (u.slot i).cls = .off := by rw [hu.slot]; rfl
  have hushipped : (u.slot i).ship = some { rec with step := .powerOff } := by rw [hu.slot, hv]; rfl
  have hures : (u.slot i).result = some res := by rw [hu.slot, hv]; exact hres
  have hattn : (u.slot i).attn = none := hu.attn (.inl (by rw [hv]; exact hd))
  let w := (modResult i (fun res => { res with shipped := true }) u).modSlot i fun r =>
    { r with ship := none, diverted := false }
  have hw : w.slot i = { u.slot i with
      result := some { res with shipped := true }, ship := none, diverted := false } := by
    simp only [w, modResult, State.modSlot_slot, hures, Option.map_some]
  have hwcls : (w.slot i).cls = .off := by rw [hw]; exact hcls
  have hnow : w.now = s.now := hu.changed.now_eq
  have hrel : ReleasedWithoutDrive w (unlocked i w) i :=
    .of_unlocked hwcls hu.not_queued (by rw [hw, hu.slot]; rfl) (by rw [hw]; exact hattn)
  have hunlocked := unlocked_eq (s := w) hwcls hu.not_queued
  have hslot : (raiseSlot i .shipped (unlocked i w)).slot i =
      { (w.slot i).movedTo .removeReady with unlocked := true, unlockTimer := some (w.now + 120000) } := by
    rw [raiseSlot_slot, hunlocked, State.modSlot_slot]
  refine ⟨raiseSlot i .shipped (unlocked i w), ?_, ?_⟩
  · have hact : act (.shipPowerOff i true) s = (v, [.powerOff i] ++ [.shipComplete i true]) := rfl
    exact carryOut_act hact (carryOut_append hoff (carryOut_quiet (shipComplete_released hushipped rfl)))
  · exact {
      released := (hrel.congr hnow).of_slot (raiseSlot_slot ..) (by rw [raiseSlot_shelf])
      adm := by rw [hslot]; simp only [SlotRec.movedTo_adm]; rw [hw, hu.slot]; rfl
      result := by rw [hslot]; simp only [SlotRec.movedTo_result]; rw [hw]
      ship := by rw [hslot]; simp only [SlotRec.movedTo_ship]; rw [hw]
      diverted := by rw [hslot]; simp only [SlotRec.movedTo_diverted]; rw [hw]
      place := by rw [hslot]; simp only [SlotRec.movedTo_reservation]; rw [hw, hu.slot, hv]; rfl
      node := fun d hdrive => by
        rw [raiseSlot_shelf, hunlocked]
        exact hu.node d (by rw [hv]; exact hdrive)
      flag := flagSet_raiseSlot .. }

/-- The drive has parked: the sequence is complete (R194). -/
theorem SlotWindow.parked {s : State} {i : Slot} {n : NodeIx} {d : DrivePart} {rec : ShipRec} {res : Result}
    (h : SlotWindow s i n d .park .shipUnit) (wire : Bool) (hship : (s.slot i).ship = some rec) (hstep : rec.step = .park)
    (hres : (s.slot i).result = some res) (hc : (s.slot i).cls ≠ .off) :
    ∃ t, exec (.replyFrameReceived (shelfOf i) (busReply n .park []) wire) s = .next t ∧ Shipped i res s t := by
  obtain ⟨-, hdrive, -, -, -⟩ := id h
  let u := replied (shelfOf i) wire s
  have hu : u.slot i = s.slot i := replied_slot ..
  have hact : act (.answered (slotItem i .park .shipUnit) (.done .ack)) u = (u, [.shipPowerOff i true]) := by
    simp only [act, answerOwner, slotItem, shipAnswered, hu, hship, hstep]
  obtain ⟨v, hv, hshipped⟩ := shipPowerOff_shipped (s := u) (by rw [hu]; exact hship) (by rw [hu]; exact hres)
    (by rw [hu, hdrive]; rfl) (by rw [hu]; exact hc) (h.noWork_replied wire)
  obtain ⟨-, -, -, -, hgone, -, -⟩ := id hshipped.released
  have hcounted : act (.counted i (.done .ack) true) v = (v, []) := by simp only [act, countMissed, hgone]
  have hfree : carryOut 1 [.wireFree (shelfOf i)] v = some (choose (shelfOf i) v) := rfl
  have hbus := choose_busOnly (shelfOf i) v
  have hslot : (startTx (choose (shelfOf i) v)).slot i = v.slot i := by rw [startTx_slot, hbus.slot]
  refine ⟨startTx (choose (shelfOf i) v), ?_, ?_⟩
  · refine (h.reply (body := []) (fields := .ack) rfl wire (by decide) rfl rfl).trans
      (conclude_of (n := 8) (by decide) ?_)
    exact carryOut_append (l₁ := [.answered (slotItem i .park .shipUnit) (.done .ack)]) (carryOut_act hact hv)
      (carryOut_append (l₁ := [.counted i (.done .ack) true]) (carryOut_quiet hcounted) hfree)
  · exact {
      released := (hshipped.released.congr rfl).of_slot hslot (by rw [startTx_shelf, hbus.queue])
      adm := by rw [hslot]; exact hshipped.adm
      result := by rw [hslot]; exact hshipped.result
      ship := by rw [hslot]; exact hshipped.ship
      diverted := by rw [hslot]; exact hshipped.diverted
      place := by rw [hslot, hshipped.place, hu]
      node := fun d hd => by
        rw [startTx_shelf, hbus.nodes]
        exact hshipped.node d (by rw [hu]; exact hd)
      flag := by rw [flagSet_startTx, flagSet_congr hbus.flags]; exact hshipped.flag }

/-! ## The statement -/

/-- Settles O59: the answers of WRITE and READ by what the sequence goes on to, those of STAMP and PARK by what they
lead to. -/
theorem shipStepsAdvance : Obligations.ShipStepsAdvance := by
  unfold Obligations.ShipStepsAdvance
  intro i s n d rec res b wire hship hres hbin
  refine ⟨fun id value hstep h => ?_, fun id item value hstep h hitem hlen hvalue => ?_,
    fun bin rule planId dose stop hstep h => ?_, fun hstep h hc => ?_⟩
  · obtain ⟨t, ht, hothers, hslot, hpending⟩ := h.advances (body := []) (fields := .ack) wire hship hres (.inl hstep) rfl
      (by decide) rfl rfl fun u hu => by simp only [act, answerOwner, slotItem, shipAnswered, hu, hstep]
    refine ⟨t, ht, hothers, fun it hit => ?_, fun first rest hsel hend => ?_⟩
    · rw [ShipRec.onward_write (rec := rec.advanced) hstep hit] at hslot hpending
      exact ⟨hslot, hpending⟩
    · rw [ShipRec.onward_written (rec := rec.advanced) hstep hsel hend] at hslot hpending
      exact ⟨hslot, hpending⟩
  · have hfields : replyFields .readItem value = some (.value item.value) := by rw [← hvalue]; rfl
    obtain ⟨t, ht, hothers, hslot, hpending⟩ := h.advances (body := value) (fields := .value item.value) wire hship hres
      (.inr hstep) rfl (by omega) (decide_eq_true hlen) hfields fun u hu => by
        simp only [act, answerOwner, slotItem, shipAnswered, hu, hstep, hitem, if_true]
    refine ⟨t, ht, hothers, fun it hit => ?_, fun hend => ?_⟩
    · rw [ShipRec.onward_read (rec := rec.advanced) hstep hit] at hslot hpending
      exact ⟨hslot, hpending⟩
    · rw [ShipRec.onward_readBack (rec := rec.advanced) hstep hend, Result.stamp, hbin] at hpending
      rw [ShipRec.onward_readBack (rec := rec.advanced) hstep hend] at hslot
      exact ⟨hslot, hpending⟩
  · exact h.stamped wire hship hstep
  · obtain ⟨t, ht, hshipped⟩ := h.parked wire hship hstep hres hc
    obtain ⟨-, hdrive, -, -, -⟩ := id h
    exact ⟨t, ht, hshipped.released, hshipped.adm, hshipped.result, hshipped.ship, hshipped.diverted, hshipped.place,
      h.node ▸ hshipped.node d hdrive, hshipped.flag⟩

end Sys2Proof.Machine
end

section
/-! SUPPORT. What the commands do to the flags, the notice list, the request queue and the BUSY list, said once: a property of
these four that the few operations on them keep is kept by every command but EVENTS_CLEAR and RESET (R204, R207, R212, R217). -/

namespace Sys2Proof.Machine

/-- A property of the flags, the notice list, the request queue and the BUSY list. -/
abbrev LinkProp := Vector (BitVec 32) 28 → List Scope → List Request → List (Byte × Byte) → Prop

/-- The flags, the notice list, the request queue and the BUSY list of a state have a property. -/
def Shows (Q : LinkProp) (s : State) : Prop := Q s.flags s.notices s.requests s.busyList

/-- A property that the operations on these four keep: a flag that exists is set, a notice becomes pending or is taken, a
request is marked as served, and a request or a BUSY entry joins its list while there is room or leaves it at the head. -/
structure LinkKept (Q : LinkProp) : Prop where
  raiseSlot : ∀ {s : State} (i : Slot) (f : SlotFlag), Shows Q s → Shows Q (raiseSlot i f s)
  raiseShelf : ∀ {s : State} (k : Shelf) (f : ShelfFlag), Shows Q s → Shows Q (raiseShelf k f s)
  raiseController : ∀ {s : State} (f : ControllerFlag), Shows Q s → Shows Q (raiseController f s)
  makePending : ∀ {s : State} (c : Scope), Shows Q s → Shows Q (makePending c s)
  takeNotice : ∀ {s : State} {c : Scope} {rest : List Scope}, s.notices = c :: rest → Shows Q s →
    Shows Q { s with notices := rest }
  markServed : ∀ {s : State}, Shows Q s → Shows Q { s with requests := markServed s.requests }
  addRequest : ∀ {s : State} (q : Request), s.requests.length < 4 → Shows Q s →
    Shows Q { s with requests := s.requests ++ [q] }
  addBusy : ∀ {s : State} (x : Byte × Byte), s.busyList.length < 4 → Shows Q s →
    Shows Q { s with busyList := s.busyList ++ [x] }
  dropRequest : ∀ {s : State}, Shows Q s → Shows Q { s with requests := s.requests.drop 1 }
  dropBusy : ∀ {s : State}, Shows Q s → Shows Q { s with busyList := s.busyList.drop 1 }

/-! ## The operations of the blocks and of the link -/

theorem Handled.Keeps.ite {P : State → Prop} {c : Prop} [Decidable c] {a b : Handled} (ha : a.Keeps P) (hb : b.Keeps P) :
    (if c then a else b).Keeps P := by
  split <;> assumption

section
variable {Q : LinkProp} (hQ : LinkKept Q)
include hQ

/-- The blocks reach the four only by setting flags. -/
theorem Changed.shows {s t : State} (hc : Changed s t) (h : Shows Q s) : Shows Q t := by
  induction hc with
  | refl => exact h
  | slots _ _ ih => exact ih
  | shelves _ _ ih => exact ih
  | bins _ _ ih => exact ih
  | raiseSlot _ _ _ ih => exact hQ.raiseSlot _ _ ih
  | raiseShelf _ _ _ ih => exact hQ.raiseShelf _ _ ih
  | raiseController _ _ ih => exact hQ.raiseController _ ih

theorem LinkKept.loose : Loose (Shows Q) := .of_changed (Changed.shows hQ)

variable {s : State} (h : Shows Q s)
include h

theorem startTx_shows : Shows Q (startTx s) := by
  unfold startTx
  split
  · exact h
  · split
    · exact h
    · split
      · exact h
      · next hn => exact hQ.takeNotice hn h
      · exact h

theorem arrive_shows (kind tag : Byte) (p : List Byte) : Shows Q (arrive kind tag p s) := by
  unfold arrive
  split
  · next hroom => exact hQ.addRequest _ hroom h
  · split
    · next hroom => exact hQ.addBusy _ hroom h
    · exact hQ.raiseController _ h

theorem frameEnded_shows (f : TxFrame) : Shows Q (frameEnded f s) := by
  cases f with
  | startup => exact h
  | notice => exact h
  | reply => exact hQ.dropRequest h
  | busyReply => exact hQ.dropBusy h

theorem setEnables_shows (c : Scope) (set : BitVec 32) : Shows Q (setEnables c set s) :=
  have hs : Shows Q { s with enables := s.enables.set c set } := h
  ite_keeps hs (hQ.makePending c hs)

theorem abandon_shows : Shows Q (abandon s) :=
  have hs : Shows Q { s with held := [] } := h
  hQ.raiseController _ hs

theorem takeByte_shows (b : Byte) : Shows Q (takeByte b s).1 := by
  unfold takeByte
  split
  · exact ite_keeps (P := Shows Q) h h
  · exact ite_keeps (P := Shows Q) h (abandon_shows hQ h)
  · dsimp only
    split
    · exact h
    · split
      · exact arrive_shows (s := { s with held := [] }) hQ h _ _ _
      · exact abandon_shows hQ h
end

section
variable {Q : LinkProp} (hQ : LinkKept Q)
include hQ

theorem takeBytes_shows (n : Nat) (l : List Byte) {s : State} (h : Shows Q s) : Shows Q (takeBytes n l s) := by
  induction n generalizing l s with
  | zero => exact h
  | succ n ih =>
    cases l with
    | nil => exact h
    | cons b l => exact ih _ (takeByte_shows hQ h b)

theorem receiveByte_shows (b : Byte) {s : State} (h : Shows Q s) : Shows Q (receiveByte b s) :=
  takeBytes_shows (s := { s with lastHostByte := s.now }) hQ _ _ h

theorem receiveBroken_shows {s : State} (h : Shows Q s) : Shows Q (receiveBroken s) :=
  ite_keeps (P := Shows Q) h (abandon_shows (s := { s with lastHostByte := s.now }) hQ h)

theorem conclude_shows {x : State × List Tell} (h : Shows Q x.1) : Leaves (Shows Q) (conclude x) := by
  intro t ht
  unfold conclude at ht
  split at ht
  · next u hu =>
    cases ht
    exact startTx_shows hQ (carryOut_kept hQ.loose.kept h hu)
  · cases ht

theorem answerRequest_shows {kind tag : Byte} {f : State → Handled} {s : State} (hf : (f s).Keeps (Shows Q))
    (h : Shows Q s) : Leaves (Shows Q) (answerRequest kind tag f s) := by
  have hreply : ∀ (r : TxFrame) {u : State}, Shows Q u → Shows Q (startTx (addReply r u)) :=
    fun r u hu => startTx_shows (s := addReply r u) hQ hu
  intro t ht
  unfold answerRequest at ht
  revert hf ht
  cases f s with
  | refuse status =>
    intro _ ht
    cases ht
    exact hreply _ h
  | take s' tells body =>
    intro hf ht
    dsimp only at ht
    split at ht
    · next u hu =>
      cases ht
      have hu' : Shows Q u := carryOut_kept hQ.loose.kept hf hu
      exact hreply _ hu'
    · cases ht

/-- A request leaves the property if its handling keeps it. -/
theorem serve_shows {kind tag : Byte} {p : List Byte} {f : State → Handled} {s : State}
    (hf : ∀ u, Shows Q u → (f u).Keeps (Shows Q)) (h : Shows Q s) : Leaves (Shows Q) (serve kind tag p f s) := by
  unfold serve
  split
  · split
    · exact answerRequest_shows hQ (hf _ (hQ.markServed h)) (hQ.markServed h)
    · exact leaves_next h
  · split
    · next hroom => exact answerRequest_shows hQ (hf _ (hQ.addRequest _ hroom h)) (hQ.addRequest _ hroom h)
    · exact leaves_next (startTx_shows hQ (arrive_shows hQ h _ _ _))
end

/-! ## The requests -/

section
variable {Q : LinkProp} (hQ : LinkKept Q) {u : State} (h : Shows Q u) (p : List Byte)
include h

theorem vectorSet_shows : (handleVectorSet p u).Keeps (Shows Q) := by
  refine withLength_stays (.ite trivial ?_)
  split
  · exact h
  · trivial

theorem consoleSet_shows : (handleConsoleSet p u).Keeps (Shows Q) := by
  refine withLength_stays (withShelf_stays fun k => ?_)
  split
  · exact h
  · trivial

theorem phaseLoad_shows : (handlePhaseLoad p u).Keeps (Shows Q) := by
  refine withLength_stays (withPlan_stays fun n => .ite trivial ?_)
  split
  · trivial
  · exact .ite trivial h

theorem signatureLoad_shows : (handleSignatureLoad p u).Keeps (Shows Q) := by
  refine .ite trivial (withPlan_stays fun n => .ite trivial ?_)
  split
  · trivial
  · exact .ite trivial (.ite trivial h)

theorem ruleLoad_shows : (handleRuleLoad p u).Keeps (Shows Q) := by
  refine withLength_stays (withBin_stays fun b => ?_)
  split
  · trivial
  · exact .ite trivial h

theorem slotArm_shows : (handleSlotArm p u).Keeps (Shows Q) := by
  refine withLength_stays (withSlot_stays fun i => ?_)
  split
  · trivial
  · exact .ite h (withPlan_stays fun m => .ite trivial h)

theorem slotRead_shows : (handleSlotRead p u).Keeps (Shows Q) := by
  refine withLength_stays (withSlot_stays fun i => ?_)
  dsimp only
  split
  · exact h
  · exact h
  · exact h
  · trivial

theorem attnAck_shows : (handleAttnAck p u).Keeps (Shows Q) := by
  refine withLength_stays (withSlot_stays fun i => ?_)
  split
  · exact .ite h trivial
  · trivial

theorem eventsRead_shows : (handleEventsRead p u).Keeps (Shows Q) := by
  refine withLength_stays (.ite h ?_)
  split
  · exact h
  · trivial

include hQ

theorem shelfSet_shows : (handleShelfSet p u).Keeps (Shows Q) := by
  refine withLength_stays (withShelf_stays fun k => .ite ?_ trivial)
  have hr : Shows Q (replaceShelf k p u) := h
  exact .ite ((disableShelf_changed k (.refl _)).shows hQ hr)
    (.ite hr ((shed_changed k (.refl _)).shows hQ hr))

theorem busSet_shows : (handleBusSet p u).Keeps (Shows Q) := by
  refine withLength_stays (withShelf_stays fun k => .ite ?_ trivial)
  have hs : Shows Q (u.modShelf k fun sh => { sh with pollSecs := field8 p 1 }) := h
  exact (foldl_changed (fun _ _ i hc => modSlot_changed i _ hc) _ (.refl _)).shows hQ hs

theorem shelfRestart_shows : (handleShelfRestart p u).Keeps (Shows Q) :=
  withLength_stays (withShelf_stays fun _ => foldl_keeps (fun _ _ ht => restartSlot_keeps hQ.loose.toPlain _ ht) _ h)

theorem keyLoad_shows : (handleKeyLoad p u).Keeps (Shows Q) := by
  have hs : Shows Q { u with wakePattern := p.drop 1 } := h
  exact .ite trivial (.ite trivial (.ite trivial
    (foldl_keeps (fun _ k ht => keyLoaded_keeps hQ.loose k ht) _ hs)))

theorem binSet_shows : (handleBinSet p u).Keeps (Shows Q) := by
  refine withLength_stays (withBin_stays fun b => .ite trivial (.ite h (.ite ?_ h)))
  exact ite_keeps (P := Shows Q) (hQ.raiseController .binFull (s := u.modBin b _) h) h

theorem slotEnable_shows : (handleSlotEnable p u).Keeps (Shows Q) := by
  refine withLength_stays (withSlot_stays fun i => ?_)
  split
  · trivial
  · next on _ =>
    have hon : Shows Q (u.modSlot i fun r => { r with enabled := on }) := h
    exact .ite h (.ite hon (ite_keeps (P := Shows Q)
      (setOcc_keeps hQ.loose.toPlain i _ (hQ.loose.withdrawEntry i .power hon)) hon))

theorem slotUnlock_shows : (handleSlotUnlock p u).Keeps (Shows Q) :=
  withLength_stays (withSlot_stays fun i => .ite trivial (unlock_keeps hQ.loose.toPlain i h))

end

/-! ## The lines, the timers and the buses -/

section
variable {Q : LinkProp} (hQ : LinkKept Q) {s : State} (h : Shows Q s)
include hQ h

theorem presenceSettles_shows (i : Slot) : Shows Q (presenceSettles i s).1 := by
  have hs : Shows Q (s.modSlot i fun r => { r with presTimer := none, present := r.presRaw }) := h
  exact ite_fst_keeps (P := Shows Q) hs (ite_fst_keeps (ite_fst_keeps (insertion_keeps hQ.loose.toPlain i hs) hs)
    (removal_keeps hQ.loose.toPlain i hs))

theorem activitySettles_shows (i : Slot) : Shows Q (activitySettles i s) :=
  have hs : Shows Q (s.modSlot i fun r => { r with actTimer := none, active := r.actRaw }) := h
  ite_keeps hs (activityEdge_keeps hQ.loose i _ hs)

theorem supplySettles_shows (k : Shelf) (line : SupplyLine) : Shows Q (supplySettles k line s).1 := by
  have hs : Shows Q (s.modShelf k (supplyLevel line)) := h
  have hflags := supplyFlags_keeps (fun _ f hu => hQ.raiseShelf k f hu) (s.shelf k) (supplyLevel line (s.shelf k)) hs
  rw [supplySettles_eq]
  exact ite_fst_keeps (P := Shows Q) hflags ((limitChanged_changed k (.refl _)).shows hQ hflags)

theorem bootDone_shows (i : Slot) : Shows Q (bootDone i s) :=
  have hs : Shows Q (s.modSlot i fun r => { r with bootTimer := none, adm := .attaching }) := h
  joinSet_keeps hQ.loose i (ite_keeps (P := Shows Q) (setOcc_keeps hQ.loose.toPlain i _ hs) hs)

theorem noWinner_shows (k : Shelf) (v : BitVec 4) (wire : Bool) : Shows Q (noWinner k v wire s) :=
  have hflag := ite_keeps (c := wire = true ∨ v ≠ BitVec.allOnes 4) (hQ.raiseShelf k .busFault h) h
  ite_keeps (P := Shows Q) hflag hflag

theorem badReplyFlag_shows (k : Shelf) (f : Flight) : Shows Q (badReplyFlag k f s) := by
  unfold badReplyFlag
  split
  · exact hQ.raiseSlot _ _ h
  · exact hQ.raiseShelf _ _ h

/-- The end of a transaction on the data wire. -/
theorem endTransaction_shows (k : Shelf) (f : Flight) (a : Answer) :
    Leaves (Shows Q) (conclude (endTransaction k f a s)) :=
  conclude_shows hQ (endTransaction_keeps hQ.loose.toPlain k f a h)

/-- Every command but EVENTS_CLEAR and RESET leaves such a property. -/
theorem exec_shows (c : Instr) (hreset : c ≠ .reset) (hclear : ∀ tag p, c ≠ .eventsClear tag p) :
    Leaves (Shows Q) (exec c s) := by
  have hP := hQ.loose.toPlain
  have hended : ∀ (u : State) (l : List Tell), Shows Q u → Leaves (Shows Q) (conclude (u, l)) :=
    fun u l hu => conclude_shows (x := (u, l)) hQ hu
  have htaken : ∀ i kind, Leaves (Shows Q) (conclude (takeReport i kind s)) :=
    fun i kind => conclude_shows hQ (takeReport_keeps hP i kind h)
  cases c with
  | reset => exact absurd rfl hreset
  | eventsClear tag p => exact absurd rfl (hclear tag p)
  -- The host link.
  | hostFrameReceived b => exact hended (receiveByte b s) [] (receiveByte_shows hQ b h)
  | hostByteReceived b => exact hended (receiveByte b s) [] (receiveByte_shows hQ b h)
  | hostFrameAbandoned b framing =>
    exact hended (if framing then receiveBroken s else receiveByte b s) []
      (ite_keeps (receiveBroken_shows hQ h) (receiveByte_shows hQ b h))
  | hostByteGapExpiry => exact leaves_ite (leaves_next h) (hended _ _ (abandon_shows hQ h))
  | txFrameEnd =>
    dsimp only [exec, execTxFrameEnd]
    split
    · exact leaves_next h
    · exact leaves_next (startTx_shows hQ (frameEnded_shows (s := { s with tx := none }) hQ h _))
  -- The requests.
  | unknownKind kind tag p => exact leaves_ite (leaves_next h) (serve_shows hQ (fun _ _ => trivial) h)
  | identify tag p => exact serve_shows (f := handleIdentify p) hQ (fun _ hu => withLength_stays hu) h
  | shelfSet tag p => exact serve_shows hQ (fun _ hu => shelfSet_shows hQ hu p) h
  | shelfRead tag p =>
    exact serve_shows (f := handleShelfRead p) hQ (fun _ hu => withLength_stays (withShelf_stays fun _ => hu)) h
  | shelfRestart tag p => exact serve_shows hQ (fun _ hu => shelfRestart_shows hQ hu p) h
  | busSet tag p => exact serve_shows hQ (fun _ hu => busSet_shows hQ hu p) h
  | consoleSet tag p => exact serve_shows hQ (fun _ hu => consoleSet_shows hu p) h
  | keyLoad tag p => exact serve_shows hQ (fun _ hu => keyLoad_shows hQ hu p) h
  | vectorSet tag p => exact serve_shows hQ (fun _ hu => vectorSet_shows hu p) h
  | planLoad tag p =>
    exact serve_shows (f := handlePlanLoad p) hQ
      (fun _ hu => withLength_stays (withPlan_stays fun _ => .ite trivial (.ite trivial hu))) h
  | phaseLoad tag p => exact serve_shows hQ (fun _ hu => phaseLoad_shows hu p) h
  | signatureLoad tag p => exact serve_shows hQ (fun _ hu => signatureLoad_shows hu p) h
  | ruleLoad tag p => exact serve_shows hQ (fun _ hu => ruleLoad_shows hu p) h
  | rulesSet tag p =>
    exact serve_shows (f := handleRulesSet p) hQ
      (fun _ hu => withLength_stays (withBin_stays fun _ => withBin_stays fun _ => .ite trivial hu)) h
  | shipItemLoad tag p =>
    exact serve_shows (f := handleShipItemLoad p) hQ
      (fun _ hu => withLength_stays (.ite trivial (.ite trivial hu))) h
  | shipListSet tag p =>
    exact serve_shows (f := handleShipListSet p) hQ
      (fun _ hu => withLength_stays (.ite trivial (.ite trivial (.ite trivial hu)))) h
  | segmentSet tag p =>
    exact serve_shows (f := handleSegmentSet p) hQ
      (fun _ hu => withLength_stays (withSlot_stays fun _ => .ite trivial (.ite trivial hu))) h
  | binSet tag p => exact serve_shows hQ (fun _ hu => binSet_shows hQ hu p) h
  | binRead tag p =>
    exact serve_shows (f := handleBinRead p) hQ (fun _ hu => withLength_stays (withBin_stays fun _ => hu)) h
  | toteSwap tag p =>
    exact serve_shows (f := handleToteSwap p) hQ (fun _ hu => withLength_stays (withBin_stays fun _ => hu)) h
  | slotEnable tag p => exact serve_shows hQ (fun _ hu => slotEnable_shows hQ hu p) h
  | slotArm tag p => exact serve_shows hQ (fun _ hu => slotArm_shows hu p) h
  | slotStart tag p => exact serve_shows hQ (fun _ hu => slotStart_stays hu p) h
  | slotAbort tag p => exact serve_shows hQ (fun _ hu => slotAbort_stays hu p) h
  | slotUnlock tag p => exact serve_shows hQ (fun _ hu => slotUnlock_shows hQ hu p) h
  | slotLocate tag p =>
    exact serve_shows (f := handleSlotLocate p) hQ (fun _ hu => withLength_stays (withSlot_stays fun _ => hu)) h
  | slotRetire tag p =>
    exact serve_shows (f := handleSlotRetire p) hQ
      (fun _ hu => withLength_stays (withSlot_stays fun _ => .ite hu trivial)) h
  | slotRead tag p => exact serve_shows hQ (fun _ hu => slotRead_shows hu p) h
  | attnAck tag p => exact serve_shows hQ (fun _ hu => attnAck_shows hu p) h
  | defectRead tag p =>
    exact serve_shows (f := handleDefectRead p) hQ
      (fun _ hu => withLength_stays (withSlot_stays fun _ => .ite trivial hu)) h
  | headRead tag p =>
    exact serve_shows (f := handleHeadRead p) hQ
      (fun _ hu => withLength_stays (withSlot_stays fun _ => .ite trivial hu)) h
  | consoleRead tag p =>
    exact serve_shows (f := handleConsoleRead p) hQ
      (fun _ hu => withLength_stays (withSlot_stays fun _ => .ite trivial hu)) h
  | eventsRead tag p => exact serve_shows hQ (fun _ hu => eventsRead_shows hu p) h
  | eventsEnable tag p =>
    exact serve_shows (f := handleEventsEnable p) hQ
      (fun _ hu => withLength_stays (withFlagSet_stays fun c set => setEnables_shows hQ hu c set)) h
  -- The lines and the timers of the slots and shelves.
  | presenceLineChange i level => exact leaves_ite (leaves_next h) (leaves_next h)
  | presenceDebounceExpiry i => exact leaves_ite (leaves_next h) (conclude_shows hQ (presenceSettles_shows hQ h i))
  | activityLineChange i level => exact leaves_ite (leaves_next h) (leaves_next h)
  | activityDebounceExpiry i => exact leaves_ite (leaves_next h) (leaves_next (activitySettles_shows hQ h i))
  | supplyLineChange k line level => exact leaves_next h
  | supplyDebounceExpiry k line => exact leaves_ite (leaves_next h) (conclude_shows hQ (supplySettles_shows hQ h k line))
  | spinWindowExpiry i =>
    have hs : Shows Q (s.modSlot i fun r => { r with spinTimer := none }) := h
    exact leaves_ite (leaves_next h) (conclude_shows hQ (hP.windowExpired i hs))
  | bootDelayExpiry i => exact leaves_ite (leaves_next h) (hended _ _ (bootDone_shows hQ h i))
  | attachDeadlineExpiry i =>
    have hs : Shows Q (s.modSlot i fun r => { r with deadline := some .expired }) := h
    dsimp only [exec, execAttachDeadlineExpiry]
    split
    · exact hended _ _ (hQ.raiseSlot i .attachFailed hs)
    · exact leaves_next h
  | attachPauseExpiry k =>
    dsimp only [exec, execAttachPauseExpiry]
    split
    · exact conclude_shows hQ (nextRound_keeps hQ.loose k h)
    · exact leaves_next h
  | unlockHoldExpiry i => exact leaves_ite (leaves_next h) (leaves_next h)
  | locateOverrideExpiry i => exact leaves_next h
  | resetPulseEnd i => exact leaves_ite (leaves_next h) (leaves_next h)
  | consoleByteArrival i b => exact leaves_ite (hended _ _ (byteArrived_keeps hP i b h)) (leaves_next h)
  | consoleFramingError i => exact leaves_ite (leaves_next (framingError_keeps hP i h)) (leaves_next h)
  | consoleStartGlitch i => exact leaves_ite (leaves_next h) (leaves_next h)
  | consoleLineChange i level => exact leaves_next h
  -- The factory buses and the attention wires.
  | quietTimeMet k =>
    dsimp only [exec, execQuietTimeMet]
    split
    · exact leaves_ite (leaves_next h) (leaves_next h)
    · exact leaves_next h
  | commandFrameEnd k =>
    have hs : Shows Q (releaseWire k s) := h
    dsimp only [exec, execCommandFrameEnd]
    split
    · exact leaves_ite (endTransaction_shows hQ hs k _ _) (leaves_next h)
    · exact leaves_next h
  | contestEnd k v =>
    have hs : Shows Q (releaseWire k s) := h
    dsimp only [exec, execContestEnd]
    split
    · exact endTransaction_shows hQ hs k _ _
    · exact leaves_next h
  | attnQueryNodeRead k v wire =>
    have hs : Shows Q (setWire k wire (releaseWire k s)) := h
    dsimp only [exec, execAttnQueryNodeRead]
    split
    · split
      · exact leaves_next h
      · exact endTransaction_shows hQ (noWinner_shows hQ hs k v wire) k _ _
    · exact leaves_next h
  | replyFrameReceived k frame wire =>
    have hs : Shows Q (setWire k wire (releaseWire k s)) := h
    dsimp only [exec, execReplyFrameReceived]
    split
    · split
      · exact leaves_next h
      · exact endTransaction_shows hQ hs k _ _
      · exact endTransaction_shows hQ (badReplyFlag_shows hQ hs k _) k _ _
      · exact endTransaction_shows hQ (hQ.raiseShelf k .protocol hs) k _ _
      · exact endTransaction_shows hQ hs k _ _
    · exact leaves_next h
  | replyWindowClose k wire =>
    have hs : Shows Q (setWire k wire s) := h
    dsimp only [exec, execReplyWindowClose]
    split
    · exact endTransaction_shows hQ hs k _ _
    · exact leaves_next h
  | dataWireLevelChange k level => exact leaves_ite (leaves_next h) (leaves_next h)
  | busWireStuck k =>
    have hs : Shows Q (s.modShelf k fun sh => { sh with stuckTimer := none, stuckTold := true }) := h
    exact leaves_ite (leaves_next h) (hended _ _ (ite_keeps hs (hQ.raiseShelf k .busFault hs)))
  | attentionWireAsserted k => exact hended _ [] (addQuery_keeps (t := setWire k true s) hP k h)
  | attnHoldoffExpiry k wire =>
    have hs : Shows Q (setWire k wire (s.modShelf k fun sh => { sh with holdoff := none })) := h
    exact leaves_ite (leaves_next h) (hended _ _ (ite_keeps (addQuery_keeps hP k hs) hs))
  | pollTimerExpiry i =>
    have hs : Shows Q (s.modSlot i fun r =>
      { r with pollTimer := s.after (secs (s.shelf (shelfOf i)).pollSecs) }) := h
    exact leaves_ite (leaves_next h) (leaves_ite (leaves_next h) (conclude_shows hQ (submit_keeps hP i _ _ hs)))
  | locateWindowClose k =>
    dsimp only [exec, execLocateWindowClose]
    split
    · exact hended _ _ (closeWindow_keeps hQ.loose k _ _ _ _ h)
    · exact leaves_next h
  -- The runs.
  | phaseDone i phase => exact htaken _ _
  | phaseFailed i phase reason => exact htaken _ _
  | overTemp i => exact htaken _ _
  | driveFault i => exact htaken _ _
  | stopPhase i source code => exact htaken _ _
  | abortPlan i source code => exact htaken _ _
  | earlyStop i => exact htaken _ _
  | phaseWallSecond i => exact conclude_shows hQ (wallSecond_keeps hP i h)
  | wallTimeReached i => exact conclude_shows hQ (wallTest_keeps hP i h)
  | restExpiry i =>
    dsimp only [exec, execRestExpiry]
    split
    · exact leaves_ite (hended _ _ h) (leaves_next h)
    · exact leaves_next h
  | offTimeExpiry i =>
    dsimp only [exec, execOffTimeExpiry]
    split
    · exact leaves_ite (hended _ _ h) (leaves_next h)
    · exact leaves_next h
  | onTimeExpiry i =>
    dsimp only [exec, execOnTimeExpiry]
    split
    · exact leaves_ite (hended _ _ h) (leaves_next h)
    · exact leaves_next h
end

end Sys2Proof.Machine
end

section
/-! SUPPORT. Every step keeps the flags within their scopes, each scope in the notice list at most once and the two queues
within four (R204, R211, R217), and a set flag set but for EVENTS_CLEAR and RESET (R212, R215). -/

namespace Sys2Proof.Machine

/-! ## What each property is of -/

/-- A flag of a scope is set. -/
def flagShown (d : Scope) (bit : Nat) : LinkProp := fun flags _ _ _ => flags[d].getLsbD bit = true

/-- Every flag that is set exists in its scope (R211). -/
def flagsShown : LinkProp := fun flags _ _ _ => ∀ c : Scope, flags[c] &&& ~~~(scopeMask c) = 0#32

/-- Each scope stands in the notice list at most once (R217). -/
def noticesShown : LinkProp := fun _ notices _ _ => notices.Nodup

/-- The request queue and the BUSY list hold at most four each (R204). -/
def queuesShown : LinkProp := fun _ _ requests busyList => requests.length ≤ 4 ∧ busyList.length ≤ 4

theorem shows_flagShown {d : Scope} {bit : Nat} {s : State} : Shows (flagShown d bit) s ↔ flagSet s d bit = true := .rfl
theorem shows_flagsShown {s : State} : Shows flagsShown s ↔ FlagsExist s := .rfl
theorem shows_noticesShown {s : State} : Shows noticesShown s ↔ NoticesOnce s := .rfl
theorem shows_queuesShown {s : State} : Shows queuesShown s ↔ QueuesFit s := .rfl

/-! ## A set flag stays set (R212) -/

theorem flagShown_kept (d : Scope) (bit : Nat) : LinkKept (flagShown d bit) where
  raiseSlot _ _ h := flagSet_setFlagBit_of h _ _
  raiseShelf _ _ h := flagSet_setFlagBit_of h _ _
  raiseController _ h := flagSet_setFlagBit_of h _ _
  makePending {s} c h := (flagSet_congr (makePending_flags c s) d bit).trans h
  takeNotice _ h := h
  markServed h := h
  addRequest _ _ h := h
  addBusy _ _ h := h
  dropRequest h := h
  dropBusy h := h

/-- Settles O14: no operation of the link or of the blocks clears a flag. -/
theorem flagsStaySet : Obligations.FlagsStaySet :=
  fun c _ t hreset hclear ht d bit h =>
    shows_flagShown.1 (exec_shows (flagShown_kept d bit) (shows_flagShown.2 h) c hreset hclear t ht)

/-! ## The flags that exist (R211) -/

/-- The bit of a flag is one of its scope's. -/
theorem slotFlagBit_exists (i : Slot) (f : SlotFlag) : (1#32 <<< slotFlagBit f) &&& ~~~(scopeMask (slotScope i)) = 0#32 := by
  have hmask : scopeMask (slotScope i) = slotMask := if_pos i.isLt
  rw [hmask]
  cases f <;> decide

theorem shelfFlagBit_exists (k : Shelf) (f : ShelfFlag) :
    (1#32 <<< shelfFlagBit f) &&& ~~~(scopeMask (shelfScope k)) = 0#32 := by
  have hmask : scopeMask (shelfScope k) = shelfMask :=
    (if_neg (by simp [shelfScope])).trans (if_pos (show 24 + k.val < 27 by omega))
  rw [hmask]
  cases f <;> decide

theorem controllerFlagBit_exists (f : ControllerFlag) :
    (1#32 <<< controllerFlagBit f) &&& ~~~(scopeMask controllerScope) = 0#32 := by
  cases f <;> decide

/-- A scope whose set is replaced by flags that exist in it. -/
theorem FlagsExist.set {s t : State} {c : Scope} {v : BitVec 32} (h : FlagsExist s) (ht : t.flags = s.flags.set c v)
    (hv : v &&& ~~~(scopeMask c) = 0#32) : FlagsExist t := by
  intro d
  rw [ht]
  by_cases hdc : c = d
  · subst hdc
    simpa using hv
  · have hval : c.val ≠ d.val := fun e => hdc (Fin.ext e)
    have hread : (s.flags.set c v)[d] = s.flags[d] := Vector.getElem_set_ne _ _ hval
    rw [hread]
    exact h d

theorem and_not_or {a b m : BitVec 32} (ha : a &&& ~~~m = 0#32) (hb : b &&& ~~~m = 0#32) : (a ||| b) &&& ~~~m = 0#32 := by
  rw [BitVec.and_or_distrib_right, ha, hb, BitVec.or_zero]

theorem FlagsExist.setFlagBit {s : State} (h : FlagsExist s) {c : Scope} {bit : Nat}
    (hbit : (1#32 <<< bit) &&& ~~~(scopeMask c) = 0#32) : FlagsExist (setFlagBit c bit s) := by
  have hflags := setFlagBit_flags c bit s
  split at hflags
  · intro d
    rw [hflags]
    exact h d
  · exact h.set hflags (and_not_or (h c) hbit)

/-- Clearing leaves a part of the set. -/
theorem FlagsExist.clearFlags {s : State} (h : FlagsExist s) (c : Scope) (set : BitVec 32) :
    FlagsExist (clearFlags c set s) :=
  h.set rfl (by rw [BitVec.and_assoc, BitVec.and_comm (~~~_) (~~~_), ← BitVec.and_assoc, h c, BitVec.zero_and])

theorem flagsShown_kept : LinkKept flagsShown where
  raiseSlot i f h := FlagsExist.setFlagBit h (slotFlagBit_exists i f)
  raiseShelf k f h := FlagsExist.setFlagBit h (shelfFlagBit_exists k f)
  raiseController f h := FlagsExist.setFlagBit h (controllerFlagBit_exists f)
  makePending {s} c h := by
    unfold Shows
    rw [makePending_flags]
    exact h
  takeNotice _ h := h
  markServed h := h
  addRequest _ _ h := h
  addBusy _ _ h := h
  dropRequest h := h
  dropBusy h := h

/-! ## The notice list (R217) -/

theorem noticePending_iff {s : State} {c : Scope} : noticePending s c = true ↔ c ∈ s.notices := by simp [noticePending]

/-- The notice list after a scope's notice is made pending. -/
theorem makePending_notices (c : Scope) (s : State) :
    (makePending c s).notices = if c ∈ s.notices then s.notices else s.notices ++ [c] := by
  unfold makePending
  by_cases hc : c ∈ s.notices
  · rw [if_pos hc, if_pos (noticePending_iff.2 hc)]
  · rw [if_neg hc, if_neg (fun hp => hc (noticePending_iff.1 hp))]

theorem NoticesOnce.makePending {s : State} (h : NoticesOnce s) (c : Scope) : NoticesOnce (makePending c s) := by
  unfold NoticesOnce
  rw [makePending_notices]
  split
  · exact h
  · next hc => exact List.concat_eq_append ▸ List.Nodup.concat hc h

theorem NoticesOnce.setFlagBit {s : State} (h : NoticesOnce s) (c : Scope) (bit : Nat) :
    NoticesOnce (setFlagBit c bit s) := by
  have hs : NoticesOnce { s with flags := s.flags.set c (s.flags[c] ||| (1#32 <<< bit)) } := h
  exact ite_keeps h (ite_keeps (hs.makePending c) hs)

theorem noticesShown_kept : LinkKept noticesShown where
  raiseSlot _ _ h := NoticesOnce.setFlagBit h _ _
  raiseShelf _ _ h := NoticesOnce.setFlagBit h _ _
  raiseController _ h := NoticesOnce.setFlagBit h _ _
  makePending c h := NoticesOnce.makePending h c
  takeNotice {s c rest} hn h := by
    have hnodup : (c :: rest).Nodup := hn ▸ h
    exact hnodup.of_cons
  markServed h := h
  addRequest _ _ h := h
  addBusy _ _ h := h
  dropRequest h := h
  dropBusy h := h

/-! ## The queues (R204) -/

theorem length_markServed (l : List Request) : (markServed l).length = l.length := by
  induction l with
  | nil => rfl
  | cons q rest ih =>
    unfold markServed
    split
    · simp [ih]
    · rfl

theorem QueuesFit.setFlagBit {s : State} (h : QueuesFit s) (c : Scope) (bit : Nat) : QueuesFit (setFlagBit c bit s) := by
  rw [setFlagBit_frame]
  exact h

theorem queuesShown_kept : LinkKept queuesShown where
  raiseSlot _ _ h := QueuesFit.setFlagBit h _ _
  raiseShelf _ _ h := QueuesFit.setFlagBit h _ _
  raiseController _ h := QueuesFit.setFlagBit h _ _
  makePending c h := by
    rw [makePending_frame]
    exact h
  takeNotice _ h := h
  markServed {s} h := ⟨(length_markServed s.requests).trans_le h.1, h.2⟩
  addRequest q hroom h := ⟨by simpa using hroom, h.2⟩
  addBusy x hroom h := ⟨h.1, by simpa using hroom⟩
  dropRequest {s} h := ⟨(List.drop_sublist 1 s.requests).length_le.trans h.1, h.2⟩
  dropBusy {s} h := ⟨h.1, (List.drop_sublist 1 s.busyList).length_le.trans h.2⟩

/-! ## Every step -/

/-- A property that EVENTS_CLEAR and RESET keep as well. -/
structure LinkSteady (Q : LinkProp) : Prop extends LinkKept Q where
  clearFlags : ∀ {s : State} (c : Scope) (set : BitVec 32), Shows Q s → Shows Q (clearFlags c set s)
  reset : ∀ s : State, Shows Q (resetOf s)

/-- Every command leaves such a property. -/
theorem exec_steady {Q : LinkProp} (hQ : LinkSteady Q) (c : Instr) {s : State} (h : Shows Q s) :
    Leaves (Shows Q) (exec c s) := by
  cases c with
  | reset => exact leaves_next (hQ.reset s)
  | eventsClear tag p =>
    exact serve_shows (f := handleEventsClear p) hQ.toLinkKept
      (fun _ hu => withLength_stays (withFlagSet_stays fun c set => hQ.clearFlags c set hu)) h
  | _ => exact exec_shows hQ.toLinkKept h _ (by simp) (by simp)

/-- Every step keeps such a property. -/
theorem step_steady {Q : LinkProp} (hQ : LinkSteady Q) {s : State} (h : Shows Q s) : Leaves (Shows Q) (step s) := by
  unfold step
  split
  · next c rest _ => exact exec_steady hQ c (s := { s with pending := rest }) h
  · unfold idle
    split
    · exact exec_steady hQ _ h
    · exact leaves_next (s := tick s) h

theorem flagsShown_steady : LinkSteady flagsShown where
  toLinkKept := flagsShown_kept
  clearFlags c set h := FlagsExist.clearFlags h c set
  reset _ :=
    have ⟨_, hflags, _⟩ := soundAtReset
    hflags

theorem noticesShown_steady : LinkSteady noticesShown where
  toLinkKept := noticesShown_kept
  clearFlags _ _ h := h
  reset _ := List.nodup_nil

theorem queuesShown_steady : LinkSteady queuesShown where
  toLinkKept := queuesShown_kept
  clearFlags _ _ h := h
  reset _ := ⟨Nat.zero_le 4, Nat.zero_le 4⟩

/-- Settles O13: each of the three is a property that the operations of the link, EVENTS_CLEAR and RESET keep. -/
theorem stepsKeepFlagsNoticesAndQueues : Obligations.StepsKeepFlagsNoticesAndQueues := fun _ t ht =>
  ⟨fun h => step_steady flagsShown_steady (shows_flagsShown.2 h) t ht,
    fun h => step_steady noticesShown_steady (shows_noticesShown.2 h) t ht,
    fun h => step_steady queuesShown_steady (shows_queuesShown.2 h) t ht⟩

end Sys2Proof.Machine
end

section
/-! SUPPORT. Setting a flag (R212, R217); EVENTS_CLEAR, EVENTS_ENABLE and the condition flags (R213, R215, R216). -/

namespace Sys2Proof.Machine

/-! ## One bit of a flag set -/

theorem getLsbD_oneBit {bit : Nat} (hb : bit < 32) (n : Nat) : (1#32 <<< bit).getLsbD n = decide (n = bit) := by
  rw [BitVec.getLsbD_shiftLeft, BitVec.getLsbD_one, Bool.eq_iff_iff]
  simp only [Bool.and_eq_true, Bool.not_eq_true', decide_eq_true_eq, decide_eq_false_iff_not]
  omega

theorem getLsbD_bitIf {c : Bool} {bit : Nat} (hb : bit < 32) (n : Nat) :
    (bitIf c bit).getLsbD n = true ↔ n = bit ∧ c = true := by
  cases c
  · simp [bitIf]
  · simp [bitIf, getLsbD_oneBit hb]

/-! ## Setting a flag (R212, R217) -/

/-- Setting a flag leaves every other flag as it is. -/
theorem flagSet_setFlagBit_ne {c : Scope} {bit : Nat} (hb : bit < 32) (s : State) {d : Scope} {n : Nat}
    (hne : ¬(d = c ∧ n = bit)) : flagSet (setFlagBit c bit s) d n = flagSet s d n := by
  unfold flagSet
  rw [setFlagBit_flags]
  split
  · rfl
  · by_cases hdc : d = c
    · subst hdc
      have hn : n ≠ bit := fun e => hne ⟨rfl, e⟩
      simp [getLsbD_oneBit hb, hn]
    · have hval : c.val ≠ d.val := fun e => hdc (Fin.ext e.symm)
      simp [Vector.getElem_set_ne, hval]

/-- The notice list after a flag is set: the scope joins it if the flag was clear and is enabled and no notice of the scope is
pending. -/
theorem setFlagBit_notices (c : Scope) (bit : Nat) (s : State) :
    (setFlagBit c bit s).notices =
      if flagSet s c bit = false ∧ s.enables[c].getLsbD bit = true ∧ c ∉ s.notices then s.notices ++ [c]
      else s.notices := by
  unfold setFlagBit flagSet
  by_cases hset : s.flags[c].getLsbD bit = true
  · rw [if_pos hset, if_neg fun ⟨hclear, _⟩ => Bool.eq_false_iff.1 hclear hset]
  · rw [if_neg hset]
    by_cases henabled : s.enables[c].getLsbD bit = true
    · dsimp only
      rw [if_pos henabled, makePending_notices]
      by_cases hpending : c ∈ s.notices
      · rw [if_pos hpending, if_neg fun ⟨_, _, hno⟩ => hno hpending]
      · rw [if_neg hpending, if_pos ⟨Bool.eq_false_iff.2 hset, henabled, hpending⟩]
    · dsimp only
      rw [if_neg henabled, if_neg fun ⟨_, hon, _⟩ => henabled hon]

/-- Settles O11: the flag set, every other flag, the notice list, and nothing else. -/
theorem settingAFlag : Obligations.SettingAFlag := fun c bit s hb =>
  ⟨flagSet_setFlagBit c hb s, fun _ _ hne => flagSet_setFlagBit_ne hb s hne, setFlagBit_notices c bit s,
    setFlagBit_frame c bit s⟩

/-! ## The condition flags (R213) -/

theorem conditionsOf_slotScope (s : State) (i : Slot) : conditionsOf s (slotScope i) = slotConditions (s.slot i) :=
  dif_pos i.isLt

theorem conditionsOf_shelfScope (s : State) (k : Shelf) :
    conditionsOf s (shelfScope k) = bitIf (keyMissing s k) (shelfFlagBit .keyMissing) := by
  have hshelf : 24 + k.val < 27 := by omega
  simp [conditionsOf, shelfScope, hshelf]

theorem conditionsOf_controllerScope (s : State) : conditionsOf s controllerScope = 0#32 := rfl

theorem attnHeldCondition_iff {r : SlotRec} : attnHeldCondition r = true ↔ ∃ a, r.attn = some a ∧ a.stage = .host := by
  unfold attnHeldCondition
  cases r.attn <;> simp

theorem suspendedCondition_iff {r : SlotRec} :
    suspendedCondition r = true ↔ ∃ run, r.run = some run ∧ run.state = .suspended := by
  unfold suspendedCondition
  cases r.run <;> simp

theorem keyMissing_iff {s : State} {k : Shelf} :
    keyMissing s k = true ↔ s.wakePattern = [] ∧ ∃ i : Slot, shelfOf i = k ∧ (s.slot i).deadline.isSome := by
  have hset : (attachSet s k).isEmpty = false ↔ ∃ i : Slot, shelfOf i = k ∧ (s.slot i).deadline.isSome := by
    rw [List.isEmpty_eq_false_iff_exists_mem]
    simp only [mem_attachSet]
  simp [keyMissing, hset, and_comm]

theorem getLsbD_slotConditions {r : SlotRec} {bit : Nat} : (slotConditions r).getLsbD bit = true ↔
    (bit = slotFlagBit .attnHeld ∧ ∃ a, r.attn = some a ∧ a.stage = .host) ∨
      (bit = slotFlagBit .binWait ∧ r.occ = .binWait) ∨ (bit = slotFlagBit .segmentFull ∧ r.seg.overflow = true) ∨
      (bit = slotFlagBit .suspended ∧ ∃ run, r.run = some run ∧ run.state = .suspended) := by
  have hbits : ∀ f : SlotFlag, slotFlagBit f < 32 := fun f => by cases f <;> decide
  simp only [slotConditions, BitVec.getLsbD_or, Bool.or_eq_true, getLsbD_bitIf (hbits _), attnHeldCondition_iff,
    suspendedCondition_iff, decide_eq_true_eq, or_assoc]

/-! ## EVENTS_CLEAR and EVENTS_ENABLE (R215, R216) -/

/-- The state in which a scope's enable set has been replaced. -/
theorem setEnables_eq (c : Scope) (set : BitVec 32) (s : State) : setEnables c set s = { s with
    enables := s.enables.set c set
    notices := if s.flags[c] &&& set &&& ~~~s.enables[c] = 0#32 ∨ c ∈ s.notices then s.notices else s.notices ++ [c] } := by
  unfold setEnables
  dsimp only
  by_cases hfresh : s.flags[c] &&& set &&& ~~~s.enables[c] = 0#32
  · rw [if_pos hfresh, if_pos (.inl hfresh)]
  · rw [if_neg hfresh, makePending_frame, makePending_notices]
    simp only [hfresh, false_or]

/-- A request that leads to no tell, with its reply fields as they are formed from what it leaves. -/
theorem answerRequest_took {kind tag : Byte} {f : State → Handled} {s s' : State} {body : State → ReplyBody}
    {b : ReplyBody} (h : f s = .take s' [] body) (hb : body s' = b) :
    answerRequest kind tag f s = .next (answered kind tag .ok b s') :=
  hb ▸ answerRequest_quiet h

section
variable {p : List Byte} {c : Scope}

/-- A set whose bits are all flags of the scope it names. -/
theorem withFlagSet_val (hc : field8 p 0 = c.val) (hset : BitVec.ofNat 32 (field32 p 1) &&& ~~~(scopeMask c) = 0#32)
    (f : Scope → BitVec 32 → Handled) : withFlagSet p f = f c (BitVec.ofNat 32 (field32 p 1)) := by
  simp only [withFlagSet, hc, scopeOf_val, if_pos hset]

/-- A set with a bit that has no flag is refused. -/
theorem withFlagSet_noFlag (hc : field8 p 0 = c.val)
    (hset : BitVec.ofNat 32 (field32 p 1) &&& ~~~(scopeMask c) ≠ 0#32) (f : Scope → BitVec 32 → Handled) :
    withFlagSet p f = .refuse .badValue := by
  simp only [withFlagSet, hc, scopeOf_val, if_neg hset]

/-- A scope that does not exist is refused. -/
theorem withFlagSet_noScope (hc : 27 < field8 p 0) (f : Scope → BitVec 32 → Handled) :
    withFlagSet p f = .refuse .badValue := by
  simp only [withFlagSet, scopeOf_ge hc]

variable {tag : Byte} {s : State}

/-- Both requests refuse what their common test refuses. -/
theorem events_refuse (hp : p.length = 5) (href : ∀ f, withFlagSet p f = .refuse .badValue) :
    (NextServed 0x21#8 tag p s →
      exec (.eventsClear tag p) s = .next (answered 0x21#8 tag .badValue .none (serving 0x21#8 tag p s))) ∧
    (NextServed 0x22#8 tag p s →
      exec (.eventsEnable tag p) s = .next (answered 0x22#8 tag .badValue .none (serving 0x22#8 tag p s))) :=
  ⟨fun hn => serve_refuse (f := handleEventsClear p) hn ((withLength_eq hp _).trans (href _)),
    fun hn => serve_refuse (f := handleEventsEnable p) hn ((withLength_eq hp _).trans (href _))⟩

variable (hp : p.length = 5) (hc : field8 p 0 = c.val)
  (hset : BitVec.ofNat 32 (field32 p 1) &&& ~~~(scopeMask c) = 0#32)
include hp hc hset

theorem eventsClear_clears (hn : NextServed 0x21#8 tag p s) :
    let left := s.flags[c] &&& ~~~(BitVec.ofNat 32 (field32 p 1) &&& ~~~(conditionsOf s c))
    exec (.eventsClear tag p) s = .next (answered 0x21#8 tag .ok (.flagSet left)
      { serving 0x21#8 tag p s with flags := s.flags.set c left }) := by
  intro left
  have hread : (s.flags.set c left)[c] = left := Vector.getElem_set_self _
  exact (serve_next hn _).trans (answerRequest_took ((withLength_eq hp _).trans (withFlagSet_val hc hset _))
    (congrArg ReplyBody.flagSet hread))

theorem eventsEnable_enables (hn : NextServed 0x22#8 tag p s) :
    let set := BitVec.ofNat 32 (field32 p 1)
    exec (.eventsEnable tag p) s = .next (answered 0x22#8 tag .ok (.flagSet set)
      { serving 0x22#8 tag p s with
        enables := s.enables.set c set
        notices := if s.flags[c] &&& set &&& ~~~s.enables[c] = 0#32 ∨ c ∈ s.notices then s.notices
          else s.notices ++ [c] }) := by
  intro set
  have hread : (s.enables.set c set)[c] = set := Vector.getElem_set_self _
  exact (serve_next hn _).trans (answerRequest_took
    ((withLength_eq hp _).trans ((withFlagSet_val hc hset _).trans (by rw [setEnables_eq]; rfl)))
    (congrArg ReplyBody.flagSet hread))
end

/-- Settles O12: what both requests refuse, what each changes, and each condition flag. -/
theorem clearingAndEnablingFlags : Obligations.ClearingAndEnablingFlags := by
  refine ⟨fun tag p s hp => ⟨fun c hc => ⟨fun hset => ⟨eventsClear_clears hp hc hset, eventsEnable_enables hp hc hset⟩,
    fun hset => events_refuse hp (withFlagSet_noFlag hc hset)⟩, fun hc => events_refuse hp (withFlagSet_noScope hc)⟩,
    fun s i bit => ?_, fun s k bit => ?_, conditionsOf_controllerScope⟩
  · rw [conditionsOf_slotScope]
    exact getLsbD_slotConditions
  · rw [conditionsOf_shelfScope, getLsbD_bitIf (by decide), keyMissing_iff]

end Sys2Proof.Machine
end

section
/-! SUPPORT. What a step carries out (R205; log 1), what the transmitter takes (R207, R217), and the refusals that come before
the owner's tests (R206, R208). -/

namespace Sys2Proof.Machine

/-! ## A step (R205; log 1) -/

theorem step_front {c : Instr} {rest : List Instr} {s : State} (h : s.pending = c :: rest) :
    step s = exec c { s with pending := rest } := by
  rw [step, h]

theorem duty_request {q : Request} {s : State} (h : oldestUnserved s.requests = some q) :
    duty s = some (requestInstr q) := by
  rw [duty, h]
  rfl

theorem step_request {q : Request} {s : State} (hp : s.pending = []) (h : oldestUnserved s.requests = some q) :
    step s = exec (requestInstr q) s := by
  rw [step, hp, idle, duty_request h]

/-- Settles O1: the front of the queue first, and with none waiting the first of the duties. -/
theorem stepRunsTheFrontCommand : Obligations.StepRunsTheFrontCommand :=
  ⟨fun _ _ _ h => step_front h, fun _ _ hp h => step_request hp h⟩

/-! ## What an idle transmitter takes (R207, R217) -/

section
variable {s : State} (hidle : s.tx = none)
include hidle

theorem startTx_startup (h : s.startupSent = false) :
    startTx s = { s with tx := some (.startup s.sequence s.fastLink) } := by
  simp [startTx, hidle, h]

theorem startTx_reply {r : TxFrame} {rest : List TxFrame} (h : s.startupSent = true) (hr : s.replies = r :: rest) :
    startTx s = { s with replies := rest, tx := some r } := by
  simp [startTx, hidle, h, hr]

theorem startTx_notice {c : Scope} {rest : List Scope} (h : s.startupSent = true) (hr : s.replies = [])
    (hn : s.notices = c :: rest) : startTx s = { s with notices := rest, tx := some (.notice c s.sequence s.flags[c]) } := by
  simp [startTx, hidle, h, hr, hn, noticeFrame]
end

@[simp] theorem frameEnded_tx (f : TxFrame) (s : State) : (frameEnded f s).tx = s.tx := by cases f <;> rfl

theorem exec_txFrameEnd {f : TxFrame} {s : State} (h : s.tx = some f) :
    exec .txFrameEnd s = .next (startTx (frameEnded f { s with tx := none })) := by
  dsimp only [exec, execTxFrameEnd]
  rw [h]

/-- Settles O7: the frame's end leaves the transmitter idle, and an idle one takes the next frame. -/
theorem frameEndChoosesNext : Obligations.FrameEndChoosesNext := by
  intro f s hf
  have hidle : (frameEnded f { s with tx := none }).tx = none := frameEnded_tx f _
  refine ⟨_, exec_txFrameEnd hf, by cases f <;> rfl, fun hs => ?_, fun r rest hs hr => ?_, fun c rest hs hr hn => ?_⟩
  · rw [startTx_startup hidle hs]
  · rw [startTx_reply hidle hs hr]
    exact ⟨rfl, rfl⟩
  · rw [startTx_notice hidle hs hr hn]
    exact ⟨rfl, rfl⟩

/-! ## Before the owner (R206, R208) -/

theorem inCatalogue_eq_false {kind : Byte} (h : kind = 0 ∨ 0x22#8 < kind) : inCatalogue kind = false := by
  rw [inCatalogue, Bool.and_eq_false_iff, decide_eq_false_iff_not, decide_eq_false_iff_not]
  obtain rfl | hgt := h
  · exact .inl (by decide)
  · exact .inr (Nat.not_le.2 hgt)

/-- A request of another length than its kind's is answered BAD_LENGTH and changes nothing. -/
def LengthRefused (row : Byte × Nat × (Byte → List Byte → Instr)) : Prop :=
  ∀ (tag : Byte) (p : List Byte) (s : State), p.length ≠ row.2.1 → NextServed row.1 tag p s →
    exec (row.2.2 tag p) s = .next (answered row.1 tag .badLength .none (serving row.1 tag p s))

/-- A request whose handling begins with the test of its length is refused by it, whatever the rest would do. -/
theorem lengthRefused_of {kind : Byte} {n : Nat} {mk : Byte → List Byte → Instr} {f : List Byte → State → Handled}
    (h : ∀ tag p s, exec (mk tag p) s = serve kind tag p (fun s => withLength n p (f p s)) s) :
    LengthRefused (kind, n, mk) := fun tag p s hlen hnext =>
  (h tag p s).trans (serve_refuse hnext (withLength_ne hlen _))

/-- Settles O8: each row's handling begins with the test of its length. -/
theorem refusedBeforeTheOwner : Obligations.RefusedBeforeTheOwner := by
  refine ⟨fun kind tag p s hkind hnext => ?_, fun tag p s row hrow => ?_⟩
  · have hout : ¬inCatalogue kind = true := Bool.eq_false_iff.1 (inCatalogue_eq_false hkind)
    exact (if_neg hout).trans (serve_refuse hnext rfl)
  · refine (?_ : LengthRefused row) tag p s
    revert row
    simp only [List.forall_mem_cons, List.not_mem_nil, false_imp_iff, implies_true, and_true]
    and_intros <;> exact lengthRefused_of fun _ _ _ => rfl

end Sys2Proof.Machine
end

section
/-! SUPPORT. The receiver (R203): what one byte does at each place of a frame, and what a run of bytes comes to. -/

namespace Sys2Proof.Machine

/-! ## The bytes of a request's frame (R201) -/

theorem byteAt_append_left {a : List Byte} {n : Nat} (h : n < a.length) (b : List Byte) : byteAt (a ++ b) n = byteAt a n :=
  List.getD_append _ _ _ _ h

theorem byteAt_append_right {a : List Byte} {n : Nat} (h : a.length ≤ n) (b : List Byte) :
    byteAt (a ++ b) n = byteAt b (n - a.length) :=
  List.getD_append_right _ _ _ _ h

/-- The two bytes of a number below 65536 read it back. -/
theorem two_bytes {v : Nat} (h : v < 65536) :
    256 * (BitVec.ofNat 8 (v / 256)).toNat + (BitVec.ofNat 8 (v % 256)).toNat = v := by
  simp only [BitVec.toNat_ofNat]
  omega

section
variable (kind tag : Byte) {payload : List Byte}

/-- The bytes before the last one, and the last. -/
theorem requestFrame_split (payload : List Byte) : ∃ init last, requestFrame kind tag payload = init ++ [last] := by
  have hne : requestFrame kind tag payload ≠ [] := by simp [requestFrame]
  exact ⟨_, _, (List.dropLast_append_getLast hne).symm⟩

theorem requestFrame_length : (requestFrame kind tag payload).length = 6 + payload.length := by
  simp [requestFrame]
  omega

variable (hp : payload.length ≤ 250)
include hp

theorem requestFrame_count : field8 (requestFrame kind tag payload) 1 = payload.length := by
  have hbyte : byteAt (requestFrame kind tag payload) 1 = BitVec.ofNat 8 payload.length := rfl
  rw [field8, hbyte, BitVec.toNat_ofNat]
  omega

theorem requestFrame_payload :
    ((requestFrame kind tag payload).drop 4).take (field8 (requestFrame kind tag payload) 1) = payload := by
  rw [requestFrame_count kind tag hp]
  simp [requestFrame]

theorem requestFrame_check : checkOk (requestFrame kind tag payload) = true := by
  have hcovered : covered (requestFrame kind tag payload) = BitVec.ofNat 8 payload.length :: kind :: tag :: payload := by
    rw [covered, requestFrame_count kind tag hp, Nat.add_comm]
    simp [requestFrame]
  have hfield : field16 (requestFrame kind tag payload) (4 + payload.length) =
      (crc16 (BitVec.ofNat 8 payload.length :: kind :: tag :: payload)).toNat := by
    have hlen : (0xA5#8 :: BitVec.ofNat 8 payload.length :: kind :: tag :: payload).length = 4 + payload.length := by
      simp only [List.length_cons]
      omega
    rw [field16, field8, field8, requestFrame]
    rw [byteAt_append_right (by omega), byteAt_append_right (by omega), hlen]
    simpa [byteAt] using two_bytes (BitVec.isLt _)
  rw [checkOk, hcovered, requestFrame_count kind tag hp, hfield]
  exact decide_eq_true rfl
end

/-! ## One byte (R203) -/

section
variable {kind tag : Byte} {payload : List Byte} (hp : payload.length ≤ 250) {b : Byte} {s : State}
include hp

/-- A byte of a request's frame that does not complete it is held. -/
theorem takeByte_within {rest : List Byte} (h : s.held ++ b :: rest = requestFrame kind tag payload) (hrest : rest ≠ []) :
    takeByte b s = ({ s with held := s.held ++ [b] }, []) := by
  have hlen := congrArg List.length h
  rw [requestFrame_length, List.length_append, List.length_cons] at hlen
  have hpos : 0 < rest.length := List.length_pos_of_ne_nil hrest
  unfold takeByte
  split
  · next hheld =>
    rw [hheld] at h ⊢
    have hb : b = 0xA5#8 := List.head_eq_of_cons_eq h
    rw [if_pos hb]
    rfl
  · next x hheld =>
    rw [hheld] at h ⊢
    have hb : b = BitVec.ofNat 8 payload.length := List.head_eq_of_cons_eq (List.tail_eq_of_cons_eq h)
    have hcount : b.toNat ≤ 250 := by
      rw [hb, BitVec.toNat_ofNat]
      omega
    rw [if_pos hcount]
  · next hnil hone =>
    have hheld : 2 ≤ s.held.length := by
      rcases hs : s.held with _ | ⟨x, _ | ⟨y, tail⟩⟩
      · exact absurd hs hnil
      · exact absurd hs (hone x)
      · simp
    have hcount : field8 (s.held ++ [b]) 1 = payload.length := by
      rw [← requestFrame_count kind tag hp, ← h, field8, field8, byteAt_append_left (by omega), byteAt_append_left (by omega)]
    dsimp only
    rw [hcount, if_pos (by simp only [List.length_append, List.length_singleton]; omega)]

/-- The byte that completes a request's frame places the request. -/
theorem takeByte_completes (h : s.held ++ [b] = requestFrame kind tag payload) :
    takeByte b s = (arrive kind tag payload { s with held := [] }, []) := by
  have hlen := congrArg List.length h
  rw [requestFrame_length, List.length_append, List.length_singleton] at hlen
  unfold takeByte
  split
  · next hheld =>
    rw [hheld, List.length_nil] at hlen
    omega
  · next x hheld =>
    rw [hheld, List.length_singleton] at hlen
    omega
  · dsimp only
    rw [h, requestFrame_payload kind tag hp, requestFrame_count kind tag hp, requestFrame_length,
      if_neg (Nat.lt_irrefl _), if_pos (requestFrame_check kind tag hp)]
    rfl
end

/-- The byte that completes a frame with a wrong check drops it, and the bytes after its sync are taken again. -/
theorem takeByte_wrongCheck {n last : Byte} {rest : List Byte} {s : State} (h : s.held ++ [last] = 0xA5#8 :: n :: rest)
    (hrest : rest.length = 4 + n.toNat)
    (hcrc : (crc16 (n :: rest.take (2 + n.toNat))).toNat ≠ field16 rest (2 + n.toNat)) :
    takeByte last s = (abandon s, n :: rest) := by
  have hlen := congrArg List.length h
  simp only [List.length_append, List.length_cons, List.length_nil] at hlen
  have hcheck : ¬checkOk (0xA5#8 :: n :: rest) = true := by
    have hcovered : covered (0xA5#8 :: n :: rest) = n :: rest.take (2 + n.toNat) := by
      have hcount : 3 + n.toNat = (2 + n.toNat) + 1 := by omega
      rw [covered, show field8 (0xA5#8 :: n :: rest) 1 = n.toNat from rfl, hcount]
      rfl
    have hfield : field16 (0xA5#8 :: n :: rest) (4 + n.toNat) = field16 rest (2 + n.toNat) := by
      have hplace : 4 + n.toNat = (2 + n.toNat) + 2 := by omega
      rw [hplace]
      rfl
    rw [checkOk, hcovered, show field8 (0xA5#8 :: n :: rest) 1 = n.toNat from rfl, hfield]
    simpa using hcrc
  unfold takeByte
  split
  · next hheld =>
    rw [hheld, List.length_nil] at hlen
    omega
  · next x hheld =>
    rw [hheld, List.length_singleton] at hlen
    omega
  · dsimp only
    have hwhole : ¬(0xA5#8 :: n :: rest).length < 6 + n.toNat := by
      simp only [List.length_cons]
      omega
    rw [h, show field8 (0xA5#8 :: n :: rest) 1 = n.toNat from rfl, if_neg hwhole, if_neg hcheck]
    rfl

theorem held_eta {s : State} {l : List Byte} (h : s.held = l) : { s with held := l } = s := by
  subst h
  rfl

/-- In HUNT the sync byte begins a frame, and any other byte is discarded. -/
theorem takeByte_hunt {b : Byte} {s : State} (hs : s.held = []) :
    takeByte b s = ({ s with held := if b = 0xA5#8 then [b] else [] }, []) := by
  unfold takeByte
  rw [hs]
  dsimp only
  split
  · rfl
  · rw [held_eta hs]

/-- A length byte above 250 abandons the frame. -/
theorem takeByte_tooLong {b first : Byte} {s : State} (hs : s.held = [first]) (hb : 250 < b.toNat) :
    takeByte b s = (abandon s, []) := by
  unfold takeByte
  rw [hs]
  dsimp only
  rw [if_neg (Nat.not_le.2 hb)]

/-! ## A run of bytes -/

theorem takeBytes_nil (n : Nat) (s : State) : takeBytes n [] s = s := by cases n <;> rfl

theorem takeBytes_cons (n : Nat) (b : Byte) (rest : List Byte) (s : State) :
    takeBytes (n + 1) (b :: rest) s = takeBytes n ((takeByte b s).2 ++ rest) (takeByte b s).1 := rfl

/-- A byte that is taken with nothing to be re-examined. -/
theorem takeBytes_taken {n : Nat} {b : Byte} {s t : State} (hn : 0 < n) (h : takeByte b s = (t, [])) (rest : List Byte) :
    takeBytes n (b :: rest) s = takeBytes (n - 1) rest t := by
  obtain ⟨m, rfl⟩ := Nat.exists_eq_add_of_le' hn
  rw [takeBytes_cons, h]
  rfl

/-- In HUNT bytes other than the sync byte are discarded. -/
theorem takeBytes_hunt {n : Nat} {l : List Byte} {s : State} (hs : s.held = []) (hl : ∀ b ∈ l, b ≠ 0xA5#8)
    (hn : l.length ≤ n) (more : List Byte) : takeBytes n (l ++ more) s = takeBytes (n - l.length) more s := by
  induction l generalizing n with
  | nil => rfl
  | cons b l ih =>
    obtain ⟨hb, hl⟩ := List.forall_mem_cons.1 hl
    rw [List.length_cons] at hn ⊢
    rw [List.cons_append, takeBytes_taken (by omega) (takeByte_hunt hs), if_neg hb, held_eta hs, ih hl (by omega)]
    congr 1
    omega

section
variable {kind tag : Byte} {payload : List Byte} (hp : payload.length ≤ 250)
include hp

/-- The bytes of a request's frame that do not complete it are held. -/
theorem takeBytes_within {n : Nat} {l rest : List Byte} {s : State}
    (h : s.held ++ (l ++ rest) = requestFrame kind tag payload) (hrest : rest ≠ []) (hn : l.length ≤ n)
    (more : List Byte) : takeBytes n (l ++ more) s = takeBytes (n - l.length) more { s with held := s.held ++ l } := by
  induction l generalizing n s with
  | nil =>
    rw [List.append_nil]
    rfl
  | cons b l ih =>
    rw [List.length_cons] at hn ⊢
    have htaken := takeByte_within (rest := l ++ rest) hp h (by simp [hrest])
    have hheld : (s.held ++ [b]) ++ (l ++ rest) = requestFrame kind tag payload := by simpa using h
    rw [List.cons_append, takeBytes_taken (by omega) htaken, ih hheld (by omega), List.append_assoc]
    congr 1
    omega

/-- A whole frame that begins in HUNT brings its request. -/
theorem takeBytes_frame {n : Nat} {s : State} (hs : s.held = []) (hn : (requestFrame kind tag payload).length ≤ n) :
    takeBytes n (requestFrame kind tag payload) s = arrive kind tag payload s := by
  obtain ⟨init, last, hframe⟩ := requestFrame_split kind tag payload
  rw [hframe, List.length_append, List.length_singleton] at hn
  have hheld : s.held ++ (init ++ [last]) = requestFrame kind tag payload := by rw [hs, hframe, List.nil_append]
  have hlast : (s.held ++ init) ++ [last] = requestFrame kind tag payload := by rw [← hheld, List.append_assoc]
  rw [hframe, takeBytes_within hp hheld (by simp) (by omega),
    takeBytes_taken (by omega) (takeByte_completes hp hlast), takeBytes_nil]
  exact congrArg _ (held_eta hs)
end

/-- A received byte, and what it leaves to be re-examined. -/
theorem receiveByte_eq (b : Byte) (s : State) : receiveByte b s =
    takeBytes 65535 (takeByte b { s with lastHostByte := s.now }).2 (takeByte b { s with lastHostByte := s.now }).1 := by
  rw [receiveByte, ← List.append_nil (takeByte b _).2]
  exact takeBytes_cons 65535 b [] _

theorem receiveByte_taken {b : Byte} {s t : State} (h : takeByte b { s with lastHostByte := s.now } = (t, [])) :
    receiveByte b s = t := by
  rw [receiveByte_eq, h, takeBytes_nil]

theorem abandon_held (s : State) : (abandon s).held = [] := by
  rw [abandon, raiseController, setFlagBit_frame]

theorem exec_hostByteReceived (b : Byte) (s : State) : exec (.hostByteReceived b) s = .next (startTx (receiveByte b s)) :=
  conclude_nil _

theorem exec_hostFrameReceived (b : Byte) (s : State) : exec (.hostFrameReceived b) s = .next (startTx (receiveByte b s)) :=
  conclude_nil _

/-- A byte with a framing error abandons the frame in assembly, if there is one. -/
theorem receiveBroken_eq (s : State) : receiveBroken s =
    if s.held = [] then { s with lastHostByte := s.now } else abandon { s with lastHostByte := s.now } := by
  unfold receiveBroken
  simp only [List.isEmpty_iff]

end Sys2Proof.Machine
end

section
/-! SUPPORT. A request's frame arrives (R201, R204), and how a frame in reception ends (R203, R204). -/

namespace Sys2Proof.Machine

/-! ## The frame of a request, byte by byte -/

/-- While a frame is received, the request queue, the slots, the shelves and the flags stay as they are. -/
structure Receiving (s t : State) : Prop where
  requests : t.requests = s.requests
  slots : t.slots = s.slots
  shelves : t.shelves = s.shelves
  flags : t.flags = s.flags

theorem receiveAll_cons {b : Byte} {s t : State} (h : takeByte b { s with lastHostByte := s.now } = (t, []))
    (rest : List Byte) : receiveAll (b :: rest) s = receiveAll rest (startTx t) := by
  rw [receiveAll, exec_hostByteReceived, receiveByte_taken h]

/-- The bytes of a request's frame that do not complete it are held, one command after another. -/
theorem receiveAll_within {kind tag : Byte} {payload l rest : List Byte} {s : State} (hp : payload.length ≤ 250)
    (h : s.held ++ (l ++ rest) = requestFrame kind tag payload) (hrest : rest ≠ []) (more : List Byte) :
    ∃ t, receiveAll (l ++ more) s = receiveAll more t ∧ t.held = s.held ++ l ∧ Receiving s t := by
  induction l generalizing s with
  | nil => exact ⟨s, rfl, (List.append_nil _).symm, rfl, rfl, rfl, rfl⟩
  | cons b l ih =>
    have htaken := takeByte_within (s := { s with lastHostByte := s.now }) (rest := l ++ rest) hp h (by simp [hrest])
    have hnext := receiveAll_cons htaken (l ++ more)
    obtain ⟨t, ht, hheld, hkept⟩ :=
      ih (s := startTx { s with lastHostByte := s.now, held := s.held ++ [b] }) (by simpa using h)
    refine ⟨t, hnext.trans ht, by simpa using hheld, ?_⟩
    exact ⟨hkept.requests.trans (startTx_requests _), hkept.slots.trans (startTx_slots _),
      hkept.shelves.trans (startTx_shelves _), hkept.flags.trans (startTx_flags _)⟩

/-- Settles O5: all bytes of the frame but the last are held, and the last one places the request. -/
theorem requestFrameArrives : Obligations.RequestFrameArrives := by
  refine ⟨fun b s hs => ?_, fun kind tag payload s hp hs hroom => ?_⟩
  · rw [exec_hostByteReceived, receiveByte_taken (takeByte_hunt (s := { s with lastHostByte := s.now }) hs)]
  · obtain ⟨init, last, hframe⟩ := requestFrame_split kind tag payload
    have hbytes : s.held ++ (init ++ [last]) = requestFrame kind tag payload := by rw [hs, hframe, List.nil_append]
    obtain ⟨t, ht, hheld, hkept⟩ := receiveAll_within hp hbytes (by simp) [last]
    have hlast : t.held ++ [last] = requestFrame kind tag payload := by rw [hheld, ← hbytes, List.append_assoc]
    have hplaced := receiveAll_cons (takeByte_completes (s := { t with lastHostByte := t.now }) hp hlast) []
    have hroom' : t.requests.length < 4 := hkept.requests ▸ hroom
    refine ⟨_, (hframe ▸ ht).trans hplaced, ?_⟩
    rw [arrive, if_pos hroom']
    simp [hkept.requests, hkept.slots, hkept.shelves, hkept.flags]

/-! ## How a frame ends -/

/-- A command that ends in a state, a ready frame taken. -/
abbrev concluded (s : State) : Out := .next (startTx s)

/-- After a frame with a wrong check nothing is held, LINK_ERROR is set, and the bytes after its sync are taken again. -/
theorem receiveByte_wrongCheck {n last : Byte} {rest : List Byte} {s : State} (h : s.held ++ [last] = 0xA5#8 :: n :: rest)
    (hrest : rest.length = 4 + n.toNat)
    (hcrc : (crc16 (n :: rest.take (2 + n.toNat))).toNat ≠ field16 rest (2 + n.toNat)) :
    receiveByte last s =
      takeBytes 65535 (n :: rest) (raiseController .linkError { s with held := [], lastHostByte := s.now }) := by
  rw [receiveByte_eq, takeByte_wrongCheck (s := { s with lastHostByte := s.now }) h hrest hcrc]
  rfl

section
variable {kind tag : Byte} {payload skipped : List Byte} {u : State} (hu : u.held = [])
  (hskip : ∀ b ∈ skipped, b ≠ 0xA5#8)
include hu hskip

/-- Bytes among which there is no sync byte are all discarded. -/
theorem takeBytes_skip {n : Nat} (hn : skipped.length ≤ n) : takeBytes n skipped u = u := by
  rw [← List.append_nil skipped, takeBytes_hunt hu hskip hn, takeBytes_nil]

variable (hp : payload.length ≤ 250)
include hp

/-- Bytes that end within a frame leave it held as far as it goes. -/
theorem takeBytes_skip_within {n m : Nat} (hm : m < (requestFrame kind tag payload).length) (hn : skipped.length + m ≤ n) :
    takeBytes n (skipped ++ (requestFrame kind tag payload).take m) u =
      { u with held := (requestFrame kind tag payload).take m } := by
  have hlen : ((requestFrame kind tag payload).take m).length = m := List.length_take_of_le hm.le
  have hbytes : u.held ++ ((requestFrame kind tag payload).take m ++ (requestFrame kind tag payload).drop m) =
      requestFrame kind tag payload := by rw [hu, List.take_append_drop, List.nil_append]
  have hrest : (requestFrame kind tag payload).drop m ≠ [] := List.ne_nil_of_length_pos (by rw [List.length_drop]; omega)
  rw [takeBytes_hunt hu hskip (by omega), ← List.append_nil ((requestFrame kind tag payload).take m),
    takeBytes_within hp hbytes hrest (by omega), takeBytes_nil, hu, List.append_nil, List.nil_append]

/-- Bytes that end with a frame bring its request. -/
theorem takeBytes_skip_frame {n : Nat} (hn : skipped.length + (requestFrame kind tag payload).length ≤ n) :
    takeBytes n (skipped ++ requestFrame kind tag payload) u = arrive kind tag payload u := by
  rw [takeBytes_hunt hu hskip (by omega), takeBytes_frame hp hu (by omega)]
end

/-- Settles O6: the byte that completes a frame, one that completes it with a wrong check, and the three ways a frame is
abandoned. -/
theorem framesEnd : Obligations.FramesEnd := by
  unfold Obligations.FramesEnd
  intro place
  refine ⟨fun kind tag payload last s hp hframe => ?_, fun n last rest s hn hframe hrest hcrc => ?_,
    fun b first s hs hb => ?_, fun b s hs => ?_, fun b s hs => ?_, fun s hs => ?_⟩
  · rw [exec_hostFrameReceived, receiveByte_taken (takeByte_completes (s := { s with lastHostByte := s.now }) hp hframe)]
    rfl
  · intro u
    have hu : u.held = [] := abandon_held { s with lastHostByte := s.now }
    have hlen : (n :: rest).length ≤ 65535 := by
      rw [List.length_cons]
      omega
    rw [exec_hostByteReceived, receiveByte_wrongCheck hframe hrest hcrc]
    refine ⟨fun hnone => ?_, fun skipped kind tag payload hp hskip => ⟨fun m _ hm hbytes => ?_, fun hbytes => ?_⟩⟩
    · exact congrArg concluded (takeBytes_skip hu hnone hlen)
    · rw [hbytes, List.length_append, List.length_take_of_le hm.le] at hlen
      rw [hbytes]
      exact congrArg concluded (takeBytes_skip_within hu hskip hp hm hlen)
    · rw [hbytes, List.length_append] at hlen
      rw [hbytes]
      exact congrArg concluded (takeBytes_skip_frame hu hskip hp hlen)
  · have htaken := takeByte_tooLong (s := { s with lastHostByte := s.now }) hs hb
    exact (conclude_nil _).trans (congrArg concluded (receiveByte_taken htaken))
  · have hbroken := (receiveBroken_eq s).trans (if_neg hs)
    exact (conclude_nil _).trans (congrArg concluded hbroken)
  · have hbroken := (receiveBroken_eq s).trans (if_pos hs)
    exact (conclude_nil _).trans (congrArg concluded hbroken)
  · have hheld : ¬s.held.isEmpty = true := by simpa using hs
    exact (if_neg hheld).trans (conclude_nil _)

end Sys2Proof.Machine
end
